-- ==== Sys2Proof/Word.lean ====
section
/-!
DEFINITION. The word types of the module and their plainest arithmetic. Registers are 64-bit words (R61, R142 and the
other register rules), memory is addressed by byte with 44-bit device physical addresses (R31).
-/

namespace Sys2Proof

/-- One 64-bit register or clasp word. -/
abbrev Word := BitVec 64

/-- One byte of memory, of a packet or of a record. -/
abbrev Byte := BitVec 8

/-- 2^32, the modulus of command and reply sequence numbers (R223). -/
abbrev two32 : Nat := 4294967296

/-- 2^64, the modulus of clasp values and GTIME. -/
abbrev two64 : Nat := 18446744073709551616

end Sys2Proof
end

