-- ==== Sys2Proof/Syntax.lean ====
section
/-!
DEFINITION. The commands of the block: one constructor of `Instr` for every row of spec/opcode_table.json, with the row's
operands. A row that the spec times carries `now`, the GTIME at which it happens (log entry 6); a row that stands for a
measurement carries what was measured (log entry 12); a bead or message row carries the whole message (log entry 13).
-/

namespace Sys2Proof

/-- Who performs a register access, where the effect depends on it (R37, R496). -/
inductive Writer where
  /-- A host-die core. -/
  | host
  /-- Steward firmware of hub `p`. -/
  | steward (p : Nat)
  /-- The Hasia die `d`: 0 HM-A, 1 HM-B. -/
  | hasia (d : Nat)
  /-- The tray controller over the management port. -/
  | tray
  /-- A Jalter context. -/
  | context (c : Nat)
  deriving DecidableEq, Repr

/-- A pip's access: a load, a store, or a read of the `time` CSR (R115, R116). -/
inductive PipOp where
  | load
  | store
  | timeRead
  deriving DecidableEq, Repr

/-- A bead: its 64-bit header and its 64-byte payload (R312). -/
structure Bead where
  /-- Header word (R312). -/
  head : Word
  /-- Payload, 64 bytes. -/
  pay : List Byte
  deriving DecidableEq, Repr

/-- A message: its head bead and the bytes of its data beads (R314, R315). -/
structure Msg where
  /-- Head bead. -/
  head : Bead
  /-- Bytes of the data beads in order. -/
  data : List Byte
  deriving DecidableEq, Repr

/-- What a partition's units did in one microsecond, the counts the activity estimate is formed from (R401, R402). -/
structure Activity where
  /-- ME steps per format class: MXFP8, MXFP6, MXFP4, INT8, BF16/FP16, FP32. -/
  steps : List Nat
  /-- Bytes moved to or from HBM. -/
  hbmBytes : Nat
  /-- Other bytes moved. -/
  otherBytes : Nat
  /-- Pith steps. -/
  pithSteps : Nat
  /-- Running pips. -/
  pips : Nat
  /-- Demand of queued ME and mover work without bubbles, in µW. -/
  demand : Nat
  /-- Pith that the idle MEs can supply, in µW. -/
  pithCap : Nat
  deriving DecidableEq, Repr

/-- One set of 20 µs regulator samples (R412). -/
structure Telemetry where
  /-- Current in 10 mA, voltage in mV and power in 0.1 W of each of the 24 channels, or none where the sample is missing. -/
  rails : List (Option (Nat × Nat × Nat))
  /-- Inlet temperature in °C. -/
  inletC : Nat
  deriving DecidableEq, Repr

/-- What a start of the module meets: the outcomes that the hardware itself, not a command, decides (log entry 11). -/
structure BootEnv where
  /-- Outcomes by number; an absent entry is a success. -/
  fails : List Nat
  deriving DecidableEq, Repr

/-- A fault record (R565). -/
structure ErrRec where
  /-- Fault code. -/
  code : Nat
  /-- Level of the record. -/
  level : Nat
  /-- Die index. -/
  die : Nat
  /-- Unit. -/
  unit : Nat
  /-- Context, 0x3FF for none. -/
  ctx : Nat
  /-- CSEQ. -/
  cseq : Nat
  /-- Address. -/
  addr : Nat
  deriving DecidableEq, Repr

/-- The commands: one constructor per row of spec/opcode_table.json. -/
inductive Instr where
  /-- INTAKE_STORE, R214. A host-die store of 1 to 64 bytes into an intake window fills the bridge unit buffer and appends each completed 64-byte unit to the intake stream. -/
  | intakeStore (now ctx off : Nat) (data : List Byte)
  /-- INTAKE_ABANDON, R217. When INTAKE_STALL expires on an admitted incomplete packet, the packet and the partial unit buffer are abandoned and their units return to FREE. -/
  | intakeAbandon (now ctx : Nat)
  /-- PACKET_CHECK, R224. The hub checks a complete admitted packet for seal and sequence, then either accepts it or rejects it, with a rejection reply the first time. -/
  | packetCheck (ctx : Nat)
  /-- CSB_READ, R236. A read of an intake window at offsets 0 to 63 returns the Context Status Block, and a read that includes offset 0 latches a fresh copy. -/
  | csbRead (ctx off len : Nat)
  /-- COMMAND_START, R226. An accepted command starts once its start conditions hold: order, waits, region conflicts, journal slots, MAXFLIGHT, ORDERED and free units. -/
  | commandStart (now ctx : Nat)
  /-- COMMAND_RETIRE, R228. A finished command retires in CSEQ order once ring space allows: journal retire or rollback, SIG, LAST_DONE_CSEQ, then the reply. -/
  | commandRetire (now ctx : Nat)
  /-- WAIT_LIMIT_EXPIRE, R244. When a command's wait time reaches WAIT_LIMIT, it retires with TIMEOUT and its DETAIL names the unsatisfied wait. -/
  | waitLimitExpire (now ctx : Nat)
  /-- MOVE, R258. MOVE copies a strided source to a local or remote destination on the claimed decoder movers. -/
  | move (ctx cseq : Nat)
  /-- FILL, R258. FILL writes an 8-byte pattern over a strided destination on the claimed decoder movers. -/
  | fill (ctx cseq : Nat)
  /-- GATHER, R259. GATHER moves the rows selected by an index list, after checking every offset against its declared span. -/
  | gather (ctx cseq : Nat)
  /-- SCATTER, R259. SCATTER moves rows to index-list offsets on one mover in list order, after checking every offset against its declared span. -/
  | scatter (ctx cseq : Nat)
  /-- MATMUL, R265. MATMUL divides C into 128 x 128 tiles run as ME chains, with operands staged through per-ME slots. -/
  | matmul (ctx cseq : Nat)
  /-- MATMUL_ACC, R268. MATMUL_ACC computes round(C + A·B) into the journaled in-place C region. -/
  | matmulAcc (ctx cseq : Nat)
  /-- CONVERT, R270. CONVERT converts a ROWS x COLS tensor between formats on free pips, using the firmware conversion routine. -/
  | convert (ctx cseq : Nat)
  /-- RUN, R273. RUN claims units, maps the image and regions under Sv48, and starts kernel harts with their arguments. -/
  | run (ctx cseq : Nat)
  /-- RUN_WAIT, R276. RUN_WAIT runs a kernel as RUN does and finishes only when DONE_CLASP reaches DONE_TARGET. -/
  | runWait (ctx cseq : Nat)
  /-- ATTN_PAGES, R277. ATTN_PAGES reads the page list once and queues one press group per GROUP_PAGES pages to the memory-tier dies. -/
  | attnPages (ctx cseq : Nat)
  /-- KV_APPEND, R278. KV_APPEND converts and writes NTOK K and V token rows into a journaled KV page. -/
  | kvAppend (ctx cseq : Nat)
  /-- KV_EVICT, R279. KV_EVICT copies whole 64 KiB pages between HBM and the tier, zeroing each source page when ZERO_SRC is set. -/
  | kvEvict (ctx cseq : Nat)
  /-- ALLREDUCE, R357. ALLREDUCE sends each member's chunks up the tree to be folded and writes the result at every member. -/
  | allreduce (ctx cseq : Nat)
  /-- REDUCE, R357. REDUCE folds every member's chunks up the tree and writes the result at the root rank only. -/
  | reduce (ctx cseq : Nat)
  /-- BCAST, R357. BCAST sends the root rank's chunks down the tree unchanged to every member. -/
  | bcast (ctx cseq : Nat)
  /-- ALLGATHER, R357. ALLGATHER passes every member's chunks through the tree unchanged, placed by ELEM0 at every member. -/
  | allgather (ctx cseq : Nat)
  /-- BARRIER, R364. BARRIER marks the member as arrived at the collective barrier, with an optional NOT_BEFORE time. -/
  | barrier (ctx cseq : Nat)
  /-- WAIT, R283. WAIT does nothing and retires once WAIT0 and WAIT1 are satisfied. -/
  | wait (ctx cseq : Nat)
  /-- SIGNAL, R284. SIGNAL applies ADD or SET (the SET clearing TAINT) to a clasp as one atomic update at start, and returns the prior value. -/
  | signal (ctx cseq : Nat)
  /-- SIGNAL_REMOTE, R285. SIGNAL_REMOTE sends one clasp-signal bead to a remote rank at retirement, with the taint of its own status. -/
  | signalRemote (ctx cseq : Nat)
  /-- CFG_BEGIN, R287. CFG_BEGIN opens a transaction on a scope and returns its transaction number. -/
  | cfgBegin (now ctx cseq : Nat)
  /-- CFG_SET, R288. CFG_SET stages a value for an ST field of the transaction's scope. -/
  | cfgSet (now ctx cseq : Nat)
  /-- CFG_GET, R288. CFG_GET returns the committed bits of a register field in AUX. -/
  | cfgGet (ctx cseq : Nat)
  /-- CFG_COMMIT, R549. CFG_COMMIT validates the staged set and holds conflicting command starts until its scope becomes quiescent. -/
  | cfgCommit (now ctx cseq : Nat)
  /-- COMMIT_SAFE_POINT, R549. When quiescence holds, every staged field is applied at one safe point, trees are re-derived where needed, and held commands are released. -/
  | commitSafePoint (now txn : Nat)
  /-- COMMIT_BUSY_EXPIRE, R549. When quiescence does not hold within 50 ms, the commit retires with COMMIT_BUSY and the transaction stays open. -/
  | commitBusyExpire (now txn : Nat)
  /-- CFG_ROLLBACK, R287. CFG_ROLLBACK discards the transaction's staged fields and closes it. -/
  | cfgRollback (now ctx cseq : Nat)
  /-- TRANSACTION_ABANDON, R551. A transaction idle for 10 s is abandoned, its staged values are discarded and its scope is freed. -/
  | transactionAbandon (now txn : Nat)
  /-- HINT_PHASE, R410. HINT_PHASE sets the partition's hint target and schedules the hint_level ramp. -/
  | hintPhase (now ctx cseq : Nat)
  /-- CAP_REQUEST, R290. CAP_REQUEST passes a cap or tile-domain request to Hasia and retires with Hasia's decision. -/
  | capRequest (now ctx cseq : Nat)
  /-- CAP_REQUEST_TIMEOUT, R290. When Hasia has not answered a CAP_REQUEST within 2 s, the request is withdrawn and the command retires with TIMEOUT. -/
  | capRequestTimeout (now ctx cseq : Nat)
  /-- MANAGEMENT_WAIT_TIMEOUT, R304. A command waiting on management that exceeds its bound by more than 2 s retires with TIMEOUT and changes nothing. -/
  | managementWaitTimeout (now ctx cseq : Nat)
  /-- CAP_QUERY, R291. CAP_QUERY answers the partition's cap state from the hub's power-limit registers, without Hasia. -/
  | capQuery (ctx cseq : Nat)
  /-- CNT_ENABLE, R591. CNT_ENABLE loads the selectors, zeroes the bank and starts counting, or stops the bank when ENABLE is 0. -/
  | cntEnable (ctx cseq : Nat)
  /-- CNT_READ, R591. CNT_READ writes the bank's counter values as a 128-byte record. -/
  | cntRead (ctx cseq : Nat)
  /-- CAMEO, R598. CAMEO arms a dump of a named tensor at a given step count, effective at its retirement. -/
  | cameo (ctx cseq : Nat)
  /-- CAMEO_DUMP, R600. A queued dump runs on the hub copy engine under the bandwidth limit, writes its header and tensor, and applies DONE. -/
  | cameoDump (now p : Nat)
  /-- CAMEO_CANCEL, R294. CAMEO_CANCEL disarms an armed cameo or reports that its dump is running, finished or unknown. -/
  | cameoCancel (ctx cseq : Nat)
  /-- SESSION_OPEN, R295. SESSION_OPEN has Locket decapsulate the tenant ciphertext, derive session keys, seal contexts and make partitions confidential. -/
  | sessionOpen (now ctx cseq : Nat)
  /-- SESSION_CLOSE, R296. SESSION_CLOSE destroys the session keys, unseals its contexts and takes its partitions out of the confidential state. -/
  | sessionClose (now ctx cseq : Nat)
  /-- QUOTE, R472. QUOTE has Locket sign a record of the hallmarks, the nonce and the per-boot key, and writes it to DST. -/
  | quote (now ctx cseq : Nat)
  /-- KEY_ROTATE, R481. KEY_ROTATE mixes the tenant contribution into the session secret and derives the session's context keys again. -/
  | keyRotate (now ctx cseq : Nat)
  /-- FENCE, R299. FENCE aborts the unretired commands of a context or partition and sets STATE.FENCED, or the bezel for a partition. -/
  | fence (ctx cseq : Nat)
  /-- RESUME, R299. RESUME clears STATE.FENCED and, for a partition target, opens the bezel. -/
  | resume (ctx cseq : Nat)
  /-- CTX_RESET, R299. CTX_RESET performs a recovery reset (MODE 0) or an initialisation (MODE 1) of another context. -/
  | ctxReset (ctx cseq : Nat)
  /-- STATUS_QUERY, R300. STATUS_QUERY returns the issuer's FREE, INFLIGHT and RACK, or writes another context's Context Status Block to DST. -/
  | statusQuery (ctx cseq : Nat)
  /-- RECORD_START, R383. RECORD_START begins recording the context's external inputs into a tier ring and writes the ring header. -/
  | recordStart (ctx cseq : Nat)
  /-- RECORD_STOP, R302. RECORD_STOP ends recording with an END record and reports the records written and any overflow. -/
  | recordStop (ctx cseq : Nat)
  /-- REPLAY_START, R388. REPLAY_START validates a recording ring and starts replaying it into a target context. -/
  | replayStart (ctx cseq : Nat)
  /-- REPLAY_FEED, R389. During a replay the hub feeds recorded packets into the target's intake and applies the recorded external inputs before each anchor. -/
  | replayFeed (p : Nat)
  /-- REPLAY_END, R391. A replay ends after its last packet retires or a divergence stops it, and the replay clasp table is discarded. -/
  | replayEnd (p : Nat)
  /-- MEQ_PUSH, R118. meq.push reads a 128-byte ME descriptor, checks it and queues it on a logical ME, returning a status. -/
  | meqPush (tile hart rd rs1 rs2 : Nat)
  /-- MVQ_PUSH, R118. mvq.push reads a 128-byte mover descriptor, checks it and queues it on a mover, returning a status. -/
  | mvqPush (tile hart rd rs1 rs2 : Nat)
  /-- CLASP_WAIT, R120. clasp.wait stalls the hart until a clasp reaches its target, WAITLIM expires or an interrupt traps. -/
  | claspWait (now tile hart rd rs1 rs2 : Nat) (irq : Bool)
  /-- CLASP_WAIT_TIMEOUT, R120. When WAITLIM expires first, clasp.wait completes with rd = 1. -/
  | claspWaitTimeout (now tile hart : Nat)
  /-- CLASP_ADD, R121. clasp.add atomically adds to a clasp and returns the clasp's prior value. -/
  | claspAdd (tile hart rd rs1 rs2 : Nat)
  /-- EVT_RAISE, R123. evt.raise raises one occurrence of a source in the tile's software event group. -/
  | evtRaise (tile hart rs1 : Nat)
  /-- CNT_SNAP, R124. cnt.snap writes the context's latched counters and GTIME as a 128-byte record in tile store. -/
  | cntSnap (tile hart rd rs1 : Nat)
  /-- PIP_ACCESS, R115. A pip load or store is checked against its context's rights and either performed or raises an access fault. -/
  | pipAccess (tile hart : Nat) (kind : PipOp) (addr len : Nat) (data : List Byte)
  /-- PIP_TRAP_UNHANDLED, R275. A kernel trap that the supervisor does not handle resets the command's harts, aborts its movers and retires it with DROPPED_BAD_DATA. -/
  | pipTrapUnhandled (tile hart cause : Nat)
  /-- PIP_EXIT, R274. pip_exit ends a hart with an exit code, and RUN finishes when every started hart has ended. -/
  | pipExit (tile hart code : Nat)
  /-- CAMEO_NAME, R597. cameo_name binds or unbinds an entry of the context's cameo name table. -/
  | cameoName (tile hart n addr len fmt : Nat)
  /-- HOST_ACCESS, R38. A host-die load or store through the device window reaches a device address or takes an access fault under R39. -/
  | hostAccess (write : Bool) (addr len : Nat) (data : List Byte)
  /-- ME_DESCRIPTOR_START, R102. An ME takes its next queued descriptor into execution, which preempts pith. -/
  | meDescriptorStart (tile me : Nat)
  /-- ME_DESCRIPTOR_COMPLETE, R101. An ME finishes a descriptor, writes out its results if LAST is set, and applies SIG once. -/
  | meDescriptorComplete (tile me : Nat)
  /-- ME_OWNER_CHANGE_LAND, R103. A pending CT.OWN.ME_PIP change lands once that ME's queue is empty and no chain is open. -/
  | meOwnerChangeLand (tile me : Nat)
  /-- MOVER_DESCRIPTOR_START, R126. A mover takes its next queued descriptor and walks the transfer in stream order. -/
  | moverDescriptorStart (tile mv : Nat)
  /-- MOVER_CHUNK, R132. A mover delivers one chunk with its CRC-32C check, locally or as one remote message. -/
  | moverChunk (now tile mv : Nat)
  /-- MOVER_DESCRIPTOR_COMPLETE, R133. A mover ends a descriptor once every chunk is acknowledged, applying SIG or faulting on a negative acknowledgement. -/
  | moverDescriptorComplete (tile mv : Nat)
  /-- ACK_TIMEOUT, R318. When a message's acknowledgement timer expires, the mover stops with CHUNK and the command retires with TIMEOUT. -/
  | ackTimeout (now tile mv msgseq : Nat)
  /-- PIP_RESET, R139. A write of PIP.CTL.RST stops one hart, drains its stores and restarts it at the monitor reset vector. -/
  | pipReset (now tile hart : Nat) (by_ : Writer)
  /-- PIP_RESET_DRAIN_EXPIRE, R139. After 50 µs, responses still owed are absorbed, unwritten dirty lines are discarded and LOSSY is set. -/
  | pipResetDrainExpire (now tile hart : Nat)
  /-- ME_GROUP_RESET, R140. A write of CT.RST.GRPA or GRPB resets four physical MEs, cancelling their queues and open chains. -/
  | meGroupReset (now tile grp : Nat) (by_ : Writer) (completes : Bool)
  /-- ME_GROUP_POWER_CYCLE, R140. A group reset not complete after 2 ms makes the hub switch the group's power domain off and on. -/
  | meGroupPowerCycle (now tile grp : Nat)
  /-- MOVER_ABORT, R141. A write of MV.CTL.ABORT stops a mover at its next bead boundary and cancels its descriptors. -/
  | moverAbort (tile mv : Nat) (by_ : Writer)
  /-- UNIT_FAULT_POP, R142. A write of POP to ME.FAULT or MV.FAULT removes the oldest fault record. -/
  | unitFaultPop (tile : Nat) (mover : Bool) (unit : Nat) (by_ : Writer)
  /-- TS_ECC_CLEAR, R142. A write of TS.ECC.CLR clears the tile-store error counts. -/
  | tsEccClear (tile : Nat) (by_ : Writer)
  /-- TS_SCRUB_ROW, R112. Every 64 µs each tile-store bank scrubs one row and writes back corrected words. -/
  | tsScrubRow (tile bank : Nat) (upsets : List (Nat × Bool))
  /-- MEMORY_READ, R153. A read of an HBM or tier codeword is decoded and classed Clean, Corrected, Address, Poison or Uncorrectable. -/
  | memoryRead (addr : Nat) (upsets : List (Nat × Nat))
  /-- MEMORY_WRITE, R157. A codeword write replaces a whole codeword, or read-modify-writes a partial one and refuses a partial write into a bad codeword. -/
  | memoryWrite (addr : Nat) (data : List Byte)
  /-- MEMORY_SCRUB, R160. The hub and tier dies read each codeword once per SCRUB_HOURS, writing back and logging as a demand read does. -/
  | memoryScrub (addr : Nat) (upsets : List (Nat × Nat))
  /-- MEMORY_REFRESH, R164. Per-bank refresh runs at its interval and delays requests to the bank. -/
  | memoryRefresh (die unit : Nat)
  /-- MEMORY_CALIBRATION, R161. Periodic calibration runs on one pseudo-channel or channel at a time, holding its requests. -/
  | memoryCalibration (die unit : Nat) (active : Bool)
  /-- CHANNEL_RETRAIN, R162. A corrected-read threshold, PHY margin alarm or Hasia order starts a full retrain of an HBM or LPDDR5X channel. -/
  | channelRetrain (now die unit : Nat) (cause : Nat)
  /-- CHANNEL_RETRAIN_END, R163. A channel retrain completes, or fails and marks the channel failed so that later accesses return BAD_DATA. -/
  | channelRetrainEnd (die unit : Nat) (ok : Bool)
  /-- ECCSTAT_CLEAR, R183. A write of ECCSTAT.CLR clears the corrected and uncorrectable counts. -/
  | eccstatClear (die : Nat) (by_ : Writer)
  /-- UELOG_POP, R183. A write of UELOG.POP removes the oldest uncorrectable-log record. -/
  | uelogPop (die : Nat) (by_ : Writer)
  /-- SEGMENT_FILL_COMPLETE, R150. The zero fill of a tier segment that changed owner completes and its FILLING clears. -/
  | segmentFillComplete (now seg : Nat)
  /-- XTS_FILL_COMPLETE, R169. The HBM and tier zero fills of a partition entering or leaving the confidential state complete. -/
  | xtsFillComplete (now p : Nat)
  /-- PRESS_GROUP_DISPATCH, R197. A memory-tier die dispatches queued groups to free press engines in weighted round-robin over partitions. -/
  | pressGroupDispatch (die : Nat)
  /-- PRESS_GROUP_COMPLETE, R190. A press engine finishes a group and writes one partial record per query row. -/
  | pressGroupComplete (die engine : Nat)
  /-- PRESS_ENGINE_RESET, R202. A write of TD.PECTL.RST resets a press engine and redispatches its group to another engine. -/
  | pressEngineReset (now die engine : Nat) (by_ : Writer) (completes : Bool)
  /-- PRESS_RESET_TIMEOUT, R202. A press engine whose reset has not completed in 500 µs is fenced off and marked FAILED. -/
  | pressResetTimeout (now die engine : Nat)
  /-- FRAME_RECEIVE, R321. A receiving link end checks a frame's FCRC and FSEQ, applies ACKSEQ, NAK and XOFF, and passes on or discards its beads. -/
  | frameReceive (now link : Nat) (frame : List Byte)
  /-- RETRY_TIMEOUT, R322. When ACKSEQ has not advanced for RETRY_US, the sender resends from its oldest unacknowledged frame. -/
  | retryTimeout (now link : Nat)
  /-- LANE_SWAP, R323. A lane over its error threshold is replaced by a trained spare, agreed through link beads at a codeword boundary. -/
  | laneSwap (link : Nat) (rx : Bool) (lane : Nat)
  /-- LINK_FULL_RETRAIN, R324. A full retrain holds the link's traffic, re-equalises lanes, remeasures RTT_NS and resumes from the retry buffer. -/
  | linkFullRetrain (now link : Nat) (rttNs : Nat) (placed : Bool)
  /-- LINK_RETRAIN_TIMEOUT, R324. A retrain not completed after 50 ms fails the link with cause RETRAIN_TIMEOUT. -/
  | linkRetrainTimeout (now link : Nat)
  /-- LINK_DOWN, R340. A link going down discards its queued beads and retry buffer, and aborts every slice that uses it. -/
  | linkDown (now link cause : Nat)
  /-- LINK_TRAINING, R311. A link trains, exchanges identities, checks them and comes up or stays down with a cause; a failed link retries every second. -/
  | linkTraining (now link : Nat) (screenOk : Bool)
  /-- LASER_FAULT, R309. A laser-source fault takes its three links down with cause LASER. -/
  | laserFault (now src : Nat)
  /-- LINK_RETRAIN_ORDER, R345. A write of LX.CTL.RETRAIN starts a full retrain of the link. -/
  | linkRetrainOrder (now link : Nat) (by_ : Writer)
  /-- LINK_ENABLE_WRITE, R325. Clearing LX.CTL.ENABLE takes the link down with cause ORDERED. -/
  | linkEnableWrite (now link : Nat) (v : Bool) (by_ : Writer)
  /-- MSG_HEAD, R317. A message at its destination is checked, its chunk is written and verified, and an ACK carries the result. -/
  | msgHead (now link : Nat) (m : Msg)
  /-- ACK, R133. An ACK bead reports one chunk's result to the sending mover. -/
  | ack (now link : Nat) (b : Bead)
  /-- CLASP_BEAD, R243. An incoming clasp-signal bead applies its increment and taint to a destination clasp that its slice permits. -/
  | claspBead (link : Nat) (b : Bead)
  /-- ABORT_BEAD, R342. An ABORT bead for a known, matching and unaborted slice aborts it and is forwarded on every other up link. -/
  | abortBead (now link : Nat) (b : Bead)
  /-- SLICE_ABORT, R341. A slice abort sets ABORTED, logs the record, retires the slice's commands with ABORTED_SLICE, fences its contexts and floods ABORT beads. -/
  | sliceAbort (now entry cause link : Nat)
  /-- MULTICAST_REPLICATE, R339. A fabric die replicates a multicast message to every output its group entry names. -/
  | multicastReplicate (link : Nat) (m : Msg)
  /-- RED_HEAD, R352. A reduction chunk arrives from a child link or local member as input to the tree. -/
  | redHead (now link : Nat) (m : Msg)
  /-- CHUNK_FOLD, R354. Once every input of chunk k has arrived, a reduction unit verifies and folds them in ascending SRANK and emits the result. -/
  | chunkFold (now entry coll chunk : Nat)
  /-- MC_HEAD, R359. A member writes a descending output chunk to DST and verifies its check. -/
  | mcHead (now link : Nat) (m : Msg)
  /-- BAR_UP, R366. A BAR_UP is folded, and the module sends its own BAR_UP, or at the root the BAR_DOWN, once all its members and children have reported. -/
  | barUp (now link : Nat) (b : Bead)
  /-- BAR_DOWN, R367. A BAR_DOWN RELEASE or DONE arrives and schedules a barrier release or retires collective members. -/
  | barDown (now link : Nat) (b : Bead)
  /-- BARRIER_RELEASE, R367. At RELEASE_AT on the module's GTIME, the comparator releases the member BARRIERs. -/
  | barrierRelease (now entry : Nat)
  /-- COLLECTIVE_TIMEOUT, R362. A member's collective timer expires; it retires with TIMEOUT and the slice is aborted with cause 10. -/
  | collectiveTimeout (now ctx cseq : Nat)
  /-- TRAY_SYNC_RISE, R369. The rise of TRAY_SYNC releases an armed MODE 2 tree's barrier at each member module. -/
  | traySyncRise (now : Nat)
  /-- TRAY_SYNC_REDRIVE, R369. 200 ns after detecting the rise, each member drives TRAY_SYNC low again and NEXT_COLL rises. -/
  | traySyncRedrive (now : Nat)
  /-- TIME_BEAD_SEND, R372. Every PERIOD_US each up link sends a TIME bead stamped at the frame start. -/
  | timeBeadSend (now link : Nat)
  /-- TIME_BEAD, R372. A TIME bead from the parent yields offset and delay for a GTIME load or slew. -/
  | timeBead (now link : Nat) (b : Bead)
  /-- TIME_PARENT_LOSS, R376. After 100 µs without a TIME bead from the parent, a new parent is chosen and EST_ERR grows. -/
  | timeParentLoss (now : Nat)
  /-- MASTER_TIME_TIMEOUT, R373. After 1 s of training with no neighbour advertising time, the master sets LOADED without a load. -/
  | masterTimeTimeout (now : Nat)
  /-- TRAIN, R311. A TRAIN link bead carries an end's identity and probe for the identity check and RTT measurement. -/
  | train (now link : Nat) (b : Bead)
  /-- STOP, R325. A STOP link bead from a neighbour takes the link down with cause PEER_STOP. -/
  | stop (now link : Nat) (b : Bead)
  /-- REFERENCE_LOSS, R60. A reference input outside ±500 ppm for 40 ns switches every PLL to the holdover oscillator. -/
  | referenceLoss
  /-- REFERENCE_RETURN, R60. After the reference has been within ±20 ppm for 10 ms, the PLLs switch back from holdover. -/
  | referenceReturn (now : Nat)
  /-- ESTIMATE_STEP, R402. Every 1 µs each hub computes its activity estimate, bubble fraction, pith and smoothed level. -/
  | estimateStep (now p : Nat) (act : Activity)
  /-- TELEMETRY_SAMPLE, R412. Each 20 µs regulator sample updates the measured loop, LIMIT_EST, divergence and plausibility checks. -/
  | telemetrySample (now : Nat) (smp : Telemetry)
  /-- MANAGEMENT_CYCLE, R433. Every 1 ms the active Hasia allocates caps, sends the state image, releases its outputs and sends its heartbeat. -/
  | managementCycle (now : Nat)
  /-- OVER_POWER_TRIP, R394. Input power over 4,400 W averaged over 20 µs drives every hub's emergency input. -/
  | overPowerTrip (now : Nat)
  /-- OVER_POWER_RELEASE, R394. The comparator releases the emergency input 10 ms after the input falls back below 4,400 W. -/
  | overPowerRelease (now : Nat)
  /-- PWRLIM_ASSERT, R418. PWRLIM_N low for 1 µs applies the emergency cap in every hub directly. -/
  | pwrlimAssert (now : Nat)
  /-- EMERGENCY_CAUSE_TIMEOUT, R418. When no cause is reported within 20 ms of PWRLIM_N, Hasia takes the cause to be cooling loss. -/
  | emergencyCauseTimeout (now : Nat)
  /-- EMERGENCY_END, R419. Once PWRLIM_N has been high for 10 ms and the comparator is released, the emergency state ends. -/
  | emergencyEnd (now : Nat)
  /-- TRAY_CAUSE_REPORT, R418. A write of HM.TRAYRPT reports shelf loss or cooling loss, and EMERG_EST is rewritten. -/
  | trayCauseReport (shelf cool : Bool) (by_ : Writer)
  /-- INPUT_VOLTAGE_EVENT, R393. Input voltage leaving its envelope limits the input cap or, past its time limits, starts a fast stop. -/
  | inputVoltageEvent (now mv durUs : Nat)
  /-- SHED_STEP, R422. Under the cooling cap with a die at SHED_C, Hasia sheds the next partition every 10 ms, and restores them later in reverse order. -/
  | shedStep (now : Nat)
  /-- THERMAL_TRIP, R423. A die at 115 °C asserts THERMTRIP_N, switches off every switched domain and latches the trip. -/
  | thermalTrip (die : Nat)
  /-- DOMAIN_OFF_ORDER, R396. A partition's tile domains ordered off fence the partition, abort its commands, descend at the ramp and switch off. -/
  | domainOffOrder (now p : Nat)
  /-- DOMAIN_ON, R395. When the on-rule becomes true, a partition's tile domains come on at idle draw and ramp up. -/
  | domainOn (now p : Nat)
  /-- KEEPALIVE, R424. A write of PH.PWRCTL.KEEPALIVE restarts the hub's 2 s timer and clears any safe fall-back. -/
  | keepalive (now p : Nat) (by_ : Writer)
  /-- KEEPALIVE_TIMEOUT, R424. A hub with no keepalive for 2 s sets its safe fall-back and descends to SAFE_EST. -/
  | keepaliveTimeout (now p : Nat)
  /-- TRAY_HEARTBEAT, R424. A write of HM.TRAYHB is a tray heartbeat, and it ends a lost-heartbeat state. -/
  | trayHeartbeat (now v : Nat) (by_ : Writer)
  /-- TRAY_HEARTBEAT_LOSS, R424. After 5 s without a tray heartbeat, Hasia takes SAFE_PCT of 4,100 W as the rack cap. -/
  | trayHeartbeatLoss (now : Nat)
  /-- OP_CHANGE, R46. A change of HM.PWRCFG.OP slews the rails to the new operating point without quiescence. -/
  | opChange (op : Nat)
  /-- TARNISH_EVAL, R425. At bring-up and every 24 h, Hasia evaluates die drift and raises the ageing offset. -/
  | tarnishEval (die drift : Nat)
  /-- WEAR_DAILY, R457. Every 24 h of uptime, Hasia samples each wear item, estimates its remaining life and fires wear events. -/
  | wearDaily (now : Nat) (samples : List Nat)
  /-- RACK_ORDER_WRITE, R395. A write of HM.RACKORD changes RACK_ON or HD_ON, switching domains under the on-rule. -/
  | rackOrderWrite (now v : Nat) (by_ : Writer)
  /-- STATE_IMAGE, R437. The standby checks a state image's CRC and sequence and acknowledges or discards it. -/
  | stateImage (now seq : Nat) (crcOk : Bool)
  /-- HEARTBEAT_SILENCE, R439. No active heartbeat at two consecutive cycle boundaries makes the standby declare the active silent. -/
  | heartbeatSilence (now : Nat)
  /-- TAKEOVER, R441. The standby seizes the latch, loads its latest image, reads back the hubs, runs the takeover check and releases outputs. -/
  | takeover (now : Nat) (fails : List Nat)
  /-- HASIA_RESTART, R446. The new active captures the silent die's crash record and power-cycles it, or holds it off after three restarts in 24 h. -/
  | hasiaRestart (now : Nat)
  /-- SWAP, R445. A write of HM.ROLECTL.SWAP hands ownership to the standby at the next cycle boundary. -/
  | swap (now : Nat) (by_ : Writer)
  /-- TAKE_BACK, R447. A restored die takes ownership back by ordered handover after TAKEBACK_CYCLES acknowledged images. -/
  | takeBack (now : Nat)
  /-- AO_WAKE_CYCLE, R449. With no spine heartbeat from either die for 10 s, the AO logic cycles domains 98 and 99 once. -/
  | aoWakeCycle (now : Nat)
  /-- REG_READ, R451. The I3C REG_READ command reads words of the management-only space. -/
  | regRead (addr count : Nat)
  /-- REG_WRITE, R451. The I3C REG_WRITE command writes words of the management-only space. -/
  | regWrite (now addr : Nat) (words : List Word)
  /-- PKT, R451. The I3C PKT command submits a Jalter packet for the management context. -/
  | pkt (now : Nat) (bytes : List Byte)
  /-- REPLY, R451. The I3C REPLY command returns a held management-context reply. -/
  | reply (rseq : Option Nat)
  /-- CSB, R451. The I3C CSB command returns the management context's Context Status Block. -/
  | csb
  /-- TELEM, R455. The I3C TELEM command returns the latest 128-byte telemetry block. -/
  | telem
  /-- EVENTS, R451. The I3C EVENTS command returns up to 16 unread tray event records. -/
  | events
  /-- I3C_DYNAMIC_ADDRESS, R613. The tray controller assigns the module's I3C dynamic address with SETDASA or ENTDAA. -/
  | i3cDynamicAddress (addr : Nat)
  /-- FW_STAGE, R630. A TFTP write of fw/stage writes a bundle into the inactive bank, has Locket verify it and marks it staged. -/
  | fwStage (now : Nat) (bundle : List Byte)
  /-- DUMP_READ, R583. A TFTP read of dump/n returns a held crash dump. -/
  | dumpRead (n : Nat)
  /-- LOG_READ, R454. A TFTP read of log/events, log/errors or log/wear returns that log. -/
  | logRead (which : Nat)
  /-- SVN_COMMIT, R465. A write of LK.SVNCTL.COMMIT raises every MINSVN to the running image's SVN. -/
  | svnCommit (by_ : Writer)
  /-- LMS_TREE_GENERATE, R469. Locket completes the background generation of the next bottom-level LMS tree. -/
  | lmsTreeGenerate
  /-- LINK_KEYING_SUBMIT, R484. A write of LK.LINKCTL.SUBMIT runs the next step of the link keying exchange. -/
  | linkKeyingSubmit (n : Nat) (by_ : Writer)
  /-- LINK_KEY_DROP, R491. A write of LK.LINKCTL.DROP destroys a link key and sets STATE to NONE. -/
  | linkKeyDrop (n : Nat) (by_ : Writer)
  /-- DEBUG_NONCE_REQ, R490. A write of LK.DBGCTL.NONCE_REQ makes Locket generate a fresh debug nonce. -/
  | debugNonceReq (by_ : Writer)
  /-- DEBUG_UNLOCK_SUBMIT, R490. A write of LK.DBGCTL.SUBMIT checks the authorisation record and unlocks spine debug, closing every session. -/
  | debugUnlockSubmit (now : Nat) (by_ : Writer)
  /-- EVENT_OCCURRENCE, R492. An occurrence at an event source increments its count and makes it pending. -/
  | eventOccurrence (src : Nat)
  /-- LEVEL_CHANGE, R497. A level source's condition changes and is sensed under its MODE, through the glitch filter for sideband pins. -/
  | levelChange (now src : Nat) (level : Bool)
  /-- CLAIM, R501. A CLAIM read, or sevclaim, returns the winning source and marks it active. -/
  | claim (now k : Nat)
  /-- COMPLETE, R502. A COMPLETE write, or sevdone, clears a source's active bit. -/
  | complete (k src : Nat)
  /-- STRAND_RECORD, R510. For a strand target, the EVC claims a winner, writes one record or counts an overflow, and completes the source. -/
  | strandRecord (now k : Nat)
  /-- STRAND_CONS_WRITE, R509. A target writes CONS to free strand records. -/
  | strandConsWrite (k v : Nat)
  /-- HOLDOFF_EXPIRE, R505. A group's hold-off timer expires and its sources become candidates again. -/
  | holdoffExpire (now g : Nat)
  /-- GLOBAL_DISABLE_WRITE, R506. A write of EVC.GCTL.DIS stops or resumes all event selection. -/
  | globalDisableWrite (v : Bool) (by_ : Writer)
  /-- SOURCE_MASK_WRITE, R507. A write of MASK masks a source, withdrawing it after the single late delivery window. -/
  | sourceMaskWrite (now src : Nat) (v : Bool) (by_ : Writer)
  /-- SOURCE_MODE_WRITE, R498. A write that changes MODE or FILT clears the source's pending state when the source is idle. -/
  | sourceModeWrite (src mode filt : Nat) (by_ : Writer)
  /-- ROUTE_WRITE, R503. A write of ROUTE takes effect once the source is neither selected nor active. -/
  | routeWrite (src r : Nat) (by_ : Writer)
  /-- COLD_START, R519. A cold start runs Locket boot, Hasia boot, power ramp, training, memory test and initialisation, assay, resets and readiness. -/
  | coldStart (now : Nat) (env : BootEnv)
  /-- MODULE_RESET, R577. A module reset captures, aborts slices, fences bezels, puts memory in self-refresh and continues as a warm start. -/
  | moduleReset (now cause : Nat) (env : BootEnv)
  /-- TIME_WAIT_EXPIRE, R531. When TIME_WAIT_S expires at step 12, the module reports readiness with TIME_LOADED 0. -/
  | timeWaitExpire (now : Nat)
  /-- HOLD3_WRITE, R621. Clearing HM.SEQCTL.HOLD3 releases bring-up held at the end of step 2. -/
  | hold3Write (now : Nat) (v : Bool) (by_ : Writer)
  /-- NODE_ID_WRITE, R520. A write of NODE_ID, ZSIZE or MASTER during bring-up sets identity and starts or restarts link training. -/
  | nodeIdWrite (now node zsize master : Nat)
  /-- OVERLAY_APPEND, R534. The owner Hasia appends a soft-fuse entry and writes it to both MCB copies. -/
  | overlayAppend (entry : Word)
  /-- OVERLAY_CLEAR, R535. A write of HM.SFCTL.CLEAR empties the overlay in RMA, and is ignored otherwise. -/
  | overlayClear (by_ : Writer)
  /-- MCB_WRITE, R544. Hasia writes the whole MCB image to copy A and then to copy B with the next GEN. -/
  | mcbWrite (okA okB : Bool)
  /-- REGISTER_WRITE, R546. A write to a register with no row of its own sets its RW fields at the block's safe point and ignores or counts ST and FX bits. -/
  | registerWrite (now addr : Nat) (v : Word) (by_ : Writer)
  /-- ERROR_RECORD, R557. A fault record enters its domain's queue and opens or escalates a handling. -/
  | errorRecord (now dom : Nat) (rec_ : ErrRec)
  /-- HANG_WINDOW_EXPIRE, R562. A unit's progress window expires without an advance, producing a hang record. -/
  | hangWindowExpire (now unit : Nat)
  /-- WATCHDOG_MISS, R564. A steward core that misses its LIMIT_MS kick sets WDOG_EXP and produces a level-2 record. -/
  | watchdogMiss (now p core : Nat)
  /-- WDOG_KICK, R564. A write of PH.WDOG.KICK restarts a steward core's watchdog. -/
  | wdogKick (now p bits : Nat) (by_ : Writer)
  /-- CONTEXT_RECOVERY_RESET, R560. A level-0 action flushes a context's descriptors, resets its harts and discards its unretired commands. -/
  | contextRecoveryReset (now ctx cause : Nat)
  /-- ENGINE_RESET, R561. A level-1 action resets one unit and retires the commands it cancels. -/
  | engineReset (now dom unit cause : Nat)
  /-- ACTION_OVERRUN, R559. A level action that exceeds its bound escalates its domain with CODE 0x30. -/
  | actionOverrun (now dom : Nat)
  /-- PARTITION_RESET, R569. A partition reset captures, fences, aborts slices, resets units, restores contexts and clasps, rolls back the journal and reopens. -/
  | partitionReset (now p cause : Nat)
  /-- POWER_CYCLE_REQUEST, R579. At level 4, Hasia sets PWRCYC_REQ, queues a tray record and holds ALERT_N low. -/
  | powerCycleRequest (now dom : Nat)
  /-- CAPTURE, R581. Before a level action, Hasia captures the named state over the spine into a dump. -/
  | capture (now dom : Nat) (unreadable : List Nat)
  /-- CAPTURE_BOUND_EXPIRE, R582. A capture that reaches its bound marks the remaining parts unreadable, sets TRUNCATED and lets the action start. -/
  | captureBoundExpire (now : Nat)
  /-- SPINE_ACCESS_TIMEOUT, R582. A spine access unanswered for 50 µs marks its part and that die UNREADABLE. -/
  | spineAccessTimeout (die : Nat)
  /-- BEZEL_FENCE, R567. A fence order makes the bezel refuse new requests, drain or answer outstanding ones, and become FENCED. -/
  | bezelFence (p : Nat) (by_ : Writer)
  /-- BEZEL_OPEN, R568. An open order opens the bezel when no fence order is pending and no reset holds it. -/
  | bezelOpen (p : Nat) (by_ : Writer)
  /-- ERRQ_POP, R588. A write of PH.ERRQ0.POP removes the oldest error record. -/
  | errqPop (p : Nat) (by_ : Writer)
  /-- ABORTLOG_POP, R345. A write of FD.ABORTLOG.POP removes the oldest slice-abort record. -/
  | abortlogPop (f : Nat) (by_ : Writer)
  /-- POWER_UP, R614. PWR_EN high with PRESENT_N closed soft-starts the input stage, raises PWR_GOOD and begins a cold start. -/
  | powerUp (now : Nat) (env : BootEnv)
  /-- ORDERED_SHUTDOWN, R617. PWR_EN low for 1 ms stops links, aborts slices, fences bezels, writes the MCB and switches off. -/
  | orderedShutdown (now : Nat)
  /-- RESET_N_ASSERT, R616. RESET_N low starts a module reset, or holds a cold start at the end of step 2, until release. -/
  | resetNAssert (now : Nat)
  /-- RESET_N_RELEASE, R616. Release of RESET_N lets a held module reset or cold start continue. -/
  | resetNRelease (now : Nat) (env : BootEnv)
  /-- FORCE_OFF, R397. FORCE_OFF_N low for 1 µs switches off all switched domains and the lasers. -/
  | forceOff
  /-- FORCE_OFF_RELEASE, R397. Release of FORCE_OFF_N restarts the module cold from the Locket ROM. -/
  | forceOffRelease (now : Nat) (env : BootEnv)
  /-- FAST_STOP, R625. PRESENT_N opening or an input fault sends STOP beads, switches off lasers and domains and writes a fast-stop record. -/
  | fastStop (now cause : Nat)
  /-- FLASH_RECOVERY, R629. During boot failure, the tray controller erases and programs the firmware banks through the recovery bridge. -/
  | flashRecovery (banks : List Nat)
  /-- UCIE_LANE_REPAIR, R537. A UCIe lane whose errors exceed the link's threshold is replaced by a spare in a retrain holding traffic for at most 100 µs, and a link left without a full set of good lanes fails and produces a fault record. -/
  | ucieLaneRepair (die port : Nat) (ok : Bool)
  /-- POWER_DOMAIN_FAULT, R427. A regulator that cannot hold a rail above 0.55 V for 10 µs makes its power domain faulty, and the domain is switched off and handled under the fault codes 0x22 to 0x24. -/
  | powerDomainFault (now dom : Nat)
  /-- PWRLIM_RELEASE, R419. PWRLIM_N returning high deasserts the hubs' emergency input unless the over-power comparator still holds it, and starts the 10 ms count toward the end of the emergency state. -/
  | pwrlimRelease (now : Nat)
  /-- IMAGE_ACK_TIMEOUT, R433. When the standby has not acknowledged state image k within 200 µs, the active releases the outputs of cycle k without waiting. -/
  | imageAckTimeout (now : Nat)
  /-- INPUT_POWER_APPLIED, R614. 48 V arriving within 40.0 to 59.5 V at the mated blades brings up the AO domain within 50 ms, with Locket waiting for PWR_EN, and a PWR_EN already high is then acted on. -/
  | inputPowerApplied (mv : Nat)
  /-- SPEED_MONITOR_UPDATE, R61. Every 1 ms each die's speed monitor updates GT.SPEED RATE and JUNC, sets VALID after the first measurement and takes the new OP once the rails reach the new row. -/
  | speedMonitorUpdate (die rate junc : Nat) (opReached : Bool)
  deriving DecidableEq, Repr

end Sys2Proof
end

