-- ==== Sys2Proof/Config.lean ====
section
/-!
DEFINITION. What the spec leaves to the implementation or leaves unspecified: constants with no body, so nothing can be
proved of their values. Log entry 7 lists the free values, log entry 10 the functions whose definition is an outside
standard that the model does not spell out.
-/

namespace Sys2Proof.Config

/-- The value, as a number, that the `n`-th unspecified value takes (log entry 7). -/
opaque freeNat : Nat → Nat

/-- The `n`-th byte of unspecified content (log entry 7). -/
opaque freeByte : Nat → Nat → Byte

/-- The bytes that Locket's true random source gives on its `n`-th draw (NIST SP 800-90B, R17; log entry 10). -/
opaque random : Nat → Nat → Byte

/-- The shared secret of an ML-KEM-1024 decapsulation of a ciphertext under a private key (FIPS 203, R17; log entry 10). -/
opaque mlkemDecaps : List Byte → List Byte → List Byte

/-- The ciphertext and shared secret of an ML-KEM-1024 encapsulation to a public key with given randomness (FIPS 203). -/
opaque mlkemEncaps : List Byte → List Byte → List Byte × List Byte

/-- The ML-KEM-1024 key pair generated from given randomness: public and private part (FIPS 203). -/
opaque mlkemKeygen : List Byte → List Byte × List Byte

/-- The HSS signature of a message with the one-time leaf of a number (RFC 8554, SP 800-208; log entry 10). -/
opaque hssSign : Nat → List Byte → List Byte

/-- Whether an HSS signature of a message verifies under a public key (RFC 8554; log entry 10). -/
opaque hssVerify : List Byte → List Byte → List Byte → Bool

/-- VCORE in mV of a die's voltage row for an operating point, which production test writes (R43; log entry 7). -/
opaque vcore : Nat → Nat → Nat

/-- Rating of a regulator channel in 0.1 W, which the spec names and does not give (R399; log entry 7). -/
opaque railRating : Nat → Nat

/-- The module serial number (R472, R540; log entry 7). -/
opaque serial : Nat

/-- The straps POS_ID[3:0] of the module's slot (R613; log entry 7). -/
opaque posId : Nat

/-- SHA-256 of the Locket ROM, by index 0, and of the fuse map, by index 1 (R470; log entry 7). -/
opaque fixedHash : Nat → Nat → Byte

/-- The 60 bytes of the identity public key (R467; log entry 7). -/
opaque idPub : Nat → Byte

/-- The Molonuri certificate of the identity public key, of which at most 5,900 bytes count (R472; log entry 7). -/
opaque cert : List Byte

/-- Whether a certificate vouches for an identity public key under Molonuri's published key (R474; log entry 10). -/
opaque certOk : List Byte → List Byte → Bool

/-- Whether a debug authorisation record is valid for a serial number and a nonce; the spec gives no layout (R490; log entry 7). -/
opaque debugOk : Nat → List Byte → List Byte → Bool

/-- Bytes of the header DIGEST of the image of a type in the bundle of a version; type 0 is the manifest payload's (R462, R470). -/
opaque imageDigest : Nat → Nat → Nat → Byte

/-- SVN of the image of a type in the bundle of a version (R462). -/
opaque imageSvn : Nat → Nat → Nat

/-- Whether the image of a TYPE in a staged bundle bears a good signature under an unrevoked key and the manifest's BUNDLE, or may be
absent from it (R461 to R463; log entry 10). -/
opaque stagedOk : List Byte → Nat → Bool

end Sys2Proof.Config
end

