-- ==== Sys2Proof/Machine/Bits.lean ====
section
/-!
DEFINITION. Byte order, bit fields, sparse tables in one canonical form, and CRC-32C. Every multi-byte field of the module
is little-endian (R4), bit 0 is the least significant bit (R5), and CRC-32C is the module's one cyclic check (R17).
-/

namespace Sys2Proof.Machine

/-! ### Little-endian bytes (R4) -/

/-- The number whose little-endian bytes are `bs` (R4). -/
def leNat : List Byte → Nat
  | [] => 0
  | b :: bs => b.toNat + 256 * leNat bs

/-- The `n` little-endian bytes of `k` modulo 256^`n` (R4). -/
def natLe : Nat → Nat → List Byte
  | 0, _ => []
  | n + 1, k => BitVec.ofNat 8 k :: natLe n (k / 256)

/-- The number held by `len` bytes of `bs` at byte offset `off` (R4, R5); bytes past the end count as absent. -/
def leAt (bs : List Byte) (off len : Nat) : Nat :=
  leNat ((bs.drop off).take len)

/-- `bs` with the bytes `new` in place of those from offset `off` on; `bs` keeps its length. -/
def putBytes (bs : List Byte) (off : Nat) (new : List Byte) : List Byte :=
  (bs.take off ++ new ++ bs.drop (off + new.length)).take bs.length

/-- `n` zero bytes. -/
def zeros (n : Nat) : List Byte := List.replicate n 0

/-- `bs` cut or filled with zero bytes to exactly `n` bytes. -/
def fitBytes (n : Nat) (bs : List Byte) : List Byte := (bs ++ zeros (n - bs.length)).take n

/-! ### Bit fields (R5) -/

/-- The bits [lo + width − 1 : lo] of a number (R5). -/
def bits (x lo width : Nat) : Nat := (x >>> lo) % 2 ^ width

/-- `x` with bits [lo + width − 1 : lo] replaced by the low bits of `v` (R5). -/
def setBits (x lo width v : Nat) : Nat :=
  x - (bits x lo width) * 2 ^ lo + (v % 2 ^ width) * 2 ^ lo

/-- A field of a register: its lowest bit and its width (R5). -/
structure Fld where
  /-- Lowest bit of the field. -/
  lo : Nat
  /-- Width of the field in bits. -/
  width : Nat
  deriving DecidableEq, Repr

/-- The value of a field of a register word. -/
def fget (w : Word) (f : Fld) : Nat := bits w.toNat f.lo f.width

/-- A register word with one field replaced. -/
def fset (w : Word) (f : Fld) (v : Nat) : Word := BitVec.ofNat 64 (setBits w.toNat f.lo f.width v)

/-- Bit `i` of a number. -/
def bit (x i : Nat) : Bool := x.testBit i

/-- 1 for true and 0 for false, as a one-bit field holds it. -/
def b2n (b : Bool) : Nat := if b then 1 else 0

/-- A count that saturates at `max` (R215, R236 and the saturating counts of the register tables). -/
def satAdd (max x y : Nat) : Nat := min max (x + y)

/-- `ceil (a / b)`. -/
def ceilDiv (a b : Nat) : Nat := (a + b - 1) / b

/-- A signed number in `w`-bit two's complement. -/
def sext (w x : Nat) : Int := if x < 2 ^ (w - 1) then (x : Int) else (x : Int) - 2 ^ w

/-- The `w`-bit two's-complement pattern of a signed number. -/
def twos (w : Nat) (x : Int) : Nat := (x % (2 ^ w : Int)).toNat

/-! ### Sparse tables in one canonical form

A table is a list of keys and values, keys strictly rising, with no entry equal to what an unlisted key reads as. -/

/-- A sparse table keyed by a number (an address, an index). -/
abbrev Kv (ν : Type) := List (Nat × ν)

/-- The value at key `k`, or `d` where the table lists none. -/
def kvGet {ν : Type} (d : ν) : Kv ν → Nat → ν
  | [], _ => d
  | (a, v) :: m, k => if a = k then v else kvGet d m k

/-- The entries of `m` with keys below `k`. -/
def kvBelow {ν : Type} (m : Kv ν) (k : Nat) : Kv ν := m.filter (fun p => decide (p.1 < k))

/-- The entries of `m` with keys at or above `k`. -/
def kvFrom {ν : Type} (m : Kv ν) (k : Nat) : Kv ν := m.filter (fun p => decide (k ≤ p.1))

/-- The table entries that give the keys from `k` on the values `vs`, leaving out a value equal to `d`. -/
def kvRun {ν : Type} [DecidableEq ν] (d : ν) : Nat → List ν → Kv ν
  | _, [] => []
  | k, v :: vs => if v = d then kvRun d (k + 1) vs else (k, v) :: kvRun d (k + 1) vs

/-- `m` with the keys from `k` on given the values `vs`; an unlisted key reads as `d`. -/
def kvWrite {ν : Type} [DecidableEq ν] (d : ν) (m : Kv ν) (k : Nat) (vs : List ν) : Kv ν :=
  kvBelow m k ++ kvRun d k vs ++ kvFrom m (k + vs.length)

/-- `m` with key `k` given the value `v`; an unlisted key reads as `d`. -/
def kvSet {ν : Type} [DecidableEq ν] (d : ν) (m : Kv ν) (k : Nat) (v : ν) : Kv ν :=
  kvBelow m k ++ (if v = d then [] else [(k, v)]) ++ kvFrom m (k + 1)

/-- `m` with every key from `k` to `k + n − 1` unlisted again. -/
def kvClear {ν : Type} (m : Kv ν) (k n : Nat) : Kv ν := kvBelow m k ++ kvFrom m (k + n)

/-- The values at the `n` keys from `k` on. -/
def kvRead {ν : Type} (d : ν) (m : Kv ν) (k n : Nat) : List ν :=
  (List.range n).map (fun i => kvGet d m (k + i))

/-- Keys strictly rise along the table. -/
def kvSorted {ν : Type} : Kv ν → Bool
  | [] => true
  | [_] => true
  | (a, _) :: (b, w) :: m => decide (a < b) && kvSorted ((b, w) :: m)

/-- The canonical form of a table: keys strictly rising and no entry equal to what an unlisted key reads as. -/
def kvWf {ν : Type} [DecidableEq ν] (d : ν) (m : Kv ν) : Bool :=
  kvSorted m && m.all (fun p => decide (p.2 ≠ d))

/-! ### Lists -/

/-- The list with entry `i` replaced by `f` of it. -/
def modAt {α : Type} (f : α → α) : Nat → List α → List α
  | _, [] => []
  | 0, x :: xs => f x :: xs
  | i + 1, x :: xs => x :: modAt f i xs

/-- The first entry of which `p` holds replaced by `f` of it. -/
def modFirst {α : Type} (p : α → Bool) (f : α → α) : List α → List α
  | [] => []
  | x :: xs => if p x then f x :: xs else x :: modFirst p f xs

/-- The list without its first entry of which `p` holds. -/
def dropFirst {α : Type} (p : α → Bool) : List α → List α
  | [] => []
  | x :: xs => if p x then xs else x :: dropFirst p xs

/-- `x` added at the end of a queue of at most `cap` entries, unless it is full. -/
def pushCap {α : Type} (cap : Nat) (q : List α) (x : α) : List α :=
  if q.length < cap then q ++ [x] else q

/-- Consecutive pieces of `n` entries of a list (the last may be shorter), at most `fuel` of them. -/
def chunksOf {α : Type} (n : Nat) : Nat → List α → List (List α)
  | 0, _ => []
  | fuel + 1, xs => if xs.isEmpty then [] else xs.take n :: chunksOf n fuel (xs.drop n)

/-- The sum of a list of numbers. -/
def sumNat (xs : List Nat) : Nat := xs.foldl (· + ·) 0

/-- The largest of a list of numbers, 0 for an empty one. -/
def maxNat (xs : List Nat) : Nat := xs.foldl max 0

/-! ### CRC-32C (R17) -/

/-- One bit step of the reflected CRC-32C register. -/
def crcBit (c : Nat) : Nat := if c % 2 = 1 then (c / 2) ^^^ 0x82F63B78 else c / 2

/-- Eight bit steps of the reflected CRC-32C register. -/
def crcByte (c : Nat) (b : Byte) : Nat :=
  crcBit (crcBit (crcBit (crcBit (crcBit (crcBit (crcBit (crcBit (c ^^^ b.toNat))))))))

/-- CRC-32C of a byte string: Castagnoli polynomial 0x1EDC_6F41 in reflected form, initial value and final exclusive or
0xFFFF_FFFF (R17's closing paragraph). -/
def crc32c (bs : List Byte) : Nat := (bs.foldl crcByte 0xFFFFFFFF) ^^^ 0xFFFFFFFF

end Sys2Proof.Machine
end

