-- ==== Sys2Proof/Machine/Aes.lean ====
section
/-!
DEFINITION. AES-256 (FIPS 197), its GCM mode (NIST SP 800-38D) and its XTS mode (IEEE 1619), the standards R17 names for
sealed packets, replies and frames (R222, R232, R320) and for memory encryption (R167).
-/

namespace Sys2Proof.Machine

/-- `x` times 2 in the field of AES. -/
def aesDouble (x : Nat) : Nat := if x < 128 then 2 * x else (2 * x) ^^^ 0x11B

/-- The product of two bytes in the field of AES, by `fuel` bits of the second. -/
def aesMulFuel : Nat → Nat → Nat → Nat
  | 0, _, _ => 0
  | fuel + 1, x, y => (if y % 2 = 1 then x else 0) ^^^ aesMulFuel fuel (aesDouble x) (y / 2)

/-- The product of two bytes in the field of AES. -/
def aesMul (x y : Nat) : Nat := aesMulFuel 8 x y

/-- `x` to the power 254, the inverse of a non-zero byte. -/
def aesInv (x : Nat) : Nat :=
  let x2 := aesMul x x
  let x4 := aesMul x2 x2
  let x8 := aesMul x4 x4
  let x16 := aesMul x8 x8
  let x32 := aesMul x16 x16
  let x64 := aesMul x32 x32
  let x128 := aesMul x64 x64
  aesMul x2 (aesMul x4 (aesMul x8 (aesMul x16 (aesMul x32 (aesMul x64 x128)))))

/-- The left rotation of a byte. -/
def rotl8 (x n : Nat) : Nat := ((x <<< n) ||| (x >>> (8 - n))) % 256

/-- The substitution box: field inverse and affine map. -/
def aesSub (x : Nat) : Nat :=
  let b := aesInv x
  b ^^^ rotl8 b 1 ^^^ rotl8 b 2 ^^^ rotl8 b 3 ^^^ rotl8 b 4 ^^^ 0x63

/-- The substitution box as a table. -/
def aesSbox : List Nat := (List.range 256).map aesSub

/-- The inverse substitution box as a table. -/
def aesInvSbox : List Nat := (List.range 256).map (fun y => aesSbox.findIdx (· == y))

/-- One key-schedule step: the words so far, newest first, extended by one (AES-256, Nk = 8). -/
def aesKeyStep (ws : List (List Nat)) (i : Nat) : List (List Nat) :=
  let t := ws.getD 0 []
  let t :=
    if i % 8 = 0 then
      let r := (t.drop 1 ++ t.take 1).map (fun b => aesSbox.getD b 0)
      let rc := (List.range (i / 8 - 1)).foldl (fun c _ => aesDouble c) 1
      (r.take 1).map (· ^^^ rc) ++ r.drop 1
    else if i % 8 = 4 then t.map (fun b => aesSbox.getD b 0)
    else t
  ((ws.getD 7 []).zip t).map (fun p => p.1 ^^^ p.2) :: ws

/-- The 15 round keys of a 32-byte key, 16 bytes each. -/
def aesKeys (key : List Byte) : List (List Nat) :=
  let ws0 := (chunksOf 4 8 (key.map BitVec.toNat)).reverse
  let ws := ((List.range 52).foldl (fun ws i => aesKeyStep ws (i + 8)) ws0).reverse
  chunksOf 16 15 ws.flatten

/-- Exclusive or of two byte lists as numbers. -/
def xorNats (a b : List Nat) : List Nat := (a.zip b).map (fun p => p.1 ^^^ p.2)

/-- ShiftRows on the 16-byte state, column by column. -/
def aesShift (st : List Nat) : List Nat :=
  (List.range 16).map (fun i => st.getD ((i + 4 * (i % 4)) % 16) 0)

/-- Inverse ShiftRows. -/
def aesUnshift (st : List Nat) : List Nat :=
  (List.range 16).map (fun i => st.getD ((i + 16 - 4 * (i % 4)) % 16) 0)

/-- MixColumns with the circulant first row `m`. -/
def aesMix (m : List Nat) (st : List Nat) : List Nat :=
  (List.range 16).map (fun i =>
    let c := i / 4
    let r := i % 4
    (List.range 4).foldl (fun a k => a ^^^ aesMul (m.getD ((k + 4 - r) % 4) 0) (st.getD (4 * c + k) 0)) 0)

/-- AES-256 of one 16-byte block under round keys. -/
def aesEncKs (ks : List (List Nat)) (blk : List Byte) : List Byte :=
  let st := xorNats (blk.map BitVec.toNat) (ks.getD 0 [])
  let st := (List.range 13).foldl (fun st i =>
    xorNats (aesMix [2, 3, 1, 1] (aesShift (st.map (fun b => aesSbox.getD b 0)))) (ks.getD (i + 1) [])) st
  (xorNats (aesShift (st.map (fun b => aesSbox.getD b 0))) (ks.getD 14 [])).map (BitVec.ofNat 8)

/-- The inverse of `aesEncKs`. -/
def aesDecKs (ks : List (List Nat)) (blk : List Byte) : List Byte :=
  let st := (aesUnshift (xorNats (blk.map BitVec.toNat) (ks.getD 14 []))).map (fun b => aesInvSbox.getD b 0)
  let st := (List.range 13).foldl (fun st i =>
    (aesUnshift (aesMix [14, 11, 13, 9] (xorNats st (ks.getD (13 - i) [])))).map (fun b => aesInvSbox.getD b 0)) st
  (xorNats st (ks.getD 0 [])).map (BitVec.ofNat 8)

/-- AES-256 of one 16-byte block. -/
def aesEnc (key blk : List Byte) : List Byte := aesEncKs (aesKeys key) blk

/-- Exclusive or of two byte strings, as long as the shorter. -/
def xorBytes (a b : List Byte) : List Byte := (a.zip b).map (fun p => p.1 ^^^ p.2)

/-- The big-endian number of a byte string. -/
def beNat (bs : List Byte) : Nat := leNat bs.reverse

/-- The `n` big-endian bytes of a number. -/
def natBe (n k : Nat) : List Byte := (natLe n k).reverse

/-- The product of GHASH: bits of `x` from the most significant, `fuel` of them; `v` runs through the powers. -/
def ghashMulFuel : Nat → Nat → Nat → Nat → Nat
  | 0, _, _, z => z
  | fuel + 1, x, v, z =>
    ghashMulFuel fuel x (if v % 2 = 1 then (v / 2) ^^^ (0xE1 <<< 120) else v / 2)
      (if x.testBit fuel then z ^^^ v else z)

/-- GHASH of a byte string whose length is a multiple of 16. -/
def ghash (h : Nat) (bs : List Byte) : Nat :=
  (chunksOf 16 (bs.length / 16) bs).foldl (fun y b => ghashMulFuel 128 (y ^^^ beNat b) h 0) 0

/-- Zero padding to a multiple of 16 bytes. -/
def pad16 (bs : List Byte) : List Byte := bs ++ zeros ((16 - bs.length % 16) % 16)

/-- Counter-mode key stream over `bs` from the 12-byte nonce, counter 2 upward. -/
def gcmCtr (ks : List (List Nat)) (nonce bs : List Byte) : List Byte :=
  let blocks := chunksOf 16 (ceilDiv bs.length 16) bs
  (blocks.zip (List.range blocks.length)).flatMap (fun p =>
    xorBytes p.1 (aesEncKs ks (nonce ++ natBe 4 (p.2 + 2))))

/-- The GCM tag of a ciphertext and its associated data. -/
def gcmTag (ks : List (List Nat)) (nonce aad ct : List Byte) : List Byte :=
  let h := beNat (aesEncKs ks (zeros 16))
  let s := ghash h (pad16 aad ++ pad16 ct ++ natBe 8 (8 * aad.length) ++ natBe 8 (8 * ct.length))
  xorBytes (natBe 16 s) (aesEncKs ks (nonce ++ natBe 4 1))

/-- AES-256-GCM sealing: ciphertext and 16-byte tag (SP 800-38D, 96-bit nonce). -/
def gcmSeal (key nonce aad pt : List Byte) : List Byte × List Byte :=
  let ks := aesKeys key
  let ct := gcmCtr ks nonce pt
  (ct, gcmTag ks nonce aad ct)

/-- AES-256-GCM opening: the plaintext where the tag is right. -/
def gcmOpen (key nonce aad ct tag : List Byte) : Option (List Byte) :=
  let ks := aesKeys key
  if gcmTag ks nonce aad ct = tag then some (gcmCtr ks nonce ct) else none

/-- The next tweak of XTS: times α in GF(2^128), little-endian. -/
def xtsDouble (t : Nat) : Nat :=
  if t < 2 ^ 127 then 2 * t else ((2 * t) % 2 ^ 128) ^^^ 0x87

/-- AES-256-XTS of one 64-byte data unit with number `unit` under a 64-byte key; `enc` chooses the direction (R167). -/
def xts (enc : Bool) (key : List Byte) (unit : Nat) (bs : List Byte) : List Byte :=
  let k1 := aesKeys (key.take 32)
  let k2 := aesKeys ((key.drop 32).take 32)
  let t0 := leNat (aesEncKs k2 (natLe 16 unit))
  let blocks := chunksOf 16 4 bs
  (blocks.zip (List.range blocks.length)).flatMap (fun p =>
    let t := natLe 16 ((List.range p.2).foldl (fun t _ => xtsDouble t) t0)
    xorBytes ((if enc then aesEncKs k1 else aesDecKs k1) (xorBytes p.1 t)) t)

end Sys2Proof.Machine
end

