-- ==== Sys2Proof/Machine/Rs.lean ====
section
/-!
DEFINITION. The main-memory code RS(77,69) over GF(2^8) (spec/05_memory.md, R151 to R156): check bytes, syndromes, and the
decoder that corrects up to CORR_LIMIT symbols and classes a read. A stored codeword is handled as its difference from the
valid codeword of its data: the code is linear, so the syndrome depends on that difference alone.
-/

namespace Sys2Proof.Machine

/-- `x` times α in GF(2^8) modulo 0x11D (R151). -/
def gfDouble (x : Nat) : Nat := if x < 128 then 2 * x else (2 * x) ^^^ 0x11D

/-- The product of two symbols, by the bits of the second, `fuel` of them. -/
def gfMulFuel : Nat → Nat → Nat → Nat
  | 0, _, _ => 0
  | fuel + 1, x, y => (if y % 2 = 1 then x else 0) ^^^ gfMulFuel fuel (gfDouble x) (y / 2)

/-- The product of two symbols of GF(2^8) (R151). -/
def gfMul (x y : Nat) : Nat := gfMulFuel 8 x y

/-- `x` to the power `n` by repeated squaring over `fuel` bits of `n`. -/
def gfPowFuel : Nat → Nat → Nat → Nat
  | 0, _, _ => 1
  | fuel + 1, x, n => gfMul (if n % 2 = 1 then x else 1) (gfPowFuel fuel (gfMul x x) (n / 2))

/-- α to the power `n` (α has order 255). -/
def gfAlpha (n : Nat) : Nat := gfPowFuel 8 2 (n % 255)

/-- The inverse of a non-zero symbol: its power 254. -/
def gfInv (x : Nat) : Nat := gfPowFuel 8 x 254

/-- A polynomial over GF(2^8), lowest coefficient first, evaluated at `x`. -/
def polyEval (x : Nat) : List Nat → Nat
  | [] => 0
  | c :: cs => c ^^^ gfMul x (polyEval x cs)

/-- The sum of two polynomials. -/
def polyAdd : List Nat → List Nat → List Nat
  | [], q => q
  | p, [] => p
  | a :: p, b :: q => (a ^^^ b) :: polyAdd p q

/-- The product of two polynomials. -/
def polyMul : List Nat → List Nat → List Nat
  | [], _ => []
  | a :: p, q => polyAdd (q.map (gfMul a)) (0 :: polyMul p q)

/-- The generator (x − α^0) … (x − α^7), lowest coefficient first (R151). -/
def rsGenerator : List Nat :=
  (List.range 8).foldl (fun g i => polyMul g [gfAlpha i, 1]) [1]

/-- One step of the division by the generator, highest message symbol first: `r` is the remainder so far, `r0` first. -/
def rsStep (r : List Nat) (m : Nat) : List Nat :=
  let f := m ^^^ r.getD 7 0
  polyAdd ((0 :: r).take 8) ((rsGenerator.take 8).map (gfMul f))

/-- The check symbols `r0` … `r7` of the message symbols `m0` … `m68` (R151). -/
def rsCheck (ms : List Nat) : List Nat := ms.reverse.foldl rsStep (List.replicate 8 0)

/-- The place of an error in the code polynomial: stored byte `i` (data 0–63, check 64–71) or virtual symbol 72–76. -/
def rsPos (i : Nat) : Nat := if i < 64 then i + 8 else if i < 72 then i - 64 else i

/-- The inverse of `rsPos`. -/
def rsByte (pos : Nat) : Nat := if pos < 8 then pos + 64 else if pos < 72 then pos - 8 else pos

/-- The eight syndromes of an error pattern, given as (byte index, difference) pairs. -/
def rsSyndrome (errs : List (Nat × Nat)) : List Nat :=
  (List.range 8).map (fun j => errs.foldl (fun s e => s ^^^ gfMul e.2 (gfAlpha (j * rsPos e.1))) 0)

/-- The state of the Berlekamp-Massey iteration. -/
structure BmState where
  /-- Error-locator polynomial so far. -/
  lam : List Nat
  /-- Correction polynomial. -/
  corr : List Nat
  /-- Number of errors assumed. -/
  len : Nat
  deriving DecidableEq, Repr

/-- One step of Berlekamp-Massey for syndrome number `n`. -/
def bmStep (syn : List Nat) (st : BmState) (n : Nat) : BmState :=
  let d := (List.range (st.len + 1)).foldl
    (fun acc i => acc ^^^ gfMul (st.lam.getD i 0) (if i ≤ n then syn.getD (n - i) 0 else 0)) 0
  let corr := 0 :: st.corr
  if d = 0 then { st with corr := corr }
  else
    let lam := polyAdd st.lam (corr.map (gfMul d))
    if 2 * st.len ≤ n then ⟨lam, st.lam.map (gfMul (gfInv d)), n + 1 - st.len⟩
    else ⟨lam, corr, st.len⟩

/-- The error locator of a syndrome. -/
def bmLocator (syn : List Nat) : BmState :=
  (List.range 8).foldl (bmStep syn) ⟨[1], [1], 0⟩

/-- The formal derivative of a polynomial in characteristic 2: odd coefficients shifted down, even ones gone. -/
def polyDeriv : List Nat → List Nat
  | [] => []
  | _ :: cs => (cs.zip (List.range cs.length)).map (fun p => if p.2 % 2 = 0 then p.1 else 0)

/-- What the decoder finds for a non-zero syndrome: the errors it locates as (byte index, difference), or none. -/
def rsLocate (limit : Nat) (syn : List Nat) : Option (List (Nat × Nat)) :=
  let bm := bmLocator syn
  if bm.len > limit then none
  else
    let pos := (List.range 255).filter (fun p => polyEval (gfAlpha (255 - p)) bm.lam == 0)
    if pos.length ≠ bm.len ∨ pos.any (fun p => decide (p ≥ 77)) then none
    else
      let omega := (polyMul syn bm.lam).take 8
      let der := polyDeriv bm.lam
      let found := pos.map (fun p =>
        let xi := gfAlpha (255 - p)
        (rsByte p, gfMul (gfAlpha p) (gfMul (polyEval xi omega) (gfInv (polyEval xi der)))))
      -- The located errors must explain the whole syndrome.
      if rsSyndrome found = syn then some found else none

/-- The classes of a read (R153). -/
inductive CwClass where
  | clean
  | corrected
  | address
  | poison
  | uncorrectable
  deriving DecidableEq, Repr

/-- Whether a class gives no data (R153, R159). -/
def CwClass.bad : CwClass → Bool
  | .clean | .corrected => false
  | _ => true

/-- The (byte index, difference) pairs of a 72-byte difference held as one number, byte `i` in bits [8i + 7 : 8i]. -/
def errPairs (e : Nat) : List (Nat × Nat) :=
  (List.range 72).filterMap (fun i => let d := bits e (8 * i) 8; if d = 0 then none else some (i, d))

/-- The difference that (byte index, difference) pairs of stored bytes make. -/
def errOfPairs (ps : List (Nat × Nat)) : Nat :=
  ps.foldl (fun e p => if p.1 < 72 then e ^^^ ((p.2 % 256) <<< (8 * p.1)) else e) 0

/-- The difference of a poisoned codeword: every check byte with 0xFF (R156). -/
def poisonErr : Nat := (2 ^ 64 - 1) <<< 512

/-- The decoder's verdict on a codeword with difference `e` from a valid one, read with the virtual symbols of the address
changed by `virt` (R153): the class, and the difference that is left after the correction it makes. -/
def rsDecode (limit : Nat) (e : Nat) (virt : List (Nat × Nat)) : CwClass × Nat :=
  let syn := rsSyndrome (errPairs e ++ virt)
  if syn.all (· == 0) then (.clean, e)
  else if syn = rsSyndrome (errPairs poisonErr) then (.poison, e)
  else
    match rsLocate limit syn with
    | none => (.uncorrectable, e)
    | some found =>
      if found.any (fun p => decide (p.1 ≥ 72)) then (.address, e)
      else (.corrected, e ^^^ errOfPairs found)

end Sys2Proof.Machine
end

