-- ==== Sys2Proof/Machine/Numerics.lean ====
section
/-!
DEFINITION. Number formats and exact accumulation (spec/03_numerics.md, R62 to R88). A finite value is held as an integer
times a power of two, so every product and sum is exact and rounding happens once, at write-out (R80).
-/

namespace Sys2Proof.Machine

/-! ### Formats (R62, R63) -/

/-- The number formats of R62. -/
inductive Fmt where
  | e4m3 | e5m2 | e3m2 | e2m3 | e2m1 | mxint8 | bf16 | fp16 | fp32 | int8 | int32 | exact
  deriving DecidableEq, Repr

/-- The format of a 4-bit format code; reserved codes name none (R62). -/
def Fmt.ofCode : Nat → Option Fmt
  | 0 => some .e4m3
  | 1 => some .e5m2
  | 2 => some .e3m2
  | 3 => some .e2m3
  | 4 => some .e2m1
  | 5 => some .mxint8
  | 8 => some .bf16
  | 9 => some .fp16
  | 10 => some .fp32
  | 11 => some .int8
  | 12 => some .int32
  | 15 => some .exact
  | _ => none

/-- The 4-bit code of a format (R62). -/
def Fmt.code : Fmt → Nat
  | .e4m3 => 0 | .e5m2 => 1 | .e3m2 => 2 | .e2m3 => 3 | .e2m1 => 4 | .mxint8 => 5
  | .bf16 => 8 | .fp16 => 9 | .fp32 => 10 | .int8 => 11 | .int32 => 12 | .exact => 15

/-- Element bits of a format (R62). -/
def Fmt.width : Fmt → Nat
  | .e4m3 => 8 | .e5m2 => 8 | .e3m2 => 6 | .e2m3 => 6 | .e2m1 => 4 | .mxint8 => 8
  | .bf16 => 16 | .fp16 => 16 | .fp32 => 32 | .int8 => 8 | .int32 => 32 | .exact => 640

/-- The MX formats, whose blocks of 32 elements share one scale byte (R64). -/
def Fmt.isMx : Fmt → Bool
  | .e4m3 | .e5m2 | .e3m2 | .e2m3 | .e2m1 | .mxint8 => true
  | _ => false

/-- Formats allowed as the input of a product (R62, column Input). -/
def Fmt.isInput : Fmt → Bool
  | .int32 | .exact => false
  | _ => true

/-- Mantissa bits of a floating-point format (R63); 0 for the integer formats. -/
def Fmt.mant : Fmt → Nat
  | .e4m3 => 3 | .e5m2 => 2 | .e3m2 => 2 | .e2m3 => 3 | .e2m1 => 1
  | .bf16 => 7 | .fp16 => 10 | .fp32 => 23 | _ => 0

/-- The exponent of the least subnormal of a format, the weight of one unit of its integer magnitude (R63). -/
def Fmt.qmin : Fmt → Int
  | .e4m3 => -9 | .e5m2 => -16 | .e3m2 => -4 | .e2m3 => -3 | .e2m1 => -1 | .mxint8 => -6
  | .bf16 => -133 | .fp16 => -24 | .fp32 => -149 | .int8 => 0 | .int32 => 0 | .exact => -298

/-- Sign-less code of the largest finite magnitude of a format (R63). -/
def Fmt.maxCode : Fmt → Nat
  | .e4m3 => 0x7E | .e5m2 => 0x7B | .e3m2 => 0x1F | .e2m3 => 0x1F | .e2m1 => 0x7 | .mxint8 => 127
  | .bf16 => 0x7F7F | .fp16 => 0x7BFF | .fp32 => 0x7F7FFFFF | .int8 => 127 | .int32 => 0x7FFFFFFF | .exact => 0

/-- `emax` of R84 step 3. -/
def Fmt.emax : Fmt → Int
  | .e4m3 => 8 | .e5m2 => 15 | .e3m2 => 4 | .e2m3 => 2 | .e2m1 => 2 | _ => 0

/-- Whether a format is held in two's complement (R63). -/
def Fmt.isInt : Fmt → Bool
  | .mxint8 | .int8 | .int32 => true
  | _ => false

/-- Operand pairings of R68: any two MX formats, or the same non-MX input format twice. -/
def pairingOk (a b : Fmt) : Bool :=
  a.isInput && b.isInput && ((a.isMx && b.isMx) || decide (a = b))

/-! ### Values -/

/-- An element's value: finite `m` × 2^`e`, NaN, or an infinity. -/
inductive Num where
  | fin (m : Int) (e : Int)
  | nan
  | inf (neg : Bool)
  deriving DecidableEq, Repr

/-- The value an element code stands for (R63, R65: subnormals kept, negative zero is zero). -/
def decodeElem (f : Fmt) (code : Nat) : Num :=
  if f.isInt then .fin (sext f.width code) f.qmin
  else
    let neg := code.testBit (f.width - 1)
    let c := code % 2 ^ (f.width - 1)
    let sgn : Int := if neg then -1 else 1
    if c ≤ f.maxCode then
      if c < 2 ^ f.mant then .fin (sgn * c) f.qmin
      else .fin (sgn * (c % 2 ^ f.mant + 2 ^ f.mant : Nat)) (f.qmin + (c / 2 ^ f.mant : Nat) - 1)
    else
      match f with
      | .e4m3 => .nan
      | _ => if c % 2 ^ f.mant = 0 then .inf neg else .nan

/-- A value times 2^`k`. -/
def Num.scale (k : Int) : Num → Num
  | .fin m e => .fin m (e + k)
  | x => x

/-- The value of an element of an MX block with scale byte `sc` (R64). -/
def decodeMx (f : Fmt) (sc code : Nat) : Num :=
  if sc = 0xFF then .nan else (decodeElem f code).scale ((sc : Int) - 127)

/-- The exact product of two values with the special cases of R74. -/
def Num.mul : Num → Num → Num
  | .nan, _ => .nan
  | _, .nan => .nan
  | .fin m e, .fin m' e' => .fin (m * m') (e + e')
  | .inf s, .inf s' => .inf (s != s')
  | .inf s, .fin m _ => if m = 0 then .nan else .inf (s != decide (m < 0))
  | .fin m _, .inf s => if m = 0 then .nan else .inf (s != decide (m < 0))

/-! ### The exact accumulator (R69 to R77) -/

/-- One accumulator: the value field in units of 2^−298 and the special-value record (R69). -/
structure Accu where
  /-- Value field, an integer multiple of 2^−298. -/
  value : Int
  /-- The result is NaN. -/
  nan : Bool
  /-- A +∞ term was added. -/
  pinf : Bool
  /-- A −∞ term was added. -/
  ninf : Bool
  /-- The value field went out of range. -/
  ovf : Bool
  /-- It went out of range in the negative direction. -/
  ovfNeg : Bool
  deriving DecidableEq, Repr

/-- The empty accumulator. -/
def Accu.zero : Accu := ⟨0, false, false, false, false, false⟩

/-- Adds a finite term to the value field; leaving [−2^631, 2^631) sets OVF, and from then on the value field is
unspecified and nothing reads it (R73, R76). -/
def Accu.addFin (a : Accu) (t : Int) : Accu :=
  if a.ovf then a
  else
    let v := a.value + t
    if v < -(2 ^ 631) then { a with value := 0, ovf := true, ovfNeg := true }
    else if v ≥ 2 ^ 631 then { a with value := 0, ovf := true }
    else { a with value := v }

/-- Adds one exact value: a finite one at its weight (R70, R71), a special one to the record (R74). -/
def Accu.add (a : Accu) : Num → Accu
  | .fin m e => a.addFin (m * 2 ^ (e + 298).toNat)
  | .nan => { a with nan := true }
  | .inf false => { a with pinf := true }
  | .inf true => { a with ninf := true }

/-- The combination of two exact partials, or of one and an accumulator (R77). -/
def Accu.combine (a b : Accu) : Accu :=
  let s : Accu :=
    if a.ovf || b.ovf then
      if a.ovf && b.ovf then
        { Accu.zero with ovf := true, ovfNeg := a.ovfNeg, nan := a.ovfNeg != b.ovfNeg }
      else { Accu.zero with ovf := true, ovfNeg := if a.ovf then a.ovfNeg else b.ovfNeg }
    else (Accu.zero.addFin a.value).addFin b.value
  { s with nan := s.nan || a.nan || b.nan, pinf := a.pinf || b.pinf, ninf := a.ninf || b.ninf }

/-- Whether the accumulator stands for NaN (R74, R83). -/
def Accu.isNan (a : Accu) : Bool := a.nan || (a.pinf && a.ninf)

/-- The record byte of an exact partial (R69, R76). -/
def Accu.record (a : Accu) : Nat :=
  b2n a.nan + 2 * b2n a.pinf + 4 * b2n a.ninf + 8 * b2n a.ovf + 16 * b2n a.ovfNeg

/-- The 80 bytes of an exact partial (R76). -/
def Accu.bytes (a : Accu) : List Byte :=
  if a.isNan then zeros 79 ++ [1]
  else if a.ovf then zeros 79 ++ [BitVec.ofNat 8 a.record]
  else natLe 79 (twos 632 a.value) ++ [BitVec.ofNat 8 a.record]

/-- The accumulator that an 80-byte exact partial holds; a reserved record bit makes it NaN (R76). -/
def Accu.ofBytes (bs : List Byte) : Accu :=
  let r := leAt bs 79 1
  if r ≥ 32 then { Accu.zero with nan := true }
  else ⟨sext 632 (leAt bs 0 79), r.testBit 0, r.testBit 1, r.testBit 2, r.testBit 3, r.testBit 4⟩

/-- The result of an accumulation as one value: NaN, an infinity, a finite value, or an overflow of the given sign. -/
inductive Exact where
  | nan
  | inf (neg : Bool)
  | ovf (neg : Bool)
  | fin (m : Int) (e : Int)
  deriving DecidableEq, Repr

/-- What an accumulator stands for at write-out (R74, R82, R83). -/
def Accu.result (a : Accu) : Exact :=
  if a.isNan then .nan
  else if a.pinf then .inf false
  else if a.ninf then .inf true
  else if a.ovf then .ovf a.ovfNeg
  else .fin a.value (-298)

/-- A decoded input in the role of the exact result (R88). -/
def Num.result : Num → Exact
  | .fin m e => .fin m e
  | .nan => .nan
  | .inf s => .inf s

/-! ### Rounding (R79 to R84) -/

/-- The rounding modes of R79. -/
inductive RMode where
  | rne | rtz | rup | rdn | sr
  deriving DecidableEq, Repr

/-- The rounding mode of a 3-bit code; codes 5 to 7 name none (R79). -/
def RMode.ofCode : Nat → Option RMode
  | 0 => some .rne
  | 1 => some .rtz
  | 2 => some .rup
  | 3 => some .rdn
  | 4 => some .sr
  | _ => none

/-- How a result is rounded: mode, SAT flag, and the word of R85 for mode SR. -/
structure Rounding where
  /-- Mode of R79. -/
  mode : RMode
  /-- SAT flag of R82. -/
  sat : Bool
  /-- The 64-bit word of R85. -/
  word : Word
  deriving DecidableEq, Repr

/-- The integer magnitude `n + rem/den` rounded to `n` or `n + 1` under a mode (R79, R85). -/
def roundUnit (r : Rounding) (neg : Bool) (n rem den : Nat) : Nat :=
  let up : Bool :=
    match r.mode with
    | .rne => decide (2 * rem > den) || (decide (2 * rem = den) && decide (n % 2 = 1))
    | .rtz => false
    | .rup => decide (rem > 0) && !neg
    | .rdn => decide (rem > 0) && neg
    | .sr => decide (r.word.toNat >>> 32 < rem * 4294967296 / den)
  if up then n + 1 else n

/-- floor(log2) of the magnitude of the non-zero value `m` × 2^`e`. -/
def log2Val (m : Int) (e : Int) : Int := (Nat.log2 m.natAbs : Int) + e

/-- The sign-less code of the magnitude of `m` × 2^`e`, rounded with an unbounded exponent: a code above `maxCode` is an
overflow. The code of unit exponent `q` and units `n` is (q − qmin) × 2^mant + n, in which a carry of the significand
steps into the exponent. -/
def roundCode (f : Fmt) (r : Rounding) (m : Int) (e : Int) : Nat :=
  let neg := decide (m < 0)
  let q : Int := if f.isInt then f.qmin else max (log2Val m e - f.mant) f.qmin
  let n :=
    if q ≤ e then m.natAbs * 2 ^ (e - q).toNat
    else
      let s := (q - e).toNat
      roundUnit r neg (m.natAbs / 2 ^ s) (m.natAbs % 2 ^ s) (2 ^ s)
  (q - f.qmin).toNat * 2 ^ f.mant + n

/-- A sign-less code with its sign: a sign bit, or two's complement for the integer formats. -/
def signCode (f : Fmt) (neg : Bool) (c : Nat) : Nat :=
  if f.isInt then twos f.width (if neg then -(c : Int) else c)
  else if neg then c + 2 ^ (f.width - 1) else c

/-- The infinity code of BF16, FP16 and FP32 (R63). -/
def infCode (f : Fmt) (neg : Bool) : Nat := signCode f neg (f.maxCode + 1)

/-- The canonical NaN of R83. -/
def nanCode : Fmt → Nat
  | .bf16 => 0x7FC0
  | .fp16 => 0x7E00
  | .fp32 => 0x7FC00000
  | _ => 0

/-- The code written for a finite overflow in BF16, FP16, FP32, INT8 or INT32 (R82). -/
def overflowCode (f : Fmt) (r : Rounding) (neg : Bool) : Nat :=
  match f with
  | .int8 | .int32 => twos f.width (if neg then -(2 ^ (f.width - 1) : Int) else 2 ^ (f.width - 1) - 1)
  | _ =>
    let toMax := signCode f neg f.maxCode
    if r.sat then toMax
    else
      match r.mode with
      | .rne | .sr => infCode f neg
      | .rtz => toMax
      | .rup => if neg then toMax else infCode f neg
      | .rdn => if neg then infCode f neg else toMax

/-- Write-out of one result to a non-MX rounded format (R75, R80 to R83). -/
def roundResult (f : Fmt) (r : Rounding) : Exact → Nat
  | .nan => nanCode f
  | .inf s => infCode f s
  | .ovf s => overflowCode f r s
  | .fin m e =>
    if m = 0 then 0
    else
      let neg := decide (m < 0)
      let c := roundCode f r m e
      match f with
      | .int8 | .int32 =>
        if c > f.maxCode + b2n neg then overflowCode f r neg else signCode f neg c
      | _ => if c > f.maxCode then overflowCode f r neg else signCode f neg c

/-- One element of an MX block after division by the scale: a magnitude beyond the largest finite value becomes that value
with its sign (R84 step 6). -/
def roundMxElem (f : Fmt) (r : Rounding) (x : Int) : Exact → Nat
  | .fin m e =>
    if m = 0 then 0
    else
      let c := roundCode f r m (e - x)
      signCode f (decide (m < 0)) (min c f.maxCode)
  | _ => 0

/-- Magnitude order of two finite values, for `amax`. -/
def magLt (m : Int) (e : Int) (m' : Int) (e' : Int) : Bool :=
  let q := min e e'
  decide (m.natAbs * 2 ^ (e - q).toNat < m'.natAbs * 2 ^ (e' - q).toNat)

/-- The finite value of largest magnitude of a block. -/
def amaxVal : List Exact → Int × Int
  | [] => (0, 0)
  | .fin m e :: rest =>
    let b := amaxVal rest
    if magLt b.1 b.2 m e then (m, e) else b
  | _ :: rest => amaxVal rest

/-- An MX block write-out (R84): the scale byte and the 32 element codes. `rs` gives each element's rounding. -/
def roundMxBlock (f : Fmt) (sat : Bool) (xs : List Exact) (rs : List Rounding) : Nat × List Nat :=
  let special : Exact → Bool := fun x => match x with | .nan => true | .inf _ => true | _ => false
  let isOvf : Exact → Bool := fun x => match x with | .ovf _ => true | _ => false
  let nanBlock : Nat × List Nat := (0xFF, xs.map (fun _ => 0))
  if xs.any special then nanBlock
  else if xs.any isOvf then
    -- An overflowed accumulator lies beyond 2^332, so X of R84 step 3 exceeds 127 (R82 counts OVF as an overflow).
    if sat then
      (254, (xs.zip rs).map (fun p => match p.1 with
        | .ovf neg => signCode f neg f.maxCode
        | x => roundMxElem f p.2 127 x))
    else nanBlock
  else
    let a := amaxVal xs
    if a.1 = 0 then (0, xs.map (fun _ => 0))
    else
      let x0 := log2Val a.1 a.2 - f.emax
      let x1 := max x0 (-127)
      if x1 > 127 && !sat then nanBlock
      else
        let x := min x1 127
        ((x + 127).toNat, (xs.zip rs).map (fun p => roundMxElem f p.2 x p.1))

/-! ### Stochastic rounding (R85, R86) -/

/-- `mix64` of R85. -/
def mix64 (x : Word) : Word :=
  let x := x ^^^ (x >>> 30)
  let x := x * 0xBF58476D1CE4E5B9
  let x := x ^^^ (x >>> 27)
  let x := x * 0x94D049BB133111EB
  x ^^^ (x >>> 31)

/-- `sr_word` of R85. -/
def srWord (seed : Word) (row col step : Nat) : Word :=
  let w := mix64 (seed ^^^ 0x9E3779B97F4A7C15)
  let w := mix64 (w ^^^ (((BitVec.ofNat 64 (row % two32)) <<< 32) ||| BitVec.ofNat 64 (col % two32)))
  mix64 (w ^^^ BitVec.ofNat 64 (step % two32))

/-! ### Element storage (R66, R67) -/

/-- Element code `i` of a plane of `w`-bit elements: 6-bit elements lie four to three bytes and 4-bit elements two to a
byte, so in every width element `i` is bits [w·i + w − 1 : w·i] of the little-endian plane (R67). -/
def planeCode (w : Nat) (bs : List Byte) (i : Nat) : Nat :=
  bits (leAt bs (w * i / 8) (w / 8 + 2)) (w * i % 8) w

/-- The bytes of a plane of `w`-bit element codes (R67). -/
def packCodes (w : Nat) (codes : List Nat) : List Byte :=
  natLe (ceilDiv (w * codes.length) 8) (codes.foldr (fun c acc => c % 2 ^ w + 2 ^ w * acc) 0)

/-- Bytes of `n` elements of a format (R63, R66, R76). -/
def fmtBytes (f : Fmt) (n : Nat) : Nat := ceilDiv (f.width * n) 8

end Sys2Proof.Machine
end

