-- ==== Sys2Proof/Machine/RegMap.lean ====
section
/-!
DEFINITION. The register tables of the spec as data: every register's device physical address, its fields, their access codes
(R12), reset values (R11) and ranges, and the names by which the rest of the model calls them. A field's reset is the value of
its Reset column; for MCB the factory default its table states; for FUSE, and for MCB without a stated default, the value of
log entry 1.
-/

namespace Sys2Proof.Machine

/-- The access codes of R12. -/
inductive Acc where
  | ro | rw | w1c | wo | st | fx
  deriving DecidableEq, Repr

/-- One field of a register table. -/
structure RegField where
  /-- Where the field lies in its word. -/
  fld : Fld
  /-- Access code (R12). -/
  acc : Acc
  /-- Reset value (R11). -/
  rst : Nat
  /-- Whether the Reset column reads MCB (R11, R541). -/
  mcb : Bool
  /-- Whether the Reset column reads KEPT (R11). -/
  kept : Bool
  /-- Least value the field's table allows. -/
  least : Nat
  /-- Greatest value the field's table allows. -/
  most : Nat
  deriving DecidableEq, Repr

/-- The registers of the spec's tables. -/
inductive RegName where
  | gtGtime | gtRefstat | gtDiscstat | gtSpeed | ctCap | ctOwn | ctRst | meStat | mvStat | meFault | mvFault 
  | mvCtl | pipCtl | pipStat | tsEcc | phMemcfg | tdMemcfg | phEccstat | tdEccstat | phUelog | tdUelog | phJstat 
  | phXts | phRetrain | tdRetrain | tdSeg | tdPecap | tdPectl | tdPeshare | tdPestat | phCtxcfg0 | phCtxcfg1 
  | phCtxcfg2 | phSeed | phClasp | phAclasp | phClasptaint | phAclasptaint | phIntake | lxCtl | lxStat | lxErr 
  | lxCrcerr | lxLane | fdNode | fdIsodrop | fdAbortlog | fdAborttime | fdSlicedir | fdMcast | fdRoute | fdRankmap 
  | fdCollcfg | fdRustat | fdCollstat | fdTreedef | fdTreeinfo | gtDisccfg | gtDiscsrc | phRecord | phReplay 
  | phReplaydiv | phPwrlim | phPwrctl | phPwrcap | phPwrest | phPwrcoef0 | phPwrcoef1 | phPwrcoef2 | hmPwrcfg 
  | hmShedord | hmPwrstat | hmRail | hmTarnish | hmRole | hmRolectl | hmHbstat | hmDiestat | hmTrayhb | hmRackord 
  | hmTrayrpt | hmWear | lkState | lkSigstate | lkBootcnt | lkSvn | lkSvnctl | lkHostref | lkLinkstat | lkLinkctl 
  | lkDbgctl | lkDbgnonce | lkHallmark | evcGctl | evcSrccfg | evcSrcstat | evcGrpcfg | evcTgtCfg | evcTgtClaim 
  | evcTgtComplete | evcTgtBase | evcTgtProd | evcTgtCons | evcTgtLost | hmBoot | hmBootcfg | hmSfctl | hmSoftfuse 
  | phCfgstat | tdCfgstat | fdCfgstat | hmCfgstat | hmMcbstat | mcbHdr | mcbRec | mcbRecValue | phHang | phWdog 
  | phErrq0 | phErrq1 | phErrq2 | hmErrq0 | hmErrq1 | hmErrq2 | phEsc | hmEsc | phBezel | phPrst | phClundo 
  | hmFlt | hmDump | hmCntbank | hmCntsel | hmCntval | hmCameostat0 | hmCameostat1 | hmSideband | hmSeqctl 
  | hmFwstat | hmFstop
  deriving DecidableEq, Repr

/-- A register table: its name, the address of its first copy, and the count and stride of each index. -/
structure RegDef where
  /-- The register. -/
  name : RegName
  /-- Device physical address of the copy with every index 0. -/
  base : Nat
  /-- Count and stride of each index, in the order the name gives them. -/
  dims : List (Nat × Nat)
  /-- The fields, reserved bits left out. -/
  fields : List RegField
  deriving DecidableEq, Repr

/-- `gtGtime` of R61. -/
def gtGtimeDef : RegDef :=
  ⟨.gtGtime, 0x30700000000, [],
   [⟨⟨0, 64⟩, .ro, 0x0, false, true, 0x0, 0xFFFFFFFFFFFFFFFF⟩]⟩

/-- `gtRefstat` of R61. -/
def gtRefstatDef : RegDef :=
  ⟨.gtRefstat, 0x30700000010, [],
   [⟨⟨0, 1⟩, .ro, 0x0, false, false, 0x0, 0x1⟩,
    ⟨⟨1, 1⟩, .ro, 0x0, false, false, 0x0, 0x1⟩,
    ⟨⟨2, 1⟩, .w1c, 0x0, false, false, 0x0, 0x1⟩,
    ⟨⟨16, 16⟩, .ro, 0x0, false, false, 0x0, 0xFFFF⟩]⟩

/-- `gtDiscstat` of R61. -/
def gtDiscstatDef : RegDef :=
  ⟨.gtDiscstat, 0x30700000018, [],
   [⟨⟨0, 1⟩, .ro, 0x0, false, false, 0x0, 0x1⟩,
    ⟨⟨1, 1⟩, .ro, 0x0, false, true, 0x0, 0x1⟩,
    ⟨⟨16, 16⟩, .ro, 0x0, false, false, 0x0, 0xFFFF⟩]⟩

/-- `gtSpeed` of R61. -/
def gtSpeedDef : RegDef :=
  ⟨.gtSpeed, 0x30700000100, [(52, 0x8)],
   [⟨⟨0, 16⟩, .ro, 0x0, false, false, 0x0, 0xFFFF⟩,
    ⟨⟨16, 8⟩, .ro, 0x0, false, false, 0x0, 0xFF⟩,
    ⟨⟨24, 3⟩, .ro, 0x5, false, false, 0x0, 0x7⟩,
    ⟨⟨32, 1⟩, .ro, 0x0, false, false, 0x0, 0x1⟩]⟩

/-- `ctCap` of R142. -/
def ctCapDef : RegDef :=
  ⟨.ctCap, 0x30000000000, [(24, 0x1000000)],
   [⟨⟨0, 3⟩, .ro, 0x6, false, false, 0x0, 0x7⟩,
    ⟨⟨3, 6⟩, .ro, 0x20, false, false, 0x0, 0x3F⟩,
    ⟨⟨9, 1⟩, .ro, 0x0, false, false, 0x0, 0x1⟩,
    ⟨⟨10, 1⟩, .ro, 0x0, false, false, 0x0, 0x1⟩,
    ⟨⟨16, 18⟩, .ro, 0x35888, false, false, 0x0, 0x3FFFF⟩]⟩

/-- `ctOwn` of R142. -/
def ctOwnDef : RegDef :=
  ⟨.ctOwn, 0x30000000008, [(24, 0x1000000)],
   [⟨⟨0, 6⟩, .rw, 0x0, false, false, 0x0, 0x3F⟩,
    ⟨⟨8, 8⟩, .rw, 0xFF, false, false, 0x0, 0xFF⟩,
    ⟨⟨16, 6⟩, .ro, 0x0, false, false, 0x0, 0x3F⟩]⟩

/-- `ctRst` of R142. -/
def ctRstDef : RegDef :=
  ⟨.ctRst, 0x30000000010, [(24, 0x1000000)],
   [⟨⟨0, 1⟩, .wo, 0x0, false, false, 0x0, 0x1⟩,
    ⟨⟨1, 1⟩, .wo, 0x0, false, false, 0x0, 0x1⟩,
    ⟨⟨8, 1⟩, .ro, 0x0, false, false, 0x0, 0x1⟩,
    ⟨⟨9, 1⟩, .ro, 0x0, false, false, 0x0, 0x1⟩,
    ⟨⟨16, 1⟩, .w1c, 0x0, false, false, 0x0, 0x1⟩,
    ⟨⟨17, 1⟩, .w1c, 0x0, false, false, 0x0, 0x1⟩]⟩

/-- `meStat` of R142. -/
def meStatDef : RegDef :=
  ⟨.meStat, 0x30000010000, [(24, 0x1000000), (6, 0x1000)],
   [⟨⟨0, 6⟩, .ro, 0x0, false, false, 0x0, 0x3F⟩,
    ⟨⟨8, 1⟩, .ro, 0x0, false, false, 0x0, 0x1⟩,
    ⟨⟨9, 1⟩, .ro, 0x0, false, false, 0x0, 0x1⟩,
    ⟨⟨32, 32⟩, .ro, 0x0, false, false, 0x0, 0xFFFFFFFF⟩]⟩

/-- `mvStat` of R142. -/
def mvStatDef : RegDef :=
  ⟨.mvStat, 0x30000020000, [(24, 0x1000000), (8, 0x1000)],
   [⟨⟨0, 6⟩, .ro, 0x0, false, false, 0x0, 0x3F⟩,
    ⟨⟨8, 1⟩, .ro, 0x0, false, false, 0x0, 0x1⟩,
    ⟨⟨9, 1⟩, .ro, 0x0, false, false, 0x0, 0x1⟩,
    ⟨⟨32, 32⟩, .ro, 0x0, false, false, 0x0, 0xFFFFFFFF⟩]⟩

/-- `meFault` of R142. -/
def meFaultDef : RegDef :=
  ⟨.meFault, 0x30000010008, [(24, 0x1000000), (6, 0x1000)],
   [⟨⟨0, 8⟩, .ro, 0x0, false, false, 0x0, 0xFF⟩,
    ⟨⟨8, 1⟩, .wo, 0x0, false, false, 0x0, 0x1⟩,
    ⟨⟨9, 1⟩, .w1c, 0x0, false, false, 0x0, 0x1⟩,
    ⟨⟨16, 48⟩, .ro, 0x0, false, false, 0x0, 0xFFFFFFFFFFFF⟩]⟩

/-- `mvFault` of R142. -/
def mvFaultDef : RegDef :=
  ⟨.mvFault, 0x30000020008, [(24, 0x1000000), (8, 0x1000)],
   [⟨⟨0, 8⟩, .ro, 0x0, false, false, 0x0, 0xFF⟩,
    ⟨⟨8, 1⟩, .wo, 0x0, false, false, 0x0, 0x1⟩,
    ⟨⟨9, 1⟩, .w1c, 0x0, false, false, 0x0, 0x1⟩,
    ⟨⟨16, 48⟩, .ro, 0x0, false, false, 0x0, 0xFFFFFFFFFFFF⟩]⟩

/-- `mvCtl` of R142. -/
def mvCtlDef : RegDef :=
  ⟨.mvCtl, 0x30000020010, [(24, 0x1000000), (8, 0x1000)],
   [⟨⟨0, 1⟩, .wo, 0x0, false, false, 0x0, 0x1⟩]⟩

/-- `pipCtl` of R142. -/
def pipCtlDef : RegDef :=
  ⟨.pipCtl, 0x30000040000, [(24, 0x1000000), (32, 0x1000)],
   [⟨⟨0, 10⟩, .rw, 0x3FF, false, false, 0x0, 0x3FF⟩,
    ⟨⟨16, 1⟩, .wo, 0x0, false, false, 0x0, 0x1⟩,
    ⟨⟨32, 30⟩, .rw, 0x3E8, true, false, 0x1, 0xF4240⟩]⟩

/-- `pipStat` of R142. -/
def pipStatDef : RegDef :=
  ⟨.pipStat, 0x30000040008, [(24, 0x1000000), (32, 0x1000)],
   [⟨⟨0, 1⟩, .ro, 0x0, false, false, 0x0, 0x1⟩,
    ⟨⟨1, 1⟩, .w1c, 0x0, false, false, 0x0, 0x1⟩,
    ⟨⟨8, 8⟩, .ro, 0x0, false, false, 0x0, 0xFF⟩]⟩

/-- `tsEcc` of R142. -/
def tsEccDef : RegDef :=
  ⟨.tsEcc, 0x30000080000, [(24, 0x1000000)],
   [⟨⟨0, 32⟩, .ro, 0x0, false, false, 0x0, 0xFFFFFFFF⟩,
    ⟨⟨32, 16⟩, .ro, 0x0, false, false, 0x0, 0xFFFF⟩,
    ⟨⟨48, 8⟩, .ro, 0x0, false, false, 0x0, 0xFF⟩,
    ⟨⟨63, 1⟩, .wo, 0x0, false, false, 0x0, 0x1⟩]⟩

/-- `phMemcfg` of R183. -/
def phMemcfgDef : RegDef :=
  ⟨.phMemcfg, 0x30100200000, [(12, 0x1000000)],
   [⟨⟨0, 3⟩, .fx, 0x4, true, false, 0x3, 0x4⟩,
    ⟨⟨8, 8⟩, .rw, 0x18, true, false, 0x1, 0xA8⟩,
    ⟨⟨16, 1⟩, .rw, 0x1, true, false, 0x0, 0x1⟩,
    ⟨⟨24, 8⟩, .rw, 0x40, true, false, 0x1, 0xFF⟩]⟩

/-- `tdMemcfg` of R183. -/
def tdMemcfgDef : RegDef :=
  ⟨.tdMemcfg, 0x30400200000, [(2, 0x1000000)],
   [⟨⟨0, 3⟩, .fx, 0x4, true, false, 0x3, 0x4⟩,
    ⟨⟨8, 8⟩, .rw, 0x18, true, false, 0x1, 0xA8⟩,
    ⟨⟨16, 1⟩, .rw, 0x1, true, false, 0x0, 0x1⟩,
    ⟨⟨24, 8⟩, .rw, 0x40, true, false, 0x1, 0xFF⟩]⟩

/-- `phEccstat` of R183. -/
def phEccstatDef : RegDef :=
  ⟨.phEccstat, 0x30100200008, [(12, 0x1000000)],
   [⟨⟨0, 32⟩, .ro, 0x0, false, false, 0x0, 0xFFFFFFFF⟩,
    ⟨⟨32, 16⟩, .ro, 0x0, false, false, 0x0, 0xFFFF⟩,
    ⟨⟨63, 1⟩, .wo, 0x0, false, false, 0x0, 0x1⟩]⟩

/-- `tdEccstat` of R183. -/
def tdEccstatDef : RegDef :=
  ⟨.tdEccstat, 0x30400200008, [(2, 0x1000000)],
   [⟨⟨0, 32⟩, .ro, 0x0, false, false, 0x0, 0xFFFFFFFF⟩,
    ⟨⟨32, 16⟩, .ro, 0x0, false, false, 0x0, 0xFFFF⟩,
    ⟨⟨63, 1⟩, .wo, 0x0, false, false, 0x0, 0x1⟩]⟩

/-- `phUelog` of R183. -/
def phUelogDef : RegDef :=
  ⟨.phUelog, 0x30100200010, [(12, 0x1000000)],
   [⟨⟨0, 44⟩, .ro, 0x0, false, false, 0x0, 0xFFFFFFFFFFF⟩,
    ⟨⟨44, 4⟩, .ro, 0x0, false, false, 0x0, 0xF⟩,
    ⟨⟨48, 1⟩, .wo, 0x0, false, false, 0x0, 0x1⟩,
    ⟨⟨49, 1⟩, .w1c, 0x0, false, false, 0x0, 0x1⟩,
    ⟨⟨50, 2⟩, .ro, 0x0, false, false, 0x0, 0x3⟩]⟩

/-- `tdUelog` of R183. -/
def tdUelogDef : RegDef :=
  ⟨.tdUelog, 0x30400200010, [(2, 0x1000000)],
   [⟨⟨0, 44⟩, .ro, 0x0, false, false, 0x0, 0xFFFFFFFFFFF⟩,
    ⟨⟨44, 4⟩, .ro, 0x0, false, false, 0x0, 0xF⟩,
    ⟨⟨48, 1⟩, .wo, 0x0, false, false, 0x0, 0x1⟩,
    ⟨⟨49, 1⟩, .w1c, 0x0, false, false, 0x0, 0x1⟩,
    ⟨⟨50, 2⟩, .ro, 0x0, false, false, 0x0, 0x3⟩]⟩

/-- `phJstat` of R183. -/
def phJstatDef : RegDef :=
  ⟨.phJstat, 0x30100200018, [(12, 0x1000000)],
   [⟨⟨0, 18⟩, .ro, 0x0, false, false, 0x0, 0x3FFFF⟩,
    ⟨⟨18, 18⟩, .ro, 0x0, false, false, 0x0, 0x3FFFF⟩,
    ⟨⟨36, 12⟩, .ro, 0x0, false, false, 0x0, 0xFFF⟩,
    ⟨⟨48, 1⟩, .w1c, 0x0, false, false, 0x0, 0x1⟩,
    ⟨⟨49, 15⟩, .ro, 0x0, false, false, 0x0, 0x7FFF⟩]⟩

/-- `phXts` of R183. -/
def phXtsDef : RegDef :=
  ⟨.phXts, 0x30100200020, [(12, 0x1000000)],
   [⟨⟨0, 1⟩, .ro, 0x0, false, false, 0x0, 0x1⟩,
    ⟨⟨1, 1⟩, .ro, 0x0, false, false, 0x0, 0x1⟩,
    ⟨⟨8, 8⟩, .ro, 0x0, false, false, 0x0, 0xFF⟩]⟩

/-- `phRetrain` of R183. -/
def phRetrainDef : RegDef :=
  ⟨.phRetrain, 0x30100200028, [(12, 0x1000000)],
   [⟨⟨0, 32⟩, .ro, 0x0, false, false, 0x0, 0xFFFFFFFF⟩,
    ⟨⟨32, 32⟩, .ro, 0x0, false, false, 0x0, 0xFFFFFFFF⟩]⟩

/-- `tdRetrain` of R183. -/
def tdRetrainDef : RegDef :=
  ⟨.tdRetrain, 0x30400200028, [(2, 0x1000000)],
   [⟨⟨0, 32⟩, .ro, 0x0, false, false, 0x0, 0xFFFFFFFF⟩,
    ⟨⟨32, 32⟩, .ro, 0x0, false, false, 0x0, 0xFFFFFFFF⟩]⟩

/-- `tdSeg` of R183. -/
def tdSegDef : RegDef :=
  ⟨.tdSeg, 0x30400300000, [(896, 0x8)],
   [⟨⟨0, 4⟩, .st, 0xF, true, false, 0x0, 0xF⟩,
    ⟨⟨4, 1⟩, .ro, 0x0, false, false, 0x0, 0x1⟩,
    ⟨⟨5, 1⟩, .ro, 0x0, false, false, 0x0, 0x1⟩]⟩

/-- `tdPecap` of R206. -/
def tdPecapDef : RegDef :=
  ⟨.tdPecap, 0x30400400000, [(2, 0x1000000)],
   [⟨⟨0, 16⟩, .ro, 0xFFFF, false, false, 0x0, 0xFFFF⟩,
    ⟨⟨16, 16⟩, .ro, 0x0, false, false, 0x0, 0xFFFF⟩,
    ⟨⟨32, 5⟩, .ro, 0x10, false, false, 0x0, 0x1F⟩]⟩

/-- `tdPectl` of R206. -/
def tdPectlDef : RegDef :=
  ⟨.tdPectl, 0x30400400008, [(2, 0x1000000)],
   [⟨⟨0, 16⟩, .wo, 0x0, false, false, 0x0, 0xFFFF⟩,
    ⟨⟨16, 16⟩, .ro, 0x0, false, false, 0x0, 0xFFFF⟩]⟩

/-- `tdPeshare` of R206. -/
def tdPeshareDef : RegDef :=
  ⟨.tdPeshare, 0x30400400100, [(2, 0x1000000), (12, 0x8)],
   [⟨⟨0, 4⟩, .rw, 0x1, true, false, 0x1, 0xF⟩,
    ⟨⟨16, 16⟩, .ro, 0x0, false, false, 0x0, 0xFFFF⟩]⟩

/-- `tdPestat` of R206. -/
def tdPestatDef : RegDef :=
  ⟨.tdPestat, 0x30400400200, [(2, 0x1000000), (16, 0x8)],
   [⟨⟨0, 1⟩, .ro, 0x0, false, false, 0x0, 0x1⟩,
    ⟨⟨8, 8⟩, .ro, 0xFF, false, false, 0x0, 0xFF⟩,
    ⟨⟨16, 16⟩, .ro, 0x0, false, false, 0x0, 0xFFFF⟩,
    ⟨⟨32, 32⟩, .ro, 0x0, false, false, 0x0, 0xFFFFFFFF⟩]⟩

/-- `phCtxcfg0` of R250. -/
def phCtxcfg0Def : RegDef :=
  ⟨.phCtxcfg0, 0x30100300000, [(12, 0x1000000), (96, 0x40)],
   [⟨⟨0, 1⟩, .st, 0x0, true, false, 0x0, 0x1⟩,
    ⟨⟨1, 1⟩, .ro, 0x0, false, false, 0x0, 0x1⟩,
    ⟨⟨2, 1⟩, .st, 0x0, true, false, 0x0, 0x1⟩,
    ⟨⟨3, 1⟩, .st, 0x0, true, false, 0x0, 0x1⟩,
    ⟨⟨4, 1⟩, .st, 0x1, true, false, 0x0, 0x1⟩,
    ⟨⟨5, 1⟩, .st, 0x0, true, false, 0x0, 0x1⟩,
    ⟨⟨6, 1⟩, .st, 0x0, true, false, 0x0, 0x1⟩,
    ⟨⟨7, 1⟩, .st, 0x0, true, false, 0x0, 0x1⟩,
    ⟨⟨8, 6⟩, .st, 0x20, true, false, 0x1, 0x20⟩,
    ⟨⟨16, 12⟩, .st, 0x0, true, false, 0x0, 0xFFF⟩,
    ⟨⟨28, 12⟩, .st, 0xFFF, true, false, 0x0, 0xFFF⟩,
    ⟨⟨40, 16⟩, .st, 0x0, true, false, 0x0, 0xFFFF⟩]⟩

/-- `phCtxcfg1` of R250. -/
def phCtxcfg1Def : RegDef :=
  ⟨.phCtxcfg1, 0x30100300008, [(12, 0x1000000), (96, 0x40)],
   [⟨⟨0, 44⟩, .st, 0x0, true, false, 0x0, 0xFFFFFFFFFFF⟩,
    ⟨⟨44, 4⟩, .st, 0x0, true, false, 0x0, 0xA⟩]⟩

/-- `phCtxcfg2` of R250. -/
def phCtxcfg2Def : RegDef :=
  ⟨.phCtxcfg2, 0x30100300010, [(12, 0x1000000), (96, 0x40)],
   [⟨⟨0, 16⟩, .st, 0x0, true, false, 0x0, 0xBC00⟩,
    ⟨⟨16, 16⟩, .st, 0xBC00, true, false, 0x0, 0xBC00⟩,
    ⟨⟨32, 32⟩, .st, 0x0, true, false, 0x0, 0xEA60⟩]⟩

/-- `phSeed` of R250. -/
def phSeedDef : RegDef :=
  ⟨.phSeed, 0x30100400000, [(12, 0x1000000), (96, 0x800), (256, 0x8)],
   [⟨⟨0, 64⟩, .st, 0x0, false, false, 0x0, 0xFFFFFFFFFFFFFFFF⟩]⟩

/-- `phClasp` of R250. -/
def phClaspDef : RegDef :=
  ⟨.phClasp, 0x30100100000, [(12, 0x1000000), (4096, 0x8)],
   [⟨⟨0, 64⟩, .ro, 0x0, false, false, 0x0, 0xFFFFFFFFFFFFFFFF⟩]⟩

/-- `phAclasp` of R250. -/
def phAclaspDef : RegDef :=
  ⟨.phAclasp, 0x30100108000, [(12, 0x1000000), (1024, 0x8)],
   [⟨⟨0, 64⟩, .ro, 0x0, false, false, 0x0, 0xFFFFFFFFFFFFFFFF⟩]⟩

/-- `phClasptaint` of R250. -/
def phClasptaintDef : RegDef :=
  ⟨.phClasptaint, 0x30100110000, [(12, 0x1000000), (64, 0x8)],
   [⟨⟨0, 64⟩, .ro, 0x0, false, false, 0x0, 0xFFFFFFFFFFFFFFFF⟩]⟩

/-- `phAclasptaint` of R250. -/
def phAclasptaintDef : RegDef :=
  ⟨.phAclasptaint, 0x30100110200, [(12, 0x1000000), (16, 0x8)],
   [⟨⟨0, 64⟩, .ro, 0x0, false, false, 0x0, 0xFFFFFFFFFFFFFFFF⟩]⟩

/-- `phIntake` of R250. -/
def phIntakeDef : RegDef :=
  ⟨.phIntake, 0x30100200030, [(12, 0x1000000)],
   [⟨⟨0, 32⟩, .ro, 0x0, false, false, 0x0, 0xFFFFFFFF⟩,
    ⟨⟨32, 16⟩, .ro, 0x0, false, false, 0x0, 0xFFFF⟩,
    ⟨⟨48, 10⟩, .rw, 0xA, true, false, 0x1, 0x3E8⟩,
    ⟨⟨60, 4⟩, .fx, 0xB, true, false, 0x0, 0xB⟩]⟩

/-- `lxCtl` of R345. -/
def lxCtlDef : RegDef :=
  ⟨.lxCtl, 0x30300000000, [(6, 0x100000)],
   [⟨⟨0, 1⟩, .rw, 0x1, true, false, 0x0, 0x1⟩,
    ⟨⟨1, 1⟩, .wo, 0x0, false, false, 0x0, 0x1⟩,
    ⟨⟨8, 8⟩, .rw, 0x2, true, false, 0x2, 0x14⟩,
    ⟨⟨16, 20⟩, .rw, 0x4E20, true, false, 0x64, 0xF4240⟩,
    ⟨⟨36, 17⟩, .rw, 0x3E8, true, false, 0xA, 0x186A0⟩]⟩

/-- `lxStat` of R345. -/
def lxStatDef : RegDef :=
  ⟨.lxStat, 0x30300000008, [(6, 0x100000)],
   [⟨⟨0, 3⟩, .ro, 0x0, false, false, 0x0, 0x7⟩,
    ⟨⟨4, 4⟩, .ro, 0x0, false, false, 0x0, 0xF⟩,
    ⟨⟨8, 1⟩, .ro, 0x0, false, false, 0x0, 0x1⟩,
    ⟨⟨9, 1⟩, .ro, 0x0, false, false, 0x0, 0x1⟩,
    ⟨⟨10, 12⟩, .ro, 0xFFF, false, false, 0x0, 0xFFF⟩,
    ⟨⟨22, 4⟩, .ro, 0x0, false, false, 0x0, 0xF⟩,
    ⟨⟨32, 11⟩, .ro, 0x0, false, false, 0x0, 0x7FF⟩,
    ⟨⟨48, 4⟩, .ro, 0x8, false, false, 0x0, 0xF⟩,
    ⟨⟨52, 4⟩, .ro, 0x8, false, false, 0x0, 0xF⟩]⟩

/-- `lxErr` of R345. -/
def lxErrDef : RegDef :=
  ⟨.lxErr, 0x30300000010, [(6, 0x100000)],
   [⟨⟨0, 32⟩, .ro, 0x0, false, false, 0x0, 0xFFFFFFFF⟩,
    ⟨⟨32, 16⟩, .ro, 0x0, false, false, 0x0, 0xFFFF⟩,
    ⟨⟨48, 16⟩, .ro, 0x0, false, false, 0x0, 0xFFFF⟩]⟩

/-- `lxCrcerr` of R345. -/
def lxCrcerrDef : RegDef :=
  ⟨.lxCrcerr, 0x30300000018, [(6, 0x100000)],
   [⟨⟨0, 32⟩, .ro, 0x0, false, false, 0x0, 0xFFFFFFFF⟩,
    ⟨⟨32, 32⟩, .ro, 0x0, false, false, 0x0, 0xFFFFFFFF⟩]⟩

/-- `lxLane` of R345. -/
def lxLaneDef : RegDef :=
  ⟨.lxLane, 0x30300000100, [(6, 0x100000), (144, 0x8)],
   [⟨⟨0, 2⟩, .ro, 0x0, false, false, 0x0, 0x3⟩,
    ⟨⟨2, 6⟩, .ro, 0x0, false, false, 0x0, 0x3F⟩,
    ⟨⟨8, 32⟩, .ro, 0x0, false, false, 0x0, 0xFFFFFFFF⟩,
    ⟨⟨40, 16⟩, .ro, 0x0, false, false, 0x0, 0xFFFF⟩]⟩

/-- `fdNode` of R345. -/
def fdNodeDef : RegDef :=
  ⟨.fdNode, 0x30200000000, [(4, 0x1000000)],
   [⟨⟨0, 12⟩, .fx, 0xFFF, false, true, 0x0, 0xFFF⟩,
    ⟨⟨12, 7⟩, .fx, 0x4, false, true, 0x4, 0x40⟩,
    ⟨⟨32, 17⟩, .rw, 0x3E8, true, false, 0xA, 0x186A0⟩]⟩

/-- `fdIsodrop` of R345. -/
def fdIsodropDef : RegDef :=
  ⟨.fdIsodrop, 0x30200000100, [(4, 0x1000000), (10, 0x8)],
   [⟨⟨0, 48⟩, .ro, 0x0, false, false, 0x0, 0xFFFFFFFFFFFF⟩,
    ⟨⟨48, 16⟩, .ro, 0x0, false, false, 0x0, 0xFFFF⟩]⟩

/-- `fdAbortlog` of R345. -/
def fdAbortlogDef : RegDef :=
  ⟨.fdAbortlog, 0x30200000200, [(4, 0x1000000)],
   [⟨⟨0, 16⟩, .ro, 0x0, false, false, 0x0, 0xFFFF⟩,
    ⟨⟨16, 12⟩, .ro, 0x0, false, false, 0x0, 0xFFF⟩,
    ⟨⟨28, 4⟩, .ro, 0x0, false, false, 0x0, 0xF⟩,
    ⟨⟨32, 4⟩, .ro, 0x0, false, false, 0x0, 0xF⟩,
    ⟨⟨36, 8⟩, .ro, 0x0, false, false, 0x0, 0xFF⟩,
    ⟨⟨44, 1⟩, .ro, 0x0, false, false, 0x0, 0x1⟩,
    ⟨⟨45, 1⟩, .wo, 0x0, false, false, 0x0, 0x1⟩,
    ⟨⟨46, 1⟩, .w1c, 0x0, false, false, 0x0, 0x1⟩]⟩

/-- `fdAborttime` of R345. -/
def fdAborttimeDef : RegDef :=
  ⟨.fdAborttime, 0x30200000208, [(4, 0x1000000)],
   [⟨⟨0, 64⟩, .ro, 0x0, false, false, 0x0, 0xFFFFFFFFFFFFFFFF⟩]⟩

/-- `fdSlicedir` of R345. -/
def fdSlicedirDef : RegDef :=
  ⟨.fdSlicedir, 0x30200001000, [(64, 0x8)],
   [⟨⟨0, 16⟩, .st, 0x0, true, false, 0x0, 0xFFFF⟩,
    ⟨⟨16, 12⟩, .st, 0x0, true, false, 0x0, 0xFFF⟩,
    ⟨⟨28, 1⟩, .st, 0x0, true, false, 0x0, 0x1⟩,
    ⟨⟨29, 1⟩, .ro, 0x0, false, false, 0x0, 0x1⟩,
    ⟨⟨30, 1⟩, .ro, 0x0, false, false, 0x0, 0x1⟩,
    ⟨⟨32, 8⟩, .st, 0x0, true, false, 0x0, 0xFF⟩]⟩

/-- `fdMcast` of R345. -/
def fdMcastDef : RegDef :=
  ⟨.fdMcast, 0x30200080000, [(64, 0x400), (128, 0x8)],
   [⟨⟨0, 32⟩, .st, 0x0, false, false, 0x0, 0xFFFFFFFF⟩,
    ⟨⟨32, 32⟩, .st, 0x0, false, false, 0x0, 0xFFFFFFFF⟩]⟩

/-- `fdRoute` of R345. -/
def fdRouteDef : RegDef :=
  ⟨.fdRoute, 0x30200100000, [(64, 0x1000), (512, 0x8)],
   [⟨⟨0, 8⟩, .st, 0x0, false, false, 0x0, 0xFF⟩,
    ⟨⟨8, 8⟩, .st, 0x0, false, false, 0x0, 0xFF⟩,
    ⟨⟨16, 8⟩, .st, 0x0, false, false, 0x0, 0xFF⟩,
    ⟨⟨24, 8⟩, .st, 0x0, false, false, 0x0, 0xFF⟩,
    ⟨⟨32, 8⟩, .st, 0x0, false, false, 0x0, 0xFF⟩,
    ⟨⟨40, 8⟩, .st, 0x0, false, false, 0x0, 0xFF⟩,
    ⟨⟨48, 8⟩, .st, 0x0, false, false, 0x0, 0xFF⟩,
    ⟨⟨56, 8⟩, .st, 0x0, false, false, 0x0, 0xFF⟩]⟩

/-- `fdRankmap` of R345. -/
def fdRankmapDef : RegDef :=
  ⟨.fdRankmap, 0x30200400000, [(64, 0x10000), (8192, 0x8)],
   [⟨⟨0, 32⟩, .st, 0x0, false, false, 0x0, 0xFFFFFFFF⟩,
    ⟨⟨32, 32⟩, .st, 0x0, false, false, 0x0, 0xFFFFFFFF⟩]⟩

/-- `fdCollcfg` of R377. -/
def fdCollcfgDef : RegDef :=
  ⟨.fdCollcfg, 0x30200000010, [(4, 0x1000000)],
   [⟨⟨0, 32⟩, .rw, 0x2710, true, false, 0x0, 0x927C0⟩]⟩

/-- `fdRustat` of R377. -/
def fdRustatDef : RegDef :=
  ⟨.fdRustat, 0x30200000300, [(4, 0x1000000), (2, 0x8)],
   [⟨⟨0, 32⟩, .ro, 0x0, false, false, 0x0, 0xFFFFFFFF⟩,
    ⟨⟨32, 16⟩, .ro, 0x0, false, false, 0x0, 0xFFFF⟩,
    ⟨⟨48, 16⟩, .ro, 0x0, false, false, 0x0, 0xFFFF⟩]⟩

/-- `fdCollstat` of R377. -/
def fdCollstatDef : RegDef :=
  ⟨.fdCollstat, 0x30200002000, [(64, 0x8)],
   [⟨⟨0, 32⟩, .ro, 0x0, false, false, 0x0, 0xFFFFFFFF⟩,
    ⟨⟨32, 1⟩, .ro, 0x0, false, false, 0x0, 0x1⟩,
    ⟨⟨48, 16⟩, .ro, 0x0, false, false, 0x0, 0xFFFF⟩]⟩

/-- `fdTreedef` of R377. -/
def fdTreedefDef : RegDef :=
  ⟨.fdTreedef, 0x302000A0000, [(64, 0x800), (256, 0x8)],
   [⟨⟨0, 20⟩, .st, 0x0, false, false, 0x0, 0xFFFFF⟩,
    ⟨⟨20, 2⟩, .st, 0x0, false, false, 0x0, 0x2⟩]⟩

/-- `fdTreeinfo` of R377. -/
def fdTreeinfoDef : RegDef :=
  ⟨.fdTreeinfo, 0x302000C0000, [(64, 0x800), (256, 0x8)],
   [⟨⟨0, 3⟩, .ro, 0x7, false, false, 0x0, 0x7⟩,
    ⟨⟨3, 6⟩, .ro, 0x0, false, false, 0x0, 0x3F⟩,
    ⟨⟨9, 6⟩, .ro, 0x0, false, false, 0x0, 0x3F⟩,
    ⟨⟨15, 6⟩, .ro, 0x0, false, false, 0x0, 0x3F⟩,
    ⟨⟨21, 15⟩, .ro, 0x0, false, false, 0x0, 0x7FFF⟩,
    ⟨⟨36, 1⟩, .ro, 0x0, false, false, 0x0, 0x1⟩,
    ⟨⟨37, 1⟩, .ro, 0x0, false, false, 0x0, 0x1⟩,
    ⟨⟨38, 1⟩, .ro, 0x0, false, false, 0x0, 0x1⟩]⟩

/-- `gtDisccfg` of R377. -/
def gtDisccfgDef : RegDef :=
  ⟨.gtDisccfg, 0x30700000020, [],
   [⟨⟨0, 12⟩, .fx, 0x0, true, true, 0x0, 0xFFF⟩,
    ⟨⟨16, 7⟩, .rw, 0xA, true, false, 0x1, 0x64⟩]⟩

/-- `gtDiscsrc` of R377. -/
def gtDiscsrcDef : RegDef :=
  ⟨.gtDiscsrc, 0x30700000028, [],
   [⟨⟨0, 3⟩, .ro, 0x7, false, false, 0x0, 0x7⟩,
    ⟨⟨3, 6⟩, .ro, 0x3F, false, false, 0x0, 0x3F⟩,
    ⟨⟨16, 16⟩, .ro, 0xFFFF, false, false, 0x0, 0xFFFF⟩,
    ⟨⟨32, 32⟩, .ro, 0x0, false, false, 0x0, 0xFFFFFFFF⟩]⟩

/-- `phRecord` of R392. -/
def phRecordDef : RegDef :=
  ⟨.phRecord, 0x30100200040, [(12, 0x1000000)],
   [⟨⟨0, 10⟩, .ro, 0x3FF, false, false, 0x0, 0x3FF⟩,
    ⟨⟨10, 1⟩, .ro, 0x0, false, false, 0x0, 0x1⟩,
    ⟨⟨11, 1⟩, .w1c, 0x0, false, false, 0x0, 0x1⟩,
    ⟨⟨32, 32⟩, .ro, 0x0, false, false, 0x0, 0xFFFFFFFF⟩]⟩

/-- `phReplay` of R392. -/
def phReplayDef : RegDef :=
  ⟨.phReplay, 0x30100200048, [(12, 0x1000000)],
   [⟨⟨0, 10⟩, .ro, 0x3FF, false, false, 0x0, 0x3FF⟩,
    ⟨⟨10, 1⟩, .ro, 0x0, false, false, 0x0, 0x1⟩,
    ⟨⟨11, 1⟩, .w1c, 0x0, false, false, 0x0, 0x1⟩,
    ⟨⟨12, 1⟩, .ro, 0x0, false, false, 0x0, 0x1⟩,
    ⟨⟨13, 1⟩, .rw, 0x1, true, false, 0x0, 0x1⟩,
    ⟨⟨14, 1⟩, .ro, 0x0, false, false, 0x0, 0x1⟩,
    ⟨⟨32, 32⟩, .ro, 0x0, false, false, 0x0, 0xFFFFFFFF⟩]⟩

/-- `phReplaydiv` of R392. -/
def phReplaydivDef : RegDef :=
  ⟨.phReplaydiv, 0x30100200050, [(12, 0x1000000)],
   [⟨⟨0, 8⟩, .ro, 0x0, false, false, 0x0, 0xFF⟩,
    ⟨⟨8, 8⟩, .ro, 0xFF, false, false, 0x0, 0xFF⟩,
    ⟨⟨16, 32⟩, .ro, 0x0, false, false, 0x0, 0xFFFFFFFF⟩]⟩

/-- `phPwrlim` of R428. -/
def phPwrlimDef : RegDef :=
  ⟨.phPwrlim, 0x30100200100, [(12, 0x1000000)],
   [⟨⟨0, 16⟩, .rw, 0x0, true, false, 0x0, 0xFFFF⟩,
    ⟨⟨16, 16⟩, .rw, 0x0, true, false, 0x0, 0xFFFF⟩,
    ⟨⟨32, 16⟩, .rw, 0x0, true, false, 0x0, 0xFFFF⟩,
    ⟨⟨48, 16⟩, .rw, 0x0, true, false, 0x0, 0xFFFF⟩]⟩

/-- `phPwrctl` of R428. -/
def phPwrctlDef : RegDef :=
  ⟨.phPwrctl, 0x30100200108, [(12, 0x1000000)],
   [⟨⟨0, 8⟩, .rw, 0x0, false, false, 0x0, 0xFF⟩,
    ⟨⟨8, 1⟩, .rw, 0x0, false, false, 0x0, 0x1⟩,
    ⟨⟨9, 1⟩, .wo, 0x0, false, false, 0x0, 0x1⟩]⟩

/-- `phPwrcap` of R428. -/
def phPwrcapDef : RegDef :=
  ⟨.phPwrcap, 0x30100200110, [(12, 0x1000000)],
   [⟨⟨0, 16⟩, .ro, 0x0, true, false, 0x0, 0xFFFF⟩,
    ⟨⟨16, 16⟩, .ro, 0x0, false, false, 0x0, 0xFFFF⟩,
    ⟨⟨32, 16⟩, .ro, 0x0, true, false, 0x0, 0xFFFF⟩,
    ⟨⟨48, 1⟩, .ro, 0x0, false, false, 0x0, 0x1⟩,
    ⟨⟨49, 1⟩, .ro, 0x0, false, false, 0x0, 0x1⟩,
    ⟨⟨50, 1⟩, .ro, 0x0, false, false, 0x0, 0x1⟩,
    ⟨⟨51, 1⟩, .ro, 0x0, false, false, 0x0, 0x1⟩,
    ⟨⟨52, 1⟩, .ro, 0x0, false, false, 0x0, 0x1⟩,
    ⟨⟨53, 1⟩, .ro, 0x0, false, false, 0x0, 0x1⟩,
    ⟨⟨54, 1⟩, .ro, 0x0, true, false, 0x0, 0x1⟩,
    ⟨⟨55, 1⟩, .ro, 0x0, false, false, 0x0, 0x1⟩]⟩

/-- `phPwrest` of R428. -/
def phPwrestDef : RegDef :=
  ⟨.phPwrest, 0x30100200118, [(12, 0x1000000)],
   [⟨⟨0, 16⟩, .ro, 0x0, false, false, 0x0, 0xFFFF⟩,
    ⟨⟨16, 16⟩, .ro, 0x0, false, false, 0x0, 0xFFFF⟩,
    ⟨⟨32, 16⟩, .ro, 0x0, false, false, 0x0, 0xFFFF⟩,
    ⟨⟨48, 1⟩, .ro, 0x0, false, false, 0x0, 0x1⟩,
    ⟨⟨49, 1⟩, .ro, 0x0, false, false, 0x0, 0x1⟩,
    ⟨⟨50, 1⟩, .w1c, 0x0, false, false, 0x0, 0x1⟩]⟩

/-- `phPwrcoef0` of R428. -/
def phPwrcoef0Def : RegDef :=
  ⟨.phPwrcoef0, 0x30100200120, [(12, 0x1000000)],
   [⟨⟨0, 16⟩, .fx, 0x0, false, false, 0x0, 0xFFFF⟩,
    ⟨⟨16, 16⟩, .fx, 0x0, false, false, 0x0, 0xFFFF⟩,
    ⟨⟨32, 16⟩, .fx, 0x0, false, false, 0x0, 0xFFFF⟩,
    ⟨⟨48, 16⟩, .fx, 0x0, false, false, 0x0, 0xFFFF⟩]⟩

/-- `phPwrcoef1` of R428. -/
def phPwrcoef1Def : RegDef :=
  ⟨.phPwrcoef1, 0x30100200128, [(12, 0x1000000)],
   [⟨⟨0, 16⟩, .fx, 0x0, false, false, 0x0, 0xFFFF⟩,
    ⟨⟨16, 16⟩, .fx, 0x0, false, false, 0x0, 0xFFFF⟩,
    ⟨⟨32, 16⟩, .fx, 0x0, false, false, 0x0, 0xFFFF⟩,
    ⟨⟨48, 16⟩, .fx, 0x0, false, false, 0x0, 0xFFFF⟩]⟩

/-- `phPwrcoef2` of R428. -/
def phPwrcoef2Def : RegDef :=
  ⟨.phPwrcoef2, 0x30100200130, [(12, 0x1000000)],
   [⟨⟨0, 16⟩, .fx, 0x0, false, false, 0x0, 0xFFFF⟩,
    ⟨⟨16, 16⟩, .fx, 0x0, false, false, 0x0, 0xFFFF⟩,
    ⟨⟨32, 8⟩, .fx, 0x0, false, false, 0x0, 0xFF⟩]⟩

/-- `hmPwrcfg` of R429. -/
def hmPwrcfgDef : RegDef :=
  ⟨.hmPwrcfg, 0x3F000100000, [],
   [⟨⟨0, 13⟩, .rw, 0x1004, true, false, 0x3E8, 0x1004⟩,
    ⟨⟨16, 8⟩, .rw, 0x14, true, false, 0x1, 0xC8⟩,
    ⟨⟨24, 7⟩, .fx, 0x3C, true, false, 0x19, 0x64⟩,
    ⟨⟨32, 7⟩, .rw, 0x4B, true, false, 0x19, 0x64⟩,
    ⟨⟨40, 7⟩, .rw, 0x28, true, false, 0xA, 0x64⟩,
    ⟨⟨48, 7⟩, .rw, 0x6C, true, false, 0x64, 0x70⟩,
    ⟨⟨56, 3⟩, .rw, 0x5, true, false, 0x0, 0x7⟩]⟩

/-- `hmShedord` of R429. -/
def hmShedordDef : RegDef :=
  ⟨.hmShedord, 0x3F000100010, [],
   [⟨⟨0, 48⟩, .rw, 0x123456789AB, true, false, 0x0, 0xFFFFFFFFFFFF⟩]⟩

/-- `hmPwrstat` of R429. -/
def hmPwrstatDef : RegDef :=
  ⟨.hmPwrstat, 0x3F000100008, [],
   [⟨⟨0, 13⟩, .ro, 0x0, false, false, 0x0, 0x1FFF⟩,
    ⟨⟨13, 13⟩, .ro, 0x0, false, false, 0x0, 0x1FFF⟩,
    ⟨⟨26, 1⟩, .ro, 0x0, false, false, 0x0, 0x1⟩,
    ⟨⟨27, 1⟩, .ro, 0x0, false, false, 0x0, 0x1⟩,
    ⟨⟨28, 1⟩, .ro, 0x0, false, false, 0x0, 0x1⟩,
    ⟨⟨29, 1⟩, .ro, 0x0, false, false, 0x0, 0x1⟩,
    ⟨⟨30, 1⟩, .w1c, 0x0, false, false, 0x0, 0x1⟩,
    ⟨⟨31, 1⟩, .ro, 0x0, false, false, 0x0, 0x1⟩,
    ⟨⟨32, 8⟩, .ro, 0x0, false, false, 0x0, 0xFF⟩,
    ⟨⟨40, 12⟩, .ro, 0x0, false, false, 0x0, 0xFFF⟩,
    ⟨⟨52, 12⟩, .ro, 0x0, false, false, 0x0, 0xFFF⟩]⟩

/-- `hmRail` of R429. -/
def hmRailDef : RegDef :=
  ⟨.hmRail, 0x3F000100100, [(24, 0x8)],
   [⟨⟨0, 16⟩, .ro, 0x0, false, false, 0x0, 0xFFFF⟩,
    ⟨⟨16, 16⟩, .ro, 0x0, false, false, 0x0, 0xFFFF⟩,
    ⟨⟨32, 16⟩, .ro, 0x0, false, false, 0x0, 0xFFFF⟩,
    ⟨⟨48, 1⟩, .ro, 0x0, false, false, 0x0, 0x1⟩,
    ⟨⟨49, 15⟩, .ro, 0x0, false, false, 0x0, 0x7FFF⟩]⟩

/-- `hmTarnish` of R429. -/
def hmTarnishDef : RegDef :=
  ⟨.hmTarnish, 0x3F000100400, [(52, 0x8)],
   [⟨⟨0, 16⟩, .ro, 0x0, true, false, 0x0, 0xFFFF⟩,
    ⟨⟨16, 3⟩, .ro, 0x0, true, false, 0x0, 0x7⟩,
    ⟨⟨19, 1⟩, .ro, 0x0, false, false, 0x0, 0x1⟩]⟩

/-- `hmRole` of R459. -/
def hmRoleDef : RegDef :=
  ⟨.hmRole, 0x3F000000000, [],
   [⟨⟨0, 1⟩, .ro, 0x0, false, false, 0x0, 0x1⟩,
    ⟨⟨1, 1⟩, .fx, 0x0, true, false, 0x0, 0x1⟩,
    ⟨⟨2, 1⟩, .ro, 0x0, false, false, 0x0, 0x1⟩,
    ⟨⟨3, 1⟩, .ro, 0x0, false, false, 0x0, 0x1⟩,
    ⟨⟨16, 16⟩, .ro, 0x0, false, false, 0x0, 0xFFFF⟩,
    ⟨⟨32, 16⟩, .ro, 0x0, false, false, 0x0, 0xFFFF⟩,
    ⟨⟨48, 16⟩, .ro, 0x0, false, false, 0x0, 0xFFFF⟩]⟩

/-- `hmRolectl` of R459. -/
def hmRolectlDef : RegDef :=
  ⟨.hmRolectl, 0x3F000000008, [],
   [⟨⟨0, 1⟩, .wo, 0x0, false, false, 0x0, 0x1⟩,
    ⟨⟨1, 1⟩, .rw, 0x1, true, false, 0x0, 0x1⟩,
    ⟨⟨16, 14⟩, .rw, 0x64, true, false, 0xA, 0x2710⟩]⟩

/-- `hmHbstat` of R459. -/
def hmHbstatDef : RegDef :=
  ⟨.hmHbstat, 0x3F000000010, [],
   [⟨⟨0, 1⟩, .ro, 0x0, false, false, 0x0, 0x1⟩,
    ⟨⟨1, 1⟩, .ro, 0x0, false, false, 0x0, 0x1⟩,
    ⟨⟨2, 1⟩, .w1c, 0x0, false, false, 0x0, 0x1⟩,
    ⟨⟨8, 8⟩, .ro, 0x0, false, false, 0x0, 0xFF⟩,
    ⟨⟨16, 16⟩, .ro, 0x0, false, false, 0x0, 0xFFFF⟩,
    ⟨⟨32, 32⟩, .ro, 0x0, false, false, 0x0, 0xFFFFFFFF⟩]⟩

/-- `hmDiestat` of R459. -/
def hmDiestatDef : RegDef :=
  ⟨.hmDiestat, 0x3F000000020, [(2, 0x8)],
   [⟨⟨0, 3⟩, .ro, 0x0, false, false, 0x0, 0x7⟩,
    ⟨⟨8, 8⟩, .ro, 0x0, false, false, 0x0, 0xFF⟩,
    ⟨⟨16, 8⟩, .ro, 0x0, false, false, 0x0, 0xFF⟩,
    ⟨⟨24, 1⟩, .ro, 0x0, false, false, 0x0, 0x1⟩,
    ⟨⟨32, 32⟩, .ro, 0x0, false, false, 0x0, 0xFFFFFFFF⟩]⟩

/-- `hmTrayhb` of R459. -/
def hmTrayhbDef : RegDef :=
  ⟨.hmTrayhb, 0x3F000000040, [],
   [⟨⟨0, 32⟩, .rw, 0x0, false, false, 0x0, 0xFFFFFFFF⟩,
    ⟨⟨32, 1⟩, .ro, 0x0, false, false, 0x0, 0x1⟩,
    ⟨⟨33, 15⟩, .ro, 0x0, false, false, 0x0, 0x7FFF⟩,
    ⟨⟨48, 16⟩, .ro, 0x0, false, false, 0x0, 0xFFFF⟩]⟩

/-- `hmRackord` of R459. -/
def hmRackordDef : RegDef :=
  ⟨.hmRackord, 0x3F000000048, [],
   [⟨⟨0, 12⟩, .rw, 0xFFF, true, false, 0x0, 0xFFF⟩,
    ⟨⟨16, 1⟩, .rw, 0x1, true, false, 0x0, 0x1⟩]⟩

/-- `hmTrayrpt` of R459. -/
def hmTrayrptDef : RegDef :=
  ⟨.hmTrayrpt, 0x3F000000050, [],
   [⟨⟨0, 1⟩, .rw, 0x0, false, false, 0x0, 0x1⟩,
    ⟨⟨1, 1⟩, .rw, 0x0, false, false, 0x0, 0x1⟩]⟩

/-- `hmWear` of R459. -/
def hmWearDef : RegDef :=
  ⟨.hmWear, 0x3F000200000, [(114, 0x8)],
   [⟨⟨0, 14⟩, .ro, 0x0, true, false, 0x0, 0x3FFF⟩,
    ⟨⟨14, 14⟩, .ro, 0x0, true, false, 0x0, 0x3FFF⟩,
    ⟨⟨28, 14⟩, .ro, 0x0, true, false, 0x0, 0x3FFF⟩,
    ⟨⟨42, 10⟩, .ro, 0x0, true, false, 0x0, 0x3FF⟩,
    ⟨⟨52, 2⟩, .ro, 0x0, true, false, 0x0, 0x3⟩,
    ⟨⟨54, 1⟩, .ro, 0x0, true, false, 0x0, 0x1⟩,
    ⟨⟨55, 1⟩, .ro, 0x0, true, false, 0x0, 0x1⟩]⟩

/-- `lkState` of R491. -/
def lkStateDef : RegDef :=
  ⟨.lkState, 0x3F001000000, [],
   [⟨⟨0, 2⟩, .ro, 0x0, false, false, 0x0, 0x3⟩,
    ⟨⟨3, 1⟩, .ro, 0x0, false, false, 0x0, 0x1⟩,
    ⟨⟨4, 1⟩, .ro, 0x0, false, false, 0x0, 0x1⟩,
    ⟨⟨5, 1⟩, .ro, 0x0, false, false, 0x0, 0x1⟩,
    ⟨⟨6, 1⟩, .ro, 0x0, false, false, 0x0, 0x1⟩,
    ⟨⟨7, 1⟩, .ro, 0x0, false, false, 0x0, 0x1⟩,
    ⟨⟨8, 1⟩, .ro, 0x0, false, false, 0x0, 0x1⟩,
    ⟨⟨16, 8⟩, .ro, 0x0, false, false, 0x0, 0xFF⟩,
    ⟨⟨24, 12⟩, .ro, 0x0, false, false, 0x0, 0xFFF⟩]⟩

/-- `lkSigstate` of R491. -/
def lkSigstateDef : RegDef :=
  ⟨.lkSigstate, 0x3F001000008, [],
   [⟨⟨0, 40⟩, .ro, 0x0, false, false, 0x0, 0xFFFFFFFFFF⟩,
    ⟨⟨40, 24⟩, .ro, 0x0, false, false, 0x0, 0xFFFFFF⟩]⟩

/-- `lkBootcnt` of R491. -/
def lkBootcntDef : RegDef :=
  ⟨.lkBootcnt, 0x3F001000010, [],
   [⟨⟨0, 32⟩, .ro, 0x0, false, false, 0x0, 0xFFFFFFFF⟩]⟩

/-- `lkSvn` of R491. -/
def lkSvnDef : RegDef :=
  ⟨.lkSvn, 0x3F001000020, [(6, 0x8)],
   [⟨⟨0, 16⟩, .ro, 0x0, false, false, 0x0, 0xFFFF⟩,
    ⟨⟨16, 16⟩, .ro, 0x0, false, false, 0x0, 0xFFFF⟩]⟩

/-- `lkSvnctl` of R491. -/
def lkSvnctlDef : RegDef :=
  ⟨.lkSvnctl, 0x3F001000060, [],
   [⟨⟨0, 1⟩, .wo, 0x0, false, false, 0x0, 0x1⟩]⟩

/-- `lkHostref` of R491. -/
def lkHostrefDef : RegDef :=
  ⟨.lkHostref, 0x3F001000068, [],
   [⟨⟨0, 48⟩, .ro, 0x0, false, false, 0x0, 0xFFFFFFFFFFFF⟩,
    ⟨⟨48, 12⟩, .ro, 0x0, false, false, 0x0, 0xFFF⟩]⟩

/-- `lkLinkstat` of R491. -/
def lkLinkstatDef : RegDef :=
  ⟨.lkLinkstat, 0x3F001000100, [(6, 0x8)],
   [⟨⟨0, 3⟩, .ro, 0x0, false, false, 0x0, 0x7⟩,
    ⟨⟨8, 8⟩, .ro, 0x0, false, false, 0x0, 0xFF⟩,
    ⟨⟨16, 32⟩, .ro, 0x0, false, false, 0x0, 0xFFFFFFFF⟩]⟩

/-- `lkLinkctl` of R491. -/
def lkLinkctlDef : RegDef :=
  ⟨.lkLinkctl, 0x3F001000140, [(6, 0x8)],
   [⟨⟨0, 1⟩, .wo, 0x0, false, false, 0x0, 0x1⟩,
    ⟨⟨1, 1⟩, .wo, 0x0, false, false, 0x0, 0x1⟩]⟩

/-- `lkDbgctl` of R491. -/
def lkDbgctlDef : RegDef :=
  ⟨.lkDbgctl, 0x3F0010001A0, [],
   [⟨⟨0, 1⟩, .wo, 0x0, false, false, 0x0, 0x1⟩,
    ⟨⟨1, 1⟩, .wo, 0x0, false, false, 0x0, 0x1⟩,
    ⟨⟨2, 1⟩, .w1c, 0x0, false, false, 0x0, 0x1⟩]⟩

/-- `lkDbgnonce` of R491. -/
def lkDbgnonceDef : RegDef :=
  ⟨.lkDbgnonce, 0x3F001000180, [(4, 0x8)],
   [⟨⟨0, 64⟩, .ro, 0x0, false, false, 0x0, 0xFFFFFFFFFFFFFFFF⟩]⟩

/-- `lkHallmark` of R491. -/
def lkHallmarkDef : RegDef :=
  ⟨.lkHallmark, 0x3F001001000, [(32, 0x20), (4, 0x8)],
   [⟨⟨0, 64⟩, .ro, 0x0, false, false, 0x0, 0xFFFFFFFFFFFFFFFF⟩]⟩

/-- `evcGctl` of R515. -/
def evcGctlDef : RegDef :=
  ⟨.evcGctl, 0x30600040000, [],
   [⟨⟨0, 1⟩, .rw, 0x1, false, false, 0x0, 0x1⟩,
    ⟨⟨16, 32⟩, .ro, 0x0, false, false, 0x0, 0xFFFFFFFF⟩]⟩

/-- `evcSrccfg` of R515. -/
def evcSrccfgDef : RegDef :=
  ⟨.evcSrccfg, 0x30600000000, [(4096, 0x8)],
   [⟨⟨0, 7⟩, .rw, 0x7F, true, false, 0x0, 0x7F⟩,
    ⟨⟨7, 1⟩, .rw, 0x0, true, false, 0x0, 0x1⟩,
    ⟨⟨8, 3⟩, .rw, 0x4, true, false, 0x0, 0x7⟩,
    ⟨⟨12, 3⟩, .rw, 0x0, true, false, 0x0, 0x7⟩,
    ⟨⟨15, 1⟩, .ro, 0x0, false, false, 0x0, 0x1⟩,
    ⟨⟨16, 8⟩, .rw, 0x0, false, false, 0x0, 0xFF⟩]⟩

/-- `evcSrcstat` of R515. -/
def evcSrcstatDef : RegDef :=
  ⟨.evcSrcstat, 0x30600010000, [(4096, 0x8)],
   [⟨⟨0, 1⟩, .ro, 0x0, false, false, 0x0, 0x1⟩,
    ⟨⟨1, 1⟩, .ro, 0x0, false, false, 0x0, 0x1⟩,
    ⟨⟨2, 1⟩, .ro, 0x0, false, false, 0x0, 0x1⟩,
    ⟨⟨3, 1⟩, .ro, 0x0, false, false, 0x0, 0x1⟩,
    ⟨⟨4, 1⟩, .ro, 0x0, false, false, 0x0, 0x1⟩,
    ⟨⟨8, 8⟩, .ro, 0x0, false, false, 0x0, 0xFF⟩]⟩

/-- `evcGrpcfg` of R515. -/
def evcGrpcfgDef : RegDef :=
  ⟨.evcGrpcfg, 0x30600020000, [(128, 0x8)],
   [⟨⟨0, 10⟩, .rw, 0x0, true, false, 0x0, 0x3FF⟩,
    ⟨⟨16, 1⟩, .rw, 0x0, true, false, 0x0, 0x1⟩,
    ⟨⟨17, 1⟩, .ro, 0x0, false, false, 0x0, 0x1⟩]⟩

/-- `evcTgtCfg` of R515. -/
def evcTgtCfgDef : RegDef :=
  ⟨.evcTgtCfg, 0x30600030000, [(78, 0x40)],
   [⟨⟨0, 3⟩, .rw, 0x0, false, false, 0x0, 0x7⟩,
    ⟨⟨3, 1⟩, .rw, 0x0, true, false, 0x0, 0x1⟩,
    ⟨⟨4, 4⟩, .rw, 0x0, true, false, 0x0, 0x8⟩,
    ⟨⟨8, 1⟩, .w1c, 0x0, false, false, 0x0, 0x1⟩,
    ⟨⟨9, 1⟩, .ro, 0x0, false, false, 0x0, 0x1⟩]⟩

/-- `evcTgtClaim` of R515. -/
def evcTgtClaimDef : RegDef :=
  ⟨.evcTgtClaim, 0x30600030008, [(78, 0x40)],
   [⟨⟨0, 12⟩, .ro, 0x0, false, false, 0x0, 0xFFF⟩,
    ⟨⟨16, 8⟩, .ro, 0x0, false, false, 0x0, 0xFF⟩,
    ⟨⟨24, 1⟩, .ro, 0x0, false, false, 0x0, 0x1⟩,
    ⟨⟨31, 1⟩, .ro, 0x1, false, false, 0x0, 0x1⟩]⟩

/-- `evcTgtComplete` of R515. -/
def evcTgtCompleteDef : RegDef :=
  ⟨.evcTgtComplete, 0x30600030010, [(78, 0x40)],
   [⟨⟨0, 12⟩, .wo, 0x0, false, false, 0x0, 0xFFF⟩]⟩

/-- `evcTgtBase` of R515. -/
def evcTgtBaseDef : RegDef :=
  ⟨.evcTgtBase, 0x30600030018, [(78, 0x40)],
   [⟨⟨12, 32⟩, .rw, 0x0, true, false, 0x0, 0xFFFFFFFF⟩]⟩

/-- `evcTgtProd` of R515. -/
def evcTgtProdDef : RegDef :=
  ⟨.evcTgtProd, 0x30600030020, [(78, 0x40)],
   [⟨⟨0, 32⟩, .ro, 0x0, false, false, 0x0, 0xFFFFFFFF⟩]⟩

/-- `evcTgtCons` of R515. -/
def evcTgtConsDef : RegDef :=
  ⟨.evcTgtCons, 0x30600030028, [(78, 0x40)],
   [⟨⟨0, 32⟩, .rw, 0x0, false, false, 0x0, 0xFFFFFFFF⟩]⟩

/-- `evcTgtLost` of R515. -/
def evcTgtLostDef : RegDef :=
  ⟨.evcTgtLost, 0x30600030030, [(78, 0x40)],
   [⟨⟨0, 32⟩, .w1c, 0x0, false, false, 0x0, 0xFFFFFFFF⟩,
    ⟨⟨32, 32⟩, .w1c, 0x0, false, false, 0x0, 0xFFFFFFFF⟩]⟩

/-- `hmBoot` of R538. -/
def hmBootDef : RegDef :=
  ⟨.hmBoot, 0x3F000300000, [],
   [⟨⟨0, 4⟩, .ro, 0x0, false, false, 0x0, 0xF⟩,
    ⟨⟨4, 2⟩, .ro, 0x0, false, false, 0x0, 0x3⟩,
    ⟨⟨6, 1⟩, .ro, 0x0, false, false, 0x0, 0x1⟩,
    ⟨⟨7, 1⟩, .ro, 0x0, false, false, 0x0, 0x1⟩,
    ⟨⟨8, 1⟩, .ro, 0x0, false, false, 0x0, 0x1⟩,
    ⟨⟨9, 1⟩, .ro, 0x0, false, false, 0x0, 0x1⟩,
    ⟨⟨12, 12⟩, .ro, 0x0, false, false, 0x0, 0xFFF⟩,
    ⟨⟨24, 4⟩, .ro, 0x0, false, false, 0x0, 0xF⟩,
    ⟨⟨32, 32⟩, .ro, 0x0, false, false, 0x0, 0xFFFFFFFF⟩]⟩

/-- `hmBootcfg` of R538. -/
def hmBootcfgDef : RegDef :=
  ⟨.hmBootcfg, 0x3F000300008, [],
   [⟨⟨0, 1⟩, .fx, 0x1, true, false, 0x0, 0x1⟩,
    ⟨⟨1, 1⟩, .rw, 0x0, false, false, 0x0, 0x1⟩,
    ⟨⟨2, 2⟩, .fx, 0x3, true, false, 0x0, 0x3⟩,
    ⟨⟨16, 10⟩, .fx, 0x1E, true, false, 0x0, 0x258⟩]⟩

/-- `hmSfctl` of R538. -/
def hmSfctlDef : RegDef :=
  ⟨.hmSfctl, 0x3F000300010, [],
   [⟨⟨0, 9⟩, .ro, 0x0, true, false, 0x0, 0x1FF⟩,
    ⟨⟨9, 1⟩, .ro, 0x0, true, false, 0x0, 0x1⟩,
    ⟨⟨10, 1⟩, .wo, 0x0, false, false, 0x0, 0x1⟩]⟩

/-- `hmSoftfuse` of R538. -/
def hmSoftfuseDef : RegDef :=
  ⟨.hmSoftfuse, 0x3F000301000, [(256, 0x8)],
   [⟨⟨0, 8⟩, .ro, 0x0, true, false, 0x0, 0xFF⟩,
    ⟨⟨8, 8⟩, .ro, 0x0, true, false, 0x0, 0xFF⟩,
    ⟨⟨16, 16⟩, .ro, 0x0, true, false, 0x0, 0xFFFF⟩,
    ⟨⟨32, 16⟩, .ro, 0x0, true, false, 0x0, 0xFFFF⟩,
    ⟨⟨48, 8⟩, .ro, 0x0, true, false, 0x0, 0xFF⟩,
    ⟨⟨56, 8⟩, .ro, 0x0, true, false, 0x0, 0xFF⟩]⟩

/-- `phCfgstat` of R554. -/
def phCfgstatDef : RegDef :=
  ⟨.phCfgstat, 0x30100200060, [(12, 0x1000000)],
   [⟨⟨0, 32⟩, .ro, 0x0, false, false, 0x0, 0xFFFFFFFF⟩,
    ⟨⟨32, 16⟩, .ro, 0x0, false, false, 0x0, 0xFFFF⟩,
    ⟨⟨48, 8⟩, .ro, 0x0, false, false, 0x0, 0xFF⟩,
    ⟨⟨56, 8⟩, .ro, 0x0, false, false, 0x0, 0xFF⟩]⟩

/-- `tdCfgstat` of R554. -/
def tdCfgstatDef : RegDef :=
  ⟨.tdCfgstat, 0x30400200060, [(2, 0x1000000)],
   [⟨⟨0, 32⟩, .ro, 0x0, false, false, 0x0, 0xFFFFFFFF⟩,
    ⟨⟨32, 16⟩, .ro, 0x0, false, false, 0x0, 0xFFFF⟩,
    ⟨⟨48, 8⟩, .ro, 0x0, false, false, 0x0, 0xFF⟩,
    ⟨⟨56, 8⟩, .ro, 0x0, false, false, 0x0, 0xFF⟩]⟩

/-- `fdCfgstat` of R554. -/
def fdCfgstatDef : RegDef :=
  ⟨.fdCfgstat, 0x30200000018, [(4, 0x1000000)],
   [⟨⟨0, 32⟩, .ro, 0x0, false, false, 0x0, 0xFFFFFFFF⟩,
    ⟨⟨32, 16⟩, .ro, 0x0, false, false, 0x0, 0xFFFF⟩,
    ⟨⟨48, 8⟩, .ro, 0x0, false, false, 0x0, 0xFF⟩,
    ⟨⟨56, 8⟩, .ro, 0x0, false, false, 0x0, 0xFF⟩]⟩

/-- `hmCfgstat` of R554. -/
def hmCfgstatDef : RegDef :=
  ⟨.hmCfgstat, 0x3F000300020, [],
   [⟨⟨0, 32⟩, .ro, 0x0, false, false, 0x0, 0xFFFFFFFF⟩,
    ⟨⟨32, 16⟩, .ro, 0x0, false, false, 0x0, 0xFFFF⟩,
    ⟨⟨48, 8⟩, .ro, 0x0, false, false, 0x0, 0xFF⟩,
    ⟨⟨56, 8⟩, .ro, 0x0, false, false, 0x0, 0xFF⟩]⟩

/-- `hmMcbstat` of R554. -/
def hmMcbstatDef : RegDef :=
  ⟨.hmMcbstat, 0x3F000300018, [],
   [⟨⟨0, 1⟩, .ro, 0x0, false, false, 0x0, 0x1⟩,
    ⟨⟨1, 1⟩, .ro, 0x0, false, false, 0x0, 0x1⟩,
    ⟨⟨2, 1⟩, .ro, 0x0, false, false, 0x0, 0x1⟩,
    ⟨⟨3, 1⟩, .ro, 0x0, false, false, 0x0, 0x1⟩,
    ⟨⟨4, 1⟩, .rw, 0x0, false, false, 0x0, 0x1⟩,
    ⟨⟨8, 8⟩, .ro, 0x0, false, false, 0x0, 0xFF⟩,
    ⟨⟨16, 16⟩, .ro, 0x0, false, false, 0x0, 0xFFFF⟩,
    ⟨⟨32, 16⟩, .ro, 0x0, false, false, 0x0, 0xFFFF⟩,
    ⟨⟨48, 16⟩, .ro, 0x0, false, false, 0x0, 0xFFFF⟩]⟩

/-- `mcbHdr` of R554. -/
def mcbHdrDef : RegDef :=
  ⟨.mcbHdr, 0x3F000400000, [],
   [⟨⟨0, 14⟩, .ro, 0x0, true, false, 0x0, 0x3FFF⟩,
    ⟨⟨16, 48⟩, .ro, 0x0, true, false, 0x0, 0xFFFFFFFFFFFF⟩]⟩

/-- `mcbRec` of R554. -/
def mcbRecDef : RegDef :=
  ⟨.mcbRec, 0x3F000401000, [(8192, 0x10)],
   [⟨⟨0, 44⟩, .st, 0x0, true, false, 0x0, 0xFFFFFFFFFFF⟩,
    ⟨⟨44, 6⟩, .st, 0x0, true, false, 0x0, 0x3F⟩,
    ⟨⟨50, 7⟩, .st, 0x0, true, false, 0x0, 0x40⟩]⟩

/-- `mcbRecValue` of R554. -/
def mcbRecValueDef : RegDef :=
  ⟨.mcbRecValue, 0x3F000401008, [(8192, 0x10)],
   [⟨⟨0, 64⟩, .st, 0x0, true, false, 0x0, 0xFFFFFFFFFFFFFFFF⟩]⟩

/-- `phHang` of R588. -/
def phHangDef : RegDef :=
  ⟨.phHang, 0x30100200200, [(12, 0x1000000)],
   [⟨⟨0, 10⟩, .rw, 0x32, true, false, 0x1, 0x3E8⟩,
    ⟨⟨16, 16⟩, .ro, 0x0, false, false, 0x0, 0xFFFF⟩,
    ⟨⟨32, 8⟩, .ro, 0x0, false, false, 0x0, 0xFF⟩,
    ⟨⟨40, 8⟩, .ro, 0x0, false, false, 0x0, 0xFF⟩,
    ⟨⟨48, 10⟩, .ro, 0x3FF, false, false, 0x0, 0x3FF⟩]⟩

/-- `phWdog` of R588. -/
def phWdogDef : RegDef :=
  ⟨.phWdog, 0x30100200208, [(12, 0x1000000)],
   [⟨⟨0, 1⟩, .wo, 0x0, false, false, 0x0, 0x1⟩,
    ⟨⟨1, 1⟩, .wo, 0x0, false, false, 0x0, 0x1⟩,
    ⟨⟨2, 1⟩, .w1c, 0x0, false, false, 0x0, 0x1⟩,
    ⟨⟨8, 8⟩, .fx, 0xA, true, false, 0x1, 0x64⟩]⟩

/-- `phErrq0` of R588. -/
def phErrq0Def : RegDef :=
  ⟨.phErrq0, 0x30100200210, [(12, 0x1000000)],
   [⟨⟨0, 8⟩, .ro, 0x0, false, false, 0x0, 0xFF⟩,
    ⟨⟨8, 3⟩, .ro, 0x0, false, false, 0x0, 0x7⟩,
    ⟨⟨11, 1⟩, .ro, 0x0, false, false, 0x0, 0x1⟩,
    ⟨⟨12, 8⟩, .ro, 0x0, false, false, 0x0, 0xFF⟩,
    ⟨⟨20, 8⟩, .ro, 0x0, false, false, 0x0, 0xFF⟩,
    ⟨⟨28, 10⟩, .ro, 0x3FF, false, false, 0x0, 0x3FF⟩,
    ⟨⟨38, 1⟩, .wo, 0x0, false, false, 0x0, 0x1⟩,
    ⟨⟨39, 1⟩, .w1c, 0x0, false, false, 0x0, 0x1⟩,
    ⟨⟨40, 9⟩, .ro, 0x0, false, false, 0x0, 0x1FF⟩]⟩

/-- `phErrq1` of R588. -/
def phErrq1Def : RegDef :=
  ⟨.phErrq1, 0x30100200218, [(12, 0x1000000)],
   [⟨⟨0, 32⟩, .ro, 0x0, false, false, 0x0, 0xFFFFFFFF⟩,
    ⟨⟨32, 32⟩, .ro, 0x0, false, false, 0x0, 0xFFFFFFFF⟩]⟩

/-- `phErrq2` of R588. -/
def phErrq2Def : RegDef :=
  ⟨.phErrq2, 0x30100200220, [(12, 0x1000000)],
   [⟨⟨0, 44⟩, .ro, 0x0, false, false, 0x0, 0xFFFFFFFFFFF⟩]⟩

/-- `hmErrq0` of R588. -/
def hmErrq0Def : RegDef :=
  ⟨.hmErrq0, 0x3F000500100, [(26, 0x18)],
   [⟨⟨0, 8⟩, .ro, 0x0, false, false, 0x0, 0xFF⟩,
    ⟨⟨8, 3⟩, .ro, 0x0, false, false, 0x0, 0x7⟩,
    ⟨⟨11, 1⟩, .ro, 0x0, false, false, 0x0, 0x1⟩,
    ⟨⟨12, 8⟩, .ro, 0x0, false, false, 0x0, 0xFF⟩,
    ⟨⟨20, 8⟩, .ro, 0x0, false, false, 0x0, 0xFF⟩,
    ⟨⟨28, 10⟩, .ro, 0x3FF, false, false, 0x0, 0x3FF⟩,
    ⟨⟨38, 1⟩, .wo, 0x0, false, false, 0x0, 0x1⟩,
    ⟨⟨39, 1⟩, .w1c, 0x0, false, false, 0x0, 0x1⟩,
    ⟨⟨40, 9⟩, .ro, 0x0, false, false, 0x0, 0x1FF⟩]⟩

/-- `hmErrq1` of R588. -/
def hmErrq1Def : RegDef :=
  ⟨.hmErrq1, 0x3F000500108, [(26, 0x18)],
   [⟨⟨0, 32⟩, .ro, 0x0, false, false, 0x0, 0xFFFFFFFF⟩,
    ⟨⟨32, 32⟩, .ro, 0x0, false, false, 0x0, 0xFFFFFFFF⟩]⟩

/-- `hmErrq2` of R588. -/
def hmErrq2Def : RegDef :=
  ⟨.hmErrq2, 0x3F000500110, [(26, 0x18)],
   [⟨⟨0, 44⟩, .ro, 0x0, false, false, 0x0, 0xFFFFFFFFFFF⟩]⟩

/-- `phEsc` of R588. -/
def phEscDef : RegDef :=
  ⟨.phEsc, 0x30100200228, [(12, 0x1000000)],
   [⟨⟨0, 1⟩, .ro, 0x0, false, false, 0x0, 0x1⟩,
    ⟨⟨1, 3⟩, .ro, 0x0, false, false, 0x0, 0x7⟩,
    ⟨⟨4, 8⟩, .ro, 0x0, false, false, 0x0, 0xFF⟩,
    ⟨⟨12, 1⟩, .ro, 0x0, false, false, 0x0, 0x1⟩,
    ⟨⟨16, 16⟩, .ro, 0x0, false, false, 0x0, 0xFFFF⟩,
    ⟨⟨32, 16⟩, .ro, 0x0, false, false, 0x0, 0xFFFF⟩]⟩

/-- `hmEsc` of R588. -/
def hmEscDef : RegDef :=
  ⟨.hmEsc, 0x3F000500400, [(26, 0x8)],
   [⟨⟨0, 1⟩, .ro, 0x0, false, false, 0x0, 0x1⟩,
    ⟨⟨1, 3⟩, .ro, 0x0, false, false, 0x0, 0x7⟩,
    ⟨⟨4, 8⟩, .ro, 0x0, false, false, 0x0, 0xFF⟩,
    ⟨⟨12, 1⟩, .ro, 0x0, false, false, 0x0, 0x1⟩,
    ⟨⟨16, 16⟩, .ro, 0x0, false, false, 0x0, 0xFFFF⟩,
    ⟨⟨32, 16⟩, .ro, 0x0, false, false, 0x0, 0xFFFF⟩]⟩

/-- `phBezel` of R588. -/
def phBezelDef : RegDef :=
  ⟨.phBezel, 0x30100200230, [(12, 0x1000000)],
   [⟨⟨0, 2⟩, .ro, 0x0, false, false, 0x0, 0x3⟩,
    ⟨⟨2, 1⟩, .wo, 0x0, false, false, 0x0, 0x1⟩,
    ⟨⟨3, 1⟩, .wo, 0x0, false, false, 0x0, 0x1⟩,
    ⟨⟨4, 2⟩, .ro, 0x0, false, false, 0x0, 0x3⟩,
    ⟨⟨16, 16⟩, .ro, 0x0, false, false, 0x0, 0xFFFF⟩,
    ⟨⟨32, 32⟩, .ro, 0x0, false, false, 0x0, 0xFFFFFFFF⟩]⟩

/-- `phPrst` of R588. -/
def phPrstDef : RegDef :=
  ⟨.phPrst, 0x30100200238, [(12, 0x1000000)],
   [⟨⟨0, 1⟩, .wo, 0x0, false, false, 0x0, 0x1⟩,
    ⟨⟨1, 1⟩, .ro, 0x0, false, false, 0x0, 0x1⟩,
    ⟨⟨2, 1⟩, .ro, 0x0, false, false, 0x0, 0x1⟩,
    ⟨⟨8, 4⟩, .ro, 0x0, false, false, 0x0, 0xF⟩,
    ⟨⟨16, 16⟩, .ro, 0x0, false, false, 0x0, 0xFFFF⟩,
    ⟨⟨32, 16⟩, .ro, 0x0, false, false, 0x0, 0xFFFF⟩,
    ⟨⟨48, 1⟩, .w1c, 0x0, false, false, 0x0, 0x1⟩]⟩

/-- `phClundo` of R588. -/
def phClundoDef : RegDef :=
  ⟨.phClundo, 0x30100200240, [(12, 0x1000000)],
   [⟨⟨0, 15⟩, .ro, 0x0, false, false, 0x0, 0x7FFF⟩,
    ⟨⟨15, 1⟩, .ro, 0x0, false, false, 0x0, 0x1⟩,
    ⟨⟨16, 16⟩, .ro, 0x0, false, false, 0x0, 0xFFFF⟩,
    ⟨⟨32, 16⟩, .ro, 0x0, false, false, 0x0, 0xFFFF⟩]⟩

/-- `hmFlt` of R589. -/
def hmFltDef : RegDef :=
  ⟨.hmFlt, 0x3F000500000, [],
   [⟨⟨0, 10⟩, .rw, 0x32, true, false, 0x1, 0x3E8⟩,
    ⟨⟨16, 1⟩, .ro, 0x0, false, false, 0x0, 0x1⟩,
    ⟨⟨24, 8⟩, .ro, 0x0, false, false, 0x0, 0xFF⟩]⟩

/-- `hmDump` of R589. -/
def hmDumpDef : RegDef :=
  ⟨.hmDump, 0x3F000500600, [],
   [⟨⟨0, 16⟩, .ro, 0x0, false, false, 0x0, 0xFFFF⟩,
    ⟨⟨16, 5⟩, .ro, 0x0, false, false, 0x0, 0x1F⟩,
    ⟨⟨21, 1⟩, .ro, 0x0, false, false, 0x0, 0x1⟩,
    ⟨⟨24, 8⟩, .ro, 0x0, false, false, 0x0, 0xFF⟩,
    ⟨⟨32, 16⟩, .ro, 0x0, false, false, 0x0, 0xFFFF⟩,
    ⟨⟨48, 16⟩, .ro, 0x0, false, false, 0x0, 0xFFFF⟩]⟩

/-- `hmCntbank` of R605. -/
def hmCntbankDef : RegDef :=
  ⟨.hmCntbank, 0x3F000600000, [(2, 0x8)],
   [⟨⟨0, 1⟩, .ro, 0x0, false, false, 0x0, 0x1⟩,
    ⟨⟨16, 16⟩, .ro, 0x0, false, false, 0x0, 0xFFFF⟩]⟩

/-- `hmCntsel` of R605. -/
def hmCntselDef : RegDef :=
  ⟨.hmCntsel, 0x3F000600010, [(2, 0x10), (2, 0x8)],
   [⟨⟨0, 16⟩, .ro, 0x0, false, false, 0x0, 0xFFFF⟩,
    ⟨⟨16, 16⟩, .ro, 0x0, false, false, 0x0, 0xFFFF⟩,
    ⟨⟨32, 16⟩, .ro, 0x0, false, false, 0x0, 0xFFFF⟩,
    ⟨⟨48, 16⟩, .ro, 0x0, false, false, 0x0, 0xFFFF⟩]⟩

/-- `hmCntval` of R605. -/
def hmCntvalDef : RegDef :=
  ⟨.hmCntval, 0x3F000600100, [(2, 0x40), (8, 0x8)],
   [⟨⟨0, 64⟩, .ro, 0x0, false, false, 0x0, 0xFFFFFFFFFFFFFFFF⟩]⟩

/-- `hmCameostat0` of R605. -/
def hmCameostat0Def : RegDef :=
  ⟨.hmCameostat0, 0x3F000600200, [(12, 0x10)],
   [⟨⟨0, 11⟩, .ro, 0x0, false, false, 0x0, 0x7FF⟩,
    ⟨⟨16, 1⟩, .ro, 0x0, false, false, 0x0, 0x1⟩,
    ⟨⟨32, 11⟩, .ro, 0x0, false, false, 0x0, 0x7FF⟩]⟩

/-- `hmCameostat1` of R605. -/
def hmCameostat1Def : RegDef :=
  ⟨.hmCameostat1, 0x3F000600208, [(12, 0x10)],
   [⟨⟨0, 16⟩, .ro, 0x0, false, false, 0x0, 0xFFFF⟩,
    ⟨⟨16, 16⟩, .ro, 0x0, false, false, 0x0, 0xFFFF⟩,
    ⟨⟨32, 32⟩, .ro, 0x0, false, false, 0x0, 0xFFFFFFFF⟩]⟩

/-- `hmSideband` of R631. -/
def hmSidebandDef : RegDef :=
  ⟨.hmSideband, 0x3F000700000, [],
   [⟨⟨0, 4⟩, .ro, 0x0, false, false, 0x0, 0xF⟩,
    ⟨⟨4, 1⟩, .ro, 0x0, false, false, 0x0, 0x1⟩,
    ⟨⟨5, 1⟩, .ro, 0x0, false, false, 0x0, 0x1⟩,
    ⟨⟨6, 1⟩, .ro, 0x1, false, false, 0x0, 0x1⟩,
    ⟨⟨7, 1⟩, .ro, 0x1, false, false, 0x0, 0x1⟩,
    ⟨⟨8, 1⟩, .ro, 0x1, false, false, 0x0, 0x1⟩,
    ⟨⟨9, 1⟩, .ro, 0x1, false, false, 0x0, 0x1⟩,
    ⟨⟨10, 1⟩, .ro, 0x1, false, false, 0x0, 0x1⟩,
    ⟨⟨11, 1⟩, .ro, 0x0, false, false, 0x0, 0x1⟩]⟩

/-- `hmSeqctl` of R631. -/
def hmSeqctlDef : RegDef :=
  ⟨.hmSeqctl, 0x3F000700008, [],
   [⟨⟨0, 1⟩, .rw, 0x0, true, false, 0x0, 0x1⟩,
    ⟨⟨1, 1⟩, .ro, 0x0, false, false, 0x0, 0x1⟩,
    ⟨⟨2, 1⟩, .ro, 0x0, false, false, 0x0, 0x1⟩]⟩

/-- `hmFwstat` of R631. -/
def hmFwstatDef : RegDef :=
  ⟨.hmFwstat, 0x3F000700010, [],
   [⟨⟨0, 1⟩, .ro, 0x0, false, false, 0x0, 0x1⟩,
    ⟨⟨1, 1⟩, .ro, 0x0, false, false, 0x0, 0x1⟩,
    ⟨⟨2, 1⟩, .ro, 0x0, false, false, 0x0, 0x1⟩,
    ⟨⟨3, 1⟩, .ro, 0x0, false, false, 0x0, 0x1⟩,
    ⟨⟨32, 32⟩, .ro, 0x0, false, false, 0x0, 0xFFFFFFFF⟩]⟩

/-- `hmFstop` of R631. -/
def hmFstopDef : RegDef :=
  ⟨.hmFstop, 0x3F000700018, [],
   [⟨⟨0, 32⟩, .ro, 0x0, true, false, 0x0, 0xFFFFFFFF⟩,
    ⟨⟨32, 8⟩, .ro, 0x0, false, false, 0x0, 0xFF⟩,
    ⟨⟨40, 1⟩, .ro, 0x0, false, false, 0x0, 0x1⟩,
    ⟨⟨48, 9⟩, .ro, 0x0, false, false, 0x0, 0x1FF⟩]⟩

/-- The registers of chapter 02. -/
def regsOf02 : List RegDef :=
  [gtGtimeDef, gtRefstatDef, gtDiscstatDef, gtSpeedDef]

/-- The registers of chapter 04. -/
def regsOf04 : List RegDef :=
  [ctCapDef, ctOwnDef, ctRstDef, meStatDef, mvStatDef, meFaultDef, mvFaultDef, mvCtlDef, pipCtlDef, pipStatDef, tsEccDef]

/-- The registers of chapter 05. -/
def regsOf05 : List RegDef :=
  [phMemcfgDef, tdMemcfgDef, phEccstatDef, tdEccstatDef, phUelogDef, tdUelogDef, phJstatDef, phXtsDef, phRetrainDef, tdRetrainDef, tdSegDef]

/-- The registers of chapter 06. -/
def regsOf06 : List RegDef :=
  [tdPecapDef, tdPectlDef, tdPeshareDef, tdPestatDef]

/-- The registers of chapter 07. -/
def regsOf07 : List RegDef :=
  [phCtxcfg0Def, phCtxcfg1Def, phCtxcfg2Def, phSeedDef, phClaspDef, phAclaspDef, phClasptaintDef, phAclasptaintDef, phIntakeDef]

/-- The registers of chapter 09. -/
def regsOf09 : List RegDef :=
  [lxCtlDef, lxStatDef, lxErrDef, lxCrcerrDef, lxLaneDef, fdNodeDef, fdIsodropDef, fdAbortlogDef, fdAborttimeDef, fdSlicedirDef, fdMcastDef, fdRouteDef, fdRankmapDef]

/-- The registers of chapter 10. -/
def regsOf10 : List RegDef :=
  [fdCollcfgDef, fdRustatDef, fdCollstatDef, fdTreedefDef, fdTreeinfoDef, gtDisccfgDef, gtDiscsrcDef]

/-- The registers of chapter 11. -/
def regsOf11 : List RegDef :=
  [phRecordDef, phReplayDef, phReplaydivDef]

/-- The registers of chapter 12. -/
def regsOf12 : List RegDef :=
  [phPwrlimDef, phPwrctlDef, phPwrcapDef, phPwrestDef, phPwrcoef0Def, phPwrcoef1Def, phPwrcoef2Def, hmPwrcfgDef, hmShedordDef, hmPwrstatDef, hmRailDef, hmTarnishDef]

/-- The registers of chapter 13. -/
def regsOf13 : List RegDef :=
  [hmRoleDef, hmRolectlDef, hmHbstatDef, hmDiestatDef, hmTrayhbDef, hmRackordDef, hmTrayrptDef, hmWearDef]

/-- The registers of chapter 14. -/
def regsOf14 : List RegDef :=
  [lkStateDef, lkSigstateDef, lkBootcntDef, lkSvnDef, lkSvnctlDef, lkHostrefDef, lkLinkstatDef, lkLinkctlDef, lkDbgctlDef, lkDbgnonceDef, lkHallmarkDef]

/-- The registers of chapter 15. -/
def regsOf15 : List RegDef :=
  [evcGctlDef, evcSrccfgDef, evcSrcstatDef, evcGrpcfgDef, evcTgtCfgDef, evcTgtClaimDef, evcTgtCompleteDef, evcTgtBaseDef, evcTgtProdDef, evcTgtConsDef, evcTgtLostDef]

/-- The registers of chapter 16. -/
def regsOf16 : List RegDef :=
  [hmBootDef, hmBootcfgDef, hmSfctlDef, hmSoftfuseDef]

/-- The registers of chapter 17. -/
def regsOf17 : List RegDef :=
  [phCfgstatDef, tdCfgstatDef, fdCfgstatDef, hmCfgstatDef, hmMcbstatDef, mcbHdrDef, mcbRecDef, mcbRecValueDef]

/-- The registers of chapter 18. -/
def regsOf18 : List RegDef :=
  [phHangDef, phWdogDef, phErrq0Def, phErrq1Def, phErrq2Def, hmErrq0Def, hmErrq1Def, hmErrq2Def, phEscDef, hmEscDef, phBezelDef, phPrstDef, phClundoDef, hmFltDef, hmDumpDef]

/-- The registers of chapter 19. -/
def regsOf19 : List RegDef :=
  [hmCntbankDef, hmCntselDef, hmCntvalDef, hmCameostat0Def, hmCameostat1Def]

/-- The registers of chapter 20. -/
def regsOf20 : List RegDef :=
  [hmSidebandDef, hmSeqctlDef, hmFwstatDef, hmFstopDef]

/-- Every register table of the spec. -/
def regTable : List RegDef :=
  regsOf02 ++ regsOf04 ++ regsOf05 ++ regsOf06 ++ regsOf07 ++ regsOf09 ++ regsOf10 ++ regsOf11 ++ regsOf12 ++ regsOf13 ++ regsOf14 ++ regsOf15 ++ regsOf16 ++ regsOf17 ++ regsOf18 ++ regsOf19 ++ regsOf20

/-- Address of `gtGtime` (R61). -/
def gtGtimeA : Nat := 0x30700000000
/-- Field COUNT of `gtGtime` (R61). -/
abbrev gtGtimeCount : Fld := ⟨0, 64⟩

/-- Address of `gtRefstat` (R61). -/
def gtRefstatA : Nat := 0x30700000010
/-- Field REF_OK of `gtRefstat` (R61). -/
abbrev gtRefstatRefOk : Fld := ⟨0, 1⟩
/-- Field HOLDOVER of `gtRefstat` (R61). -/
abbrev gtRefstatHoldover : Fld := ⟨1, 1⟩
/-- Field REF_LOST of `gtRefstat` (R61). -/
abbrev gtRefstatRefLost : Fld := ⟨2, 1⟩
/-- Field LOSS_COUNT of `gtRefstat` (R61). -/
abbrev gtRefstatLossCount : Fld := ⟨16, 16⟩

/-- Address of `gtDiscstat` (R61). -/
def gtDiscstatA : Nat := 0x30700000018
/-- Field DISCIPLINED of `gtDiscstat` (R61). -/
abbrev gtDiscstatDisciplined : Fld := ⟨0, 1⟩
/-- Field LOADED of `gtDiscstat` (R61). -/
abbrev gtDiscstatLoaded : Fld := ⟨1, 1⟩
/-- Field ADJ of `gtDiscstat` (R61). -/
abbrev gtDiscstatAdj : Fld := ⟨16, 16⟩

/-- Address of `gtSpeed` (R61). -/
def gtSpeedA (i : Nat) : Nat := 0x30700000100 + 0x8 * i
/-- Field RATE of `gtSpeed` (R61). -/
abbrev gtSpeedRate : Fld := ⟨0, 16⟩
/-- Field JUNC of `gtSpeed` (R61). -/
abbrev gtSpeedJunc : Fld := ⟨16, 8⟩
/-- Field OP of `gtSpeed` (R61). -/
abbrev gtSpeedOp : Fld := ⟨24, 3⟩
/-- Field VALID of `gtSpeed` (R61). -/
abbrev gtSpeedValid : Fld := ⟨32, 1⟩

/-- Address of `ctCap` (R142). -/
def ctCapA (i : Nat) : Nat := 0x30000000000 + 0x1000000 * i
/-- Field ME_COUNT of `ctCap` (R142). -/
abbrev ctCapMeCount : Fld := ⟨0, 3⟩
/-- Field PIP_COUNT of `ctCap` (R142). -/
abbrev ctCapPipCount : Fld := ⟨3, 6⟩
/-- Field DEGRADED of `ctCap` (R142). -/
abbrev ctCapDegraded : Fld := ⟨9, 1⟩
/-- Field FAILED of `ctCap` (R142). -/
abbrev ctCapFailed : Fld := ⟨10, 1⟩
/-- Field MEMAP of `ctCap` (R142). -/
abbrev ctCapMemap : Fld := ⟨16, 18⟩

/-- Address of `ctOwn` (R142). -/
def ctOwnA (i : Nat) : Nat := 0x30000000008 + 0x1000000 * i
/-- Field ME_PIP of `ctOwn` (R142). -/
abbrev ctOwnMePip : Fld := ⟨0, 6⟩
/-- Field MV_PIP of `ctOwn` (R142). -/
abbrev ctOwnMvPip : Fld := ⟨8, 8⟩
/-- Field PEND of `ctOwn` (R142). -/
abbrev ctOwnPend : Fld := ⟨16, 6⟩

/-- Address of `ctRst` (R142). -/
def ctRstA (i : Nat) : Nat := 0x30000000010 + 0x1000000 * i
/-- Field GRPA of `ctRst` (R142). -/
abbrev ctRstGrpa : Fld := ⟨0, 1⟩
/-- Field GRPB of `ctRst` (R142). -/
abbrev ctRstGrpb : Fld := ⟨1, 1⟩
/-- Field GRPA_BUSY of `ctRst` (R142). -/
abbrev ctRstGrpaBusy : Fld := ⟨8, 1⟩
/-- Field GRPB_BUSY of `ctRst` (R142). -/
abbrev ctRstGrpbBusy : Fld := ⟨9, 1⟩
/-- Field GRPA_PWRCYC of `ctRst` (R142). -/
abbrev ctRstGrpaPwrcyc : Fld := ⟨16, 1⟩
/-- Field GRPB_PWRCYC of `ctRst` (R142). -/
abbrev ctRstGrpbPwrcyc : Fld := ⟨17, 1⟩

/-- Address of `meStat` (R142). -/
def meStatA (i j : Nat) : Nat := 0x30000010000 + 0x1000000 * i + 0x1000 * j
/-- Field DEPTH of `meStat` (R142). -/
abbrev meStatDepth : Fld := ⟨0, 6⟩
/-- Field BUSY of `meStat` (R142). -/
abbrev meStatBusy : Fld := ⟨8, 1⟩
/-- Field CHAIN of `meStat` (R142). -/
abbrev meStatChain : Fld := ⟨9, 1⟩
/-- Field DONE of `meStat` (R142). -/
abbrev meStatDone : Fld := ⟨32, 32⟩

/-- Address of `mvStat` (R142). -/
def mvStatA (i j : Nat) : Nat := 0x30000020000 + 0x1000000 * i + 0x1000 * j
/-- Field DEPTH of `mvStat` (R142). -/
abbrev mvStatDepth : Fld := ⟨0, 6⟩
/-- Field BUSY of `mvStat` (R142). -/
abbrev mvStatBusy : Fld := ⟨8, 1⟩
/-- Field CHAIN of `mvStat` (R142). -/
abbrev mvStatChain : Fld := ⟨9, 1⟩
/-- Field DONE of `mvStat` (R142). -/
abbrev mvStatDone : Fld := ⟨32, 32⟩

/-- Address of `meFault` (R142). -/
def meFaultA (i j : Nat) : Nat := 0x30000010008 + 0x1000000 * i + 0x1000 * j
/-- Field CODE of `meFault` (R142). -/
abbrev meFaultCode : Fld := ⟨0, 8⟩
/-- Field POP of `meFault` (R142). -/
abbrev meFaultPop : Fld := ⟨8, 1⟩
/-- Field LOST of `meFault` (R142). -/
abbrev meFaultLost : Fld := ⟨9, 1⟩
/-- Field TAG_LO of `meFault` (R142). -/
abbrev meFaultTagLo : Fld := ⟨16, 48⟩

/-- Address of `mvFault` (R142). -/
def mvFaultA (i j : Nat) : Nat := 0x30000020008 + 0x1000000 * i + 0x1000 * j
/-- Field CODE of `mvFault` (R142). -/
abbrev mvFaultCode : Fld := ⟨0, 8⟩
/-- Field POP of `mvFault` (R142). -/
abbrev mvFaultPop : Fld := ⟨8, 1⟩
/-- Field LOST of `mvFault` (R142). -/
abbrev mvFaultLost : Fld := ⟨9, 1⟩
/-- Field TAG_LO of `mvFault` (R142). -/
abbrev mvFaultTagLo : Fld := ⟨16, 48⟩

/-- Address of `mvCtl` (R142). -/
def mvCtlA (i j : Nat) : Nat := 0x30000020010 + 0x1000000 * i + 0x1000 * j
/-- Field ABORT of `mvCtl` (R142). -/
abbrev mvCtlAbort : Fld := ⟨0, 1⟩

/-- Address of `pipCtl` (R142). -/
def pipCtlA (i j : Nat) : Nat := 0x30000040000 + 0x1000000 * i + 0x1000 * j
/-- Field CTX of `pipCtl` (R142). -/
abbrev pipCtlCtx : Fld := ⟨0, 10⟩
/-- Field RST of `pipCtl` (R142). -/
abbrev pipCtlRst : Fld := ⟨16, 1⟩
/-- Field WAITLIM of `pipCtl` (R142). -/
abbrev pipCtlWaitlim : Fld := ⟨32, 30⟩

/-- Address of `pipStat` (R142). -/
def pipStatA (i j : Nat) : Nat := 0x30000040008 + 0x1000000 * i + 0x1000 * j
/-- Field RUNNING of `pipStat` (R142). -/
abbrev pipStatRunning : Fld := ⟨0, 1⟩
/-- Field LOSSY of `pipStat` (R142). -/
abbrev pipStatLossy : Fld := ⟨1, 1⟩
/-- Field PHYS of `pipStat` (R142). -/
abbrev pipStatPhys : Fld := ⟨8, 8⟩

/-- Address of `tsEcc` (R142). -/
def tsEccA (i : Nat) : Nat := 0x30000080000 + 0x1000000 * i
/-- Field CE_COUNT of `tsEcc` (R142). -/
abbrev tsEccCeCount : Fld := ⟨0, 32⟩
/-- Field UE_COUNT of `tsEcc` (R142). -/
abbrev tsEccUeCount : Fld := ⟨32, 16⟩
/-- Field LAST_BANK of `tsEcc` (R142). -/
abbrev tsEccLastBank : Fld := ⟨48, 8⟩
/-- Field CLR of `tsEcc` (R142). -/
abbrev tsEccClr : Fld := ⟨63, 1⟩

/-- Address of `phMemcfg` (R183). -/
def phMemcfgA (i : Nat) : Nat := 0x30100200000 + 0x1000000 * i
/-- Field CORR_LIMIT of `phMemcfg` (R183). -/
abbrev phMemcfgCorrLimit : Fld := ⟨0, 3⟩
/-- Field SCRUB_HOURS of `phMemcfg` (R183). -/
abbrev phMemcfgScrubHours : Fld := ⟨8, 8⟩
/-- Field SCRUB_EN of `phMemcfg` (R183). -/
abbrev phMemcfgScrubEn : Fld := ⟨16, 1⟩
/-- Field RETRAIN_CE_THR of `phMemcfg` (R183). -/
abbrev phMemcfgRetrainCeThr : Fld := ⟨24, 8⟩

/-- Address of `tdMemcfg` (R183). -/
def tdMemcfgA (i : Nat) : Nat := 0x30400200000 + 0x1000000 * i
/-- Field CORR_LIMIT of `tdMemcfg` (R183). -/
abbrev tdMemcfgCorrLimit : Fld := ⟨0, 3⟩
/-- Field SCRUB_HOURS of `tdMemcfg` (R183). -/
abbrev tdMemcfgScrubHours : Fld := ⟨8, 8⟩
/-- Field SCRUB_EN of `tdMemcfg` (R183). -/
abbrev tdMemcfgScrubEn : Fld := ⟨16, 1⟩
/-- Field RETRAIN_CE_THR of `tdMemcfg` (R183). -/
abbrev tdMemcfgRetrainCeThr : Fld := ⟨24, 8⟩

/-- Address of `phEccstat` (R183). -/
def phEccstatA (i : Nat) : Nat := 0x30100200008 + 0x1000000 * i
/-- Field CE_COUNT of `phEccstat` (R183). -/
abbrev phEccstatCeCount : Fld := ⟨0, 32⟩
/-- Field UE_COUNT of `phEccstat` (R183). -/
abbrev phEccstatUeCount : Fld := ⟨32, 16⟩
/-- Field CLR of `phEccstat` (R183). -/
abbrev phEccstatClr : Fld := ⟨63, 1⟩

/-- Address of `tdEccstat` (R183). -/
def tdEccstatA (i : Nat) : Nat := 0x30400200008 + 0x1000000 * i
/-- Field CE_COUNT of `tdEccstat` (R183). -/
abbrev tdEccstatCeCount : Fld := ⟨0, 32⟩
/-- Field UE_COUNT of `tdEccstat` (R183). -/
abbrev tdEccstatUeCount : Fld := ⟨32, 16⟩
/-- Field CLR of `tdEccstat` (R183). -/
abbrev tdEccstatClr : Fld := ⟨63, 1⟩

/-- Address of `phUelog` (R183). -/
def phUelogA (i : Nat) : Nat := 0x30100200010 + 0x1000000 * i
/-- Field ADDR of `phUelog` (R183). -/
abbrev phUelogAddr : Fld := ⟨0, 44⟩
/-- Field KIND of `phUelog` (R183). -/
abbrev phUelogKind : Fld := ⟨44, 4⟩
/-- Field POP of `phUelog` (R183). -/
abbrev phUelogPop : Fld := ⟨48, 1⟩
/-- Field LOST of `phUelog` (R183). -/
abbrev phUelogLost : Fld := ⟨49, 1⟩
/-- Field SOURCE of `phUelog` (R183). -/
abbrev phUelogSource : Fld := ⟨50, 2⟩

/-- Address of `tdUelog` (R183). -/
def tdUelogA (i : Nat) : Nat := 0x30400200010 + 0x1000000 * i
/-- Field ADDR of `tdUelog` (R183). -/
abbrev tdUelogAddr : Fld := ⟨0, 44⟩
/-- Field KIND of `tdUelog` (R183). -/
abbrev tdUelogKind : Fld := ⟨44, 4⟩
/-- Field POP of `tdUelog` (R183). -/
abbrev tdUelogPop : Fld := ⟨48, 1⟩
/-- Field LOST of `tdUelog` (R183). -/
abbrev tdUelogLost : Fld := ⟨49, 1⟩
/-- Field SOURCE of `tdUelog` (R183). -/
abbrev tdUelogSource : Fld := ⟨50, 2⟩

/-- Address of `phJstat` (R183). -/
def phJstatA (i : Nat) : Nat := 0x30100200018 + 0x1000000 * i
/-- Field FREE of `phJstat` (R183). -/
abbrev phJstatFree : Fld := ⟨0, 18⟩
/-- Field VALID of `phJstat` (R183). -/
abbrev phJstatValid : Fld := ⟨18, 18⟩
/-- Field WAITING of `phJstat` (R183). -/
abbrev phJstatWaiting : Fld := ⟨36, 12⟩
/-- Field CLASH of `phJstat` (R183). -/
abbrev phJstatClash : Fld := ⟨48, 1⟩
/-- Field CLASH_COUNT of `phJstat` (R183). -/
abbrev phJstatClashCount : Fld := ⟨49, 15⟩

/-- Address of `phXts` (R183). -/
def phXtsA (i : Nat) : Nat := 0x30100200020 + 0x1000000 * i
/-- Field ENABLED of `phXts` (R183). -/
abbrev phXtsEnabled : Fld := ⟨0, 1⟩
/-- Field FILLING of `phXts` (R183). -/
abbrev phXtsFilling : Fld := ⟨1, 1⟩
/-- Field KEY_LOADS of `phXts` (R183). -/
abbrev phXtsKeyLoads : Fld := ⟨8, 8⟩

/-- Address of `phRetrain` (R183). -/
def phRetrainA (i : Nat) : Nat := 0x30100200028 + 0x1000000 * i
/-- Field PC_ACTIVE of `phRetrain` (R183). -/
abbrev phRetrainPcActive : Fld := ⟨0, 32⟩
/-- Field PC_FAILED of `phRetrain` (R183). -/
abbrev phRetrainPcFailed : Fld := ⟨32, 32⟩

/-- Address of `tdRetrain` (R183). -/
def tdRetrainA (i : Nat) : Nat := 0x30400200028 + 0x1000000 * i
/-- Field CH_ACTIVE of `tdRetrain` (R183). -/
abbrev tdRetrainChActive : Fld := ⟨0, 32⟩
/-- Field CH_FAILED of `tdRetrain` (R183). -/
abbrev tdRetrainChFailed : Fld := ⟨32, 32⟩

/-- Address of `tdSeg` (R183). -/
def tdSegA (i : Nat) : Nat := 0x30400300000 + 0x8 * i
/-- Field OWNER of `tdSeg` (R183). -/
abbrev tdSegOwner : Fld := ⟨0, 4⟩
/-- Field CONF of `tdSeg` (R183). -/
abbrev tdSegConf : Fld := ⟨4, 1⟩
/-- Field FILLING of `tdSeg` (R183). -/
abbrev tdSegFilling : Fld := ⟨5, 1⟩

/-- Address of `tdPecap` (R206). -/
def tdPecapA (i : Nat) : Nat := 0x30400400000 + 0x1000000 * i
/-- Field ENABLED of `tdPecap` (R206). -/
abbrev tdPecapEnabled : Fld := ⟨0, 16⟩
/-- Field FAILED of `tdPecap` (R206). -/
abbrev tdPecapFailed : Fld := ⟨16, 16⟩
/-- Field COUNT of `tdPecap` (R206). -/
abbrev tdPecapCount : Fld := ⟨32, 5⟩

/-- Address of `tdPectl` (R206). -/
def tdPectlA (i : Nat) : Nat := 0x30400400008 + 0x1000000 * i
/-- Field RST of `tdPectl` (R206). -/
abbrev tdPectlRst : Fld := ⟨0, 16⟩
/-- Field RST_BUSY of `tdPectl` (R206). -/
abbrev tdPectlRstBusy : Fld := ⟨16, 16⟩

/-- Address of `tdPeshare` (R206). -/
def tdPeshareA (i j : Nat) : Nat := 0x30400400100 + 0x1000000 * i + 0x8 * j
/-- Field WEIGHT of `tdPeshare` (R206). -/
abbrev tdPeshareWeight : Fld := ⟨0, 4⟩
/-- Field QUEUED of `tdPeshare` (R206). -/
abbrev tdPeshareQueued : Fld := ⟨16, 16⟩

/-- Address of `tdPestat` (R206). -/
def tdPestatA (i j : Nat) : Nat := 0x30400400200 + 0x1000000 * i + 0x8 * j
/-- Field BUSY of `tdPestat` (R206). -/
abbrev tdPestatBusy : Fld := ⟨0, 1⟩
/-- Field PART of `tdPestat` (R206). -/
abbrev tdPestatPart : Fld := ⟨8, 8⟩
/-- Field PROGRESS of `tdPestat` (R206). -/
abbrev tdPestatProgress : Fld := ⟨16, 16⟩
/-- Field GROUPS of `tdPestat` (R206). -/
abbrev tdPestatGroups : Fld := ⟨32, 32⟩

/-- Address of `phCtxcfg0` (R250). -/
def phCtxcfg0A (i j : Nat) : Nat := 0x30100300000 + 0x1000000 * i + 0x40 * j
/-- Field ENABLED of `phCtxcfg0` (R250). -/
abbrev phCtxcfg0Enabled : Fld := ⟨0, 1⟩
/-- Field SEALED of `phCtxcfg0` (R250). -/
abbrev phCtxcfg0Sealed : Fld := ⟨1, 1⟩
/-- Field WIDE of `phCtxcfg0` (R250). -/
abbrev phCtxcfg0Wide : Fld := ⟨2, 1⟩
/-- Field CNT_OK of `phCtxcfg0` (R250). -/
abbrev phCtxcfg0CntOk : Fld := ⟨3, 1⟩
/-- Field TIER_OWN of `phCtxcfg0` (R250). -/
abbrev phCtxcfg0TierOwn : Fld := ⟨4, 1⟩
/-- Field TIER_COMMON of `phCtxcfg0` (R250). -/
abbrev phCtxcfg0TierCommon : Fld := ⟨5, 1⟩
/-- Field REMOTE of `phCtxcfg0` (R250). -/
abbrev phCtxcfg0Remote : Fld := ⟨6, 1⟩
/-- Field RECORD_OK of `phCtxcfg0` (R250). -/
abbrev phCtxcfg0RecordOk : Fld := ⟨7, 1⟩
/-- Field MAXFLIGHT of `phCtxcfg0` (R250). -/
abbrev phCtxcfg0Maxflight : Fld := ⟨8, 6⟩
/-- Field CLASP_LO of `phCtxcfg0` (R250). -/
abbrev phCtxcfg0ClaspLo : Fld := ⟨16, 12⟩
/-- Field CLASP_HI of `phCtxcfg0` (R250). -/
abbrev phCtxcfg0ClaspHi : Fld := ⟨28, 12⟩
/-- Field SLICE of `phCtxcfg0` (R250). -/
abbrev phCtxcfg0Slice : Fld := ⟨40, 16⟩

/-- Address of `phCtxcfg1` (R250). -/
def phCtxcfg1A (i j : Nat) : Nat := 0x30100300008 + 0x1000000 * i + 0x40 * j
/-- Field RING_BASE of `phCtxcfg1` (R250). -/
abbrev phCtxcfg1RingBase : Fld := ⟨0, 44⟩
/-- Field RING_ORDER of `phCtxcfg1` (R250). -/
abbrev phCtxcfg1RingOrder : Fld := ⟨44, 4⟩

/-- Address of `phCtxcfg2` (R250). -/
def phCtxcfg2A (i j : Nat) : Nat := 0x30100300010 + 0x1000000 * i + 0x40 * j
/-- Field HBM_LO of `phCtxcfg2` (R250). -/
abbrev phCtxcfg2HbmLo : Fld := ⟨0, 16⟩
/-- Field HBM_HI of `phCtxcfg2` (R250). -/
abbrev phCtxcfg2HbmHi : Fld := ⟨16, 16⟩
/-- Field WAIT_LIMIT of `phCtxcfg2` (R250). -/
abbrev phCtxcfg2WaitLimit : Fld := ⟨32, 32⟩

/-- Address of `phSeed` (R250). -/
def phSeedA (i j k : Nat) : Nat := 0x30100400000 + 0x1000000 * i + 0x800 * j + 0x8 * k
/-- Field SEED of `phSeed` (R250). -/
abbrev phSeedSeed : Fld := ⟨0, 64⟩

/-- Address of `phClasp` (R250). -/
def phClaspA (i j : Nat) : Nat := 0x30100100000 + 0x1000000 * i + 0x8 * j
/-- Field VALUE of `phClasp` (R250). -/
abbrev phClaspValue : Fld := ⟨0, 64⟩

/-- Address of `phAclasp` (R250). -/
def phAclaspA (i j : Nat) : Nat := 0x30100108000 + 0x1000000 * i + 0x8 * j
/-- Field VALUE of `phAclasp` (R250). -/
abbrev phAclaspValue : Fld := ⟨0, 64⟩

/-- Address of `phClasptaint` (R250). -/
def phClasptaintA (i j : Nat) : Nat := 0x30100110000 + 0x1000000 * i + 0x8 * j
/-- Field TAINT of `phClasptaint` (R250). -/
abbrev phClasptaintTaint : Fld := ⟨0, 64⟩

/-- Address of `phAclasptaint` (R250). -/
def phAclasptaintA (i j : Nat) : Nat := 0x30100110200 + 0x1000000 * i + 0x8 * j
/-- Field TAINT of `phAclasptaint` (R250). -/
abbrev phAclasptaintTaint : Fld := ⟨0, 64⟩

/-- Address of `phIntake` (R250). -/
def phIntakeA (i : Nat) : Nat := 0x30100200030 + 0x1000000 * i
/-- Field DROP_PKTS of `phIntake` (R250). -/
abbrev phIntakeDropPkts : Fld := ⟨0, 32⟩
/-- Field ABANDON of `phIntake` (R250). -/
abbrev phIntakeAbandon : Fld := ⟨32, 16⟩
/-- Field STALL_MS of `phIntake` (R250). -/
abbrev phIntakeStallMs : Fld := ⟨48, 10⟩
/-- Field ADMIN_HUB of `phIntake` (R250). -/
abbrev phIntakeAdminHub : Fld := ⟨60, 4⟩

/-- Address of `lxCtl` (R345). -/
def lxCtlA (i : Nat) : Nat := 0x30300000000 + 0x100000 * i
/-- Field ENABLE of `lxCtl` (R345). -/
abbrev lxCtlEnable : Fld := ⟨0, 1⟩
/-- Field RETRAIN of `lxCtl` (R345). -/
abbrev lxCtlRetrain : Fld := ⟨1, 1⟩
/-- Field RETRY_US of `lxCtl` (R345). -/
abbrev lxCtlRetryUs : Fld := ⟨8, 8⟩
/-- Field LANE_CS_THR of `lxCtl` (R345). -/
abbrev lxCtlLaneCsThr : Fld := ⟨16, 20⟩
/-- Field RETRY_THR of `lxCtl` (R345). -/
abbrev lxCtlRetryThr : Fld := ⟨36, 17⟩

/-- Address of `lxStat` (R345). -/
def lxStatA (i : Nat) : Nat := 0x30300000008 + 0x100000 * i
/-- Field STATE of `lxStat` (R345). -/
abbrev lxStatState : Fld := ⟨0, 3⟩
/-- Field CAUSE of `lxStat` (R345). -/
abbrev lxStatCause : Fld := ⟨4, 4⟩
/-- Field CLASS of `lxStat` (R345). -/
abbrev lxStatClass : Fld := ⟨8, 1⟩
/-- Field PEER_OK of `lxStat` (R345). -/
abbrev lxStatPeerOk : Fld := ⟨9, 1⟩
/-- Field PEER_NODE of `lxStat` (R345). -/
abbrev lxStatPeerNode : Fld := ⟨10, 12⟩
/-- Field PEER_LINK of `lxStat` (R345). -/
abbrev lxStatPeerLink : Fld := ⟨22, 4⟩
/-- Field RTT_NS of `lxStat` (R345). -/
abbrev lxStatRttNs : Fld := ⟨32, 11⟩
/-- Field SPARES_TX of `lxStat` (R345). -/
abbrev lxStatSparesTx : Fld := ⟨48, 4⟩
/-- Field SPARES_RX of `lxStat` (R345). -/
abbrev lxStatSparesRx : Fld := ⟨52, 4⟩

/-- Address of `lxErr` (R345). -/
def lxErrA (i : Nat) : Nat := 0x30300000010 + 0x100000 * i
/-- Field RESENT of `lxErr` (R345). -/
abbrev lxErrResent : Fld := ⟨0, 32⟩
/-- Field RETRAINS of `lxErr` (R345). -/
abbrev lxErrRetrains : Fld := ⟨32, 16⟩
/-- Field DISCARDED of `lxErr` (R345). -/
abbrev lxErrDiscarded : Fld := ⟨48, 16⟩

/-- Address of `lxCrcerr` (R345). -/
def lxCrcerrA (i : Nat) : Nat := 0x30300000018 + 0x100000 * i
/-- Field FCRC_FAIL of `lxCrcerr` (R345). -/
abbrev lxCrcerrFcrcFail : Fld := ⟨0, 32⟩
/-- Field OVERRUN of `lxCrcerr` (R345). -/
abbrev lxCrcerrOverrun : Fld := ⟨32, 32⟩

/-- Address of `lxLane` (R345). -/
def lxLaneA (i j : Nat) : Nat := 0x30300000100 + 0x100000 * i + 0x8 * j
/-- Field ROLE of `lxLane` (R345). -/
abbrev lxLaneRole : Fld := ⟨0, 2⟩
/-- Field SLOT of `lxLane` (R345). -/
abbrev lxLaneSlot : Fld := ⟨2, 6⟩
/-- Field CSYM of `lxLane` (R345). -/
abbrev lxLaneCsym : Fld := ⟨8, 32⟩
/-- Field UCW of `lxLane` (R345). -/
abbrev lxLaneUcw : Fld := ⟨40, 16⟩

/-- Address of `fdNode` (R345). -/
def fdNodeA (i : Nat) : Nat := 0x30200000000 + 0x1000000 * i
/-- Field NODE_ID of `fdNode` (R345). -/
abbrev fdNodeNodeId : Fld := ⟨0, 12⟩
/-- Field ZSIZE of `fdNode` (R345). -/
abbrev fdNodeZsize : Fld := ⟨12, 7⟩
/-- Field ACK_TIMEOUT_US of `fdNode` (R345). -/
abbrev fdNodeAckTimeoutUs : Fld := ⟨32, 17⟩

/-- Address of `fdIsodrop` (R345). -/
def fdIsodropA (i j : Nat) : Nat := 0x30200000100 + 0x1000000 * i + 0x8 * j
/-- Field COUNT of `fdIsodrop` (R345). -/
abbrev fdIsodropCount : Fld := ⟨0, 48⟩
/-- Field LAST_SLICE of `fdIsodrop` (R345). -/
abbrev fdIsodropLastSlice : Fld := ⟨48, 16⟩

/-- Address of `fdAbortlog` (R345). -/
def fdAbortlogA (i : Nat) : Nat := 0x30200000200 + 0x1000000 * i
/-- Field SLICE of `fdAbortlog` (R345). -/
abbrev fdAbortlogSlice : Fld := ⟨0, 16⟩
/-- Field ORIGIN_NODE of `fdAbortlog` (R345). -/
abbrev fdAbortlogOriginNode : Fld := ⟨16, 12⟩
/-- Field ORIGIN_LINK of `fdAbortlog` (R345). -/
abbrev fdAbortlogOriginLink : Fld := ⟨28, 4⟩
/-- Field CAUSE of `fdAbortlog` (R345). -/
abbrev fdAbortlogCause : Fld := ⟨32, 4⟩
/-- Field INSTANCE of `fdAbortlog` (R345). -/
abbrev fdAbortlogInstance : Fld := ⟨36, 8⟩
/-- Field LOCAL of `fdAbortlog` (R345). -/
abbrev fdAbortlogLocal : Fld := ⟨44, 1⟩
/-- Field POP of `fdAbortlog` (R345). -/
abbrev fdAbortlogPop : Fld := ⟨45, 1⟩
/-- Field LOST of `fdAbortlog` (R345). -/
abbrev fdAbortlogLost : Fld := ⟨46, 1⟩

/-- Address of `fdAborttime` (R345). -/
def fdAborttimeA (i : Nat) : Nat := 0x30200000208 + 0x1000000 * i
/-- Field GTIME of `fdAborttime` (R345). -/
abbrev fdAborttimeGtime : Fld := ⟨0, 64⟩

/-- Address of `fdSlicedir` (R345). -/
def fdSlicedirA (i : Nat) : Nat := 0x30200001000 + 0x8 * i
/-- Field SLICE of `fdSlicedir` (R345). -/
abbrev fdSlicedirSlice : Fld := ⟨0, 16⟩
/-- Field PARTMASK of `fdSlicedir` (R345). -/
abbrev fdSlicedirPartmask : Fld := ⟨16, 12⟩
/-- Field ADAPT of `fdSlicedir` (R345). -/
abbrev fdSlicedirAdapt : Fld := ⟨28, 1⟩
/-- Field SEALED of `fdSlicedir` (R345). -/
abbrev fdSlicedirSealed : Fld := ⟨29, 1⟩
/-- Field ABORTED of `fdSlicedir` (R345). -/
abbrev fdSlicedirAborted : Fld := ⟨30, 1⟩
/-- Field INSTANCE of `fdSlicedir` (R345). -/
abbrev fdSlicedirInstance : Fld := ⟨32, 8⟩

/-- Address of `fdMcast` (R345). -/
def fdMcastA (i j : Nat) : Nat := 0x30200080000 + 0x400 * i + 0x8 * j
/-- Field GROUP0 of `fdMcast` (R345). -/
abbrev fdMcastGroup0 : Fld := ⟨0, 32⟩
/-- Field GROUP1 of `fdMcast` (R345). -/
abbrev fdMcastGroup1 : Fld := ⟨32, 32⟩

/-- Address of `fdRoute` (R345). -/
def fdRouteA (i j : Nat) : Nat := 0x30200100000 + 0x1000 * i + 0x8 * j
/-- Field ROUTE0 of `fdRoute` (R345). -/
abbrev fdRouteRoute0 : Fld := ⟨0, 8⟩
/-- Field ROUTE1 of `fdRoute` (R345). -/
abbrev fdRouteRoute1 : Fld := ⟨8, 8⟩
/-- Field ROUTE2 of `fdRoute` (R345). -/
abbrev fdRouteRoute2 : Fld := ⟨16, 8⟩
/-- Field ROUTE3 of `fdRoute` (R345). -/
abbrev fdRouteRoute3 : Fld := ⟨24, 8⟩
/-- Field ROUTE4 of `fdRoute` (R345). -/
abbrev fdRouteRoute4 : Fld := ⟨32, 8⟩
/-- Field ROUTE5 of `fdRoute` (R345). -/
abbrev fdRouteRoute5 : Fld := ⟨40, 8⟩
/-- Field ROUTE6 of `fdRoute` (R345). -/
abbrev fdRouteRoute6 : Fld := ⟨48, 8⟩
/-- Field ROUTE7 of `fdRoute` (R345). -/
abbrev fdRouteRoute7 : Fld := ⟨56, 8⟩

/-- Address of `fdRankmap` (R345). -/
def fdRankmapA (i j : Nat) : Nat := 0x30200400000 + 0x10000 * i + 0x8 * j
/-- Field RANK0 of `fdRankmap` (R345). -/
abbrev fdRankmapRank0 : Fld := ⟨0, 32⟩
/-- Field RANK1 of `fdRankmap` (R345). -/
abbrev fdRankmapRank1 : Fld := ⟨32, 32⟩

/-- Address of `fdCollcfg` (R377). -/
def fdCollcfgA (i : Nat) : Nat := 0x30200000010 + 0x1000000 * i
/-- Field TIMEOUT_MS of `fdCollcfg` (R377). -/
abbrev fdCollcfgTimeoutMs : Fld := ⟨0, 32⟩

/-- Address of `fdRustat` (R377). -/
def fdRustatA (i j : Nat) : Nat := 0x30200000300 + 0x1000000 * i + 0x8 * j
/-- Field CHUNKS of `fdRustat` (R377). -/
abbrev fdRustatChunks : Fld := ⟨0, 32⟩
/-- Field CHKFAIL of `fdRustat` (R377). -/
abbrev fdRustatChkfail : Fld := ⟨32, 16⟩
/-- Field MISMATCH of `fdRustat` (R377). -/
abbrev fdRustatMismatch : Fld := ⟨48, 16⟩

/-- Address of `fdCollstat` (R377). -/
def fdCollstatA (i : Nat) : Nat := 0x30200002000 + 0x8 * i
/-- Field NEXT_COLL of `fdCollstat` (R377). -/
abbrev fdCollstatNextColl : Fld := ⟨0, 32⟩
/-- Field ACTIVE of `fdCollstat` (R377). -/
abbrev fdCollstatActive : Fld := ⟨32, 1⟩
/-- Field LATE of `fdCollstat` (R377). -/
abbrev fdCollstatLate : Fld := ⟨48, 16⟩

/-- Address of `fdTreedef` (R377). -/
def fdTreedefA (i j : Nat) : Nat := 0x302000A0000 + 0x800 * i + 0x8 * j
/-- Field ROOT of `fdTreedef` (R377). -/
abbrev fdTreedefRoot : Fld := ⟨0, 20⟩
/-- Field MODE of `fdTreedef` (R377). -/
abbrev fdTreedefMode : Fld := ⟨20, 2⟩

/-- Address of `fdTreeinfo` (R377). -/
def fdTreeinfoA (i j : Nat) : Nat := 0x302000C0000 + 0x800 * i + 0x8 * j
/-- Field PARENT of `fdTreeinfo` (R377). -/
abbrev fdTreeinfoParent : Fld := ⟨0, 3⟩
/-- Field CHILDREN of `fdTreeinfo` (R377). -/
abbrev fdTreeinfoChildren : Fld := ⟨3, 6⟩
/-- Field DEPTH of `fdTreeinfo` (R377). -/
abbrev fdTreeinfoDepth : Fld := ⟨9, 6⟩
/-- Field HEIGHT of `fdTreeinfo` (R377). -/
abbrev fdTreeinfoHeight : Fld := ⟨15, 6⟩
/-- Field CONTRIB of `fdTreeinfo` (R377). -/
abbrev fdTreeinfoContrib : Fld := ⟨21, 15⟩
/-- Field ONTREE of `fdTreeinfo` (R377). -/
abbrev fdTreeinfoOntree : Fld := ⟨36, 1⟩
/-- Field ROOT of `fdTreeinfo` (R377). -/
abbrev fdTreeinfoRoot : Fld := ⟨37, 1⟩
/-- Field ARMED of `fdTreeinfo` (R377). -/
abbrev fdTreeinfoArmed : Fld := ⟨38, 1⟩

/-- Address of `gtDisccfg` (R377). -/
def gtDisccfgA : Nat := 0x30700000020
/-- Field MASTER of `gtDisccfg` (R377). -/
abbrev gtDisccfgMaster : Fld := ⟨0, 12⟩
/-- Field PERIOD_US of `gtDisccfg` (R377). -/
abbrev gtDisccfgPeriodUs : Fld := ⟨16, 7⟩

/-- Address of `gtDiscsrc` (R377). -/
def gtDiscsrcA : Nat := 0x30700000028
/-- Field PARENT of `gtDiscsrc` (R377). -/
abbrev gtDiscsrcParent : Fld := ⟨0, 3⟩
/-- Field DEPTH of `gtDiscsrc` (R377). -/
abbrev gtDiscsrcDepth : Fld := ⟨3, 6⟩
/-- Field EST_ERR of `gtDiscsrc` (R377). -/
abbrev gtDiscsrcEstErr : Fld := ⟨16, 16⟩
/-- Field CHANGES of `gtDiscsrc` (R377). -/
abbrev gtDiscsrcChanges : Fld := ⟨32, 32⟩

/-- Address of `phRecord` (R392). -/
def phRecordA (i : Nat) : Nat := 0x30100200040 + 0x1000000 * i
/-- Field CTX of `phRecord` (R392). -/
abbrev phRecordCtx : Fld := ⟨0, 10⟩
/-- Field ACTIVE of `phRecord` (R392). -/
abbrev phRecordActive : Fld := ⟨10, 1⟩
/-- Field OVERFLOW of `phRecord` (R392). -/
abbrev phRecordOverflow : Fld := ⟨11, 1⟩
/-- Field RECORDS of `phRecord` (R392). -/
abbrev phRecordRecords : Fld := ⟨32, 32⟩

/-- Address of `phReplay` (R392). -/
def phReplayA (i : Nat) : Nat := 0x30100200048 + 0x1000000 * i
/-- Field TARGET of `phReplay` (R392). -/
abbrev phReplayTarget : Fld := ⟨0, 10⟩
/-- Field ACTIVE of `phReplay` (R392). -/
abbrev phReplayActive : Fld := ⟨10, 1⟩
/-- Field DIVERGED of `phReplay` (R392). -/
abbrev phReplayDiverged : Fld := ⟨11, 1⟩
/-- Field FW_DIFF of `phReplay` (R392). -/
abbrev phReplayFwDiff : Fld := ⟨12, 1⟩
/-- Field STOP_ON_DIV of `phReplay` (R392). -/
abbrev phReplayStopOnDiv : Fld := ⟨13, 1⟩
/-- Field STOPPED of `phReplay` (R392). -/
abbrev phReplayStopped : Fld := ⟨14, 1⟩
/-- Field DIV_CSEQ of `phReplay` (R392). -/
abbrev phReplayDivCseq : Fld := ⟨32, 32⟩

/-- Address of `phReplaydiv` (R392). -/
def phReplaydivA (i : Nat) : Nat := 0x30100200050 + 0x1000000 * i
/-- Field KIND of `phReplaydiv` (R392). -/
abbrev phReplaydivKind : Fld := ⟨0, 8⟩
/-- Field REGION of `phReplaydiv` (R392). -/
abbrev phReplaydivRegion : Fld := ⟨8, 8⟩
/-- Field RSN of `phReplaydiv` (R392). -/
abbrev phReplaydivRsn : Fld := ⟨16, 32⟩

/-- Address of `phPwrlim` (R428). -/
def phPwrlimA (i : Nat) : Nat := 0x30100200100 + 0x1000000 * i
/-- Field LIMIT_EST of `phPwrlim` (R428). -/
abbrev phPwrlimLimitEst : Fld := ⟨0, 16⟩
/-- Field EMERG_EST of `phPwrlim` (R428). -/
abbrev phPwrlimEmergEst : Fld := ⟨16, 16⟩
/-- Field SAFE_EST of `phPwrlim` (R428). -/
abbrev phPwrlimSafeEst : Fld := ⟨32, 16⟩
/-- Field RAMP_STEP of `phPwrlim` (R428). -/
abbrev phPwrlimRampStep : Fld := ⟨48, 16⟩

/-- Address of `phPwrctl` (R428). -/
def phPwrctlA (i : Nat) : Nat := 0x30100200108 + 0x1000000 * i
/-- Field BUBBLE_SET of `phPwrctl` (R428). -/
abbrev phPwrctlBubbleSet : Fld := ⟨0, 8⟩
/-- Field MEAS_ONLY of `phPwrctl` (R428). -/
abbrev phPwrctlMeasOnly : Fld := ⟨8, 1⟩
/-- Field KEEPALIVE of `phPwrctl` (R428). -/
abbrev phPwrctlKeepalive : Fld := ⟨9, 1⟩

/-- Address of `phPwrcap` (R428). -/
def phPwrcapA (i : Nat) : Nat := 0x30100200110 + 0x1000000 * i
/-- Field EFFECTIVE_W of `phPwrcap` (R428). -/
abbrev phPwrcapEffectiveW : Fld := ⟨0, 16⟩
/-- Field HOST_W of `phPwrcap` (R428). -/
abbrev phPwrcapHostW : Fld := ⟨16, 16⟩
/-- Field RACK_SHARE_W of `phPwrcap` (R428). -/
abbrev phPwrcapRackShareW : Fld := ⟨32, 16⟩
/-- Field EMERG of `phPwrcap` (R428). -/
abbrev phPwrcapEmerg : Fld := ⟨48, 1⟩
/-- Field DIVERGENT of `phPwrcap` (R428). -/
abbrev phPwrcapDivergent : Fld := ⟨49, 1⟩
/-- Field SAFE of `phPwrcap` (R428). -/
abbrev phPwrcapSafe : Fld := ⟨50, 1⟩
/-- Field TELEM_FAULT of `phPwrcap` (R428). -/
abbrev phPwrcapTelemFault : Fld := ⟨51, 1⟩
/-- Field THERMAL of `phPwrcap` (R428). -/
abbrev phPwrcapThermal : Fld := ⟨52, 1⟩
/-- Field TILES_ON of `phPwrcap` (R428). -/
abbrev phPwrcapTilesOn : Fld := ⟨53, 1⟩
/-- Field RACK_ON of `phPwrcap` (R428). -/
abbrev phPwrcapRackOn : Fld := ⟨54, 1⟩
/-- Field SHED of `phPwrcap` (R428). -/
abbrev phPwrcapShed : Fld := ⟨55, 1⟩

/-- Address of `phPwrest` (R428). -/
def phPwrestA (i : Nat) : Nat := 0x30100200118 + 0x1000000 * i
/-- Field EST of `phPwrest` (R428). -/
abbrev phPwrestEst : Fld := ⟨0, 16⟩
/-- Field BUBBLE of `phPwrest` (R428). -/
abbrev phPwrestBubble : Fld := ⟨16, 16⟩
/-- Field PITH_W of `phPwrest` (R428). -/
abbrev phPwrestPithW : Fld := ⟨32, 16⟩
/-- Field PITH of `phPwrest` (R428). -/
abbrev phPwrestPith : Fld := ⟨48, 1⟩
/-- Field HINT of `phPwrest` (R428). -/
abbrev phPwrestHint : Fld := ⟨49, 1⟩
/-- Field RAMP_SHORT of `phPwrest` (R428). -/
abbrev phPwrestRampShort : Fld := ⟨50, 1⟩

/-- Address of `phPwrcoef0` (R428). -/
def phPwrcoef0A (i : Nat) : Nat := 0x30100200120 + 0x1000000 * i
/-- Field E_MXFP8 of `phPwrcoef0` (R428). -/
abbrev phPwrcoef0EMxfp8 : Fld := ⟨0, 16⟩
/-- Field E_MXFP6 of `phPwrcoef0` (R428). -/
abbrev phPwrcoef0EMxfp6 : Fld := ⟨16, 16⟩
/-- Field E_MXFP4 of `phPwrcoef0` (R428). -/
abbrev phPwrcoef0EMxfp4 : Fld := ⟨32, 16⟩
/-- Field E_INT8 of `phPwrcoef0` (R428). -/
abbrev phPwrcoef0EInt8 : Fld := ⟨48, 16⟩

/-- Address of `phPwrcoef1` (R428). -/
def phPwrcoef1A (i : Nat) : Nat := 0x30100200128 + 0x1000000 * i
/-- Field E_BF16 of `phPwrcoef1` (R428). -/
abbrev phPwrcoef1EBf16 : Fld := ⟨0, 16⟩
/-- Field E_FP32 of `phPwrcoef1` (R428). -/
abbrev phPwrcoef1EFp32 : Fld := ⟨16, 16⟩
/-- Field MV_HBM of `phPwrcoef1` (R428). -/
abbrev phPwrcoef1MvHbm : Fld := ⟨32, 16⟩
/-- Field MV_OTHER of `phPwrcoef1` (R428). -/
abbrev phPwrcoef1MvOther : Fld := ⟨48, 16⟩

/-- Address of `phPwrcoef2` (R428). -/
def phPwrcoef2A (i : Nat) : Nat := 0x30100200130 + 0x1000000 * i
/-- Field PIP_MW of `phPwrcoef2` (R428). -/
abbrev phPwrcoef2PipMw : Fld := ⟨0, 16⟩
/-- Field STATIC_W of `phPwrcoef2` (R428). -/
abbrev phPwrcoef2StaticW : Fld := ⟨16, 16⟩
/-- Field STATIC_TC of `phPwrcoef2` (R428). -/
abbrev phPwrcoef2StaticTc : Fld := ⟨32, 8⟩

/-- Address of `hmPwrcfg` (R429). -/
def hmPwrcfgA : Nat := 0x3F000100000
/-- Field RACK_CAP_W of `hmPwrcfg` (R429). -/
abbrev hmPwrcfgRackCapW : Fld := ⟨0, 13⟩
/-- Field RAMP of `hmPwrcfg` (R429). -/
abbrev hmPwrcfgRamp : Fld := ⟨16, 8⟩
/-- Field SAFE_PCT of `hmPwrcfg` (R429). -/
abbrev hmPwrcfgSafePct : Fld := ⟨24, 7⟩
/-- Field SHELF_PCT of `hmPwrcfg` (R429). -/
abbrev hmPwrcfgShelfPct : Fld := ⟨32, 7⟩
/-- Field COOL_PCT of `hmPwrcfg` (R429). -/
abbrev hmPwrcfgCoolPct : Fld := ⟨40, 7⟩
/-- Field SHED_C of `hmPwrcfg` (R429). -/
abbrev hmPwrcfgShedC : Fld := ⟨48, 7⟩
/-- Field OP of `hmPwrcfg` (R429). -/
abbrev hmPwrcfgOp : Fld := ⟨56, 3⟩

/-- Address of `hmShedord` (R429). -/
def hmShedordA : Nat := 0x3F000100010
/-- Field ORDER of `hmShedord` (R429). -/
abbrev hmShedordOrder : Fld := ⟨0, 48⟩

/-- Address of `hmPwrstat` (R429). -/
def hmPwrstatA : Nat := 0x3F000100008
/-- Field C_IN of `hmPwrstat` (R429). -/
abbrev hmPwrstatCIn : Fld := ⟨0, 13⟩
/-- Field INPUT_W of `hmPwrstat` (R429). -/
abbrev hmPwrstatInputW : Fld := ⟨13, 13⟩
/-- Field EMERG_SHELF of `hmPwrstat` (R429). -/
abbrev hmPwrstatEmergShelf : Fld := ⟨26, 1⟩
/-- Field EMERG_COOL of `hmPwrstat` (R429). -/
abbrev hmPwrstatEmergCool : Fld := ⟨27, 1⟩
/-- Field RACK_LOST of `hmPwrstat` (R429). -/
abbrev hmPwrstatRackLost : Fld := ⟨28, 1⟩
/-- Field TELEM_FAULT of `hmPwrstat` (R429). -/
abbrev hmPwrstatTelemFault : Fld := ⟨29, 1⟩
/-- Field OVERPOWER of `hmPwrstat` (R429). -/
abbrev hmPwrstatOverpower : Fld := ⟨30, 1⟩
/-- Field INLET_RANGE of `hmPwrstat` (R429). -/
abbrev hmPwrstatInletRange : Fld := ⟨31, 1⟩
/-- Field INLET_C of `hmPwrstat` (R429). -/
abbrev hmPwrstatInletC : Fld := ⟨32, 8⟩
/-- Field DIVERGENT of `hmPwrstat` (R429). -/
abbrev hmPwrstatDivergent : Fld := ⟨40, 12⟩
/-- Field SHED of `hmPwrstat` (R429). -/
abbrev hmPwrstatShed : Fld := ⟨52, 12⟩

/-- Address of `hmRail` (R429). -/
def hmRailA (i : Nat) : Nat := 0x3F000100100 + 0x8 * i
/-- Field CURRENT of `hmRail` (R429). -/
abbrev hmRailCurrent : Fld := ⟨0, 16⟩
/-- Field VOLTAGE of `hmRail` (R429). -/
abbrev hmRailVoltage : Fld := ⟨16, 16⟩
/-- Field POWER of `hmRail` (R429). -/
abbrev hmRailPower : Fld := ⟨32, 16⟩
/-- Field PLAUSIBLE of `hmRail` (R429). -/
abbrev hmRailPlausible : Fld := ⟨48, 1⟩
/-- Field SAMPLES of `hmRail` (R429). -/
abbrev hmRailSamples : Fld := ⟨49, 15⟩

/-- Address of `hmTarnish` (R429). -/
def hmTarnishA (i : Nat) : Nat := 0x3F000100400 + 0x8 * i
/-- Field DRIFT of `hmTarnish` (R429). -/
abbrev hmTarnishDrift : Fld := ⟨0, 16⟩
/-- Field OFFSET_STEPS of `hmTarnish` (R429). -/
abbrev hmTarnishOffsetSteps : Fld := ⟨16, 3⟩
/-- Field AT_LIMIT of `hmTarnish` (R429). -/
abbrev hmTarnishAtLimit : Fld := ⟨19, 1⟩

/-- Address of `hmRole` (R459). -/
def hmRoleA : Nat := 0x3F000000000
/-- Field OWNER of `hmRole` (R459). -/
abbrev hmRoleOwner : Fld := ⟨0, 1⟩
/-- Field PRIMARY of `hmRole` (R459). -/
abbrev hmRolePrimary : Fld := ⟨1, 1⟩
/-- Field STANDBY_OK of `hmRole` (R459). -/
abbrev hmRoleStandbyOk : Fld := ⟨2, 1⟩
/-- Field DEGRADED of `hmRole` (R459). -/
abbrev hmRoleDegraded : Fld := ⟨3, 1⟩
/-- Field TAKEOVERS of `hmRole` (R459). -/
abbrev hmRoleTakeovers : Fld := ⟨16, 16⟩
/-- Field LAST_GAP_US of `hmRole` (R459). -/
abbrev hmRoleLastGapUs : Fld := ⟨32, 16⟩
/-- Field OWNER_EPOCH of `hmRole` (R459). -/
abbrev hmRoleOwnerEpoch : Fld := ⟨48, 16⟩

/-- Address of `hmRolectl` (R459). -/
def hmRolectlA : Nat := 0x3F000000008
/-- Field SWAP of `hmRolectl` (R459). -/
abbrev hmRolectlSwap : Fld := ⟨0, 1⟩
/-- Field TAKEBACK_EN of `hmRolectl` (R459). -/
abbrev hmRolectlTakebackEn : Fld := ⟨1, 1⟩
/-- Field TAKEBACK_CYCLES of `hmRolectl` (R459). -/
abbrev hmRolectlTakebackCycles : Fld := ⟨16, 14⟩

/-- Address of `hmHbstat` (R459). -/
def hmHbstatA : Nat := 0x3F000000010
/-- Field PRIV_RX of `hmHbstat` (R459). -/
abbrev hmHbstatPrivRx : Fld := ⟨0, 1⟩
/-- Field SPINE_RX of `hmHbstat` (R459). -/
abbrev hmHbstatSpineRx : Fld := ⟨1, 1⟩
/-- Field SPLIT of `hmHbstat` (R459). -/
abbrev hmHbstatSplit : Fld := ⟨2, 1⟩
/-- Field FOREIGN of `hmHbstat` (R459). -/
abbrev hmHbstatForeign : Fld := ⟨8, 8⟩
/-- Field IMAGE_BAD of `hmHbstat` (R459). -/
abbrev hmHbstatImageBad : Fld := ⟨16, 16⟩
/-- Field IMAGE_SEQ of `hmHbstat` (R459). -/
abbrev hmHbstatImageSeq : Fld := ⟨32, 32⟩

/-- Address of `hmDiestat` (R459). -/
def hmDiestatA (i : Nat) : Nat := 0x3F000000020 + 0x8 * i
/-- Field STATE of `hmDiestat` (R459). -/
abbrev hmDiestatState : Fld := ⟨0, 3⟩
/-- Field SELFTEST of `hmDiestat` (R459). -/
abbrev hmDiestatSelftest : Fld := ⟨8, 8⟩
/-- Field RESTARTS of `hmDiestat` (R459). -/
abbrev hmDiestatRestarts : Fld := ⟨16, 8⟩
/-- Field HELD_OFF of `hmDiestat` (R459). -/
abbrev hmDiestatHeldOff : Fld := ⟨24, 1⟩
/-- Field BOOTS of `hmDiestat` (R459). -/
abbrev hmDiestatBoots : Fld := ⟨32, 32⟩

/-- Address of `hmTrayhb` (R459). -/
def hmTrayhbA : Nat := 0x3F000000040
/-- Field SEQ of `hmTrayhb` (R459). -/
abbrev hmTrayhbSeq : Fld := ⟨0, 32⟩
/-- Field LOST of `hmTrayhb` (R459). -/
abbrev hmTrayhbLost : Fld := ⟨32, 1⟩
/-- Field EVLOST of `hmTrayhb` (R459). -/
abbrev hmTrayhbEvlost : Fld := ⟨33, 15⟩
/-- Field AGE_MS of `hmTrayhb` (R459). -/
abbrev hmTrayhbAgeMs : Fld := ⟨48, 16⟩

/-- Address of `hmRackord` (R459). -/
def hmRackordA : Nat := 0x3F000000048
/-- Field RACK_ON of `hmRackord` (R459). -/
abbrev hmRackordRackOn : Fld := ⟨0, 12⟩
/-- Field HD_ON of `hmRackord` (R459). -/
abbrev hmRackordHdOn : Fld := ⟨16, 1⟩

/-- Address of `hmTrayrpt` (R459). -/
def hmTrayrptA : Nat := 0x3F000000050
/-- Field SHELF_LOSS of `hmTrayrpt` (R459). -/
abbrev hmTrayrptShelfLoss : Fld := ⟨0, 1⟩
/-- Field COOL_LOSS of `hmTrayrpt` (R459). -/
abbrev hmTrayrptCoolLoss : Fld := ⟨1, 1⟩

/-- Address of `hmWear` (R459). -/
def hmWearA (i : Nat) : Nat := 0x3F000200000 + 0x8 * i
/-- Field DAYS of `hmWear` (R459). -/
abbrev hmWearDays : Fld := ⟨0, 14⟩
/-- Field DAYS_LO of `hmWear` (R459). -/
abbrev hmWearDaysLo : Fld := ⟨14, 14⟩
/-- Field DAYS_HI of `hmWear` (R459). -/
abbrev hmWearDaysHi : Fld := ⟨28, 14⟩
/-- Field W of `hmWear` (R459). -/
abbrev hmWearW : Fld := ⟨42, 10⟩
/-- Field STATE of `hmWear` (R459). -/
abbrev hmWearState : Fld := ⟨52, 2⟩
/-- Field EV365 of `hmWear` (R459). -/
abbrev hmWearEv365 : Fld := ⟨54, 1⟩
/-- Field EV90 of `hmWear` (R459). -/
abbrev hmWearEv90 : Fld := ⟨55, 1⟩

/-- Address of `lkState` (R491). -/
def lkStateA : Nat := 0x3F001000000
/-- Field LIFECYCLE of `lkState` (R491). -/
abbrev lkStateLifecycle : Fld := ⟨0, 2⟩
/-- Field DEBUG_EN of `lkState` (R491). -/
abbrev lkStateDebugEn : Fld := ⟨3, 1⟩
/-- Field BANK of `lkState` (R491). -/
abbrev lkStateBank : Fld := ⟨4, 1⟩
/-- Field ALT_BANK of `lkState` (R491). -/
abbrev lkStateAltBank : Fld := ⟨5, 1⟩
/-- Field SIG_LOW of `lkState` (R491). -/
abbrev lkStateSigLow : Fld := ⟨6, 1⟩
/-- Field SIG_OUT of `lkState` (R491). -/
abbrev lkStateSigOut : Fld := ⟨7, 1⟩
/-- Field TREE_READY of `lkState` (R491). -/
abbrev lkStateTreeReady : Fld := ⟨8, 1⟩
/-- Field SESSIONS of `lkState` (R491). -/
abbrev lkStateSessions : Fld := ⟨16, 8⟩
/-- Field CONF of `lkState` (R491). -/
abbrev lkStateConf : Fld := ⟨24, 12⟩

/-- Address of `lkSigstate` (R491). -/
def lkSigstateA : Nat := 0x3F001000008
/-- Field NEXT_LEAF of `lkSigstate` (R491). -/
abbrev lkSigstateNextLeaf : Fld := ⟨0, 40⟩
/-- Field RESERVED_TO of `lkSigstate` (R491). -/
abbrev lkSigstateReservedTo : Fld := ⟨40, 24⟩

/-- Address of `lkBootcnt` (R491). -/
def lkBootcntA : Nat := 0x3F001000010
/-- Field BOOTS of `lkBootcnt` (R491). -/
abbrev lkBootcntBoots : Fld := ⟨0, 32⟩

/-- Address of `lkSvn` (R491). -/
def lkSvnA (i : Nat) : Nat := 0x3F001000020 + 0x8 * i
/-- Field MINSVN of `lkSvn` (R491). -/
abbrev lkSvnMinsvn : Fld := ⟨0, 16⟩
/-- Field RUNSVN of `lkSvn` (R491). -/
abbrev lkSvnRunsvn : Fld := ⟨16, 16⟩

/-- Address of `lkSvnctl` (R491). -/
def lkSvnctlA : Nat := 0x3F001000060
/-- Field COMMIT of `lkSvnctl` (R491). -/
abbrev lkSvnctlCommit : Fld := ⟨0, 1⟩

/-- Address of `lkHostref` (R491). -/
def lkHostrefA : Nat := 0x3F001000068
/-- Field COUNT of `lkHostref` (R491). -/
abbrev lkHostrefCount : Fld := ⟨0, 48⟩
/-- Field LAST_PART of `lkHostref` (R491). -/
abbrev lkHostrefLastPart : Fld := ⟨48, 12⟩

/-- Address of `lkLinkstat` (R491). -/
def lkLinkstatA (i : Nat) : Nat := 0x3F001000100 + 0x8 * i
/-- Field STATE of `lkLinkstat` (R491). -/
abbrev lkLinkstatState : Fld := ⟨0, 3⟩
/-- Field EPOCH of `lkLinkstat` (R491). -/
abbrev lkLinkstatEpoch : Fld := ⟨8, 8⟩
/-- Field TAGFAIL of `lkLinkstat` (R491). -/
abbrev lkLinkstatTagfail : Fld := ⟨16, 32⟩

/-- Address of `lkLinkctl` (R491). -/
def lkLinkctlA (i : Nat) : Nat := 0x3F001000140 + 0x8 * i
/-- Field SUBMIT of `lkLinkctl` (R491). -/
abbrev lkLinkctlSubmit : Fld := ⟨0, 1⟩
/-- Field DROP of `lkLinkctl` (R491). -/
abbrev lkLinkctlDrop : Fld := ⟨1, 1⟩

/-- Address of `lkDbgctl` (R491). -/
def lkDbgctlA : Nat := 0x3F0010001A0
/-- Field NONCE_REQ of `lkDbgctl` (R491). -/
abbrev lkDbgctlNonceReq : Fld := ⟨0, 1⟩
/-- Field SUBMIT of `lkDbgctl` (R491). -/
abbrev lkDbgctlSubmit : Fld := ⟨1, 1⟩
/-- Field REFUSED of `lkDbgctl` (R491). -/
abbrev lkDbgctlRefused : Fld := ⟨2, 1⟩

/-- Address of `lkDbgnonce` (R491). -/
def lkDbgnonceA (i : Nat) : Nat := 0x3F001000180 + 0x8 * i
/-- Field NONCE of `lkDbgnonce` (R491). -/
abbrev lkDbgnonceNonce : Fld := ⟨0, 64⟩

/-- Address of `lkHallmark` (R491). -/
def lkHallmarkA (i j : Nat) : Nat := 0x3F001001000 + 0x20 * i + 0x8 * j
/-- Field VALUE of `lkHallmark` (R491). -/
abbrev lkHallmarkValue : Fld := ⟨0, 64⟩

/-- Address of `evcGctl` (R515). -/
def evcGctlA : Nat := 0x30600040000
/-- Field DIS of `evcGctl` (R515). -/
abbrev evcGctlDis : Fld := ⟨0, 1⟩
/-- Field LOCKREF of `evcGctl` (R515). -/
abbrev evcGctlLockref : Fld := ⟨16, 32⟩

/-- Address of `evcSrccfg` (R515). -/
def evcSrccfgA (i : Nat) : Nat := 0x30600000000 + 0x8 * i
/-- Field ROUTE of `evcSrccfg` (R515). -/
abbrev evcSrccfgRoute : Fld := ⟨0, 7⟩
/-- Field MASK of `evcSrccfg` (R515). -/
abbrev evcSrccfgMask : Fld := ⟨7, 1⟩
/-- Field PRIO of `evcSrccfg` (R515). -/
abbrev evcSrccfgPrio : Fld := ⟨8, 3⟩
/-- Field MODE of `evcSrccfg` (R515). -/
abbrev evcSrccfgMode : Fld := ⟨12, 3⟩
/-- Field LEVELSRC of `evcSrccfg` (R515). -/
abbrev evcSrccfgLevelsrc : Fld := ⟨15, 1⟩
/-- Field FILT of `evcSrccfg` (R515). -/
abbrev evcSrccfgFilt : Fld := ⟨16, 8⟩

/-- Address of `evcSrcstat` (R515). -/
def evcSrcstatA (i : Nat) : Nat := 0x30600010000 + 0x8 * i
/-- Field PENDING of `evcSrcstat` (R515). -/
abbrev evcSrcstatPending : Fld := ⟨0, 1⟩
/-- Field ACTIVE of `evcSrcstat` (R515). -/
abbrev evcSrcstatActive : Fld := ⟨1, 1⟩
/-- Field SAT of `evcSrcstat` (R515). -/
abbrev evcSrcstatSat : Fld := ⟨2, 1⟩
/-- Field ROUTE_PEND of `evcSrcstat` (R515). -/
abbrev evcSrcstatRoutePend : Fld := ⟨3, 1⟩
/-- Field LEVEL of `evcSrcstat` (R515). -/
abbrev evcSrcstatLevel : Fld := ⟨4, 1⟩
/-- Field COUNT of `evcSrcstat` (R515). -/
abbrev evcSrcstatCount : Fld := ⟨8, 8⟩

/-- Address of `evcGrpcfg` (R515). -/
def evcGrpcfgA (i : Nat) : Nat := 0x30600020000 + 0x8 * i
/-- Field HOLDOFF_US of `evcGrpcfg` (R515). -/
abbrev evcGrpcfgHoldoffUs : Fld := ⟨0, 10⟩
/-- Field LOCK of `evcGrpcfg` (R515). -/
abbrev evcGrpcfgLock : Fld := ⟨16, 1⟩
/-- Field HOLDING of `evcGrpcfg` (R515). -/
abbrev evcGrpcfgHolding : Fld := ⟨17, 1⟩

/-- Address of `evcTgtCfg` (R515). -/
def evcTgtCfgA (i : Nat) : Nat := 0x30600030000 + 0x40 * i
/-- Field THRESHOLD of `evcTgtCfg` (R515). -/
abbrev evcTgtCfgThreshold : Fld := ⟨0, 3⟩
/-- Field STRAND_EN of `evcTgtCfg` (R515). -/
abbrev evcTgtCfgStrandEn : Fld := ⟨3, 1⟩
/-- Field SIZE_LOG of `evcTgtCfg` (R515). -/
abbrev evcTgtCfgSizeLog : Fld := ⟨4, 4⟩
/-- Field STRAND_OVF of `evcTgtCfg` (R515). -/
abbrev evcTgtCfgStrandOvf : Fld := ⟨8, 1⟩
/-- Field IRQ of `evcTgtCfg` (R515). -/
abbrev evcTgtCfgIrq : Fld := ⟨9, 1⟩

/-- Address of `evcTgtClaim` (R515). -/
def evcTgtClaimA (i : Nat) : Nat := 0x30600030008 + 0x40 * i
/-- Field SOURCE of `evcTgtClaim` (R515). -/
abbrev evcTgtClaimSource : Fld := ⟨0, 12⟩
/-- Field COUNT of `evcTgtClaim` (R515). -/
abbrev evcTgtClaimCount : Fld := ⟨16, 8⟩
/-- Field SAT of `evcTgtClaim` (R515). -/
abbrev evcTgtClaimSat : Fld := ⟨24, 1⟩
/-- Field NONE of `evcTgtClaim` (R515). -/
abbrev evcTgtClaimNone : Fld := ⟨31, 1⟩

/-- Address of `evcTgtComplete` (R515). -/
def evcTgtCompleteA (i : Nat) : Nat := 0x30600030010 + 0x40 * i
/-- Field SOURCE of `evcTgtComplete` (R515). -/
abbrev evcTgtCompleteSource : Fld := ⟨0, 12⟩

/-- Address of `evcTgtBase` (R515). -/
def evcTgtBaseA (i : Nat) : Nat := 0x30600030018 + 0x40 * i
/-- Field BASE of `evcTgtBase` (R515). -/
abbrev evcTgtBaseBase : Fld := ⟨12, 32⟩

/-- Address of `evcTgtProd` (R515). -/
def evcTgtProdA (i : Nat) : Nat := 0x30600030020 + 0x40 * i
/-- Field PROD of `evcTgtProd` (R515). -/
abbrev evcTgtProdProd : Fld := ⟨0, 32⟩

/-- Address of `evcTgtCons` (R515). -/
def evcTgtConsA (i : Nat) : Nat := 0x30600030028 + 0x40 * i
/-- Field CONS of `evcTgtCons` (R515). -/
abbrev evcTgtConsCons : Fld := ⟨0, 32⟩

/-- Address of `evcTgtLost` (R515). -/
def evcTgtLostA (i : Nat) : Nat := 0x30600030030 + 0x40 * i
/-- Field LOST_RECORDS of `evcTgtLost` (R515). -/
abbrev evcTgtLostLostRecords : Fld := ⟨0, 32⟩
/-- Field LOST_EVENTS of `evcTgtLost` (R515). -/
abbrev evcTgtLostLostEvents : Fld := ⟨32, 32⟩

/-- Address of `hmBoot` (R538). -/
def hmBootA : Nat := 0x3F000300000
/-- Field PHASE of `hmBoot` (R538). -/
abbrev hmBootPhase : Fld := ⟨0, 4⟩
/-- Field READY of `hmBoot` (R538). -/
abbrev hmBootReady : Fld := ⟨4, 2⟩
/-- Field WARM of `hmBoot` (R538). -/
abbrev hmBootWarm : Fld := ⟨6, 1⟩
/-- Field QUICK of `hmBoot` (R538). -/
abbrev hmBootQuick : Fld := ⟨7, 1⟩
/-- Field MEMVALID of `hmBoot` (R538). -/
abbrev hmBootMemvalid : Fld := ⟨8, 1⟩
/-- Field TIME_LOADED of `hmBoot` (R538). -/
abbrev hmBootTimeLoaded : Fld := ⟨9, 1⟩
/-- Field PART_OK of `hmBoot` (R538). -/
abbrev hmBootPartOk : Fld := ⟨12, 12⟩
/-- Field CAUSE of `hmBoot` (R538). -/
abbrev hmBootCause : Fld := ⟨24, 4⟩
/-- Field ELAPSED_MS of `hmBoot` (R538). -/
abbrev hmBootElapsedMs : Fld := ⟨32, 32⟩

/-- Address of `hmBootcfg` (R538). -/
def hmBootcfgA : Nat := 0x3F000300008
/-- Field MEMTEST of `hmBootcfg` (R538). -/
abbrev hmBootcfgMemtest : Fld := ⟨0, 1⟩
/-- Field FORCE_FULL_NEXT of `hmBootcfg` (R538). -/
abbrev hmBootcfgForceFullNext : Fld := ⟨1, 1⟩
/-- Field CHECKS of `hmBootcfg` (R538). -/
abbrev hmBootcfgChecks : Fld := ⟨2, 2⟩
/-- Field TIME_WAIT_S of `hmBootcfg` (R538). -/
abbrev hmBootcfgTimeWaitS : Fld := ⟨16, 10⟩

/-- Address of `hmSfctl` (R538). -/
def hmSfctlA : Nat := 0x3F000300010
/-- Field COUNT of `hmSfctl` (R538). -/
abbrev hmSfctlCount : Fld := ⟨0, 9⟩
/-- Field FULL of `hmSfctl` (R538). -/
abbrev hmSfctlFull : Fld := ⟨9, 1⟩
/-- Field CLEAR of `hmSfctl` (R538). -/
abbrev hmSfctlClear : Fld := ⟨10, 1⟩

/-- Address of `hmSoftfuse` (R538). -/
def hmSoftfuseA (i : Nat) : Nat := 0x3F000301000 + 0x8 * i
/-- Field KIND of `hmSoftfuse` (R538). -/
abbrev hmSoftfuseKind : Fld := ⟨0, 8⟩
/-- Field DIE of `hmSoftfuse` (R538). -/
abbrev hmSoftfuseDie : Fld := ⟨8, 8⟩
/-- Field UNIT of `hmSoftfuse` (R538). -/
abbrev hmSoftfuseUnit : Fld := ⟨16, 16⟩
/-- Field ROW of `hmSoftfuse` (R538). -/
abbrev hmSoftfuseRow : Fld := ⟨32, 16⟩
/-- Field SOURCE of `hmSoftfuse` (R538). -/
abbrev hmSoftfuseSource : Fld := ⟨48, 8⟩
/-- Field BOOT of `hmSoftfuse` (R538). -/
abbrev hmSoftfuseBoot : Fld := ⟨56, 8⟩

/-- Address of `phCfgstat` (R554). -/
def phCfgstatA (i : Nat) : Nat := 0x30100200060 + 0x1000000 * i
/-- Field ST_IGNORED of `phCfgstat` (R554). -/
abbrev phCfgstatStIgnored : Fld := ⟨0, 32⟩
/-- Field FX_IGNORED of `phCfgstat` (R554). -/
abbrev phCfgstatFxIgnored : Fld := ⟨32, 16⟩
/-- Field OPEN of `phCfgstat` (R554). -/
abbrev phCfgstatOpen : Fld := ⟨48, 8⟩
/-- Field ABANDONED of `phCfgstat` (R554). -/
abbrev phCfgstatAbandoned : Fld := ⟨56, 8⟩

/-- Address of `tdCfgstat` (R554). -/
def tdCfgstatA (i : Nat) : Nat := 0x30400200060 + 0x1000000 * i
/-- Field ST_IGNORED of `tdCfgstat` (R554). -/
abbrev tdCfgstatStIgnored : Fld := ⟨0, 32⟩
/-- Field FX_IGNORED of `tdCfgstat` (R554). -/
abbrev tdCfgstatFxIgnored : Fld := ⟨32, 16⟩
/-- Field OPEN of `tdCfgstat` (R554). -/
abbrev tdCfgstatOpen : Fld := ⟨48, 8⟩
/-- Field ABANDONED of `tdCfgstat` (R554). -/
abbrev tdCfgstatAbandoned : Fld := ⟨56, 8⟩

/-- Address of `fdCfgstat` (R554). -/
def fdCfgstatA (i : Nat) : Nat := 0x30200000018 + 0x1000000 * i
/-- Field ST_IGNORED of `fdCfgstat` (R554). -/
abbrev fdCfgstatStIgnored : Fld := ⟨0, 32⟩
/-- Field FX_IGNORED of `fdCfgstat` (R554). -/
abbrev fdCfgstatFxIgnored : Fld := ⟨32, 16⟩
/-- Field OPEN of `fdCfgstat` (R554). -/
abbrev fdCfgstatOpen : Fld := ⟨48, 8⟩
/-- Field ABANDONED of `fdCfgstat` (R554). -/
abbrev fdCfgstatAbandoned : Fld := ⟨56, 8⟩

/-- Address of `hmCfgstat` (R554). -/
def hmCfgstatA : Nat := 0x3F000300020
/-- Field ST_IGNORED of `hmCfgstat` (R554). -/
abbrev hmCfgstatStIgnored : Fld := ⟨0, 32⟩
/-- Field FX_IGNORED of `hmCfgstat` (R554). -/
abbrev hmCfgstatFxIgnored : Fld := ⟨32, 16⟩
/-- Field OPEN of `hmCfgstat` (R554). -/
abbrev hmCfgstatOpen : Fld := ⟨48, 8⟩
/-- Field ABANDONED of `hmCfgstat` (R554). -/
abbrev hmCfgstatAbandoned : Fld := ⟨56, 8⟩

/-- Address of `hmMcbstat` (R554). -/
def hmMcbstatA : Nat := 0x3F000300018
/-- Field MIRROR_USED of `hmMcbstat` (R554). -/
abbrev hmMcbstatMirrorUsed : Fld := ⟨0, 1⟩
/-- Field DEFAULTS_IN_USE of `hmMcbstat` (R554). -/
abbrev hmMcbstatDefaultsInUse : Fld := ⟨1, 1⟩
/-- Field COPY of `hmMcbstat` (R554). -/
abbrev hmMcbstatCopy : Fld := ⟨2, 1⟩
/-- Field WRITING of `hmMcbstat` (R554). -/
abbrev hmMcbstatWriting : Fld := ⟨3, 1⟩
/-- Field KEEP_BAD of `hmMcbstat` (R554). -/
abbrev hmMcbstatKeepBad : Fld := ⟨4, 1⟩
/-- Field RESYNC of `hmMcbstat` (R554). -/
abbrev hmMcbstatResync : Fld := ⟨8, 8⟩
/-- Field REC_SKIPPED of `hmMcbstat` (R554). -/
abbrev hmMcbstatRecSkipped : Fld := ⟨16, 16⟩
/-- Field REC_CLAMPED of `hmMcbstat` (R554). -/
abbrev hmMcbstatRecClamped : Fld := ⟨32, 16⟩
/-- Field WRITES of `hmMcbstat` (R554). -/
abbrev hmMcbstatWrites : Fld := ⟨48, 16⟩

/-- Address of `mcbHdr` (R554). -/
def mcbHdrA : Nat := 0x3F000400000
/-- Field NREC of `mcbHdr` (R554). -/
abbrev mcbHdrNrec : Fld := ⟨0, 14⟩
/-- Field GEN of `mcbHdr` (R554). -/
abbrev mcbHdrGen : Fld := ⟨16, 48⟩

/-- Address of `mcbRec` (R554). -/
def mcbRecA (i : Nat) : Nat := 0x3F000401000 + 0x10 * i
/-- Field ADDR of `mcbRec` (R554). -/
abbrev mcbRecAddr : Fld := ⟨0, 44⟩
/-- Field LO of `mcbRec` (R554). -/
abbrev mcbRecLo : Fld := ⟨44, 6⟩
/-- Field WIDTH of `mcbRec` (R554). -/
abbrev mcbRecWidth : Fld := ⟨50, 7⟩

/-- Address of `mcbRecValue` (R554). -/
def mcbRecValueA (i : Nat) : Nat := 0x3F000401008 + 0x10 * i
/-- Field VALUE of `mcbRecValue` (R554). -/
abbrev mcbRecValueValue : Fld := ⟨0, 64⟩

/-- Address of `phHang` (R588). -/
def phHangA (i : Nat) : Nat := 0x30100200200 + 0x1000000 * i
/-- Field WINDOW_MS of `phHang` (R588). -/
abbrev phHangWindowMs : Fld := ⟨0, 10⟩
/-- Field EXPIRED of `phHang` (R588). -/
abbrev phHangExpired : Fld := ⟨16, 16⟩
/-- Field LAST_DIE of `phHang` (R588). -/
abbrev phHangLastDie : Fld := ⟨32, 8⟩
/-- Field LAST_UNIT of `phHang` (R588). -/
abbrev phHangLastUnit : Fld := ⟨40, 8⟩
/-- Field LAST_CTX of `phHang` (R588). -/
abbrev phHangLastCtx : Fld := ⟨48, 10⟩

/-- Address of `phWdog` (R588). -/
def phWdogA (i : Nat) : Nat := 0x30100200208 + 0x1000000 * i
/-- Field KICK0 of `phWdog` (R588). -/
abbrev phWdogKick0 : Fld := ⟨0, 1⟩
/-- Field KICK1 of `phWdog` (R588). -/
abbrev phWdogKick1 : Fld := ⟨1, 1⟩
/-- Field WDOG_EXP of `phWdog` (R588). -/
abbrev phWdogWdogExp : Fld := ⟨2, 1⟩
/-- Field LIMIT_MS of `phWdog` (R588). -/
abbrev phWdogLimitMs : Fld := ⟨8, 8⟩

/-- Address of `phErrq0` (R588). -/
def phErrq0A (i : Nat) : Nat := 0x30100200210 + 0x1000000 * i
/-- Field CODE of `phErrq0` (R588). -/
abbrev phErrq0Code : Fld := ⟨0, 8⟩
/-- Field LEVEL of `phErrq0` (R588). -/
abbrev phErrq0Level : Fld := ⟨8, 3⟩
/-- Field ACT of `phErrq0` (R588). -/
abbrev phErrq0Act : Fld := ⟨11, 1⟩
/-- Field DIE of `phErrq0` (R588). -/
abbrev phErrq0Die : Fld := ⟨12, 8⟩
/-- Field UNIT of `phErrq0` (R588). -/
abbrev phErrq0Unit : Fld := ⟨20, 8⟩
/-- Field CTX of `phErrq0` (R588). -/
abbrev phErrq0Ctx : Fld := ⟨28, 10⟩
/-- Field POP of `phErrq0` (R588). -/
abbrev phErrq0Pop : Fld := ⟨38, 1⟩
/-- Field LOST of `phErrq0` (R588). -/
abbrev phErrq0Lost : Fld := ⟨39, 1⟩
/-- Field DEPTH of `phErrq0` (R588). -/
abbrev phErrq0Depth : Fld := ⟨40, 9⟩

/-- Address of `phErrq1` (R588). -/
def phErrq1A (i : Nat) : Nat := 0x30100200218 + 0x1000000 * i
/-- Field GTIME of `phErrq1` (R588). -/
abbrev phErrq1Gtime : Fld := ⟨0, 32⟩
/-- Field CSEQ of `phErrq1` (R588). -/
abbrev phErrq1Cseq : Fld := ⟨32, 32⟩

/-- Address of `phErrq2` (R588). -/
def phErrq2A (i : Nat) : Nat := 0x30100200220 + 0x1000000 * i
/-- Field ADDR of `phErrq2` (R588). -/
abbrev phErrq2Addr : Fld := ⟨0, 44⟩

/-- Address of `hmErrq0` (R588). -/
def hmErrq0A (i : Nat) : Nat := 0x3F000500100 + 0x18 * i
/-- Field CODE of `hmErrq0` (R588). -/
abbrev hmErrq0Code : Fld := ⟨0, 8⟩
/-- Field LEVEL of `hmErrq0` (R588). -/
abbrev hmErrq0Level : Fld := ⟨8, 3⟩
/-- Field ACT of `hmErrq0` (R588). -/
abbrev hmErrq0Act : Fld := ⟨11, 1⟩
/-- Field DIE of `hmErrq0` (R588). -/
abbrev hmErrq0Die : Fld := ⟨12, 8⟩
/-- Field UNIT of `hmErrq0` (R588). -/
abbrev hmErrq0Unit : Fld := ⟨20, 8⟩
/-- Field CTX of `hmErrq0` (R588). -/
abbrev hmErrq0Ctx : Fld := ⟨28, 10⟩
/-- Field POP of `hmErrq0` (R588). -/
abbrev hmErrq0Pop : Fld := ⟨38, 1⟩
/-- Field LOST of `hmErrq0` (R588). -/
abbrev hmErrq0Lost : Fld := ⟨39, 1⟩
/-- Field DEPTH of `hmErrq0` (R588). -/
abbrev hmErrq0Depth : Fld := ⟨40, 9⟩

/-- Address of `hmErrq1` (R588). -/
def hmErrq1A (i : Nat) : Nat := 0x3F000500108 + 0x18 * i
/-- Field GTIME of `hmErrq1` (R588). -/
abbrev hmErrq1Gtime : Fld := ⟨0, 32⟩
/-- Field CSEQ of `hmErrq1` (R588). -/
abbrev hmErrq1Cseq : Fld := ⟨32, 32⟩

/-- Address of `hmErrq2` (R588). -/
def hmErrq2A (i : Nat) : Nat := 0x3F000500110 + 0x18 * i
/-- Field ADDR of `hmErrq2` (R588). -/
abbrev hmErrq2Addr : Fld := ⟨0, 44⟩

/-- Address of `phEsc` (R588). -/
def phEscA (i : Nat) : Nat := 0x30100200228 + 0x1000000 * i
/-- Field OPEN of `phEsc` (R588). -/
abbrev phEscOpen : Fld := ⟨0, 1⟩
/-- Field LEVEL of `phEsc` (R588). -/
abbrev phEscLevel : Fld := ⟨1, 3⟩
/-- Field CODE of `phEsc` (R588). -/
abbrev phEscCode : Fld := ⟨4, 8⟩
/-- Field ESCALATED of `phEsc` (R588). -/
abbrev phEscEscalated : Fld := ⟨12, 1⟩
/-- Field L1_COUNT of `phEsc` (R588). -/
abbrev phEscL1Count : Fld := ⟨16, 16⟩
/-- Field L2_COUNT of `phEsc` (R588). -/
abbrev phEscL2Count : Fld := ⟨32, 16⟩

/-- Address of `hmEsc` (R588). -/
def hmEscA (i : Nat) : Nat := 0x3F000500400 + 0x8 * i
/-- Field OPEN of `hmEsc` (R588). -/
abbrev hmEscOpen : Fld := ⟨0, 1⟩
/-- Field LEVEL of `hmEsc` (R588). -/
abbrev hmEscLevel : Fld := ⟨1, 3⟩
/-- Field CODE of `hmEsc` (R588). -/
abbrev hmEscCode : Fld := ⟨4, 8⟩
/-- Field ESCALATED of `hmEsc` (R588). -/
abbrev hmEscEscalated : Fld := ⟨12, 1⟩
/-- Field L1_COUNT of `hmEsc` (R588). -/
abbrev hmEscL1Count : Fld := ⟨16, 16⟩
/-- Field L2_COUNT of `hmEsc` (R588). -/
abbrev hmEscL2Count : Fld := ⟨32, 16⟩

/-- Address of `phBezel` (R588). -/
def phBezelA (i : Nat) : Nat := 0x30100200230 + 0x1000000 * i
/-- Field STATE of `phBezel` (R588). -/
abbrev phBezelState : Fld := ⟨0, 2⟩
/-- Field FENCE of `phBezel` (R588). -/
abbrev phBezelFence : Fld := ⟨2, 1⟩
/-- Field OPEN of `phBezel` (R588). -/
abbrev phBezelOpen : Fld := ⟨3, 1⟩
/-- Field BY of `phBezel` (R588). -/
abbrev phBezelBy : Fld := ⟨4, 2⟩
/-- Field ABSORBED of `phBezel` (R588). -/
abbrev phBezelAbsorbed : Fld := ⟨16, 16⟩
/-- Field REFUSED of `phBezel` (R588). -/
abbrev phBezelRefused : Fld := ⟨32, 32⟩

/-- Address of `phPrst` (R588). -/
def phPrstA (i : Nat) : Nat := 0x30100200238 + 0x1000000 * i
/-- Field START of `phPrst` (R588). -/
abbrev phPrstStart : Fld := ⟨0, 1⟩
/-- Field BUSY of `phPrst` (R588). -/
abbrev phPrstBusy : Fld := ⟨1, 1⟩
/-- Field OUT_OF_SERVICE of `phPrst` (R588). -/
abbrev phPrstOutOfService : Fld := ⟨2, 1⟩
/-- Field WHY of `phPrst` (R588). -/
abbrev phPrstWhy : Fld := ⟨8, 4⟩
/-- Field LAST_TIME of `phPrst` (R588). -/
abbrev phPrstLastTime : Fld := ⟨16, 16⟩
/-- Field COUNT of `phPrst` (R588). -/
abbrev phPrstCount : Fld := ⟨32, 16⟩
/-- Field TS_LOST of `phPrst` (R588). -/
abbrev phPrstTsLost : Fld := ⟨48, 1⟩

/-- Address of `phClundo` (R588). -/
def phClundoA (i : Nat) : Nat := 0x30100200240 + 0x1000000 * i
/-- Field USED of `phClundo` (R588). -/
abbrev phClundoUsed : Fld := ⟨0, 15⟩
/-- Field FULL of `phClundo` (R588). -/
abbrev phClundoFull : Fld := ⟨15, 1⟩
/-- Field OVERFLOWS of `phClundo` (R588). -/
abbrev phClundoOverflows : Fld := ⟨16, 16⟩
/-- Field TAINTED of `phClundo` (R588). -/
abbrev phClundoTainted : Fld := ⟨32, 16⟩

/-- Address of `hmFlt` (R589). -/
def hmFltA : Nat := 0x3F000500000
/-- Field WINDOW_MS of `hmFlt` (R589). -/
abbrev hmFltWindowMs : Fld := ⟨0, 10⟩
/-- Field PWRCYC_REQ of `hmFlt` (R589). -/
abbrev hmFltPwrcycReq : Fld := ⟨16, 1⟩
/-- Field L3_COUNT of `hmFlt` (R589). -/
abbrev hmFltL3Count : Fld := ⟨24, 8⟩

/-- Address of `hmDump` (R589). -/
def hmDumpA : Nat := 0x3F000500600
/-- Field LAST of `hmDump` (R589). -/
abbrev hmDumpLast : Fld := ⟨0, 16⟩
/-- Field HELD of `hmDump` (R589). -/
abbrev hmDumpHeld : Fld := ⟨16, 5⟩
/-- Field CAPTURING of `hmDump` (R589). -/
abbrev hmDumpCapturing : Fld := ⟨21, 1⟩
/-- Field SKIPPED of `hmDump` (R589). -/
abbrev hmDumpSkipped : Fld := ⟨24, 8⟩
/-- Field UNREADABLE of `hmDump` (R589). -/
abbrev hmDumpUnreadable : Fld := ⟨32, 16⟩
/-- Field OVERWRITTEN of `hmDump` (R589). -/
abbrev hmDumpOverwritten : Fld := ⟨48, 16⟩

/-- Address of `hmCntbank` (R605). -/
def hmCntbankA (i : Nat) : Nat := 0x3F000600000 + 0x8 * i
/-- Field ENABLED of `hmCntbank` (R605). -/
abbrev hmCntbankEnabled : Fld := ⟨0, 1⟩
/-- Field ENABLES of `hmCntbank` (R605). -/
abbrev hmCntbankEnables : Fld := ⟨16, 16⟩

/-- Address of `hmCntsel` (R605). -/
def hmCntselA (i j : Nat) : Nat := 0x3F000600010 + 0x10 * i + 0x8 * j
/-- Field SEL0 of `hmCntsel` (R605). -/
abbrev hmCntselSel0 : Fld := ⟨0, 16⟩
/-- Field SEL1 of `hmCntsel` (R605). -/
abbrev hmCntselSel1 : Fld := ⟨16, 16⟩
/-- Field SEL2 of `hmCntsel` (R605). -/
abbrev hmCntselSel2 : Fld := ⟨32, 16⟩
/-- Field SEL3 of `hmCntsel` (R605). -/
abbrev hmCntselSel3 : Fld := ⟨48, 16⟩

/-- Address of `hmCntval` (R605). -/
def hmCntvalA (i j : Nat) : Nat := 0x3F000600100 + 0x40 * i + 0x8 * j
/-- Field VALUE of `hmCntval` (R605). -/
abbrev hmCntvalValue : Fld := ⟨0, 64⟩

/-- Address of `hmCameostat0` (R605). -/
def hmCameostat0A (i : Nat) : Nat := 0x3F000600200 + 0x10 * i
/-- Field ARMED of `hmCameostat0` (R605). -/
abbrev hmCameostat0Armed : Fld := ⟨0, 11⟩
/-- Field RUNNING of `hmCameostat0` (R605). -/
abbrev hmCameostat0Running : Fld := ⟨16, 1⟩
/-- Field QUEUED of `hmCameostat0` (R605). -/
abbrev hmCameostat0Queued : Fld := ⟨32, 11⟩

/-- Address of `hmCameostat1` (R605). -/
def hmCameostat1A (i : Nat) : Nat := 0x3F000600208 + 0x10 * i
/-- Field DONE of `hmCameostat1` (R605). -/
abbrev hmCameostat1Done : Fld := ⟨0, 16⟩
/-- Field FAILED of `hmCameostat1` (R605). -/
abbrev hmCameostat1Failed : Fld := ⟨16, 16⟩
/-- Field HELD of `hmCameostat1` (R605). -/
abbrev hmCameostat1Held : Fld := ⟨32, 32⟩

/-- Address of `hmSideband` (R631). -/
def hmSidebandA : Nat := 0x3F000700000
/-- Field POS_ID of `hmSideband` (R631). -/
abbrev hmSidebandPosId : Fld := ⟨0, 4⟩
/-- Field PRESENT of `hmSideband` (R631). -/
abbrev hmSidebandPresent : Fld := ⟨4, 1⟩
/-- Field PWR_EN of `hmSideband` (R631). -/
abbrev hmSidebandPwrEn : Fld := ⟨5, 1⟩
/-- Field RESET_N of `hmSideband` (R631). -/
abbrev hmSidebandResetN : Fld := ⟨6, 1⟩
/-- Field PWRLIM_N of `hmSideband` (R631). -/
abbrev hmSidebandPwrlimN : Fld := ⟨7, 1⟩
/-- Field FORCE_OFF_N of `hmSideband` (R631). -/
abbrev hmSidebandForceOffN : Fld := ⟨8, 1⟩
/-- Field ALERT_N of `hmSideband` (R631). -/
abbrev hmSidebandAlertN : Fld := ⟨9, 1⟩
/-- Field TRAY_SYNC of `hmSideband` (R631). -/
abbrev hmSidebandTraySync : Fld := ⟨10, 1⟩
/-- Field REF_SPREAD of `hmSideband` (R631). -/
abbrev hmSidebandRefSpread : Fld := ⟨11, 1⟩

/-- Address of `hmSeqctl` (R631). -/
def hmSeqctlA : Nat := 0x3F000700008
/-- Field HOLD3 of `hmSeqctl` (R631). -/
abbrev hmSeqctlHold3 : Fld := ⟨0, 1⟩
/-- Field HELD of `hmSeqctl` (R631). -/
abbrev hmSeqctlHeld : Fld := ⟨1, 1⟩
/-- Field TILE_ASSAY_PEND of `hmSeqctl` (R631). -/
abbrev hmSeqctlTileAssayPend : Fld := ⟨2, 1⟩

/-- Address of `hmFwstat` (R631). -/
def hmFwstatA : Nat := 0x3F000700010
/-- Field STAGING of `hmFwstat` (R631). -/
abbrev hmFwstatStaging : Fld := ⟨0, 1⟩
/-- Field STAGED_OK of `hmFwstat` (R631). -/
abbrev hmFwstatStagedOk : Fld := ⟨1, 1⟩
/-- Field STAGED_BAD of `hmFwstat` (R631). -/
abbrev hmFwstatStagedBad : Fld := ⟨2, 1⟩
/-- Field NEXT_BANK of `hmFwstat` (R631). -/
abbrev hmFwstatNextBank : Fld := ⟨3, 1⟩
/-- Field STAGED_BUNDLE of `hmFwstat` (R631). -/
abbrev hmFwstatStagedBundle : Fld := ⟨32, 32⟩

/-- Address of `hmFstop` (R631). -/
def hmFstopA : Nat := 0x3F000700018
/-- Field LAST_SEQ of `hmFstop` (R631). -/
abbrev hmFstopLastSeq : Fld := ⟨0, 32⟩
/-- Field CAUSE of `hmFstop` (R631). -/
abbrev hmFstopCause : Fld := ⟨32, 8⟩
/-- Field MERGED of `hmFstop` (R631). -/
abbrev hmFstopMerged : Fld := ⟨40, 1⟩
/-- Field SLOTS_FREE of `hmFstop` (R631). -/
abbrev hmFstopSlotsFree : Fld := ⟨48, 9⟩

end Sys2Proof.Machine
end

