-- ==== Sys2Proof/Machine/RegReset.lean ====
section
/-!
DEFINITION. Finding a register by its device physical address, its reset word (R11), and what a write of each kind may
change in it (R12 to R14, R546).
-/

namespace Sys2Proof.Machine

/-- The indices that an offset from a register's first copy selects, or none where it selects no copy. -/
def decIdx : List (Nat × Nat) → Nat → Option (List Nat)
  | [], off => if off = 0 then some [] else none
  | (count, stride) :: ds, off =>
    if off / stride < count then (decIdx ds (off % stride)).map (fun is => off / stride :: is) else none

/-- The register that a table lists at an address, with its indices. -/
def regFind : List RegDef → Nat → Option (RegDef × List Nat)
  | [], _ => none
  | d :: ds, a =>
    if d.base ≤ a then
      match decIdx d.dims (a - d.base) with
      | some is => some (d, is)
      | none => regFind ds a
    else regFind ds a

/-- The register at an address (R36, R93 and the register rules). -/
def regAt (a : Nat) : Option (RegDef × List Nat) := regFind regTable a

/-- Level sources of R493: every other source is an occurrence source. -/
def evcIsLevel (s : Nat) : Bool :=
  let g := s / 32
  let b := s % 32
  if 24 ≤ g ∧ g ≤ 47 then b == 29
  else if 73 ≤ g ∧ g ≤ 84 then b == 6 || b == 7
  else if g = 89 then decide (b < 24) && b % 4 == 0
  else if g = 91 then b == 2
  else if g = 92 then b == 1 || b == 2 || b == 4
  else if g = 95 then decide (b < 12)
  else if g = 96 then b == 0 || b == 1
  else false

/-- Sources that R493 assigns; a reserved bit never fires. -/
def evcAssigned (s : Nat) : Bool :=
  let g := s / 32
  let b := s % 32
  if g ≤ 23 then true
  else if g ≤ 47 then decide (b ≤ 30)
  else if g ≤ 72 then true
  else if g ≤ 84 then decide (b ≤ 12)
  else if g ≤ 86 then decide (b ≤ 5)
  else if g ≤ 88 then true
  else if g = 89 then decide (b ≤ 24)
  else if g = 90 then decide (b ≤ 5)
  else if g = 91 then decide (b ≤ 2)
  else if g = 92 then decide (b ≤ 9)
  else if g = 93 then decide (b ≤ 9)
  else if g = 94 then decide (b ≤ 3)
  else if g = 95 then decide (b ≤ 11)
  else if g = 96 then decide (b ≤ 2)
  else if g = 97 then decide (b ≤ 2)
  else false

/-- Default target of a source's group (R493). A reserved group takes the Hasia target 127. -/
def evcDefaultRoute (g : Nat) : Nat :=
  if g ≤ 23 then 44 + g
  else if g ≤ 47 then 44 + (g - 24)
  else if g ≤ 72 then 0
  else if g ≤ 84 then 32 + (g - 73)
  else if g = 87 ∨ g = 88 ∨ g = 96 then 0
  else 127

/-- Groups locked at reset (R493). -/
def evcLocked (g : Nat) : Bool :=
  g == 85 || g == 86 || (decide (89 ≤ g) && decide (g ≤ 95)) || g == 97

/-- The reset word of a register's fields, before index-dependent resets. -/
def resetFields (fs : List RegField) : Word :=
  fs.foldl (fun w f => fset w f.fld f.rst) 0

/-- The reset word of one copy of a register: its fields' resets, with those that depend on the copy's index. -/
def resetWord (d : RegDef) (is : List Nat) : Word :=
  let w := resetFields d.fields
  let last := is.getLastD 0
  match d.name with
  | .pipStat => fset w pipStatPhys (9 * (last / 8) + last % 8)
  | .lxLane =>
    let l := last % 72
    if l < 64 then fset w lxLaneSlot l else fset w lxLaneRole 1
  | .tdSeg => if 768 ≤ last then fset w tdSegOwner 12 else w
  | .phCtxcfg0 => if 64 ≤ last then fset w phCtxcfg0ClaspHi 1023 else w
  | .evcSrccfg =>
    fset (fset (fset w evcSrccfgRoute (evcDefaultRoute (last / 32))) evcSrccfgLevelsrc (b2n (evcIsLevel last)))
      evcSrccfgMode (if evcIsLevel last then 0 else 2)
  | .evcGrpcfg => fset w evcGrpcfgLock (b2n (evcLocked last))
  | _ => w

/-- The reset word at an address; an address no block defines reads as 0 (R36). -/
def regReset (a : Nat) : Word :=
  match regAt a with
  | some (d, is) => resetWord d is
  | none => 0

/-- `w` with the fields of the given access codes taken from `v`. -/
def takeFields (fs : List RegField) (accs : List Acc) (w v : Word) : Word :=
  fs.foldl (fun acc f => if accs.contains f.acc then fset acc f.fld (fget v f.fld) else acc) w

/-- `w` with the W1C bits written as 1 in `v` cleared (R12). -/
def clearW1c (fs : List RegField) (w v : Word) : Word :=
  fs.foldl (fun acc f =>
    if f.acc = .w1c then fset acc f.fld (Nat.land (fget w f.fld) (2 ^ f.fld.width - 1 - fget v f.fld)) else acc) w

/-- Whether a written word differs from the committed one in a field of an access code (R13). -/
def fieldsDiffer (fs : List RegField) (acc : Acc) (w v : Word) : Bool :=
  fs.any (fun f => decide (f.acc = acc) && decide (fget w f.fld ≠ fget v f.fld))

/-- What a plain write leaves in a register: RW fields replaced, W1C bits cleared, everything else kept (R12, R14, R546). -/
def plainWrite (fs : List RegField) (w v : Word) : Word :=
  clearW1c fs (takeFields fs [.rw] w v) v

/-- The named field of a register of which `lo` and `width` are exactly the place. -/
def fieldAt (d : RegDef) (lo width : Nat) : Option RegField :=
  d.fields.find? (fun f => decide (f.fld.lo = lo) && decide (f.fld.width = width))

end Sys2Proof.Machine
end

