-- ==== Sys2Proof/Machine/State.lean ====
section
/-!
DEFINITION. The state of the module as plain data: everything the spec gives it, the queue of waiting commands, and the
machine right after reset. INVENTORY.md lists each field with the rule that names it.
-/

namespace Sys2Proof.Machine

/-- The status codes of R247. -/
inductive Status where
  | ok | okCorrected | droppedBadData | droppedDep | droppedChunk | rejectedFormat | rejectedPerm | rejectedSeq
  | rejectedSealed | abortedFence | abortedSlice | timeout | busy | commitBusy | capClamped | unsupported
  deriving DecidableEq, Repr

/-- Where an accepted command stands (R226, R228): accepted, started, or finished and waiting to retire. -/
inductive Stage where
  | accepted | started | finished
  deriving DecidableEq, Repr

/-- A snapshot of a context's counter bank (R595, R596). -/
structure CntLatch where
  /-- Increments of each counter since the context's initialisation. -/
  tot : List Nat
  /-- Selector changes of each counter. -/
  chg : List Nat
  /-- Times the bank was switched on or off. -/
  tog : Nat
  /-- Whether the bank counted. -/
  on : Bool
  deriving DecidableEq, Repr

/-- A bank that has never counted. -/
def CntLatch.init : CntLatch := ⟨List.replicate 8 0, List.replicate 8 0, 0, false⟩

/-- An accepted, unretired command of a context (R224, R226, R228). -/
structure Cmd where
  /-- The packet in clear, header and parameter units (R219). -/
  packet : List Byte
  /-- CSEQ. -/
  cseq : Nat
  /-- Whether the packet was sealed (R222). -/
  isSealed : Bool
  /-- Stage. -/
  stage : Stage
  /-- Whether its body has been handed to its units or to management and only its end is outstanding. -/
  issued : Bool
  /-- STATUS once finished (R247). -/
  status : Status
  /-- DETAIL once finished (R248). -/
  detail : Nat
  /-- AUX once finished. -/
  aux : Nat
  /-- Hub GTIME of its start (R231). -/
  tStart : Nat
  /-- Hub GTIME of its finish (R231). -/
  tEnd : Nat
  /-- Wait time counted under R244, in ticks. -/
  waited : Nat
  /-- Seed committed when it started (R221). -/
  seed : Nat
  /-- Decoder units it holds (R257), as tile × 32 + unit. -/
  units : List Nat
  /-- Journal slots reserved and not yet written (R175). -/
  slots : Nat
  /-- Whether a corrected error occurred (R247). -/
  corrected : Bool
  /-- Whether its clasp undo entries overflowed (R576). -/
  undoOvf : Bool
  /-- Counter snapshot latched at its start (R231, R595). -/
  cnt0 : CntLatch
  /-- Counter snapshot latched at its end. -/
  cnt1 : CntLatch
  /-- Progress inside the command: chunks, groups or harts still outstanding, by opcode. -/
  left : Nat
  /-- Worst result met so far by its outstanding parts, as a fault code of R106. -/
  fault : Nat
  /-- GTIME of its request to management or of its commit, where it waits for one, plus one. -/
  tReq : Nat
  /-- Whether it started and ran, rather than retiring without executing. -/
  ran : Bool
  /-- Key generation under which its packet was checked (R479). -/
  gen : Nat
  /-- The pair list of a KV_EVICT once read (R279): its bytes, empty where the read failed. -/
  pairs : Option (List Byte)
  /-- GTIME, plus one, since which it waits for units with every other condition met (R257). -/
  unitWait : Nat
  /-- Bytes or chunks its parts have delivered, for AUX. -/
  moved : Nat
  /-- Digest of the bytes a remote transfer sent, for its recording (R386). -/
  outDigest : Option (List Byte)
  /-- Its start was held by a dump, and counted (R599, R605). -/
  held : Bool
  /-- FENCE commands that aborted it and wait for its retirement: context and CSEQ (R299). -/
  fencers : List (Nat × Nat)
  deriving DecidableEq, Repr

/-- A reply that waits for ring space (R225, R235). -/
structure DueReply where
  /-- CSEQ of the packet. -/
  cseq : Nat
  /-- STATUS. -/
  status : Status
  /-- AUX. -/
  aux : Nat
  /-- TAG of the packet. -/
  tag : Nat
  /-- GTIME of the rejection. -/
  time : Nat
  /-- Whether the context's oldest command was already due when it became due (R235). -/
  afterHead : Bool
  deriving DecidableEq, Repr

/-- A binding of the cameo name table (R597). -/
structure CameoName where
  /-- Address of the tensor. -/
  addr : Nat
  /-- Length in bytes. -/
  len : Nat
  /-- Format code. -/
  fmt : Nat
  deriving DecidableEq, Repr

/-- Where a cameo stands (R294, R598, R600). -/
inductive CameoStage where
  | armed | queued | done | failed
  deriving DecidableEq, Repr

/-- An armed, queued or finished cameo (R293, R598 to R600). -/
structure Cameo where
  /-- Identifier. -/
  id : Nat
  /-- NAME. -/
  name : Nat
  /-- SOURCE. -/
  source : Nat
  /-- STEP. -/
  step : Nat
  /-- DST. -/
  dst : Nat
  /-- DST_SIZE. -/
  dstSize : Nat
  /-- DONE field: clasp and increment. -/
  done : Nat
  /-- Stage. -/
  stage : CameoStage
  /-- CSEQ of the triggering command. -/
  cseq : Nat
  /-- GTIME of the trigger. -/
  time : Nat
  /-- The name entry at the trigger. -/
  entry : Option CameoName
  /-- A reset met the dump: it fails. -/
  hit : Bool
  deriving DecidableEq, Repr

/-- One command context (R207 to R212, R236). -/
structure Ctx where
  /-- EXP_CSEQ. -/
  expCseq : BitVec 32
  /-- LAST_DONE_CSEQ. -/
  lastDone : BitVec 32
  /-- NEXT_RSEQ. -/
  nextRseq : BitVec 32
  /-- Last RACK taken. -/
  rack : BitVec 32
  /-- STATE.FENCED. -/
  fenced : Bool
  /-- LAST_FAULT. -/
  lastFault : Nat
  /-- LAST_DETAIL. -/
  lastDetail : Nat
  /-- LAST_FAULT_CSEQ. -/
  lastFaultCseq : BitVec 32
  /-- DROP_PKTS. -/
  dropPkts : Nat
  /-- SEQ_REJ. -/
  seqRej : Nat
  /-- SEAL_REJ. -/
  sealRej : Nat
  /-- ABANDON. -/
  abandons : Nat
  /-- RACK_BAD. -/
  rackBad : Nat
  /-- The latched Context Status Block, 64 bytes (R236). -/
  latch : List Byte
  /-- Bytes of the host-die bridge's unit buffer (R214). -/
  unitBuf : List Byte
  /-- Its byte mask. -/
  unitMask : Nat
  /-- Units of the packet being received, in bytes (R215). -/
  rx : List Byte
  /-- Units of the admitted packet still to come. -/
  rxLeft : Nat
  /-- Units of a dropped packet still to come. -/
  dropLeft : Nat
  /-- GTIME of the last unit's arrival (R217). -/
  lastUnit : Nat
  /-- STALL_MS as the running stall timer took it (R545). -/
  stall : Nat
  /-- Admitted complete packets waiting for their check. -/
  ready : List (List Byte)
  /-- The suppression of R225. -/
  suppress : Bool
  /-- Accepted, unretired commands, oldest first. -/
  cmds : List Cmd
  /-- Rejection replies waiting for ring space (R235). -/
  due : List DueReply
  /-- Cameo name table (R597). -/
  names : Kv (Option CameoName)
  /-- Cameos of the context. -/
  cameos : List Cameo
  /-- Next cameo identifier. -/
  nextCameo : Nat
  /-- RUN and RUN_WAIT commands retired, the step count of R598. -/
  runCount : Nat
  /-- MATMUL and MATMUL_ACC commands retired. -/
  mmCount : Nat
  /-- Counter bank: enabled. -/
  cntOn : Bool
  /-- Counter selectors (R590). -/
  cntSel : List Nat
  /-- Counter values (R590). -/
  cntVal : List Nat
  /-- What a snapshot of the bank holds now (R595). -/
  cntNow : CntLatch
  /-- Session that holds the context, 0 for none (R476). -/
  session : Nat
  /-- Wrap counts of EXP_CSEQ and NEXT_RSEQ since the session opened (R479). -/
  wraps : Nat × Nat
  /-- EVT and other counts of the context kept for its hang window: GTIME of its last progress. -/
  progress : Nat
  deriving DecidableEq, Repr

/-- A context as CTX_RESET or power-on initialises it (R212). -/
def Ctx.init : Ctx where
  expCseq := 1
  lastDone := 0
  nextRseq := 1
  rack := 0
  fenced := false
  lastFault := 0
  lastDetail := 0
  lastFaultCseq := 0
  dropPkts := 0
  seqRej := 0
  sealRej := 0
  abandons := 0
  rackBad := 0
  latch := natLe 64 (1 + 2 ^ 64)
  unitBuf := zeros 64
  unitMask := 0
  rx := []
  rxLeft := 0
  dropLeft := 0
  lastUnit := 0
  stall := 0
  ready := []
  suppress := false
  cmds := []
  due := []
  names := []
  cameos := []
  nextCameo := 1
  runCount := 0
  mmCount := 0
  cntOn := false
  cntSel := List.replicate 8 0
  cntVal := List.replicate 8 0
  cntNow := CntLatch.init
  session := 0
  wraps := (0, 0)
  progress := 0

/-- What the event controller holds of a source beyond its registers (R497 to R511). -/
structure EvcSrc where
  /-- GTIME of the first occurrence counted. -/
  first : Nat
  /-- INFO of the latest occurrence. -/
  info : Nat
  /-- Target at which the source is active. -/
  activeAt : Nat
  /-- ROUTE written and not landed (R503). -/
  pendRoute : Option Nat
  /-- MODE and FILT written and not landed (R498). -/
  pendMode : Option (Nat × Nat)
  /-- Level sensed last, after the glitch filter (R499). -/
  sensed : Bool
  /-- Level on the pin and the GTIME since which it has held (R499). -/
  pin : Bool × Nat
  deriving DecidableEq, Repr

/-- A source with nothing gathered. -/
def EvcSrc.init : EvcSrc := ⟨0, 0, 0, none, none, false, (false, 0)⟩

/-- A matrix engine (R94 to R106). -/
structure Me where
  /-- Queued descriptors, oldest first: 128 bytes, then the pushing context (2 bytes) and its command's CSEQ (4 bytes) (R102). -/
  queue : List (List Byte)
  /-- The descriptor in execution. -/
  cur : Option (List Byte)
  /-- The descriptor that opened the chain (R99). -/
  chain : Option (List Byte)
  /-- Accumulators of the open chain, row-major. -/
  acc : List Accu
  /-- Fault records: code and tag, oldest first, at most 4 (R142). -/
  faults : List (Nat × Nat)
  /-- GTIME at which a reset of its group began (R140). -/
  rstAt : Option Nat
  deriving DecidableEq, Repr

/-- An idle engine. -/
def Me.init : Me := ⟨[], none, none, [], [], none⟩

/-- A message sent and not acknowledged (R133, R318). -/
structure Sent where
  /-- MSGSEQ. -/
  seq : Nat
  /-- GTIME of its first bead. -/
  time : Nat
  /-- Bytes of its chunk. -/
  len : Nat
  /-- ACK_TIMEOUT_US when its timer started (R545). -/
  limit : Nat
  deriving DecidableEq, Repr

/-- A mover (R125 to R134, R141). -/
structure Mover where
  /-- Queued descriptors, oldest first, as an engine's queue holds them (R125). -/
  queue : List (List Byte)
  /-- The descriptor in execution. -/
  cur : Option (List Byte)
  /-- Bytes of the descriptor's stream already delivered. -/
  pos : Nat
  /-- Messages not yet acknowledged (R318). -/
  sent : List Sent
  /-- Worst result of the acknowledgements so far, as a fault code (R133). -/
  result : Nat
  /-- Next MSGSEQ of the stream. -/
  msgseq : Nat
  /-- Command that holds the mover: context and CSEQ plus one, or 0 and 0. -/
  owner : Nat × Nat
  /-- Fault records (R142). -/
  faults : List (Nat × Nat)
  /-- Whether the descriptor's stream is cut short and waits only for acknowledgements. -/
  cut : Bool
  deriving DecidableEq, Repr

/-- An idle mover. -/
def Mover.init : Mover := ⟨[], none, 0, [], 0, 0, (0, 0), [], false⟩

/-- A hart's wait in clasp.wait (R120). -/
structure ClaspWait where
  /-- Destination register. -/
  rd : Nat
  /-- Clasp index. -/
  idx : Nat
  /-- Target. -/
  target : Nat
  /-- GTIME at which it began. -/
  since : Nat
  /-- WAITLIM in µs that applies to it (R545). -/
  limit : Nat
  deriving DecidableEq, Repr

/-- A pip hart (R113 to R124, R139). -/
structure Hart where
  /-- x1 to x31 by number. -/
  x : Kv Nat
  /-- Whether it runs. -/
  running : Bool
  /-- Exception cause of the trap it last took, plus one; 0 for none. -/
  trap : Nat
  /-- The instruction that waits, if one does. -/
  wait : Option ClaspWait
  /-- Exit code of its last pip_exit (R274). -/
  exitCode : Nat
  /-- Command whose kernel it runs: context and CSEQ, with true; or none. -/
  job : Option (Nat × Nat)
  /-- Mapped ranges: virtual address, physical address, length, writable (R273). -/
  maps : List (Nat × Nat × Nat × Bool)
  /-- GTIME at which a reset of the hart began (R139). -/
  rstAt : Option Nat
  /-- Dirty data-cache lines not written back, by address, with their bytes (R114, R139). -/
  dirty : List (Nat × List Byte)
  /-- Address at which the supervisor started it (R273); the instructions it runs are outside the model (log entry 14). -/
  entry : Nat
  /-- The copy of ARGS that a1 points at (R273). -/
  args : List Byte
  /-- The trap it last took was a load of bad data (R111, R275). -/
  badLoad : Bool
  deriving DecidableEq, Repr

/-- A hart after its reset. -/
def Hart.init : Hart := ⟨[], false, 0, none, 0, none, [], none, [], 0, [], false⟩

/-- Blocks an in-place command holds and its journal use (R175 to R180). -/
structure Hold where
  /-- Context. -/
  ctx : Nat
  /-- CSEQ. -/
  cseq : Nat
  /-- 4 KiB block numbers of the in-place regions, with the index of the region of each. -/
  blocks : List (Nat × Nat)
  /-- Slots already written for a block: block and slot. -/
  used : List (Nat × Nat)
  deriving DecidableEq, Repr

/-- A record of an uncorrectable log (R183). -/
structure UeRec where
  /-- Address. -/
  addr : Nat
  /-- KIND. -/
  kind : Nat
  /-- SOURCE. -/
  source : Nat
  deriving DecidableEq, Repr

/-- An entry of a clasp undo log (R575). -/
structure Undo where
  /-- Clasp index. -/
  idx : Nat
  /-- A SET rather than an ADD. -/
  isSet : Bool
  /-- Amount added, for an ADD. -/
  amount : Nat
  /-- VALUE before a SET. -/
  prior : Nat
  /-- TAINT before a SET. -/
  priorTaint : Bool
  /-- Context of the command that made it. -/
  ctx : Nat
  /-- CSEQ of the command that made it. -/
  cseq : Nat
  /-- OBSERVED bit. -/
  observed : Bool
  /-- A later update that remains applied touches the clasp. -/
  touched : Bool
  deriving DecidableEq, Repr

/-- A press group (R184 to R198). -/
structure PressGroup where
  /-- Partition. -/
  part : Nat
  /-- Context. -/
  ctx : Nat
  /-- CSEQ. -/
  cseq : Nat
  /-- Index of the group in its command. -/
  idx : Nat
  /-- Pages: address and tokens. -/
  pages : List (Nat × Nat)
  /-- Runs that a reset ended (R202). -/
  runs : Nat
  /-- Engine that the reset ended it on, plus one. -/
  avoid : Nat
  deriving DecidableEq, Repr

/-- A press engine (R197 to R202). -/
structure Press where
  /-- Group it runs. -/
  group : Option PressGroup
  /-- GTIME at which its reset began. -/
  rstAt : Option Nat
  deriving DecidableEq, Repr

/-- An idle press engine. -/
def Press.init : Press := ⟨none, none⟩

/-- One link end (R305 to R345). -/
structure Link where
  /-- Next FSEQ to send. -/
  txSeq : Nat
  /-- Next FSEQ expected. -/
  rxSeq : Nat
  /-- Last ACKSEQ received plus one. -/
  acked : Nat
  /-- Retry buffer, oldest frame first: FSEQ, beads, and the sealed slice it carries or 0 (R320, R321). -/
  retry : List (Nat × List Bead × Nat)
  /-- A NAK is owed to the peer. -/
  nakOwed : Bool
  /-- XOFF bits received from the peer. -/
  xoffIn : Nat
  /-- XOFF bits sent to the peer. -/
  xoffOut : Nat
  /-- Beads of accepted frames not yet consumed, in order, each with whether a sealed frame carried it. -/
  inbox : List (Bead × Bool)
  /-- Messages queued for sending, in order, each with whether it must leave in sealed frames (R320, R486). -/
  outbox : List (List Bead × Bool)
  /-- GTIME at which ACKSEQ last advanced or a resend ran. -/
  timer : Nat
  /-- Resends in the present 1 ms window and the window's start. -/
  resends : Nat × Nat
  /-- GTIME at which a full retrain began. -/
  retrainAt : Option Nat
  /-- Identity received from the peer: NODE_ID and link. -/
  peer : Option (Nat × Nat)
  /-- GTIME of the last training attempt. -/
  tried : Nat
  /-- Beads discarded under R340 since reset. -/
  discarded : Nat
  /-- Last TIME bead of the neighbour: DEPTH, LOADED as 0 or 1, its T_TX, own GTIME at receipt. -/
  timeAd : Option (Nat × Nat × Nat × Nat)
  /-- Own GTIME of the last TIME bead sent, if any. -/
  stamps : List Nat
  /-- Counts of sealed transmissions and of the last accepted sealed frame plus one (R485). -/
  seals : Nat × Nat
  /-- This end has the smaller SERIAL (R484). -/
  low : Bool
  /-- Consecutive resends of the same oldest frame (R322). -/
  again : Nat
  deriving DecidableEq, Repr

/-- A link that is down. -/
def Link.init : Link := ⟨0, 0, 0, [], false, 0, 0, [], [], 0, (0, 0), none, none, 0, 0, none, [], (0, 0), false, 0⟩

/-- A record of the abort log (R345). -/
structure AbortRec where
  /-- The FD.ABORTLOG word without POP and LOST. -/
  word : Word
  /-- Origin GTIME. -/
  time : Nat
  deriving DecidableEq, Repr

/-- A reduction or pass-through chunk gathered at this module (R352 to R360). -/
structure FoldIn where
  /-- Directory entry. -/
  entry : Nat
  /-- Collective number. -/
  coll : Nat
  /-- Chunk number. -/
  chunk : Nat
  /-- Input: SRANK. -/
  srank : Nat
  /-- The head bead's payload. -/
  pay : List Byte
  /-- Chunk bytes. -/
  data : List Byte
  deriving DecidableEq, Repr

/-- A local member of a collective that runs at this module (R361). -/
structure CollMember where
  /-- Context. -/
  ctx : Nat
  /-- CSEQ. -/
  cseq : Nat
  /-- Output chunks it is owed that are neither written nor failed. -/
  left : Nat
  /-- CHUNK, MISMATCH and BADSRC of its END report (R365). -/
  bits : Nat
  /-- TIMEOUT_MS when its timer started (R545). -/
  limit : Nat
  deriving DecidableEq, Repr

/-- State of one collective at this module (R357 to R370). -/
structure Coll where
  /-- Directory entry. -/
  entry : Nat
  /-- Collective number. -/
  coll : Nat
  /-- Tree group. -/
  group : Nat
  /-- OP, FMT, COUNT, TREE, ROOT and COLL_SEQ of the first input or local start; OP 5 stands for BARRIER (R358). -/
  ref : Option (List Nat)
  /-- Fields that disagree have been met. -/
  mism : Bool
  /-- Local members. -/
  members : List CollMember
  /-- BAR_UP payloads received, by child link. -/
  kids : List (Nat × List Byte)
  /-- The module has reported to its parent, or has stopped driving TRAY_SYNC. -/
  sentUp : Bool
  /-- It runs on TRAY_SYNC (R369). -/
  tray : Bool
  /-- RELEASE_AT of a barrier; for a barrier on TRAY_SYNC, the GTIME of the detected rise. -/
  release : Option Nat
  /-- Output chunks, head payload and bytes, kept for member partitions that have not started (R339). -/
  kept : List (List Byte × List Byte)
  deriving DecidableEq, Repr

/-- A configuration transaction (R287, R551). -/
structure Txn where
  /-- Number. -/
  num : Nat
  /-- Scope word of R286. -/
  scope : Nat
  /-- Context that opened it. -/
  opener : Nat
  /-- Staged fields: address, lowest bit, width, value. -/
  staged : List (Nat × Nat × Nat × Nat)
  /-- GTIME of its last use. -/
  used : Nat
  /-- Commit in progress: the committing command's CSEQ and the commit's start. -/
  commit : Option (Nat × Nat)
  deriving DecidableEq, Repr

/-- Recording or replay of one partition (R383 to R391). -/
structure Recorder where
  /-- Recording: context and active. -/
  recActive : Bool
  /-- Context recorded. -/
  recCtx : Nat
  /-- Ring address. -/
  base : Nat
  /-- Ring size in bytes. -/
  size : Nat
  /-- WHAT mask. -/
  what : Nat
  /-- Producer offset. -/
  prod : Nat
  /-- Tail offset. -/
  tail : Nat
  /-- Next record number. -/
  rsn : Nat
  /-- Bytes of the record area in use, from TAIL to PROD. -/
  used : Nat
  /-- FLAGS of the ring header (R384). -/
  flags : Nat
  /-- Next capture entry (R386). -/
  capNext : Nat
  /-- `time` reads recorded or replayed so far, by global hart number (R385, R389). -/
  reads : Kv Nat
  /-- Replay active. -/
  repActive : Bool
  /-- Replay target. -/
  repCtx : Nat
  /-- Replay source ring address and size. -/
  src : Nat × Nat
  /-- Offset in the record area of the next record to feed. -/
  cursor : Nat
  /-- Offset up to which external records have been applied. -/
  applied : Nat
  /-- Recorded CSEQ minus the target's, modulo 2^32. -/
  delta : Nat
  /-- Packets fed. -/
  fed : Nat
  /-- The last packet has been admitted. -/
  drained : Bool
  /-- Replay clasp table (R388). -/
  clasps : Kv Nat
  /-- Replay clasp taints. -/
  taints : Kv Nat
  /-- Context and CSEQ of the REPLAY_START command. -/
  owner : Nat × Nat
  /-- Retirements compared. -/
  compared : Nat
  deriving DecidableEq, Repr

/-- No recording and no replay. -/
def Recorder.init : Recorder :=
  ⟨false, 0, 0, 0, 0, 0, 0, 0, 0, 0, 0, [], false, 0, (0, 0), 0, 0, 0, 0, false, [], [], (0, 0), 0⟩

/-- A hint in force (R410). -/
structure Hint where
  /-- H in µW. -/
  target : Nat
  /-- GTIME at which hint_level starts to move. -/
  startAt : Nat
  /-- GTIME at which the hint ends, plus one; 0 for until the next hint. -/
  endAt : Nat
  deriving DecidableEq, Repr

/-- Power control of one partition (R395 to R424); levels and caps are in µW (log entry 31). -/
structure Power where
  /-- Smoothed level (R402). -/
  level : Int
  /-- The next estimate step is the first since the tile domains came on (R402). -/
  fresh : Bool
  /-- hint_level (R410). -/
  hintLevel : Int
  /-- The hint in force. -/
  hint : Option Hint
  /-- GTIME of the last keepalive (R424). -/
  keep : Nat
  /-- The hub's safe fall-back is active (R424). -/
  safe : Bool
  /-- The factor of R412 in units of 2^-32. -/
  kp : Nat
  /-- Host cap in W, if set (R415). -/
  hostCap : Option Nat
  /-- HOST_ON of R395. -/
  hostOn : Bool
  /-- Thermal cap, if in force (R421). -/
  thermal : Option Nat
  /-- Management cycles in a row with every die of the owner at or below 102 °C (R421). -/
  cool : Nat
  /-- Effective cap of the last allocation (R411). -/
  eff : Nat
  /-- Sum and count of the estimates since the last sample (R416). -/
  est : Nat × Nat
  /-- Measured power of the last samples in 0.1 W, newest first, at most 5 (R412). -/
  meas : List Nat
  /-- GTIME since which model and measurement disagree, or agree while DIVERGENT is set (R416). -/
  condAt : Option Nat
  /-- The descent of R396 runs. -/
  descend : Bool
  deriving DecidableEq, Repr

/-- Power control of a partition at reset. -/
def Power.init : Power where
  level := 0
  fresh := false
  hintLevel := 0
  hint := none
  keep := 0
  safe := false
  kp := 4294967296
  hostCap := none
  hostOn := true
  thermal := none
  cool := 0
  eff := 0
  est := (0, 0)
  meas := []
  condAt := none
  descend := false

/-- Module-level power state (R393 to R427). -/
structure ModPower where
  /-- 48 V input in mV. -/
  inputMv : Nat
  /-- Undervoltage limit of R393 in mV, if active. -/
  uvMv : Option Nat
  /-- The over-power comparator drives the emergency input (R394). -/
  overPower : Bool
  /-- GTIME at which the input was last above 4,400 W. -/
  overAt : Nat
  /-- PWRLIM_N is low (R418). -/
  pwrlim : Bool
  /-- GTIME of the last edge of PWRLIM_N. -/
  pwrlimAt : Nat
  /-- An emergency state is open (R419). -/
  emerg : Bool
  /-- Hasia has taken the cause to be cooling loss (R418). -/
  assumed : Bool
  /-- Partitions shed, the first one first (R422). -/
  shed : List Nat
  /-- GTIME of the last shed or restore. -/
  shedAt : Nat
  /-- GTIME at which a die last read 100 °C or above or the cooling cap was in force (R422). -/
  hotAt : Nat
  /-- GTIME of the last tray heartbeat (R424). -/
  trayHb : Nat
  /-- Samples of the last 10 ms, newest first: every channel but 21, channel 21, common power, in 0.1 W (R398, R411). -/
  recent : List (Nat × Nat × Nat)
  /-- GTIME of the last sample of each channel (R399). -/
  railAt : Kv Nat
  /-- GTIME of the last implausible sample (R417). -/
  badAt : Nat
  /-- Die whose thermal trip is latched in the AO domain, if any (R423). -/
  trip : Option Nat
  /-- Operating point in force (R45). -/
  op : Nat
  /-- GTIME of the last turn-on of a partition's tile domains, plus one (R622). -/
  lastOn : Nat
  deriving DecidableEq, Repr

/-- Module power at reset. -/
def ModPower.init : ModPower where
  inputMv := 0
  uvMv := none
  overPower := false
  overAt := 0
  pwrlim := false
  pwrlimAt := 0
  emerg := false
  assumed := false
  shed := []
  shedAt := 0
  hotAt := 0
  trayHb := 0
  recent := []
  railAt := []
  badAt := 0
  trip := none
  op := 5
  lastOn := 0

/-- An output that the active Hasia computed and has not released (R433). -/
inductive HeldOut where
  /-- A register field. -/
  | fld (addr lo width v : Nat)
  /-- A keepalive of a hub. -/
  | keep (p : Nat)
  /-- A tray event record of 8 bytes. -/
  | note (b : List Byte)
  /-- A management reply: RSEQ and bytes. -/
  | reply (rseq : Nat) (b : List Byte)
  /-- The decision on a request of steward firmware: context, CSEQ, status and AUX. -/
  | done (ctx cseq : Nat) (st : Status) (aux : Nat)
  deriving DecidableEq, Repr

/-- A Hasia die (R430 to R449). -/
structure Hasia where
  /-- HM.DIESTAT.STATE: 0 off, 1 booting, 2 self-test, 3 standby, 4 active, 5 failed; 6 stands for a die declared silent. -/
  st : Nat
  /-- GTIME of its last heartbeat (R438). -/
  hb : Nat
  /-- GTIMEs of its restarts (R446). -/
  restarts : List Nat
  /-- It lost ownership by a takeover and may take it back (R447). -/
  mayReturn : Bool
  /-- GTIME of its last take-back, plus one (R447). -/
  tookBack : Nat
  deriving DecidableEq, Repr

/-- A die that is off. -/
def Hasia.init : Hasia := ⟨0, 0, [], false, 0⟩

/-- A state image (R436): what the next owner takes over. The management context, its replies, the requests, the port and the
tray records pass on exactly once (R435, R442, R450), so the model keeps one copy of them outside the image. -/
structure Image where
  /-- Sequence: the cycle number. -/
  seq : Nat
  /-- Power, port and timer registers of the management-only space. -/
  regs : List (Nat × Word)
  /-- Power control of the partitions. -/
  power : Kv Power
  /-- Module power. -/
  modPower : ModPower
  /-- Outputs computed and not released. -/
  held : List HeldOut
  deriving DecidableEq, Repr

/-- Management and ownership (R430 to R459). -/
structure Mgmt where
  /-- HM-A. -/
  a : Hasia
  /-- HM-B. -/
  b : Hasia
  /-- Ownership latch: the die that holds it, if any (R430). -/
  latch : Option Nat
  /-- Number of the present management cycle (R433). -/
  cycle : Nat
  /-- GTIME of the last cycle boundary. -/
  cycleAt : Nat
  /-- GTIME of the last boundary at which outputs were released (R441). -/
  releasedAt : Nat
  /-- The state image that waits for its acknowledgement, and the GTIME of its sending (R433). -/
  sent : Option (Image × Nat)
  /-- The latest acknowledged image (R437). -/
  image : Option Image
  /-- Sequence of the last image the standby accepted, plus one. -/
  accepted : Nat
  /-- Consecutive discarded images (R437). -/
  badRun : Nat
  /-- Consecutive acknowledged images, counted for STANDBY_OK and the take-back (R437, R447). -/
  ackRun : Nat
  /-- A swap is ordered for the next boundary (R445). -/
  swapReq : Bool
  /-- Outputs held for the end of the present cycle, in order (R433). -/
  held : List HeldOut
  /-- LIVE writes to HM registers waiting for the cycle boundary: address and word (R545). -/
  live : List (Nat × Nat)
  /-- Requests of steward firmware waiting for a decision: context and CSEQ (R436). -/
  requests : List (Nat × Nat)
  /-- Held replies of the management context: RSEQ and bytes, at most 64 (R452). -/
  replies : List (Nat × List Byte)
  /-- RSEQs of the replies not yet read (R451). -/
  unread : List Nat
  /-- Tray event queue: records of 8 bytes, at most 256 (R453). -/
  events : List (List Byte)
  /-- Every tray event record since module reset, as the event log keeps them (R454). -/
  log : List (List Byte)
  /-- I3C dynamic address, 0 for none (R450). -/
  i3c : Nat
  /-- In-band interrupts pending, oldest first (R453). -/
  ibi : List Nat
  /-- Telemetry block of 128 bytes (R455). -/
  telem : List Byte
  /-- Corrected reads counted at the last telemetry block, module-wide (R455). -/
  ceLast : Nat
  /-- The AO wake cycle has been used (R449). -/
  aoUsed : Bool
  /-- GTIME of the last daily wear sample (R457). -/
  wearAt : Nat
  deriving DecidableEq, Repr

/-- Management at reset. -/
def Mgmt.init : Mgmt where
  a := Hasia.init
  b := Hasia.init
  latch := none
  cycle := 0
  cycleAt := 0
  releasedAt := 0
  sent := none
  image := none
  accepted := 0
  badRun := 0
  ackRun := 0
  swapReq := false
  held := []
  live := []
  requests := []
  replies := []
  unread := []
  events := []
  log := []
  i3c := 0
  ibi := []
  telem := zeros 128
  ceLast := 0
  aoUsed := false
  wearAt := 0

/-- A tenant session (R476 to R482). -/
structure Session where
  /-- Session number. -/
  id : Nat
  /-- Member partitions. -/
  parts : List Nat
  /-- Member contexts. -/
  ctxs : List Nat
  /-- Session secret of each key generation, the first one first (R481). -/
  secrets : List (List Byte)
  /-- Transcript digest. -/
  transcript : List Byte
  deriving DecidableEq, Repr

/-- Locket (R460 to R491). -/
structure Locket where
  /-- Open sessions. -/
  sessions : List Session
  /-- Next session number. -/
  nextSession : Nat
  /-- Memory key of each confidential partition (R168). -/
  memKeys : Kv (List Byte)
  /-- Link exchange windows LK.LINKX, by link. -/
  linkx : Kv (List Byte)
  /-- Link keys by link: the key that both directions use, installed or pending (R484). -/
  linkKeys : Kv (List Byte)
  /-- The secret that this end encapsulated to the peer, between steps 1 and 2 of the exchange, by link. -/
  linkSs : Kv (List Byte)
  /-- Debug authorisation window. -/
  dbgAuth : List Byte
  /-- Nonce outstanding. -/
  nonceOn : Bool
  /-- Boot record. -/
  bootRec : List Byte
  /-- Per-boot key pair: public and private part. -/
  bootKey : List Byte × List Byte
  /-- Neither copy of the non-volatile leaf counter can be written (R468). -/
  leafBad : Bool
  deriving DecidableEq, Repr

/-- Locket at reset. -/
def Locket.init : Locket := ⟨[], 1, [], [], [], [], zeros 8192, false, zeros 12288, ([], []), false⟩

/-- A fault handling or queue of an error domain (R556 to R565). -/
structure Domain where
  /-- Queue of records, oldest first, at most 256, each with the GTIME of its fault. -/
  queue : List (ErrRec × Nat)
  /-- Level of the handling, if one has been opened. -/
  level : Option Nat
  /-- The record that opened the handling or raised it to its level. -/
  cause : ErrRec
  /-- The handling was raised (R558). -/
  raised : Bool
  /-- The capture of the level is over and its action may run (R581). -/
  acting : Bool
  /-- GTIME at which the action began. -/
  since : Nat
  /-- The action of the level has completed. -/
  done : Bool
  /-- Commands that the action ends: context and CSEQ. -/
  ends : List (Nat × Nat)
  deriving DecidableEq, Repr

/-- A domain without faults. -/
def Domain.init : Domain := ⟨[], none, ⟨0, 0, 0, 0, 0, 0, 0⟩, false, false, 0, false, []⟩

/-- A crash dump (R581 to R584). -/
structure Dump where
  /-- Number. -/
  num : Nat
  /-- Error domain. -/
  dom : Nat
  /-- Bytes. -/
  body : List Byte
  deriving DecidableEq, Repr

/-- A capture in progress (R581, R582). -/
structure Capture where
  /-- Domain. -/
  dom : Nat
  /-- GTIME of its start. -/
  since : Nat
  /-- Dies marked unreadable. -/
  unreadable : List Nat
  deriving DecidableEq, Repr

/-- The bezel of a hub beyond PH.BEZEL (R566 to R568). -/
structure Bezel where
  /-- A reset of the partition holds it fenced. -/
  resetHold : Bool
  /-- A fence order waits to be obeyed at the end of the reset. -/
  fencePend : Bool
  deriving DecidableEq, Repr

/-- An MCB image (R540): the generation and the field records, overlay, wear and tarnish. -/
structure McbImage where
  /-- GEN. -/
  gen : Nat
  /-- Valid by MAGIC, VERSION, CHECK and SERIAL (R542). -/
  valid : Bool
  /-- Field records: address, lowest bit, width, value. -/
  recs : List (Nat × Nat × Nat × Nat)
  /-- Overlay entries. -/
  overlay : List Word
  /-- BOOTREC: FORCE_FULL_NEXT and STEP8_PENDING. -/
  bootrec : Bool × Bool
  /-- Wear values, one word per item. -/
  wear : List Word
  /-- Tarnish values, one word per die. -/
  tarnish : List Word
  /-- Daily samples of each wear item: day and *w* in thousandths, oldest first, at most 128. -/
  hist : List (List (Nat × Nat))
  /-- HM.FSTOP.LAST_SEQ, a field with Reset MCB that R540 gives no place (log entry 32). -/
  lastSeq : Nat
  deriving DecidableEq, Repr

/-- The image of the factory defaults: empty overlay, boot record and wear record (R542). -/
def McbImage.empty : McbImage := ⟨0, true, [], [], (false, false), [], [], [], 0⟩

/-- The module flash (R539, R629, R630, R626). -/
structure Flash where
  /-- MCB copy A. -/
  mcbA : McbImage
  /-- MCB copy B. -/
  mcbB : McbImage
  /-- Firmware banks: bundle version and whether it verifies. -/
  banks : List (Nat × Bool)
  /-- Staged bundle: bank, version and verified. -/
  staged : Option (Nat × Nat × Bool)
  /-- Next firmware bank as the tray or the boot rules chose it (R630). -/
  next : Nat
  /-- Programmed fast-stop log slots, in order: 4,096 bytes each (R626). -/
  slots : List (List Byte)
  /-- A cause waits for an MCB write (R544). -/
  due : Bool
  deriving DecidableEq, Repr

/-- Where the module stands in its start (R516 to R535). -/
structure Boot where
  /-- MEMVALID as the AO domain keeps it. -/
  memvalid : Bool
  /-- The start is held at a step, 0 for none. -/
  held : Nat
  /-- The module has reported ready since its last cold start (R58). -/
  everReady : Bool
  /-- GTIME at which the start began. -/
  since : Nat
  /-- GTIME, plus one, since which it waits for time at step 12 (R531). -/
  timeWait : Nat
  /-- Outcomes of the start in progress (log entry 11). -/
  fails : List Nat
  /-- Boot failure: Locket holds every other die in reset (R463). -/
  failed : Bool
  /-- READY and CAUSE that step 13 is to report (R532). -/
  result : Nat × Nat
  /-- STEP8_PENDING of the boot record (R540). -/
  step8 : Bool
  /-- Partitions whose tile assay waits for their tile domains (R622). -/
  assayPend : Nat
  /-- Contexts take packets: READY or READY_DEGRADED has been reported since the start (R521). -/
  open_ : Bool
  /-- The hub that ADMIN_HUB names is lost (R571). -/
  adminLost : Bool
  /-- Partitions with a failed UCIe link, and with a faulty power domain, since the start (R570). -/
  lost : Nat × Nat
  /-- The module went off by a fast stop or a thermal trip, and stays off until PWR_EN has been low and high again (R618, R624). -/
  stopped : Bool
  /-- GTIME, plus one, since which PWR_EN has been low, 0 while it is high. -/
  lowAt : Nat
  deriving DecidableEq, Repr

/-- A module that has not started. -/
def Boot.init : Boot := ⟨false, 0, false, 0, 0, [], false, (0, 0), false, 0, false, false, (0, 0), false, 0⟩

/-- The flash at reset. -/
def Flash.init : Flash := ⟨McbImage.empty, McbImage.empty, [(1, true), (1, true)], none, 0, [], false⟩

/-- The pins and board signals (R606 to R631). -/
structure Pins where
  /-- 48 V applied within its window. -/
  v48 : Bool
  /-- PRESENT_N closed. -/
  present : Bool
  /-- PWR_EN. -/
  pwrEn : Bool
  /-- RESET_N high. -/
  resetN : Bool
  /-- FORCE_OFF_N high. -/
  forceOffN : Bool
  /-- PWR_GOOD output. -/
  pwrGood : Bool
  /-- THERMTRIP_N asserted. -/
  thermtrip : Bool
  /-- ALERT_N asserted. -/
  alert : Bool
  /-- TRAY_SYNC driven low by this module. -/
  traySync : Bool
  /-- Lasers on. -/
  lasers : Bool
  deriving DecidableEq, Repr

/-- The pins before power is applied. -/
def Pins.init : Pins := ⟨false, false, false, true, true, false, false, false, false, false⟩

/-- The answer of the last read command. -/
inductive Resp where
  /-- No answer. -/
  | none
  /-- Bytes read. -/
  | bytes (bs : List Byte)
  /-- An access fault (R39). -/
  | fault
  deriving DecidableEq, Repr

/-- Why the machine stops: the spec describes no condition that ends the block, so no meaning answers a fault. -/
inductive Fault where
  /-- No meaning raises it; a state in which the module is off is a state like any other (log entry 5). Safe. -/
  | neverRaised
  deriving DecidableEq, Repr

/-- Why a command has no answer. -/
inductive Refusal where
  /-- A command whose meaning is not written, by its mnemonic. Raised by exec's arms alone. Safe. -/
  | notModelled (mnemonic : String)
  deriving DecidableEq, Repr

/-- The state of the module. -/
structure State where
  /-- GTIME (R57, R58; log entry 3). -/
  gtime : Nat
  /-- Register words that differ from their reset, by device physical address (R36). -/
  regs : Kv Word
  /-- Bytes of HBM, journal, tier and tile stores that are not 0, by device physical address (R31, log entry 2). -/
  mem : Kv Byte
  /-- Codewords whose stored bytes differ from a valid codeword of their data, by address div 64 (R151). -/
  cwErr : Kv Nat
  /-- Tile-store words in error, by address div 8: 1 one bit, 2 uncorrectable (R110, R111). -/
  tsBad : Kv Nat
  /-- Tiles whose store was lost to a power cycle: every word whose entry in `tsBad` is unlisted is marked, and 3 stands for a
  word written since (R573). -/
  tsLost : Kv Bool
  /-- Command contexts 0 to 800 (R207). -/
  ctxs : Kv Ctx
  /-- Clasp undo log of each partition (R575). -/
  undo : Kv (List Undo)
  /-- In-place commands that hold blocks (R176). -/
  holds : List Hold
  /-- Next journal GEN of each partition (R172, R173). -/
  jgen : Kv Nat
  /-- Uncorrectable logs, hubs 0–11 and tier dies 12–13, oldest first (R183). -/
  uelog : Kv (List UeRec)
  /-- Corrected reads in the present second by unit, with the second's number (R162). -/
  ceSec : Kv (Nat × Nat)
  /-- GTIME at which a channel's retrain began, by die × 32 + unit, plus one (R162). -/
  retrain : Kv Nat
  /-- GTIME at which the zero fill of a segment or partition began: segment, or 1,024 + partition (R150, R169). -/
  fills : Kv (Option Nat)
  /-- Matrix engines by tile × 8 + logical number (R94). -/
  mes : Kv Me
  /-- Movers by tile × 8 + number (R125). -/
  movers : Kv Mover
  /-- Harts by tile × 32 + number (R113). -/
  harts : Kv Hart
  /-- Next row of each bank's scrub by tile × 40 + bank (R112). -/
  tsScrub : Kv Nat
  /-- Press-group queues of a die and partition, by die × 16 + partition (R197). -/
  pressQ : Kv (List PressGroup)
  /-- Round-robin position of each die (R197): partition and groups served in its turn. -/
  pressRr : Kv (Nat × Nat)
  /-- Press engines by die × 16 + engine. -/
  presses : Kv Press
  /-- Links 0 to 5 (R305). -/
  links : Kv Link
  /-- Abort log of each fabric die (R345). -/
  aborts : Kv (List AbortRec)
  /-- Chunks gathered for folding (R352). -/
  folds : List FoldIn
  /-- Collectives open at this module (R357). -/
  colls : List Coll
  /-- Open transactions (R551). -/
  txns : List Txn
  /-- Next transaction number (R551). -/
  nextTxn : Nat
  /-- Recording and replay of each partition (R383). -/
  recorders : Kv Recorder
  /-- Power control of each partition. -/
  power : Kv Power
  /-- Module power. -/
  modPower : ModPower
  /-- Management and ownership. -/
  mgmt : Mgmt
  /-- Wear histories by item: day and value, oldest first (R456). -/
  wear : Kv (List (Nat × Nat))
  /-- Locket. -/
  locket : Locket
  /-- Event sources beyond their registers. -/
  evc : Kv EvcSrc
  /-- End of a group's hold-off, plus one (R505). -/
  evcHold : Kv Nat
  /-- Record number of each strand (R511). -/
  evcSeq : Kv Nat
  /-- Power-domain switches that are on (R26). -/
  domains : Kv Bool
  /-- Where the module stands in its start. -/
  boot : Boot
  /-- Flash. -/
  flash : Flash
  /-- Error domains 0 to 25 (R556). -/
  errs : Kv Domain
  /-- Crash dumps, oldest first, at most 16 (R581). -/
  dumps : List Dump
  /-- Captures in progress. -/
  captures : List Capture
  /-- Triggered dumps of each partition in trigger order: context and identifier (R599). -/
  dumpQ : Kv (List (Nat × Nat))
  /-- Mask of the logical MEs absent in a tile (R135, R137). -/
  meAbsent : Kv Nat
  /-- Mask of the logical harts absent in a tile. -/
  pipAbsent : Kv Nat
  /-- Mask of the movers of a tile whose ownership change waits for an empty queue (R142). -/
  mvOwnPend : Kv Nat
  /-- Bezels by partition. -/
  bezels : Kv Bezel
  /-- GTIME of the last progress of a unit, by unit key (R562). -/
  windows : Kv Nat
  /-- GTIME of the last kick of each steward core, by hub × 2 + core (R564). -/
  wdog : Kv Nat
  /-- Pins. -/
  pins : Pins
  /-- Free values drawn so far: the model's own counter (log entry 7). -/
  free : Nat
  /-- Answer of the last read command (log entry 8). -/
  resp : Resp
  /-- Commands waiting, first in first out. -/
  pending : List Instr
  deriving DecidableEq, Repr

/-- The module right after reset: every register at its Reset column, memory with nothing listed, every queue empty. -/
def State.reset : State where
  gtime := 0
  regs := []
  mem := []
  cwErr := []
  tsBad := []
  tsLost := []
  ctxs := []
  undo := []
  holds := []
  jgen := []
  uelog := []
  ceSec := []
  retrain := []
  fills := []
  mes := []
  movers := []
  harts := []
  tsScrub := []
  pressQ := []
  pressRr := []
  presses := []
  links := []
  aborts := []
  folds := []
  colls := []
  txns := []
  nextTxn := 1
  recorders := []
  power := []
  modPower := ModPower.init
  mgmt := Mgmt.init
  wear := []
  locket := Locket.init
  evc := []
  evcHold := []
  evcSeq := []
  domains := []
  boot := Boot.init
  flash := Flash.init
  errs := []
  dumps := []
  captures := []
  dumpQ := []
  meAbsent := []
  pipAbsent := []
  mvOwnPend := []
  bezels := []
  windows := []
  wdog := []
  pins := Pins.init
  free := 0
  resp := .none
  pending := []

end Sys2Proof.Machine
end

