-- ==== Sys2Proof/Machine/Ops.lean ====
section
/-!
DEFINITION. The named operations over registers, memory, clasps and event sources that the commands' meanings share.
-/

namespace Sys2Proof.Machine

/-! ### Registers (R11 to R14, R36) -/

/-- The word held at a register's address. -/
def State.reg (s : State) (a : Nat) : Word := kvGet (regReset a) s.regs a

/-- `s` with the word at a register's address replaced. -/
def State.setReg (s : State) (a : Nat) (w : Word) : State :=
  { s with regs := kvSet (regReset a) s.regs a w }

/-- The value of a register field. -/
def State.fld (s : State) (a : Nat) (f : Fld) : Nat := fget (s.reg a) f

/-- `s` with one register field replaced. -/
def State.setFld (s : State) (a : Nat) (f : Fld) (v : Nat) : State := s.setReg a (fset (s.reg a) f v)

/-- `s` with a register count raised by `n`, saturating at the field's largest value. -/
def State.addSat (s : State) (a : Nat) (f : Fld) (n : Nat) : State :=
  s.setFld a f (satAdd (2 ^ f.width - 1) (s.fld a f) n)

/-- `s` with a register count raised by `n`, wrapping at the field's width. -/
def State.addWrap (s : State) (a : Nat) (f : Fld) (n : Nat) : State := s.setFld a f (s.fld a f + n)

/-- The value of a one-bit field as a truth value. -/
def State.flag (s : State) (a : Nat) (f : Fld) : Bool := decide (s.fld a f ≠ 0)

/-! ### Sub-states by index -/

/-- Context `c`. -/
def State.ctx (s : State) (c : Nat) : Ctx := kvGet Ctx.init s.ctxs c

/-- `s` with context `c` replaced. -/
def State.setCtx (s : State) (c : Nat) (x : Ctx) : State := { s with ctxs := kvSet Ctx.init s.ctxs c x }

/-- `s` with context `c` changed. -/
def State.modCtx (s : State) (c : Nat) (f : Ctx → Ctx) : State := s.setCtx c (f (s.ctx c))

/-- Matrix engine `m` of tile `t`. -/
def State.me (s : State) (t m : Nat) : Me := kvGet Me.init s.mes (8 * t + m)

/-- `s` with a matrix engine replaced. -/
def State.setMe (s : State) (t m : Nat) (x : Me) : State := { s with mes := kvSet Me.init s.mes (8 * t + m) x }

/-- Mover `m` of tile `t`. -/
def State.mover (s : State) (t m : Nat) : Mover := kvGet Mover.init s.movers (8 * t + m)

/-- `s` with a mover replaced. -/
def State.setMover (s : State) (t m : Nat) (x : Mover) : State :=
  { s with movers := kvSet Mover.init s.movers (8 * t + m) x }

/-- Hart `h` of tile `t`. -/
def State.hart (s : State) (t h : Nat) : Hart := kvGet Hart.init s.harts (32 * t + h)

/-- `s` with a hart replaced. -/
def State.setHart (s : State) (t h : Nat) (x : Hart) : State :=
  { s with harts := kvSet Hart.init s.harts (32 * t + h) x }

/-- Link `n`. -/
def State.link (s : State) (n : Nat) : Link := kvGet Link.init s.links n

/-- `s` with a link replaced. -/
def State.setLink (s : State) (n : Nat) (x : Link) : State := { s with links := kvSet Link.init s.links n x }

/-- Press engine `e` of tier die `d`. -/
def State.press (s : State) (d e : Nat) : Press := kvGet Press.init s.presses (16 * d + e)

/-- `s` with a press engine replaced. -/
def State.setPress (s : State) (d e : Nat) (x : Press) : State :=
  { s with presses := kvSet Press.init s.presses (16 * d + e) x }

/-- Power control of partition `p`. -/
def State.pwr (s : State) (p : Nat) : Power := kvGet Power.init s.power p

/-- `s` with a partition's power control replaced. -/
def State.setPwr (s : State) (p : Nat) (x : Power) : State := { s with power := kvSet Power.init s.power p x }

/-- Recording and replay of partition `p`. -/
def State.recorder (s : State) (p : Nat) : Recorder := kvGet Recorder.init s.recorders p

/-- `s` with a partition's recording and replay replaced. -/
def State.setRecorder (s : State) (p : Nat) (x : Recorder) : State :=
  { s with recorders := kvSet Recorder.init s.recorders p x }

/-- Error domain `d`. -/
def State.dom (s : State) (d : Nat) : Domain := kvGet Domain.init s.errs d

/-- `s` with an error domain replaced. -/
def State.setDom (s : State) (d : Nat) (x : Domain) : State := { s with errs := kvSet Domain.init s.errs d x }

/-- Bezel of partition `p`. -/
def State.bezel (s : State) (p : Nat) : Bezel := kvGet ⟨false, false⟩ s.bezels p

/-- `s` with a bezel replaced. -/
def State.setBezel (s : State) (p : Nat) (x : Bezel) : State :=
  { s with bezels := kvSet ⟨false, false⟩ s.bezels p x }

/-- What the event controller holds of source `n`. -/
def State.evSrc (s : State) (n : Nat) : EvcSrc := kvGet EvcSrc.init s.evc n

/-- `s` with a source's extra state replaced. -/
def State.setEvSrc (s : State) (n : Nat) (x : EvcSrc) : State := { s with evc := kvSet EvcSrc.init s.evc n x }

/-- `s` with the answer of a read command. -/
def State.answer (s : State) (r : Resp) : State := { s with resp := r }

/-- A fresh unspecified number, and `s` with the counter advanced (log entry 7). -/
def State.drawNat (s : State) : Nat × State := (Config.freeNat s.free, { s with free := s.free + 1 })

/-- `n` fresh unspecified bytes (log entry 7). -/
def State.drawBytes (s : State) (n : Nat) : List Byte × State :=
  ((List.range n).map (Config.freeByte s.free), { s with free := s.free + 1 })

/-- `n` bytes of the true random source (log entry 10). -/
def State.drawRandom (s : State) (n : Nat) : List Byte × State :=
  ((List.range n).map (Config.random s.free), { s with free := s.free + 1 })

/-! ### Contexts and hubs (R23, R207, R208, R250) -/

/-- ADMIN_HUB (R208). -/
def State.adminHub (s : State) : Nat := s.fld (phIntakeA 0) phIntakeAdminHub

/-- The hub that serves a context (R207). -/
def State.hubOf (s : State) (c : Nat) : Nat := if c < 768 then c / 64 else s.adminHub

/-- The local index of a context in its hub (R250). -/
def localIdx (c : Nat) : Nat := if c < 768 then c % 64 else c - 704

/-- PH.CTXCFG0 of a context. -/
def State.cfg0 (s : State) (c : Nat) (f : Fld) : Nat := s.fld (phCtxcfg0A (s.hubOf c) (localIdx c)) f
/-- PH.CTXCFG1 of a context. -/
def State.cfg1 (s : State) (c : Nat) (f : Fld) : Nat := s.fld (phCtxcfg1A (s.hubOf c) (localIdx c)) f
/-- PH.CTXCFG2 of a context. -/
def State.cfg2 (s : State) (c : Nat) (f : Fld) : Nat := s.fld (phCtxcfg2A (s.hubOf c) (localIdx c)) f

/-- The kinds of a context (R207). -/
inductive CtxKind where
  | partition | admin | management
  deriving DecidableEq, Repr

/-- The kind of a context number (R207). -/
def ctxKind (c : Nat) : CtxKind := if c < 768 then .partition else if c < 800 then .admin else .management

/-! ### Address map (R31 to R37) -/

/-- What a device physical address names (R31, R32, R36). -/
inductive Region where
  /-- Usable HBM of a partition. -/
  | hbm (p : Nat)
  /-- Journal area of a partition. -/
  | journal (p : Nat)
  /-- Tier, usable range. -/
  | tier
  /-- Tile store of a tile. -/
  | tile (t : Nat)
  /-- Registers and intake windows. -/
  | regs
  /-- Intake window of a context. -/
  | intake (c : Nat)
  /-- Management-only space. -/
  | mgmt
  /-- Unpopulated or reserved. -/
  | none
  deriving DecidableEq, Repr

/-- The region of a device physical address (R31, R32, R36). -/
def regionOf (a : Nat) : Region :=
  if a < 0x0C000000000 then
    let o := a % 0x1000000000
    if o < 0xBC0000000 then .hbm (a / 0x1000000000)
    else if o < 0xC00000000 then .journal (a / 0x1000000000)
    else .none
  else if a < 0x10000000000 then .none
  else if a < 0x1E000000000 then .tier
  else if a < 0x20000000000 then .none
  else if a < 0x30000000000 then
    let o := a - 0x20000000000
    if o / 0x10000000 < 24 ∧ o % 0x10000000 < 0xA000000 then .tile (o / 0x10000000) else .none
  else if a < 0x3F000000000 then
    if 0x31000000000 ≤ a ∧ a < 0x31000000000 + 800 * 0x10000 then .intake ((a - 0x31000000000) / 0x10000)
    else .regs
  else if a < 0x40000000000 then .mgmt
  else .none

/-- Base of partition `p`'s HBM window (R31). -/
def hbmBase (p : Nat) : Nat := p * 0x1000000000
/-- Base of partition `p`'s journal area (R32). -/
def journalBase (p : Nat) : Nat := hbmBase p + 0xBC0000000
/-- Base of the tier (R31). -/
def tierBase : Nat := 0x10000000000
/-- Base of tile `t`'s store (R31). -/
def tileBase (t : Nat) : Nat := 0x20000000000 + t * 0x10000000
/-- Tier segment of an address (R148). -/
def segOf (a : Nat) : Nat := (a - tierBase) / 0x40000000

/-- OWNER of a tier segment (R148). -/
def State.segOwner (s : State) (seg : Nat) : Nat := s.fld (tdSegA seg) tdSegOwner

/-- Whether a partition is confidential: its memory key is loaded (R168, R183). -/
def State.confidential (s : State) (p : Nat) : Bool := s.flag (phXtsA p) phXtsEnabled

/-- Whether a writer reaches a register by address (R36, R37): Hasia all, the host die all outside the management-only space,
steward firmware of PH*p* its own PH window and the windows of its two tiles. The tray controller reaches registers through
its own port alone (R450). -/
def mayReachReg (w : Writer) (a : Nat) : Bool :=
  match w with
  | .hasia _ => true
  | .host => decide (a < 0x3F000000000)
  | .steward p =>
    (decide (0x30100000000 + 0x1000000 * p ≤ a) && decide (a < 0x30100000000 + 0x1000000 * (p + 1))) ||
    (decide (0x30000000000 + 0x2000000 * p ≤ a) && decide (a < 0x30000000000 + 0x2000000 * (p + 1)))
  | _ => false

/-! ### Main memory with its code (R151 to R163) -/

/-- Pseudo-channel of an HBM partition offset (R143). -/
def hbmChannel (o : Nat) : Nat :=
  let g := o / 256
  let x := g / 32
  let h := (x % 32) ^^^ ((x / 32) % 32) ^^^ ((x / 1024) % 32) ^^^ ((x / 32768) % 32) ^^^ ((x / 1048576) % 8)
  (g % 32) ^^^ h

/-- Local granule of an HBM partition offset (R143). -/
def hbmLocal (o : Nat) : Nat := o / 256 / 32

/-- Channel 0–63 of a tier offset (R145). -/
def tierChannel (t : Nat) : Nat :=
  let p := t / 65536
  let q := p / 2
  let j := (t / 512) % 128
  let h := (q % 32) ^^^ ((q / 32) % 32) ^^^ ((q / 1024) % 32) ^^^ ((q / 32768) % 32) ^^^ ((q / 1048576) % 8)
  32 * (p % 2) + ((j % 32) ^^^ h)

/-- Local granule of a tier offset (R145). -/
def tierLocal (t : Nat) : Nat := t / 65536 / 2 * 4 + (t / 512) % 128 / 32

/-- The memory die that holds a main-memory address: hub 0–11, or 12 and 13 for TD0 and TD1 (R18, R145). -/
def memDie (a : Nat) : Nat :=
  if a < 0x0C000000000 then a / 0x1000000000 else 12 + (a - tierBase) / 65536 % 2

/-- The unit of that die, pseudo-channel or channel 0–31, that holds the address (R143, R145). -/
def memUnit (a : Nat) : Nat :=
  if a < 0x0C000000000 then hbmChannel (a % 0x1000000000) else tierChannel (a - tierBase) % 32

/-- MEMCFG of a memory die. -/
def memcfgA (die : Nat) : Nat := if die < 12 then phMemcfgA die else tdMemcfgA (die - 12)
/-- ECCSTAT of a memory die. -/
def eccstatA (die : Nat) : Nat := if die < 12 then phEccstatA die else tdEccstatA (die - 12)
/-- RETRAIN of a memory die. -/
def retrainA (die : Nat) : Nat := if die < 12 then phRetrainA die else tdRetrainA (die - 12)
/-- UELOG of a memory die. -/
def uelogA (die : Nat) : Nat := if die < 12 then phUelogA die else tdUelogA (die - 12)

/-- The event source of a memory die for its bit numbers as a hub and as a tier die have them (R493). -/
def memEvent (die hubBit tdBit : Nat) : Nat := if die < 12 then 32 * (73 + die) + hubBit else 32 * (85 + (die - 12)) + tdBit

/-- Whether the unit that holds an address has failed a retrain (R163). -/
def State.unitFailed (s : State) (a : Nat) : Bool :=
  (s.fld (retrainA (memDie a)) phRetrainPcFailed).testBit (memUnit a)

/-! ### Event sources (R492, R497, R500) -/

/-- One more count at a source: COUNT saturates at 255 and sets SAT, PENDING is set (R500); the first count keeps its
GTIME and the latest its INFO (R511). -/
def State.countSource (s : State) (src info : Nat) : State :=
  let a := evcSrcstatA src
  let w := s.reg a
  let c := fget w evcSrcstatCount
  let w := if c = 255 then fset w evcSrcstatSat 1 else fset w evcSrcstatCount (c + 1)
  let x := s.evSrc src
  (s.setReg a (fset w evcSrcstatPending 1)).setEvSrc src
    { x with first := if c = 0 then s.gtime else x.first, info := info }

/-- An occurrence at an occurrence source (R492, R493); a level source and a reserved bit take none. -/
def State.raiseInfo (s : State) (src info : Nat) : State :=
  if evcAssigned src && !evcIsLevel src then s.countSource src info else s

/-- An occurrence without INFO. -/
def State.raise (s : State) (src : Nat) : State := s.raiseInfo src 0

/-- Whether a condition is the pending state of a level mode (R497 modes 0 and 1). -/
def levelPending (mode : Nat) (level : Bool) : Bool :=
  if mode = 0 then level else if mode = 1 then !level else false

/-- A level source's sensed condition (R497). -/
def State.senseLevel (s : State) (src : Nat) (level : Bool) : State :=
  let a := evcSrcstatA src
  let old := s.flag a evcSrcstatLevel
  let mode := s.fld (evcSrccfgA src) evcSrccfgMode
  let s1 := s.setFld a evcSrcstatLevel (b2n level)
  if mode = 0 ∨ mode = 1 then
    if levelPending mode level then
      if levelPending mode old ∧ s.flag a evcSrcstatPending then s1
      else if levelPending mode old then s1
      else s1.countSource src 0
    else s1.setFld a evcSrcstatPending 0
  else if mode = 2 then (if level && !old then s1.countSource src 0 else s1)
  else if mode = 3 then (if !level && old then s1.countSource src 0 else s1)
  else if level != old then s1.countSource src 0 else s1

/-- A level source's condition, for sources without a glitch filter (R499 applies to group 95 alone). -/
def State.level (s : State) (src : Nat) (v : Bool) : State :=
  if evcIsLevel src then s.senseLevel src v else s

/-! ### Counting an event (R590 to R594) -/

/-- Selector `j` of the partition bank (`b` = 0) or module bank (`b` = 1). -/
def State.cntSelOf (s : State) (b j : Nat) : Nat := bits (s.reg (hmCntselA b (j / 4))).toNat (16 * (j % 4)) 16

/-- A context's bank with `n` more events of a code. -/
def Ctx.count (x : Ctx) (code n : Nat) : Ctx :=
  if x.cntOn then
    { x with
      cntVal := (x.cntSel.zip x.cntVal).map (fun p => if p.1 = code then (p.2 + n) % two64 else p.2),
      cntNow := { x.cntNow with
        tot := (x.cntSel.zip x.cntNow.tot).map (fun p => if p.1 = code then p.2 + n else p.2) } }
  else x

/-- `n` events of a code, attributed to a context and a partition where they have one (R590, R592, R594). -/
def State.count (s : State) (ctx part : Option Nat) (code n : Nat) : State :=
  if n = 0 then s
  else
    let s1 := match ctx with
      | some c => s.modCtx c (fun x => x.count code n)
      | none => s
    let bump : State → Nat → (Nat → Bool) → State := fun s b q =>
      if s.flag (hmCntbankA b) hmCntbankEnabled then
        (List.range 8).foldl (fun s j =>
          let sel := s.cntSelOf b j
          if bits sel 0 12 = code ∧ q (bits sel 12 4) then s.addWrap (hmCntvalA b j) hmCntvalValue n else s) s
      else s
    let s2 := match part with
      | some p => bump s1 0 (fun q => decide (q = p) && !s.confidential p)
      | none => s1
    -- Module counters exclude the events of a confidential partition (R488).
    if part.any (fun p => s.confidential p) then s2 else bump s2 1 (fun q => decide (q = 15))

/-! ### Reading and writing codewords (R153 to R159) -/

/-- Adds a record to a memory die's uncorrectable log of 16 entries; a record that finds it full is lost and sets LOST
(R159, R183). The event of the log is raised. -/
def State.logUe (s : State) (die : Nat) (r : UeRec) : State :=
  let q := kvGet [] s.uelog die
  let s1 :=
    if q.length < 16 then { s with uelog := kvSet [] s.uelog die (q ++ [r]) }
    else s.setFld (uelogA die) phUelogLost 1
  s1.raise (memEvent die 1 0)

/-- KIND of a bad class in the uncorrectable log (R183). -/
def CwClass.kind : CwClass → Nat
  | .address => 2
  | .poison => 3
  | _ => 1

/-- The data bytes of a codeword with a difference laid over them. For a confidential partition the stored bytes are
ciphertext (R152, R167), so the difference falls on those. -/
def State.applyErr (s : State) (cw e : Nat) : List Byte :=
  let d := kvRead 0 s.mem (64 * cw) 64
  if bits e 0 512 = 0 then d
  else
    let p := if 64 * cw < 0x0C000000000 then 64 * cw / 0x1000000000 else s.segOwner (segOf (64 * cw))
    match kvGet [] s.locket.memKeys p with
    | [] => xorBytes d (natLe 64 e)
    | key => xts false key cw (xorBytes (xts true key cw d) (natLe 64 e))

/-- A read of codeword `cw` by a reader of the given SOURCE: its class, with the write-back, counts, log record and event
that R158, R159 and R163 give. -/
def State.readCw (s : State) (cw source : Nat) (virt : List (Nat × Nat)) : State × CwClass :=
  let a := 64 * cw
  let die := memDie a
  if s.unitFailed a then
    (((s.addSat (eccstatA die) phEccstatUeCount 1).logUe die ⟨a, 4, source⟩), .uncorrectable)
  else
    let duo := rsDecode (s.fld (memcfgA die) phMemcfgCorrLimit) (kvGet 0 s.cwErr cw) virt
    let c := duo.1
    let rest := duo.2
    match c with
    | .clean => (s, .clean)
    | .corrected =>
      let s1 := { s with mem := kvWrite 0 s.mem a (s.applyErr cw rest), cwErr := kvSet 0 s.cwErr cw 0 }
      let u := 32 * die + memUnit a
      let sec := s.gtime / 1000000000
      let cnt := kvGet (0, 0) s.ceSec u
      let n := if cnt.2 = sec then cnt.1 + 1 else 1
      let p := if a < 0x0C000000000 then a / 0x1000000000 else s.segOwner (segOf a)
      let part := if p < 12 then some p else none
      (({ s1 with ceSec := kvSet (0, 0) s.ceSec u (n, sec) }.addSat (eccstatA die) phEccstatCeCount 1).count none part 0x080 1, .corrected)
    | c => (((s.addSat (eccstatA die) phEccstatUeCount 1).logUe die ⟨a, c.kind, source⟩), c)

/-- Reads codewords one after another, collecting whether any is bad and whether any was corrected. -/
def State.readCws (s : State) (source : Nat) : List Nat → State × Bool × Bool
  | [] => (s, false, false)
  | cw :: cws =>
    let duo := s.readCw cw source []
    let s1 := duo.1
    let c := duo.2
    let duo := s1.readCws source cws
    let s2 := duo.1
    let bad := duo.2.1
    let corr := duo.2.2
    (s2, bad || c.bad, corr || decide (c = .corrected))

/-- The codewords of [`a`, `a + n`) that need the decoder: those with a difference, and all of them where a unit of their
die has failed. Every other codeword reads Clean. -/
def State.cwsToCheck (s : State) (a n : Nat) : List Nat :=
  let lo := a / 64
  let hi := (a + n + 63) / 64
  let anyFailed := (List.range 14).any (fun d => decide (s.fld (retrainA d) phRetrainPcFailed ≠ 0))
  if anyFailed then (List.range (hi - lo)).map (· + lo)
  else (s.cwErr.filter (fun p => decide (lo ≤ p.1) && decide (p.1 < hi))).map (·.1)

/-! ### Tile store (R108 to R112) -/

/-- Logical bank of a tile-store offset (R108). -/
def tsBank (o : Nat) : Nat := o / 256 % 40
/-- Row of a tile-store offset (R108). -/
def tsRow (o : Nat) : Nat := o / 256 / 40

/-- Whether the tile of a word number, address div 8, lost its store to a power cycle (R573). -/
def State.tsTileLost (s : State) (w : Nat) : Bool := kvGet false s.tsLost ((8 * w - tileBase 0) / 0x10000000)

/-- How a word's mark stands in the table of a tile whose store was lost: 0 marked, 3 not marked. -/
def tsCode (lost : Bool) (v : Nat) : Nat := if lost then (if v = 2 then 0 else if v = 0 then 3 else v) else v

/-- The mark of a word: 0 none, 1 one bit in error, 2 uncorrectable (R110, R111, R573). -/
def State.tsMark (s : State) (w : Nat) : Nat :=
  let e := kvGet 0 s.tsBad w
  if s.tsTileLost w then (if e = 0 then 2 else if e = 3 then 0 else e) else e

/-- `s` with one mark on each of `n` words from word `w` on. -/
def State.setMarks (s : State) (w n v : Nat) : State :=
  let c := tsCode (s.tsTileLost w) v
  if c = 0 then { s with tsBad := kvClear s.tsBad w n }
  else { s with tsBad := kvWrite 0 s.tsBad w (List.replicate n c) }

/-- The marked words, by address div 8, in [`a`, `a + n`). -/
def State.tsMarked (s : State) (a n : Nat) : List Nat :=
  if s.tsTileLost (a / 8) then
    ((List.range ((a + n + 7) / 8 - a / 8)).map (· + a / 8)).filter (fun w => decide (s.tsMark w = 2))
  else
    (s.tsBad.filter (fun p => decide (a / 8 ≤ p.1) && decide (p.1 < (a + n + 7) / 8) && decide (p.2 = 2))).map (·.1)

/-- Counts an uncorrectable word of a tile and raises its event (R111). -/
def State.tsUe (s : State) (t word : Nat) : State :=
  ((s.addSat (tsEccA t) tsEccUeCount 1).setFld (tsEccA t) tsEccLastBank (tsBank (8 * word - tileBase t))).raise
    (32 * (24 + t) + 28)

/-- A read of tile store: the words with one bit in error are corrected and counted (R110); a marked word within
[`a`, `a + n`) makes it bad, counted with an event (R111). The mark belongs to the word, so the other words of its granule read as they
are (log entry 47). -/
def State.tsCheck (s : State) (t a n : Nat) : State × Bool × Bool :=
  let single := (s.tsBad.filter (fun p =>
    decide (a / 8 ≤ p.1) && decide (p.1 < (a + n + 7) / 8) && decide (p.2 = 1))).map (·.1)
  let s1 := s.addSat (tsEccA t) tsEccCeCount single.length
  let marked := s.tsMarked a n
  (marked.foldl (fun s w => s.tsUe t w) s1, !marked.isEmpty, !single.isEmpty)

/-! ### Reading and writing bytes -/

/-- What a read of memory gives: the bytes, unless some codeword or word is bad, and whether anything was corrected. -/
structure ReadOut where
  /-- The state after the read. -/
  st : State
  /-- The bytes, or none for BAD_DATA. -/
  data : Option (List Byte)
  /-- A corrected error occurred. -/
  corr : Bool
  deriving DecidableEq, Repr

/-- The bytes at [`a`, `a + n`) without a check. -/
def State.peek (s : State) (a n : Nat) : List Byte := kvRead 0 s.mem a n

/-- A unit's read of [`a`, `a + n`) of main memory or tile store (R111, R153, R158, R159). `source` is the SOURCE of R183. -/
def State.readMem (s : State) (source a n : Nat) : ReadOut :=
  match regionOf a with
  | .tile t =>
    let duo := s.tsCheck t a n
    let s1 := duo.1
    let bad := duo.2.1
    let corr := duo.2.2
    ⟨s1, if bad then none else some (s.peek a n), corr⟩
  | _ =>
    let duo := s.readCws source (s.cwsToCheck a n)
    let s1 := duo.1
    let bad := duo.2.1
    let corr := duo.2.2
    ⟨s1, if bad then none else some (s1.peek a n), corr⟩

/-- A write's outcome: the state, and whether some part met bad data and was left unwritten (R111, R157). -/
structure WriteOut where
  /-- The state after the write. -/
  st : State
  /-- Some codeword or word was left unchanged. -/
  bad : Bool
  deriving DecidableEq, Repr

/-- A write of `bs` that lies within one codeword (R157). -/
def State.writeCw (s : State) (a : Nat) (bs : List Byte) : WriteOut :=
  let cw := a / 64
  if bs.isEmpty then ⟨s, false⟩
  else if s.unitFailed a then
    let duo := s.readCw cw 0 []
    let s1 := duo.1
    ⟨s1, true⟩
  else if bs.length = 64 then
    ⟨{ s with mem := kvWrite 0 s.mem a bs, cwErr := kvSet 0 s.cwErr cw 0 }, false⟩
  else
    let duo := s.readCw cw 0 []
    let s1 := duo.1
    let c := duo.2
    if c.bad then ⟨s1, true⟩ else ⟨{ s1 with mem := kvWrite 0 s1.mem a bs }, false⟩

/-- A write of `bs` that lies within one 64-bit tile-store word (R111). -/
def State.writeWord (s : State) (a : Nat) (bs : List Byte) : WriteOut :=
  let w := a / 8
  if bs.isEmpty then ⟨s, false⟩
  else if bs.length = 8 then ⟨({ s with mem := kvWrite 0 s.mem a bs }).setMarks w 1 0, false⟩
  else if s.tsMark w = 2 then ⟨s, true⟩
  else ⟨{ s with mem := kvWrite 0 s.mem a bs }, false⟩

/-- Writes a head piece up to the next multiple of `g`, the whole middle at once, and the tail piece, each piece that fills
no whole unit through `part`. `whole` clears the error marks of the units the middle covers. -/
def State.writeSplit (s : State) (g : Nat) (part : State → Nat → List Byte → WriteOut)
    (whole : State → Nat → List Byte → State) (a : Nat) (bs : List Byte) : WriteOut :=
  let headLen := min ((g - a % g) % g) bs.length
  let head := bs.take headLen
  let rest := bs.drop headLen
  let midLen := rest.length / g * g
  let r1 := part s a head
  let s2 := if midLen = 0 then r1.st else whole r1.st (a + headLen) (rest.take midLen)
  let r3 := part s2 (a + headLen + midLen) (rest.drop midLen)
  ⟨r3.st, r1.bad || r3.bad⟩

/-- A unit's write of `bs` from address `a` on, into main memory (R157) or tile store (R111). -/
def State.writeMem (s : State) (a : Nat) (bs : List Byte) : WriteOut :=
  match regionOf a with
  | .tile _ =>
    s.writeSplit 8 State.writeWord
      (fun s a bs => ({ s with mem := kvWrite 0 s.mem a bs }).setMarks (a / 8) (bs.length / 8) 0) a bs
  | _ =>
    if (List.range 14).any (fun d => decide (s.fld (retrainA d) phRetrainPcFailed ≠ 0)) then
      -- With a failed unit every codeword is written on its own, so that its failure shows (R163).
      let n := (a % 64 + bs.length + 63) / 64
      (List.range n).foldl (fun r i =>
        let lo := max a (64 * (a / 64 + i))
        let hi := min (a + bs.length) (64 * (a / 64 + i + 1))
        let r' := r.st.writeCw lo ((bs.drop (lo - a)).take (hi - lo))
        ⟨r'.st, r.bad || r'.bad⟩) ⟨s, false⟩
    else
      s.writeSplit 64 State.writeCw
        (fun s a bs => { s with mem := kvWrite 0 s.mem a bs, cwErr := kvClear s.cwErr (a / 64) (bs.length / 64) }) a bs

/-- The state after a unit's write. -/
def State.put (s : State) (a : Nat) (bs : List Byte) : State := (s.writeMem a bs).st

/-- A zero fill of a range of whole codewords (R150, R169). -/
def State.zeroFill (s : State) (a n : Nat) : State :=
  { s with mem := kvClear s.mem a n, cwErr := kvClear s.cwErr (a / 64) (n / 64) }

/-- Poisons every codeword of [`a`, `a + n`) (R156). -/
def State.poisonRange (s : State) (a n : Nat) : State :=
  { s with cwErr := kvWrite 0 s.cwErr (a / 64) (List.replicate (n / 64) poisonErr) }

/-! ### Clasps (R27, R121, R239 to R243, R575, R576) -/

/-- A clasp table: that of a partition 0–11, or the administration table as 12 (R207). -/
def State.claspA (s : State) (tab i : Nat) : Nat :=
  if tab < 12 then phClaspA tab i else phAclaspA s.adminHub i

/-- The word that holds a clasp's TAINT (R250). -/
def State.taintA (s : State) (tab i : Nat) : Nat :=
  if tab < 12 then phClasptaintA tab (i / 64) else phAclasptaintA s.adminHub (i / 64)

/-- The clasp table a context names its clasps in (R207). -/
def claspTab (c : Nat) : Nat := if c < 768 then c / 64 else 12

/-- Number of clasps of a table (R207). -/
def claspCount (tab : Nat) : Nat := if tab < 12 then 4096 else 1024

/-- VALUE of a clasp. -/
def State.claspVal (s : State) (tab i : Nat) : Nat := (s.reg (s.claspA tab i)).toNat

/-- TAINT of a clasp. -/
def State.claspTaint (s : State) (tab i : Nat) : Bool := (s.reg (s.taintA tab i)).toNat.testBit (i % 64)

/-- Writes VALUE of a clasp, modulo 2^64. -/
def State.putClasp (s : State) (tab i v : Nat) : State := s.setReg (s.claspA tab i) (BitVec.ofNat 64 v)

/-- Writes TAINT of a clasp. -/
def State.putTaint (s : State) (tab i : Nat) (t : Bool) : State :=
  s.setFld (s.taintA tab i) ⟨i % 64, 1⟩ (b2n t)

/-- Marks as touched the undo entries of SETs of a clasp, when an update that remains applied reaches it (R575). -/
def State.touchUndo (s : State) (tab i : Nat) : State :=
  { s with undo := kvSet [] s.undo tab ((kvGet [] s.undo tab).map (fun u =>
      if u.idx = i ∧ u.isSet then { u with touched := true } else u)) }

/-- Marks as observed the undo entries of a clasp not made by the given command (R575). -/
def State.observe (s : State) (tab i ctx cseq : Nat) : State :=
  { s with undo := kvSet [] s.undo tab ((kvGet [] s.undo tab).map (fun u =>
      if u.idx = i ∧ ¬(u.ctx = ctx ∧ u.cseq = cseq) then { u with observed := true } else u)) }

/-- The harts of partition `p` as (tile, hart) pairs. -/
def partHarts (p : Nat) : List (Nat × Nat) :=
  (List.range 64).map (fun i => (2 * p + i / 32, i % 32))

/-- A hart's register write; x0 stays 0. -/
def Hart.put (h : Hart) (rd v : Nat) : Hart :=
  if rd = 0 then h else { h with x := kvSet 0 h.x rd (v % two64) }

/-- A hart's register read; x0 reads 0. -/
def Hart.get (h : Hart) (r : Nat) : Nat := if r = 0 then 0 else kvGet 0 h.x r

/-- Ends the waits of clasp.wait that a clasp's present value satisfies, each with rd = 0 (R120), and marks the entries they
observe (R575). -/
def State.wakeHarts (s : State) (tab i : Nat) : State :=
  if tab ≥ 12 then s
  else
    (partHarts tab).foldl (fun s th =>
      let h := s.hart th.1 th.2
      match h.wait with
      | some w =>
        -- A hart of a replay target waits on the replay clasp table (R389).
        let r := s.recorder tab
        if r.repActive ∧ s.fld (pipCtlA th.1 th.2) pipCtlCtx = r.repCtx then s
        else if w.idx = i ∧ w.target ≤ s.claspVal tab i then
          let j := h.job.getD (1024, 0)
          (s.setHart th.1 th.2 { h.put w.rd 0 with wait := none }).observe tab i j.1 j.2
        else s
      | none => s) s

/-- One atomic addition to a clasp, with a taint to set (R27, R241): no undo entry; later SETs are marked as touched. -/
def State.claspAdd (s : State) (tab i inc : Nat) (taint : Bool) : State :=
  let s1 := s.putClasp tab i (s.claspVal tab i + inc)
  let s2 := if taint then s1.putTaint tab i true else s1
  (s2.touchUndo tab i).wakeHarts tab i

/-- Adds an entry to a partition's undo log of 16,384; the result says whether it found the log full (R575, R576). -/
def State.logUndo (s : State) (tab : Nat) (u : Undo) : State × Bool :=
  let q := kvGet [] s.undo tab
  if q.length < 16384 then ({ s with undo := kvSet [] s.undo tab (q ++ [u]) }, false)
  else (s.addSat (phClundoA tab) phClundoOverflows 1, true)

/-- Marks a command whose undo entry was lost (R576). -/
def State.markOvf (s : State) (ctx cseq : Nat) : State :=
  s.modCtx ctx (fun x => { x with cmds := x.cmds.map (fun c => if c.cseq = cseq then { c with undoOvf := true } else c) })

/-- An atomic addition made on behalf of an unretired command of the partition, with its undo entry (R575). The
administration table has no undo log. -/
def State.claspAddFor (s : State) (tab i inc ctx cseq : Nat) : State :=
  if tab ≥ 12 then s.claspAdd tab i inc false
  else
    let duo := s.logUndo tab ⟨i, false, inc, 0, false, ctx, cseq, false, false⟩
    let s1 := duo.1
    let full := duo.2
    let s2 := if full then s1.markOvf ctx cseq else s1
    (s2.putClasp tab i (s2.claspVal tab i + inc)).wakeHarts tab i

/-- An atomic SET, clearing TAINT, made on behalf of an unretired command (R242, R284, R575). -/
def State.claspSetFor (s : State) (tab i v ctx cseq : Nat) : State :=
  let pv := s.claspVal tab i
  let pt := s.claspTaint tab i
  let s2 :=
    if tab ≥ 12 then s
    else
      let duo := s.logUndo tab ⟨i, true, 0, pv, pt, ctx, cseq, false, false⟩
      let s1 := duo.1
      let full := duo.2
      if full then s1.markOvf ctx cseq else s1
  ((s2.putClasp tab i v).putTaint tab i false).wakeHarts tab i

/-- Frees the undo entries of a retired command: what it added stays, so earlier SETs of those clasps are touched (R575). -/
def State.freeUndo (s : State) (tab ctx cseq : Nat) : State :=
  if tab ≥ 12 then s
  else
    let q := kvGet [] s.undo tab
    let gone := (q.filter (fun u => decide (u.ctx = ctx ∧ u.cseq = cseq))).map (·.idx)
    let kept := q.filter (fun u => !decide (u.ctx = ctx ∧ u.cseq = cseq))
    { s with undo := kvSet [] s.undo tab (kept.map (fun u =>
        if u.isSet ∧ gone.contains u.idx then { u with touched := true } else u)) }

/-- Sets TAINT of a clasp in an undo; a change from 0 to 1 counts in TAINTED (R588). -/
def State.taintByUndo (s : State) (tab i : Nat) : State :=
  if s.claspTaint tab i then s else (s.putTaint tab i true).addSat (phClundoA tab) phClundoTainted 1

/-- Undoes one entry in a reset's pass (R575): `later` names the clasps whose own undo in this pass set TAINT. -/
def State.undoOne (s : State) (tab : Nat) (later : List Nat) (u : Undo) : State × List Nat :=
  if u.isSet then
    if !u.observed && !u.touched && !later.contains u.idx then
      ((s.putClasp tab u.idx u.prior).putTaint tab u.idx u.priorTaint, later)
    else (s.taintByUndo tab u.idx, u.idx :: later)
  else
    let s1 := s.putClasp tab u.idx (s.claspVal tab u.idx + two64 - u.amount % two64)
    if u.observed then (s1.taintByUndo tab u.idx, u.idx :: later)
    else (s1, later)

/-- Undoes the entries of discarded commands together, in reverse order (R575), and taints the clasp range of every
discarded command that was marked (R576). `gone` holds (context, CSEQ, marked). -/
def State.undoClasps (s : State) (tab : Nat) (gone : List (Nat × Nat × Bool)) : State :=
  if tab ≥ 12 then s
  else
    let q := kvGet [] s.undo tab
    let isGone : Undo → Bool := fun u => gone.any (fun g => decide (g.1 = u.ctx ∧ g.2.1 = u.cseq))
    let s1 := { s with undo := kvSet [] s.undo tab (q.filter (fun u => !isGone u)) }
    -- A later entry of a command that stays remains applied, so it touches the clasp (R575).
    let s2 := (q.reverse.foldl (fun p u =>
      if isGone u then p.1.undoOne tab p.2 u else (p.1, u.idx :: p.2)) (s1, [])).1
    gone.foldl (fun s g =>
      if g.2.2 then
        let lo := s.cfg0 g.1 phCtxcfg0ClaspLo
        let hi := s.cfg0 g.1 phCtxcfg0ClaspHi
        (List.range (hi + 1 - lo)).foldl (fun s i => s.taintByUndo tab (lo + i)) s
      else s) s2

/-! ### Outputs of the active Hasia (R430, R433) -/

/-- The die that holds the ownership latch and runs as the active one, if any. -/
def State.activeDie (s : State) : Option Nat :=
  match s.mgmt.latch with
  | some d => if (if d = 0 then s.mgmt.a.st else s.mgmt.b.st) = 4 then some d else none
  | none => none

/-- Whether an active Hasia runs. -/
def State.hasiaUp (s : State) : Bool := s.activeDie.isSome

/-- An output that is held to the end of the management cycle (R433). -/
def State.hold (s : State) (h : HeldOut) : State := { s with mgmt := { s.mgmt with held := s.mgmt.held ++ [h] } }

/-- A tray event record (R453); with no active Hasia nothing queues one. -/
def State.trayRec (s : State) (cls sub index : Nat) : State :=
  if s.hasiaUp then s.hold (.note (natLe 1 cls ++ natLe 1 sub ++ natLe 2 index ++ natLe 4 s.gtime)) else s

end Sys2Proof.Machine
end

