-- ==== Sys2Proof/Machine/Packet.lean ====
section
/-!
DEFINITION. Command packets (R219 to R222), the opcode table of R251, each command's declared regions (R255) and the
content checks of step 4 of R224.
-/

namespace Sys2Proof.Machine

/-- The opcodes the module implements (R251). -/
inductive Opc where
  | move | fill | gather | scatter | matmul | matmulAcc | convert | run | runWait | attnPages | kvAppend | kvEvict
  | allreduce | reduce | bcast | allgather | barrier | wait | signal | signalRemote | cfgBegin | cfgSet | cfgGet
  | cfgCommit | cfgRollback | hintPhase | capRequest | capQuery | cntEnable | cntRead | cameo | cameoCancel
  | sessionOpen | sessionClose | quote | keyRotate | fence | ctxReset | statusQuery | resume | recordStart | recordStop
  | replayStart
  deriving DecidableEq, Repr

/-- Opcode values and unsealed lengths (R251). -/
def opcTable : List (Nat × Opc × Nat) :=
  [(0x0101, .move, 3), (0x0102, .fill, 3), (0x0103, .gather, 3), (0x0104, .scatter, 3), (0x0201, .matmul, 4),
   (0x0202, .matmulAcc, 4), (0x0203, .convert, 3), (0x0301, .run, 5), (0x0302, .runWait, 5), (0x0401, .attnPages, 2),
   (0x0402, .kvAppend, 2), (0x0403, .kvEvict, 2), (0x0501, .allreduce, 2), (0x0502, .reduce, 2), (0x0503, .bcast, 2),
   (0x0504, .allgather, 2), (0x0505, .barrier, 2), (0x0601, .wait, 1), (0x0602, .signal, 2), (0x0603, .signalRemote, 2),
   (0x0701, .cfgBegin, 2), (0x0702, .cfgSet, 2)] ++
  [(0x0703, .cfgGet, 2), (0x0704, .cfgCommit, 2), (0x0705, .cfgRollback, 2), (0x0801, .hintPhase, 2),
   (0x0802, .capRequest, 2), (0x0803, .capQuery, 2), (0x0901, .cntEnable, 2), (0x0902, .cntRead, 2), (0x0903, .cameo, 2),
   (0x0904, .cameoCancel, 2), (0x0A01, .sessionOpen, 27), (0x0A02, .sessionClose, 2), (0x0A03, .quote, 2),
   (0x0A04, .keyRotate, 2), (0x0B01, .fence, 2), (0x0B02, .ctxReset, 2), (0x0B03, .statusQuery, 2), (0x0B04, .resume, 2),
   (0x0C01, .recordStart, 2), (0x0C02, .recordStop, 1), (0x0C03, .replayStart, 2)]

/-- The command of an opcode value, with its length; other opcodes are unsupported (R251). -/
def opcOf (code : Nat) : Option (Opc × Nat) := (opcTable.find? (fun r => decide (r.1 = code))).map (·.2)

/-! ### Header fields (R219) -/

/-- OPCODE. -/
def pOpcode (p : List Byte) : Nat := leAt p 0 2
/-- LEN as the packet carries it. -/
def pLen (p : List Byte) : Nat := leAt p 2 1
/-- The length in units that framing takes: a LEN outside 1–32 is taken as 1 (R215). -/
def frameLen (p : List Byte) : Nat := if 1 ≤ pLen p ∧ pLen p ≤ 32 then pLen p else 1
/-- SEALED. -/
def pSealed (p : List Byte) : Bool := (leAt p 3 1).testBit 0
/-- CTX. -/
def pCtx (p : List Byte) : Nat := bits (leAt p 4 2) 0 12
/-- FLAGS. -/
def pFlags (p : List Byte) : Nat := leAt p 6 2
/-- CSEQ. -/
def pCseq (p : List Byte) : Nat := leAt p 8 4
/-- RACK. -/
def pRack (p : List Byte) : Nat := leAt p 12 4
/-- WAIT0 and WAIT1 by number. -/
def pWait (p : List Byte) (i : Nat) : Nat := leAt p (16 + 8 * i) 8
/-- SIG. -/
def pSig (p : List Byte) : Nat := leAt p 32 8
/-- TAG. -/
def pTag (p : List Byte) : Nat := leAt p 40 8
/-- SEEDSEL. -/
def pSeedSel (p : List Byte) : Nat := bits (leAt p 48 4) 0 8
/-- Clasp index of a WAIT or SIG field. -/
def clIdx (f : Nat) : Nat := bits f 0 20
/-- Target or increment of a WAIT or SIG field. -/
def clVal (f : Nat) : Nat := bits f 20 44
/-- A parameter-block field (R252). -/
def par (p : List Byte) (off len : Nat) : Nat := leAt p (64 + off) len
/-- A signed 8-byte parameter. -/
def parS (p : List Byte) (off : Nat) : Int := sext 64 (par p off 8)

/-- The packet's command, where the module implements its opcode. -/
def pOpc (p : List Byte) : Option Opc := (opcOf (pOpcode p)).map (·.1)

/-- A command's opcode. -/
def Cmd.opc (c : Cmd) : Option Opc := pOpc c.packet

/-! ### Declared regions (R255) -/

/-- The role of a declared region. -/
inductive Role where
  | input | output | inPlace
  deriving DecidableEq, Repr

/-- A declared region: its index, role, first byte and size. -/
structure Regn where
  /-- Index named in DETAIL. -/
  idx : Nat
  /-- Role. -/
  role : Role
  /-- First byte. -/
  addr : Int
  /-- Size in bytes; a range of zero bytes is no region. -/
  size : Nat
  deriving DecidableEq, Repr

/-- The bounding range of a strided operand: rows of `len` bytes over dimensions (count, stride). -/
def boundRange (base : Nat) (len : Nat) (dims : List (Nat × Int)) : Int × Nat :=
  let lo := dims.foldl (fun (a : Int) d => a + min 0 (((d.1 - 1 : Nat) : Int) * d.2)) (base : Int)
  let hi := dims.foldl (fun (a : Int) d => a + max 0 (((d.1 - 1 : Nat) : Int) * d.2)) (base : Int)
  (lo, (hi - lo).toNat + len)

/-- A region over a bounding range. -/
def regnOf (idx : Nat) (role : Role) (b : Int × Nat) : Regn := ⟨idx, role, b.1, b.2⟩

/-- The three dimensions of a mover descriptor or MOVE block, on the source or destination side (R125). -/
def mvDims (p : Nat → Nat → Nat) (dst : Bool) : List (Nat × Int) :=
  let o := if dst then 64 else 40
  [(p 28 4, sext 64 (p o 8)), (p 32 4, sext 64 (p (o + 8) 8)), (p 36 4, sext 64 (p (o + 16) 8))]

/-- Destination bytes of a row of `len` source bytes under CONV (R130). -/
def convLen (src dst : Fmt) (len : Nat) : Nat := len / (src.width / 8) * (dst.width / 8)

/-- The source and destination formats of a mover's FMT byte. -/
def mvFmts (fmt : Nat) : Option (Fmt × Fmt) :=
  match Fmt.ofCode (bits fmt 0 4), Fmt.ofCode (bits fmt 4 4) with
  | some a, some b => some (a, b)
  | _, _ => none

/-- Destination row length of a mover descriptor (R130). -/
def mvDstLen (p : Nat → Nat → Nat) : Nat :=
  if (p 1 1).testBit 1 then
    match mvFmts (p 2 1) with
    | some (a, b) => convLen a b (p 24 4)
    | none => p 24 4
  else p 24 4

/-- Regions of MOVE, FILL, GATHER and SCATTER (R259). -/
def moveRegions (o : Opc) (pk : List Byte) : List Regn :=
  let p := par pk
  let remote := (p 1 1).testBit 2
  let span := p 4 4 * 4096
  let src :=
    match o with
    | .fill => []
    | .gather => [⟨0, .input, (p 8 8 : Nat), span⟩]
    | .scatter => [regnOf 0 .input (boundRange (p 8 8) (p 24 4) [(p 28 4, sext 64 (p 40 8))])]
    | _ => [regnOf 0 .input (boundRange (p 8 8) (p 24 4) (mvDims p false))]
  let dst :=
    if remote then []
    else
      match o with
      | .scatter => [⟨1, .output, (p 16 8 : Nat), span⟩]
      | .gather => [regnOf 1 .output (boundRange (p 16 8) (mvDstLen p) [(p 28 4, sext 64 (p 64 8))])]
      | _ => [regnOf 1 .output (boundRange (p 16 8) (mvDstLen p) (mvDims p true))]
  let idx :=
    match o with
    | .gather | .scatter => [⟨2, .input, (p 88 8 : Nat), p 28 4 * 8⟩]
    | _ => []
  src ++ dst ++ idx

/-- Bytes of one row of `n` elements of a format in an element plane, whole MX blocks for MX formats (R66). -/
def rowBytes (f : Fmt) (n : Nat) : Nat := if f.isMx then ceilDiv n 32 * (f.width * 4) else fmtBytes f n

/-- Scale bytes of one row (R66). -/
def scaleBytes (f : Fmt) (n : Nat) : Nat := if f.isMx then ceilDiv n 32 else 0

/-- A plane of `rows` rows at a stride. -/
def planeRange (addr rows len stride : Nat) : Int × Nat := boundRange addr len [(rows, (stride : Int))]

/-- Partition of a context, for partition contexts. -/
def partOf (c : Nat) : Nat := c / 64

/-- Regions of MATMUL and MATMUL_ACC (R264). -/
def matmulRegions (acc : Bool) (ctx : Nat) (pk : List Byte) : List Regn :=
  let p := par pk
  match Fmt.ofCode (bits (p 0 1) 0 4), Fmt.ofCode (bits (p 0 1) 4 4), Fmt.ofCode (bits (p 1 1) 0 4) with
  | some fa, some fb, some fc =>
    let m := p 4 4
    let n := p 8 4
    let k := p 12 4
    let role := if acc then Role.inPlace else Role.output
    [regnOf 0 .input (planeRange (p 16 8) m (rowBytes fa k) (p 64 8))] ++
    (if fa.isMx then [regnOf 1 .input (planeRange (p 24 8) m (scaleBytes fa k) (p 88 4))] else []) ++
    [regnOf 2 .input (planeRange (p 32 8) n (rowBytes fb k) (p 72 8))] ++
    (if fb.isMx then [regnOf 3 .input (planeRange (p 40 8) n (scaleBytes fb k) (p 92 4))] else []) ++
    [regnOf 4 role (planeRange (p 48 8) m (rowBytes fc n) (p 80 8))] ++
    (if fc.isMx then [regnOf 5 role (planeRange (p 56 8) m (scaleBytes fc n) (p 96 4))] else []) ++
    [⟨6, .output, (tileBase (2 * partOf ctx) + p 112 4 : Nat), p 120 4⟩,
     ⟨7, .output, (tileBase (2 * partOf ctx + 1) + p 116 4 : Nat), p 120 4⟩]
  | _, _, _ => []

/-- Regions of CONVERT (R270). -/
def convertRegions (pk : List Byte) : List Regn :=
  let p := par pk
  match mvFmts (p 0 1) with
  | some (fs, fd) =>
    let rows := p 4 4
    let cols := p 8 4
    [regnOf 0 .input (planeRange (p 16 8) rows (rowBytes fs cols) (p 48 4))] ++
    (if fs.isMx then [regnOf 1 .input (planeRange (p 24 8) rows (scaleBytes fs cols) (p 56 4))] else []) ++
    [regnOf 2 .output (planeRange (p 32 8) rows (rowBytes fd cols) (p 52 4))] ++
    (if fd.isMx then [regnOf 3 .output (planeRange (p 40 8) rows (scaleBytes fd cols) (p 60 4))] else [])
  | none => []

/-- The region entries of RUN (R272). -/
def runRegions (pk : List Byte) : List Regn :=
  let p := par pk
  ⟨0, .input, (p 8 8 : Nat), p 16 4⟩ ::
  (List.range 8).filterMap (fun i =>
    let o := 128 + 16 * i
    let mk : Role → Option Regn := fun r => some ⟨i + 1, r, (bits (p o 8) 0 44 : Nat), p (o + 8) 4⟩
    match p (o + 12) 1 with
    | 1 => mk .input
    | 2 => mk .output
    | 3 => mk .inPlace
    | _ => none)

/-- Head dimension of a DSEL value (R186). -/
def dselDim (d : Nat) : Nat := if d = 0 then 64 else if d = 1 then 128 else 256

/-- Tokens of a page: floor(32,768 / (D × e + D/32 × [MX])) (R185). -/
def pageTokens (f : Fmt) (d : Nat) : Nat := 32768 / (f.width * d / 8 + (if f.isMx then d / 32 else 0))

/-- RECSIZE of R193. -/
def recSize (d : Nat) : Nat := (16 + 4 * d + 63) / 64 * 64

/-- Regions of ATTN_PAGES (R277). -/
def attnRegions (pk : List Byte) : List Regn :=
  let p := par pk
  let d := dselDim (p 2 1)
  let qf := if bits (p 1 1) 4 4 = 8 then 2 else 4
  [⟨0, .input, (p 16 8 : Nat), p 12 4 * 8⟩, ⟨1, .input, (p 24 8 : Nat), p 3 1 * d * qf⟩,
   ⟨2, .output, (p 32 8 : Nat), ceilDiv (p 12 4) (p 4 1) * p 3 1 * recSize d⟩]

/-- Regions of KV_APPEND (R278). -/
def kvAppendRegions (pk : List Byte) : List Regn :=
  let p := par pk
  let d := dselDim (p 2 1)
  let row := d * (if bits (p 1 1) 4 4 = 8 then 2 else 4)
  [regnOf 0 .input (planeRange (p 16 8) (p 6 2) row (p 32 4)),
   regnOf 1 .input (planeRange (p 24 8) (p 6 2) row (p 32 4)), ⟨2, .inPlace, (p 8 8 : Nat), 65536⟩]

/-- Bytes of one collective element (R280). -/
def collElem (f : Nat) : Nat := if f = 8 then 2 else if f = 15 then 80 else 4

/-- Bytes of one output element of a collective: the root output format where exact partials are rounded (R280). -/
def collOutElem (fmt : Nat) : Nat :=
  if bits fmt 0 4 = 15 then
    (match bits fmt 4 4 with
    | 8 => 2
    | 9 => 2
    | 10 => 4
    | _ => 80)
  else collElem (bits fmt 0 4)

/-- The directory entry of a slice number, if valid (R332). -/
def State.sliceEntry (s : State) (slice : Nat) : Option Nat :=
  if slice = 0 then none else (List.range 64).find? (fun i => decide (s.fld (fdSlicedirA i) fdSlicedirSlice = slice))

/-- A rank-map entry (R337). -/
def State.rankEntry (s : State) (i r : Nat) : Nat :=
  bits (s.reg (fdRankmapA i (r / 2))).toNat (32 * (r % 2)) 32
/-- A multicast group entry (R338). -/
def State.groupEntry (s : State) (i g : Nat) : Nat :=
  bits (s.reg (fdMcastA i (g / 2))).toNat (32 * (g % 2)) 32
/-- A route entry (R333). -/
def State.routeEntry (s : State) (i d : Nat) : Nat :=
  bits (s.reg (fdRouteA i (d / 8))).toNat (8 * (d % 8)) 8

/-- The slice of a context's remote traffic. -/
def State.ctxSlice (s : State) (c : Nat) : Nat := s.cfg0 c phCtxcfg0Slice

/-- This module's number (R310). -/
def State.node (s : State) : Nat := s.fld (fdNodeA 0) fdNodeNodeId

/-- The job-local rank that a partition of this module has in a directory entry, the lowest that maps to it (R337). -/
def State.rankOf (s : State) (i p : Nat) : Option Nat :=
  ((s.regs.filter (fun e => decide (fdRankmapA i 0 ≤ e.1) && decide (e.1 < fdRankmapA i 0 + 65536))).flatMap (fun e =>
    let j := (e.1 - fdRankmapA i 0) / 8
    [2 * j, 2 * j + 1])).find? (fun r =>
      let x := s.rankEntry i r
      x.testBit 16 && decide (bits x 0 12 = s.node) && decide (bits x 12 4 = p))

/-- Members of a slice: VALID ranks of its rank map. -/
def State.memberCount (s : State) (i : Nat) : Nat :=
  sumNat ((s.regs.filter (fun e => decide (fdRankmapA i 0 ≤ e.1) && decide (e.1 < fdRankmapA i 0 + 65536))).map (fun e =>
    b2n (e.2.toNat.testBit 16) + b2n (e.2.toNat.testBit 48)))

/-- Regions of a collective (R280). -/
def State.collRegions (s : State) (o : Opc) (ctx : Nat) (pk : List Byte) : List Regn :=
  let p := par pk
  let n := p 4 4
  let src := p 8 8
  let dst := p 16 8
  let i := (s.sliceEntry (s.ctxSlice ctx)).getD 0
  let isRoot := decide (s.rankOf i (partOf ctx) = some (bits (p 24 4) 0 20))
  let inB := n * collElem (bits (p 0 1) 0 4)
  let outB := n * collOutElem (p 0 1)
  match o with
  | .barrier => []
  | .allreduce =>
    if src = dst ∧ inB = outB then [⟨1, .inPlace, (src : Nat), inB⟩]
    else [⟨0, .input, (src : Nat), inB⟩, ⟨1, .output, (dst : Nat), outB⟩]
  | .reduce => ⟨0, .input, (src : Nat), inB⟩ :: (if isRoot then [⟨1, .output, (dst : Nat), outB⟩] else [])
  | .bcast => (if isRoot then [⟨0, .input, (src : Nat), inB⟩] else []) ++ [⟨1, .output, (dst : Nat), inB⟩]
  | _ => [⟨0, .input, (src : Nat), inB⟩, ⟨1, .output, (dst : Nat), inB * s.memberCount i⟩]

/-- The pairs of a KV_EVICT's list: source and destination page (R279). -/
def kvPairs (l : List Byte) : List (Nat × Nat) :=
  (List.range (l.length / 16)).map (fun i => (leAt l (16 * i) 8, leAt l (16 * i + 8) 8))

/-- The declared regions of a command (R255); `l` is the pair list that a KV_EVICT has read (R279). -/
def State.regions (s : State) (ctx : Nat) (pk : List Byte) (l : List Byte) : List Regn :=
  let rs :=
    match pOpc pk with
    | some .move => moveRegions .move pk
    | some .fill => moveRegions .fill pk
    | some .gather => moveRegions .gather pk
    | some .scatter => moveRegions .scatter pk
    | some .matmul => matmulRegions false ctx pk
    | some .matmulAcc => matmulRegions true ctx pk
    | some .convert => convertRegions pk
    | some .run => runRegions pk
    | some .runWait => runRegions pk
    | some .attnPages => attnRegions pk
    | some .kvAppend => kvAppendRegions pk
    | some .kvEvict =>
      let role := if (par pk 1 1).testBit 0 then Role.inPlace else Role.input
      ⟨0, .input, (par pk 8 8 : Nat), 16 * par pk 4 4⟩ ::
      (kvPairs l).flatMap (fun (pr : Nat × Nat) => [⟨1, role, (pr.1 : Nat), 65536⟩, ⟨2, .output, (pr.2 : Nat), 65536⟩])
    | some .allreduce => s.collRegions .allreduce ctx pk
    | some .reduce => s.collRegions .reduce ctx pk
    | some .bcast => s.collRegions .bcast ctx pk
    | some .allgather => s.collRegions .allgather ctx pk
    | some .cntRead => [⟨0, .output, (par pk 8 8 : Nat), 128⟩]
    | some .sessionOpen => [⟨0, .output, (par pk 8 8 : Nat), 64⟩]
    | some .quote => [⟨0, .output, (par pk 32 8 : Nat), par pk 40 4⟩]
    | some .statusQuery =>
      if par pk 2 2 = 0xFFFF ∨ par pk 2 2 = ctx then [] else [⟨0, .output, (par pk 8 8 : Nat), 64⟩]
    | _ => []
  rs.filter (fun r => decide (r.size ≠ 0))

/-- 4 KiB blocks that a region touches, rounded outward (R255). -/
def Regn.blockLo (r : Regn) : Int := r.addr / 4096
/-- One past the last block of a region. -/
def Regn.blockHi (r : Regn) : Int := (r.addr + r.size + 4095) / 4096

/-- Whether two regions share a 4 KiB block. -/
def Regn.shares (a b : Regn) : Bool := decide (a.blockLo < b.blockHi) && decide (b.blockLo < a.blockHi)

/-- Whether a region is written. -/
def Regn.written (r : Regn) : Bool := decide (r.role ≠ .input)

/-- The block numbers of the in-place regions of a command. -/
def inPlaceBlocks (rs : List Regn) : List Nat :=
  ((rs.filter (fun r => decide (r.role = .inPlace))).flatMap (fun r =>
    (List.range (r.blockHi - r.blockLo).toNat).map (fun i => (r.blockLo + i).toNat))).eraseDups

/-! ### Rights (R37, R148, R256) -/

/-- Whether partition `p`'s context `c` reaches every byte of [`a`, `a + n`) (R256). The range may not cross a refused
address. -/
def State.ctxReaches (s : State) (c : Nat) (a : Int) (n : Nat) : Bool :=
  if a < 0 then false
  else
    let a := a.toNat
    let e := a + n
    match regionOf a with
    | .hbm p =>
      let o := a - hbmBase p
      decide (p = partOf c) && decide (s.cfg2 c phCtxcfg2HbmLo * 1048576 ≤ o) &&
        decide (o + n ≤ s.cfg2 c phCtxcfg2HbmHi * 1048576) && decide (o + n ≤ 0xBC0000000)
    | .tier =>
      decide (e ≤ 0x1E000000000) &&
        (List.range (segOf (e - 1) + 1 - segOf a)).all (fun i =>
          let ow := s.segOwner (segOf a + i)
          (decide (ow = partOf c) && decide (s.cfg0 c phCtxcfg0TierOwn = 1)) ||
          (decide (ow = 13) && decide (s.cfg0 c phCtxcfg0TierCommon = 1)))
    | .tile t =>
      decide (t / 2 = partOf c) && decide (e ≤ tileBase t + 0xA000000)
    | _ => false

/-- Whether [`a`, `a + n`) lies in the host reservation: tier segments with OWNER 12 (R35, R149). -/
def State.inHostRes (s : State) (a : Int) (n : Nat) : Bool :=
  if a < tierBase then false
  else
    let a := a.toNat
    decide (a + n ≤ 0x1E000000000) &&
      (List.range (segOf (a + n - 1) + 1 - segOf a)).all (fun i => decide (s.segOwner (segOf a + i) = 12))

/-- Whether a context reaches a declared region (R256). -/
def State.mayReach (s : State) (c : Nat) (a : Int) (n : Nat) : Bool :=
  match ctxKind c with
  | .partition => s.ctxReaches c a n
  | _ => s.inHostRes a n

/-- Whether a context may name a clasp (R239). -/
def State.mayClasp (s : State) (c i : Nat) : Bool :=
  decide (s.cfg0 c phCtxcfg0ClaspLo ≤ i) && decide (i ≤ s.cfg0 c phCtxcfg0ClaspHi)

/-! ### Step 4 of R224 -/

/-- All bytes of `bs` from `off`, `len` of them, are 0. -/
def zeroAt (bs : List Byte) (off len : Nat) : Bool := decide (leAt bs off len = 0)

/-- Reserved header bits of R219 and R220. -/
def headerClean (p : List Byte) : Bool :=
  decide (bits (leAt p 3 1) 1 7 = 0) && decide (bits (leAt p 4 2) 12 4 = 0) && decide (bits (pFlags p) 3 13 = 0) &&
  decide (bits (leAt p 48 4) 8 24 = 0) && zeroAt p 52 12

/-- The parameter bytes that a command's block does not define, as (offset, length), all reserved (R252). -/
def reservedRanges : Opc → List (Nat × Nat)
  | .move | .fill | .gather | .scatter => [(104, 24)]
  | .matmul | .matmulAcc => [(2, 2), (124, 68)]
  | .convert => [(2, 2), (72, 56)]
  | .run | .runWait => [(6, 2), (28, 4), (40, 24)]
  | .attnPages => [(5, 3), (44, 20)]
  | .kvAppend => [(40, 24)]
  | .kvEvict => [(2, 2), (16, 48)]
  | .allreduce | .reduce | .bcast | .allgather | .barrier => [(3, 1), (36, 28)]
  | .wait | .recordStop => []
  | .signal => [(1, 3), (16, 48)]
  | .signalRemote => [(5, 3), (12, 4), (24, 40)]
  | .cfgBegin | .cfgCommit | .cfgRollback => [(4, 60)]
  | .cfgSet => [(4, 4), (18, 6), (32, 32)]
  | .cfgGet => [(0, 8), (18, 46)]
  | .hintPhase => [(12, 52)]
  | .capRequest => [(1, 1), (8, 56)]
  | .capQuery => [(0, 2), (4, 60)]
  | .cntEnable => [(2, 6), (24, 40)]
  | .cntRead => [(1, 7), (16, 48)]
  | .cameo => [(3, 1), (21, 3), (32, 32)]
  | .cameoCancel => [(2, 62)]
  | .sessionOpen => [(6, 2), (48, 16), (1632, 32)]
  | .sessionClose => [(4, 60)]
  | .quote => [(44, 20)]
  | .keyRotate => [(32, 32)]
  | .fence | .ctxReset | .resume => [(1, 1), (4, 60)]
  | .statusQuery => [(0, 2), (4, 4), (16, 48)]
  | .recordStart => [(16, 48)]
  | .replayStart => [(12, 4), (18, 46)]

/-- Alignment of an address or stride to `n` bytes. -/
def aligned (n a : Nat) : Bool := decide (a % n = 0)

/-- Conversions a mover makes: between BF16, FP16 and FP32, and from exact partial to those (R130). -/
def moverConvOk (a b : Fmt) : Bool :=
  let fl : Fmt → Bool := fun f => f == .bf16 || f == .fp16 || f == .fp32
  (fl a || a == .exact) && fl b

/-- The format rules that MOVE, FILL, GATHER and SCATTER share with a mover descriptor (R125, R130, R258). -/
def mvFormatOk (o : Nat) (p : Nat → Nat → Nat) : Bool :=
  let conv := (p 1 1).testBit 1
  decide (p 0 1 = o) && decide (bits (p 1 1) 4 4 = 0) && decide (bits (p 3 1) 4 4 = 0) &&
  decide (bits (p 96 4) 24 8 = 0) && decide (1 ≤ p 24 4) &&
  decide (1 ≤ p 28 4) && decide (p 28 4 ≤ 2 ^ 24) && decide (1 ≤ p 32 4) && decide (p 32 4 ≤ 2 ^ 24) &&
  decide (1 ≤ p 36 4) && decide (p 36 4 ≤ 2 ^ 24) &&
  (decide (o < 3) || (decide (p 32 4 = 1) && decide (p 36 4 = 1))) &&
  (!conv ||
    (decide (o ≠ 2) && (RMode.ofCode (bits (p 3 1) 0 3)).isSome &&
      (match mvFmts (p 2 1) with
      | some (a, b) => moverConvOk a b && decide (p 24 4 % (a.width / 8) = 0) &&
          (a != .exact || (aligned 16 (p 8 8) && (mvDims p false).all (fun d => decide (d.1 = 1 ∨ d.2 % 16 = 0))))
      | none => false)))

/-- Output format and rounding of a matrix command or descriptor (R62, R79). -/
def outOk (fa fb : Fmt) (out : Nat) : Bool :=
  match Fmt.ofCode (bits out 0 4) with
  | some f =>
    ((f != .int8 && f != .int32) || (fa == .int8 && fb == .int8)) &&
    (f == .exact || (RMode.ofCode (bits out 4 3)).isSome)
  | none => false

/-- The output format code of a collective. -/
def collOutFmt (fmt : Nat) : Nat := if bits fmt 0 4 = 15 then bits fmt 4 4 else bits fmt 0 4

/-- The root rank of a collective: ROOT for REDUCE and BCAST, the tree's root for the others (R357). -/
def State.collRoot (s : State) (o : Opc) (ctx : Nat) (pk : List Byte) : Nat :=
  match o with
  | .reduce | .bcast => bits (par pk 24 4) 0 20
  | _ => s.fld (fdTreedefA ((s.sliceEntry (s.ctxSlice ctx)).getD 0) (par pk 2 1)) fdTreedefRoot

/-- Whether this command's RND takes effect: an exact partial is rounded, and the issuer is the root rank (R355). -/
def State.roundsAtRoot (s : State) (o : Opc) (ctx : Nat) (pk : List Byte) : Bool :=
  (o == .allreduce || o == .reduce) && decide (bits (par pk 0 1) 0 4 = 15) && decide (bits (par pk 0 1) 4 4 ≠ 15) &&
  decide (s.rankOf ((s.sliceEntry (s.ctxSlice ctx)).getD 0) (partOf ctx) = some (s.collRoot o ctx pk))

/-- Whether an address lies in a tile store. -/
def inTileStore (a : Nat) : Bool := match regionOf a with
  | .tile _ => true
  | _ => false

/-- Whether an address lies in the tier. -/
def inTier (a : Nat) : Bool := decide (regionOf a = .tier)

/-- Whether a word is a scope of R286: a kind with its instance in range. -/
def scopeKnown (w : Nat) : Bool :=
  let i := bits w 16 16
  match bits w 0 16 with
  | 1 | 2 => decide (i < 800)
  | 4 => decide (i < 12)
  | 3 | 5 | 6 => decide (i = 0)
  | _ => false

/-- Whether an address lies in the register region or the management-only space (R31, R288). -/
def inRegisters (a : Nat) : Bool := decide (0x30000000000 ≤ a) && decide (a < 0x40000000000)

/-- The layout rules of a command's parameter block (R62, R79, R253 and the command's own section). -/
def State.formatOk (s : State) (o : Opc) (ctx : Nat) (pk : List Byte) : Bool :=
  let p := par pk
  (reservedRanges o).all (fun r => zeroAt pk (64 + r.1) r.2) &&
  (match o with
  | .move => mvFormatOk 1 p && decide (p 4 4 = 0) && decide (¬(p 1 1).testBit 2 ∨ bits (p 96 4) 20 4 ≤ 11)
  | .fill => mvFormatOk 2 p && decide (p 4 4 = 0) && decide (¬(p 1 1).testBit 2 ∨ bits (p 96 4) 20 4 ≤ 11)
  | .gather => mvFormatOk 3 p && decide (¬(p 1 1).testBit 2 ∨ bits (p 96 4) 20 4 ≤ 11)
  | .scatter => mvFormatOk 4 p && decide (¬(p 1 1).testBit 2 ∨ bits (p 96 4) 20 4 ≤ 11)
  | .matmul | .matmulAcc =>
    (match mvFmts (p 0 1), Fmt.ofCode (bits (p 1 1) 0 4) with
    | some (fa, fb), some fc =>
      pairingOk fa fb && outOk fa fb (p 1 1) &&
      decide (1 ≤ p 4 4) && decide (p 4 4 ≤ 2 ^ 20) && decide (1 ≤ p 8 4) && decide (p 8 4 ≤ 2 ^ 20) &&
      decide (1 ≤ p 12 4) && decide (p 12 4 ≤ 2 ^ 24) && (!(fa.isMx || fb.isMx) || aligned 32 (p 12 4)) &&
      aligned 8 (p 16 8) && aligned 8 (p 32 8) && aligned 8 (p 48 8) && aligned 8 (p 64 8) && aligned 8 (p 72 8) &&
      aligned 8 (p 80 8) && (fc != .exact || (aligned 16 (p 48 8) && aligned 16 (p 80 8))) &&
      (!fc.isMx || aligned 32 (p 108 4)) && aligned 0x400000 (p 120 4) && decide (6 * 0x400000 ≤ p 120 4)
    | _, _ => false)
  | .convert =>
    (match mvFmts (p 0 1) with
    | some (fs, fd) =>
      fs != .int8 && fs != .int32 && fd != .int8 && fd != .int32 && fd != .exact &&
      (RMode.ofCode (bits (p 1 1) 0 3)).isSome && decide (bits (p 1 1) 4 4 = 0) &&
      decide (1 ≤ p 4 4) && decide (p 4 4 ≤ 2 ^ 24) && decide (1 ≤ p 8 4) && decide (p 8 4 ≤ 2 ^ 24) &&
      (!fd.isMx || aligned 32 (p 68 4)) && (fs != .exact || (aligned 16 (p 16 8) && aligned 16 (p 48 4)))
    | none => false)
  | .run | .runWait =>
    decide (1 ≤ p 0 1) && decide (p 0 1 ≤ 3) && decide (1 ≤ p 1 1) && decide (p 1 1 ≤ 32) &&
    decide (bits (p 2 2) 6 2 = 0) && decide (bits (p 2 2) 14 2 = 0) && aligned 4096 (p 8 8) &&
    decide (4096 ≤ p 16 4) && decide (p 16 4 ≤ 16777216) && aligned 4 (p 20 4) && decide (p 20 4 < p 16 4) &&
    decide (bits (p 24 4) 20 12 = 0) && decide (bits (p 32 8) 44 20 = 0) &&
    (o == .runWait || (decide (p 24 4 = 0) && decide (p 32 8 = 0))) &&
    (o == .run || decide (p 24 4 < claspCount (claspTab ctx))) &&
    (List.range 8).all (fun i =>
      let e := 128 + 16 * i
      decide (p (e + 12) 1 ≤ 3) && zeroAt pk (64 + e + 13) 3 && decide (bits (p e 8) 44 20 = 0) &&
      (decide (p (e + 12) 1 = 0) || decide (1 ≤ p (e + 8) 4)))
  | .attnPages =>
    decide (p 0 1 = 1) && [0, 1, 4, 8].contains (bits (p 1 1) 0 4) && [8, 10].contains (bits (p 1 1) 4 4) &&
    decide (p 2 1 ≤ 2) && decide (1 ≤ p 3 1) && decide (p 3 1 ≤ 16) && decide (1 ≤ p 4 1) && decide (p 4 1 ≤ 16) &&
    decide (1 ≤ p 12 4) && decide (p 12 4 ≤ 65536) && aligned 8 (p 16 8) && aligned 64 (p 24 8) &&
    aligned 64 (p 32 8) && decide (bits (p 8 4) 23 8 ≠ 255) &&
    !inTier (p 16 8) && inTileStore (p 24 8) && decide (regionOf (p 24 8) = regionOf (p 32 8)) &&
    (match Fmt.ofCode (bits (p 1 1) 0 4) with
    | some f => decide (p 3 1 * p 4 1 * pageTokens f (dselDim (p 2 1)) ≤ 65536)
    | none => false)
  | .kvAppend =>
    decide (p 0 1 = 1) && [0, 1, 4, 8].contains (bits (p 1 1) 0 4) && [8, 10].contains (bits (p 1 1) 4 4) &&
    decide (p 2 1 ≤ 2) && (RMode.ofCode (bits (p 3 1) 0 3)).isSome && decide (bits (p 3 1) 4 4 = 0) &&
    aligned 65536 (p 8 8) && !inTileStore (p 8 8) && decide (1 ≤ p 6 2) &&
    (match Fmt.ofCode (bits (p 1 1) 0 4) with
    | some f =>
      let t := pageTokens f (dselDim (p 2 1))
      decide (p 4 2 < t) && decide (p 4 2 + p 6 2 ≤ t)
    | none => false)
  | .kvEvict =>
    decide (p 0 1 = 1) && decide (bits (p 1 1) 1 7 = 0) && decide (1 ≤ p 4 4) && decide (p 4 4 ≤ 4096) &&
    aligned 16 (p 8 8) && !inTier (p 8 8)
  | .allreduce | .reduce | .bcast | .allgather =>
    [8, 10, 12, 15].contains (bits (p 0 1) 0 4) &&
    (if bits (p 0 1) 0 4 = 15 then [8, 9, 10, 15].contains (bits (p 0 1) 4 4) else decide (bits (p 0 1) 4 4 = 0)) &&
    decide (bits (p 1 1) 4 4 = 0) && (!s.roundsAtRoot o ctx pk || (RMode.ofCode (bits (p 1 1) 0 3)).isSome) &&
    (bits (p 0 1) 0 4 != 15 || aligned 16 (p 8 8)) && (collOutFmt (p 0 1) != 15 || aligned 16 (p 16 8)) &&
    decide (1 ≤ p 4 4) && decide (p 4 4 ≤ 2 ^ 28) && decide (bits (p 24 4) 20 12 = 0)
  | .barrier => decide (p 4 4 = 0)
  | .wait | .recordStop => true
  | .signal => decide (p 0 1 ≤ 1) && decide (bits (p 4 4) 20 12 = 0) && decide (p 4 4 < claspCount (claspTab ctx))
  | .signalRemote =>
    decide (bits (p 0 4) 20 12 = 0) && decide (p 4 1 ≤ 11) && decide (bits (p 8 4) 20 12 = 0) &&
    decide (bits (p 16 8) 44 20 = 0)
  | .cfgBegin => scopeKnown (p 0 4)
  | .cfgCommit | .cfgRollback => true
  | .cfgSet => aligned 8 (p 8 8) && decide (1 ≤ p 17 1) && decide (p 17 1 ≤ 64)
  | .cfgGet => aligned 8 (p 8 8) && decide (1 ≤ p 17 1) && decide (p 16 1 + p 17 1 ≤ 64) && inRegisters (p 8 8)
  | .hintPhase => decide (1 ≤ p 0 4) && decide (p 0 4 ≤ 100000)
  | .capRequest => decide (p 0 1 ≤ 2) && decide (p 2 2 < 12)
  | .capQuery => decide (p 2 2 < 12)
  | .cntEnable => decide (p 0 1 ≤ 2) && decide (p 1 1 ≤ 1)
  | .cntRead => decide (p 0 1 ≤ 2)
  | .cameo =>
    decide (p 0 2 ≤ 1023) && decide (p 2 1 ≤ 2) && decide (p 20 1 ≤ 5) &&
    decide (clVal (p 24 8) = 0 ∨ clIdx (p 24 8) < claspCount (claspTab ctx))
  | .cameoCancel => true
  | .sessionOpen => decide (bits (p 0 4) 12 20 = 0) && decide (1 ≤ p 4 2) && decide (p 4 2 ≤ 16) &&
    (List.range (p 4 2)).all (fun i => (p 0 4).testBit (p (16 + 2 * i) 2 / 64))
  | .sessionClose => true
  | .quote => decide (12288 ≤ p 40 4)
  | .keyRotate => true
  | .fence | .resume =>
    decide (p 0 1 ≤ 2) && (p 0 1 != 1 || decide (p 2 2 < 800)) && (p 0 1 != 2 || decide (p 2 2 < 12))
  | .ctxReset => decide (p 0 1 ≤ 1) && decide (p 2 2 < 800)
  | .statusQuery => decide (p 2 2 = 0xFFFF ∨ p 2 2 = ctx ∨ p 2 2 < 800)
  | .recordStart =>
    aligned 65536 (p 0 8) && decide (16 ≤ p 8 4) && decide (p 8 4 ≤ 16384) && decide (bits (p 12 4) 6 26 = 0)
  | .replayStart => aligned 65536 (p 0 8) && decide (16 ≤ p 8 4) && decide (p 8 4 ≤ 16384))

/-- The commands whose refusal names a unit fault code of R106: those that run on movers and MEs, and CONVERT (R248, log entry 46). -/
def Opc.namesFault : Opc → Bool
  | .move | .fill | .gather | .scatter | .matmul | .matmulAcc | .convert => true
  | _ => false

/-- The fault code of R106 for a broken format rule of a mover command: 1 FORMAT, 2 ALIGN, 3 RANGE, 0 where only reserved bits or SPAN
break the layout. -/
def moverFault (o : Nat) (p : Nat → Nat → Nat) : Nat :=
  let conv := (p 1 1).testBit 1
  let convBad := conv && (decide (o = 2) || (RMode.ofCode (bits (p 3 1) 0 3)).isNone ||
    (match mvFmts (p 2 1) with
    | some (a, b) => !moverConvOk a b
    | none => true))
  if bits (p 1 1) 4 4 ≠ 0 ∨ bits (p 3 1) 4 4 ≠ 0 ∨ bits (p 96 4) 24 8 ≠ 0 ∨ (o < 3 ∧ p 4 4 ≠ 0) then 0
  else if p 0 1 ≠ o ∨ convBad ∨ ((p 1 1).testBit 2 ∧ 11 < bits (p 96 4) 20 4) then 1
  else if conv ∧ bits (p 2 1) 0 4 = 15 ∧ (!aligned 16 (p 8 8) ∨ !(mvDims p false).all (fun d => decide (d.1 = 1 ∨ d.2 % 16 = 0))) then 2
  else 3

/-- The fault code of R106 for a broken format rule of a matrix command. -/
def matmulFault (p : Nat → Nat → Nat) : Nat :=
  match mvFmts (p 0 1), Fmt.ofCode (bits (p 1 1) 0 4) with
  | some (fa, fb), some fc =>
    if !pairingOk fa fb ∨ !outOk fa fb (p 1 1) then 1
    else if !([p 16 8, p 32 8, p 48 8, p 64 8, p 72 8, p 80 8].all (aligned 8)) ∨
        (fc = .exact ∧ !(aligned 16 (p 48 8) && aligned 16 (p 80 8))) ∨ (fc.isMx ∧ !aligned 32 (p 108 4)) then 2
    else 3
  | _, _ => 1

/-- The fault code of R106 for a broken format rule of CONVERT. -/
def convertFault (p : Nat → Nat → Nat) : Nat :=
  if bits (p 1 1) 4 4 ≠ 0 then 0
  else
    match mvFmts (p 0 1) with
    | some (fs, fd) =>
      if [fs, fd].any (fun f => f == .int8 || f == .int32) ∨ fd = .exact ∨ (RMode.ofCode (bits (p 1 1) 0 3)).isNone then 1
      else if (fd.isMx ∧ !aligned 32 (p 68 4)) ∨ (fs = .exact ∧ !(aligned 16 (p 16 8) && aligned 16 (p 48 4))) then 2
      else 3
    | none => 1

/-- The unit fault code that a refused format names in DETAIL, in the order of R106's table; 0 where reserved
bits break the layout or the command is of another kind (R248). -/
def unitFault (o : Opc) (pk : List Byte) : Nat :=
  match o with
  | .move => moverFault 1 (par pk)
  | .fill => moverFault 2 (par pk)
  | .gather => moverFault 3 (par pk)
  | .scatter => moverFault 4 (par pk)
  | .matmul | .matmulAcc => matmulFault (par pk)
  | .convert => convertFault (par pk)
  | _ => 0

/-- The region that breaks a pairing rule, for DETAIL: an output that shares a block with an input, or an input of MATMUL_ACC that shares
one with C; 0xFF for the bound of R174 (R248). -/
def pairRegion (o : Opc) (rs : List Regn) : Nat :=
  let part := fun k => rs.filter (fun r => decide (r.role = k))
  let hit := if o = .matmulAcc then (rs.filter (fun r => decide (r.idx ≤ 3))).find? (fun a => (part .inPlace).any (fun b => a.shares b))
    else if (part .inPlace).isEmpty then (part .output).find? (fun a => (part .input).any (fun b => a.shares b)) else none
  (hit.map (·.idx)).getD 0xFF

/-- Whether a context may read an address with CFG_GET: the management-only space is the management context's, a partition context reads
its own seeds, and no other context those of a sealed one (R288, R487). -/
def State.mayGet (s : State) (ctx a : Nat) : Bool :=
  if 0x3F000000000 ≤ a then decide (ctx = 800)
  else
    let seed := match regAt a with
      | some (d, is) => if d.name = .phSeed then some (is.getD 0 0, is.getD 1 0) else none
      | none => none
    match seed with
    | none => decide (768 ≤ ctx)
    | some (i, k) =>
      if ctx < 768 then decide (i = ctx / 64 ∧ k = ctx % 64)
      else !(decide (k < 64) && decide ((s.ctx (64 * i + k)).session ≠ 0))

/-- Whether R251's table gives a context kind the opcode at all, whatever its parameters. -/
def kindMay (o : Opc) (ctx : Nat) : Bool :=
  match ctxKind ctx, o with
  | .partition, .sessionOpen | .partition, .ctxReset => false
  | .partition, _ => true
  | _, .cfgBegin | _, .cfgSet | _, .cfgGet | _, .cfgCommit | _, .cfgRollback | _, .capQuery | _, .quote | _, .statusQuery => true
  | k, .wait | k, .signal | k, .capRequest | k, .cntEnable | k, .cntRead | k, .sessionOpen | k, .sessionClose | k, .fence
  | k, .ctxReset | k, .resume => k == .admin
  | _, _ => false

/-- Whether a context of a kind, sealed or not, may issue a command with these parameters (R251). -/
def State.issuerOk (s : State) (o : Opc) (ctx : Nat) (pk : List Byte) : Bool :=
  let p := par pk
  let sealedCtx := (s.ctx ctx).session ≠ 0
  let k := ctxKind ctx
  let part := k == .partition
  let ownPart := decide (p 2 2 = partOf ctx)
  match o with
  | .wait | .signal => k != .management
  | .cfgBegin | .cfgSet | .cfgCommit | .cfgRollback =>
    (match k with
    | .partition => o != .cfgBegin || (decide (bits (p 0 4) 0 16 = 2) && decide (bits (p 0 4) 16 16 = ctx))
    | .admin => o != .cfgBegin || [1, 2, 3, 4, 5].contains (bits (p 0 4) 0 16)
    | .management => o != .cfgBegin || [5, 6].contains (bits (p 0 4) 0 16))
  | .cfgGet => s.mayGet ctx (p 8 8)
  | .capRequest =>
    (match k with
    | .partition => decide (p 0 1 = 0) && ownPart
    | .admin => true
    | .management => false)
  | .capQuery => !part || ownPart
  | .cntEnable | .cntRead => (part && decide (p 0 1 = 0)) || k == .admin
  | .sessionOpen => k == .admin
  | .sessionClose =>
    (match k with
    | .partition => decide ((s.ctx ctx).session ≠ 0 ∧ (s.ctx ctx).session = p 0 4)
    | .admin => true
    | .management => false)
  | .quote => true
  | .keyRotate => part && sealedCtx
  | .fence | .resume => (part && decide (p 0 1 = 0)) || k == .admin
  | .ctxReset => k == .admin && decide (p 2 2 ≠ ctx)
  | .statusQuery => !part || decide (p 2 2 = 0xFFFF ∨ p 2 2 = ctx)
  | .replayStart => part && !sealedCtx
  | _ => part

/-- Whether a sender's rank, port and slice pass the source checks of R334 and R337; `p` is the sending partition. -/
def State.sourceOk (s : State) (ctx rank dport : Nat) : Bool :=
  match s.sliceEntry (s.ctxSlice ctx) with
  | none => false
  | some i =>
    let e := s.rankEntry i rank
    let r := s.routeEntry i (bits e 0 12)
    !s.flag (fdSlicedirA i) fdSlicedirAborted && (s.fld (fdSlicedirA i) fdSlicedirPartmask).testBit (partOf ctx) &&
    decide (rank < 16384) && e.testBit 16 && decide (bits e 12 4 = dport) && r.testBit 6 && decide (bits r 0 3 ≠ 7)

/-- A TREE entry valid for a collective of a context (R281). -/
def State.treeOk (s : State) (ctx g : Nat) : Bool :=
  match s.sliceEntry (s.ctxSlice ctx) with
  | none => false
  | some i =>
    (s.rankOf i (partOf ctx)).isSome &&
    let m := s.fld (fdTreedefA i g) fdTreedefMode
    let e := s.groupEntry i g
    (decide (m = 1) || decide (m = 2)) && e.testBit 19 && (bits e 6 12).testBit (partOf ctx)

/-- The rights that a command needs beyond its issuer kind and regions (R243, R261, R281, R285, R292, R301). -/
def State.rightsOk (s : State) (o : Opc) (ctx : Nat) (pk : List Byte) : Bool :=
  let p := par pk
  let remote := decide (s.cfg0 ctx phCtxcfg0Remote = 1)
  match o with
  | .move | .fill | .gather | .scatter => !(p 1 1).testBit 2 || remote
  | .allreduce | .allgather | .barrier => remote && s.treeOk ctx (p 2 1)
  | .reduce | .bcast =>
    remote && s.treeOk ctx (p 2 1) &&
    (match s.sliceEntry (s.ctxSlice ctx) with
    | some i => decide (bits (p 24 4) 0 20 < 16384) && (s.rankEntry i (bits (p 24 4) 0 20)).testBit 16
    | none => false)
  | .signal => s.mayClasp ctx (p 4 4)
  | .signalRemote => remote && s.sourceOk ctx (p 0 4) (p 4 1)
  | .runWait => s.mayClasp ctx (p 24 4)
  | .cntEnable | .cntRead => decide (p 0 1 ≠ 0) || decide (s.cfg0 ctx phCtxcfg0CntOk = 1)
  | .cameo =>
    s.mayReach ctx (p 8 8 : Nat) (p 16 4) && (decide (clVal (p 24 8) = 0) || s.mayClasp ctx (clIdx (p 24 8)))
  | .recordStart =>
    decide (s.cfg0 ctx phCtxcfg0RecordOk = 1) && decide (regionOf (p 0 8) = .tier) &&
    s.mayReach ctx (p 0 8 : Nat) (p 8 4 * 65536)
  | .replayStart =>
    decide (s.cfg0 ctx phCtxcfg0RecordOk = 1) && decide (regionOf (p 0 8) = .tier) &&
    s.mayReach ctx (p 0 8 : Nat) (p 8 4 * 65536)
  | _ => true

/-- The clasp fields of the header under R239: none where all pass, else the status and the header field's number. -/
def State.claspFields (s : State) (ctx : Nat) (pk : List Byte) (fmt : Bool) : Option Nat :=
  ([(0xF0, pWait pk 0), (0xF1, pWait pk 1), (0xF2, pSig pk)].find? (fun f =>
    decide (clVal f.2 ≠ 0) &&
    (if fmt then decide (ctxKind ctx ≠ .management) && decide (claspCount (claspTab ctx) ≤ clIdx f.2)
     else decide (ctxKind ctx = .management) || !s.mayClasp ctx (clIdx f.2)))).map (·.1)

/-- DETAIL with a region index or header field and a unit fault code (R248). -/
def mkDetail (hi lo : Nat) : Nat := 256 * hi + lo

/-- The pairing rules of a command's regions: R227, R264 for MATMUL_ACC, R279 for KV_EVICT, and R174's bound. -/
def regionPairsOk (o : Opc) (rs : List Regn) : Bool :=
  let inPl := rs.any (fun r => decide (r.role = .inPlace))
  let outs := rs.filter (fun r => decide (r.role = .output))
  let ins := rs.filter (fun r => decide (r.role = .input))
  (inPl || !outs.any (fun a => ins.any (fun b => a.shares b))) &&
  (o != .matmulAcc ||
    !(rs.filter (fun r => decide (r.idx ≤ 3))).any (fun a =>
      (rs.filter (fun r => decide (r.role = .inPlace))).any (fun b => a.shares b))) &&
  decide (sumNat ((rs.filter (fun r => decide (r.role = .inPlace))).map (fun r => (r.blockHi - r.blockLo).toNat)) ≤ 65536)

/-- Whether an in-place region lies where the journal protects it: usable HBM, own tier segments, own tile stores (R174). -/
def State.journalable (s : State) (ctx : Nat) (r : Regn) : Bool :=
  decide (r.role ≠ .inPlace) ||
  (match regionOf r.addr.toNat with
  | .tier => (List.range (segOf (r.addr.toNat + r.size - 1) + 1 - segOf r.addr.toNat)).all (fun i =>
      decide (s.segOwner (segOf r.addr.toNat + i) = partOf ctx))
  | _ => true)

/-- The content check of step 4 of R224: none where the command may run, else its status and DETAIL. The layout comes first, then the
opcode's issuer, then the format rules and last the other permission rules (log entry 15). The page list of KV_EVICT is checked when it is read (R279). -/
def State.contentCheck (s : State) (ctx : Nat) (sealedPk : Bool) (pk : List Byte) : Option (Status × Nat) :=
  let none4 : Nat := mkDetail 0xFF 0
  match opcOf (pOpcode pk) with
  | none => some (.unsupported, none4)
  | some (o, len) =>
    let rs := s.regions ctx pk []
    if pLen pk ≠ len + b2n sealedPk then some (.rejectedFormat, none4)
    else if !headerClean pk || decide (pCtx pk ≠ ctx) then some (.rejectedFormat, none4)
    else if !(reservedRanges o).all (fun r => zeroAt pk (64 + r.1) r.2) then some (.rejectedFormat, none4)
    else if !kindMay o ctx then some (.rejectedPerm, none4)
    else if (pFlags pk).testBit 0 ∧ s.cfg0 ctx phCtxcfg0Wide = 0 then some (.rejectedFormat, none4)
    else
      match s.claspFields ctx pk true with
      | some f => some (.rejectedFormat, mkDetail f 0)
      | none =>
        if !s.formatOk o ctx pk then some (.rejectedFormat, mkDetail 0xFF (unitFault o pk))
        else if o ≠ .kvEvict ∧ !regionPairsOk o rs then some (.rejectedFormat, mkDetail (pairRegion o rs) 0)
        else if (pFlags pk).testBit 0 ∧ s.cfg0 ctx phCtxcfg0CntOk = 0 then some (.rejectedPerm, none4)
        else
          match s.claspFields ctx pk false with
          | some f => some (.rejectedPerm, mkDetail f 0)
          | none =>
            if !s.issuerOk o ctx pk then some (.rejectedPerm, none4)
            else if !s.rightsOk o ctx pk then some (.rejectedPerm, mkDetail 0xFF (if o.namesFault then 4 else 0))
            else
              match rs.find? (fun r => !s.mayReach ctx r.addr r.size || !s.journalable ctx r) with
              | some r => some (.rejectedPerm, mkDetail r.idx (if o.namesFault then 4 else 0))
              | none => none

end Sys2Proof.Machine
end

