-- ==== Sys2Proof/Machine/Journal.lean ====
section
/-!
DEFINITION. The journal of each partition (R171 to R182) and the writes of commands, units and outside initiators that it
protects or counts.
-/

namespace Sys2Proof.Machine

/-! ### Layout (R171 to R173) -/

/-- Slots of a journal (R171). -/
def jSlots : Nat := 258048

/-- Address of slot header `k` of partition `p` (R171). -/
def jHdrA (p k : Nat) : Nat := journalBase p + 8192 + 64 * k

/-- Address of the prior content in slot `k` of partition `p` (R171). -/
def jDataA (p k : Nat) : Nat := journalBase p + 0x1000000 + 0x1000 * k

/-- The first 60 bytes of a slot header (R172). -/
def jHdrBody (state flags ctx cseq block gen time dcrc : Nat) : List Byte :=
  natLe 1 state ++ natLe 1 flags ++ natLe 2 ctx ++ natLe 4 cseq ++ natLe 8 block ++ natLe 8 gen ++ natLe 8 time ++
    natLe 4 dcrc ++ zeros 24

/-- A slot header with its HCRC (R172). -/
def jHdr (body : List Byte) : List Byte := body ++ natLe 4 (crc32c body)

/-- Whether a slot header's HCRC is correct. -/
def jHdrOk (h : List Byte) : Bool := decide (leAt h 60 4 = crc32c (h.take 60))

/-- A superblock (R173). -/
def jSuper (gen epoch : Nat) : List Byte :=
  let body := natLe 8 gen ++ natLe 4 jSlots ++ natLe 4 epoch ++ zeros 4076
  body ++ natLe 4 (crc32c body)

/-- A superblock's GEN_NEXT where its check passes. -/
def jSuperGen (b : List Byte) : Option Nat :=
  if leAt b 4092 4 = crc32c (b.take 4092) then some (leAt b 0 8) else none

/-- Writes both superblocks with the engine's GEN_NEXT, keeping EPOCH (R173). -/
def State.jPutSuper (s : State) (p : Nat) : State :=
  let epoch := leAt (s.peek (journalBase p) 16) 12 4
  let b := jSuper (kvGet 1 s.jgen p) epoch
  (s.put (journalBase p) b).put (journalBase p + 4096) b

/-! ### Held blocks (R175, R176) -/

/-- The holding in-place commands of partition `p`. -/
def State.holdsOf (s : State) (p : Nat) : List Hold := s.holds.filter (fun h => decide (partOf h.ctx = p))

/-- Slots reserved or written in partition `p` (R175). -/
def State.jUsed (s : State) (p : Nat) : Nat := sumNat ((s.holdsOf p).map (fun h => h.blocks.length))

/-- Slots with STATE Valid in partition `p` (R183). -/
def State.jValid (s : State) (p : Nat) : Nat := sumNat ((s.holdsOf p).map (fun h => h.used.length))

/-- The lowest-numbered slot that no holding command has written (log entry 16). -/
def State.jNextSlot (s : State) (p : Nat) : Nat :=
  let taken := (s.holdsOf p).flatMap (fun h => h.used.map (·.2))
  ((List.range (taken.length + 1)).find? (fun k => !taken.contains k)).getD 0

/-- The holding command of a 4 KiB block, if one does. -/
def State.holder (s : State) (b : Nat) : Option Hold := s.holds.find? (fun h => h.blocks.any (fun x => decide (x.1 = b)))

/-- Memory blocks that a range touches. -/
def blocksOf (a n : Nat) : List Nat := if n = 0 then [] else (List.range ((a + n - 1) / 4096 + 1 - a / 4096)).map (· + a / 4096)

/-- The held blocks among those that a range touches. -/
def State.heldIn (s : State) (a n : Nat) : List (Nat × Hold) :=
  s.holds.flatMap (fun h => (h.blocks.filter (fun x =>
    decide (a / 4096 ≤ x.1) && decide (n ≠ 0) && decide (x.1 ≤ (a + n - 1) / 4096))).map (fun x => (x.1, h)))

/-- Replaces the holding record of a command. -/
def State.setHold (s : State) (h : Hold) : State :=
  { s with holds := s.holds.map (fun x => if x.ctx = h.ctx ∧ x.cseq = h.cseq then h else x) }

/-- FLAGS of a slot header: the memory that block `b` lies in (R172). -/
def jFlags (b : Nat) : Nat :=
  match regionOf (4096 * b) with
  | .tile _ => 1
  | .tier => 2
  | _ => 0

/-- The copy of a held block's prior content before the holding command's first write to it (R178): the region index where
the content reads as bad. -/
def State.jCopy (s : State) (h : Hold) (b : Nat) : State × Option Nat :=
  if h.used.any (fun u => decide (u.1 = b)) then (s, none)
  else
    let p := partOf h.ctx
    let r := s.readMem 2 (4096 * b) 4096
    match r.data with
    | none => (r.st, some (((h.blocks.find? (fun x => decide (x.1 = b))).map (·.2)).getD 0))
    | some d =>
      let s1 := r.st
      let k := s1.jNextSlot p
      let gen := kvGet 1 s1.jgen p
      let s2 := s1.put (jDataA p k) d
      let s3 := s2.put (jHdrA p k) (jHdr (jHdrBody 2 (jFlags b) h.ctx h.cseq (4096 * b) gen s2.gtime (crc32c d)))
      let s4 := { s3 with jgen := kvSet 1 s3.jgen p (gen + 1) }
      ((s4.setHold { h with used := h.used ++ [(b, k)] }).jPutSuper p, none)

/-- Sets STATE Retired in a slot's header (R179, R180). -/
def State.jRetireSlot (s : State) (p k : Nat) : State :=
  let h := s.peek (jHdrA p k) 60
  s.put (jHdrA p k) (jHdr (putBytes h 0 [3]))

/-- Drops a command's hold and frees its slots. -/
def State.dropHold (s : State) (ctx cseq : Nat) : State :=
  { s with holds := s.holds.filter (fun h => !decide (h.ctx = ctx ∧ h.cseq = cseq)) }

/-- Retires the journal records of a command that completed (R179). -/
def State.jRetire (s : State) (ctx cseq : Nat) : State :=
  match s.holds.find? (fun h => decide (h.ctx = ctx ∧ h.cseq = cseq)) with
  | none => s
  | some h => (h.used.foldl (fun s u => s.jRetireSlot (partOf ctx) u.2) s).dropHold ctx cseq

/-- Restores the block of one slot, or poisons it where the slot cannot restore it (R180, R182), and retires the slot. -/
def State.jRestore (s : State) (p k : Nat) : State :=
  let h := s.peek (jHdrA p k) 64
  let b := leAt h 8 8
  let r := s.readMem 3 (jDataA p k) 4096
  let lost : State → State := fun s =>
    let s1 := match regionOf b with
      | .tile _ => s.setMarks (b / 8) 512 2
      | _ => s.poisonRange b 4096
    s1.logUe p ⟨b, 5, 3⟩
  let s1 := match r.data with
    | some d => if crc32c d = leAt h 32 4 then r.st.put b d else lost r.st
    | none => lost r.st
  s1.jRetireSlot p k

/-- Rolls back a command's journal records in decreasing order of GEN (R180). -/
def State.jRollback (s : State) (ctx cseq : Nat) : State :=
  match s.holds.find? (fun h => decide (h.ctx = ctx ∧ h.cseq = cseq)) with
  | none => s
  | some h => (h.used.reverse.foldl (fun s u => s.jRestore (partOf ctx) u.2) s).dropHold ctx cseq

/-- Slots of partition `p` whose header codeword holds anything or is in error: every other slot reads as Free. -/
def State.jListed (s : State) (p : Nat) : List Nat :=
  let lo := jHdrA p 0
  let hi := jHdrA p jSlots
  (((s.mem.filter (fun e => decide (lo ≤ e.1) && decide (e.1 < hi))).map (fun e => (e.1 - lo) / 64)) ++
   ((s.cwErr.filter (fun e => decide (lo ≤ 64 * e.1) && decide (64 * e.1 < hi))).map (fun e => (64 * e.1 - lo) / 64))).eraseDups

/-- GEN of a slot's header as it stands. -/
def State.jGenOf (s : State) (p k : Nat) : Nat := leAt (s.peek (jHdrA p k) 64) 16 8

/-- Inserts a slot in decreasing order of GEN. -/
def State.jInsert (s : State) (p k : Nat) : List Nat → List Nat
  | [] => [k]
  | x :: xs => if s.jGenOf p x ≤ s.jGenOf p k then k :: x :: xs else x :: s.jInsert p k xs

/-- GEN_NEXT from the two superblocks, or `d` where neither is valid (R173). -/
def jGenNext (ga gb : Option Nat) (d : Nat) : Nat :=
  match ga, gb with
  | some a, some b => max a b
  | some a, none => a
  | none, some b => b
  | none, none => d

/-- The start of the journal engine after a module or partition reset (R173, R181). -/
def State.jStart (s : State) (p : Nat) : State :=
  -- A slot whose header reads as bad is Free: it is logged and its header rewritten with zeros.
  let duo := (s.jListed p).foldl (fun (r : State × List Nat) k =>
    let duo := r.1.readCw (jHdrA p k / 64) 3 []
    let s' := duo.1
    let c := duo.2
    if c.bad then ((s'.put (jHdrA p k) (zeros 64)).logUe p ⟨jHdrA p k, 6, 3⟩, r.2) else (s', k :: r.2)) (s, [])
  let s1 := duo.1
  let good := duo.2
  let valid := good.filter (fun k =>
    let h := s1.peek (jHdrA p k) 64
    jHdrOk h && decide (leAt h 0 1 = 2))
  let order := valid.foldl (fun acc k => s1.jInsert p k acc) []
  let s2 := order.foldl (fun s k => s.jRestore p k) s1
  let genHdr := maxNat ((good.filter (fun k => jHdrOk (s2.peek (jHdrA p k) 64))).map (fun k => s2.jGenOf p k))
  let ga := jSuperGen (s2.peek (journalBase p) 4096)
  let gb := jSuperGen (s2.peek (journalBase p + 4096) 4096)
  let gen := jGenNext ga gb (genHdr + 1)
  ({ s2 with holds := s2.holds.filter (fun h => !decide (partOf h.ctx = p)), jgen := kvSet 1 s2.jgen p gen }).jPutSuper p

/-! ### Writes under the journal (R177, R178) -/

/-- Counts a write to held blocks by an initiator outside the holding command (R177). -/
def State.clash (s : State) (p : Nat) : State :=
  ((s.addSat (phJstatA p) phJstatClashCount 1).setFld (phJstatA p) phJstatClash 1).raise (32 * (73 + p))

/-- What a write under the journal comes to. -/
structure JWrite where
  /-- The state after the write. -/
  st : State
  /-- A part of it met bad data and was left unwritten. -/
  bad : Bool
  /-- The in-place region whose prior content reads as bad, so that nothing was written (R178). -/
  region : Option Nat
  deriving DecidableEq, Repr

/-- A write of `bs` at `a` by the command `owner`, or by an initiator outside every command: prior content is copied first
where the owner holds the block (R178), a write to a block that another command holds is counted (R177). -/
def State.storeBy (s : State) (owner : Option (Nat × Nat)) (a : Nat) (bs : List Byte) : JWrite :=
  let held := s.heldIn a bs.length
  let mine := held.filter (fun x => decide (owner = some (x.2.ctx, x.2.cseq)))
  let others := held.filter (fun x => !decide (owner = some (x.2.ctx, x.2.cseq)))
  let duo := mine.foldl (fun (r : State × Option Nat) x =>
    match r.2 with
    | some i => (r.1, some i)
    | none =>
      match r.1.holds.find? (fun h => decide (h.ctx = x.2.ctx ∧ h.cseq = x.2.cseq)) with
      | some h => r.1.jCopy h x.1
      | none => r) (s, none)
  let s1 := duo.1
  let badReg := duo.2
  match badReg with
  | some i => ⟨s1, true, some i⟩
  | none =>
    let s2 := if others.isEmpty then s1 else s1.clash (partOf ((others.head?.map (·.2.ctx)).getD 0))
    let w := s2.writeMem a bs
    ⟨w.st, w.bad, none⟩

/-- The state after a write under the journal. -/
def State.store (s : State) (owner : Option (Nat × Nat)) (a : Nat) (bs : List Byte) : State := (s.storeBy owner a bs).st

end Sys2Proof.Machine
end

