-- ==== Sys2Proof/Machine/Count.lean ====
section
/-!
DEFINITION. Counter banks: counting an event, reading a bank and latching a snapshot (R590 to R596).
-/

namespace Sys2Proof.Machine

/-- Event codes of R593. -/
def cntCodes : List Nat :=
  [0x000, 0x001, 0x010, 0x011, 0x012, 0x013, 0x014, 0x015, 0x016, 0x017, 0x020, 0x021, 0x022, 0x023, 0x024, 0x030,
   0x031, 0x032, 0x033, 0x034, 0x035, 0x040, 0x041, 0x050, 0x051, 0x052] ++
  [0x060, 0x061, 0x062, 0x063, 0x070, 0x071, 0x080, 0x090, 0x091, 0x092]

/-- Codes that the context bank excludes (R593). -/
def cntNotContext : List Nat := [0x022, 0x034, 0x051, 0x080, 0x090, 0x091, 0x092]

/-- Codes that the partition bank excludes (R593). -/
def cntNotPartition : List Nat := [0x051, 0x090, 0x091, 0x092]

/-- Codes whose counts are the timing and the pip instructions that the model leaves out: their values are free (log entry
17). -/
def cntFreeCodes : List Nat := [0x021, 0x022, 0x023, 0x035, 0x070, 0x071]

/-- Whether a selector is allowed in a bank: 0 context, 1 partition, 2 module (R593). -/
def cntSelOk (scope sel : Nat) : Bool :=
  let code := bits sel 0 12
  let q := bits sel 12 4
  cntCodes.contains code &&
  (if scope = 0 then decide (q = 0) && !cntNotContext.contains code
   else if scope = 1 then decide (q < 12) && !cntNotPartition.contains code
   else decide (q = 15))

/-- An event of a command of a partition context. -/
def State.countCtx (s : State) (c code n : Nat) : State :=
  s.count (some c) (if c < 768 then some (partOf c) else none) code n

/-- The values of a bank as they are latched: a free value for each counter whose events the model leaves out. -/
def State.cntLatch (s : State) : List (Nat × Nat) → List Nat × State
  | [] => ([], s)
  | (sel, v) :: xs =>
    let duo := if cntFreeCodes.contains (bits sel 0 12) then s.drawNat else (v, s)
    let h := duo.1
    let s1 := duo.2
    let duo := s1.cntLatch xs
    let t := duo.1
    let s2 := duo.2
    (h % two64 :: t, s2)

/-- The counters of a context's bank in one step (R27, R595), eight of them. -/
def State.cntLatchCtx (s : State) (c : Nat) : List Nat × State :=
  s.cntLatch ((s.ctx c).cntSel.zip (s.ctx c).cntVal)

/-- The counter fields of a reply from its two snapshots, with PARTIAL_CNT (R231, R596); a counter whose events the model
leaves out gives a free value. -/
def State.cntReply (s : State) (sels : List Nat) (a b : CntLatch) : List Nat × Bool × State :=
  let zip4 := (sels.zip (a.tot.zip b.tot)).zip (a.chg.zip b.chg)
  let out := zip4.foldl (fun (r : List Nat × State) q =>
    let sel := q.1.1
    let d := q.1.2.2 - q.1.2.1
    if q.2.1 ≠ q.2.2 then (r.1 ++ [two64 - 1], r.2)
    else if cntFreeCodes.contains (bits sel 0 12) ∧ (a.on ∨ a.tog ≠ b.tog) then
      let duo := r.2.drawNat
      let v := duo.1
      let s' := duo.2
      (r.1 ++ [v % two64], s')
    else (r.1 ++ [d % two64], r.2)) ([], s)
  (out.1, decide (a.tog ≠ b.tog), out.2)

/-- A bank of the module: its selectors with its values. A counter of a confidential partition gives 0 (R594). -/
def State.cntBank (s : State) (b : Nat) : List (Nat × Nat) :=
  (List.range 8).map (fun j =>
    let sel := s.cntSelOf b j
    let hide := decide (b = 0) && s.confidential (bits sel 12 4)
    if hide then (0, 0) else (sel, s.fld (hmCntvalA b j) hmCntvalValue))

/-- The record of `cnt.snap` and CNT_READ (R124, R591). -/
def cntRecord (time ctx : Nat) (vals : List Nat) : List Byte :=
  natLe 8 time ++ (vals.take 8).flatMap (natLe 8) ++ natLe 2 ctx ++ zeros 54

end Sys2Proof.Machine
end

