-- ==== Sys2Proof/Machine/Evc.lean ====
section
/-!
DEFINITION. The event controller: sensing, selection, claim and completion, hold-off, strands and the writes of its
configuration (R492 to R515).
-/

namespace Sys2Proof.Machine

/-- Target 127 is the Hasia that holds the ownership latch (R494). -/
def State.evTarget (s : State) (route : Nat) : Option Nat :=
  if route = 127 then s.mgmt.latch.map (· + 68) else if route < 78 then some route else none

/-- Whether a writer is the owner Hasia (R496). -/
def State.isOwner (s : State) (w : Writer) : Bool :=
  match w with
  | .hasia d => decide (s.mgmt.latch = some d)
  | _ => false

/-- A write that the lock or the ownership refuses (R496). -/
def State.lockRefused (s : State) : State := (s.addSat evcGctlA evcGctlLockref 1).raise (32 * 97 + 1)

/-- Whether a writer may change the configuration of a source's group (R496). -/
def State.evcMayWrite (s : State) (g : Nat) (w : Writer) : Bool :=
  !s.flag (evcGrpcfgA g) evcGrpcfgLock || s.isOwner w

/-! ### Selection (R500) -/

/-- Whether a source is a candidate for target `k` (R500). -/
def State.candidate (s : State) (k src : Nat) : Bool :=
  let st := s.reg (evcSrcstatA src)
  let cf := s.reg (evcSrccfgA src)
  decide (fget st evcSrcstatPending = 1) && decide (fget cf evcSrccfgMask = 0) &&
    decide (fget st evcSrcstatActive = 0) && decide (s.evTarget (fget cf evcSrccfgRoute) = some k) &&
    !s.flag (evcGrpcfgA (src / 32)) evcGrpcfgHolding &&
    decide (s.fld (evcTgtCfgA k) evcTgtCfgThreshold < fget cf evcSrccfgPrio)

/-- The sources whose status word differs from reset, in ascending order: no other source is pending. -/
def State.evListed (s : State) : List Nat :=
  (s.regs.filter (fun e => decide (evcSrcstatA 0 ≤ e.1) && decide (e.1 < evcSrcstatA 4096))).map
    (fun e => (e.1 - evcSrcstatA 0) / 8)

/-- PRIO of a source. -/
def State.evPrio (s : State) (src : Nat) : Nat := s.fld (evcSrccfgA src) evcSrccfgPrio

/-- The better of a winner so far and a later source: highest PRIO, then lowest number (R500). -/
def State.better (s : State) (w : Option Nat) (src : Nat) : Option Nat :=
  match w with
  | none => some src
  | some x => if s.evPrio x < s.evPrio src then some src else some x

/-- The winner for target `k`; while DIS is 1 the controller selects nothing (R500, R506). -/
def State.winner (s : State) (k : Nat) : Option Nat :=
  if s.flag evcGctlA evcGctlDis then none
  else (s.evListed.filter (fun src => s.candidate k src)).foldl s.better none

/-- Whether a source is the present winner of its target. -/
def State.selected (s : State) (src : Nat) : Bool :=
  match s.evTarget (s.fld (evcSrccfgA src) evcSrccfgRoute) with
  | some k => decide (s.winner k = some src)
  | none => false

/-! ### Landing of pending writes (R498, R503) -/

/-- Lands a source's pending MODE, FILT and ROUTE where it is neither selected nor active. -/
def State.evSettleOne (s : State) (src : Nat) : State :=
  let x := s.evSrc src
  if (x.pendRoute.isNone && x.pendMode.isNone) || s.flag (evcSrcstatA src) evcSrcstatActive || s.selected src then s
  else
    let s1 := match x.pendMode with
      | some (m, f) =>
        let s' := (s.setFld (evcSrccfgA src) evcSrccfgMode m).setFld (evcSrccfgA src) evcSrccfgFilt f
        let w := s'.reg (evcSrcstatA src)
        let w := fset (fset (fset w evcSrcstatPending 0) evcSrcstatCount 0) evcSrcstatSat 0
        let w := if evcIsLevel src ∧ levelPending m (fget w evcSrcstatLevel = 1) then fset w evcSrcstatPending 1 else w
        s'.setReg (evcSrcstatA src) w
      | none => s
    let s2 := match x.pendRoute with
      | some r => (s1.setFld (evcSrccfgA src) evcSrccfgRoute r).setFld (evcSrcstatA src) evcSrcstatRoutePend 0
      | none => s1
    s2.setEvSrc src { s2.evSrc src with pendRoute := none, pendMode := none }

/-- Lands every pending write that can land. -/
def State.evSettle (s : State) : State :=
  ((s.evc.filter (fun e => e.2.pendRoute.isSome || e.2.pendMode.isSome)).map (·.1)).foldl State.evSettleOne s

/-! ### Claim and completion (R501, R502, R505) -/

/-- What a claim takes from the winner: its count and SAT, with the status word cleared and active. -/
structure Claimed where
  /-- The state after the claim. -/
  st : State
  /-- Source. -/
  src : Nat
  /-- COUNT taken. -/
  count : Nat
  /-- SAT taken. -/
  sat : Nat
  deriving DecidableEq, Repr

/-- Starts the hold-off of a group (R505). -/
def State.startHold (s : State) (g : Nat) : State :=
  let us := s.fld (evcGrpcfgA g) evcGrpcfgHoldoffUs
  if us = 0 then s
  else ({ s with evcHold := kvSet 0 s.evcHold g (s.gtime + 1000 * us + 1) }).setFld (evcGrpcfgA g) evcGrpcfgHolding 1

/-- The claim of the winner of target `k` (R501). -/
def State.takeWinner (s : State) (k src : Nat) : Claimed :=
  let w := s.reg (evcSrcstatA src)
  let w' := fset (fset (fset (fset w evcSrcstatPending 0) evcSrcstatCount 0) evcSrcstatSat 0) evcSrcstatActive 1
  let s1 := s.setReg (evcSrcstatA src) w'
  let s2 := s1.setEvSrc src { s1.evSrc src with activeAt := k }
  ⟨s2.startHold (src / 32), src, fget w evcSrcstatCount, fget w evcSrcstatSat⟩

/-- The completion of an active source (R502): a level source in mode 0 or 1 whose condition still pends is pending again. -/
def State.completeSrc (s : State) (src : Nat) : State :=
  let s1 := s.setFld (evcSrcstatA src) evcSrcstatActive 0
  if evcIsLevel src ∧ levelPending (s.fld (evcSrccfgA src) evcSrccfgMode) (s.flag (evcSrcstatA src) evcSrcstatLevel)
  then s1.setFld (evcSrcstatA src) evcSrcstatPending 1
  else s1

/-- The CLAIM word that a read of target `k` returns, and the state after it (R501, R509). -/
def State.claimRead (s : State) (k : Nat) : Word × State :=
  let noneW := fset (0 : Word) evcTgtClaimNone 1
  if s.flag (evcTgtCfgA k) evcTgtCfgStrandEn then (noneW, s)
  else
    match s.winner k with
    | none => (noneW, s)
    | some src =>
      let c := s.takeWinner k src
      (fset (fset (fset (0 : Word) evcTgtClaimSource src) evcTgtClaimCount c.count) evcTgtClaimSat c.sat, c.st)

/-- A write of a source number to COMPLETE of target `k` (R502). -/
def State.completeWrite (s : State) (k src : Nat) : State :=
  if s.flag (evcSrcstatA src) evcSrcstatActive ∧ (s.evSrc src).activeAt = k then s.completeSrc src
  else s.raise (32 * 97 + 2)

/-! ### Strands (R509 to R512) -/

/-- Records that target `k`'s strand holds (R509). -/
def State.strandSize (s : State) (k : Nat) : Nat := 2 ^ min 8 (s.fld (evcTgtCfgA k) evcTgtCfgSizeLog) * 4096 / 32

/-- The records written and not consumed, modulo 2^32 (R509). -/
def State.occupancy (s : State) (k : Nat) : Nat :=
  (s.fld (evcTgtProdA k) evcTgtProdProd + two32 - s.fld (evcTgtConsA k) evcTgtConsCons) % two32

/-- Writes one strand record and advances PROD (R511). -/
def State.strandPut (s : State) (k src count flags first info : Nat) : State :=
  let seq := kvGet 0 s.evcSeq k + 1
  let prod := s.fld (evcTgtProdA k) evcTgtProdProd
  let slot := prod % s.strandSize k
  let a := 4096 * s.fld (evcTgtBaseA k) evcTgtBaseBase + 32 * slot
  let rec_ := natLe 2 src ++ natLe 1 count ++ natLe 1 flags ++ natLe 4 seq ++ natLe 8 first ++ natLe 8 s.gtime ++ natLe 8 info
  let s1 := (s.store none a rec_)
  ({ s1 with evcSeq := kvSet 0 s1.evcSeq k (seq % two32) }).setFld (evcTgtProdA k) evcTgtProdProd (prod + 1)

/-- INFO of a record: what its source's group puts there (R511). -/
def State.evInfo (s : State) (src : Nat) : Nat :=
  let g := src / 32
  if g ≤ 23 ∨ (48 ≤ g ∧ g ≤ 72) ∨ g = 87 ∨ g = 88 then (s.evSrc src).info else 0

/-- One delivery to strand target `k` (R510, R512). -/
def State.strandDeliver (s : State) (k : Nat) : State :=
  if !s.flag (evcTgtCfgA k) evcTgtCfgStrandEn then s
  else
    match s.winner k with
    | none => s
    | some src =>
      let n := s.strandSize k
      let occ := s.occupancy k
      let ovf := s.flag (evcTgtCfgA k) evcTgtCfgStrandOvf
      if !ovf && decide (n ≤ occ) then s
      else
        let first := (s.evSrc src).first
        let info := s.evInfo src
        let c := s.takeWinner k src
        let s1 := c.st.setFld (evcSrcstatA src) evcSrcstatActive 0
        if ovf then
          (s1.addSat (evcTgtLostA k) evcTgtLostLostRecords 1).addSat (evcTgtLostA k) evcTgtLostLostEvents c.count
        else if occ + 2 ≤ n then s1.strandPut k src c.count (c.sat + 4 * b2n (evcIsLevel src)) first info
        else
          ((s1.strandPut k 0xFFFF c.count 2 first 0).setFld (evcTgtCfgA k) evcTgtCfgStrandOvf 1).raise (32 * 97)

/-- IRQ of target `k` (R501, R506, R510). -/
def State.evIrq (s : State) (k : Nat) : Bool :=
  if s.flag evcGctlA evcGctlDis then false
  else if s.flag (evcTgtCfgA k) evcTgtCfgStrandEn then decide (s.occupancy k ≠ 0)
  else (s.winner k).isSome

/-! ### The glitch filter (R499) -/

/-- GTIME at which the filter takes a pin level that has held since `since`, for FILT `n`. -/
def filterAt (since n : Nat) : Nat := 40 * (since / 40 + n + 1)

/-- Takes the filtered levels of the sideband pins whose time has come. -/
def State.filterPins (s : State) (now : Nat) : State :=
  ((List.range 12).map (· + 32 * 95)).foldl (fun s src =>
    let x := s.evSrc src
    let n := s.fld (evcSrccfgA src) evcSrccfgFilt
    if x.pin.1 ≠ x.sensed ∧ filterAt x.pin.2 n ≤ now then
      let t := s.gtime
      let s1 := ({ s with gtime := filterAt x.pin.2 n }).setEvSrc src { x with sensed := x.pin.1 }
      { s1.senseLevel src x.pin.1 with gtime := t }
    else s) s

/-- A change of a level source's condition as the hardware sees it: a sideband pin goes through the filter where one is set
(R497, R499). -/
def State.setLevel (s : State) (src : Nat) (v : Bool) : State :=
  if !evcIsLevel src then s
  else if src / 32 = 95 then
    let x := s.evSrc src
    if s.fld (evcSrccfgA src) evcSrccfgFilt = 0 then
      (s.setEvSrc src { x with pin := (v, s.gtime), sensed := v }).senseLevel src v
    else if x.pin.1 = v then s
    else s.setEvSrc src { x with pin := (v, s.gtime) }
  else s.senseLevel src v

/-! ### Resets (R513, R514) -/

/-- Clears the pending state and activity of a source. -/
def State.evClear (s : State) (src : Nat) : State :=
  let w := s.reg (evcSrcstatA src)
  s.setReg (evcSrcstatA src)
    (fset (fset (fset (fset w evcSrcstatPending 0) evcSrcstatCount 0) evcSrcstatSat 0) evcSrcstatActive 0)

/-- The event controller's part of a partition reset (R513). -/
def State.evPartReset (s : State) (p : Nat) : State :=
  let mine : Nat → Bool := fun src =>
    let g := src / 32
    g == 2 * p || g == 2 * p + 1 || g == 24 + 2 * p || g == 25 + 2 * p || g == 73 + p ||
      (decide (1536 + 64 * p ≤ src) && decide (src < 1600 + 64 * p))
  let targets := [32 + p, 44 + 2 * p, 45 + 2 * p]
  (s.evListed.foldl (fun s src =>
    if mine src then s.evClear src
    else if s.flag (evcSrcstatA src) evcSrcstatActive ∧ targets.contains (s.evSrc src).activeAt then s.completeSrc src
    else s) s).evSettle

/-- A change of the ownership latch: sources active at the old owner are completed (R514). -/
def State.evOwnerChange (s : State) (old : Nat) : State :=
  (s.evListed.foldl (fun s src =>
    if s.flag (evcSrcstatA src) evcSrcstatActive ∧ (s.evSrc src).activeAt = 68 + old then s.completeSrc src else s) s).evSettle

/-- Every register of the event controller back at its reset value (R513). -/
def State.evModuleReset (s : State) : State :=
  { s with regs := kvClear s.regs 0x30600000000 0x1000000, evc := [], evcHold := [], evcSeq := [] }

/-! ### The commands -/

/-- EVENT_OCCURRENCE (R492, R493). -/
def execEventOccurrence (src : Nat) (s : State) : Host.Outcome State Fault Refusal :=
  .next (if src < 4096 then (s.raise src).evSettle else s)

/-- COMPLETE (R502). -/
def execComplete (k src : Nat) (s : State) : Host.Outcome State Fault Refusal :=
  .next (if k < 78 then (s.completeWrite k (src % 4096)).evSettle else s)

/-- STRAND_CONS_WRITE (R509, R515): a value that lies past PROD is taken as PROD. -/
def execStrandConsWrite (k v : Nat) (s : State) : Host.Outcome State Fault Refusal :=
  .next
    (if k < 78 then
      let prod := s.fld (evcTgtProdA k) evcTgtProdProd
      let v := v % two32
      let d := (v + two32 - prod) % two32
      s.setFld (evcTgtConsA k) evcTgtConsCons (if 1 ≤ d ∧ d < 2 ^ 31 then prod else v)
    else s)

/-- GLOBAL_DISABLE_WRITE (R496, R506). -/
def execGlobalDisableWrite (v : Bool) (by_ : Writer) (s : State) : Host.Outcome State Fault Refusal :=
  .next (if s.isOwner by_ then (s.setFld evcGctlA evcGctlDis (b2n v)).evSettle else s.lockRefused)

/-- SOURCE_MODE_WRITE (R498): MODE 5 to 7 is ignored, and an occurrence source keeps MODE 2. -/
def execSourceModeWrite (src mode filt : Nat) (by_ : Writer) (s : State) : Host.Outcome State Fault Refusal :=
  .next
    (if 4096 ≤ src then s
    else if !s.evcMayWrite (src / 32) by_ then s.lockRefused
    else
      let w := s.reg (evcSrccfgA src)
      let m0 := fget w evcSrccfgMode
      let m := if mode ≤ 4 ∧ evcIsLevel src then mode else m0
      let f := filt % 256
      if m = m0 ∧ f = fget w evcSrccfgFilt then s
      else (s.setEvSrc src { s.evSrc src with pendMode := some (m, f) }).evSettle)

/-- ROUTE_WRITE (R494, R503): a route of 70 to 126 is ignored. -/
def execRouteWrite (src r : Nat) (by_ : Writer) (s : State) : Host.Outcome State Fault Refusal :=
  .next
    (if 4096 ≤ src then s
    else if !s.evcMayWrite (src / 32) by_ then s.lockRefused
    else
      let r := r % 128
      if 70 ≤ r ∧ r ≤ 126 then s
      else
        let x := s.evSrc src
        if r = s.fld (evcSrccfgA src) evcSrccfgRoute then
          (s.setEvSrc src { x with pendRoute := none }).setFld (evcSrcstatA src) evcSrcstatRoutePend 0
        else
          ((s.setEvSrc src { x with pendRoute := some r }).setFld (evcSrcstatA src) evcSrcstatRoutePend 1).evSettle)

end Sys2Proof.Machine
end

