-- ==== Sys2Proof/Machine/Start.lean ====
section
/-!
DEFINITION. The conditions under which an accepted command starts (R226, R240, R244, R257, R362, R549, R599), and the free
intake units of a context (R216, R236).
-/

namespace Sys2Proof.Machine

/-! ### Commands in flight -/

/-- The command of a context with a CSEQ. -/
def Ctx.cmd (x : Ctx) (cseq : Nat) : Option Cmd := x.cmds.find? (fun c => decide (c.cseq = cseq))

/-- The oldest unstarted command of a context. -/
def Ctx.oldest (x : Ctx) : Option Cmd := x.cmds.find? (fun c => decide (c.stage = .accepted))

/-- The commands that precede the oldest unstarted one. -/
def Ctx.before (x : Ctx) : List Cmd := x.cmds.takeWhile (fun c => decide (c.stage ≠ .accepted))

/-- Changes the command of a context with a CSEQ. -/
def State.modCmd (s : State) (ctx cseq : Nat) (f : Cmd → Cmd) : State :=
  s.modCtx ctx (fun x => { x with cmds := x.cmds.map (fun c => if c.cseq = cseq then f c else c) })

/-- A command that has started and not retired: it ran or runs (R226). -/
def Cmd.running (c : Cmd) : Bool := c.ran

/-- The declared regions of a command (R255). -/
def State.cmdRegions (s : State) (ctx : Nat) (c : Cmd) : List Regn := s.regions ctx c.packet (c.pairs.getD [])

/-- The contexts that hold commands, as (context, commands). -/
def State.busyCtxs (s : State) : List (Nat × Ctx) := s.ctxs.filter (fun e => !e.2.cmds.isEmpty)

/-- The contexts of a partition that hold commands. -/
def State.partCtxs (s : State) (p : Nat) : List (Nat × Ctx) :=
  s.busyCtxs.filter (fun e => decide (e.1 < 768 ∧ partOf e.1 = p))

/-- Whether a context has an unretired command. -/
def State.hasCmds (s : State) (c : Nat) : Bool := !(s.ctx c).cmds.isEmpty

/-- Collective opcodes (R280). -/
def Opc.isColl : Opc → Bool
  | .allreduce | .reduce | .bcast | .allgather | .barrier => true
  | _ => false

/-- Commands that the hub decoder runs on decoder-owned units (R257). -/
def Opc.isDecoder : Opc → Bool
  | .move | .fill | .gather | .scatter | .matmul | .matmulAcc => true
  | _ => false

/-- Commands that hold kernels. -/
def Opc.isRun : Opc → Bool
  | .run | .runWait => true
  | _ => false

/-- Opcode of a command satisfies a test. -/
def Cmd.is (c : Cmd) (f : Opc → Bool) : Bool := match c.opc with
  | some o => f o
  | none => false

/-- Whether a collective or BARRIER of the partition runs, so that its MEs are held idle (R282). -/
def State.collRunning (s : State) (p : Nat) : Bool :=
  (s.partCtxs p).any (fun e => e.2.cmds.any (fun c => c.is Opc.isColl && decide (c.stage = .started)))

/-! ### Decoder units (R257, R273) -/

/-- Identifier of logical ME `m` of tile `t` among the units commands claim. -/
def meUnit (t m : Nat) : Nat := 32 * t + m
/-- Identifier of mover `j` of tile `t`. -/
def mvUnit (t j : Nat) : Nat := 32 * t + 8 + j
/-- Identifier of hart `h` of tile `t`. -/
def hartUnit (t h : Nat) : Nat := 1024 + 32 * t + h

/-- Whether a power domain is on (R26). -/
def State.domOn (s : State) (d : Nat) : Bool := kvGet false s.domains d

/-- The physical ME of a logical one (R142). -/
def State.mePhys (s : State) (t m : Nat) : Nat := bits (s.fld (ctCapA t) ctCapMemap) (3 * m) 3

/-- Whether a logical ME exists in a tile (R118, R137). -/
def State.mePresent (s : State) (t m : Nat) : Bool := decide (m < 6) && !(kvGet 0 s.meAbsent t).testBit m

/-- Whether a logical hart exists in a tile. -/
def State.hartPresent (s : State) (t h : Nat) : Bool := decide (h < 32) && !(kvGet 0 s.pipAbsent t).testBit h

/-- Whether an ME is powered and not in reset (R26, R118, R140). -/
def State.meUp (s : State) (t m : Nat) : Bool :=
  let g := s.mePhys t m / 4
  s.domOn (3 * t + min g 1) && s.domOn (3 * t + 2) &&
    !s.flag (ctRstA t) (if g = 0 then ctRstGrpaBusy else ctRstGrpbBusy)

/-- Whether the pips own an ME (R102). -/
def State.mePip (s : State) (t m : Nat) : Bool := (s.fld (ctOwnA t) ctOwnMePip).testBit m
/-- Whether the pips own a mover (R142). -/
def State.mvPip (s : State) (t j : Nat) : Bool := (s.fld (ctOwnA t) ctOwnMvPip).testBit j

/-- Decoder-owned MEs of a partition's tiles in slot order (R257, R265), as (tile, ME). -/
def State.decMes (s : State) (p : Nat) : List (Nat × Nat) :=
  ([2 * p, 2 * p + 1].flatMap (fun t => (List.range 6).map (fun m => (t, m)))).filter (fun x =>
    s.mePresent x.1 x.2 && !s.mePip x.1 x.2 && s.meUp x.1 x.2)

/-- Decoder-owned movers of a partition's tiles, lowest first and CT2p first (R257). -/
def State.decMvs (s : State) (p : Nat) : List (Nat × Nat) :=
  ([2 * p, 2 * p + 1].flatMap (fun t => (List.range 8).map (fun j => (t, j)))).filter (fun x =>
    !s.mvPip x.1 x.2 && s.domOn (3 * x.1 + 2))

/-- Units that unretired commands of a partition hold. -/
def State.claimed (s : State) (p : Nat) : List Nat := (s.partCtxs p).flatMap (fun e => e.2.cmds.flatMap (·.units))

/-- Whether the partition's tile domains are on (R395). -/
def State.tilesOn (s : State) (p : Nat) : Bool :=
  s.domOn (3 * (2 * p) + 2) && s.domOn (3 * (2 * p + 1) + 2)

/-- The outermost count above 1 of a mover operation, or 1 (R257, R260). -/
def outerCount (o : Opc) (pk : List Byte) : Nat :=
  let p := par pk
  match o with
  | .gather => p 28 4
  | _ => if 1 < p 36 4 then p 36 4 else if 1 < p 32 4 then p 32 4 else p 28 4

/-- The units that a command would claim now, or none where a unit it needs is not free (R257, R273). -/
def State.unitsFor (s : State) (ctx : Nat) (pk : List Byte) : Option (List Nat) :=
  match pOpc pk with
  | none => some []
  | some o =>
    let p := partOf ctx
    let held := s.claimed p
    let mvs := ((s.decMvs p).map (fun x => mvUnit x.1 x.2)).filter (fun u => !held.contains u)
    match o with
    | .matmul | .matmulAcc =>
      let mes := (s.decMes p).map (fun x => meUnit x.1 x.2)
      if mes.isEmpty || mvs.isEmpty || mes.any (fun u => held.contains u) then none else some (mes ++ mvs)
    | .move | .fill | .gather => if mvs.isEmpty then none else some (mvs.take (max 1 (outerCount o pk)))
    | .scatter => if mvs.isEmpty then none else some (mvs.take 1)
    | .run | .runWait =>
      let q := par pk
      let tiles := (List.range 2).filter (fun i => (q 0 1).testBit i)
      let harts := tiles.flatMap (fun i => (List.range (q 1 1)).map (fun h => (2 * p + i, h)))
      let units := (List.range 2).flatMap (fun i =>
        ((List.range 6).filter (fun m => (q (2 + i) 1).testBit m)).map (fun m => meUnit (2 * p + i) m) ++
        ((List.range 8).filter (fun j => (q (4 + i) 1).testBit j)).map (fun j => mvUnit (2 * p + i) j))
      let hu := harts.map (fun x => hartUnit x.1 x.2)
      if harts.all (fun x => s.hartPresent x.1 x.2 && !(s.hart x.1 x.2).running && s.domOn (3 * x.1 + 2)) &&
          !(units ++ hu).any (fun u => held.contains u)
      then some (units ++ hu) else none
    | _ => some []

/-! ### Waits (R240) -/

/-- The replay that runs a context, if one does: its clasp table stands in for the partition's own (R389). -/
def State.replayOf (s : State) (ctx : Nat) : Option Recorder :=
  if ctx < 768 then
    let r := s.recorder (partOf ctx)
    if r.repActive ∧ r.repCtx = ctx then some r else none
  else none

/-- VALUE of the clasp that a context's packet names. -/
def State.ctxClasp (s : State) (ctx i : Nat) : Nat :=
  match s.replayOf ctx with
  | some r => kvGet 0 r.clasps i
  | none => s.claspVal (claspTab ctx) i

/-- TAINT of the clasp that a context's packet names. -/
def State.ctxTaint (s : State) (ctx i : Nat) : Bool :=
  match s.replayOf ctx with
  | some r => decide (kvGet 0 r.taints i = 1)
  | none => s.claspTaint (claspTab ctx) i

/-- Whether a wait field of a context's packet is satisfied. -/
def State.waitSat (s : State) (ctx f : Nat) : Bool :=
  decide (clVal f = 0) || decide (clVal f ≤ s.ctxClasp ctx (clIdx f))

/-- Whether a wait field is satisfied by a tainted clasp (R240). -/
def State.waitTainted (s : State) (ctx f : Nat) : Bool :=
  decide (clVal f ≠ 0) && s.waitSat ctx f && s.ctxTaint ctx (clIdx f)

/-- Whether both waits of a packet are satisfied. -/
def State.waitsSat (s : State) (ctx : Nat) (pk : List Byte) : Bool :=
  s.waitSat ctx (pWait pk 0) && s.waitSat ctx (pWait pk 1)

/-! ### Conflicts (R150, R175, R176, R226) -/

/-- Whether two commands' regions conflict under R226: a shared block of which at least one side is written. -/
def regionsConflict (as bs : List Regn) : Bool := as.any (fun a => bs.any (fun b => a.shares b && (a.written || b.written)))

/-- Whether regions conflict under R176: a shared block that one side holds in place and the other writes. -/
def inPlaceConflict (as bs : List Regn) : Bool :=
  as.any (fun a => bs.any (fun b => a.shares b && a.written && b.written &&
    (decide (a.role = .inPlace) || decide (b.role = .inPlace))))

/-- Whether a region lies in a tier segment that is being filled (R150, R169), or in a partition that is. -/
def State.inFill (s : State) (r : Regn) : Bool :=
  match regionOf r.addr.toNat with
  | .tier => (List.range (segOf (r.addr.toNat + r.size - 1) + 1 - segOf r.addr.toNat)).any (fun i =>
      s.flag (tdSegA (segOf r.addr.toNat + i)) tdSegFilling)
  | .hbm p => s.flag (phXtsA p) phXtsFilling
  | _ => false

/-- Slots that a command needs (R175). -/
def slotsFor (rs : List Regn) : Nat := (inPlaceBlocks rs).length

/-- Whether enough slots of the partition's journal are free (R175). -/
def State.slotsFree (s : State) (p : Nat) (rs : List Regn) : Bool := decide (s.jUsed p + slotsFor rs ≤ jSlots)

/-! ### Holding by commits and cameos (R549, R599) -/

/-- Slices whose tables a set of staged fields touches, by directory entry (R336). -/
def stagedEntries (staged : List (Nat × Nat × Nat × Nat)) : List Nat :=
  (staged.filterMap (fun f =>
    let a := f.1
    if fdSlicedirA 0 ≤ a ∧ a < fdSlicedirA 64 then some ((a - fdSlicedirA 0) / 8)
    else if fdMcastA 0 0 ≤ a ∧ a < fdMcastA 64 0 then some ((a - fdMcastA 0 0) / 0x400)
    else if fdTreedefA 0 0 ≤ a ∧ a < fdTreedefA 64 0 then some ((a - fdTreedefA 0 0) / 0x800)
    else if fdRouteA 0 0 ≤ a ∧ a < fdRouteA 64 0 then some ((a - fdRouteA 0 0) / 0x1000)
    else if fdRankmapA 0 0 ≤ a ∧ a < fdRankmapA 64 0 then some ((a - fdRankmapA 0 0) / 0x10000)
    else none)).eraseDups

/-- Tier segments whose OWNER a set of staged fields changes (R548). -/
def State.stagedSegs (s : State) (staged : List (Nat × Nat × Nat × Nat)) : List Nat :=
  staged.filterMap (fun f =>
    if tdSegA 0 ≤ f.1 ∧ f.1 < tdSegA 896 then
      let sg := (f.1 - tdSegA 0) / 8
      if s.segOwner sg = f.2.2.2 then none else some sg
    else none)

/-- Whether a command sends or receives fabric traffic (R336). -/
def usesFabric (pk : List Byte) : Bool :=
  match pOpc pk with
  | some .signalRemote => true
  | some .move | some .fill | some .gather | some .scatter => (par pk 1 1).testBit 2
  | some o => o.isColl
  | none => false

/-- Whether a region touches one of a set of tier segments. -/
def Regn.inSegs (r : Regn) (segs : List Nat) : Bool :=
  match regionOf r.addr.toNat with
  | .tier => segs.any (fun g => decide (segOf r.addr.toNat ≤ g) && decide (g ≤ segOf (r.addr.toNat + r.size - 1)))
  | _ => false

/-- The pages that an ATTN_PAGES lists, as regions; the index is log entry 18. -/
def State.attnPageRegs (s : State) (pk : List Byte) : List Regn :=
  match pOpc pk with
  | some .attnPages =>
    (List.range (par pk 12 4)).map (fun i =>
      ⟨0xFF, .input, (65536 * (leAt (s.peek (par pk 16 8 + 8 * i) 8) 0 8 % 2 ^ 44 / 65536) : Nat), 65536⟩)
  | _ => []

/-- Whether a started command of a context breaks the quiescence of a transaction's scope (R548). -/
def State.breaksQuiet (s : State) (t : Txn) (ctx : Nat) (c : Cmd) : Bool :=
  let inst := bits t.scope 16 16
  match bits t.scope 0 16 with
  | 1 => decide (ctx = inst)
  | 3 => (s.cmdRegions ctx c ++ s.attnPageRegs c.packet).any (fun r => r.inSegs (s.stagedSegs t.staged))
  | 4 => decide (ctx < 768 ∧ partOf ctx = inst)
  | 5 => usesFabric c.packet && (stagedEntries t.staged).any (fun i =>
      let sl := s.fld (fdSlicedirA i) fdSlicedirSlice
      decide (ctx < 768 ∧ sl ≠ 0 ∧ s.ctxSlice ctx = sl))
  | _ => false

/-- Whether a commit in progress holds the start of a command (R549). -/
def State.heldByCommit (s : State) (ctx : Nat) (c : Cmd) : Bool :=
  s.txns.any (fun t => match t.commit with
    | some (cs, _) => !(decide (t.opener = ctx ∧ cs = c.cseq)) && s.breaksQuiet t ctx c
    | none => false)

/-- The tensors of the triggered dumps of a partition that have not been read (R599). -/
def State.dumpTensors (s : State) (p : Nat) : List (Nat × Nat) :=
  (kvGet [] s.dumpQ p).filterMap (fun q =>
    ((s.ctx q.1).cameos.find? (fun k => decide (k.id = q.2))).bind (fun k => k.entry.map (fun e => (e.addr, e.len))))

/-- Whether a triggered dump holds the start of a command (R599). -/
def State.heldByCameo (s : State) (ctx : Nat) (c : Cmd) : Bool :=
  decide (ctx < 768) && (s.dumpTensors (partOf ctx)).any (fun t =>
    (s.cmdRegions ctx c).any (fun r => r.written && r.shares ⟨0, .input, (t.1 : Nat), t.2⟩))

/-! ### Collective order (R362) -/

/-- `a` is later than `b` among 32-bit sequence numbers (R223). -/
def later (a b : Nat) : Bool :=
  let d := (a + two32 - b % two32) % two32
  decide (1 ≤ d) && decide (d ≤ 2 ^ 31 - 1)

/-- COLL_SEQ of a collective. -/
def collSeq (pk : List Byte) : Nat := par pk 28 4

/-- NEXT_COLL of a context's slice. -/
def State.nextColl (s : State) (ctx : Nat) : Nat :=
  s.fld (fdCollstatA ((s.sliceEntry (s.ctxSlice ctx)).getD 0)) fdCollstatNextColl

/-! ### Free intake units (R216, R236) -/

/-- Units of a context's intake buffer that are held or reserved. -/
def Ctx.unitsHeld (x : Ctx) : Nat :=
  x.rx.length / 64 + x.rxLeft + sumNat (x.ready.map (fun p => frameLen p)) +
    sumNat ((x.cmds.filter (fun c => decide (c.stage = .accepted))).map (fun c => frameLen c.packet))

/-- Whether a partition is out of service (R522, R570). -/
def State.outOfService (s : State) (p : Nat) : Bool := s.flag (phPrstA p) phPrstOutOfService

/-- Whether a context takes no packets: the module has not reported ready, or the context is disabled, a replay target, in a
partition out of service or fenced for a reset, in a partition that another tenant session holds, or an administration context
whose hub is lost (R236, R295, R303, R521, R568, R570, R571). -/
def State.takesNone (s : State) (c : Nat) : Bool :=
  decide (c ≠ 800) && !s.boot.open_ ||
  decide (s.cfg0 c phCtxcfg0Enabled = 0 ∧ c ≠ 800) ||
  (decide (768 ≤ c) && decide (c ≠ 800) && s.boot.adminLost) ||
  (decide (c < 768) &&
    ((s.replayOf c).isSome || s.outOfService (partOf c) || (s.bezel (partOf c)).resetHold ||
      s.locket.sessions.any (fun x => x.parts.contains (partOf c) && !x.ctxs.contains c)))

/-- FREE of a context (R216, R236). -/
def State.free_ (s : State) (c : Nat) : Nat := if s.takesNone c then 0 else 1024 - (s.ctx c).unitsHeld

/-! ### Progress marks (R562) -/

/-- Unit key of a context in the table of progress windows. -/
def ctxKey (c : Nat) : Nat := 4096 + c
/-- Unit key of a press engine. -/
def pressKey (d e : Nat) : Nat := 2048 + 16 * d + e
/-- Unit key of a reduction unit. -/
def ruKey (f u : Nat) : Nat := 2304 + 2 * f + u

/-- The counter of a unit advances, or its window begins to run (R562). -/
def State.progress (s : State) (key : Nat) : State := { s with windows := kvSet 0 s.windows key s.gtime }

/-! ### Finishing (R231, R247, R595) -/

/-- Marks an unfinished command finished with its result; a corrected error turns OK into OK_CORRECTED (R247). -/
def State.finish (s : State) (ctx cseq : Nat) (st : Status) (detail aux : Nat) : State :=
  (s.modCtx ctx (fun x => { x with cmds := x.cmds.map (fun c =>
    if c.cseq = cseq ∧ c.stage ≠ .finished then
      { c with stage := .finished, status := if st = .ok ∧ c.corrected then .okCorrected else st, detail := detail,
               aux := aux, tEnd := s.gtime, cnt1 := x.cntNow }
    else c) })).progress (ctxKey ctx)

/-- DETAIL with no region and no unit fault code (R248). -/
def noDetail : Nat := 0xFF00

/-- Finishes a command with a status that returns AUX 0 (R254). -/
def State.fail (s : State) (ctx cseq : Nat) (st : Status) : State := s.finish ctx cseq st noDetail 0

/-- Finishes the RUN_WAIT commands whose harts have ended and whose DONE_CLASP has reached its target (R276); `p` is the
partition and `i` the clasp that changed. AUX is held since the last hart's exit. -/
def State.doneWake (s : State) (p i : Nat) : State :=
  if 12 ≤ p then s
  else
    (s.partCtxs p).foldl (fun s e =>
      (e.2.cmds.filter (fun c => decide (c.stage = .started) && c.issued && decide (c.left = 0) &&
        decide (c.opc = some .runWait) && decide (par c.packet 24 4 = i))).foldl (fun s c =>
          if s.ctxClasp e.1 i < bits (par c.packet 32 8) 0 44 then s
          else
            let s1 := if (s.replayOf e.1).isSome then s else s.observe p i e.1 c.cseq
            if s1.ctxTaint e.1 i then s1.finish e.1 c.cseq .droppedDep (mkDetail 0xF3 0) 0
            else s1.finish e.1 c.cseq .ok noDetail c.moved) s) s

/-- What a change of a clasp's value wakes (R120, R276). -/
def State.settleClasp (s : State) (tab i : Nat) : State := (s.wakeHarts tab i).doneWake tab i

end Sys2Proof.Machine
end

