-- ==== Sys2Proof/Machine/Clock.lean ====
section
/-!
DEFINITION. The passing of GTIME up to the time at which a command happens: wait times, tick counters and the glitch filters
(R57, R58, R244, R499, R590; log entries 3, 4 and 6).
-/

namespace Sys2Proof.Machine

/-- MAXFLIGHT of a context; the management context has no configuration field for it (R209). -/
def State.maxflight (s : State) (c : Nat) : Nat := if c = 800 then 32 else s.cfg0 c phCtxcfg0Maxflight

/-- WAIT_LIMIT of a context in ticks, 0 for none (R244). -/
def State.waitLimit (s : State) (c : Nat) : Nat := if c = 800 then 0 else s.cfg2 c phCtxcfg2WaitLimit * 1000000

/-- Whether a command is a RUN_WAIT whose harts have ended and whose DONE_CLASP has not reached its target (R244, R276). -/
def State.doneWait (s : State) (ctx : Nat) (c : Cmd) : Bool :=
  decide (c.stage = .started) && c.issued && decide (c.left = 0) && decide (c.opc = some .runWait) &&
    decide (s.ctxClasp ctx (par c.packet 24 4) < bits (par c.packet 32 8) 0 44)

/-- Whether a unit that a command needs is not free (R244, R257). -/
def State.unitBlocked (s : State) (ctx : Nat) (c : Cmd) : Bool :=
  decide (ctx < 768) && (s.unitsFor ctx c.packet).isNone

/-- Whether a context's oldest unstarted command waits for journal slots (R175, R236). -/
def State.journalWait (s : State) (ctx : Nat) : Bool :=
  match (s.ctx ctx).oldest with
  | some c =>
    decide (ctx < 768) && s.waitsSat ctx c.packet &&
      (let rs := s.cmdRegions ctx c
       decide (slotsFor rs ≠ 0) && !s.slotsFree (partOf ctx) rs)
  | none => false

/-- What `dt` ticks add in one context: the wait time of R244 and the tick counts of R593. -/
def State.ctxTicks (s : State) (dt c : Nat) : State :=
  let x := s.ctx c
  let s1 := match x.oldest with
    | some k =>
      let clasp := !s.waitsSat c k.packet
      let s' := if clasp || s.unitBlocked c k then
          s.modCmd c k.cseq (fun k => { k with waited := k.waited + dt })
        else s
      let s' := if clasp then s'.countCtx c 0x061 dt else s'
      if s.journalWait c then s'.countCtx c 0x062 dt else s'
    | none => s
  (x.cmds.filter (fun k => s.doneWait c k)).foldl (fun s k =>
    (s.modCmd c k.cseq (fun k => { k with waited := k.waited + dt })).progress (ctxKey c)) s1

/-- The ticks of every enabled bank (R593 code 0x001). -/
def State.bankTicks (s : State) (dt : Nat) : State :=
  let s1 := (s.ctxs.filter (fun e => e.2.cntOn)).foldl (fun s e => s.modCtx e.1 (fun x => x.count 1 dt)) s
  let bank : State → Nat → State := fun s b =>
    if s.flag (hmCntbankA b) hmCntbankEnabled then
      (List.range 8).foldl (fun s j =>
        let sel := s.cntSelOf b j
        if bits sel 0 12 = 1 ∧ ¬(b = 0 ∧ s.confidential (bits sel 12 4)) then s.addWrap (hmCntvalA b j) hmCntvalValue dt
        else s) s
    else s
  bank (bank s1 0) 1

/-- GTIME goes on to `now`; a time that has passed changes nothing (log entry 6). -/
def State.advance (s : State) (now : Nat) : State :=
  if now ≤ s.gtime then s
  else
    let dt := now - s.gtime
    let s1 := ((s.busyCtxs.map (·.1)).foldl (fun s c => s.ctxTicks dt c) s).bankTicks dt
    { s1.filterPins now with gtime := now }

end Sys2Proof.Machine
end

