-- ==== Sys2Proof/Machine/Sha.lean ====
section
/-!
DEFINITION. SHA-256 (FIPS 180-4, named by R17) and HMAC over it. Hallmarks, record digests and the key derivations of
spec/14_security.md rest on it.
-/

namespace Sys2Proof.Machine

/-- A 32-bit word of SHA-256. -/
abbrev W32 := BitVec 32

/-- The first primes, whose roots give the constants of FIPS 180-4. -/
def primes64 : List Nat :=
  [2, 3, 5, 7, 11, 13, 17, 19, 23, 29, 31, 37, 41, 43, 47, 53, 59, 61, 67, 71, 73, 79, 83, 89, 97, 101, 103, 107, 109,
   113, 127, 131] ++
  [137, 139, 149, 151, 157, 163, 167, 173, 179, 181, 191, 193, 197, 199, 211, 223, 227, 229, 233, 239, 241, 251, 257,
   263, 269, 271, 277, 281, 283, 293, 307, 311]

/-- The largest number below 2^`n` with `p` true of it, for a `p` that holds up to some point and not after. -/
def bisect (p : Nat → Bool) : Nat → Nat → Nat
  | 0, acc => acc
  | n + 1, acc => if p (acc + 2 ^ n) then bisect p n (acc + 2 ^ n) else bisect p n acc

/-- First 32 bits of the fractional part of the square root of `p`. -/
def sqrtFrac (p : Nat) : W32 := BitVec.ofNat 32 (bisect (fun r => decide (r * r ≤ p * 2 ^ 64)) 40 0)

/-- First 32 bits of the fractional part of the cube root of `p`. -/
def cbrtFrac (p : Nat) : W32 := BitVec.ofNat 32 (bisect (fun r => decide (r * r * r ≤ p * 2 ^ 96)) 40 0)

/-- Initial hash value of SHA-256. -/
def shaInit : List W32 := (primes64.take 8).map sqrtFrac

/-- Round constants of SHA-256. -/
def shaK : List W32 := primes64.map cbrtFrac

/-- Σ and σ functions of SHA-256. -/
def shaBig0 (x : W32) : W32 := x.rotateRight 2 ^^^ x.rotateRight 13 ^^^ x.rotateRight 22
/-- Σ1 of SHA-256. -/
def shaBig1 (x : W32) : W32 := x.rotateRight 6 ^^^ x.rotateRight 11 ^^^ x.rotateRight 25
/-- σ0 of SHA-256. -/
def shaSml0 (x : W32) : W32 := x.rotateRight 7 ^^^ x.rotateRight 18 ^^^ (x >>> 3)
/-- σ1 of SHA-256. -/
def shaSml1 (x : W32) : W32 := x.rotateRight 17 ^^^ x.rotateRight 19 ^^^ (x >>> 10)

/-- Extends the message schedule by `fuel` words; the list is kept newest first. -/
def shaExtend : Nat → List W32 → List W32
  | 0, ws => ws
  | fuel + 1, ws =>
    shaExtend fuel ((shaSml1 (ws.getD 1 0) + ws.getD 6 0 + shaSml0 (ws.getD 14 0) + ws.getD 15 0) :: ws)

/-- The 16 big-endian words of a 64-byte block. -/
def shaWords (b : List Byte) : List W32 :=
  (List.range 16).map (fun i => BitVec.ofNat 32 (leNat ((b.drop (4 * i)).take 4).reverse))

/-- One round of SHA-256 on the eight working variables. -/
def shaRound (v : List W32) (kw : W32 × W32) : List W32 :=
  match v with
  | [a, b, c, d, e, f, g, h] =>
    let t1 := h + shaBig1 e + ((e &&& f) ^^^ (~~~e &&& g)) + kw.1 + kw.2
    let t2 := shaBig0 a + ((a &&& b) ^^^ (a &&& c) ^^^ (b &&& c))
    [t1 + t2, a, b, c, d + t1, e, f, g]
  | v => v

/-- The compression of one block. -/
def shaBlock (h : List W32) (b : List Byte) : List W32 :=
  let ws := (shaExtend 48 (shaWords b).reverse).reverse
  let v := (shaK.zip ws).foldl shaRound h
  (h.zip v).map (fun p => p.1 + p.2)

/-- The padded message. -/
def shaPad (m : List Byte) : List Byte :=
  m ++ [0x80] ++ zeros ((119 - m.length % 64) % 64) ++ (natLe 8 (8 * m.length)).reverse

/-- SHA-256 of a byte string, 32 bytes. -/
def sha256 (m : List Byte) : List Byte :=
  let p := shaPad m
  let h := (chunksOf 64 (p.length / 64) p).foldl shaBlock shaInit
  h.flatMap (fun w => (natLe 4 w.toNat).reverse)

/-- HMAC-SHA-256. -/
def hmacSha256 (key m : List Byte) : List Byte :=
  let k := fitBytes 64 (if key.length > 64 then sha256 key else key)
  sha256 (k.map (· ^^^ 0x5C) ++ sha256 (k.map (· ^^^ 0x36) ++ m))

end Sys2Proof.Machine
end

