-- ==== Sys2Proof/Machine/Record.lean ====
section
/-!
DEFINITION. Recording and replay: the ring header, records, captures, and what a replay applies and compares (R383 to R391).
-/

namespace Sys2Proof.Machine

/-! ### The ring (R383 to R385) -/

/-- Address of the record area, which follows the ring header's unit of 64 KiB (R383). -/
def recArea (base : Nat) : Nat := base + 65536

/-- Bytes of the record area. -/
def Recorder.area (r : Recorder) : Nat := r.size - 65536

/-- The version of the running firmware bundle (R2). -/
def State.bundle (s : State) : Nat := (s.flash.banks.getD (s.fld lkStateA lkStateBank) (0, false)).1

/-- Writes `bs` into the record area from an offset on, going on at its start past its end. -/
def State.recBytes (s : State) (r : Recorder) (off : Nat) (bs : List Byte) : State :=
  let room := r.area - off
  let s1 := (s.store none (recArea r.base + off) (bs.take room))
  if bs.length ≤ room then s1 else (s1.store none (recArea r.base) (bs.drop room))

/-- Rewrites FLAGS, PROD, TAIL, RECORDS, END_GTIME and HCRC of the ring header (R384). -/
def State.recHeader (s : State) (p endTime : Nat) : State :=
  let r := s.recorder p
  let h := s.peek r.base 4092
  let h := putBytes h 7 (natLe 1 r.flags)
  let h := putBytes h 32 (natLe 8 endTime ++ natLe 8 r.prod ++ natLe 8 r.tail ++ natLe 4 r.rsn)
  let s1 := (s.store none r.base (h ++ natLe 4 (crc32c h)))
  s1.setFld (phRecordA p) phRecordRecords r.rsn

/-- Ends a recording: ACTIVE cleared, END_GTIME written last (R387). -/
def State.recEnd (s : State) (p : Nat) : State :=
  let r := s.recorder p
  let s1 := s.setRecorder p { r with recActive := false, flags := setBits r.flags 0 1 0 }
  let s2 := s1.recHeader p s.gtime
  (s2.setFld (phRecordA p) phRecordActive 0).setFld (phRecordA p) phRecordCtx 0x3FF

/-- Frees the oldest records until `need` bytes are free; `fuel` bounds the records looked at. -/
def State.recFree (s : State) (need : Nat) : Nat → Recorder → Recorder
  | 0, r => r
  | fuel + 1, r =>
    if r.used + need ≤ r.area ∨ r.used = 0 then r
    else
      let u := 64 * max 1 (leAt (s.peek (recArea r.base + (r.tail + 2) % r.area) 2) 0 2)
      State.recFree s need fuel { r with tail := (r.tail + u) % r.area, used := r.used - u, flags := setBits r.flags 2 1 1 }

/-- The CSEQ of the oldest command of a context not yet started (R385). -/
def State.anchor (s : State) (c : Nat) : Nat :=
  match (s.ctx c).oldest with
  | some k => k.cseq
  | none => (s.ctx c).expCseq.toNat

/-- Appends one record of at most 1,024 units (R385, R387). -/
def State.recOne (s : State) (p kind rflags cseq : Nat) (payload : List Byte) : State :=
  let r := s.recorder p
  if !r.recActive then s
  else
    let units := ceilDiv (16 + payload.length) 64
    let len := 64 * units
    let wrap := r.what.testBit 5
    if !wrap && decide (r.area < r.prod + len) then
      ((s.setRecorder p { r with flags := setBits r.flags 1 1 1 }).setFld (phRecordA p) phRecordOverflow 1).recEnd p
    else
      let r1 := if wrap then s.recFree len (r.area / 64) r else r
      let rsn := (r1.rsn + 1) % two32
      let head := natLe 1 kind ++ natLe 1 rflags ++ natLe 2 units ++ natLe 4 rsn ++ natLe 4 (s.anchor r.recCtx) ++ natLe 4 cseq
      let s1 := s.recBytes r1 r1.prod (fitBytes len (head ++ payload))
      let prod := if wrap then (r1.prod + len) % r1.area else r1.prod + len
      (s1.setRecorder p { r1 with prod := prod, used := r1.used + len, rsn := rsn }).recHeader p 0

/-- Appends a payload as one record, or as several of which all but the last carry MORE (R385). -/
def State.recPut (s : State) (p kind cseq : Nat) (payload : List Byte) : State :=
  let pieces := chunksOf 65520 (payload.length / 65520 + 1) payload
  let n := pieces.length
  if n ≤ 1 then s.recOne p kind 0 cseq payload
  else (pieces.zip (List.range n)).foldl (fun s q => s.recOne p kind (b2n (decide (q.2 + 1 < n))) cseq q.1) s

/-- Whether a context is being recorded with a bit of WHAT set. -/
def State.records (s : State) (c what : Nat) : Bool :=
  decide (c < 768) && (s.recorder (partOf c)).recActive && decide ((s.recorder (partOf c)).recCtx = c) &&
    (s.recorder (partOf c)).what.testBit what

/-! ### Clasp updates by others (R385, KIND 0x07) -/

/-- Records a clasp update that is not the recorded context's own; `src` is the updating context, or none for a bead. -/
def State.recClasp (s : State) (tab i mode : Nat) (taint : Bool) (v : Nat) (src : Option Nat) : State :=
  if tab ≥ 12 then s
  else
    let r := s.recorder tab
    let c := r.recCtx
    if s.records c 3 && decide (partOf c = tab) && decide (src ≠ some c) && s.mayClasp c i then
      s.recPut tab 7 0 (natLe 4 i ++ natLe 1 mode ++ natLe 1 (b2n taint) ++ zeros 2 ++ natLe 8 v ++ natLe 2 (src.getD 0xFFFF))
    else s

/-- An addition to a clasp that carries no undo entry: a SIG at retirement, a DONE, a clasp-signal bead (R27, R241, R243). -/
def State.signal (s : State) (tab i inc : Nat) (taint : Bool) (src : Option Nat) : State :=
  ((s.claspAdd tab i inc taint).doneWake tab i).recClasp tab i 0 taint inc src

/-- An addition made on behalf of an unretired command (R575). -/
def State.addFor (s : State) (tab i inc ctx cseq : Nat) : State :=
  ((s.claspAddFor tab i inc ctx cseq).doneWake tab i).recClasp tab i 0 false inc (some ctx)

/-- A SET made on behalf of an unretired command (R284, R575). -/
def State.setFor (s : State) (tab i v ctx cseq : Nat) : State :=
  ((s.claspSetFor tab i v ctx cseq).doneWake tab i).recClasp tab i 1 false v (some ctx)

/-! ### Inputs and outputs of commands (R386) -/

/-- Bytes of a region. -/
def State.regionBytes (s : State) (r : Regn) : List Byte := s.peek r.addr.toNat r.size

/-- The input regions of a command for recording: declared input and in-place regions and the pages of ATTN_PAGES (R386; the
index that the record gives a page is log entry 18). -/
def State.recInputs (s : State) (ctx : Nat) (c : Cmd) : List Regn :=
  (s.cmdRegions ctx c).filter (fun r => decide (r.role ≠ .output)) ++ s.attnPageRegs c.packet

/-- Address of a capture entry (R384). -/
def capA (base i : Nat) : Nat := base + 4096 + 48 * i

/-- Enters a region in the next capture entry, round-robin (R386). -/
def State.capEnter (s : State) (p addr len : Nat) (dig : List Byte) : State :=
  let r := s.recorder p
  let s1 := (s.store none (capA r.base r.capNext) (natLe 8 addr ++ natLe 8 len ++ dig))
  s1.setRecorder p { r with capNext := (r.capNext + 1) % 1280 }

/-- Whether a region with its digest stands in a capture entry. -/
def State.captured (s : State) (p addr len : Nat) (dig : List Byte) : Bool :=
  let b := (s.recorder p).base
  let want := natLe 8 addr ++ natLe 8 len ++ dig
  (List.range 1280).any (fun i => decide (s.peek (capA b i) 48 = want))

/-- What the start of a command records: a digest of each input, and its content where no capture entry holds it. -/
def State.recStart (s : State) (ctx : Nat) (c : Cmd) : State :=
  let p := partOf ctx
  if !(s.records ctx 1 || s.records ctx 2) then s
  else
    (s.recInputs ctx c).foldl (fun s r =>
      let bs := s.regionBytes r
      let dig := sha256 bs
      let a := r.addr.toNat
      let s1 := if s.records ctx 1 then
          s.recPut p 4 c.cseq (natLe 8 a ++ natLe 8 r.size ++ natLe 1 r.idx ++ zeros 7 ++ dig)
        else s
      if s1.records ctx 2 && !s1.captured p a r.size dig then
        let pieces := chunksOf 65504 (bs.length / 65504 + 1) bs
        let s2 := (pieces.zip (List.range pieces.length)).foldl (fun s q =>
          s.recOne p 5 0 c.cseq (natLe 8 a ++ natLe 8 (65504 * q.2) ++ q.1)) s1
        s2.capEnter p a r.size dig
      else s1) s

/-- The digests of a command's outputs: declared output and in-place regions, and what a remote transfer sent (R386). -/
def State.outDigests (s : State) (ctx : Nat) (c : Cmd) : List (Nat × List Byte) :=
  ((s.cmdRegions ctx c).filter (fun r => decide (r.role ≠ .input))).map (fun r => (r.idx, sha256 (s.regionBytes r))) ++
  (match c.outDigest with
  | some d => [(0xFE, d)]
  | none => [])

/-- The number of a status code (R247). -/
def Status.code : Status → Nat
  | .ok => 0x0000
  | .okCorrected => 0x0001
  | .droppedBadData => 0x0100
  | .droppedDep => 0x0101
  | .droppedChunk => 0x0102
  | .rejectedFormat => 0x0200
  | .rejectedPerm => 0x0201
  | .rejectedSeq => 0x0202
  | .rejectedSealed => 0x0203
  | .abortedFence => 0x0300
  | .abortedSlice => 0x0301
  | .timeout => 0x0302
  | .busy => 0x0400
  | .commitBusy => 0x0401
  | .capClamped => 0x0402
  | .unsupported => 0x0500

/-- The status of a code. -/
def Status.ofCode (n : Nat) : Status :=
  (([.ok, .okCorrected, .droppedBadData, .droppedDep, .droppedChunk, .rejectedFormat, .rejectedPerm, .rejectedSeq,
     .rejectedSealed, .abortedFence, .abortedSlice, .timeout, .busy, .commitBusy, .capClamped, .unsupported] :
    List Status).find? (fun x => decide (x.code = n))).getD .unsupported

/-- OK, OK_CORRECTED and CAP_CLAMPED: the statuses that neither taint nor forfeit (R241, R245). -/
def Status.clean : Status → Bool
  | .ok | .okCorrected | .capClamped => true
  | _ => false

/-- What the retirement of a command records (R385, R386). -/
def State.recRetire (s : State) (ctx : Nat) (c : Cmd) : State :=
  let p := partOf ctx
  if ctx ≥ 768 ∨ !(s.recorder p).recActive ∨ (s.recorder p).recCtx ≠ ctx then s
  else
    let ds := s.outDigests ctx c
    let s1 := if s.records ctx 0 then
        s.recPut p 6 c.cseq (natLe 2 c.status.code ++ natLe 2 c.detail ++ zeros 4 ++ natLe 8 c.aux ++ natLe 4 ds.length ++
          zeros 4 ++ ds.flatMap (fun d => natLe 1 d.1 ++ zeros 7 ++ d.2))
      else s
    if c.status = .ok ∨ c.status = .okCorrected then
      ((s1.cmdRegions ctx c).filter (fun r => decide (r.role = .output))).foldl (fun s r =>
        if (s.recorder p).recActive then s.capEnter p r.addr.toNat r.size (sha256 (s.regionBytes r)) else s) s1
    else s1

/-- The committed seed table of a context as bytes (R385). -/
def State.seedBytes (s : State) (c : Nat) : List Byte :=
  (List.range 256).flatMap (fun i => natLe 8 (s.reg (phSeedA (s.hubOf c) (localIdx c) i)).toNat)

/-- The clasps in a context's range as a CLASPS record holds them (R385). -/
def State.claspBytes (s : State) (c : Nat) : List Byte :=
  let lo := s.cfg0 c phCtxcfg0ClaspLo
  let n := s.cfg0 c phCtxcfg0ClaspHi + 1 - lo
  let taints := (List.range n).foldl (fun acc i => acc + b2n (s.claspTaint (claspTab c) (lo + i)) * 2 ^ i) 0
  natLe 4 lo ++ natLe 4 n ++ (List.range n).flatMap (fun i => natLe 8 (s.claspVal (claspTab c) (lo + i))) ++
    natLe (ceilDiv n 8) taints

/-! ### Reading a ring back (R388, R389) -/

/-- A record of a ring. -/
structure RingRec where
  /-- Offset in the record area. -/
  off : Nat
  /-- KIND. -/
  kind : Nat
  /-- UNITS. -/
  units : Nat
  /-- RSN. -/
  rsn : Nat
  /-- ANCHOR. -/
  anchor : Nat
  /-- CSEQ. -/
  cseq : Nat
  /-- Payload with its padding. -/
  pay : List Byte
  deriving DecidableEq, Repr

/-- PROD of a ring. -/
def State.ringProd (s : State) (base : Nat) : Nat := leAt (s.peek (base + 40) 8) 0 8

/-- The record at an offset. -/
def State.ringAt (s : State) (base off : Nat) : RingRec :=
  let a := recArea base + off
  let h := s.peek a 16
  let u := max 1 (leAt h 2 2)
  ⟨off, leAt h 0 1, u, leAt h 4 4, leAt h 8 4, leAt h 12 4, s.peek (a + 16) (64 * u - 16)⟩

/-- The records of a ring from an offset up to a limit, at most `fuel` of them. -/
def State.ringFrom (s : State) (base stop : Nat) : Nat → Nat → List RingRec
  | 0, _ => []
  | fuel + 1, off =>
    if stop ≤ off then []
    else
      let r := s.ringAt base off
      r :: State.ringFrom s base stop fuel (off + 64 * r.units)

/-- All records of the ring that a replay reads. -/
def State.ringRecs (s : State) (r : Recorder) (off : Nat) : List RingRec :=
  let stop := min (s.ringProd r.src.1) (r.src.2 - 65536)
  s.ringFrom r.src.1 stop (stop / 64) off

/-- Loads the target's seed table from a SEEDS record (R389). -/
def State.loadSeeds (s : State) (c : Nat) (pay : List Byte) : State :=
  (List.range 256).foldl (fun s i =>
    s.setReg (phSeedA (s.hubOf c) (localIdx c) i) (BitVec.ofNat 64 (leAt pay (8 * i) 8))) s

/-- Loads the replay clasp table from a CLASPS record (R389). -/
def Recorder.loadClasps (r : Recorder) (pay : List Byte) : Recorder :=
  let lo := leAt pay 0 4
  let n := leAt pay 4 4
  let t := leAt pay (8 + 8 * n) (ceilDiv n 8)
  (List.range n).foldl (fun r i =>
    { r with clasps := kvSet 0 r.clasps (lo + i) (leAt pay (8 + 8 * i) 8),
             taints := kvSet 0 r.taints (lo + i) (b2n (t.testBit i)) }) r

/-- Applies one external record to a replay (R389). -/
def State.replayApply (s : State) (p : Nat) (x : RingRec) : State :=
  let r := s.recorder p
  match x.kind with
  | 1 => s.loadSeeds r.repCtx x.pay
  | 2 => s.setRecorder p (r.loadClasps x.pay)
  | 5 =>
    let len := 64 * x.units - 32
    let a := leAt x.pay 0 8
    let off := leAt x.pay 8 8
    -- The last piece of a region ends with the region, whose length its DIGEST record gives.
    let total := (((s.ringRecs r 0).filter (fun y => decide (y.kind = 4 ∧ y.cseq = x.cseq ∧ leAt y.pay 0 8 = a))).getLast?.map
      (fun y => leAt y.pay 8 8)).getD (off + len)
    (s.store none (a + off) ((x.pay.drop 16).take (min len (total - off))))
  | 7 =>
    let i := leAt x.pay 0 4
    let v := leAt x.pay 8 8
    if leAt x.pay 4 1 = 1 then
      s.setRecorder p { r with clasps := kvSet 0 r.clasps i v, taints := kvSet 0 r.taints i 0 }
    else
      let t := b2n (decide (kvGet 0 r.taints i = 1) || decide (leAt x.pay 5 1 = 1))
      s.setRecorder p { r with clasps := kvSet 0 r.clasps i ((kvGet 0 r.clasps i + v) % two64), taints := kvSet 0 r.taints i t }
  | 8 => (s.store none (leAt x.pay 8 8) ((x.pay.drop 28).take (leAt x.pay 16 2)))
  | _ => s

/-- Before the command of a replay with the recorded number `rec_` starts: applies every external record up to the last one
that is anchored to it (R389). -/
def State.replayCatchUp (s : State) (p rec_ : Nat) : State :=
  let r := s.recorder p
  let xs := s.ringRecs r r.applied
  let lastAt := ((xs.filter (fun x => decide (x.anchor = rec_) && [1, 2, 5, 7, 8].contains x.kind)).getLast?.map (·.off))
  match lastAt with
  | none => s
  | some off =>
    let mine := xs.filter (fun x => decide (x.off ≤ off) && [1, 2, 5, 7, 8].contains x.kind)
    let s1 := mine.foldl (fun s x => s.replayApply p x) s
    s1.setRecorder p { s1.recorder p with applied := off + 64 }

/-- The RETIRE record of a recorded command. -/
def State.replayRetireRec (s : State) (p rec_ : Nat) : Option RingRec :=
  (s.ringRecs (s.recorder p) 0).find? (fun x => decide (x.kind = 6 ∧ x.cseq = rec_))

/-- Marks the first divergence of a replay (R390, R392). -/
def State.diverge (s : State) (p kind region rsn rec_ : Nat) : State :=
  if s.fld (phReplaydivA p) phReplaydivKind ≠ 0 then s
  else
    let s1 := (s.setFld (phReplayA p) phReplayDiverged 1).setFld (phReplayA p) phReplayDivCseq rec_
    let s2 := ((s1.setFld (phReplaydivA p) phReplaydivKind kind).setFld (phReplaydivA p) phReplaydivRegion region).setFld
      (phReplaydivA p) phReplaydivRsn rsn
    (if s2.flag (phReplayA p) phReplayStopOnDiv then s2.setFld (phReplayA p) phReplayStopped 1 else s2).raise (32 * (73 + p) + 9)

/-- The first differing digest entry of a RETIRE record against the replayed outputs. -/
def digestDiff (pay : List Byte) (ds : List (Nat × List Byte)) : Option Nat :=
  let n := leAt pay 16 4
  let recd := (List.range n).map (fun i => (leAt pay (24 + 40 * i) 1, (pay.drop (32 + 40 * i)).take 32))
  match recd.find? (fun e => !ds.contains e) with
  | some e => some e.1
  | none => (ds.find? (fun e => !recd.contains e)).map (·.1)

/-- The comparison of one retirement of a replay with its RETIRE record (R390). -/
def State.replayCompare (s : State) (ctx : Nat) (c : Cmd) : State :=
  match s.replayOf ctx with
  | none => s
  | some r =>
    let p := partOf ctx
    let rec_ := (c.cseq + r.delta) % two32
    let s1 := s.setRecorder p { r with compared := r.compared + 1 }
    let norm : Nat → Nat := fun n => if n = 1 then 0 else n
    match s.replayRetireRec p rec_ with
    -- The RECORD_STOP that ended the recording has no RETIRE record to be compared with.
    | none => if c.opc = some .recordStop then s1 else s1.diverge p 7 0xFF 0 rec_
    | some x =>
      if norm (leAt x.pay 0 2) ≠ norm c.status.code then s1.diverge p 1 0xFF x.rsn rec_
      else if leAt x.pay 2 2 ≠ c.detail then s1.diverge p 2 0xFF x.rsn rec_
      else if leAt x.pay 8 8 ≠ c.aux then s1.diverge p 3 0xFF x.rsn rec_
      else
        match digestDiff x.pay (s.outDigests ctx c) with
        | some 0xFE => s1.diverge p 5 0xFF x.rsn rec_
        | some i => s1.diverge p 4 i x.rsn rec_
        | none => s1

end Sys2Proof.Machine
end

