-- ==== Sys2Proof/Machine/Wire.lean ====
section
/-!
DEFINITION. Beads, messages and frames, and how they are sent: headers, routing, virtual channels, frame packing, the seal of
a frame and the retry buffer (R310 to R339, R485).
-/

namespace Sys2Proof

open Machine

/-! ### Beads (R312, R313) -/

/-- KIND. -/
def Bead.kind (b : Bead) : Nat := bits b.head.toNat 60 4

/-- VC. -/
def Bead.vc (b : Bead) : Nat := bits b.head.toNat 57 3

/-- DNODE. -/
def Bead.dnode (b : Bead) : Nat := bits b.head.toNat 45 12

/-- DPORT. -/
def Bead.dport (b : Bead) : Nat := bits b.head.toNat 41 4

/-- SLICE. -/
def Bead.slice (b : Bead) : Nat := bits b.head.toNat 25 16

/-- GROUP. -/
def Bead.group (b : Bead) : Nat := bits b.head.toNat 13 12

/-- POS. -/
def Bead.pos (b : Bead) : Nat := bits b.head.toNat 0 13

/-- A bead with another VC. -/
def Bead.withVc (b : Bead) (v : Nat) : Bead := { b with head := BitVec.ofNat 64 (setBits b.head.toNat 57 3 v) }

/-- A bead with another DNODE. -/
def Bead.withDnode (b : Bead) (d : Nat) : Bead := { b with head := BitVec.ofNat 64 (setBits b.head.toNat 45 12 d) }

/-- The 72 bytes of a bead. -/
def Bead.bytes (b : Bead) : List Byte := natLe 8 b.head.toNat ++ fitBytes 64 b.pay

end Sys2Proof

namespace Sys2Proof.Machine


/-- A bead header (R312). -/
def mkHead (kind vc dnode dport slice group pos : Nat) : Word :=
  BitVec.ofNat 64 (pos % 8192 + (group % 4096) * 2 ^ 13 + (slice % 65536) * 2 ^ 25 + (dport % 16) * 2 ^ 41 +
    (dnode % 4096) * 2 ^ 45 + (vc % 8) * 2 ^ 57 + (kind % 16) * 2 ^ 60)

/-- The bead in 72 bytes. -/
def beadOf (bs : List Byte) : Bead := ⟨BitVec.ofNat 64 (leNat (bs.take 8)), (bs.drop 8).take 64⟩

/-- An empty frame slot (R319). -/
def idleBead : Bead := ⟨0, zeros 64⟩

/-- A payload of 64 bytes. -/
def payload (bs : List Byte) : List Byte := fitBytes 64 bs

/-- The even VC of a kind's class; none for a kind with no class on a link (R313). -/
def kindVc (k : Nat) : Option Nat :=
  if k = 1 ∨ k = 2 then some 0
  else if 3 ≤ k ∧ k ≤ 6 then some 2
  else if 7 ≤ k ∧ k ≤ 12 then some 4
  else none

/-- The data beads' kind that follows a head's kind (R314). -/
def dataKind (k : Nat) : Nat := k + 1

/-- The beads of a message: the head at POS 0 and the data beads at POS 1 on (R314). -/
def msgBeads (head : Bead) (data : List Byte) : List Bead :=
  let pieces := chunksOf 64 (data.length / 64 + 1) data
  head :: (pieces.zip (List.range pieces.length)).map (fun q =>
    ⟨mkHead (dataKind head.kind) head.vc head.dnode head.dport head.slice head.group (q.2 + 1), payload q.1⟩)

/-! ### The torus (R310, R327, R348) -/

/-- Z extent of the torus. -/
def State.zsize (s : State) : Nat := s.fld (fdNodeA 0) fdNodeZsize

/-- Size of a dimension. -/
def State.dimSize (s : State) (axis : Nat) : Nat := if axis < 2 then 4 else max 1 s.zsize

/-- Coordinate of a module number along an axis (R310). -/
def coord (node axis : Nat) : Nat := if axis = 0 then node % 4 else if axis = 1 then node / 4 % 4 else node / 16

/-- Module number of coordinates. -/
def nodeOf (x y z : Nat) : Nat := x + 4 * y + 16 * z

/-- A module number with one coordinate replaced. -/
def setCoord (node axis v : Nat) : Nat :=
  if axis = 0 then nodeOf v (coord node 1) (coord node 2)
  else if axis = 1 then nodeOf (coord node 0) v (coord node 2)
  else nodeOf (coord node 0) (coord node 1) v

/-- The neighbour of a module over a link: even links step +1, odd links −1 (R20, R311, R348). -/
def State.neighbour (s : State) (node n : Nat) : Nat :=
  let axis := n / 2
  let sz := s.dimSize axis
  let c := coord node axis
  setCoord node axis (if n % 2 = 0 then (c + 1) % sz else (c + sz - 1) % sz)

/-- Whether a hop over a link crosses the dateline of its dimension (R327). -/
def State.crosses (s : State) (n : Nat) : Bool :=
  let axis := n / 2
  let c := coord s.node axis
  if n % 2 = 0 then decide (c + 1 = s.dimSize axis) else decide (c = 0)

/-- The VC of a bead on an output link, given the VC it has and the link it came in on (7 for a local source): back to even
in another dimension, odd once it crosses the dateline (R327). -/
def State.hopVc (s : State) (vc inLink outLink : Nat) : Nat :=
  let even := vc / 2 * 2
  let base := if inLink < 6 ∧ inLink / 2 = outLink / 2 then vc else even
  if s.crosses outLink then even + 1 else base

/-! ### Frames (R319, R320, R485) -/

/-- CTRL (R319). -/
def ctrlWord (fseq ackseq : Nat) (nak sealed_ : Bool) (xoff : Nat) : Nat :=
  fseq % 4096 + (ackseq % 4096) * 2 ^ 12 + b2n nak * 2 ^ 24 + b2n sealed_ * 2 ^ 25 + (xoff % 64) * 2 ^ 26

/-- The nonce of a sealed frame: the count and the end that sends it (R485). -/
def frameNonce (count : Nat) (low : Bool) : List Byte := natLe 8 count ++ natLe 4 (b2n (!low))

/-- The seal bead's header (R485). -/
def sealHead (slice count : Nat) : Word := mkHead 0xF 0 0 0 slice (bits count 13 12) (bits count 0 13)

/-- The bytes of a frame on the fiber (R319, R320, R485). -/
def frameBytes (fseq ackseq : Nat) (nak : Bool) (xoff : Nat) (beads : List Bead) (slice : Nat) (key : List Byte)
    (count : Nat) (low : Bool) : List Byte :=
  let slots := if slice = 0 then 8 else 7
  let ctrl := natLe 4 (ctrlWord fseq ackseq nak (decide (slice ≠ 0)) xoff)
  let plain := ((beads ++ List.replicate (slots - beads.length) idleBead).take slots).flatMap Bead.bytes
  let body :=
    if slice = 0 then plain
    else
      let hd := natLe 8 (sealHead slice count).toNat
      let duo := gcmSeal key (frameNonce count low) (ctrl ++ hd) plain
      let ct := duo.1
      let tag := duo.2
      ct ++ hd ++ fitBytes 64 tag
  body ++ ctrl ++ natLe 4 (crc32c (body ++ ctrl))

/-- Whether a link is up (R345). -/
def State.linkUp (s : State) (n : Nat) : Bool := decide (n < 6) && decide (s.fld (lxStatA n) lxStatState = 2)

/-- Whether a link takes messages to send: it is up, or held for a full retrain (R324). -/
def State.linkHolds (s : State) (n : Nat) : Bool := s.linkUp n || (decide (n < 6) && decide (s.fld (lxStatA n) lxStatState = 3))

/-- Whether a link's key is installed (R484, R491). -/
def State.linkKeyed (s : State) (n : Nat) : Bool := decide (s.fld (lkLinkstatA n) lkLinkstatState = 4)

/-- Fills frames from the queued messages of a link as far as the retry buffer of 2,048 frames allows (R321). The control
class goes first; a message on a VC that the peer has off waits (R326, R331). -/
def State.pump (s : State) (n : Nat) : Nat → State
  | 0 => s
  | fuel + 1 =>
    let l := s.link n
    if !s.linkUp n ∨ 2048 ≤ l.retry.length then s
    else
      let ok : List Bead × Bool → Bool := fun m => !l.xoffIn.testBit ((m.1.head?.map (·.vc)).getD 0)
      let ctl : List Bead × Bool → Bool := fun m => ok m && decide (4 ≤ (m.1.head?.map (·.vc)).getD 0)
      match (if l.outbox.any ctl then l.outbox.find? ctl else l.outbox.find? ok) with
      | none => s
      | some (m, sealed_) =>
        let sl := (m.head?.map (·.slice)).getD 0
        let slots := if sealed_ then 7 else 8
        let take := m.take slots
        let rest := m.drop slots
        let out := if rest.isEmpty then dropFirst (fun x => decide (x = (m, sealed_))) l.outbox
          else modFirst (fun x => decide (x = (m, sealed_))) (fun _ => (rest, sealed_)) l.outbox
        let l1 := { l with
          outbox := out, retry := l.retry ++ [(l.txSeq, take, if sealed_ then sl else 0)], txSeq := (l.txSeq + 1) % 4096,
          seals := if sealed_ then (l.seals.1 + 1, l.seals.2) else l.seals,
          timer := if l.retry.isEmpty then s.gtime else l.timer }
        let s1 := (s.setLink n l1).count none none 0x090 take.length
        State.pump s1 n fuel

/-- Pumps a link until it can send no more. -/
def State.pumpAll (s : State) (n : Nat) : State := s.pump n 4096

/-! ### Drops (R335) -/

/-- Counts an isolation drop at the fabric die that attaches link `n`, or that a local sender uses (R20, R335, R345). -/
def State.isodrop (s : State) (fd k slice : Nat) : State :=
  ((((s.addSat (fdIsodropA fd k) fdIsodropCount 1).setFld (fdIsodropA fd k) fdIsodropLastSlice slice).raise
    (32 * 90)).count none none 0x092 1)

/-- The fabric die that attaches a link, with 6 for this module's own fabric (R20). -/
def fdOfLink (n : Nat) : Nat := if n < 6 then n / 2 else 0

/-- Queues a message on an output: a link, or 6 for this module itself. A message that must leave sealed on a link without a
key is discarded (R486). `needSeal` says that it arrived in a sealed frame. -/
def State.emit (s : State) (out : Nat) (m : List Bead) (needSeal : Bool) : State :=
  if out = 6 then
    let l := s.link 6
    s.setLink 6 { l with inbox := l.inbox ++ m.map (fun b => (b, true)) }
  else if !s.linkHolds out then s
  else
    let sl := (m.head?.map (·.slice)).getD 0
    let sealed_ := needSeal || (s.sliceEntry sl).any (fun i => s.flag (fdSlicedirA i) fdSlicedirSealed)
    let k : Nat := (m.head?.map (·.kind)).getD 0
    let hides := sealed_ && !decide (k = 12) && !decide (k = 11)
    if hides && !s.linkKeyed out then s.isodrop (fdOfLink out) 3 sl
    else
      let l := s.link out
      (s.setLink out { l with outbox := l.outbox ++ [(m, hides)] }).pumpAll out

/-- Sends a message towards its DNODE by the slice's route table, from a local source (R333). -/
def State.route (s : State) (entry : Nat) (m : List Bead) (inLink : Nat) (needSeal : Bool) : State :=
  let d := (m.head?.map (·.dnode)).getD 0
  let e := s.routeEntry entry d
  let port := bits e 0 3
  let alt := bits e 3 3
  let vc := (m.head?.map (·.vc)).getD 0
  let reqData := (m.head?.map (fun b => decide (b.kind = 1))).getD false
  let off : Nat → Bool := fun n => !s.linkUp n || (s.link n).xoffIn.testBit (s.hopVc vc inLink n)
  let out := if s.flag (fdSlicedirA entry) fdSlicedirAdapt && reqData && decide (port < 6 ∧ alt < 6) && off port && !off alt
    then alt else port
  if !e.testBit 6 ∨ out = 7 then s
  else if out = 6 then s.emit 6 m needSeal
  else s.emit out (m.map (fun b => b.withVc (s.hopVc vc inLink out))) needSeal

/-- Sends a LINK or ABORT bead to the neighbour on one link (R325, R342, R371). -/
def State.sendHop (s : State) (n kind slice : Nat) (pay : List Byte) : State :=
  s.emit n [⟨mkHead kind 4 (s.neighbour s.node n) 15 slice 0 0, payload pay⟩] false

end Sys2Proof.Machine
end

