-- ==== Sys2Proof/Machine/Engine.lean ====
section
/-!
DEFINITION. What matrix engines and movers do with a descriptor, and how their faults, events and clasp signals work (R94 to
R107, R125 to R134, R142).
-/

namespace Sys2Proof.Machine

/-! ### Clasp updates on behalf of a context (R241, R389, R575) -/

/-- Ends the clasp waits of a replay target's harts that the replay clasp table now satisfies (R120, R276, R389). -/
def State.wakeReplay (s : State) (p i : Nat) : State :=
  ((partHarts p).foldl (fun s th =>
    let h := s.hart th.1 th.2
    let r := s.recorder p
    match h.wait with
    | some w =>
      if r.repActive ∧ s.fld (pipCtlA th.1 th.2) pipCtlCtx = r.repCtx ∧ w.idx = i ∧ w.target ≤ kvGet 0 r.clasps i then
        s.setHart th.1 th.2 { h.put w.rd 0 with wait := none }
      else s
    | none => s) s).doneWake p i

/-- An addition to a clasp that a context names: into the replay table for a replay target, with an undo entry while the
command that makes it is unretired (R389, R575). -/
def State.addClaspFor (s : State) (ctx cseq i inc : Nat) : State :=
  match s.replayOf ctx with
  | some r =>
    (s.setRecorder (partOf ctx) { r with clasps := kvSet 0 r.clasps i ((kvGet 0 r.clasps i + inc) % two64) }).wakeReplay
      (partOf ctx) i
  | none =>
    if ((s.ctx ctx).cmd cseq).isSome then s.addFor (claspTab ctx) i inc ctx cseq
    else s.signal (claspTab ctx) i inc false (some ctx)

/-- A SET of a clasp that a context names (R284, R389). -/
def State.setClaspFor (s : State) (ctx cseq i v : Nat) : State :=
  match s.replayOf ctx with
  | some r =>
    (s.setRecorder (partOf ctx) { r with
      clasps := kvSet 0 r.clasps i (v % two64), taints := kvSet 0 r.taints i 0 }).wakeReplay (partOf ctx) i
  | none => s.setFor (claspTab ctx) i v ctx cseq

/-- An addition that carries no undo entry, with the taint it sets: a SIG at retirement, a DONE (R241, R600). -/
def State.signalCtx (s : State) (ctx i inc : Nat) (taint : Bool) : State :=
  match s.replayOf ctx with
  | some r =>
    (s.setRecorder (partOf ctx) { r with
      clasps := kvSet 0 r.clasps i ((kvGet 0 r.clasps i + inc) % two64),
      taints := if taint then kvSet 0 r.taints i 1 else r.taints }).wakeReplay (partOf ctx) i
  | none => s.signal (claspTab ctx) i inc taint (some ctx)

/-! ### Queue entries (R97, R102, R105, R125) -/

/-- A queue entry: the descriptor, the pushing context and the CSEQ of its command. -/
def entryOf (d : List Byte) (ctx cseq : Nat) : List Byte := fitBytes 128 d ++ natLe 2 ctx ++ natLe 4 cseq

/-- A field of a descriptor. -/
def dsc (d : List Byte) (off len : Nat) : Nat := leAt d off len
/-- The pushing context of an entry. -/
def dscCtx (d : List Byte) : Nat := leAt d 128 2
/-- The CSEQ of the pushing command. -/
def dscCseq (d : List Byte) : Nat := leAt d 130 4

/-- Applies a descriptor's SIG (R101, R133). -/
def State.dscSig (s : State) (d : List Byte) (f : Nat) : State :=
  if clVal f = 0 then s else s.addClaspFor (dscCtx d) (dscCseq d) (clIdx f) (clVal f)

/-! ### Unit faults and events (R106, R142, R493) -/

/-- Adds a record to a unit's fault queue of four; a record that finds it full is lost (R142). -/
def pushFault (q : List (Nat × Nat)) (r : Nat × Nat) : List (Nat × Nat) × Bool :=
  if q.length < 4 then (q ++ [r], false) else (q, true)

/-- A fault of logical ME `m` of tile `t` (R106): record, LOST and event. -/
def State.meFault (s : State) (t m code tag : Nat) : State :=
  let x := s.me t m
  let q := pushFault x.faults (code, tag % 2 ^ 48)
  let s1 := s.setMe t m { x with faults := q.1 }
  (if q.2 then s1.setFld (meFaultA t m) meFaultLost 1 else s1).raise (32 * (24 + t) + 6 + m)

/-- A fault of mover `j` of tile `t`. -/
def State.mvFault (s : State) (t j code tag : Nat) : State :=
  let x := s.mover t j
  let q := pushFault x.faults (code, tag % 2 ^ 48)
  let s1 := s.setMover t j { x with faults := q.1 }
  (if q.2 then s1.setFld (mvFaultA t j) mvFaultLost 1 else s1).raise (32 * (24 + t) + 20 + j)

/-! ### Operands (R63 to R67, R97) -/

/-- Rows read one after another. -/
structure Rows where
  /-- The state after the reads. -/
  st : State
  /-- The rows, or none where one met bad data. -/
  rows : Option (List (List Byte))
  /-- A corrected error occurred. -/
  corr : Bool
  deriving DecidableEq, Repr

/-- Reads `n` rows of `len` bytes at a stride. -/
def State.readRows (s : State) (addr n stride len : Nat) : Rows :=
  (List.range n).foldl (fun (r : Rows) i =>
    match r.rows with
    | none => r
    | some rs =>
      let x := r.st.readMem 0 (addr + i * stride) len
      ⟨x.st, x.data.map (fun b => rs ++ [b]), r.corr || x.corr⟩) ⟨s, some [], false⟩

/-- Element `i` of a row, with the row's scale bytes for an MX format (R64, R66). -/
def elemAt (f : Fmt) (row sc : List Byte) (i : Nat) : Num :=
  if f.isMx then decodeMx f (leAt sc (i / 32) 1) (planeCode f.width row i) else decodeElem f (planeCode f.width row i)

/-- The products of one row and one column added to an accumulator (R70 to R78). -/
def dotAcc (fa fb : Fmt) (k : Nat) (ra sa rb sb : List Byte) (acc : Accu) : Accu :=
  (List.range k).foldl (fun a i => a.add ((elemAt fa ra sa i).mul (elemAt fb rb sb i))) acc

/-- Prior content of one output row as accumulators (R78). -/
def priorRow (f : Fmt) (n : Nat) (row sc : List Byte) : List Accu :=
  (List.range n).map (fun i =>
    if f = .exact then Accu.zero.combine (Accu.ofBytes ((row.drop (80 * i)).take 80)) else Accu.zero.add (elemAt f row sc i))

/-! ### Write-out (R79 to R86, R100) -/

/-- How outputs are rounded. -/
structure OutSpec where
  /-- Output format. -/
  fmt : Fmt
  /-- Mode. -/
  mode : RMode
  /-- SAT. -/
  sat : Bool
  /-- Seed. -/
  seed : Nat
  /-- STEP. -/
  step : Nat
  deriving DecidableEq, Repr

/-- Rounding of the element at a coordinate of the whole output. -/
def OutSpec.at_ (o : OutSpec) (row col : Nat) : Rounding := ⟨o.mode, o.sat, srWord (BitVec.ofNat 64 o.seed) row col o.step⟩

/-- The bytes and scale bytes of one output row whose first element has the given coordinates. -/
def outRow (o : OutSpec) (row col : Nat) (xs : List Exact) : List Byte × List Byte :=
  if o.fmt.isMx then
    let n := ceilDiv xs.length 32
    let padded := xs ++ List.replicate (32 * n - xs.length) (Exact.fin 0 0)
    let blocks := (List.range n).map (fun b =>
      roundMxBlock o.fmt o.sat ((padded.drop (32 * b)).take 32) ((List.range 32).map (fun i => o.at_ row (col + 32 * b + i))))
    (blocks.flatMap (fun b => packCodes o.fmt.width b.2), blocks.map (fun b => BitVec.ofNat 8 b.1))
  else (packCodes o.fmt.width ((xs.zip (List.range xs.length)).map (fun p => roundResult o.fmt (o.at_ row (col + p.2)) p.1)), [])

/-- One output row of accumulators: exact partials are not rounded (R80). -/
def outAccs (o : OutSpec) (row col : Nat) (xs : List Accu) : List Byte × List Byte :=
  if o.fmt = .exact then (xs.flatMap Accu.bytes, []) else outRow o row col (xs.map Accu.result)

/-- What a write of rows came to. -/
structure Wrote where
  /-- The state after the writes. -/
  st : State
  /-- A write met bad data. -/
  bad : Bool
  /-- The in-place region whose prior content reads as bad (R178). -/
  region : Option Nat
  deriving DecidableEq, Repr

/-- Writes rows at a stride on behalf of a command. -/
def State.writeRows (s : State) (owner : Option (Nat × Nat)) (addr stride : Nat) (rows : List (List Byte)) : Wrote :=
  (rows.zip (List.range rows.length)).foldl (fun (r : Wrote) q =>
    if r.bad then r
    else
      let w := r.st.storeBy owner (addr + q.2 * stride) q.1
      ⟨w.st, w.bad, w.region⟩) ⟨s, false, none⟩

/-! ### One ME descriptor (R97 to R101) -/

/-- The A and B formats of a descriptor. -/
def dscFmts (d : List Byte) : Fmt × Fmt := (mvFmts (dsc d 1 1)).getD (.bf16, .bf16)
/-- The output format of a descriptor. -/
def dscOut (d : List Byte) : OutSpec :=
  ⟨(Fmt.ofCode (bits (dsc d 2 1) 0 4)).getD .exact, (RMode.ofCode (bits (dsc d 2 1) 4 3)).getD .rne, (dsc d 2 1).testBit 7,
    dsc d 96 8, dsc d 12 4⟩
/-- M, N and K. -/
def dscM (d : List Byte) : Nat := dsc d 4 2
/-- N. -/
def dscN (d : List Byte) : Nat := dsc d 6 2
/-- K. -/
def dscK (d : List Byte) : Nat := dsc d 8 4
/-- A flag of a descriptor. -/
def dscFlag (d : List Byte) (i : Nat) : Bool := (dsc d 3 1).testBit i

/-- What an accumulation over K gives. -/
structure AccOut where
  /-- The state after the reads. -/
  st : State
  /-- Accumulators, row-major, or none where a read met bad data. -/
  acc : Option (List Accu)
  /-- A corrected error occurred. -/
  corr : Bool
  deriving DecidableEq, Repr

/-- Streams a descriptor's operands into the accumulators. -/
def State.meStream (s : State) (d : List Byte) (acc : List Accu) : AccOut :=
  let duo := dscFmts d
  let fa := duo.1
  let fb := duo.2
  let k := dscK d
  let ra := s.readRows (dsc d 16 8) (dscM d) (dsc d 64 4) (rowBytes fa k)
  let sa := ra.st.readRows (dsc d 24 8) (if fa.isMx then dscM d else 0) (dsc d 76 4) (scaleBytes fa k)
  let rb := sa.st.readRows (dsc d 32 8) (dscN d) (dsc d 68 4) (rowBytes fb k)
  let sb := rb.st.readRows (dsc d 40 8) (if fb.isMx then dscN d else 0) (dsc d 80 4) (scaleBytes fb k)
  let corr := ra.corr || sa.corr || rb.corr || sb.corr
  match ra.rows, sa.rows, rb.rows, sb.rows with
  | some ar, some asc, some br, some bsc =>
    let n := dscN d
    ⟨sb.st, some ((acc.zip (List.range acc.length)).map (fun q =>
      let i := q.2 / n
      let j := q.2 % n
      dotAcc fa fb k (ar.getD i []) (asc.getD i []) (br.getD j []) (bsc.getD j []) q.1)), corr⟩
  | _, _, _, _ => ⟨sb.st, none, corr⟩

/-- The accumulators that a descriptor with FIRST starts from: zero, or C's prior content (R78, R97). -/
def State.meOpen (s : State) (d : List Byte) : AccOut :=
  let n := dscN d
  let o := (dscOut d).fmt
  if dscFlag d 2 then
    let rc := s.readRows (dsc d 48 8) (dscM d) (dsc d 72 4) (rowBytes o n)
    let sc := rc.st.readRows (dsc d 56 8) (if o.isMx then dscM d else 0) (dsc d 84 4) (scaleBytes o n)
    match rc.rows, sc.rows with
    | some rows, some scs =>
      ⟨sc.st, some ((List.range (dscM d)).flatMap (fun i => priorRow o n (rows.getD i []) (scs.getD i []))), rc.corr || sc.corr⟩
    | _, _ => ⟨sc.st, none, rc.corr || sc.corr⟩
  else ⟨s, some (List.replicate (dscM d * n) Accu.zero), false⟩

/-- Writes a chain's results (R96, R99, R100). -/
def State.meWrite (s : State) (d : List Byte) (owner : Option (Nat × Nat)) (acc : List Accu) : Wrote :=
  let n := dscN d
  let rows := (List.range (dscM d)).map (fun i =>
    outAccs (dscOut d) (dsc d 88 4 + i) (dsc d 92 4) ((acc.drop (i * n)).take n))
  let w := s.writeRows owner (dsc d 48 8) (dsc d 72 4) (rows.map (·.1))
  if w.bad then w
  else if (dscOut d).fmt.isMx then w.st.writeRows owner (dsc d 56 8) (dsc d 84 4) (rows.map (·.2))
  else w

/-- Whether a descriptor continues the chain that another opened (R99). -/
def chainSame (a b : List Byte) : Bool :=
  decide (dsc a 1 2 = dsc b 1 2) && decide (dsc a 4 4 = dsc b 4 4) && decide (dsc a 12 4 = dsc b 12 4) &&
  decide (dsc a 48 16 = dsc b 48 16) && decide (dsc a 72 4 = dsc b 72 4) && decide (dsc a 84 12 = dsc b 84 12) &&
  decide (dsc a 96 8 = dsc b 96 8)

/-- K depth of a stationary block (R94). -/
def kBlk (fa fb : Fmt) : Nat :=
  if fa.width = 4 ∧ fb.width = 4 then 512 else if fa.isMx ∨ fa = .int8 then 256 else 128

/-- ME steps of real work of a descriptor (R94). -/
def meSteps (fa fb : Fmt) (m k : Nat) : Nat := ceilDiv k (kBlk fa fb) * m * (if fa = .fp32 then 16 else 1)

/-- The counter code and multiply-accumulates per step of a pairing (R89, R593): a mixed MX pair counts with its slower
format, and where both run at one rate with the A format (log entry 20). -/
def macClass (fa fb : Fmt) : Nat × Nat :=
  let cls : Fmt → Nat := fun f =>
    match f with
    | .e2m1 => 0x010
    | .e3m2 | .e2m3 => 0x011
    | .e4m3 | .e5m2 => 0x012
    | .mxint8 => 0x013
    | .int8 => 0x014
    | .bf16 | .fp16 => 0x015
    | _ => 0x016
  let f := if fa = .e2m1 then fb else fa
  (cls f, if cls f = 0x010 then 65536 else if cls f = 0x015 then 16384 else if cls f = 0x016 then 1024 else 32768)

/-- Counts a descriptor's work (R593). -/
def State.meCounts (s : State) (ctx : Nat) (fa fb : Fmt) (m k : Nat) : State :=
  let st := meSteps fa fb m k
  let duo := macClass fa fb
  let code := duo.1
  let mac := duo.2
  (((s.countCtx ctx code (mac * st)).countCtx ctx 0x017 (mac * st)).countCtx ctx 0x020 st).countCtx ctx 0x024 1

/-! ### Mover transfers (R126 to R134) -/

/-- The rows of a transfer: their number, and where row `i` lies at each end. -/
structure Xfer where
  /-- Rows. -/
  rows : Nat
  /-- Source address of a row; none for FILL. -/
  src : List Int
  /-- Source base, count and stride of the three dimensions, for COPY. -/
  sdims : Int × List (Nat × Int)
  /-- Destination address by row where an index list gives it. -/
  dst : List Int
  /-- Destination base and dimensions. -/
  ddims : Int × List (Nat × Int)
  /-- Bytes of a source row. -/
  slen : Nat
  /-- Bytes of a destination row. -/
  dlen : Nat
  /-- FILL pattern. -/
  pattern : Option Nat
  /-- Conversion: source and destination formats and the rounding. -/
  conv : Option (Fmt × Fmt × OutSpec)
  deriving DecidableEq, Repr

/-- The address of row `i` under three dimensions, the first innermost (R126). -/
def dimAddr (base : Int) (dims : List (Nat × Int)) (i : Nat) : Int :=
  match dims with
  | [] => base
  | (n, st) :: ds => dimAddr (base + ((i % max n 1 : Nat) : Int) * st) ds (i / max n 1)

/-- Source address of row `i`. -/
def Xfer.srcOf (x : Xfer) (i : Nat) : Int := if x.src.isEmpty then dimAddr x.sdims.1 x.sdims.2 i else x.src.getD i 0
/-- Destination address of row `i`. -/
def Xfer.dstOf (x : Xfer) (i : Nat) : Int := if x.dst.isEmpty then dimAddr x.ddims.1 x.ddims.2 i else x.dst.getD i 0

/-- The transfer that a descriptor or parameter block describes, given its index list and SR seed (R125, R126, R130). -/
def xferOf (d : List Byte) (list : List Int) (seed : Nat) : Xfer :=
  let p : Nat → Nat → Nat := dsc d
  let op := p 0 1
  let src : Int := (p 8 8 : Nat)
  let dst : Int := (p 16 8 : Nat)
  let rows := if op = 3 ∨ op = 4 then p 28 4 else p 28 4 * p 32 4 * p 36 4
  ⟨rows,
   if op = 3 then list.map (fun o => src + o) else [],
   (src, if op = 4 then [(p 28 4, sext 64 (p 40 8))] else mvDims p false),
   if op = 4 then list.map (fun o => dst + o) else [],
   (dst, if op = 3 then [(p 28 4, sext 64 (p 64 8))] else mvDims p true),
   p 24 4, mvDstLen p, if op = 2 then some (p 88 8) else none,
   if (p 1 1).testBit 1 then
     (mvFmts (p 2 1)).map (fun f => (f.1, f.2,
       ⟨f.2, (RMode.ofCode (bits (p 3 1) 0 3)).getD .rne, (p 3 1).testBit 3, seed, p 100 4⟩))
   else none⟩

/-- One contiguous piece of a row at the destination. -/
structure Piece where
  /-- Row. -/
  row : Nat
  /-- Offset within the destination row. -/
  off : Nat
  /-- Bytes. -/
  len : Nat
  deriving DecidableEq, Repr

/-- The pieces of the destination stream bytes [pos, stop). -/
def Xfer.pieces (x : Xfer) : Nat → Nat → Nat → List Piece
  | 0, _, _ => []
  | fuel + 1, pos, stop =>
    if stop ≤ pos ∨ x.dlen = 0 then []
    else
      let o := pos % x.dlen
      let n := min (x.dlen - o) (stop - pos)
      ⟨pos / x.dlen, o, n⟩ :: Xfer.pieces x fuel (pos + n) stop

/-- Where the chunk that begins at `pos` ends (R132): after 4 KiB, at the end, and for a remote destination before a byte
whose address does not follow. -/
def Xfer.chunkEnd (x : Xfer) (pos stop : Nat) (remote : Bool) : Nat :=
  let lim := min stop (pos + 4096)
  if remote ∧ x.dlen ≠ 0 then
    let cuts := ((List.range (lim / x.dlen + 1 - pos / x.dlen)).map (fun i => (pos / x.dlen + i) * x.dlen)).filter (fun c =>
      decide (pos < c) && decide (c < lim) &&
        decide (x.dstOf (c / x.dlen) ≠ x.dstOf (c / x.dlen - 1) + ((x.dlen : Nat) : Int)))
    cuts.headD lim
  else lim

/-- The destination bytes of a piece. -/
structure PieceOut where
  /-- The state after the read. -/
  st : State
  /-- Bytes, or none for bad data. -/
  data : Option (List Byte)
  /-- A corrected error occurred. -/
  corr : Bool
  deriving DecidableEq, Repr

/-- Reads the source of a piece and converts it (R126, R130, R88). -/
def State.pieceData (s : State) (x : Xfer) (q : Piece) : PieceOut :=
  match x.pattern with
  | some v => ⟨s, some ((List.range q.len).map (fun i => BitVec.ofNat 8 (v / 256 ^ ((q.off + i) % 8)))), false⟩
  | none =>
    match x.conv with
    | none =>
      let r := s.readMem 0 (x.srcOf q.row + q.off).toNat q.len
      ⟨r.st, r.data, r.corr⟩
    | some (fs, fd, o) =>
      let ws := fs.width / 8
      let wd := fd.width / 8
      let e0 := q.off / wd
      let n := q.len / wd
      let r := s.readMem 0 (x.srcOf q.row + e0 * ws).toNat (n * ws)
      ⟨r.st, r.data.map (fun bs => (List.range n).flatMap (fun i =>
        let v : Exact := if fs = .exact then (Accu.ofBytes ((bs.drop (80 * i)).take 80)).result
          else (decodeElem fs (leAt bs (ws * i) ws)).result
        natLe wd (roundResult fd (o.at_ q.row (e0 + i)) v))), r.corr⟩

/-- The counter code of the endpoint at an address (R593). -/
def endCode (a : Nat) : Nat :=
  match regionOf a with
  | .tile _ => 0x030
  | .tier => 0x032
  | _ => 0x031

/-- The bytes of a chunk, read in stream order; the whole chunk is read before any byte of it is written (R134). -/
def State.chunkRead (s : State) (x : Xfer) (ctx pos stop : Nat) : PieceOut :=
  (x.pieces (stop - pos) pos stop).foldl (fun (r : PieceOut) q =>
    match r.data with
    | none => r
    | some bs =>
      let p := r.st.pieceData x q
      let src := if x.pattern.isSome then 0
        else match x.conv with
          | some (fs, fd, _) => q.len / (fd.width / 8) * (fs.width / 8)
          | none => q.len
      ⟨p.st.countCtx ctx (endCode (x.srcOf q.row).toNat) src, p.data.map (fun b => bs ++ b), r.corr || p.corr⟩)
    ⟨s, some [], false⟩

/-- Writes a chunk to its local destination. -/
def State.chunkWrite (s : State) (x : Xfer) (owner : Option (Nat × Nat)) (ctx pos stop : Nat) (bs : List Byte) : Wrote :=
  (x.pieces (stop - pos) pos stop).foldl (fun (r : Wrote) q =>
    if r.bad then r
    else
      let a := (x.dstOf q.row + q.off).toNat
      let w := r.st.storeBy owner a ((bs.drop (q.row * x.dlen + q.off - pos)).take q.len)
      ⟨w.st.countCtx ctx (endCode a) q.len, w.bad, w.region⟩) ⟨s, false, none⟩

/-- An index list (R126): signed 64-bit offsets. -/
def idxList (bs : List Byte) : List Int := (List.range (bs.length / 8)).map (fun i => sext 64 (leAt bs (8 * i) 8))

/-! ### Remote chunks (R312, R315, R334, R337) -/

/-- Stream number of a mover (R260, R312). -/
def streamOf (t j : Nat) : Nat := 16 * (t / 2) + 8 * (t % 2) + j

/-- Whether a sender's remote transfer passes the source checks (R334, R337). -/
def State.remoteOk (s : State) (ctx remote : Nat) : Bool := s.sourceOk ctx (bits remote 0 20) (bits remote 20 4)

/-- The MSG_HEAD bead of a chunk (R315). -/
def State.msgHead (s : State) (entry ctx t j remote seq addr : Nat) (last : Bool) (data : List Byte) : Bead :=
  let e := s.rankEntry entry (bits remote 0 20)
  let p := partOf ctx
  ⟨mkHead 1 0 (bits e 0 12) (bits remote 20 4) (s.ctxSlice ctx) (streamOf t j) 0,
   payload (natLe 2 s.node ++ natLe 1 p ++ natLe 1 (b2n last) ++ natLe 4 ((s.rankOf entry p).getD 0) ++ natLe 8 addr ++
     natLe 2 data.length ++ zeros 2 ++ natLe 4 seq ++ natLe 4 (crc32c data))⟩

/-- Sends one chunk of a mover as one message and starts its acknowledgement timer (R132, R318). -/
def State.sendChunk (s : State) (ctx t j remote addr : Nat) (last : Bool) (data : List Byte) : State :=
  match s.sliceEntry (s.ctxSlice ctx) with
  | none => s
  | some i =>
    let x := s.mover t j
    let h := s.msgHead i ctx t j remote x.msgseq addr last data
    let s1 := s.setMover t j { x with
      sent := x.sent ++ [⟨x.msgseq, s.gtime, data.length, s.fld (fdNodeA (t / 6)) fdNodeAckTimeoutUs⟩], msgseq := (x.msgseq + 1) % two32 }
    (s1.countCtx ctx 0x033 data.length).route i (msgBeads h data) 7 false

end Sys2Proof.Machine
end

