-- ==== Sys2Proof/Machine/Flow.lean ====
section
/-!
DEFINITION. How commands end: finishing, stopping the units they hold, retirement with its reply, aborts by an order and
discards by a recovery reset (R216, R228 to R237, R241, R288, R299, R551, R575, R598, R602).
-/

namespace Sys2Proof.Machine

/-- The Jalter status of a unit fault code (R106). -/
def faultStatus (code : Nat) : Status :=
  match code with
  | 4 => .rejectedPerm
  | 5 => .droppedBadData
  | 6 => .droppedChunk
  | 8 => .abortedFence
  | _ => .rejectedFormat

/-! ### Unit ownership (R103, R142) -/

/-- Whether a logical ME has neither queued descriptors nor an open chain. -/
def State.meEmpty (s : State) (t m : Nat) : Bool :=
  let x := s.me t m
  x.queue.isEmpty && x.cur.isNone && x.chain.isNone

/-- Whether a mover has no descriptor. -/
def State.mvEmpty (s : State) (t j : Nat) : Bool :=
  let x := s.mover t j
  x.queue.isEmpty && x.cur.isNone

/-- A write of one bit of CT.OWN.ME_PIP (R103). -/
def State.ownMe (s : State) (t m : Nat) (pip : Bool) : State :=
  let a := ctOwnA t
  if s.mePip t m = pip then s.setFld a ⟨16 + m, 1⟩ 0
  else if s.meEmpty t m then (s.setFld a ⟨m, 1⟩ (b2n pip)).setFld a ⟨16 + m, 1⟩ 0
  else s.setFld a ⟨16 + m, 1⟩ 1

/-- Lands a pending change of an ME's owner. -/
def State.landMe (s : State) (t m : Nat) : State :=
  if (s.fld (ctOwnA t) ctOwnPend).testBit m && s.meEmpty t m then
    (s.setFld (ctOwnA t) ⟨m, 1⟩ (b2n (!s.mePip t m))).setFld (ctOwnA t) ⟨16 + m, 1⟩ 0
  else s

/-- A write of one bit of CT.OWN.MV_PIP: it lands when the mover's queue is empty (R142). -/
def State.ownMv (s : State) (t j : Nat) (pip : Bool) : State :=
  let pend := kvGet 0 s.mvOwnPend t
  if s.mvPip t j = pip then { s with mvOwnPend := kvSet 0 s.mvOwnPend t (setBits pend j 1 0) }
  else if s.mvEmpty t j then
    { s.setFld (ctOwnA t) ⟨8 + j, 1⟩ (b2n pip) with mvOwnPend := kvSet 0 s.mvOwnPend t (setBits pend j 1 0) }
  else { s with mvOwnPend := kvSet 0 s.mvOwnPend t (setBits pend j 1 1) }

/-- Lands a pending change of a mover's owner. -/
def State.landMv (s : State) (t j : Nat) : State :=
  let pend := kvGet 0 s.mvOwnPend t
  if pend.testBit j && s.mvEmpty t j then
    { s.setFld (ctOwnA t) ⟨8 + j, 1⟩ (b2n (!s.mvPip t j)) with mvOwnPend := kvSet 0 s.mvOwnPend t (setBits pend j 1 0) }
  else s

/-! ### Resets of units (R138 to R141) -/

/-- Whether a memory unit holds its requests for a retrain (R162). -/
def State.unitHeld (s : State) (a : Nat) : Bool :=
  match regionOf a with
  | .hbm _ => (s.fld (retrainA (memDie a)) phRetrainPcActive).testBit (memUnit a)
  | .tier => (s.fld (retrainA (memDie a)) phRetrainPcActive).testBit (memUnit a)
  | _ => false

/-- Writes back the dirty lines of a hart whose memory takes them (R114, R139). -/
def State.hartFlush (s : State) (t h : Nat) : State :=
  let x := s.hart t h
  let s1 := (x.dirty.filter (fun d => !s.unitHeld d.1)).foldl (fun s d => (s.store x.job d.1 d.2)) s
  s1.setHart t h { x with dirty := x.dirty.filter (fun d => s.unitHeld d.1) }

/-- A reset of one hart (R139): it stops, its stores drain, and it restarts at the reset vector once no dirty line is left. -/
def State.hartReset (s : State) (t h : Nat) : State :=
  let s1 := s.hartFlush t h
  let x := s1.hart t h
  if x.dirty.isEmpty then s1.setHart t h Hart.init
  else s1.setHart t h { Hart.init with dirty := x.dirty, rstAt := some s.gtime }

/-- Cancels descriptors of an ME: one fault record with CANCELLED each (R106, R140). -/
def State.meFlush (s : State) (t m : Nat) : State :=
  let x := s.me t m
  let gone := x.cur.toList ++ x.queue
  let s1 := gone.foldl (fun s d => s.meFault t m 8 (dsc d 112 8)) s
  (s1.setMe t m { s1.me t m with queue := [], cur := none, chain := none, acc := [], rstAt := none }).landMe t m

/-- Cancels the descriptors of a mover (R141). -/
def State.mvFlush (s : State) (t j : Nat) : State :=
  let x := s.mover t j
  let gone := x.cur.toList ++ x.queue
  let s1 := gone.foldl (fun s d => s.mvFault t j 8 (dsc d 112 8)) s
  (s1.setMover t j { s1.mover t j with
    queue := [], cur := none, pos := 0, sent := [], result := 0, owner := (0, 0), cut := false }).landMv t j

/-- The logical MEs that an ME group serves. -/
def State.grpMes (s : State) (t g : Nat) : List Nat :=
  (List.range 6).filter (fun m => s.mePresent t m && decide (s.mePhys t m / 4 = g))

/-- The four MEs of a group in the state that a completed reset leaves (R140). -/
def State.grpFlush (s : State) (t g : Nat) : State := (s.grpMes t g).foldl (fun s m => s.meFlush t m) s

/-! ### Stopping a command -/

/-- The harts that run a command's kernel. -/
def State.jobHarts (s : State) (ctx cseq : Nat) : List (Nat × Nat) :=
  (partHarts (partOf ctx)).filter (fun th => decide ((s.hart th.1 th.2).job = some (ctx, cseq)))

/-- Stops a kernel: every hart is reset, claimed movers are aborted, claimed ME groups only where a claimed ME has an open
chain (R275). -/
def State.stopRun (s : State) (ctx : Nat) (c : Cmd) : State :=
  let s1 := (s.jobHarts ctx c.cseq).foldl (fun s th => s.hartReset th.1 th.2) s
  let us := c.units.filter (fun u => decide (u < 1024))
  let s2 := (us.filter (fun u => decide (8 ≤ u % 32))).foldl (fun s u => s.mvFlush (u / 32) (u % 32 - 8)) s1
  let grps := ((us.filter (fun u => decide (u % 32 < 8) && (s2.me (u / 32) (u % 32)).chain.isSome)).map
    (fun u => (u / 32, s2.mePhys (u / 32) (u % 32) / 4))).eraseDups
  grps.foldl (fun s g => s.grpFlush g.1 g.2) s2

/-- Takes a command off everything that works for it. -/
def State.stopCmd (s : State) (ctx : Nat) (c : Cmd) : State :=
  let s1 := if c.is Opc.isRun && decide (c.stage = .started) then s.stopRun ctx c else s
  let mine : PressGroup → Bool := fun g => decide (g.ctx = ctx ∧ g.cseq = c.cseq)
  let mvs := (partHarts (partOf ctx)).filterMap (fun th => if th.2 < 8 then some th else none)
  let s2 := mvs.foldl (fun s tj =>
    let x := s.mover tj.1 tj.2
    if ctx < 768 ∧ x.owner = (ctx, c.cseq + 1) then
      s.setMover tj.1 tj.2 { x with cur := none, pos := 0, sent := [], result := 0, owner := (0, 0), cut := false }
    else s) s1
  { s2 with
    pressQ := (s2.pressQ.map (fun e => (e.1, e.2.filter (fun g => !mine g)))).filter (fun e => !e.2.isEmpty),
    presses := (s2.presses.map (fun e => (e.1, if e.2.group.any mine then { e.2 with group := none } else e.2))).filter
      (fun e => decide (e.2 ≠ Press.init)),
    colls := s2.colls.map (fun k => { k with
      members := k.members.filter (fun m => decide ((m.ctx, m.cseq) ≠ (ctx, c.cseq))) }),
    txns := s2.txns.map (fun t => if t.opener = ctx ∧ t.commit.any (fun k => decide (k.1 = c.cseq)) then { t with commit := none } else t),
    mgmt := { s2.mgmt with requests := s2.mgmt.requests.filter (fun r => decide (r ≠ (ctx, c.cseq))) } }

/-- Ends the unretired commands of a context that a test picks, each to retire with the given status in its place (R237,
R299, R341). `by_` names a FENCE that waits for their retirement. The result counts them. -/
def State.abortCmds (s : State) (ctx : Nat) (st : Status) (pick : Cmd → Bool) (by_ : Option (Nat × Nat)) : State × Nat :=
  let hit := (s.ctx ctx).cmds.filter pick
  let s1 := hit.foldl (fun s c => s.stopCmd ctx c) s
  (s1.modCtx ctx (fun x => { x with cmds := x.cmds.map (fun c =>
    if pick c then
      { c with stage := .finished, status := st, detail := noDetail, aux := 0,
               tEnd := if c.stage = .finished then c.tEnd else s.gtime, cnt1 := x.cntNow,
               fencers := c.fencers ++ by_.toList }
    else c) }), hit.length)

/-- A FENCE that waited for an aborted command's retirement has one less to wait for, and finishes with the last (R299). -/
def State.fencerDone (s : State) (f : Nat × Nat) : State :=
  let s1 := s.modCmd f.1 f.2 (fun k => if k.stage = .started then { k with left := k.left - 1 } else k)
  match (s1.ctx f.1).cmd f.2 with
  | some k => if k.stage = .started ∧ k.issued ∧ k.left = 0 then s1.finish f.1 f.2 .ok noDetail k.moved else s1
  | none => s1

/-! ### Transactions (R551) -/

/-- The counts of open transactions held by the firmware that serves a context (R551, R554). -/
def State.cfgstatOf (s : State) (c : Nat) : Nat := if c = 800 then hmCfgstatA else phCfgstatA (s.hubOf c)

/-- Abandons the transactions of an opening context at once (R551). -/
def State.abandonTxns (s : State) (c : Nat) : State :=
  let n := (s.txns.filter (fun t => decide (t.opener = c))).length
  if n = 0 then s
  else
    let s1 := { s with txns := s.txns.filter (fun t => decide (t.opener ≠ c)) }
    let s2 := s1.addSat (s1.cfgstatOf c) phCfgstatAbandoned n
    let s3 := s2.setFld (s2.cfgstatOf c) phCfgstatOpen (s2.fld (s2.cfgstatOf c) phCfgstatOpen - n)
    (List.range n).foldl (fun s _ => s.raise (32 * 94 + 3)) s3

/-! ### Cameos (R598, R602) -/

/-- A reset of a context or of its partition: armed cameos are disarmed, running dumps fail (R602). -/
def Ctx.disarm (x : Ctx) : Ctx :=
  { x with cameos := (x.cameos.filter (fun k => decide (k.stage ≠ .armed))).map (fun k =>
      if k.stage = .queued then { k with hit := true } else k) }

/-! ### Recovery resets (R237) -/

/-- Ends a recording by a recovery reset (R387): an END record of cause 1, ENDED_RESET. -/
def State.recReset (s : State) (c : Nat) : State :=
  if c < 768 ∧ (s.recorder (partOf c)).recActive ∧ (s.recorder (partOf c)).recCtx = c then
    let p := partOf c
    let s1 := s.recPut p 0xB 0 [1]
    let s2 := s1.setRecorder p { s1.recorder p with flags := setBits (s1.recorder p).flags 3 1 1 }
    s2.recEnd p
  else s

/-- Ends a replay: the clasp table is discarded and ACTIVE cleared (R391). -/
def State.replayStop (s : State) (p : Nat) : State :=
  let r := s.recorder p
  if !r.repActive then s
  else
    -- A REPLAY_START that still waits retires with the packets fed so far.
    let s1 := if r.drained then s else s.finish r.owner.1 r.owner.2 .ok noDetail r.fed
    ((s1.setRecorder p { r with repActive := false, clasps := [], taints := [], reads := [], drained := false }).setFld
      (phReplayA p) phReplayActive 0).setFld (phReplayA p) phReplayTarget 0x3FF

/-- The outputs of a command that ran and does not complete stay forfeit: their content is open (R245, log entry 9). -/
def State.forfeit (s : State) (ctx : Nat) (c : Cmd) : State :=
  if !c.ran then s
  else ((s.cmdRegions ctx c).filter (fun r => decide (r.role = .output))).foldl (fun s r =>
    let duo := s.drawBytes r.size
    let bs := duo.1
    let s1 := duo.2
    { s1 with mem := kvWrite 0 s1.mem r.addr.toNat bs }) s

/-- A recovery reset of some contexts of one clasp table, discarded together (R211, R237, R575): without `roll` the journal
engine's own start rolls back. `st` and `detail` go to the fault fields. -/
def State.discard (s : State) (ctxs : List Nat) (st : Status) (detail : Nat) (roll : Bool) : State :=
  let gone := ctxs.flatMap (fun c => (s.ctx c).cmds.map (fun k => (c, k)))
  let s1 := gone.reverse.foldl (fun s e => s.stopCmd e.1 e.2) s
  let s2 := if roll then gone.reverse.foldl (fun s e => s.jRollback e.1 e.2.cseq) s1 else s1
  let s2 := gone.foldl (fun s e => s.forfeit e.1 e.2) s2
  let s3 := match ctxs.head? with
    | some c => s2.undoClasps (claspTab c) (gone.map (fun e => (e.1, e.2.cseq, e.2.undoOvf)))
    | none => s2
  -- A value that an undo restores may satisfy a wait (R120).
  let s3 := match ctxs.head? with
    | some c => ((kvGet [] s2.undo (claspTab c)).filter (fun u =>
        gone.any (fun e => decide (e.1 = u.ctx ∧ e.2.cseq = u.cseq)))).foldl (fun s u => s.settleClasp (claspTab c) u.idx) s3
    | none => s3
  let s4 := gone.foldl (fun s e => e.2.fencers.foldl State.fencerDone s) s3
  ctxs.foldl (fun s c =>
    let x := s.ctx c
    let exp : BitVec 32 := x.lastDone + 1
    let back := decide (x.expCseq.toNat < exp.toNat) && !x.cmds.isEmpty
    let s' := ((s.setCtx c { x.disarm with
      expCseq := exp, wraps := (if back then x.wraps.1 - 1 else x.wraps.1, x.wraps.2), cmds := [],
      unitBuf := zeros 64, unitMask := 0, rx := [], rxLeft := 0, dropLeft := 0, ready := [],
      lastFault := st.code, lastDetail := detail, lastFaultCseq := exp }).abandonTxns c).recReset c
    let s' := if (s'.replayOf c).isSome then s'.replayStop (partOf c) else s'
    s'.progress (ctxKey c)) s4

/-! ### Replies (R230 to R235, R451, R479) -/

/-- Slots of a context's reply ring (R230); the management context's replies are held by Hasia, at most 64 (R451). -/
def State.slotsOf (s : State) (c : Nat) : Nat := if c = 800 then 64 else 2 ^ (6 + min 10 (s.cfg1 c phCtxcfg1RingOrder))

/-- Whether the next reply has ring space (R235). -/
def State.ringSpace (s : State) (c : Nat) : Bool :=
  let x := s.ctx c
  decide ((x.nextRseq - x.rack).toNat ≤ s.slotsOf c)

/-- The session of a context. -/
def State.sessionOf (s : State) (c : Nat) : Option Session :=
  let n := (s.ctx c).session
  if n = 0 then none else s.locket.sessions.find? (fun x => decide (x.id = n))

/-- A key of a session under one generation's secret (R476, R481). -/
def Session.key (x : Session) (gen : Nat) (label : List Byte) : List Byte :=
  sha256 (x.secrets.getD gen [] ++ x.transcript ++ label)

/-- The bytes of an ASCII label. -/
def ascii (t : String) : List Byte := t.toList.map (fun c => BitVec.ofNat 8 c.toNat)

/-- The nonce of a sealed packet or reply (R479). -/
def sealNonce (seq wrap ctx : Nat) (isReply : Bool) (gen : Nat) : List Byte :=
  natLe 12 (seq % two32 + (wrap % two32) * 2 ^ 32 + (ctx % 4096) * 2 ^ 64 + b2n isReply * 2 ^ 76 + (gen % 256) * 2 ^ 80)

/-- A reply with its protected bytes sealed (R232, R479). -/
def sealReply (key nonce r : List Byte) : List Byte :=
  let aad := (r.drop 4).take 4 ++ (r.drop 12).take 4
  let pt := r.take 4 ++ (r.drop 8).take 4 ++ (r.drop 16).take 32 ++ r.drop 64
  let duo := gcmSeal key nonce aad pt
  let ct := duo.1
  let tag := duo.2
  ct.take 4 ++ (r.drop 4).take 4 ++ (ct.drop 4).take 4 ++ (r.drop 12).take 4 ++ (ct.drop 8).take 32 ++ tag ++ ct.drop 40

/-- What a reply says. -/
structure ReplyMsg where
  /-- CSEQ. -/
  cseq : Nat
  /-- STATUS. -/
  status : Status
  /-- DETAIL. -/
  detail : Nat
  /-- TAG. -/
  tag : Nat
  /-- GTIME_START. -/
  tStart : Nat
  /-- GTIME_END. -/
  tEnd : Nat
  /-- AUX. -/
  aux : Nat
  /-- SUPPRESSING. -/
  suppressing : Bool
  /-- Counters with PARTIAL_CNT, where the reply carries them. -/
  cnt : Option (List Nat × Bool)
  /-- Key generation, none for the current one. -/
  gen : Option Nat
  deriving DecidableEq, Repr

/-- Writes a reply with the next RSEQ into the context's ring (R231 to R233). -/
def State.writeReply (s : State) (c : Nat) (m : ReplyMsg) : State :=
  let x := s.ctx c
  let rseq := x.nextRseq.toNat
  let ses := s.sessionOf c
  let flags := b2n m.cnt.isSome + 2 * b2n ses.isSome + 4 * b2n m.suppressing + 8 * b2n (m.cnt.any (·.2))
  let r := natLe 4 m.cseq ++ natLe 4 rseq ++ natLe 2 m.status.code ++ natLe 2 m.detail ++ natLe 2 c ++ natLe 2 flags ++
    natLe 8 m.tag ++ natLe 8 m.tStart ++ natLe 8 m.tEnd ++ natLe 8 m.aux ++ zeros 16 ++
    (match m.cnt with
    | some (vs, _) => (vs.take 8).flatMap (natLe 8)
    | none => [])
  let out : List Byte := match ses with
    | some k =>
      let g := m.gen.getD (k.secrets.length - 1)
      sealReply (k.key g (ascii "rep" ++ natLe 2 c)) (sealNonce rseq x.wraps.2 c true g) r
    | none => r
  let s1 := s.setCtx c { x with
    nextRseq := x.nextRseq + 1, wraps := (x.wraps.1, if rseq + 1 = two32 then x.wraps.2 + 1 else x.wraps.2) }
  if c = 800 then
    s1.hold (.reply rseq out)
  else
    let size := if s.cfg0 c phCtxcfg0Wide = 1 then 128 else 64
    let a := s.cfg1 c phCtxcfg1RingBase + (x.nextRseq - 1).toNat % s.slotsOf c * size
    -- The upper half goes first (R233).
    let s2 := if out.length = 128 then (s1.store none (a + 64) (out.drop 64)) else s1
    (s2.store none a (out.take 64))

/-- Whether a reply of a context waits for ring space (R235). -/
def State.ringFull (s : State) (c : Nat) : Bool :=
  let x := s.ctx c
  !s.ringSpace c && (!x.due.isEmpty || (x.cmds.head?.map (fun k => decide (k.stage = .finished))).getD false)

/-- Sets the RING_FULL level of a hub (R493). -/
def State.ringLevel (s : State) (c : Nat) : State :=
  if c = 800 then s
  else
    let p := s.hubOf c
    let v := (s.ctxs.filter (fun e => decide (e.1 ≠ 800) && decide (s.hubOf e.1 = p))).any (fun e => s.ringFull e.1)
    if s.flag (evcSrcstatA (32 * (73 + p) + 6)) evcSrcstatLevel = v then s else s.level (32 * (73 + p) + 6) v

/-- Writes the rejection replies that are due, as far as the ring has space; `head` says whether one that became due after
the oldest command may go. -/
def State.flushDue (s : State) (c : Nat) (head : Bool) : Nat → State
  | 0 => s
  | fuel + 1 =>
    let x := s.ctx c
    match x.due with
    | [] => s
    | d :: ds =>
      if (d.afterHead && !head) || !s.ringSpace c then s
      else
        let s1 := (s.setCtx c { x with due := ds }).writeReply c
          ⟨d.cseq, d.status, noDetail, d.tag, d.time, d.time, d.aux, true, none, none⟩
        State.flushDue s1 c head fuel

/-- Whether the oldest command of a context is due to retire (R235). -/
def Ctx.headDue (x : Ctx) : Bool := (x.cmds.head?.map (fun k => decide (k.stage = .finished))).getD false

/-- Writes every due rejection reply that may go now. -/
def State.flushReplies (s : State) (c : Nat) : State :=
  let x := s.ctx c
  (s.flushDue c (!x.headDue) (x.due.length)).ringLevel c

/-! ### Steps of a retirement (R228, R241, R598) -/

/-- The oldest command has retired: the replies that became due before it go ahead of the next command, which becomes due only now (R235). -/
def Ctx.headGone (x : Ctx) : Ctx := { x with due := x.due.map (fun d => { d with afterHead := false }) }

/-- The STEP field of a command's parameter block, for the commands that carry one (R598). -/
def stepField (pk : List Byte) : Option Nat :=
  match pOpc pk with
  | some .move | some .fill | some .gather | some .scatter | some .matmul | some .matmulAcc => some (par pk 100 4)
  | some .convert => some (par pk 12 4)
  | some .kvAppend => some (par pk 36 4)
  | some .allreduce | some .reduce | some .bcast | some .allgather | some .barrier => some (par pk 32 4)
  | _ => none

/-- Whether an identifier belongs to a cameo still armed or running. -/
def Ctx.cameoBusy (x : Ctx) (id : Nat) : Bool :=
  x.cameos.any (fun k => decide (k.id = id) && (decide (k.stage = .armed) || decide (k.stage = .queued)))

/-- The next free identifier from `n` on (R598). -/
def Ctx.cameoId (x : Ctx) : Nat → Nat → Nat
  | 0, n => n
  | fuel + 1, n => if n % 65536 = 0 ∨ x.cameoBusy (n % 65536) then Ctx.cameoId x fuel (n + 1) else n % 65536

/-- Arms the cameo of a retiring CAMEO command: the result it retires with (R293, R598). -/
def State.armCameo (s : State) (ctx : Nat) (c : Cmd) : State × Cmd :=
  if c.opc ≠ some .cameo ∨ !c.status.clean then (s, c)
  else
    let x := s.ctx ctx
    let p := par c.packet
    let bad : Status → Cmd := fun st => { c with status := st, detail := noDetail, aux := 0 }
    if 16 ≤ (x.cameos.filter (fun k => decide (k.stage = .armed))).length then (s, bad .busy)
    else if p 16 4 < 64 ∨ (p 2 1 = 0 ∧ p 4 4 ≤ x.runCount) ∨ (p 2 1 = 1 ∧ p 4 4 ≤ x.mmCount) then (s, bad .rejectedFormat)
    else if !s.mayReach ctx (p 8 8 : Nat) (p 16 4) then (s, bad .rejectedPerm)
    else
      let id := x.cameoId 65536 x.nextCameo
      let k : Cameo := ⟨id, p 0 2, p 2 1, p 4 4, p 8 8, p 16 4, p 24 8, .armed, 0, 0, none, false⟩
      (s.setCtx ctx { x with cameos := x.cameos.filter (fun q => decide (q.id ≠ id)) ++ [k], nextCameo := (id + 1) % 65536 },
       { c with aux := id })

/-- Counts a clean retirement and triggers the cameos that fire at it (R598, R599). -/
def State.fireCameos (s : State) (ctx : Nat) (c : Cmd) : State :=
  if ctx ≥ 768 ∨ !c.status.clean ∨ !c.ran then s
  else
    let isRun := c.is Opc.isRun
    let isMm := c.is (fun o => o == .matmul || o == .matmulAcc)
    let x := s.ctx ctx
    let x1 := { x with
      runCount := if isRun then (x.runCount + 1) % two32 else x.runCount,
      mmCount := if isMm then (x.mmCount + 1) % two32 else x.mmCount }
    let fires : Cameo → Bool := fun k => decide (k.stage = .armed) &&
      ((decide (k.source = 0) && isRun && decide (k.step = x1.runCount)) ||
       (decide (k.source = 1) && isMm && decide (k.step = x1.mmCount)) ||
       (decide (k.source = 2) && decide (stepField c.packet = some k.step)))
    let ids := ((List.range 65536).filter (fun i => x1.cameos.any (fun k => decide (k.id = i) && fires k)))
    if !x1.cameos.any fires then s.setCtx ctx x1
    else
      let x2 := { x1 with cameos := x1.cameos.map (fun k =>
        if fires k then { k with stage := .queued, cseq := c.cseq, time := s.gtime, entry := kvGet none x1.names k.name } else k) }
      let p := partOf ctx
      { s.setCtx ctx x2 with
        dumpQ := kvSet [] s.dumpQ p (kvGet [] s.dumpQ p ++ ids.map (fun i => (ctx, i))) }

/-- Applies a retiring command's SIG: only where its index is valid and permitted (R221, R239, R241). -/
def State.applySig (s : State) (ctx : Nat) (c : Cmd) : State :=
  let f := pSig c.packet
  if clVal f = 0 ∨ ctxKind ctx = .management ∨ claspCount (claspTab ctx) ≤ clIdx f ∨ !s.mayClasp ctx (clIdx f) then s
  else s.signalCtx ctx (clIdx f) (clVal f) (!c.status.clean)

/-- The clasp-signal bead of a retiring SIGNAL_REMOTE (R285, R316): not for a command refused at step 4, nor in a replay. -/
def State.remoteSignal (s : State) (ctx : Nat) (c : Cmd) : State :=
  let p := par c.packet
  if c.opc ≠ some .signalRemote ∨ (s.replayOf ctx).isSome ∨
      (!c.ran && (decide (c.status = .rejectedFormat) || decide (c.status = .rejectedPerm) || decide (c.status = .unsupported))) ∨
      !s.sourceOk ctx (p 0 4) (p 4 1) then s
  else
    match s.sliceEntry (s.ctxSlice ctx) with
    | none => s
    | some i =>
      let e := s.rankEntry i (p 0 4)
      let b : Bead := ⟨mkHead 8 4 (bits e 0 12) (p 4 1) (s.ctxSlice ctx) 0 0,
        payload (natLe 4 (p 8 4) ++ zeros 4 ++ natLe 8 (p 16 8) ++ natLe 1 (b2n (!c.status.clean)) ++ zeros 1 ++ natLe 2 s.node ++
          natLe 4 ((s.rankOf i (partOf ctx)).getD 0))⟩
      s.route i [b] 7 false

/-- Returns the units that a kernel claimed to the decoder (R273, R274). -/
def State.returnUnits (s : State) (c : Cmd) : State :=
  if c.is Opc.isRun && c.ran then
    (c.units.filter (fun u => decide (u < 1024))).foldl (fun s u =>
      if u % 32 < 8 then s.ownMe (u / 32) (u % 32) false else s.ownMv (u / 32) (u % 32 - 8) false) s
  else s

/-- The reply of a retiring command, with its counters where its packet asks for them (R220, R231, R596). -/
def State.retireReply (s : State) (ctx : Nat) (c : Cmd) : State :=
  let t0 := if c.ran then c.tStart else s.gtime
  let t1 := if c.ran then c.tEnd else s.gtime
  let wants := (pFlags c.packet).testBit 0 && decide (s.cfg0 ctx phCtxcfg0Wide = 1) && decide (ctx ≠ 800)
  let duo := if wants ∧ c.ran then s.cntReply (s.ctx ctx).cntSel c.cnt0 c.cnt1 else (List.replicate 8 0, false, s)
  let vals := duo.1
  let part := duo.2.1
  let s1 := duo.2.2
  s1.writeReply ctx ⟨c.cseq, c.status, c.detail, pTag c.packet, t0, t1, c.aux, false,
    if wants then some (vals, part) else none, some c.gen⟩

/-- The retirement of a context's oldest command, which has finished (R228). -/
def State.retireHead (s : State) (ctx : Nat) (c0 : Cmd) : State :=
  let duo := s.armCameo ctx c0
  let s0 := duo.1
  let c := duo.2
  let s1 := if c.status.clean then s0.jRetire ctx c.cseq else s0.jRollback ctx c.cseq
  let s2 := (s1.returnUnits c).remoteSignal ctx c
  let s3 := s2.applySig ctx c
  let s4 := s3.modCtx ctx (fun x => { x with
    lastDone := BitVec.ofNat 32 c.cseq,
    lastFault := if c.status.clean then x.lastFault else c.status.code,
    lastDetail := if c.status.clean then x.lastDetail else c.detail,
    lastFaultCseq := if c.status.clean then x.lastFaultCseq else BitVec.ofNat 32 c.cseq })
  let s5 := (s4.recRetire ctx c).replayCompare ctx c
  let s5 := if c.status.clean then s5 else s5.forfeit ctx c
  let s6 := (s5.fireCameos ctx c).countCtx ctx 0x060 1
  let s7 := s6.retireReply ctx c
  let s8 := (s7.modCtx ctx (fun x => ({ x with cmds := x.cmds.filter (fun k => decide (k.cseq ≠ c.cseq)) }).headGone)).freeUndo
    (claspTab ctx) ctx c.cseq
  let s9 := if (pFlags c.packet).testBit 1 ∧ ctx < 800 then s8.raiseInfo (1536 + ctx) c.cseq else s8
  let s10 := c.fencers.foldl State.fencerDone s9
  -- The contexts of the partition that waited for journal slots may go on (R244, R562).
  let s11 := if c0.slots ≠ 0 then (s10.partCtxs (partOf ctx)).foldl (fun s e => s.progress (ctxKey e.1)) s10 else s10
  (s11.progress (ctxKey ctx)).flushReplies ctx

end Sys2Proof.Machine
end

