-- ==== Sys2Proof/Machine/Intake.lean ====
section
/-!
DEFINITION. Intake, checks, start and retirement of commands and the Context Status Block (R213 to R244, R279, R300, R389, R550).
-/

namespace Sys2Proof.Machine

/-! ### Intake windows (R213 to R217) -/

/-- A unit arrives in a context's intake stream (R215). -/
def State.takeUnit (s : State) (c : Nat) (u : List Byte) : State :=
  let x := s.ctx c
  if x.dropLeft ≠ 0 then s.setCtx c { x with dropLeft := x.dropLeft - 1 }
  else if x.rxLeft ≠ 0 then
    let pk := x.rx ++ u
    if x.rxLeft = 1 then s.setCtx c { x with rx := [], rxLeft := 0, lastUnit := s.gtime, ready := x.ready ++ [pk] }
    else s.setCtx c { x with rx := pk, rxLeft := x.rxLeft - 1, lastUnit := s.gtime, stall := s.fld (phIntakeA (s.hubOf c)) phIntakeStallMs }
  else
    let len := frameLen u
    if len ≤ s.free_ c then
      if len = 1 then s.setCtx c { x with lastUnit := s.gtime, ready := x.ready ++ [u] }
      else s.setCtx c { x with rx := u, rxLeft := len - 1, lastUnit := s.gtime, stall := s.fld (phIntakeA (s.hubOf c)) phIntakeStallMs }
    else
      let s1 := s.setCtx c { x with dropLeft := len - 1, dropPkts := satAdd (two32 - 1) x.dropPkts 1 }
      (s1.addSat (phIntakeA (s.hubOf c)) phIntakeDropPkts 1).raise (32 * (73 + s.hubOf c) + 4)

/-- INTAKE_STORE (R214): a store that crosses a 64-byte boundary takes an access fault and writes nothing. -/
def execIntakeStore (now ctx off : Nat) (data : List Byte) (s : State) : Host.Outcome State Fault Refusal :=
  .next (let s1 := s.advance now
    let o := off % 64
    if 800 ≤ ctx ∨ data.isEmpty then s1
    else if 65536 ≤ off ∨ 64 < o + data.length then s1.answer .fault
    else
      let x := s1.ctx ctx
      let buf := putBytes x.unitBuf o data
      let mask := x.unitMask ||| ((2 ^ data.length - 1) <<< o)
      if mask = 2 ^ 64 - 1 then (s1.setCtx ctx { x with unitBuf := zeros 64, unitMask := 0 }).takeUnit ctx buf
      else s1.setCtx ctx { x with unitBuf := buf, unitMask := mask })

/-- INTAKE_ABANDON (R217). -/
def execIntakeAbandon (now ctx : Nat) (s : State) : Host.Outcome State Fault Refusal :=
  .next (let s1 := s.advance now
    let x := s1.ctx ctx
    let p := s1.hubOf ctx
    if 800 ≤ ctx ∨ x.rxLeft = 0 ∨ s1.gtime < x.lastUnit + x.stall * 1000000 then s1
    else
      let s2 := s1.setCtx ctx { x with
        rx := [], rxLeft := 0, unitBuf := zeros 64, unitMask := 0, abandons := satAdd (two32 - 1) x.abandons 1 }
      (s2.addSat (phIntakeA p) phIntakeAbandon 1).raise (32 * (73 + p) + 5))

/-! ### Checks (R222 to R225, R234, R479) -/

/-- The clear packet, without its seal unit, of a sealed packet whose tag verifies (R222, R479). -/
def State.unseal (s : State) (c : Nat) (pk : List Byte) : Option (List Byte) :=
  match s.sessionOf c with
  | none => none
  | some k =>
    let g := k.secrets.length - 1
    let key := k.key g (ascii "cmd" ++ natLe 2 c)
    let body := pk.take (pk.length - 64)
    let tag := (pk.drop (pk.length - 64)).take 16
    (gcmOpen key (sealNonce (pCseq pk) (s.ctx c).wraps.1 c false g) ((pk.drop 2).take 14)
      (body.take 2 ++ body.drop 16) tag).map (fun pt => pt.take 2 ++ (pk.drop 2).take 14 ++ pt.drop 2)

/-- A rejection at step 1 or 2 (R225): the first since the last acceptance is replied. -/
def State.rejectPk (s : State) (c : Nat) (pk : List Byte) (st : Status) : State :=
  let x := s.ctx c
  let x1 := { x with
    seqRej := if st = .rejectedSeq then satAdd (two32 - 1) x.seqRej 1 else x.seqRej,
    sealRej := if st = .rejectedSealed then satAdd (two32 - 1) x.sealRej 1 else x.sealRej,
    due := if x.suppress then x.due
      else x.due ++ [⟨pCseq pk, st, x.expCseq.toNat, pTag pk, s.gtime, x.headDue⟩],
    suppress := true }
  (s.setCtx c x1).flushReplies c

/-- Takes RACK from an accepted packet (R234). -/
def Ctx.takeRack (x : Ctx) (rack : Nat) : Ctx :=
  let last := (x.nextRseq - 1).toNat
  if later rack last then { x with rackBad := satAdd (two32 - 1) x.rackBad 1 }
  else if later rack x.rack.toNat then { x with rack := BitVec.ofNat 32 rack }
  else x

/-- A command as its acceptance leaves it. -/
def Cmd.fresh (pk : List Byte) (isSealed : Bool) (gen : Nat) : Cmd :=
  { packet := pk, cseq := pCseq pk, isSealed := isSealed, stage := .accepted, issued := false, status := .ok, detail := 0,
    aux := 0, tStart := 0, tEnd := 0, waited := 0, seed := 0, units := [], slots := 0, corrected := false, undoOvf := false,
    cnt0 := CntLatch.init, cnt1 := CntLatch.init, left := 0, fault := 0, tReq := 0, ran := false, gen := gen, pairs := none,
    unitWait := 0, moved := 0, outDigest := none, held := false, fencers := [] }

/-- The check of a KV_EVICT's pair list (R256, R279): none where it may run. -/
def State.pairsCheck (s : State) (ctx : Nat) (c : Cmd) (l : List Byte) : Option (Status × Nat) :=
  let ps := kvPairs l
  let rs := s.regions ctx c.packet l
  let dsts := rs.filter (fun r => decide (r.idx = 2))
  let others := rs.filter (fun r => decide (r.idx = 1))
  let indexed := dsts.zip (List.range dsts.length)
  if ps.any (fun p => !aligned 65536 p.1 || !aligned 65536 p.2 || inTileStore p.1 || inTileStore p.2) then
    some (.rejectedFormat, mkDetail 0 0)
  else if dsts.any (fun d => others.any (fun o => d.shares o)) ||
      indexed.any (fun a => indexed.any (fun b => decide (a.2 < b.2) && a.1.shares b.1)) then some (.rejectedFormat, mkDetail 2 0)
  else
    match rs.find? (fun r => !s.mayReach ctx r.addr r.size || !s.journalable ctx r) with
    | some r => some (.rejectedPerm, mkDetail r.idx 0)
    | none => none

/-- The hub reads the pair list of a KV_EVICT once it is its context's oldest unstarted command (R279). -/
def State.touchOldest (s : State) (ctx : Nat) : State :=
  match (s.ctx ctx).oldest with
  | some c =>
    if c.opc = some .kvEvict ∧ c.pairs.isNone then
      let r := s.readMem 0 (par c.packet 8 8) (16 * par c.packet 4 4)
      match r.data with
      | none => (r.st.modCmd ctx c.cseq (fun k => { k with pairs := some [] })).finish ctx c.cseq .droppedBadData (mkDetail 0 5) 0
      | some l =>
        let s1 := r.st.modCmd ctx c.cseq (fun k => { k with pairs := some l, corrected := k.corrected || r.corr })
        match s1.pairsCheck ctx c l with
        | some (st, d) => s1.finish ctx c.cseq st d 0
        | none => s1
    else s
  | none => s

/-- Acceptance of a packet and its content check (R224 steps 3 and 4). `sealOk` says that a seal unit's reserved bytes are 0. -/
def State.acceptPk (s : State) (c : Nat) (pk : List Byte) (isSealed sealOk : Bool) : State :=
  let x := s.ctx c
  let gen := match s.sessionOf c with
    | some k => k.secrets.length - 1
    | none => 0
  -- R435: a management command waits for the image of the cycle that accepted it.
  let k : Cmd := { Cmd.fresh pk isSealed gen with tReq := if c = 800 then s.mgmt.cycle + 1 else 0 }
  let x1 := x.takeRack (pRack pk)
  let x2 := { x1 with
    expCseq := x.expCseq + 1, wraps := (if x.expCseq.toNat + 1 = two32 then x.wraps.1 + 1 else x.wraps.1, x.wraps.2),
    suppress := false, cmds := x.cmds ++ [k] }
  let s1 := (s.setCtx c x2).flushReplies c
  let s2 := if s1.records c 0 then s1.recPut (partOf c) 3 (pCseq pk) pk else s1
  let s3 := match s2.contentCheck c isSealed pk with
    | some (st, d) => s2.finish c k.cseq st d 0
    | none => if sealOk then s2 else s2.finish c k.cseq .rejectedFormat noDetail 0
  let self := decide (k.opc = some .statusQuery) && (decide (par pk 2 2 = 0xFFFF) || decide (par pk 2 2 = c))
  let s4 := if self then
      s3.modCmd c k.cseq (fun q => if q.stage = .accepted then
        { q with moved := s3.free_ c % 65536 + (x2.cmds.length % 65536) * 65536 + x1.rack.toNat * two32 } else q)
    else s3
  (s4.touchOldest c).progress (ctxKey c)

/-- Whether the hub holds the checks of a context: a KEY_ROTATE accepted and not carried out (R481), a zero fill of its
partition (R169), or the reset of the partition whose hub serves the administration contexts (R208). -/
def State.checkHeld (s : State) (c : Nat) : Bool :=
  ((s.ctx c).cmds.any (fun k => decide (k.opc = some .keyRotate) && !k.issued && decide (k.stage ≠ .finished))) ||
  (decide (c < 768) && s.flag (phXtsA (partOf c)) phXtsFilling) ||
  (decide (ctxKind c = .admin) && (s.bezel s.adminHub).resetHold)

/-- PACKET_CHECK (R224). -/
def execPacketCheck (ctx : Nat) (s : State) : Host.Outcome State Fault Refusal :=
  .next (match (s.ctx ctx).ready with
    | [] => s
    | pk :: rest =>
      if 800 < ctx ∨ s.checkHeld ctx then s
      else
        let x := s.ctx ctx
        let s1 := s.setCtx ctx { x with ready := rest }
        let want := decide (x.session ≠ 0)
        if pSealed pk ≠ want then s1.rejectPk ctx pk .rejectedSealed
        else
          match (if want then s1.unseal ctx pk else some pk) with
          | none => s1.rejectPk ctx pk .rejectedSealed
          | some clear =>
            if pCseq pk ≠ x.expCseq.toNat then s1.rejectPk ctx pk .rejectedSeq
            else s1.acceptPk ctx clear want (!want || zeroAt pk (pk.length - 48) 48))

/-! ### The Context Status Block (R236) -/

/-- The block as it stands. -/
def State.csbOf (s : State) (c : Nat) : List Byte :=
  let x := s.ctx c
  let waiting := match x.oldest with
    | some k => !s.waitsSat c k.packet
    | none => false
  let st := s.cfg0 c phCtxcfg0Enabled + 2 * b2n (decide (x.session ≠ 0)) + 4 * b2n waiting + 8 * b2n (s.journalWait c) +
    16 * b2n (s.ringFull c) + 32 * b2n x.fenced
  natLe 4 x.expCseq.toNat ++ natLe 4 x.lastDone.toNat ++ natLe 4 x.nextRseq.toNat ++ natLe 4 x.rack.toNat ++
    natLe 4 ((x.nextRseq - 1).toNat % s.slotsOf c) ++ natLe 2 (s.free_ c) ++ natLe 2 x.cmds.length ++
    natLe 2 (x.rx.length / 64) ++ natLe 2 st ++ natLe 2 x.lastFault ++ natLe 2 x.lastDetail ++ natLe 4 x.lastFaultCseq.toNat ++
    natLe 4 x.dropPkts ++ natLe 4 x.seqRej ++ natLe 4 x.sealRej ++ natLe 4 x.abandons ++ natLe 4 x.rackBad ++ natLe 8 x.unitMask

/-- CSB_READ (R236): a read that includes offset 0 latches the block. -/
def execCsbRead (ctx off len : Nat) (s : State) : Host.Outcome State Fault Refusal :=
  .next (if 800 ≤ ctx ∨ len = 0 then s
    else
      let s1 := if off = 0 then s.modCtx ctx (fun x => { x with latch := s.csbOf ctx }) else s
      s1.answer (.bytes (fitBytes len ((s1.ctx ctx).latch.drop off))))

/-! ### Starting (R226) -/

/-- Marks as observed the undo entries of the clasps that a command's waits met (R575). -/
def State.observeWaits (s : State) (ctx : Nat) (c : Cmd) : State :=
  if (s.replayOf ctx).isSome ∨ 768 ≤ ctx then s
  else
    [pWait c.packet 0, pWait c.packet 1].foldl (fun s f =>
      if clVal f ≠ 0 ∧ s.waitSat ctx f then s.observe (claspTab ctx) (clIdx f) ctx c.cseq else s) s

/-- Commands of a context that run or ran and have not retired. -/
def Ctx.running (x : Ctx) : List Cmd := x.cmds.filter (fun k => k.ran)

/-- Whether the regions of a command conflict with a command started before it (R176, R226). -/
def State.conflicts (s : State) (ctx : Nat) (c : Cmd) : Bool :=
  let rs := s.cmdRegions ctx c
  ((s.ctx ctx).running.any (fun k => regionsConflict (s.cmdRegions ctx k) rs)) ||
  (decide (ctx < 768) && (s.partCtxs (partOf ctx)).any (fun e =>
    e.2.running.any (fun k => inPlaceConflict (s.cmdRegions e.1 k) rs)))

/-- Whether a command uses decoder units or harts. -/
def Cmd.usesUnits (c : Cmd) : Bool := c.is (fun o => o.isDecoder || o.isRun)

/-- Whether a command of another context has waited longer for units of the partition (R257). -/
def State.unitTurn (s : State) (ctx : Nat) (c : Cmd) : Bool :=
  let mine := if c.unitWait = 0 then s.gtime + 1 else c.unitWait
  !(s.partCtxs (partOf ctx)).any (fun e =>
    decide (e.1 ≠ ctx) && (match e.2.oldest with
      | some k => k.usesUnits && decide (k.unitWait ≠ 0) &&
          (decide (k.unitWait < mine) || (decide (k.unitWait = mine) && decide (e.1 < ctx)))
      | none => false))

/-- The start of a command whose start conditions hold: units, slots, seed, GTIME_START and the counter snapshot. -/
def State.startCmd (s : State) (ctx : Nat) (c : Cmd) (units : List Nat) : State :=
  let rs := s.cmdRegions ctx c
  let blocks := ((rs.filter (fun r => decide (r.role = .inPlace))).flatMap (fun r =>
    (List.range (r.blockHi - r.blockLo).toNat).map (fun i => ((r.blockLo + i).toNat, r.idx))))
  let blocks := (inPlaceBlocks rs).filterMap (fun b => blocks.find? (fun x => decide (x.1 = b)))
  let seed := if ctx = 800 then 0 else (s.reg (phSeedA (s.hubOf ctx) (localIdx ctx) (pSeedSel c.packet))).toNat
  let s1 := s.modCtx ctx (fun x => { x with cmds := x.cmds.map (fun k => if k.cseq = c.cseq then
    { k with stage := .started, ran := true, tStart := s.gtime, seed := seed, units := units, slots := blocks.length,
             cnt0 := x.cntNow, unitWait := 0 } else k) })
  let s2 := if blocks.isEmpty then s1 else { s1 with holds := s1.holds ++ [⟨ctx, c.cseq, blocks, []⟩] }
  let s3 := (s2.countCtx ctx 0x063 blocks.length).observeWaits ctx c
  let s4 := s3.recStart ctx c
  let s5 := units.foldl (fun s u => if u < 1024 then s.progress u else s) s4
  (s5.progress (ctxKey ctx)).touchOldest ctx

/-- Commands that a replay retires with their recorded result (R389). -/
def replayed (o : Opc) : Bool :=
  match o with
  | .cfgBegin | .cfgSet | .cfgGet | .cfgCommit | .cfgRollback | .hintPhase | .capRequest | .capQuery | .cntEnable | .cntRead
  | .cameo | .cameoCancel | .sessionOpen | .sessionClose | .quote | .keyRotate | .recordStart | .recordStop | .replayStart
  | .statusQuery => true
  | _ => false

/-- Finishes a command of a replay with its recorded STATUS, DETAIL and AUX, OK and 0 where no RETIRE record names it. -/
def State.finishRecorded (s : State) (ctx : Nat) (c : Cmd) : State :=
  match s.replayOf ctx with
  | none => s
  | some r =>
    match s.replayRetireRec (partOf ctx) ((c.cseq + r.delta) % two32) with
    | some x => s.finish ctx c.cseq (Status.ofCode (leAt x.pay 0 2)) (leAt x.pay 2 2) (leAt x.pay 8 8)
    | none => s.finish ctx c.cseq .ok noDetail 0

/-- Whether the active Hasia may execute a command of the management context: the image that records its acceptance has been
acknowledged, or there is no standby (R435). -/
def State.mgmtMay (s : State) (c : Cmd) : Bool :=
  s.hasiaUp && (!s.flag hmRoleA hmRoleStandbyOk || decide (c.tReq ≤ s.mgmt.accepted))

/-- The oldest unstarted command is tried against its start conditions (R226, R240, R257, R299, R362, R389, R435, R549, R550,
R599). -/
def State.tryStart (s : State) (ctx : Nat) (c : Cmd) : State :=
  let x := s.ctx ctx
  let end_ : State → Status → Nat → State := fun s st d => (s.finish ctx c.cseq st d 0).touchOldest ctx
  if x.fenced ∧ c.opc ≠ some .resume then end_ s .abortedFence noDetail
  else
    let s := match s.replayOf ctx with
      | some r => s.replayCatchUp (partOf ctx) ((c.cseq + r.delta) % two32)
      | none => s
    if ctx = 800 ∧ !s.mgmtMay c then s
    else if s.waitTainted ctx (pWait c.packet 0) then end_ (s.observeWaits ctx c) .droppedDep (mkDetail 0xF0 0)
    else if s.waitTainted ctx (pWait c.packet 1) then end_ (s.observeWaits ctx c) .droppedDep (mkDetail 0xF1 0)
    else if !s.waitsSat ctx c.packet then s
    else if ctx < 768 ∧ s.fld (phBezelA (partOf ctx)) phBezelState ≠ 0 then s
    else
      let again := match s.contentCheck ctx c.isSealed c.packet with
        | some r => some r
        | none => if c.opc = some Opc.kvEvict then s.pairsCheck ctx c (c.pairs.getD []) else none
      match again with
      | some (_, d) => end_ s .rejectedPerm d
      | none =>
        if ctx < 768 ∧ c.usesUnits ∧ !s.tilesOn (partOf ctx) ∧ !(s.pwr (partOf ctx)).hostOn then end_ s .busy noDetail
        else if c.is Opc.isColl && (s.replayOf ctx).isNone && later (s.nextColl ctx) (collSeq c.packet) then
          end_ s .rejectedFormat noDetail
        else if c.is Opc.isColl && (s.replayOf ctx).isNone && decide (collSeq c.packet ≠ s.nextColl ctx) then s
        else if (pFlags c.packet).testBit 2 && !x.before.isEmpty then s
        else if s.maxflight ctx ≤ x.running.length then s
        else if s.conflicts ctx c then s
        else if (s.cmdRegions ctx c).any (fun r => s.inFill r) then s
        else if s.heldByCommit ctx c then s
        else if s.heldByCameo ctx c then
          if c.held then s
          else (s.modCmd ctx c.cseq (fun k => { k with held := true })).addSat (hmCameostat1A (partOf ctx)) hmCameostat1Held 1
        else if ctx < 768 ∧ !s.slotsFree (partOf ctx) (s.cmdRegions ctx c) then s
        else if ctx < 768 ∧ c.usesUnits then
          match s.unitsFor ctx c.packet with
          | some us =>
            if s.unitTurn ctx c then s.startCmd ctx c us
            else s.modCmd ctx c.cseq (fun k => if k.unitWait = 0 then { k with unitWait := s.gtime + 1 } else k)
          | none => s.modCmd ctx c.cseq (fun k => if k.unitWait = 0 then { k with unitWait := s.gtime + 1 } else k)
        else
          let s1 := s.startCmd ctx c []
          if (s1.replayOf ctx).isSome && c.is replayed then s1.finishRecorded ctx c else s1

/-- COMMAND_START (R226). -/
def execCommandStart (now ctx : Nat) (s : State) : Host.Outcome State Fault Refusal :=
  .next (let s1 := s.advance now
    match (s1.ctx ctx).oldest with
    | some c => s1.tryStart ctx c
    | none => s1)

/-- COMMAND_RETIRE (R228, R235): rejection replies that became due earlier go first, then the oldest command. -/
def execCommandRetire (now ctx : Nat) (s : State) : Host.Outcome State Fault Refusal :=
  .next (let s1 := (s.advance now).flushReplies ctx
    let x := s1.ctx ctx
    match x.cmds with
    | c :: _ => if c.stage = .finished ∧ s1.ringSpace ctx ∧ x.due.all (·.afterHead) then s1.retireHead ctx c else s1.ringLevel ctx
    | [] => s1)

/-- WAIT_LIMIT_EXPIRE (R244, R276). -/
def execWaitLimitExpire (now ctx : Nat) (s : State) : Host.Outcome State Fault Refusal :=
  .next (let s1 := s.advance now
    let lim := s1.waitLimit ctx
    if lim = 0 then s1
    else
      let x := s1.ctx ctx
      match x.cmds.find? (fun k => s1.doneWait ctx k && decide (lim ≤ k.waited)) with
      | some k => s1.finish ctx k.cseq .timeout (mkDetail 0xF3 0) 0
      | none =>
        match x.oldest with
        | some k =>
          let unsat : Nat → Bool := fun i => !s1.waitSat ctx (pWait k.packet i)
          if k.waited < lim ∨ !(unsat 0 || unsat 1 || s1.unitBlocked ctx k) then s1
          else
            let hi := if unsat 0 then 0xF0 else if unsat 1 then 0xF1 else 0xFF
            (s1.finish ctx k.cseq .timeout (mkDetail hi 0) 0).touchOldest ctx
        | none => s1)

end Sys2Proof.Machine
end

