-- ==== Sys2Proof/Machine/Control.lean ====
section
/-!
DEFINITION. The bezel, and the synchronisation and recovery commands (R283 to R285, R299, R300, R566 to R568).
-/

namespace Sys2Proof.Machine

/-! ### The body of a started command -/

/-- The command of a context with a CSEQ, where it has started, its body has not run, and its opcode is the given one. -/
def State.body (s : State) (ctx cseq : Nat) (o : Opc) : Option Cmd :=
  match (s.ctx ctx).cmd cseq with
  | some c => if c.stage = .started ∧ !c.issued ∧ c.opc = some o then some c else none
  | none => none

/-- Runs a command's body where it stands ready for it; otherwise nothing changes (log entry 5). -/
def State.withBody (s : State) (ctx cseq : Nat) (o : Opc) (f : Cmd → State) : State :=
  match s.body ctx cseq o with
  | some c => f c
  | none => s

/-- Marks a command's body as handed on, with a count of parts still out. -/
def State.issue (s : State) (ctx cseq left : Nat) : State :=
  s.modCmd ctx cseq (fun c => { c with issued := true, left := left })

/-! ### The bezel (R566 to R568, R588) -/

/-- A fence order: it completes, or is recorded while a reset of the partition holds the bezel. -/
def State.fenceBezel (s : State) (p by_ : Nat) : State :=
  if (s.bezel p).resetHold then s.setBezel p { s.bezel p with fencePend := true }
  else
    let s1 := (s.setFld (phBezelA p) phBezelState 2).setFld (phBezelA p) phBezelBy by_
    s1.level (32 * (73 + p) + 7) true

/-- An open order: it opens the bezel, or withdraws a fence order recorded during a reset. A partition out of service stays
fenced (R570). -/
def State.openBezel (s : State) (p : Nat) : State :=
  if (s.bezel p).resetHold then s.setBezel p { s.bezel p with fencePend := false }
  else if s.outOfService p then s
  else (s.setFld (phBezelA p) phBezelState 0).level (32 * (73 + p) + 7) false

/-- A request refused while the bezel is fenced (R588). -/
def State.bezelRefuse (s : State) (p : Nat) : State := s.addSat (phBezelA p) phBezelRefused 1

/-- Whether a partition's bezel lets requests in. -/
def State.bezelOpen (s : State) (p : Nat) : Bool := decide (s.fld (phBezelA p) phBezelState = 0)

/-! ### Synchronisation (R283 to R285) -/

/-- WAIT (R283). -/
def execWait (ctx cseq : Nat) (s : State) : Host.Outcome State Fault Refusal :=
  .next (s.withBody ctx cseq .wait (fun c => s.finish ctx c.cseq .ok noDetail 0))

/-- SIGNAL (R284): one atomic update at the start; AUX is the prior VALUE. -/
def execSignal (ctx cseq : Nat) (s : State) : Host.Outcome State Fault Refusal :=
  .next (s.withBody ctx cseq .signal (fun c =>
    let i := clIdx (par c.packet 4 4)
    let v := par c.packet 8 8
    let prior := s.ctxClasp ctx i
    let s1 := if par c.packet 0 1 = 0 then s.addClaspFor ctx c.cseq i v else s.setClaspFor ctx c.cseq i v
    s1.finish ctx c.cseq .ok noDetail prior))

/-- SIGNAL_REMOTE (R285): the bead leaves at retirement. -/
def execSignalRemote (ctx cseq : Nat) (s : State) : Host.Outcome State Fault Refusal :=
  .next (s.withBody ctx cseq .signalRemote (fun c => s.finish ctx c.cseq .ok noDetail 0))

/-! ### Recovery commands (R299) -/

/-- Fences a context: its unretired commands end with ABORTED_FENCE and STATE.FENCED is set. The result counts them. -/
def State.fenceCtx (s : State) (c : Nat) (by_ : Option (Nat × Nat)) : State × Nat :=
  let r := s.abortCmds c .abortedFence (fun _ => true) by_
  (r.1.modCtx c (fun x => { x with fenced := true }), r.2)

/-- Fences every context of a partition. -/
def State.fencePart (s : State) (p : Nat) (by_ : Option (Nat × Nat)) : State × Nat :=
  (List.range 64).foldl (fun (r : State × Nat) i =>
    let q := r.1.fenceCtx (64 * p + i) by_
    (q.1, r.2 + q.2)) (s, 0)

/-- Ends a FENCE whose aborted commands are to retire first. -/
def State.fenceWait (s : State) (ctx cseq n : Nat) : State :=
  if n = 0 then s.finish ctx cseq .ok noDetail 0
  else s.modCmd ctx cseq (fun k => { k with issued := true, left := n, moved := n })

/-- FENCE (R299). -/
def execFence (ctx cseq : Nat) (s : State) : Host.Outcome State Fault Refusal :=
  .next (s.withBody ctx cseq .fence (fun c =>
    let kind := par c.packet 0 1
    let target := par c.packet 2 2
    if kind = 0 ∨ (kind = 1 ∧ target = ctx) then
      let old := ((s.ctx ctx).cmds.takeWhile (fun k => decide (k.cseq ≠ cseq))).map (·.cseq)
      let r := s.abortCmds ctx .abortedFence (fun k => old.contains k.cseq) none
      let s1 := if kind = 1 then r.1.modCtx ctx (fun x => { x with fenced := true }) else r.1
      s1.finish ctx cseq .ok noDetail r.2
    else if kind = 1 then
      let r := s.fenceCtx target (some (ctx, cseq))
      r.1.fenceWait ctx cseq r.2
    else
      let r := (s.fenceBezel target 2).fencePart target (some (ctx, cseq))
      r.1.fenceWait ctx cseq r.2))

/-- RESUME (R299). -/
def execResume (ctx cseq : Nat) (s : State) : Host.Outcome State Fault Refusal :=
  .next (s.withBody ctx cseq .resume (fun c =>
    let kind := par c.packet 0 1
    let target := par c.packet 2 2
    let clear : State → Nat → State := fun s c => s.modCtx c (fun x => { x with fenced := false })
    let s1 := if kind = 0 then clear s ctx
      else if kind = 1 then clear s target
      else ((List.range 64).map (· + 64 * target)).foldl clear (s.openBezel target)
    s1.finish ctx cseq .ok noDetail 0))

/-- A context initialised by CTX_RESET MODE 1 (R212, R299, R597): its configuration, seeds and counter bank stay. -/
def State.initCtx (s : State) (c : Nat) : State :=
  let x := s.ctx c
  let s1 := (s.abandonTxns c).setCtx c { Ctx.init with
    session := x.session, progress := s.gtime, cntOn := x.cntOn, cntSel := x.cntSel, cntVal := x.cntVal, cntNow := x.cntNow,
    cameos := x.cameos.filter (fun k => decide (k.stage ≠ .armed)), nextCameo := x.nextCameo }
  s1.modCtx c (fun x => { x with latch := s1.csbOf c })

/-- CTX_RESET (R237, R299, R480). -/
def execCtxReset (ctx cseq : Nat) (s : State) : Host.Outcome State Fault Refusal :=
  .next (s.withBody ctx cseq .ctxReset (fun c =>
    let t := par c.packet 2 2
    if par c.packet 0 1 = 0 then (s.discard [t] .abortedFence noDetail true).finish ctx cseq .ok noDetail 0
    else if (s.ctx t).session ≠ 0 then s.fail ctx cseq .rejectedPerm
    else if s.hasCmds t then s.fail ctx cseq .busy
    else (s.initCtx t).finish ctx cseq .ok noDetail 0))

/-- STATUS_QUERY (R300). -/
def execStatusQuery (ctx cseq : Nat) (s : State) : Host.Outcome State Fault Refusal :=
  .next (s.withBody ctx cseq .statusQuery (fun c =>
    let t := par c.packet 2 2
    if t = 0xFFFF ∨ t = ctx then s.finish ctx cseq .ok noDetail c.moved
    else
      let w := s.storeBy (some (ctx, cseq)) (par c.packet 8 8) (s.csbOf t)
      if w.bad then w.st.finish ctx cseq .droppedBadData (mkDetail 0 5) 0 else w.st.finish ctx cseq .ok noDetail 0))

end Sys2Proof.Machine
end

