-- ==== Sys2Proof/Machine/DataMove.lean ====
section
/-!
DEFINITION. The data-movement, conversion and KV-page commands (R258 to R262, R270, R278, R279).
-/

namespace Sys2Proof.Machine

/-! ### MOVE, FILL, GATHER, SCATTER -/

/-- The parameter block of a packet. -/
def blockOf (pk : List Byte) : List Byte := pk.drop 64

/-- The outermost dimension whose count exceeds 1: its count and the rows of one index (R260). -/
def outerDim (o : Opc) (pk : List Byte) : Nat × Nat :=
  let p := par pk
  match o with
  | .gather | .scatter => (p 28 4, 1)
  | _ =>
    if 1 < p 36 4 then (p 36 4, p 28 4 * p 32 4)
    else if 1 < p 32 4 then (p 32 4, p 28 4)
    else (p 28 4, 1)

/-- The row ranges of a transfer's movers: contiguous shares of at most ceil(count / movers) indices (R260). -/
def moveParts (o : Opc) (pk : List Byte) (movers : Nat) : List (Nat × Nat) :=
  let duo := outerDim o pk
  let n := duo.1
  let inner := duo.2
  let per := ceilDiv n (max movers 1)
  ((List.range movers).map (fun j => (min n (j * per) * inner, min n ((j + 1) * per) * inner))).filter (fun r => decide (r.1 < r.2))

/-- Where a transfer stands. -/
structure MoveRun where
  /-- State. -/
  st : State
  /-- Bytes delivered, or sent. -/
  bytes : Nat
  /-- The index of the region whose data stopped the transfer. -/
  bad : Option Nat
  /-- A corrected error occurred. -/
  corr : Bool
  /-- The bytes sent, for a remote transfer. -/
  out : List Byte
  deriving DecidableEq, Repr

/-- Moves the stream bytes [pos, stop) of a local transfer chunk by chunk (R132, R134). -/
def moveLocal (x : Xfer) (ctx cseq stop : Nat) : Nat → Nat → MoveRun → MoveRun
  | 0, _, r => r
  | fuel + 1, pos, r =>
    if stop ≤ pos ∨ r.bad.isSome then r
    else
      let e := x.chunkEnd pos stop false
      let d := r.st.chunkRead x ctx pos e
      match d.data with
      | none => { r with st := d.st, bad := some 0, corr := r.corr || d.corr }
      | some bs =>
        let w := d.st.chunkWrite x (some (ctx, cseq)) ctx pos e bs
        if w.bad then { r with st := w.st, bad := some (w.region.getD 1), corr := r.corr || d.corr }
        else moveLocal x ctx cseq stop fuel e
          { r with st := w.st, bytes := r.bytes + (e - pos), corr := r.corr || d.corr }

/-- Sends the stream bytes [pos, stop) of a remote transfer on one mover's stream; a replay sends nothing (R132, R389). -/
def moveRemote (x : Xfer) (ctx t j remote stop : Nat) (quiet : Bool) : Nat → Nat → MoveRun → MoveRun
  | 0, _, r => r
  | fuel + 1, pos, r =>
    if stop ≤ pos ∨ r.bad.isSome then r
    else
      let e := x.chunkEnd pos stop true
      let d := r.st.chunkRead x ctx pos e
      match d.data with
      | none => { r with st := d.st, bad := some 0, corr := r.corr || d.corr }
      | some bs =>
        let a := (x.dstOf (pos / max x.dlen 1) + ((pos % max x.dlen 1 : Nat) : Int)).toNat
        let s1 := if quiet then d.st else d.st.sendChunk ctx t j remote a (decide (e = stop)) bs
        moveRemote x ctx t j remote stop quiet fuel e
          { r with st := s1, bytes := r.bytes + (e - pos), corr := r.corr || d.corr, out := r.out ++ bs }

/-- Marks a command whose parts met a corrected error (R247). -/
def State.markCorr (s : State) (ctx cseq : Nat) (corr : Bool) : State :=
  if corr then s.modCmd ctx cseq (fun k => { k with corrected := true }) else s

/-- The state once a decoder-issued remote transfer has nothing outstanding: its status (R133, R134, R261, R262). A stop at a
bad source read decides before the acknowledgements (log entry 21). -/
def State.remoteDone (s : State) (ctx : Nat) (c : Cmd) : State :=
  if c.fault = 5 then s.finish ctx c.cseq .droppedBadData (mkDetail 0 5) c.moved
  else if c.fault = 6 then s.finish ctx c.cseq .droppedChunk (mkDetail 0xFF 6) c.moved
  else if c.fault = 3 then s.finish ctx c.cseq .droppedBadData (mkDetail 0xFF 5) c.moved
  else s.finish ctx c.cseq .ok noDetail c.moved

/-- A mover ends a descriptor: a fault record, or one more in DONE with its completion event (R106, R125, R142; the TAG of a
decoder's descriptor is log entry 22). -/
def State.mvEnd (s : State) (t j code tag : Nat) (evt : Bool) : State :=
  if code ≠ 0 then s.mvFault t j code tag
  else
    let s1 := (s.addWrap (mvStatA t j) mvStatDone 1).progress (mvUnit t j)
    if evt then s1.raise (32 * (24 + t) + 12 + j) else s1

/-- A decoder-issued remote transfer on one mover ends once nothing of it is outstanding (R133, R134). -/
def State.decMvEnd (s : State) (ctx : Nat) (c : Cmd) (t j : Nat) : State :=
  let x := s.mover t j
  if x.owner ≠ (ctx, c.cseq + 1) ∨ !x.sent.isEmpty then s
  else
    (s.setMover t j { x with owner := (0, 0), result := 0 }).mvEnd t j (if x.result = 3 then 5 else x.result) (pTag c.packet)
      ((par c.packet 1 1).testBit 3)

/-- The movers among the units that a command holds, as (tile, mover). -/
def cmdMovers (units : List Nat) : List (Nat × Nat) :=
  (units.filter (fun u => decide (u < 1024) && decide (8 ≤ u % 32))).map (fun u => (u / 32, u % 32 - 8))

/-- The body of MOVE, FILL, GATHER and SCATTER. -/
def State.moveBody (s : State) (o : Opc) (ctx : Nat) (c : Cmd) : State :=
  let p := par c.packet
  let listed := decide (o = .gather) || decide (o = .scatter)
  let li := s.readMem 0 (p 88 8) (if listed then 8 * p 28 4 else 0)
  match li.data with
  | none => li.st.finish ctx c.cseq .droppedBadData (mkDetail 2 5) 0
  | some lb =>
    let offs := idxList lb
    let x := xferOf (blockOf c.packet) offs c.seed
    let row := if o = .gather then x.slen else x.dlen
    let remote := (p 1 1).testBit 2
    let s1 := li.st
    -- A remote SCATTER declares no region 1; its span bounds the offsets all the same.
    if listed && offs.any (fun f => decide (f < 0) || decide (((p 4 4 * 4096 : Nat) : Int) < f + ((row : Nat) : Int))) then
      s1.finish ctx c.cseq .rejectedPerm (mkDetail 2 4) 0
    else
      let mvs := cmdMovers c.units
      let parts := (moveParts o c.packet mvs.length).zip mvs
      if remote then
        let quiet := (s1.replayOf ctx).isSome
        if !quiet && !s1.remoteOk ctx (p 96 4) then s1.finish ctx c.cseq .rejectedPerm (mkDetail 0xFF 4) 0
        else
          let r := parts.foldl (fun (r : MoveRun) q =>
            if r.bad.isSome then r
            else
              let tj := q.2
              let own : State → Nat → State := fun s res =>
                s.setMover tj.1 tj.2 { s.mover tj.1 tj.2 with owner := (ctx, c.cseq + 1), result := res }
              let r1 := moveRemote x ctx tj.1 tj.2 (p 96 4) (q.1.2 * x.dlen) quiet (q.1.2 * x.dlen) (q.1.1 * x.dlen)
                { r with st := own r.st 0 }
              { r1 with st := (if r1.bad.isSome then own r1.st 5 else r1.st).decMvEnd ctx c tj.1 tj.2 })
            ⟨s1, 0, none, li.corr, []⟩
          let out := sumNat (mvs.map (fun tj => (r.st.mover tj.1 tj.2).sent.length))
          let s2 := (r.st.markCorr ctx c.cseq r.corr).modCmd ctx c.cseq (fun k => { k with
            fault := if r.bad.isSome then 5 else 0, issued := true, left := out, moved := if quiet then r.bytes else 0,
            outDigest := if s1.records ctx 0 ∨ quiet then some (sha256 r.out) else none })
          match (s2.ctx ctx).cmd c.cseq with
          | some k => if out = 0 then s2.remoteDone ctx k else s2
          | none => s2
      else
        let r := parts.foldl (fun (r : MoveRun) q =>
          if r.bad.isSome then r
          else
            let r1 := moveLocal x ctx c.cseq (q.1.2 * x.dlen) (q.1.2 * x.dlen) (q.1.1 * x.dlen) r
            { r1 with st := r1.st.mvEnd q.2.1 q.2.2 (if r1.bad.isSome then 5 else 0) (pTag c.packet) ((p 1 1).testBit 3) })
          ⟨s1, 0, none, li.corr, []⟩
        let s2 := r.st.markCorr ctx c.cseq r.corr
        match r.bad with
        | some i => s2.finish ctx c.cseq .droppedBadData (mkDetail i 5) r.bytes
        | none => s2.finish ctx c.cseq .ok noDetail r.bytes

/-- MOVE (R258 to R262). -/
def execMove (ctx cseq : Nat) (s : State) : Host.Outcome State Fault Refusal :=
  .next (s.withBody ctx cseq .move (fun c => s.moveBody .move ctx c))

/-- FILL (R258 to R262). -/
def execFill (ctx cseq : Nat) (s : State) : Host.Outcome State Fault Refusal :=
  .next (s.withBody ctx cseq .fill (fun c => s.moveBody .fill ctx c))

/-- GATHER (R258 to R262). -/
def execGather (ctx cseq : Nat) (s : State) : Host.Outcome State Fault Refusal :=
  .next (s.withBody ctx cseq .gather (fun c => s.moveBody .gather ctx c))

/-- SCATTER (R258 to R262). -/
def execScatter (ctx cseq : Nat) (s : State) : Host.Outcome State Fault Refusal :=
  .next (s.withBody ctx cseq .scatter (fun c => s.moveBody .scatter ctx c))

/-! ### CONVERT (R270) -/

/-- The values of one source row. -/
def rowValues (f : Fmt) (n : Nat) (row sc : List Byte) : List Exact :=
  (List.range n).map (fun i =>
    if f = .exact then (Accu.ofBytes ((row.drop (80 * i)).take 80)).result else (elemAt f row sc i).result)

/-- Whether some hart of a partition that no RUN holds can run the conversion routine (R270). -/
def State.freeHart (s : State) (p : Nat) : Bool :=
  (partHarts p).any (fun th => s.hartPresent th.1 th.2 && s.domOn (3 * th.1 + 2) && (s.hart th.1 th.2).job.isNone)

/-- The body of CONVERT. -/
def State.convertBody (s : State) (ctx : Nat) (c : Cmd) : State :=
  let p := par c.packet
  match mvFmts (p 0 1) with
  | none => s
  | some (fs, fd) =>
    let rows := p 4 4
    let cols := p 8 4
    let o : OutSpec := ⟨fd, (RMode.ofCode (bits (p 1 1) 0 3)).getD .rne, (p 1 1).testBit 3, c.seed, p 12 4⟩
    let own := some (ctx, c.cseq)
    let rs := s.readRows (p 16 8) rows (p 48 4) (rowBytes fs cols)
    let sc := rs.st.readRows (p 24 8) (if fs.isMx then rows else 0) (p 56 4) (scaleBytes fs cols)
    let s1 := sc.st.markCorr ctx c.cseq (rs.corr || sc.corr)
    match rs.rows, sc.rows with
    | none, _ => s1.finish ctx c.cseq .droppedBadData (mkDetail 0 5) 0
    | _, none => s1.finish ctx c.cseq .droppedBadData (mkDetail 1 5) 0
    | some rr, some ss =>
      let outs := (List.range rows).map (fun i =>
        outRow o (p 64 4 + i) (p 68 4) (rowValues fs cols (rr.getD i []) (ss.getD i [])))
      let w1 := s1.writeRows own (p 32 8) (p 52 4) (outs.map (·.1))
      if w1.bad then w1.st.finish ctx c.cseq .droppedBadData (mkDetail 2 5) 0
      else
        let w2 := if fd.isMx then w1.st.writeRows own (p 40 8) (p 60 4) (outs.map (·.2)) else w1
        if w2.bad then w2.st.finish ctx c.cseq .droppedBadData (mkDetail 3 5) 0
        else w2.st.finish ctx c.cseq .ok noDetail (rows * cols)

/-- CONVERT (R270): it runs on a pip that no RUN holds, and waits for one. -/
def execConvert (ctx cseq : Nat) (s : State) : Host.Outcome State Fault Refusal :=
  .next (s.withBody ctx cseq .convert (fun c => if s.freeHart (partOf ctx) then s.convertBody ctx c else s))

/-! ### KV pages (R184, R185, R278, R279) -/

/-- Offset of a token's element row within a half page (R184). -/
def kvElemOff (f : Fmt) (d tok : Nat) : Nat := tok * (f.width * d / 8)
/-- Offset of a token's scale row within a half page. -/
def kvScaleOff (f : Fmt) (d tok : Nat) : Nat := pageTokens f d * (f.width * d / 8) + tok * (d / 32)

/-- Writes the converted rows of one half of a page. -/
def State.kvHalf (s : State) (owner : Nat × Nat) (o : OutSpec) (fs : Fmt) (d tok0 page col0 : Nat) (rows : List (List Byte)) : Wrote :=
  (rows.zip (List.range rows.length)).foldl (fun (r : Wrote) q =>
    if r.bad then r
    else
      let out := outRow o (tok0 + q.2) col0 (rowValues fs d q.1 [])
      let w1 := r.st.storeBy (some owner) (page + kvElemOff o.fmt d (tok0 + q.2)) out.1
      if w1.bad then ⟨w1.st, true, w1.region⟩
      else if o.fmt.isMx then
        let w2 := w1.st.storeBy (some owner) (page + kvScaleOff o.fmt d (tok0 + q.2)) out.2
        ⟨w2.st, w2.bad, w2.region⟩
      else ⟨w1.st, false, none⟩) ⟨s, false, none⟩

/-- The body of KV_APPEND. -/
def State.kvAppendBody (s : State) (ctx : Nat) (c : Cmd) : State :=
  let p := par c.packet
  let d := dselDim (p 2 1)
  let fd := (Fmt.ofCode (bits (p 1 1) 0 4)).getD .bf16
  let fs := (Fmt.ofCode (bits (p 1 1) 4 4)).getD .bf16
  let o : OutSpec := ⟨fd, (RMode.ofCode (bits (p 3 1) 0 3)).getD .rne, (p 3 1).testBit 3, c.seed, p 36 4⟩
  let k := s.readRows (p 16 8) (p 6 2) (p 32 4) (rowBytes fs d)
  let v := k.st.readRows (p 24 8) (p 6 2) (p 32 4) (rowBytes fs d)
  let s1 := v.st.markCorr ctx c.cseq (k.corr || v.corr)
  match k.rows, v.rows with
  | none, _ => s1.finish ctx c.cseq .droppedBadData (mkDetail 0 5) 0
  | _, none => s1.finish ctx c.cseq .droppedBadData (mkDetail 1 5) 0
  | some kr, some vr =>
    let w1 := s1.kvHalf (ctx, c.cseq) o fs d (p 4 2) (p 8 8) 0 kr
    let w2 := if w1.bad then w1 else w1.st.kvHalf (ctx, c.cseq) o fs d (p 4 2) (p 8 8 + 32768) d vr
    if w2.bad then w2.st.finish ctx c.cseq .droppedBadData (mkDetail 2 5) 0
    else w2.st.finish ctx c.cseq .ok noDetail (p 4 2 + p 6 2)

/-- KV_APPEND (R278). -/
def execKvAppend (ctx cseq : Nat) (s : State) : Host.Outcome State Fault Refusal :=
  .next (s.withBody ctx cseq .kvAppend (fun c => s.kvAppendBody ctx c))

/-- Copies the pages of a KV_EVICT one after another. -/
def State.evictPairs (s : State) (ctx cseq : Nat) (zero : Bool) (ps : List (Nat × Nat)) : MoveRun :=
  ps.foldl (fun (r : MoveRun) q =>
    if r.bad.isSome then r
    else
      let x := r.st.readMem 0 q.1 65536
      match x.data with
      | none => { r with st := x.st, bad := some 1, corr := r.corr || x.corr }
      | some bs =>
        let w := x.st.storeBy (some (ctx, cseq)) q.2 bs
        if w.bad then { r with st := w.st, bad := some 2, corr := r.corr || x.corr }
        else if zero then
          let z := w.st.storeBy (some (ctx, cseq)) q.1 (zeros 65536)
          if z.bad then { r with st := z.st, bad := some 1, corr := r.corr || x.corr }
          else { r with st := z.st, bytes := r.bytes + 1, corr := r.corr || x.corr }
        else { r with st := w.st, bytes := r.bytes + 1, corr := r.corr || x.corr }) ⟨s, 0, none, false, []⟩

/-- KV_EVICT (R279). -/
def execKvEvict (ctx cseq : Nat) (s : State) : Host.Outcome State Fault Refusal :=
  .next (s.withBody ctx cseq .kvEvict (fun c =>
    let r := s.evictPairs ctx cseq ((par c.packet 1 1).testBit 0) (kvPairs (c.pairs.getD []))
    let s1 := r.st.markCorr ctx cseq r.corr
    match r.bad with
    | some i => s1.finish ctx cseq .droppedBadData (mkDetail i 5) 0
    | none => s1.finish ctx cseq .ok noDetail r.bytes))

end Sys2Proof.Machine
end

