-- ==== Sys2Proof/Machine/Kernel.lean ====
section
/-!
DEFINITION. Kernels: RUN, RUN_WAIT, the end of a hart, its unhandled traps, and the cameo name table (R271 to R276, R597).
-/

namespace Sys2Proof.Machine

/-- The harts that a RUN names: logical harts 0 to HARTS − 1 of each named tile, lowest first (R273). -/
def runHarts (p : Nat) (pk : List Byte) : List (Nat × Nat) :=
  ((List.range 2).filter (fun i => (par pk 0 1).testBit i)).flatMap (fun i =>
    (List.range (par pk 1 1)).map (fun h => (2 * p + i, h)))

/-- The ranges mapped for a kernel at virtual addresses equal to their physical addresses: image, regions and both tile stores
(R273). The permissions are those of the issuing context under R37, which reads and writes all it reaches. -/
def State.runMaps (s : State) (ctx : Nat) (c : Cmd) : List (Nat × Nat × Nat × Bool) :=
  (s.cmdRegions ctx c).map (fun r => (r.addr.toNat, r.addr.toNat, r.size, true)) ++
  (List.range 2).map (fun i => (tileBase (2 * partOf ctx + i), tileBase (2 * partOf ctx + i), 0xA000000, true))

/-- The start of a kernel (R273). Where the supervisor places the copy of ARGS is open (log entry 7). -/
def State.runBody (s : State) (ctx : Nat) (c : Cmd) : State :=
  let p := partOf ctx
  let q := par c.packet
  let s1 := (c.units.filter (fun u => decide (u < 1024))).foldl (fun s u =>
    if u % 32 < 8 then s.ownMe (u / 32) (u % 32) true else s.ownMv (u / 32) (u % 32 - 8) true) s
  let hs := runHarts p c.packet
  let maps := s1.runMaps ctx c
  let s2 := hs.foldl (fun s th =>
    let duo := s.drawNat
    let a1 := duo.1
    let s' := duo.2
    let x := s'.hart th.1 th.2
    let h : Hart := { x with
      x := [], running := true, trap := 0, wait := none, exitCode := 0, job := some (ctx, c.cseq), maps := maps,
      entry := q 8 8 + q 20 4, args := (c.packet.drop 128).take 64, badLoad := false }
    let h := ((h.put 10 (32 * (th.1 - 2 * p) + th.2)).put 11 a1).put 12 hs.length
    ((s'.setHart th.1 th.2 h).setFld (pipCtlA th.1 th.2) pipCtlCtx ctx).progress (hartUnit th.1 th.2)) s1
  s2.issue ctx c.cseq hs.length

/-- RUN (R271 to R275). -/
def execRun (ctx cseq : Nat) (s : State) : Host.Outcome State Fault Refusal :=
  .next (s.withBody ctx cseq .run (fun c => s.runBody ctx c))

/-- RUN_WAIT (R276). -/
def execRunWait (ctx cseq : Nat) (s : State) : Host.Outcome State Fault Refusal :=
  .next (s.withBody ctx cseq .runWait (fun c => s.runBody ctx c))

/-- A hart of a kernel has ended; the last one ends the kernel (R274, R276). -/
def State.hartEnded (s : State) (ctx cseq : Nat) : State :=
  let s1 := s.modCmd ctx cseq (fun k => { k with left := k.left - 1 })
  match (s1.ctx ctx).cmd cseq with
  | none => s1
  | some c =>
    if c.left ≠ 0 ∨ c.stage ≠ .started then s1
    else
      let hs := s1.jobHarts ctx cseq
      let code := (((hs.map (fun th => (s1.hart th.1 th.2).exitCode)).find? (fun n => decide (n ≠ 0))).getD 0) % two32
      let aux := code + (runHarts (partOf ctx) c.packet).length * two32
      let s2 := hs.foldl (fun s th => s.setHart th.1 th.2 { s.hart th.1 th.2 with job := none }) s1
      if c.opc = some .runWait then
        (s2.modCmd ctx cseq (fun k => { k with moved := aux })).doneWake (partOf ctx) (par c.packet 24 4)
      else s2.finish ctx cseq .ok noDetail aux

/-- PIP_EXIT (R274). -/
def execPipExit (tile hart code : Nat) (s : State) : Host.Outcome State Fault Refusal :=
  .next (
    let h := s.hart tile hart
    match h.job with
    | none => s
    | some (ctx, cseq) =>
      if !h.running ∨ 24 ≤ tile ∨ 32 ≤ hart then s
      else
        (s.setHart tile hart { h with running := false, wait := none, exitCode := code }).hartEnded ctx cseq)

/-- The unit fault code of an unhandled trap (R275): bad data, an access fault or an illegal instruction. The spec names no code
for another cause (log entry 7). -/
def trapCode (cause : Nat) (bad : Bool) : Option Nat :=
  if cause = 5 ∧ bad then some 5
  else if cause = 1 ∨ cause = 5 ∨ cause = 7 then some 4
  else if cause = 2 then some 1
  else none

/-- PIP_TRAP_UNHANDLED (R275, R493): `cause` is the RISC-V exception cause of the trap. -/
def execPipTrapUnhandled (tile hart cause : Nat) (s : State) : Host.Outcome State Fault Refusal :=
  .next (
    if 24 ≤ tile ∨ 32 ≤ hart then s
    else
      let h := s.hart tile hart
      let s1 := (s.setHart tile hart { h with trap := cause + 1, wait := none }).raise (32 * (24 + tile) + 30)
      match h.job with
      | none => s1
      | some (ctx, cseq) =>
        match (s1.ctx ctx).cmd cseq with
        | none => s1
        | some c =>
          let s3 := s1.stopRun ctx c
          match trapCode cause h.badLoad with
          | some k => s3.finish ctx cseq .droppedBadData (mkDetail 0xFF k) 0
          | none =>
            let duo := s3.drawNat
            let v := duo.1
            let s4 := duo.2
            s4.finish ctx cseq .droppedBadData (mkDetail 0xFF (v % 256)) 0)

/-- CAMEO_NAME (R597): the result is in a0, as a RISC-V call returns it (log entry 23). -/
def execCameoName (tile hart n addr len fmt : Nat) (s : State) : Host.Outcome State Fault Refusal :=
  .next (
    let c := s.fld (pipCtlA tile hart) pipCtlCtx
    let len := len % two32
    if 24 ≤ tile ∨ 32 ≤ hart ∨ 800 ≤ c then s
    else
      let ret : State → Nat → State := fun s v => s.setHart tile hart ((s.hart tile hart).put 10 v)
      let x := s.ctx c
      if 1023 < n then ret s 1
      else if len = 0 then ret (s.setCtx c { x with names := kvSet none x.names n none }) 0
      else if !s.mayReach c (addr : Nat) len then ret s 2
      else if (Fmt.ofCode fmt).isNone then ret s 3
      else ret (s.setCtx c { x with names := kvSet none x.names n (some ⟨addr, len, fmt⟩) }) 0)

end Sys2Proof.Machine
end

