-- ==== Sys2Proof/Machine/Matrix.lean ====
section
/-!
DEFINITION. MATMUL and MATMUL_ACC: the division into tiles, the staging slots, the chains and the copy of the outputs (R263 to
R269).
-/

namespace Sys2Proof.Machine

/-- K_CHUNK of a pairing (R266). -/
def kChunk (fa fb : Fmt) : Nat :=
  if fa = .e2m1 ∧ fb = .e2m1 then 4096
  else if fa.isMx ∨ fa = .int8 then 2048
  else if fa = .fp32 then 512 else 1024

/-- One plane of an operand as a tile uses it: its region, where its rows lie, their stride and bytes. -/
structure Plane where
  /-- Region index. -/
  idx : Nat
  /-- First row. -/
  addr : Nat
  /-- Bytes between rows. -/
  stride : Nat
  /-- Rows. -/
  rows : Nat
  /-- Bytes of a row. -/
  len : Nat
  deriving DecidableEq, Repr

/-- Where a matrix command stands. -/
structure MmRun where
  /-- State. -/
  st : State
  /-- The region whose data stopped the command. -/
  bad : Option Nat
  /-- A corrected error occurred. -/
  corr : Bool
  deriving DecidableEq, Repr

/-- Whether an address lies in the tile store of tile `t`. -/
def inTileOf (t a : Nat) : Bool := decide (regionOf a = .tile t)

/-- A copy of rows by a decoder mover (R267): which of the claimed movers makes it is open (log entry 7), so its fault record
goes to a free one of them. -/
def MmRun.copy (r : MmRun) (ctx : Nat) (c : Cmd) (q : Plane) (dst dstStride dstIdx : Nat) : MmRun :=
  if r.bad.isSome then r
  else
    let fault : State → State := fun s =>
      let mvs := cmdMovers c.units
      let duo := s.drawNat
      let v := duo.1
      let s1 := duo.2
      let tj := mvs.getD (v % max 1 mvs.length) (0, 0)
      s1.mvFault tj.1 tj.2 5 (pTag c.packet)
    (List.range q.rows).foldl (fun (r : MmRun) i =>
      if r.bad.isSome then r
      else
        let a := q.addr + i * q.stride
        let x := r.st.readMem 0 a q.len
        match x.data with
        | none => ⟨fault x.st, some q.idx, r.corr || x.corr⟩
        | some bs =>
          let b := dst + i * dstStride
          let w := (x.st.countCtx ctx (endCode a) q.len).storeBy (some (ctx, c.cseq)) b bs
          if w.bad then ⟨fault w.st, some (w.region.getD dstIdx), r.corr || x.corr⟩
          else ⟨w.st.countCtx ctx (endCode b) q.len, none, r.corr || x.corr⟩) r

/-- The descriptor of one K chunk (R97, R104, R265, R266). -/
def mmDesc (pk : List Byte) (flags m n k a sa b sb cAddr cScale lda ldb ldc sla slb slc row col seed : Nat) : List Byte :=
  let p := par pk
  natLe 1 1 ++ natLe 1 (p 0 1) ++ natLe 1 (p 1 1) ++ natLe 1 flags ++ natLe 2 m ++ natLe 2 n ++ natLe 4 k ++ natLe 4 (p 100 4) ++
    natLe 8 a ++ natLe 8 sa ++ natLe 8 b ++ natLe 8 sb ++ natLe 8 cAddr ++ natLe 8 cScale ++ natLe 4 lda ++ natLe 4 ldb ++
    natLe 4 ldc ++ natLe 4 sla ++ natLe 4 slb ++ natLe 4 slc ++ natLe 4 (p 104 4 + row) ++ natLe 4 (p 108 4 + col) ++
    natLe 8 seed ++ zeros 8 ++ natLe 8 (pTag pk) ++ zeros 8

/-- Whether a plane that an ME reads in place holds a marked word. -/
def State.planeMarked (s : State) (q : Plane) : Bool :=
  (List.range q.rows).any (fun i =>
    !(s.tsMarked (q.addr + i * q.stride) q.len).isEmpty)

/-- What one tile's chain carries from descriptor to descriptor. -/
structure ChainRun where
  /-- Progress. -/
  run : MmRun
  /-- Accumulators. -/
  acc : List Accu
  deriving DecidableEq, Repr

/-- The planes of one output tile, whole in K: A, A scale, B, B scale (R264 to R267). -/
def mmPlanes (pk : List Byte) (fa fb : Fmt) (row col m n k0 kk : Nat) : List Plane :=
  let p := par pk
  [⟨0, p 16 8 + row * p 64 8 + k0 * fa.width / 8, p 64 8, m, rowBytes fa kk⟩,
   ⟨1, p 24 8 + row * p 88 4 + k0 / 32, p 88 4, if fa.isMx then m else 0, scaleBytes fa kk⟩,
   ⟨2, p 32 8 + col * p 72 8 + k0 * fb.width / 8, p 72 8, n, rowBytes fb kk⟩,
   ⟨3, p 40 8 + col * p 92 4 + k0 / 32, p 92 4, if fb.isMx then n else 0, scaleBytes fb kk⟩]

/-- Slot offsets of the staging buffers of the four planes, for buffer `b` (R267). -/
def mmSlots (b : Nat) : List Nat := [0x40000 * b, 0x100000 + 0x4000 * b, 0x80000 + 0x40000 * b, 0x108000 + 0x4000 * b]

/-- One descriptor of a tile's chain: staging, streaming, and the write-out of the last one (R266, R267). -/
def State.mmStep (ctx : Nat) (c : Cmd) (accIn : Bool) (t m0 row col m n slot seq d total : Nat) (r : ChainRun) : ChainRun :=
  let p := par c.packet
  let duo := (mvFmts (p 0 1)).getD (.bf16, .bf16)
  let fa := duo.1
  let fb := duo.2
  let fc := (Fmt.ofCode (bits (p 1 1) 0 4)).getD .bf16
  let kc := kChunk fa fb
  let k0 := d * kc
  let kk := min kc (p 12 4 - k0)
  if r.run.bad.isSome then r
  else
    let planes := mmPlanes c.packet fa fb row col m n k0 kk
    let slots := mmSlots (seq % 2)
    let st : Nat → Nat := fun i => if i = 0 ∨ i = 2 then 0x800 else kc / 32
    let own : Plane → Bool := fun q => inTileOf t (p ([16, 24, 32, 40].getD q.idx 16) 8)
    let r1 := planes.foldl (fun (x : MmRun) q =>
      if own q ∨ q.rows = 0 then x else x.copy ctx c q (slot + slots.getD q.idx 0) (st q.idx) (6 + t % 2)) r.run
    let used := planes.map (fun q => if own q then (q.addr, q.stride) else (slot + slots.getD q.idx 0, st q.idx))
    let pl : Nat → Nat × Nat := fun i => used.getD i (0, 0)
    let ldc := rowBytes fc 128
    let cA := slot + 0x200000
    let first := decide (d = 0)
    let last := decide (d + 1 = total)
    let desc := mmDesc c.packet (b2n first + 2 * b2n last + 4 * b2n (first && accIn)) m n kk (pl 0).1 (pl 1).1 (pl 2).1 (pl 3).1
      cA (cA + 128 * ldc) (pl 0).2 (pl 2).2 ldc (pl 1).2 (pl 3).2 4 row col c.seed
    if r1.bad.isSome then { r with run := r1 }
    else
      let fail : State → Nat → Bool → ChainRun := fun s i corr =>
        { r with run := ⟨s.meFault t m0 5 (pTag c.packet), some i, corr⟩ }
      let o := if first then r1.st.meOpen desc else ⟨r1.st, some r.acc, false⟩
      match o.acc with
      | none => fail o.st (6 + t % 2) r1.corr
      | some acc0 =>
        let x := o.st.meStream desc acc0
        let corr := r1.corr || o.corr || x.corr
        match x.acc with
        | none => fail x.st (((planes.find? (fun q => own q && x.st.planeMarked q)).map (·.idx)).getD (6 + t % 2)) corr
        | some acc1 =>
          let s2 := ((x.st.meCounts ctx fa fb m kk).addWrap (meStatA t m0) meStatDone 1).progress (meUnit t m0)
          if !last then ⟨⟨s2, none, corr⟩, acc1⟩
          else
            let w := s2.meWrite desc (some (ctx, c.cseq)) acc1
            if w.bad then fail w.st (w.region.getD (6 + t % 2)) corr
            else
              -- A decoder mover copies the C area to C_ADDR (R267).
              let q4 : Plane := ⟨6 + t % 2, cA, ldc, m, rowBytes fc n⟩
              let q5 : Plane := ⟨6 + t % 2, cA + 128 * ldc, 4, if fc.isMx then m else 0, scaleBytes fc n⟩
              let run1 := (⟨w.st, none, corr⟩ : MmRun).copy ctx c q4 (p 48 8 + row * p 80 8 + fmtBytes fc col) (p 80 8) 4
              ⟨run1.copy ctx c q5 (p 56 8 + row * p 96 4 + col / 32) (p 96 4) 5, acc1⟩

/-- One output tile on its ME (R265 to R268): MATMUL_ACC first stages C's prior content. -/
def State.mmTile (ctx : Nat) (c : Cmd) (accIn : Bool) (mes : List (Nat × Nat)) (i : Nat) (r : MmRun) : MmRun :=
  if r.bad.isSome then r
  else
    let p := par c.packet
    let duo := (mvFmts (p 0 1)).getD (.bf16, .bf16)
    let fa := duo.1
    let fb := duo.2
    let fc := (Fmt.ofCode (bits (p 1 1) 0 4)).getD .bf16
    let q := ceilDiv (p 8 4) 128
    let row := 128 * (i / q)
    let col := 128 * (i % q)
    let m := min 128 (p 4 4 - row)
    let n := min 128 (p 8 4 - col)
    let e := max 1 mes.length
    let tm := mes.getD (i % e) (0, 0)
    let slot := tileBase tm.1 + p (112 + 4 * (tm.1 % 2)) 4 + 0x400000 * tm.2
    let total := ceilDiv (p 12 4) (kChunk fa fb)
    let ldc := rowBytes fc 128
    let cA := slot + 0x200000
    let r0 :=
      if accIn then
        let x := r.copy ctx c ⟨4, p 48 8 + row * p 80 8 + fmtBytes fc col, p 80 8, m, rowBytes fc n⟩ cA ldc (6 + tm.1 % 2)
        x.copy ctx c ⟨5, p 56 8 + row * p 96 4 + col / 32, p 96 4, if fc.isMx then m else 0, scaleBytes fc n⟩ (cA + 128 * ldc) 4
          (6 + tm.1 % 2)
      else r
    ((List.range total).foldl (fun x d =>
      State.mmStep ctx c accIn tm.1 tm.2 row col m n slot (i / e * total + d) d total x) ⟨r0, []⟩).run

/-- The MEs among the units that a command holds, in slot order, as (tile, ME) (R265). -/
def cmdMes (units : List Nat) : List (Nat × Nat) :=
  (units.filter (fun u => decide (u < 1024) && decide (u % 32 < 8))).map (fun u => (u / 32, u % 32))

/-- The body of MATMUL and MATMUL_ACC; its MEs stand idle while a collective of the partition runs (R282). -/
def State.matmulBody (s : State) (accIn : Bool) (ctx : Nat) (c : Cmd) : State :=
  if s.collRunning (partOf ctx) then s
  else
    let p := par c.packet
    let duo := (mvFmts (p 0 1)).getD (.bf16, .bf16)
    let fa := duo.1
    let fb := duo.2
    let tiles := ceilDiv (p 4 4) 128 * ceilDiv (p 8 4) 128
    let r := (List.range tiles).foldl (fun r i => State.mmTile ctx c accIn (cmdMes c.units) i r) ⟨s, none, false⟩
    -- How many descriptors the decoder gave each mover for the staging is open (log entry 7).
    let s1 := (cmdMovers c.units).foldl (fun s tj =>
      let duo := s.drawNat
      let v := duo.1
      let s' := duo.2
      s'.setFld (mvStatA tj.1 tj.2) mvStatDone v) r.st
    let s2 := s1.markCorr ctx c.cseq r.corr
    match r.bad with
    | some i => s2.finish ctx c.cseq .droppedBadData (mkDetail i 5) 0
    | none => s2.finish ctx c.cseq .ok noDetail (tiles * ceilDiv (p 12 4) (kChunk fa fb) % two32 + tiles % two32 * two32)

/-- MATMUL (R263 to R269). -/
def execMatmul (ctx cseq : Nat) (s : State) : Host.Outcome State Fault Refusal :=
  .next (s.withBody ctx cseq .matmul (fun c => s.matmulBody false ctx c))

/-- MATMUL_ACC (R268). -/
def execMatmulAcc (ctx cseq : Nat) (s : State) : Host.Outcome State Fault Refusal :=
  .next (s.withBody ctx cseq .matmulAcc (fun c => s.matmulBody true ctx c))

end Sys2Proof.Machine
end

