-- ==== Sys2Proof/Machine/Press.lean ====
section
/-!
DEFINITION. Press engines: the attention partial of a group of pages, the queues of the memory-tier dies, and ATTN_PAGES (R184
to R202, R277).
-/

namespace Sys2Proof.Machine

/-! ### The FP32 functions of R190 and R191 -/

/-- Write-out to FP32 under RNE with SAT 0. -/
def fp32Rne (x : Exact) : Nat := roundResult .fp32 ⟨.rne, false, 0⟩ x

/-- The exact product of an accumulator's result and a value (R74, R190). -/
def Exact.times (x : Exact) (y : Num) : Exact :=
  match x, y with
  | .nan, _ => .nan
  | _, .nan => .nan
  | .fin m e, .fin m' e' => .fin (m * m') (e + e')
  | .fin m _, .inf s => if m = 0 then .nan else .inf (s != decide (m < 0))
  | .inf s, .fin m _ => if m = 0 then .nan else .inf (s != decide (m < 0))
  | .inf s, .inf s' => .inf (s != s')
  | .ovf s, .fin m _ => if m = 0 then .fin 0 0 else .ovf (s != decide (m < 0))
  | .ovf s, .inf s' => .inf (s != s')

/-- One Newton step chain for the integer square root, from above. -/
def isqrtFrom (n : Nat) : Nat → Nat → Nat
  | 0, x => x
  | fuel + 1, x =>
    let y := (x + n / max x 1) / 2
    if x ≤ y then x else isqrtFrom n fuel y

/-- 2^(F / 2^160) times 2^192, from below: the product of the repeated square roots of 2 that the bits of F select (R191; the
precision is log entry 25). -/
def exp2Frac (f : Nat) : Nat → Nat → Nat → Nat → Nat
  | 0, _, _, acc => acc
  | fuel + 1, k, root, acc =>
    let r := isqrtFrom (root * 2 ^ 192) 400 root
    exp2Frac f fuel (k + 1) r (if f.testBit (159 - k) then acc * r / 2 ^ 192 else acc)

/-- exp2_cr of an FP32 value that is not above 0, as an FP32 code (R191). -/
def exp2Cr (x : Nat) : Nat :=
  match decodeElem .fp32 x with
  | .nan => nanCode .fp32
  | .inf _ => 0
  | .fin m e =>
    if m = 0 then 0x3F800000
    else
      let v : Int := m * 2 ^ (e + 160).toNat
      let i : Int := v / 2 ^ 160
      let f : Nat := (v % 2 ^ 160).toNat
      if i < -200 then 0
      else if f = 0 then fp32Rne (.fin 1 i)
      else fp32Rne (.fin (2 * (exp2Frac f 160 0 (2 ^ 193) (2 ^ 192) : Int) + 1) (i - 193))

/-- The exact difference of two FP32 codes, rounded to FP32. -/
def fp32Sub (a b : Nat) : Nat :=
  match decodeElem .fp32 a, decodeElem .fp32 b with
  | .fin m e, .fin m' e' => fp32Rne ((Accu.zero.add (.fin m e)).add (.fin (-m') e')).result
  | .nan, _ => nanCode .fp32
  | _, .nan => nanCode .fp32
  | .inf s, .inf s' => if s = s' then nanCode .fp32 else infCode .fp32 s
  | .inf s, _ => infCode .fp32 s
  | _, .inf s => infCode .fp32 (!s)

/-- Order of two FP32 codes that are no NaN, with −0 below +0 (log entry 26). -/
def fp32Key (a : Nat) : Int := if a < 2 ^ 31 then (a : Int) else -((a - 2 ^ 31 : Nat) : Int) - 1

/-- The larger of two FP32 codes that are no NaN. -/
def fp32Max (a b : Nat) : Nat := if fp32Key a < fp32Key b then b else a

/-! ### One group (R190 to R193) -/

/-- The K and V rows of one token. -/
structure KvTok where
  /-- K elements. -/
  k : List Num
  /-- V elements. -/
  v : List Num
  deriving DecidableEq, Repr

/-- The numbers of one record. -/
structure PressRec where
  /-- M. -/
  m : Nat
  /-- L. -/
  l : Nat
  /-- FLAGS. -/
  flags : Nat
  /-- O. -/
  o : List Nat
  deriving DecidableEq, Repr

/-- The empty record. -/
def PressRec.empty (d : Nat) : PressRec := ⟨0xFF800000, 0, 1, List.replicate d 0⟩
/-- The NaN record. -/
def PressRec.nan (d : Nat) : PressRec := ⟨0x7FC00000, 0x7FC00000, 2, List.replicate d 0x7FC00000⟩

/-- `press_group` of R190 for one query row. -/
def pressGroup (d : Nat) (q : List Num) (toks : List KvTok) (scale : Num) : PressRec :=
  let t := toks.map (fun x =>
    fp32Rne ((((q.zip x.k).foldl (fun a p => a.add (p.1.mul p.2)) Accu.zero).result).times scale))
  let special : Nat → Bool := fun c =>
    match decodeElem .fp32 c with
    | .nan => true
    | .inf s => !s
    | _ => false
  match t with
  | [] => PressRec.empty d
  | t0 :: ts =>
    if t.any special then PressRec.nan d
    else
      let m := ts.foldl fp32Max t0
      if m = 0xFF800000 then PressRec.empty d
      else
        let ps := t.map (fun c => decodeElem .fp32 (exp2Cr (fp32Sub c m)))
        let l := ps.foldl (fun a p => a.add p) Accu.zero
        let o := (List.range d).map (fun i =>
          fp32Rne ((ps.zip toks).foldl (fun a p => a.add (p.1.mul (p.2.v.getD i (.fin 0 0)))) Accu.zero).result)
        ⟨m, fp32Rne l.result, 0, o⟩

/-- The bytes of a record (R193). -/
def PressRec.bytes (r : PressRec) (d group row : Nat) : List Byte :=
  fitBytes (recSize d) (natLe 4 r.m ++ natLe 4 r.l ++ natLe 4 group ++ natLe 2 row ++ natLe 2 r.flags ++ r.o.flatMap (natLe 4))

/-- One half of a page's token rows: its elements and scales. -/
def halfRows (f : Fmt) (d n : Nat) (elem sc : List Byte) : List (List Num) :=
  let w := f.width * d / 8
  (List.range n).map (fun j =>
    (List.range d).map (fun i => elemAt f ((elem.drop (w * j)).take w) ((sc.drop (d / 32 * j)).take (d / 32)) i))

/-- What reading the tokens of a page gives. -/
structure PageOut where
  /-- State after the reads. -/
  st : State
  /-- Tokens, or none for bad data. -/
  toks : Option (List KvTok)
  /-- A corrected error occurred. -/
  corr : Bool
  deriving DecidableEq, Repr

/-- Reads the valid tokens of one page (R184, R187, R201). -/
def State.readPage (s : State) (f : Fmt) (d : Nat) (page n : Nat) : PageOut :=
  let w := f.width * d / 8
  let sc := if f.isMx then d / 32 else 0
  let half : State → Nat → ReadOut × ReadOut := fun s base =>
    let e := s.readMem 0 base (w * n)
    (e, e.st.readMem 0 (base + pageTokens f d * w) (sc * n))
  let duo := half s page
  let ke := duo.1
  let ks := duo.2
  let duo := half ks.st (page + 32768)
  let ve := duo.1
  let vs := duo.2
  let corr := ke.corr || ks.corr || ve.corr || vs.corr
  match ke.data, ks.data, ve.data, vs.data with
  | some a, some b, some c, some e =>
    ⟨vs.st, some (((halfRows f d n a b).zip (halfRows f d n c e)).map (fun p => ⟨p.1, p.2⟩)), corr⟩
  | _, _, _, _ => ⟨vs.st, none, corr⟩

/-! ### ATTN_PAGES (R187 to R189, R277) -/

/-- The entries of a page list: address, VALID and reserved bits (R187). -/
def pageList (l : List Byte) (n : Nat) : List (Nat × Nat × Nat) :=
  (List.range n).map (fun i =>
    let e := leAt l (8 * i) 8
    (bits e 0 44, bits e 44 10, bits e 54 10))

/-- The memory-tier die of a page: even pages in TD0 (R185). -/
def pageDie (a : Nat) : Nat := (a - tierBase) / 65536 % 2

/-- The groups of a page list (R189). -/
def pageGroups (g : Nat) (ps : List (Nat × Nat × Nat)) : List (List (Nat × Nat × Nat)) := chunksOf (max 1 g) ps.length ps

/-- The refusals of R188 that need the page list: none where the command runs. -/
def State.pagesCheck (s : State) (ctx : Nat) (pk : List Byte) (ps : List (Nat × Nat × Nat)) : Option Status :=
  let p := par pk
  let f := (Fmt.ofCode (bits (p 1 1) 0 4)).getD .bf16
  let t := pageTokens f (dselDim (p 2 1))
  if ps.any (fun e => decide (e.2.2 ≠ 0) || decide (e.1 % 65536 ≠ 0) || decide (t < e.2.1)) ||
      (pageGroups (p 4 1) ps).any (fun g => g.any (fun e => decide (pageDie e.1 ≠ pageDie ((g.head?.map (·.1)).getD 0))))
  then some .rejectedFormat
  else if ps.any (fun e => !inTier e.1 || !s.mayReach ctx (e.1 : Nat) 65536) then some .rejectedPerm
  else none

/-- The body of ATTN_PAGES: the list is read once and one group per GROUP_PAGES pages is queued. -/
def State.attnBody (s : State) (ctx : Nat) (c : Cmd) : State :=
  let p := par c.packet
  let r := s.readMem 0 (p 16 8) (8 * p 12 4)
  let s1 := r.st.markCorr ctx c.cseq r.corr
  match r.data with
  | none => s1.finish ctx c.cseq .droppedBadData (mkDetail 0 5) 0
  | some l =>
    let ps := pageList l (p 12 4)
    match s1.pagesCheck ctx c.packet ps with
    | some st => s1.finish ctx c.cseq st (mkDetail 0 0) 0
    | none =>
      let gs := pageGroups (p 4 1) ps
      let part := partOf ctx
      let s2 := (gs.zip (List.range gs.length)).foldl (fun s q =>
        let key := 16 * pageDie ((q.1.head?.map (·.1)).getD 0) + part
        let grp : PressGroup := ⟨part, ctx, c.cseq, q.2, q.1.map (fun e => (e.1, e.2.1)), 0, 0⟩
        { s with pressQ := kvSet [] s.pressQ key (kvGet [] s.pressQ key ++ [grp]) }) s1
      s2.modCmd ctx c.cseq (fun k => { k with
        issued := true, left := gs.length,
        moved := gs.length + (ps.filter (fun e => decide (e.2.1 ≠ 0))).length * two32 })

/-- ATTN_PAGES (R277). -/
def execAttnPages (ctx cseq : Nat) (s : State) : Host.Outcome State Fault Refusal :=
  .next (s.withBody ctx cseq .attnPages (fun c => s.attnBody ctx c))

/-! ### Dispatch (R197, R202) -/

/-- Whether an engine is in service and idle. -/
def State.pressFree (s : State) (die e : Nat) : Bool :=
  (s.fld (tdPecapA die) tdPecapEnabled).testBit e && !(s.fld (tdPecapA die) tdPecapFailed).testBit e &&
    (s.press die e).group.isNone && (s.press die e).rstAt.isNone

/-- Groups that a partition dispatches in one round; 0 is taken as 1. -/
def State.pressWeight (s : State) (die p : Nat) : Nat := max 1 (s.fld (tdPeshareA die p) tdPeshareWeight)

/-- The partition whose turn it is, with the groups it has had in its turn. -/
def State.pressTurn (s : State) (die : Nat) : Nat → Nat × Nat → Option (Nat × Nat)
  | 0, _ => none
  | fuel + 1, (p, n) =>
    if !(kvGet [] s.pressQ (16 * die + p)).isEmpty && decide (n < s.pressWeight die p) then some (p, n)
    else State.pressTurn s die fuel ((p + 1) % 12, 0)

/-- PRESS_GROUP_DISPATCH (R197): the lowest-numbered free engine takes the group (log entry 27). -/
def execPressGroupDispatch (die : Nat) (s : State) : Host.Outcome State Fault Refusal :=
  .next (
    if 2 ≤ die then s
    else
      match s.pressTurn die 14 (kvGet (0, 0) s.pressRr die) with
      | none => s
      | some (p, n) =>
        match kvGet [] s.pressQ (16 * die + p) with
        | [] => s
        | g :: rest =>
          match (List.range 16).find? (fun e => s.pressFree die e && decide (g.avoid ≠ e + 1)) with
          | none => s
          | some e =>
            (({ s with
              pressQ := kvSet [] s.pressQ (16 * die + p) rest,
              pressRr := kvSet (0, 0) s.pressRr die (p, n + 1) }).setPress die e ⟨some g, none⟩).progress (pressKey die e))

/-- The tokens of a group's pages, read one page after another. -/
def State.readPages (s : State) (f : Fmt) (d : Nat) (ps : List (Nat × Nat)) : PageOut :=
  ps.foldl (fun (r : PageOut) q =>
    match r.toks with
    | none => r
    | some ts =>
      let x := r.st.readPage f d q.1 q.2
      ⟨x.st, x.toks.map (fun t => ts ++ t), r.corr || x.corr⟩) ⟨s, some [], false⟩

/-- Whether a group's pages can be read now: no segment of them is being filled and no channel of the die is held (R150, R162). -/
def State.pagesReady (s : State) (die : Nat) (g : PressGroup) : Bool :=
  decide (s.fld (retrainA (12 + die)) phRetrainPcActive = 0) &&
    g.pages.all (fun q => !s.flag (tdSegA (segOf q.1)) tdSegFilling)

/-- The records of a group are written and the engine is idle again (R190, R193, R198, R201). -/
def State.pressDone (s : State) (die e : Nat) (g : PressGroup) (c : Cmd) : State :=
  let p := par c.packet
  let f := (Fmt.ofCode (bits (p 1 1) 0 4)).getD .bf16
  let qf := (Fmt.ofCode (bits (p 1 1) 4 4)).getD .bf16
  let d := dselDim (p 2 1)
  let rows := s.readRows (p 24 8) (p 3 1) (d * qf.width / 8) (d * qf.width / 8)
  let pages := rows.st.readPages f d g.pages
  let s1 := (pages.st.setPress die e Press.init).markCorr g.ctx g.cseq (rows.corr || pages.corr)
  let cancel : State → Nat → State := fun s detail => (s.stopCmd g.ctx c).finish g.ctx g.cseq .droppedBadData detail 0
  match rows.rows, pages.toks with
  | none, _ => cancel s1 (mkDetail 1 5)
  | _, none => cancel s1 (mkDetail 0xFF 5)
  | some qs, some ts =>
    let scale := decodeElem .fp32 (p 8 4)
    let a := p 32 8 + g.idx * p 3 1 * recSize d
    let w := (qs.zip (List.range qs.length)).foldl (fun (r : Wrote) q =>
      if r.bad then r
      else
        let row := (List.range d).map (fun i => elemAt qf q.1 [] i)
        let x := r.st.storeBy (some (g.ctx, g.cseq)) (a + q.2 * recSize d)
          ((pressGroup d row ts scale).bytes d (p 40 4 + g.idx) q.2)
        ⟨x.st, x.bad, x.region⟩) ⟨s1, false, none⟩
    if w.bad then cancel w.st (mkDetail 2 5)
    else
      let st := tdPestatA die e
      let s2 := ((w.st.addWrap st tdPestatProgress g.pages.length).addWrap st tdPestatGroups 1).progress (pressKey die e)
      let s3 := (s2.countCtx g.ctx 0x040 g.pages.length).countCtx g.ctx 0x041 (sumNat (g.pages.map (·.2)))
      let s4 := s3.modCmd g.ctx g.cseq (fun k => { k with left := k.left - 1 })
      if c.left ≤ 1 then s4.finish g.ctx g.cseq .ok noDetail c.moved else s4

/-- PRESS_GROUP_COMPLETE (R190, R198, R201). -/
def execPressGroupComplete (die engine : Nat) (s : State) : Host.Outcome State Fault Refusal :=
  .next (
    if 2 ≤ die ∨ 16 ≤ engine then s
    else
      match (s.press die engine).group with
      | none => s
      | some g =>
        match (s.ctx g.ctx).cmd g.cseq with
        | none => s.setPress die engine Press.init
        | some c => if s.pagesReady die g then s.pressDone die engine g c else s)

/-! ### Engine resets (R202) -/

/-- The end of an engine's run by a reset: its group goes to another engine, or its command ends with TIMEOUT. -/
def State.pressRequeue (s : State) (die e : Nat) : State :=
  match (s.press die e).group with
  | none => s
  | some g =>
    let s1 := s.setPress die e { s.press die e with group := none }
    if g.runs = 0 then
      let key := 16 * die + g.part
      { s1 with pressQ := kvSet [] s1.pressQ key ({ g with runs := 1, avoid := e + 1 } :: kvGet [] s1.pressQ key) }
    else
      match (s1.ctx g.ctx).cmd g.cseq with
      | none => s1
      | some c => (s1.stopCmd g.ctx c).fail g.ctx g.cseq .timeout

/-- PRESS_ENGINE_RESET (R202): whether the engine's own reset completes within its bound is an operand (log entry 12). -/
def execPressEngineReset (now die engine : Nat) (by_ : Writer) (completes : Bool) (s : State) : Host.Outcome State Fault Refusal :=
  .next (let s1 := s.advance now
    if 2 ≤ die ∨ 16 ≤ engine ∨ !mayReachReg by_ (tdPectlA die) ∨ (s1.press die engine).rstAt.isSome ∨
        (s1.fld (tdPecapA die) tdPecapFailed).testBit engine ∨ !(s1.fld (tdPecapA die) tdPecapEnabled).testBit engine then s1
    else
      let s2 := s1.pressRequeue die engine
      if completes then s2 else s2.setPress die engine ⟨none, some s2.gtime⟩)

/-- PRESS_RESET_TIMEOUT (R202): an engine whose reset has not completed within 500 µs is fenced off. -/
def execPressResetTimeout (now die engine : Nat) (s : State) : Host.Outcome State Fault Refusal :=
  .next (let s1 := s.advance now
    match (s1.press die engine).rstAt with
    | none => s1
    | some t =>
      if 2 ≤ die ∨ 16 ≤ engine ∨ s1.gtime < t + 500000 then s1
      else
        let a := tdPecapA die
        let s2 := (s1.setFld a tdPecapFailed (s1.fld a tdPecapFailed ||| 2 ^ engine)).setFld a tdPecapCount
          (s1.fld a tdPecapCount - 1)
        (s2.setPress die engine Press.init).raise (32 * (85 + die) + 3))

end Sys2Proof.Machine
end

