-- ==== Sys2Proof/Machine/Trees.lean ====
section
/-!
DEFINITION. The derivation of collective trees at a commit, the checks of such a commit, and the abort of a slice (R332,
R341 to R349, R363, R369).
-/

namespace Sys2Proof.Machine

/-! ### Trees (R346 to R348) -/

/-- The VALID ranks of a directory entry's rank map in ascending order, as (rank, DNODE, DPORT) (R337, R347). -/
def State.validRanks (s : State) (i : Nat) : List (Nat × Nat × Nat) :=
  ((s.regs.filter (fun e => decide (fdRankmapA i 0 ≤ e.1) && decide (e.1 < fdRankmapA i 0 + 65536))).flatMap (fun e =>
    let j := (e.1 - fdRankmapA i 0) / 8
    [2 * j, 2 * j + 1])).filterMap (fun r =>
      let x := s.rankEntry i r
      if x.testBit 16 then some (r, bits x 0 12, bits x 12 4) else none)

/-- The link that leads from module `n` to its parent in the tree rooted at `r`; none at the root (R347). -/
def State.treeParent (s : State) (r n : Nat) : Option Nat :=
  ([0, 1, 2].find? (fun ax => decide ((coord n ax + s.dimSize ax - coord r ax) % s.dimSize ax ≠ 0))).map (fun ax =>
    let d := (coord n ax + s.dimSize ax - coord r ax) % s.dimSize ax
    if d ≤ s.dimSize ax / 2 then 2 * ax + 1 else 2 * ax)

/-- Module `n` and its chain of parents up to the root `r`; 128 hops bound the chain of any torus. -/
def State.treeChain (s : State) (r : Nat) : Nat → Nat → List Nat
  | 0, n => [n]
  | fuel + 1, n =>
    match s.treeParent r n with
    | some l => n :: State.treeChain s r fuel (s.neighbour n l)
    | none => [n]

/-- What the derivation finds for one tree at this module. -/
structure TreeView where
  /-- On the tree. -/
  onTree : Bool
  /-- The root module. -/
  root : Bool
  /-- Link to the parent, 7 for none. -/
  parent : Nat
  /-- Links to the children, as bits. -/
  children : Nat
  /-- Hops from the root. -/
  depth : Nat
  /-- Largest number of hops to a module below. -/
  height : Nat
  /-- Members in the subtree. -/
  contrib : Nat
  /-- Member partitions of this module, as bits. -/
  parts : Nat
  deriving DecidableEq, Repr

/-- The root module of tree `g` (R347). -/
def State.treeRoot (s : State) (i g : Nat) : Nat := bits (s.rankEntry i (s.fld (fdTreedefA i g) fdTreedefRoot)) 0 12

/-- The tree of group `g` of entry `i` as this module stands on it (R347, R348). -/
def State.treeView (s : State) (i g : Nat) : TreeView :=
  let me := s.node
  let root := s.treeRoot i g
  let ranks := s.validRanks i
  let chains := ranks.map (fun r => s.treeChain root 128 r.2.1)
  let mine := chains.filter (fun c => c.contains me)
  let on := !mine.isEmpty
  let kids := sumNat ((List.range 6).map (fun l =>
    let m := s.neighbour me l
    if chains.any (fun c => c.contains m) && decide (s.treeParent root m = some (l ^^^ 1)) && decide (s.neighbour m (l ^^^ 1) = me)
    then 2 ^ l else 0))
  let parts := sumNat ((List.range 12).map (fun p => if ranks.any (fun r => decide (r.2 = (me, p))) then 2 ^ p else 0))
  ⟨on, on && decide (me = root), if on then (s.treeParent root me).getD 7 else 7, if on then kids else 0,
   if on then (s.treeChain root 128 me).length - 1 else 0,
   maxNat (mine.map (fun c => (c.takeWhile (fun n => decide (n ≠ me))).length)), mine.length, parts⟩

/-- Writes group entry `g` of directory entry `i`. -/
def State.setGroup (s : State) (i g v : Nat) : State := s.setFld (fdMcastA i (g / 2)) ⟨32 * (g % 2), 32⟩ v

/-- Derives one group entry (R348): TREEINFO, and the group entry of a tree; an ordinary entry has no TREEINFO. -/
def State.deriveTree (s : State) (i g : Nat) : State :=
  let m := s.fld (fdTreedefA i g) fdTreedefMode
  let a := fdTreeinfoA i g
  if m = 1 ∨ m = 2 then
    let v := s.treeView i g
    let w := [(fdTreeinfoParent, v.parent), (fdTreeinfoChildren, v.children), (fdTreeinfoDepth, v.depth),
      (fdTreeinfoHeight, v.height), (fdTreeinfoContrib, v.contrib), (fdTreeinfoOntree, b2n v.onTree),
      (fdTreeinfoRoot, b2n v.root)].foldl (fun w f => fset w f.1 f.2) (0 : Word)
    let s1 := s.setReg a (if v.onTree then w else regReset a)
    s1.setGroup i g (if v.onTree then v.children + v.parts * 2 ^ 6 + 2 ^ 18 + 2 ^ 19 else 0)
  else s.setReg a (regReset a)

/-- Whether this module has member partitions on a MODE 2 tree of an entry (R369). -/
def State.trayTree (s : State) (i g : Nat) : Bool :=
  decide (s.fld (fdTreedefA i g) fdTreedefMode = 2) && s.flag (fdTreeinfoA i g) fdTreeinfoOntree &&
    decide (bits (s.groupEntry i g) 6 12 ≠ 0)

/-- The entries and groups with a MODE 2 tree on which this module has members; only a written TREEDEF can be one. -/
def State.trayTrees (s : State) : List (Nat × Nat) :=
  ((s.regs.filter (fun e => decide (fdTreedefA 0 0 ≤ e.1) && decide (e.1 < fdTreedefA 64 0))).map (fun e =>
    ((e.1 - fdTreedefA 0 0) / 0x800, (e.1 - fdTreedefA 0 0) % 0x800 / 8))).filter (fun x => s.trayTree x.1 x.2)

/-- The level of the TRAY_SYNC line as this module sees it (R492, R631). -/
def State.syncLine (s : State) (v : Bool) : State :=
  (s.setFld hmSidebandA hmSidebandTraySync (b2n v)).setLevel (32 * 95 + 7) v

/-- Drives TRAY_SYNC low, or stops driving it; the line rises only once no module drives it, which TRAY_SYNC_RISE says (R369). -/
def State.driveSync (s : State) (low : Bool) : State :=
  let s1 := { s with pins := { s.pins with traySync := low } }
  if low then s1.syncLine false else s1

/-- Derives every tree of a slice's entry (R347, R348, R369). -/
def State.deriveTrees (s : State) (i : Nat) : State :=
  let s1 := (List.range 256).foldl (fun s g => s.deriveTree i g) s
  let want := !s1.trayTrees.isEmpty
  if want = s1.pins.traySync then s1 else s1.driveSync want

/-! ### Checks of a commit (R332, R349) -/

/-- The checks of one tree: ROOT, the routes to its neighbours and the tray of a MODE 2 tree. -/
def State.treeCheck (s : State) (i g : Nat) : Bool :=
  let m := s.fld (fdTreedefA i g) fdTreedefMode
  if m = 1 ∨ m = 2 then
    let v := s.treeView i g
    let links := (List.range 6).filter (fun l => v.children.testBit l || decide (l = v.parent))
    let tray := (s.validRanks i).all (fun r => decide (coord r.2.1 1 = coord s.node 1) && decide (coord r.2.1 2 = coord s.node 2))
    decide (s.fld (fdTreedefA i g) fdTreedefRoot < 16384) && (s.rankEntry i (s.fld (fdTreedefA i g) fdTreedefRoot)).testBit 16 &&
    links.all (fun l =>
      let e := s.routeEntry i (s.neighbour s.node l)
      e.testBit 6 && decide (bits e 0 3 = l)) &&
    (decide (m ≠ 2) || tray)
  else true

/-- Whether two entries of a list agree. -/
def hasDup {α : Type} [DecidableEq α] : List α → Bool
  | [] => false
  | x :: xs => xs.contains x || hasDup xs

/-- The checks of a commit that touches entry `i`, on the tables as they would stand (R349). -/
def State.entryCheck (s : State) (i : Nat) : Bool :=
  let sl := s.fld (fdSlicedirA i) fdSlicedirSlice
  let ranks := s.validRanks i
  !(decide (sl ≠ 0) && (List.range 64).any (fun j => decide (j ≠ i) && decide (s.fld (fdSlicedirA j) fdSlicedirSlice = sl))) &&
  !hasDup (ranks.map (·.2)) &&
  ranks.all (fun r => decide (r.2.1 ≠ s.node) ||
    (decide (r.2.2 ≤ 11) && (s.fld (fdSlicedirA i) fdSlicedirPartmask).testBit r.2.2)) &&
  (List.range 256).all (fun g => s.treeCheck i g)

/-- The MODE 2 trees that this module would hold over all its slices; at most one may be (R349). -/
def State.trayCount (s : State) : Nat :=
  (((s.regs.filter (fun e => decide (fdTreedefA 0 0 ≤ e.1) && decide (e.1 < fdTreedefA 64 0))).map (fun e =>
    ((e.1 - fdTreedefA 0 0) / 0x800, (e.1 - fdTreedefA 0 0) % 0x800 / 8))).filter (fun x =>
      decide (s.fld (fdTreedefA x.1 x.2) fdTreedefMode = 2) && (s.treeView x.1 x.2).onTree)).length

/-! ### Slice aborts (R340 to R342, R363) -/

/-- What an ABORT says: instance, cause, origin module, origin link and origin GTIME (R342). -/
structure AbortInfo where
  /-- INSTANCE. -/
  inst : Nat
  /-- CAUSE. -/
  cause : Nat
  /-- ORIGIN_NODE. -/
  node : Nat
  /-- ORIGIN_LINK. -/
  link : Nat
  /-- Origin's GTIME at detection. -/
  time : Nat
  /-- This module is the origin. -/
  local_ : Bool
  deriving DecidableEq, Repr

/-- The payload of an ABORT bead (R342). -/
def abortPay (slice : Nat) (a : AbortInfo) : List Byte :=
  natLe 2 slice ++ natLe 1 a.inst ++ natLe 1 a.cause ++ natLe 2 a.node ++ natLe 1 a.link ++ zeros 1 ++ natLe 8 a.time ++ zeros 48

/-- Adds a record to the abort log of each fabric die, 16 entries each; one that finds it full is lost (R345). -/
def State.logAbort (s : State) (slice : Nat) (a : AbortInfo) : State :=
  let w := [(fdAbortlogSlice, slice), (fdAbortlogOriginNode, a.node), (fdAbortlogOriginLink, a.link), (fdAbortlogCause, a.cause),
    (fdAbortlogInstance, a.inst), (fdAbortlogLocal, b2n a.local_)].foldl (fun w f => fset w f.1 f.2) (0 : Word)
  (List.range 4).foldl (fun s f =>
    let q := kvGet [] s.aborts f
    if q.length < 16 then { s with aborts := kvSet [] s.aborts f (q ++ [⟨w, a.time⟩]) }
    else (s.setFld (fdAbortlogA f) fdAbortlogLost 1).raise (32 * 90 + 4)) s

/-- The contexts whose SLICE is the given one. -/
def State.sliceCtxs (s : State) (slice : Nat) : List Nat := (List.range 800).filter (fun c => decide (s.ctxSlice c = slice))

/-- Clears the ARMED bits of an entry's trees (R363). -/
def State.disarmTrees (s : State) (i : Nat) : State :=
  ((List.range 256).filter (fun g => s.flag (fdTreeinfoA i g) fdTreeinfoArmed)).foldl
    (fun s g => s.setFld (fdTreeinfoA i g) fdTreeinfoArmed 0) s

/-- The abort of the slice of entry `i`, unless it is aborted already (R341, R363). `spare` is a command that retires with
another status (R362); `from_` is the link an ABORT arrived on, 7 for none. -/
def State.abortEntry (s : State) (i : Nat) (a : AbortInfo) (spare : Option (Nat × Nat)) (from_ : Nat) : State :=
  let slice := s.fld (fdSlicedirA i) fdSlicedirSlice
  if slice = 0 ∨ s.flag (fdSlicedirA i) fdSlicedirAborted then s
  else
    let s1 := ((s.setFld (fdSlicedirA i) fdSlicedirAborted 1).logAbort slice a).raiseInfo (32 * 87 + i) slice
    let s2 : State := (s1.sliceCtxs slice).foldl (fun s c =>
      (s.abortCmds c .abortedSlice (fun k => !decide (spare = some (c, k.cseq))) none).1.modCtx c (fun x => { x with fenced := true })) s1
    let held := s2.trayTrees.any (fun x => decide (x.1 = i))
    let s3 : State := { s2 with folds := s2.folds.filter (fun f => decide (f.entry ≠ i)), colls := s2.colls.filter (fun k => decide (k.entry ≠ i)) }
    let s4 := s3.disarmTrees i
    let s5 := if held ∧ s4.pins.traySync then s4.driveSync false else s4
    (List.range 6).foldl (fun s n => if s.linkUp n ∧ n ≠ from_ then s.sendHop n 12 slice (abortPay slice a) else s) s5

/-- An abort that this module detects, with a cause of R325 or R342 and the link concerned. -/
def State.abortLocal (s : State) (i cause link : Nat) (spare : Option (Nat × Nat)) : State :=
  s.abortEntry i ⟨s.fld (fdSlicedirA i) fdSlicedirInstance, cause, s.node, link, s.gtime, true⟩ spare 7

end Sys2Proof.Machine
end

