-- ==== Sys2Proof/Machine/Arrive.lean ====
section
/-!
DEFINITION. Messages that have arrived: how they are taken from what a link end holds, and the checks of a fabric die (R314,
R315, R333, R335, R338).
-/

namespace Sys2Proof.Machine

/-- Whether a kind opens a message with data beads (R314). -/
def headKind (k : Nat) : Bool := k == 1 || k == 3 || k == 5

/-- Whether a kind is that of data beads. -/
def isData (k : Nat) : Bool := k == 2 || k == 4 || k == 6

/-- The data beads that a head announces (R315). -/
def headBeads (b : Bead) : Nat := if headKind b.kind then ceilDiv (leAt b.pay 16 2) 64 else 0

/-- What a link end holds without the first `n` beads of one VC. -/
def dropVc (vc : Nat) : Nat → List (Bead × Bool) → List (Bead × Bool)
  | 0, xs => xs
  | _ + 1, [] => []
  | n + 1, x :: xs => if x.1.vc = vc then dropVc vc n xs else x :: dropVc vc (n + 1) xs

/-- Bytes that a link end holds of one VC. -/
def Link.occ (l : Link) (vc : Nat) : Nat := 72 * (l.inbox.filter (fun x => decide (x.1.vc = vc))).length

/-- Bytes of the shared part of a receive buffer in use (R329). -/
def Link.shared (l : Link) : Nat := sumNat ((List.range 6).map (fun v => l.occ v - 32768))

/-- The XOFF bits that a receive side gives out, with its threshold (R330). -/
def State.xoffOf (s : State) (n : Nat) (l : Link) : Nat :=
  let thr := ceilDiv (s.fld (lxStatA n) lxStatRttNs * 800) 4096 * 4096 + 65536
  let free := 1856 * 1024 - l.shared
  let full := (List.range 6).foldl (fun w v => if 32768 ≤ l.occ v then w + 2 ^ v else w) 0
  let kept := if thr + 65536 ≤ free then 0 else l.xoffOut
  (if free < thr then kept ||| full else kept) &&& full

/-- Takes a message from what a link end holds: it is the first of its VC there, and all its beads have come (R314). Data beads
that follow no head go with it. Answers whether a sealed frame carried it. Link 6 stands for the module itself. -/
def State.takeMsg (s : State) (n : Nat) (m : Msg) : Option (State × Bool) :=
  let l := s.link n
  let vc := m.head.vc
  let q := l.inbox.filter (fun x => decide (x.1.vc = vc))
  let stray := (q.takeWhile (fun x => isData x.1.kind)).length
  match q.drop stray with
  | [] => none
  | (h, sealed_) :: rest =>
    let k := headBeads h
    if h ≠ m.head ∨ rest.length < k ∨ m.data ≠ ((rest.take k).flatMap (fun x => fitBytes 64 x.1.pay)).take (if headKind h.kind then leAt h.pay 16 2 else 0)
    then none
    else let l1 := { l with inbox := dropVc vc (stray + 1 + k) l.inbox }
      some (s.setLink n { l1 with xoffOut := if n < 6 then s.xoffOf n l1 else 0 }, sealed_)

/-- Takes a single-bead message. -/
def State.takeBead (s : State) (n : Nat) (b : Bead) : Option (State × Bool) := s.takeMsg n ⟨b, []⟩

/-- Kinds routed by the route table (R313). -/
def routeKind (k : Nat) : Bool := k == 1 || k == 3 || k == 7 || k == 8 || k == 9
/-- Kinds replicated by the group table (R313). -/
def groupKind (k : Nat) : Bool := k == 5 || k == 10

/-- A message head after checks 2 to 6 of R335: the state, and the directory entry that governs it, or none where it was
dropped. -/
def State.screen (s : State) (n : Nat) (b : Bead) (sealed_ : Bool) : State × Option Nat :=
  let fd := fdOfLink n
  let sl := b.slice
  match s.sliceEntry sl with
  | none => (s.isodrop fd 1 sl, none)
  | some i =>
    let e := s.routeEntry i b.dnode
    let g := s.groupEntry i (b.group % 256)
    let w := s.reg (fdSlicedirA i)
    if fget w fdSlicedirAborted = 1 then (s.isodrop fd 2 sl, none)
    else if fget w fdSlicedirSealed = 1 ∧ !sealed_ then (s.isodrop fd 3 sl, none)
    else if routeKind b.kind ∧ (!e.testBit 6 ∨ bits e 0 3 = 7) then (s.isodrop fd 4 sl, none)
    else if groupKind b.kind ∧ (256 ≤ b.group ∨ !g.testBit 19) then (s.isodrop fd 5 sl, none)
    else
      let here := (routeKind b.kind && decide (bits e 0 3 = 6)) || (groupKind b.kind && decide (bits g 6 13 ≠ 0))
      let fits := if b.kind = 1 ∨ b.kind = 7 ∨ b.kind = 8 then decide (b.dport < 12) && (fget w fdSlicedirPartmask).testBit b.dport
        else decide (b.dport = 15)
      if here ∧ !fits then (s.isodrop fd 6 sl, none) else (s, some i)

/-- What becomes of a route-table message that passed its checks: whether it is for this module. -/
def State.forHere (s : State) (i : Nat) (b : Bead) : Bool := decide (bits (s.routeEntry i b.dnode) 0 3 = 6)

/-- Passes a route-table message on towards its DNODE (R333). -/
def State.forward (s : State) (i n : Nat) (m : Msg) (sealed_ : Bool) : State := s.route i (msgBeads m.head m.data) n sealed_

/-- Replicates a group-table message to the links of its group entry (R338, R339). The copies carry the neighbour's module
number (log entry 28). -/
def State.replicate (s : State) (i n : Nat) (m : Msg) (sealed_ : Bool) : State :=
  let g := s.groupEntry i (m.head.group % 256)
  ((List.range 6).filter (fun l => g.testBit l)).foldl (fun s l =>
    let h := (m.head.withVc (s.hopVc m.head.vc n l)).withDnode (s.neighbour s.node l)
    s.emit l (msgBeads h m.data) sealed_) s

end Sys2Proof.Machine
end

