-- ==== Sys2Proof/Machine/Collect.lean ====
section
/-!
DEFINITION. Collectives and barriers: chunks, folds, delivery, completion, release and TRAY_SYNC (R280 to R282, R339, R341,
R351 to R370).
-/

namespace Sys2Proof.Machine

/-! ### The collective's own record -/

/-- OP of a collective (R352); 5 stands for BARRIER, which sends no chunk. -/
def collOp : Opc → Nat
  | .allreduce => 1
  | .reduce => 2
  | .bcast => 3
  | .allgather => 4
  | _ => 5

/-- Elements of a chunk (R351). -/
def chunkElems (fmt : Nat) : Nat := if bits fmt 0 4 = 8 then 2048 else if bits fmt 0 4 = 15 then 51 else 1024

/-- The fields that every member issues alike: OP, FMT, COUNT, TREE, ROOT, COLL_SEQ (R281, R358). -/
def collRef (o : Opc) (pk : List Byte) : List Nat :=
  [collOp o, par pk 0 1, par pk 4 4, par pk 2 1, if o = .reduce ∨ o = .bcast then bits (par pk 24 4) 0 20 else 0, collSeq pk]

/-- The same fields as a chunk's head carries them (R352). -/
def payRef (y : List Byte) : List Nat :=
  [leAt y 32 1, leAt y 33 1, leAt y 36 4, leAt y 34 1, bits (leAt y 52 4) 0 20, leAt y 28 4]

/-- NEXT_COLL of a directory entry. -/
def State.nextOf (s : State) (i : Nat) : Nat := s.fld (fdCollstatA i) fdCollstatNextColl

/-- The collective of an entry and number as this module holds it. -/
def State.coll (s : State) (i n : Nat) : Coll :=
  (s.colls.find? (fun k => decide (k.entry = i ∧ k.coll = n))).getD ⟨i, n, 0, none, false, [], [], false, false, none, []⟩

/-- `s` with a collective's record replaced. -/
def State.setColl (s : State) (k : Coll) : State :=
  { s with colls := s.colls.filter (fun x => !decide (x.entry = k.entry ∧ x.coll = k.coll)) ++ [k] }

/-- The collective that an arriving report or chunk belongs to: the present one, or the next once this module has reported its
whole subtree for the present one. -/
def State.collNum (s : State) (i : Nat) : Nat :=
  let n := s.nextOf i
  if (s.coll i n).sentUp then (n + 1) % two32 else n

/-- Takes the fields of a first input or start, or compares with them: the record, and whether they agree (R358). -/
def Coll.meet (k : Coll) (ref : List Nat) : Coll × Bool :=
  match k.ref with
  | none => ({ k with ref := some ref, group := ref.getD 3 0 }, true)
  | some r => (k, decide (r = ref))

/-! ### Chunks on the wire (R352) -/

/-- A chunk with the fields of its head that vary. -/
structure Chunk where
  /-- SPORT. -/
  sport : Nat
  /-- FLAGS.LAST. -/
  last : Bool
  /-- SRANK. -/
  srank : Nat
  /-- Chunk number. -/
  k : Nat
  /-- CFLAGS. -/
  cflags : Nat
  /-- ELEM0. -/
  elem0 : Nat
  /-- CONTRIB. -/
  contrib : Nat
  /-- Bytes, none where FAIL is set. -/
  data : List Byte
  deriving DecidableEq, Repr

/-- The head payload of a chunk of a collective with the given fields (R352). -/
def State.chunkPay (s : State) (ref : List Nat) (c : Chunk) : List Byte :=
  natLe 2 s.node ++ natLe 1 c.sport ++ natLe 1 (b2n c.last) ++ natLe 4 c.srank ++ zeros 8 ++ natLe 2 c.data.length ++ zeros 2 ++
    natLe 4 c.k ++ natLe 4 (crc32c c.data) ++ natLe 4 (ref.getD 5 0) ++ natLe 1 (ref.getD 0 0) ++ natLe 1 (ref.getD 1 0) ++
    natLe 1 (ref.getD 3 0) ++ natLe 1 c.cflags ++ natLe 4 (ref.getD 2 0) ++ natLe 8 c.elem0 ++ natLe 4 c.contrib ++
    natLe 4 (ref.getD 4 0) ++ zeros 8

/-- Passes a chunk up to the parent's module (R352). -/
def State.chunkUp (s : State) (i g : Nat) (pay data : List Byte) : State :=
  let up := s.neighbour s.node (s.fld (fdTreeinfoA i g) fdTreeinfoParent)
  s.route i (msgBeads ⟨mkHead 3 2 up 15 (s.fld (fdSlicedirA i) fdSlicedirSlice) g 0, pay⟩ data) 7 false

/-- The MC message of a chunk. -/
def State.mcMsg (s : State) (i g : Nat) (pay data : List Byte) : Msg :=
  ⟨⟨mkHead 5 2 0 15 (s.fld (fdSlicedirA i) fdSlicedirSlice) g 0, pay⟩, data⟩

/-! ### Delivery (R352, R357, R359) -/

/-- Marks a chunk delivered or failed at a member. -/
def State.credit (s : State) (i n ctx cseq add left : Nat) : State :=
  { s with colls := s.colls.map (fun k =>
      if k.entry = i ∧ k.coll = n then
        { k with members := k.members.map (fun m =>
            if m.ctx = ctx ∧ m.cseq = cseq then { m with left := left, bits := m.bits ||| add } else m) }
      else k) }

/-- Bytes of one output element of a member's command. -/
def outElemOf (o : Opc) (fmt : Nat) : Nat := if o = .allreduce ∨ o = .reduce then collOutElem fmt else collElem (bits fmt 0 4)

/-- The delivery of one output chunk to a member (R359). A MISMATCH ends what the member is owed (R281). -/
def State.deliverTo (s : State) (i n : Nat) (m : CollMember) (pay data : List Byte) : State :=
  match (s.ctx m.ctx).cmd m.cseq with
  | none => s
  | some c =>
    if m.left = 0 then s
    else
      let o := c.opc.getD .barrier
      let cf := leAt pay 35 1
      let miss := cf.testBit 1
      let left := if miss then 0 else m.left - 1
      if cf.testBit 0 || decide (crc32c data ≠ leAt pay 24 4) then
        (s.countCtx m.ctx 0x052 1).credit i n m.ctx m.cseq (1 + 2 * b2n miss) left
      else
        let e := outElemOf o (par c.packet 0 1)
        let off := leAt pay 40 8 * e
        let room := sumNat (((s.cmdRegions m.ctx c).filter (fun r => decide (r.role ≠ .input))).map (·.size))
        let w := s.storeBy (some (m.ctx, m.cseq)) (par c.packet 16 8 + off) (data.take (room - off))
        let s1 := if w.st.records m.ctx 3 then
            w.st.recPut (partOf m.ctx) 9 m.cseq (natLe 8 (leAt pay 40 8) ++ natLe 2 data.length ++ natLe 1 cf ++ zeros 5 ++ data)
          else w.st
        s1.credit i n m.ctx m.cseq (b2n w.bad) left

/-- The delivery of an output chunk at this module: to the partitions of the group entry (R338, R357). While one of them has not
started its command, the chunk is kept for it (R339). -/
def State.deliver (s : State) (i n g : Nat) (pay data : List Byte) : State :=
  let parts := bits (s.groupEntry i g) 6 12
  let q := s.coll i n
  let s := if (List.range 12).any (fun p => parts.testBit p && !q.members.any (fun m => decide (partOf m.ctx = p))) then
      s.setColl { q with group := if q.ref.isNone then g else q.group, kept := q.kept ++ [(pay, data)] }
    else s
  ((s.coll i n).members.filter (fun m => parts.testBit (partOf m.ctx))).foldl (fun s m => s.deliverTo i n m pay data) s

/-- Sends a chunk down the tree from this module and delivers it here. -/
def State.chunkDown (s : State) (i n g : Nat) (pay data : List Byte) : State :=
  ((s.replicate i 7 (s.mcMsg i g pay data) false)).deliver i n g pay data

/-- Disagreeing fields: every local member is failed, and a FAIL chunk with MISMATCH goes to the parent, or down from the root
(R281, R358). -/
def State.mismatch (s : State) (i n : Nat) (k : Nat) : State :=
  let q := s.coll i n
  if q.mism then s
  else
    let s1 := { s.setColl { q with mism := true, members := q.members.map (fun m => { m with left := 0, bits := m.bits ||| 3 }) } with
      folds := s.folds.filter (fun f => !decide (f.entry = i ∧ f.coll = n)) }
    let ref := q.ref.getD [1, 0, 0, q.group, 0, n]
    let pay := s1.chunkPay ref ⟨0xFF, true, 0, k, 3, 0, 0, []⟩
    if s1.flag (fdTreeinfoA i q.group) fdTreeinfoRoot then
      (if ref.getD 0 0 = 2 then s1 else s1.chunkDown i n q.group pay [])
    else s1.chunkUp i q.group pay []

/-! ### Completion (R361, R362, R365, R366) -/

/-- NEXT_COLL rises by one, and the finished collective's record goes (R362). -/
def State.nextUp (s : State) (i n : Nat) : State :=
  { s with
    colls := s.colls.filter (fun k => !decide (k.entry = i ∧ k.coll = n)),
    folds := s.folds.filter (fun f => !decide (f.entry = i ∧ f.coll = n)) }.setFld (fdCollstatA i) fdCollstatNextColl (n + 1)

/-- The retirement of one member on DONE (R361). -/
def State.memberDone (s : State) (m : CollMember) (status : Nat) : State :=
  match (s.ctx m.ctx).cmd m.cseq with
  | none => s
  | some c =>
    let aux := c.moved + b2n (status.testBit 1) * 2 ^ 63
    if m.bits.testBit 2 then s.finish m.ctx m.cseq .droppedBadData (mkDetail 0 5) aux
    else if status ≠ 0 then s.finish m.ctx m.cseq .droppedChunk (mkDetail 0xFF 6) aux
    else s.finish m.ctx m.cseq .ok noDetail c.moved

/-- DONE applied at this module (R361, R362). -/
def State.collDone (s : State) (i n status : Nat) : State :=
  ((s.coll i n).members.foldl (fun s m => s.memberDone m status) s).nextUp i n

/-- The release of a barrier applied at this module (R367); the first one of a MODE 2 tree arms it (R369). -/
def State.release (s : State) (i n : Nat) : State :=
  let q := s.coll i n
  let s1 := q.members.foldl (fun s m => s.finish m.ctx m.cseq .ok noDetail 0) s
  let s2 := if s1.fld (fdTreedefA i q.group) fdTreedefMode = 2 then s1.setFld (fdTreeinfoA i q.group) fdTreeinfoArmed 1 else s1
  s2.nextUp i n

/-- Whether GTIME is disciplined (R375). -/
def State.disciplined (s : State) : Bool := s.flag gtDiscstatA gtDiscstatDisciplined

/-- A RELEASE as it reaches this module: the comparator takes it, or it applies at once and counts as late where this module has
members (R367). -/
def State.releaseAt (s : State) (i n at_ : Nat) : State :=
  if s.gtime ≤ at_ && s.disciplined then s.setColl { s.coll i n with release := some at_ }
  else
    let s1 := if (s.coll i n).members.isEmpty then s else (s.addSat (fdCollstatA i) fdCollstatLate 1).raise (32 * 90 + 3)
    s1.release i n

/-- The BAR_UP payload of a report (R365). -/
def State.barPay (s : State) (g op seq nb contrib status lead root : Nat) : List Byte :=
  natLe 2 s.node ++ natLe 1 g ++ natLe 1 op ++ natLe 4 seq ++ natLe 8 nb ++ natLe 4 contrib ++ natLe 1 status ++ zeros 3 ++
    natLe 4 lead ++ natLe 4 root ++ zeros 32

/-- The BAR_DOWN bead of a group. -/
def State.barDownBead (s : State) (i g : Nat) (pay : List Byte) : Bead :=
  ⟨mkHead 10 4 0 15 (s.fld (fdSlicedirA i) fdSlicedirSlice) g 0, pay⟩

/-- The report of this module's subtree, folded (R361, R366). -/
structure Report where
  /-- Some input is an END. -/
  isEnd : Bool
  /-- Largest NOT_BEFORE. -/
  nb : Nat
  /-- Members accounted for. -/
  contrib : Nat
  /-- Status bits. -/
  status : Nat
  /-- Release lead. -/
  lead : Nat
  /-- The common ROOT. -/
  root : Nat
  deriving DecidableEq, Repr

/-- NOT_BEFORE of a member's BARRIER (R364). -/
def State.notBefore (s : State) (m : CollMember) : Nat :=
  match (s.ctx m.ctx).cmd m.cseq with
  | some c => if c.opc = some .barrier then par c.packet 8 8 else 0
  | none => 0

/-- The ROOT that a member reports, and whether its report is an END. -/
def State.memberRoot (s : State) (m : CollMember) : Bool × Nat :=
  match (s.ctx m.ctx).cmd m.cseq with
  | some c => (decide (c.opc ≠ some .barrier), (collRef (c.opc.getD .barrier) c.packet).getD 4 0)
  | none => (false, 0)

/-- The fold of the reports of a collective's members and children (R361, R366). -/
def State.fold (s : State) (q : Coll) : Report :=
  let ms := q.members
  let ends := ms.map s.memberRoot ++ q.kids.map (fun x => (decide (leAt x.2 3 1 = 1), bits (leAt x.2 28 4) 0 20))
  let isEnd := q.mism || ends.any (·.1)
  let roots := ends.map (·.2)
  let differ := ends.any (fun x => decide (x.1 ≠ (ends.headD (false, 0)).1)) || roots.any (fun r => decide (r ≠ roots.headD 0))
  let st := (ms.map (·.bits) ++ q.kids.map (fun x => leAt x.2 20 1)).foldl (· ||| ·) 0
  ⟨isEnd, maxNat (ms.map s.notBefore ++ q.kids.map (fun x => leAt x.2 8 8)),
   ms.length + sumNat (q.kids.map (fun x => leAt x.2 16 4)),
   if isEnd && (q.mism || differ) then st ||| 2 else st,
   maxNat (q.kids.map (fun x => leAt x.2 24 4 + s.fld (lxStatA x.1) lxStatRttNs / 2 + 60)),
   roots.headD 0⟩

/-- Whether a collective runs on TRAY_SYNC: an armed MODE 2 tree and a BARRIER without NOT_BEFORE at every member (R369). -/
def State.onTray (s : State) (q : Coll) : Bool :=
  decide (s.fld (fdTreedefA q.entry q.group) fdTreedefMode = 2) && s.flag (fdTreeinfoA q.entry q.group) fdTreeinfoArmed &&
    !q.members.isEmpty && q.members.all (fun m => !(s.memberRoot m).1 && decide (s.notBefore m = 0)) && !q.mism && q.kids.isEmpty

/-- Reports upward, or ends the collective at the root, once every member partition and every child link has reported (R361,
R366); on TRAY_SYNC the module stops driving the line (R369). -/
def State.collStep (s : State) (i n : Nat) : State :=
  let q := s.coll i n
  let g := q.group
  let info := s.reg (fdTreeinfoA i g)
  let parts := bits (s.groupEntry i g) 6 12
  let here := (List.range 12).all (fun p => !parts.testBit p ||
    q.members.any (fun m => decide (partOf m.ctx = p) && decide (m.left = 0)))
  if q.sentUp || !here then s
  else if s.onTray q then (s.setColl { q with sentUp := true, tray := true }).driveSync false
  else if !(List.range 6).all (fun l => !(fget info fdTreeinfoChildren).testBit l || q.kids.any (fun x => decide (x.1 = l))) then s
  else
    let r := s.fold q
    let seq := (q.ref.getD []).getD 5 n
    let s1 := s.setColl { q with sentUp := true }
    if fget info fdTreeinfoRoot = 0 then
      let up := s.neighbour s.node (fget info fdTreeinfoParent)
      s1.route i [⟨mkHead 9 4 up 15 (s.fld (fdSlicedirA i) fdSlicedirSlice) g 0,
        s.barPay g (b2n r.isEnd) seq r.nb r.contrib r.status r.lead (if r.isEnd then r.root else 0)⟩] 7 false
    else if r.contrib ≠ fget info fdTreeinfoContrib then s
    else if r.isEnd then
      (s1.replicate i 7 ⟨s.barDownBead i g (s.barPay g 1 seq 0 r.contrib r.status 0 0), []⟩ false).collDone i n r.status
    else
      let at_ := max r.nb (s.gtime + r.lead + 100)
      (s1.replicate i 7 ⟨s.barDownBead i g (s.barPay g 0 seq at_ r.contrib r.status 0 0), []⟩ false).releaseAt i n at_

/-! ### Folding (R353 to R355, R358) -/

/-- The sum of two elements of an IEEE format under RNE, with the signed-zero rules of R354. -/
def foldElem (f : Fmt) (a b : Nat) : Nat :=
  let x := decodeElem f a
  let y := decodeElem f b
  let top := 2 ^ (f.width - 1)
  let bothNegZero := decide (a = top) && decide (b = top)
  if bothNegZero then top
  else roundResult f ⟨.rne, false, 0⟩ ((Accu.zero.add x).add y).result

/-- Two running values of one element combined (R354). -/
def foldPair (fc : Nat) (a b : List Byte) : List Byte :=
  match fc with
  | 8 => natLe 2 (foldElem .bf16 (leNat a) (leNat b))
  | 10 => natLe 4 (foldElem .fp32 (leNat a) (leNat b))
  | 12 => natLe 4 (leNat a + leNat b)
  | _ => ((Accu.ofBytes a).combine (Accu.ofBytes b)).bytes

/-- Two chunks combined element by element. -/
def foldChunk (fc : Nat) (a b : List Byte) : List Byte :=
  let w := collElem fc
  (List.range (a.length / w)).flatMap (fun j => foldPair fc ((a.drop (w * j)).take w) ((b.drop (w * j)).take w))

/-- The folded chunk of exact partials rounded once at the root (R355). -/
def roundChunk (fmt rnd seed step elem0 : Nat) (a : List Byte) : List Byte :=
  let f := (Fmt.ofCode (bits fmt 4 4)).getD .exact
  let o : OutSpec := ⟨f, (RMode.ofCode (bits rnd 0 3)).getD .rne, rnd.testBit 3, seed, step⟩
  (List.range (a.length / 80)).flatMap (fun j =>
    natLe (f.width / 8) (roundResult f (o.at_ 0 (elem0 + j)) (Accu.ofBytes ((a.drop (80 * j)).take 80)).result))

/-- RUSTAT of the unit that folds chunk `k` (R353). -/
def ruStatA (k : Nat) : Nat := fdRustatA (k % 4) (k / 4 % 2)

/-- The inputs that a chunk needs: one of each member partition and one of each child link (R354). -/
def State.foldNeed (s : State) (i g : Nat) : Nat :=
  let e := s.groupEntry i g
  ((List.range 12).filter (fun p => e.testBit (6 + p))).length + ((List.range 6).filter (fun l => e.testBit l)).length

/-- Inserts an input in ascending SRANK. -/
def foldInsert (f : FoldIn) : List FoldIn → List FoldIn
  | [] => [f]
  | x :: xs => if x.srank ≤ f.srank then x :: foldInsert f xs else f :: x :: xs

/-- Whether a partition of this module has a given rank (R337). -/
def State.isRank (s : State) (i p r : Nat) : Bool := decide (s.rankOf i p = some r)

/-- The members of a collective whose partition has a given rank. -/
def State.membersAt (s : State) (i n r : Nat) : List CollMember :=
  (s.coll i n).members.filter (fun m => s.isRank i (partOf m.ctx) r)

/-- The command of a collective that the root rank's context issued at this module, if it runs here (R355). -/
def State.rootCmd (s : State) (i n : Nat) : Option Cmd :=
  let q := s.coll i n
  ((q.members.filterMap (fun m => ((s.ctx m.ctx).cmd m.cseq).map (fun c => (m.ctx, c)))).find? (fun x =>
    decide (s.rankOf i (partOf x.1) = some (s.collRoot (x.2.opc.getD .barrier) x.1 x.2.packet)))).map (·.2)

/-- CHUNK_FOLD (R352 to R355, R357, R358). -/
def execChunkFold (now entry coll chunk : Nat) (s : State) : Host.Outcome State Fault Refusal :=
  .next (let s0 := s.advance now
    let q := s0.coll entry coll
    let g := q.group
    let ins := (s0.folds.filter (fun f => decide (f.entry = entry ∧ f.coll = coll ∧ f.chunk = chunk))).foldl
      (fun acc f => foldInsert f acc) []
    if ins.isEmpty ∨ ins.length < s0.foldNeed entry g then s0
    else
      let s1 := { s0 with folds := s0.folds.filter (fun f => !decide (f.entry = entry ∧ f.coll = coll ∧ f.chunk = chunk)) }
      let ref := q.ref.getD []
      let ru := ruStatA chunk
      let odd := ins.filter (fun f => decide (payRef f.pay ≠ ref))
      let failed : FoldIn → Bool := fun f => (leAt f.pay 35 1).testBit 0
      let badCrc := ins.filter (fun f => !failed f && decide (payRef f.pay = ref) && decide (crc32c f.data ≠ leAt f.pay 24 4))
      let s2 := ((((s1.addWrap ru fdRustatChunks 1).addSat ru fdRustatChkfail badCrc.length).addSat ru fdRustatMismatch
        odd.length).count none none 0x051 1).progress (ruKey (chunk % 4) (chunk / 4 % 2))
      let s2 := badCrc.foldl (fun s _ => s.raise (32 * 90 + 1)) s2
      let s2 := odd.foldl (fun s _ => s.raise (32 * 90 + 2)) s2
      let told := ins.any (fun f => (leAt f.pay 35 1).testBit 1)
      if !odd.isEmpty || told then (s2.mismatch entry coll chunk).collStep entry coll
      else
        let bad := !badCrc.isEmpty || ins.any failed
        let cf := (ins.map (fun f => leAt f.pay 35 1)).foldl (· ||| ·) 0
        let root := s2.flag (fdTreeinfoA entry g) fdTreeinfoRoot
        let fc := bits (ref.getD 1 0) 0 4
        let first := ins.headD ⟨0, 0, 0, 0, [], []⟩
        let elem0 := leAt first.pay 40 8
        let sum := if bad then [] else (ins.drop 1).foldl (fun a f => foldChunk fc a f.data) first.data
        let round := root && decide (fc = 15) && decide (bits (ref.getD 1 0) 4 4 ≠ 15)
        let out := if bad || !round then sum
          else match s2.rootCmd entry coll with
            | some c => roundChunk (ref.getD 1 0) (par c.packet 1 1) c.seed (par c.packet 32 4) elem0 sum
            | none => sum
        let pay := s2.chunkPay ref ⟨if ins.length = 1 then leAt first.pay 2 1 else 0xFF,
          ins.any (fun f => (leAt f.pay 3 1).testBit 0), first.srank, chunk,
          (if bad then cf ||| 1 else cf) ||| (if root then 8 else 0), elem0,
          sumNat (ins.map (fun f => leAt f.pay 48 4)), out⟩
        if !root then s2.chunkUp entry g pay out
        else if ref.getD 0 0 = 2 then
          -- REDUCE sends nothing down: the root rank's member takes the result (R357).
          ((s2.membersAt entry coll (ref.getD 4 0)).foldl (fun s m => s.deliverTo entry coll m pay out) s2).collStep entry coll
        else (s2.chunkDown entry coll g pay out).collStep entry coll)

/-! ### Starting a member (R351, R357, R360, R361, R364) -/

/-- Output chunks that a member is owed (R357). -/
def State.owed (s : State) (o : Opc) (i ctx : Nat) (pk : List Byte) : Nat :=
  let n := ceilDiv (par pk 4 4) (chunkElems (par pk 0 1))
  match o with
  | .allreduce => n
  | .reduce => if s.rankOf i (partOf ctx) = some (bits (par pk 24 4) 0 20) then n else 0
  | .bcast => n
  | .allgather => n * s.memberCount i
  | _ => 0

/-- A member's input chunks as they are read: the state, whether a corrected error occurred, whether a read met bad data, and
each chunk's bytes. -/
structure ReadIn where
  /-- State. -/
  st : State
  /-- A corrected error occurred. -/
  corr : Bool
  /-- A read met bad data. -/
  bad : Bool
  /-- Chunks with their bytes, none from a bad read on. -/
  out : List (Nat × Option (List Byte))
  deriving DecidableEq, Repr

/-- Reads one more chunk of a member's input, unless an earlier one met bad data (R351, R360). -/
def ReadIn.next (r : ReadIn) (pk : List Byte) (k : Nat) : ReadIn :=
  let e := chunkElems (par pk 0 1)
  let w := collElem (bits (par pk 0 1) 0 4)
  let lo := k * e
  let hi := min (lo + e) (par pk 4 4)
  if r.bad then { r with out := r.out ++ [(k, none)] }
  else
    let x := r.st.readMem 0 (par pk 8 8 + lo * w) ((hi - lo) * w)
    ⟨x.st, r.corr || x.corr, x.data.isNone, r.out ++ [(k, x.data)]⟩

/-- Sends one chunk of a member on its way (R352, R357). -/
def State.sendChunkOf (s : State) (o : Opc) (i n ctx : Nat) (c : Cmd) (rank : Nat) (q : Nat × Option (List Byte)) (total : Nat) : State :=
  let pk := c.packet
  let ref := collRef o pk
  let g := par pk 2 1
  let base := if o = .allgather then ((s.validRanks i).takeWhile (fun r => decide (r.1 < rank))).length * par pk 4 4 else 0
  let data := q.2.getD []
  let pay := s.chunkPay ref ⟨partOf ctx, decide (q.1 + 1 = total), rank, q.1, if q.2.isNone then 5 else 0,
    base + q.1 * chunkElems (par pk 0 1), 1, data⟩
  let s1 := (s.countCtx ctx 0x050 1).modCmd ctx c.cseq (fun k => { k with moved := k.moved + 1 })
  match o with
  | .allreduce | .reduce => { s1 with folds := s1.folds ++ [⟨i, n, q.1, rank, pay, data⟩] }
  | .bcast => s1.chunkDown i n g pay data
  | _ => if s1.flag (fdTreeinfoA i g) fdTreeinfoRoot then s1.chunkDown i n g pay data else s1.chunkUp i g pay data

/-- A replayed collective: DST from its COLL_OUT records, then the recorded result (R389). -/
def State.replayColl (s : State) (ctx : Nat) (c : Cmd) (o : Opc) : State :=
  match s.replayOf ctx with
  | none => s
  | some r =>
    let num := (c.cseq + r.delta) % two32
    let s1 := ((s.ringRecs r 0).filter (fun x => decide (x.kind = 9 ∧ x.cseq = num))).foldl (fun s x =>
      (s.store (some (ctx, c.cseq)) (par c.packet 16 8 + leAt x.pay 0 8 * outElemOf o (par c.packet 0 1))
        ((x.pay.drop 16).take (leAt x.pay 8 2)))) s
    s1.finishRecorded ctx c

/-- A kept chunk reaches a member that has now started. -/
def State.keptTo (s : State) (i n ctx : Nat) (x : List Byte × List Byte) : State :=
  match (s.coll i n).members.find? (fun m => decide (m.ctx = ctx)) with
  | some m => s.deliverTo i n m x.1 x.2
  | none => s

/-- The start of a collective or BARRIER at this module. -/
def State.collBody (s : State) (o : Opc) (ctx : Nat) (c : Cmd) : State :=
  if (s.replayOf ctx).isSome then s.replayColl ctx c o
  else
    match s.sliceEntry (s.ctxSlice ctx) with
    | none => s.finish ctx c.cseq .rejectedPerm (mkDetail 0xFF 0) 0
    | some i =>
      if s.flag (fdSlicedirA i) fdSlicedirAborted then s.finish ctx c.cseq .rejectedPerm (mkDetail 0xFF 0) 0
      else
        let n := s.nextOf i
        let pk := c.packet
        let rank := (s.rankOf i (partOf ctx)).getD 0
        let duo := (s.coll i n).meet (collRef o pk)
        let q := duo.1
        let ok := duo.2
        let me : CollMember := ⟨ctx, c.cseq, if q.mism then 0 else s.owed o i ctx pk, if q.mism then 3 else 0, s.fld (fdCollcfgA 0) fdCollcfgTimeoutMs⟩
        let s1 := (s.setColl { q with members := q.members ++ [me] }).issue ctx c.cseq 0
        let s1 : State := q.kept.foldl (fun s x => s.keptTo i n ctx x) s1
        let dead := !ok || q.mism
        let stop : State → State := fun s => if ok then s else s.mismatch i n 0
        let sends := match o with
          | .barrier => false
          | .bcast => decide (rank = bits (par pk 24 4) 0 20)
          | _ => true
        let total := ceilDiv (par pk 4 4) (chunkElems (par pk 0 1))
        if !sends then (stop s1).collStep i n
        else
          let r := (List.range total).foldl (fun r k => r.next pk k) (ReadIn.mk s1 false false [])
          let s2 := r.st.markCorr ctx c.cseq r.corr
          -- Where the fields disagree the member's chunks are sent and dropped (R358).
          let s3 : State := if dead then (s2.countCtx ctx 0x050 total).modCmd ctx c.cseq (fun k => { k with moved := k.moved + total })
            else r.out.foldl (fun s x => s.sendChunkOf o i n ctx c rank x total) s2
          let s4 : State := if r.bad then
              { s3 with colls := s3.colls.map (fun k => if k.entry = i ∧ k.coll = n then
                  { k with members := k.members.map (fun m =>
                      if m.ctx = ctx ∧ m.cseq = c.cseq then { m with bits := m.bits ||| 4 } else m) } else k) }
            else s3
          (stop s4).collStep i n

/-- ALLREDUCE (R357). -/
def execAllreduce (ctx cseq : Nat) (s : State) : Host.Outcome State Fault Refusal :=
  .next (s.withBody ctx cseq .allreduce (fun c => s.collBody .allreduce ctx c))

/-- REDUCE (R357). -/
def execReduce (ctx cseq : Nat) (s : State) : Host.Outcome State Fault Refusal :=
  .next (s.withBody ctx cseq .reduce (fun c => s.collBody .reduce ctx c))

/-- BCAST (R357). -/
def execBcast (ctx cseq : Nat) (s : State) : Host.Outcome State Fault Refusal :=
  .next (s.withBody ctx cseq .bcast (fun c => s.collBody .bcast ctx c))

/-- ALLGATHER (R357). -/
def execAllgather (ctx cseq : Nat) (s : State) : Host.Outcome State Fault Refusal :=
  .next (s.withBody ctx cseq .allgather (fun c => s.collBody .allgather ctx c))

/-- BARRIER (R364). -/
def execBarrier (ctx cseq : Nat) (s : State) : Host.Outcome State Fault Refusal :=
  .next (s.withBody ctx cseq .barrier (fun c => s.collBody .barrier ctx c))

/-! ### Arriving beads -/

/-- A message taken from a link end and screened: the state, the entry that governs it and whether it came sealed; none where the
link end does not hold it. A dropped one leaves no entry. -/
def State.screened (s : State) (n : Nat) (m : Msg) : Option (State × Option Nat × Bool) :=
  match s.takeMsg n m with
  | none => none
  | some (s1, sealed_) =>
    let duo := s1.screen n m.head sealed_
    let s2 := duo.1
    let e := duo.2
    some (s2, e, sealed_)

/-- RED_HEAD: a chunk from a child link (R352, R354, R357). -/
def execRedHead (now link : Nat) (m : Msg) (s : State) : Host.Outcome State Fault Refusal :=
  .next (let s0 := s.advance now
    if m.head.kind ≠ 3 then s0
    else
      match s0.screened link m with
      | none => s0
      | some (s1, none, _) => s1
      | some (s1, some i, sealed_) =>
        if !s1.forHere i m.head then s1.forward i link m sealed_
        else
          let n := s1.collNum i
          let y := m.head.pay
          let g := leAt y 34 1
          let duo := (s1.coll i n).meet (payRef y)
          let q := duo.1
          let s2 := s1.setColl q
          if leAt y 32 1 = 4 ∧ q.ref = some (payRef y) then
            (if s2.flag (fdTreeinfoA i g) fdTreeinfoRoot then (s2.chunkDown i n g y m.data).collStep i n
             else s2.chunkUp i g y m.data)
          else if (leAt y 35 1).testBit 1 then (s2.mismatch i n (leAt y 20 4)).collStep i n
          else if q.mism then s2
          else { s2 with folds := s2.folds ++ [⟨i, n, leAt y 20 4, bits (leAt y 4 4) 0 20, y, m.data⟩] })

/-- MC_HEAD: a chunk on its way down (R338, R339, R352, R359). -/
def execMcHead (now link : Nat) (m : Msg) (s : State) : Host.Outcome State Fault Refusal :=
  .next (let s0 := s.advance now
    if m.head.kind ≠ 5 then s0
    else
      match s0.screened link m with
      | none => s0
      | some (s1, none, _) => s1
      | some (s1, some i, sealed_) =>
        let n := s1.nextOf i
        ((s1.replicate i link m sealed_).deliver i n (m.head.group % 256) m.head.pay m.data).collStep i n)

/-- MULTICAST_REPLICATE: a multicast message of an entry that is no tree goes to every output it names (R338, R339); the spec
gives such a message no effect at a partition. -/
def execMulticastReplicate (link : Nat) (m : Msg) (s : State) : Host.Outcome State Fault Refusal :=
  .next (if !groupKind m.head.kind then s
    else
      match s.screened link m with
      | none => s
      | some (s1, none, _) => s1
      | some (s1, some i, sealed_) =>
        let mode := s1.fld (fdTreedefA i (m.head.group % 256)) fdTreedefMode
        if mode = 1 ∨ mode = 2 then s else s1.replicate i link m sealed_)

/-- BAR_UP: the report of a child (R361, R366). -/
def execBarUp (now link : Nat) (b : Bead) (s : State) : Host.Outcome State Fault Refusal :=
  .next (let s0 := s.advance now
    if b.kind ≠ 9 then s0
    else
      match s0.screened link ⟨b, []⟩ with
      | none => s0
      | some (s1, none, _) => s1
      | some (s1, some i, sealed_) =>
        if !s1.forHere i b then s1.forward i link ⟨b, []⟩ sealed_
        else
          let n := s1.collNum i
          let q := s1.coll i n
          let q := if q.ref.isNone then { q with group := leAt b.pay 2 1 } else q
          let q := { q with kids := q.kids.filter (fun x => decide (x.1 ≠ link)) ++ [(link, b.pay)] }
          (s1.setColl q).collStep i n)

/-- BAR_DOWN: a release or the end of a collective (R361, R367). -/
def execBarDown (now link : Nat) (b : Bead) (s : State) : Host.Outcome State Fault Refusal :=
  .next (let s0 := s.advance now
    if b.kind ≠ 10 then s0
    else
      match s0.screened link ⟨b, []⟩ with
      | none => s0
      | some (s1, none, _) => s1
      | some (s1, some i, sealed_) =>
        let s2 := s1.replicate i link ⟨b, []⟩ sealed_
        let n := s2.nextOf i
        if leAt b.pay 3 1 = 1 then s2.collDone i n (leAt b.pay 20 1)
        else s2.releaseAt i n (leAt b.pay 8 8))

/-- BARRIER_RELEASE: the comparator meets RELEASE_AT (R367). -/
def execBarrierRelease (now entry : Nat) (s : State) : Host.Outcome State Fault Refusal :=
  .next (let s0 := s.advance now
    match s0.colls.find? (fun k => decide (k.entry = entry) && !k.tray && k.release.any (fun t => decide (t ≤ s0.gtime))) with
    | some k => s0.release entry k.coll
    | none => s0)

/-- COLLECTIVE_TIMEOUT (R362), with AUX 0 under R254, since R282 gives the chunks sent on DROPPED_CHUNK alone. No link
is its origin, so ORIGIN_LINK is a free value (log entry 7). -/
def execCollectiveTimeout (now ctx cseq : Nat) (s : State) : Host.Outcome State Fault Refusal :=
  .next (let s0 := s.advance now
    match (s0.ctx ctx).cmd cseq with
    | none => s0
    | some c =>
      let lim := (((s0.colls.flatMap (·.members)).find? (fun m => decide (m.ctx = ctx ∧ m.cseq = cseq))).map (·.limit)).getD 0 * 1000000
      if !c.is Opc.isColl ∨ c.stage ≠ .started ∨ lim = 0 ∨ s0.gtime < c.tStart + lim ∨ (s0.replayOf ctx).isSome then s0
      else
        let s1 := s0.finish ctx cseq .timeout noDetail 0
        match s1.sliceEntry (s1.ctxSlice ctx) with
        | some i =>
          let duo := s1.drawNat
          let v := duo.1
          let s2 := duo.2
          s2.abortLocal i 10 (v % 16) (some (ctx, cseq))
        | none => s1)

/-- TRAY_SYNC_RISE: the line rises once no module of the tray drives it (R369, R370). -/
def execTraySyncRise (now : Nat) (s : State) : Host.Outcome State Fault Refusal :=
  .next (let s0 := s.advance now
    if s0.pins.traySync then s0
    else
      let s1 := s0.syncLine true
      match s1.colls.find? (fun k => k.tray && k.release.isNone) with
      | some k =>
        let s2 := k.members.foldl (fun s m => s.finish m.ctx m.cseq .ok noDetail 0) s1
        s2.setColl { k with members := [], release := some s2.gtime }
      | none => s1)

/-- TRAY_SYNC_REDRIVE: 200 ns after its detection the module drives the line low again and NEXT_COLL rises (R369). -/
def execTraySyncRedrive (now : Nat) (s : State) : Host.Outcome State Fault Refusal :=
  .next (let s0 := s.advance now
    match s0.colls.find? (fun k => k.tray && k.release.any (fun t => decide (t + 200 ≤ s0.gtime))) with
    | some k => (s0.driveSync true).nextUp k.entry k.coll
    | none => s0)

/-- SLICE_ABORT (R341): a cause that this module detects on a link. -/
def execSliceAbort (now entry cause link : Nat) (s : State) : Host.Outcome State Fault Refusal :=
  .next (let s0 := s.advance now
    if 64 ≤ entry ∨ 16 ≤ cause ∨ 6 ≤ link then s0 else s0.abortLocal entry cause link none)

end Sys2Proof.Machine
end

