-- ==== Sys2Proof/Machine/Units.lean ====
section
/-!
DEFINITION. What matrix engines and movers do with the descriptors that pips push: taking one, executing it, ending it, and
the acknowledgement timer (R96, R99, R101 to R107, R125 to R134, R282, R318).
-/

namespace Sys2Proof.Machine

/-! ### Matrix engines -/

/-- ME_DESCRIPTOR_START (R102, R282): an ME takes its oldest queued descriptor; none while the partition's MEs are held for a
collective. -/
def execMeDescriptorStart (tile me : Nat) (s : State) : Host.Outcome State Fault Refusal :=
  .next (let x := s.me tile me
    match x.queue with
    | [] => s
    | d :: ds =>
      if 24 ≤ tile ∨ !s.mePresent tile me ∨ x.cur.isSome ∨ x.rstAt.isSome ∨ !s.meUp tile me ∨ s.collRunning (tile / 2) then s
      else (s.setMe tile me { x with queue := ds, cur := some d }).progress (meUnit tile me))

/-- Ends a descriptor of an ME with a fault: its chain is discarded and the SIG left unapplied (R106). -/
def State.meStop (s : State) (t m code : Nat) (d : List Byte) : State :=
  let x := s.me t m
  (((s.setMe t m { x with cur := none, chain := none, acc := [] }).meFault t m code (dsc d 112 8)).progress (meUnit t m)).landMe t m

/-- Ends a descriptor of an ME well: DONE, the completion event, the SIG (R97, R101). -/
def State.meGood (s : State) (t m : Nat) (d : List Byte) : State :=
  let s1 := ((s.addWrap (meStatA t m) meStatDone 1).progress (meUnit t m)).dscSig d (dsc d 104 8)
  (if dscFlag d 3 then s1.raise (32 * (24 + t) + m) else s1).landMe t m

/-- ME_DESCRIPTOR_COMPLETE (R96 to R101, R106): the descriptor in execution reads, accumulates and, with LAST, writes out. -/
def execMeDescriptorComplete (tile me : Nat) (s : State) : Host.Outcome State Fault Refusal :=
  .next (let x := s.me tile me
    match if x.rstAt.isSome ∨ !s.meUp tile me then none else x.cur with
    | none => s
    | some d =>
      let first := dscFlag d 0
      let last := dscFlag d 1
      let ctx := dscCtx d
      let seqOk := first || (!dscFlag d 2 && x.chain.any (fun c => chainSame c d))
      if !seqOk then s.meStop tile me 7 d
      else
        let o := if first then s.meOpen d else ⟨s, some x.acc, false⟩
        match o.acc with
        | none => o.st.meStop tile me 5 d
        | some acc0 =>
          let r := o.st.meStream d acc0
          let s1 := r.st.markCorr ctx (dscCseq d) (o.corr || r.corr)
          match r.acc with
          | none => s1.meStop tile me 5 d
          | some acc1 =>
            let s2 := s1.meCounts ctx (dscFmts d).1 (dscFmts d).2 (dscM d) (dscK d)
            let y := s2.me tile me
            if last then
              let w := s2.meWrite d (some (ctx, dscCseq d)) acc1
              if w.bad then w.st.meStop tile me 5 d
              else (w.st.setMe tile me { y with cur := none, chain := none, acc := [] }).meGood tile me d
            else
              (s2.setMe tile me { y with
                cur := none, chain := if first then some d else y.chain, acc := acc1 }).meGood tile me d)

/-- ME_OWNER_CHANGE_LAND (R103). -/
def execMeOwnerChangeLand (tile me : Nat) (s : State) : Host.Outcome State Fault Refusal :=
  .next (if 24 ≤ tile ∨ 6 ≤ me then s else s.landMe tile me)

/-! ### Movers -/

/-- The index list that a descriptor in execution has read, kept behind its entry (R126). -/
def dscList (d : List Byte) : List Int := idxList (d.drop 134)

/-- The transfer of a mover descriptor in execution. -/
def dscXfer (d : List Byte) : Xfer := xferOf d (dscList d) (dsc d 120 8)

/-- Ends a descriptor of a mover with a fault (R106, R133). -/
def State.mvStop (s : State) (t j code : Nat) (d : List Byte) : State :=
  let x := s.mover t j
  (((s.setMover t j { x with cur := none, pos := 0, sent := [], result := 0, cut := false }).mvEnd t j code (dsc d 112 8)
    false).progress (mvUnit t j)).landMv t j

/-- MOVER_DESCRIPTOR_START (R102, R126, R334): a mover takes its oldest descriptor, reads its index list, and a remote one passes
the source checks. -/
def execMoverDescriptorStart (tile mv : Nat) (s : State) : Host.Outcome State Fault Refusal :=
  .next (let x := s.mover tile mv
    match x.queue with
    | [] => s
    | d :: ds =>
      if 24 ≤ tile ∨ 8 ≤ mv ∨ x.cur.isSome ∨ x.owner ≠ (0, 0) ∨ !s.domOn (3 * tile + 2) then s
      else
        let s1 := (s.setMover tile mv { x with
          queue := ds, cur := some d, pos := 0, sent := [], result := 0, cut := false }).progress (mvUnit tile mv)
        if (dsc d 1 1).testBit 2 ∧ !s1.remoteOk (dscCtx d) (dsc d 96 4) then s1.mvStop tile mv 4 d
        else if dsc d 0 1 = 3 ∨ dsc d 0 1 = 4 then
          let r := s1.readMem 0 (dsc d 88 8) (8 * dsc d 28 4)
          match r.data with
          | none => r.st.mvStop tile mv 5 d
          | some l => r.st.setMover tile mv { r.st.mover tile mv with cur := some (d ++ l) }
        else s1)

/-- Whether the row that an index names lies within the issuing context's rights (R129). -/
def State.rowOk (s : State) (d : List Byte) (x : Xfer) (i : Nat) : Bool :=
  if dsc d 0 1 = 3 then s.mayReach (dscCtx d) (x.srcOf i) x.slen
  else if dsc d 0 1 = 4 then (dsc d 1 1).testBit 2 || s.mayReach (dscCtx d) (x.dstOf i) x.dlen
  else true

/-- MOVER_CHUNK (R126 to R134): the next chunk of the descriptor in execution is read and written, or sent. -/
def execMoverChunk (now tile mv : Nat) (s : State) : Host.Outcome State Fault Refusal :=
  .next (let s0 := s.advance now
    let m := s0.mover tile mv
    match m.cur with
    | none => s0
    | some d =>
      let x := dscXfer d
      let total := x.rows * x.dlen
      if m.cut ∨ total ≤ m.pos ∨ x.dlen = 0 then s0
      else
        let remote := (dsc d 1 1).testBit 2
        let ctx := dscCtx d
        let e0 := x.chunkEnd m.pos total remote
        let r0 := m.pos / x.dlen
        let bad := ((List.range ((e0 - 1) / x.dlen + 1 - r0)).map (· + r0)).find? (fun i => !s0.rowOk d x i)
        let e := match bad with
          | some b => min e0 (b * x.dlen)
          | none => e0
        if e ≤ m.pos then
          (if remote then s0.setMover tile mv { m with cut := true, result := 4 } else s0.mvStop tile mv 4 d)
        else
          let r := s0.chunkRead x ctx m.pos e
          let s1 := r.st.markCorr ctx (dscCseq d) r.corr
          match r.data with
          | none => if remote then s1.setMover tile mv { s1.mover tile mv with cut := true, result := 5 } else s1.mvStop tile mv 5 d
          | some bs =>
            let s2 := s1.progress (mvUnit tile mv)
            if remote then
              let a := (x.dstOf r0 + ((m.pos % x.dlen : Nat) : Int)).toNat
              let s3 := s2.sendChunk ctx tile mv (dsc d 96 4) a (decide (e = total)) bs
              s3.setMover tile mv { s3.mover tile mv with pos := e }
            else
              let w := s2.chunkWrite x (some (ctx, dscCseq d)) ctx m.pos e bs
              if w.bad then w.st.mvStop tile mv 5 d
              else w.st.setMover tile mv { w.st.mover tile mv with pos := e })

/-- The fault code that a mover's descriptor ends with: a stop of its own first, then the acknowledgements (R133, R134; log entry
21). -/
def endCodeOf (result : Nat) : Nat := if result = 3 then 5 else result

/-- MOVER_DESCRIPTOR_COMPLETE (R125, R133): every byte is delivered and every message acknowledged. -/
def execMoverDescriptorComplete (tile mv : Nat) (s : State) : Host.Outcome State Fault Refusal :=
  .next (let m := s.mover tile mv
    match m.cur with
    | none => s
    | some d =>
      let x := dscXfer d
      if !m.sent.isEmpty ∨ (m.pos < x.rows * x.dlen ∧ !m.cut) then s
      else if m.result ≠ 0 then s.mvStop tile mv (endCodeOf m.result) d
      else
        let s1 := s.setMover tile mv { m with cur := none, pos := 0, cut := false }
        ((s1.mvEnd tile mv 0 (dsc d 112 8) ((dsc d 1 1).testBit 3)).dscSig d (dsc d 104 8)).landMv tile mv)

/-! ### Acknowledgements (R133, R318) -/

/-- The result of one ACK as a mover keeps it: RESULT 1 or 2 outweighs 3 (R133); a stop of its own stays. -/
def mvResult (old result : Nat) : Nat :=
  if old = 4 ∨ old = 5 then old
  else if result = 1 ∨ result = 2 then 6
  else if result = 3 ∧ old ≠ 6 then 3
  else old

/-- An ACK reaches its mover (R133): the message is no longer outstanding. A decoder's transfer ends with its last one. -/
def State.ackMover (s : State) (t j seq result : Nat) : State :=
  let x := s.mover t j
  match x.sent.find? (fun m => decide (m.seq = seq)) with
  | none => s
  | some m =>
    let s1 := (s.setMover t j { x with
      sent := dropFirst (fun k => decide (k.seq = seq)) x.sent, result := mvResult x.result result }).progress (mvUnit t j)
    if x.owner.2 = 0 then s1
    else
      let ctx := x.owner.1
      let cs := x.owner.2 - 1
      let code := mvResult 0 result
      let s2 := s1.modCmd ctx cs (fun k => { k with
        left := k.left - 1, moved := if result = 0 then k.moved + m.len else k.moved,
        fault := if k.fault = 5 then 5 else mvResult k.fault (if code = 6 then 1 else if code = 3 then 3 else 0) })
      match (s2.ctx ctx).cmd cs with
      | none => s2
      | some k =>
        let s3 := s2.decMvEnd ctx k t j
        if k.left = 0 ∧ k.stage = .started then s3.remoteDone ctx k else s3

/-- ACK_TIMEOUT (R133, R134, R318): the mover stops with CHUNK, and a command that issued the transfer retires with TIMEOUT. A
mover that has stopped of its own already only waits for its other messages. -/
def execAckTimeout (now tile mv msgseq : Nat) (s : State) : Host.Outcome State Fault Refusal :=
  .next (let s0 := s.advance now
    let x := s0.mover tile mv
    match x.sent.find? (fun m => decide (m.seq = msgseq ∧ m.time + 1000 * m.limit ≤ s0.gtime)) with
    | none => s0
    | some _ =>
      if x.cut then
        s0.setMover tile mv { x with sent := dropFirst (fun k => decide (k.seq = msgseq)) x.sent }
      else if x.owner.2 = 0 then
        match x.cur with
        | some d => s0.mvStop tile mv 6 d
        | none => s0
      else
        let ctx := x.owner.1
        let cs := x.owner.2 - 1
        match (s0.ctx ctx).cmd cs with
        | none => s0
        | some c =>
          if c.fault = 5 then s0.ackMover tile mv msgseq 4
          else
          let s1 := s0.mvEnd tile mv 6 (pTag c.packet) false
          (s1.stopCmd ctx c).finish ctx cs .timeout (mkDetail 0xFF 6) 0)

end Sys2Proof.Machine
end

