-- ==== Sys2Proof/Machine/Xmei.lean ====
section
/-!
DEFINITION. What a pip instruction does to the rest of the module: the XMEI instructions, a load or a store, and a read of the
`time` CSR (R115 to R124). Operands name registers; the instructions of RV64GCV themselves are outside the model (log entry 14).
-/

namespace Sys2Proof.Machine

/-! ### The hart -/

/-- PIP.CTL.CTX of a hart (R142). -/
def State.pipCtx (s : State) (t h : Nat) : Nat := s.fld (pipCtlA t h) pipCtlCtx

/-- Whether a hart executes instructions now: it is present and powered, in no reset and waits in no `clasp.wait`. -/
def State.pipRuns (s : State) (t h : Nat) : Bool :=
  decide (t < 24) && s.hartPresent t h && s.domOn (3 * t + 2) && (s.hart t h).wait.isNone && (s.hart t h).rstAt.isNone

/-- A trap of a hart with a RISC-V exception cause; `bad` says that it was a load of bad data (R111). -/
def State.pipTrap (s : State) (t h cause : Nat) (bad : Bool) : State :=
  s.setHart t h { s.hart t h with trap := cause + 1, badLoad := bad }

/-- Writes a hart's register. -/
def State.pipPut (s : State) (t h rd v : Nat) : State := s.setHart t h ((s.hart t h).put rd v)

/-- CSEQ of the command a hart's work counts for: its kernel's, or the context's last retired one where it runs no kernel of that
context. -/
def State.pipCseq (s : State) (t h : Nat) : Nat :=
  let c := s.pipCtx t h
  match (s.hart t h).job with
  | some (ctx, cseq) => if ctx = c then cseq else (s.ctx c).lastDone.toNat
  | none => (s.ctx c).lastDone.toNat

/-- Runs an XMEI instruction on a hart that executes: an invalid PIP.CTL.CTX is an illegal instruction (R117). -/
def State.xmei (s : State) (t h : Nat) (f : Nat → State) : State :=
  if !s.pipRuns t h then s
  else if 800 ≤ s.pipCtx t h then s.pipTrap t h 2 false
  else f (s.pipCtx t h)

/-- Translation of [`a`, `a + n`): a kernel's mappings, at the 4 KiB pages of Sv48, are at virtual addresses equal to the physical
ones (R273); a hart without a kernel runs untranslated. -/
def Hart.translates (x : Hart) (a n : Nat) : Bool :=
  x.job.isNone || (List.range ((a + n + 4095) / 4096 - a / 4096)).all (fun i =>
    x.maps.any (fun m => decide (m.2.1 / 4096 ≤ a / 4096 + i) && decide (4096 * (a / 4096 + i) < m.2.1 + m.2.2.1)))

/-- Whether a pip of tile `t` reaches [`a`, `a + n`) with its context's rights (R37, R115). -/
def State.pipReaches (s : State) (t c a n : Nat) : Bool := decide (c < 768) && decide (partOf c = t / 2) && s.mayReach c (a : Nat) n

/-! ### Push checks (R98, R106, R125, R129, R130) -/

/-- Whether a descriptor's SIG names a clasp within the context's rights. -/
def State.sigOk (s : State) (c f : Nat) : Bool :=
  decide (clVal f = 0) || (decide (clIdx f < claspCount (claspTab c)) && s.mayClasp c (clIdx f))

/-- The planes of an ME descriptor: A, B, C and their scale planes. -/
def mePlanes (d : List Byte) (fa fb fc : Fmt) : List (Int × Nat) :=
  [planeRange (dsc d 16 8) (dscM d) (rowBytes fa (dscK d)) (dsc d 64 4),
   planeRange (dsc d 32 8) (dscN d) (rowBytes fb (dscK d)) (dsc d 68 4),
   planeRange (dsc d 48 8) (dscM d) (rowBytes fc (dscN d)) (dsc d 72 4)] ++
  (if fa.isMx then [planeRange (dsc d 24 8) (dscM d) (scaleBytes fa (dscK d)) (dsc d 76 4)] else []) ++
  (if fb.isMx then [planeRange (dsc d 40 8) (dscN d) (scaleBytes fb (dscK d)) (dsc d 80 4)] else []) ++
  (if fc.isMx then [planeRange (dsc d 56 8) (dscM d) (scaleBytes fc (dscN d)) (dsc d 84 4)] else [])

/-- The push check of an ME descriptor: the fault code, 0 where it passes (R106). -/
def State.meCheck (s : State) (t c : Nat) (d : List Byte) : Nat :=
  match mvFmts (dsc d 1 1), Fmt.ofCode (bits (dsc d 2 1) 0 4) with
  | some (fa, fb), some fc =>
    if dsc d 0 1 ≠ 1 ∨ !pairingOk fa fb ∨ !outOk fa fb (dsc d 2 1) ∨ bits (dsc d 3 1) 4 4 ≠ 0 ∨ dsc d 120 8 ≠ 0 then 1
    else if !([dsc d 16 8, dsc d 32 8, dsc d 48 8, dsc d 64 4, dsc d 68 4, dsc d 72 4].all (aligned 8)) ∨
        (fc = .exact ∧ (!aligned 16 (dsc d 48 8) ∨ !aligned 16 (dsc d 72 4))) ∨ (fc.isMx ∧ !aligned 32 (dsc d 92 4)) then 2
    else if dscM d < 1 ∨ 128 < dscM d ∨ dscN d < 1 ∨ 128 < dscN d ∨ dscK d < 1 ∨ 2 ^ 24 < dscK d ∨
        ((fa.isMx ∨ fb.isMx) ∧ !aligned 32 (dscK d)) then 3
    else if !(mePlanes d fa fb fc).all (fun r => s.pipReaches t c r.1.toNat r.2 && decide (0 ≤ r.1) &&
          inTileOf t r.1.toNat) ∨ !s.sigOk c (dsc d 104 8) then 4
    else 0
  | _, _ => 1

/-- Whether a range touches memory of another partition: a remote endpoint (R128). -/
def touchesRemote (p : Nat) (r : Int × Nat) : Bool :=
  match regionOf r.1.toNat with
  | .hbm q => decide (0 ≤ r.1) && decide (q ≠ p)
  | .tile t => decide (0 ≤ r.1) && decide (t / 2 ≠ p)
  | _ => false

/-- A local range within the rights of the pushing pip's context. -/
def State.pushReach (s : State) (t c : Nat) (r : Int × Nat) : Bool := decide (0 ≤ r.1) && s.pipReaches t c r.1.toNat r.2

/-- The push check of a mover descriptor: the fault code, 0 where it passes (R106, R125, R128 to R130). -/
def State.mvCheck (s : State) (t c : Nat) (d : List Byte) : Nat :=
  let p := dsc d
  let op := p 0 1
  let conv := (p 1 1).testBit 1
  let remote := (p 1 1).testBit 2
  let listed := op = 3 ∨ op = 4
  let convBad := conv && (decide (op = 2) || (RMode.ofCode (bits (p 3 1) 0 3)).isNone ||
    (match mvFmts (p 2 1) with
    | some (a, b) => !moverConvOk a b
    | none => true))
  let exactSrc := conv && decide (bits (p 2 1) 0 4 = 15)
  let wholeElems := !conv || (match mvFmts (p 2 1) with
    | some (a, _) => decide (p 24 4 % (a.width / 8) = 0)
    | none => true)
  let cnts := [p 28 4, p 32 4, p 36 4]
  let srcRange := if op = 4 then boundRange (p 8 8) (p 24 4) [(p 28 4, sext 64 (p 40 8))]
    else boundRange (p 8 8) (p 24 4) (mvDims p false)
  let dstRange := if op = 3 then boundRange (p 16 8) (mvDstLen p) [(p 28 4, sext 64 (p 64 8))]
    else boundRange (p 16 8) (mvDstLen p) (mvDims p true)
  if op < 1 ∨ 4 < op ∨ bits (p 1 1) 4 4 ≠ 0 ∨ bits (p 3 1) 4 4 ≠ 0 ∨ p 4 4 ≠ 0 ∨ bits (p 96 4) 24 8 ≠ 0 ∨ convBad ∨
      (remote ∧ 11 < bits (p 96 4) 20 4) then 1
  else if exactSrc ∧ (!aligned 16 (p 8 8) ∨ (mvDims p false).any (fun d => decide (1 < d.1 ∧ d.2 % 16 ≠ 0))) then 2
  else if p 24 4 < 1 ∨ cnts.any (fun n => decide (n < 1) || decide (2 ^ 24 < n)) ∨
      (listed ∧ (p 32 4 ≠ 1 ∨ p 36 4 ≠ 1)) ∨ !wholeElems then 3
  else if op ≠ 2 ∧ touchesRemote (t / 2) srcRange then 9
  else if (op = 1 ∨ op = 4) ∧ !s.pushReach t c srcRange then 4
  else if !remote ∧ op ≠ 4 ∧ !s.pushReach t c dstRange then 4
  else if listed ∧ !s.pushReach t c ((p 88 8 : Nat), 8 * p 28 4) then 4
  else if !s.sigOk c (p 104 8) then 4
  else 0

/-! ### Pushes (R118, R119) -/

/-- Reads a descriptor through the pip's translation and hands it on; a trap leaves everything else as it is. -/
def State.pushRead (s : State) (t h c a : Nat) (f : State → List Byte → State) : State :=
  if !aligned 128 a then s.pipTrap t h 4 false
  else if !(s.hart t h).translates a 128 then s.pipTrap t h 13 false
  else if !s.pipReaches t c a 128 then s.pipTrap t h 5 false
  else
    let r := s.readMem 0 a 128
    match r.data with
    | none => r.st.pipTrap t h 5 true
    | some d => f r.st d

/-- MEQ_PUSH (R102, R105, R106, R118). -/
def execMeqPush (tile hart rd rs1 rs2 : Nat) (s : State) : Host.Outcome State Fault Refusal :=
  .next (s.xmei tile hart (fun c =>
    let m := (s.hart tile hart).get rs2
    s.pushRead tile hart c ((s.hart tile hart).get rs1) (fun s d =>
      let code := s.meCheck tile c d
      let x := s.me tile m
      if 6 ≤ m ∨ !s.mePresent tile m then s.pipPut tile hart rd 3
      else if !s.mePip tile m ∨ !s.meUp tile m then s.pipPut tile hart rd 2
      else if code ≠ 0 then s.pipPut tile hart rd (4 + 256 * code)
      else if 16 ≤ x.queue.length then s.pipPut tile hart rd 1
      else (s.setMe tile m { x with queue := x.queue ++ [entryOf d c (s.pipCseq tile hart)] }).pipPut tile hart rd 0)))

/-- MVQ_PUSH (R106, R118, R125). -/
def execMvqPush (tile hart rd rs1 rs2 : Nat) (s : State) : Host.Outcome State Fault Refusal :=
  .next (s.xmei tile hart (fun c =>
    let j := (s.hart tile hart).get rs2
    s.pushRead tile hart c ((s.hart tile hart).get rs1) (fun s d =>
      let code := s.mvCheck tile c d
      let x := s.mover tile j
      if 8 ≤ j then s.pipPut tile hart rd 3
      else if !s.mvPip tile j then s.pipPut tile hart rd 2
      else if code ≠ 0 then s.pipPut tile hart rd (4 + 256 * code)
      else if 32 ≤ x.queue.length then s.pipPut tile hart rd 1
      else (s.setMover tile j { x with queue := x.queue ++ [entryOf d c (s.pipCseq tile hart)] }).pipPut tile hart rd 0)))

/-! ### Clasps (R120 to R122) -/

/-- Whether a pip's clasp index is valid and within its context's rights (R122). -/
def State.pipClasp (s : State) (t c i : Nat) : Bool :=
  decide (c < 768) && decide (partOf c = t / 2) && decide (i < 4096) && s.mayClasp c i

/-- Marks the undo entries that a hart has observed (R575). -/
def State.pipObserve (s : State) (t h c i : Nat) : State :=
  match s.replayOf c with
  | some _ => s
  | none => s.observe (claspTab c) i c (s.pipCseq t h)

/-- CLASP_WAIT (R120): `irq` says that an enabled interrupt is pending, which ends the wait with a trap; the instruction then starts
again on return. -/
def execClaspWait (now tile hart rd rs1 rs2 : Nat) (irq : Bool) (s : State) : Host.Outcome State Fault Refusal :=
  .next (let s := s.advance now
    let x := s.hart tile hart
    if irq ∧ x.wait.isSome ∧ tile < 24 then s.setHart tile hart { x with wait := none }
    else s.xmei tile hart (fun c =>
      let i := bits (x.get rs1) 0 20
      let v := bits (x.get rs2) 0 44
      if !s.pipClasp tile c i then s.pipTrap tile hart 5 false
      else if v ≤ s.ctxClasp c i then (s.pipPut tile hart rd 0).pipObserve tile hart c i
      else if irq then s
      else s.setHart tile hart { x with wait := some ⟨rd, i, v, s.gtime, s.fld (pipCtlA tile hart) pipCtlWaitlim⟩ }))

/-- CLASP_WAIT_TIMEOUT (R120). -/
def execClaspWaitTimeout (now tile hart : Nat) (s : State) : Host.Outcome State Fault Refusal :=
  .next (let s := s.advance now
    let x := s.hart tile hart
    match x.wait with
    | none => s
    | some w =>
      if 24 ≤ tile ∨ 32 ≤ hart ∨ s.gtime < w.since + 1000 * w.limit then s
      else s.setHart tile hart { x.put w.rd 1 with wait := none })

/-- CLASP_ADD (R121, R122). -/
def execClaspAdd (tile hart rd rs1 rs2 : Nat) (s : State) : Host.Outcome State Fault Refusal :=
  .next (s.xmei tile hart (fun c =>
    let x := s.hart tile hart
    let i := bits (x.get rs1) 0 20
    if !s.pipClasp tile c i then s.pipTrap tile hart 7 false
    else
      let prior := s.ctxClasp c i
      ((s.pipObserve tile hart c i).addClaspFor c (s.pipCseq tile hart) i (bits (x.get rs2) 0 44)).pipPut tile hart rd prior))

/-! ### Events, counters, loads and stores -/

/-- EVT_RAISE (R123): INFO is the global hart number (R511). -/
def execEvtRaise (tile hart rs1 : Nat) (s : State) : Host.Outcome State Fault Refusal :=
  .next (s.xmei tile hart (fun _ =>
    let i := (s.hart tile hart).get rs1
    if 31 < i then s.pipTrap tile hart 2 false
    else s.raiseInfo (32 * tile + i) (32 * (tile % 2) + hart)))

/-- CNT_SNAP (R124). -/
def execCntSnap (tile hart rd rs1 : Nat) (s : State) : Host.Outcome State Fault Refusal :=
  .next (s.xmei tile hart (fun c =>
    let x := s.hart tile hart
    let a := x.get rs1
    if !(s.ctx c).cntOn then s.pipPut tile hart rd 1
    else if !aligned 128 a then s.pipTrap tile hart 6 false
    else if !x.translates a 128 then s.pipTrap tile hart 15 false
    else if !inTileStore a ∨ !s.pipReaches tile c a 128 then s.pipTrap tile hart 7 false
    else
      let duo := s.cntLatchCtx c
      let vals := duo.1
      let s1 := duo.2
      let w := s1.storeBy (some (c, s1.pipCseq tile hart)) a (cntRecord s1.gtime c vals)
      if w.bad then w.st.pipTrap tile hart 7 false else w.st.pipPut tile hart rd 0))

/-- A read of the `time` CSR by a hart (R116): recorded with the hart's ordinal (R385), or answered from the recording (R389). -/
def State.pipTime (s : State) (t h : Nat) : State :=
  let c := s.pipCtx t h
  let p := partOf c
  let g := 32 * (t % 2) + h
  let r := s.recorder p
  let inJob := (s.hart t h).job.any (fun k => decide (k.1 = c ∧ c < 768))
  if inJob ∧ (s.replayOf c).isSome then
    let n := kvGet 0 r.reads g + 1
    let s1 := s.setRecorder p { r with reads := kvSet 0 r.reads g n }
    match (s.ringRecs r 0).find? (fun x => decide (x.kind = 10 ∧ leAt x.pay 0 2 = g ∧ leAt x.pay 4 4 = n)) with
    | some x => s1.answer (.bytes ((x.pay.drop 8).take 8))
    | none => (s1.diverge p 6 0 0 ((s.pipCseq t h + r.delta) % two32)).answer (.bytes (natLe 8 s.gtime))
  else if inJob ∧ s.records c 4 then
    let n := kvGet 0 r.reads g + 1
    ((s.setRecorder p { r with reads := kvSet 0 r.reads g n }).recPut p 10 (s.pipCseq t h)
      (natLe 2 g ++ zeros 2 ++ natLe 4 n ++ natLe 8 s.gtime)).answer (.bytes (natLe 8 s.gtime))
  else s.answer (.bytes (natLe 8 s.gtime))

/-- A pip's store: it reaches memory at once, or stands in the data cache while the memory holds its requests (R114, R162). -/
def State.pipStore (s : State) (t h c a : Nat) (bs : List Byte) : State :=
  let x := s.hart t h
  if s.unitHeld a then s.setHart t h { x with dirty := x.dirty ++ [(a, bs)] }
  else
    let w := s.storeBy (some (c, s.pipCseq t h)) a bs
    if w.bad then w.st.pipTrap t h 7 false else w.st

/-- The bytes that a hart's own cached stores give, laid over what memory holds. -/
def Hart.overlay (x : Hart) (a : Nat) (bs : List Byte) : List Byte :=
  x.dirty.foldl (fun bs d =>
    (bs.zip (List.range bs.length)).map (fun q =>
      if d.1 ≤ a + q.2 ∧ a + q.2 < d.1 + d.2.length then d.2.getD (a + q.2 - d.1) 0 else q.1)) bs

/-- PIP_ACCESS (R37, R39, R111, R115, R116): the answer of a load stands in `resp`; a store carries its bytes. -/
def execPipAccess (tile hart : Nat) (kind : PipOp) (addr len : Nat) (data : List Byte) (s : State) :
    Host.Outcome State Fault Refusal :=
  .next (
    let x := s.hart tile hart
    let c := s.pipCtx tile hart
    if !s.pipRuns tile hart then s
    else
      match kind with
      | .timeRead => s.pipTime tile hart
      | .load =>
        let a1 := x.get 11
        if x.job.isSome ∧ a1 ≤ addr ∧ addr + len ≤ a1 + x.args.length then
          s.answer (.bytes ((x.args.drop (addr - a1)).take len))
        else if !x.translates addr len then (s.pipTrap tile hart 13 false).answer .fault
        else if !s.pipReaches tile c addr len then (s.pipTrap tile hart 5 false).answer .fault
        else
          let r := s.readMem 0 addr len
          (match r.data with
          | none => (r.st.pipTrap tile hart 5 true).answer .fault
          | some bs => r.st.answer (.bytes (x.overlay addr bs)))
      | .store =>
        if !x.translates addr data.length then (s.pipTrap tile hart 15 false).answer .fault
        else if !s.pipReaches tile c addr data.length then (s.pipTrap tile hart 7 false).answer .fault
        else (s.pipStore tile hart c addr data).answer .none)

end Sys2Proof.Machine
end

