-- ==== Sys2Proof/Machine/TileReset.lean ====
section
/-!
DEFINITION. Resets within a tile, the unit fault queues, and the tile store's error counts and scrub (R110 to R112, R138 to R142).
-/

namespace Sys2Proof.Machine

/-- Whether a tile's pips, movers and stores are powered, and a writer reaches a register of it (R26, R37). -/
def State.tileReg (s : State) (t : Nat) (w : Writer) (a : Nat) : Bool :=
  decide (t < 24) && s.domOn (3 * t + 2) && mayReachReg w a

/-- PIP_RESET (R138, R139). -/
def execPipReset (now tile hart : Nat) (by_ : Writer) (s : State) : Host.Outcome State Fault Refusal :=
  .next (let s := s.advance now
    if !s.tileReg tile by_ (pipCtlA tile hart) ∨ !s.hartPresent tile hart ∨ (s.hart tile hart).rstAt.isSome then s
    else s.hartReset tile hart)

/-- PIP_RESET_DRAIN_EXPIRE (R139): 50 µs after the start, a dirty line not yet written back is discarded. -/
def execPipResetDrainExpire (now tile hart : Nat) (s : State) : Host.Outcome State Fault Refusal :=
  .next (let s := s.advance now
    match (s.hart tile hart).rstAt with
    | none => s
    | some t0 =>
      if s.gtime < t0 + 50000 ∨ 24 ≤ tile ∨ 32 ≤ hart then s
      else
        let s1 := s.hartFlush tile hart
        let lost := !(s1.hart tile hart).dirty.isEmpty
        let s2 := s1.setHart tile hart Hart.init
        if lost then s2.setFld (pipStatA tile hart) pipStatLossy 1 else s2)

/-- GRPA_BUSY or GRPB_BUSY. -/
def grpBusy (g : Nat) : Fld := if g = 0 then ctRstGrpaBusy else ctRstGrpbBusy
/-- GRPA_PWRCYC or GRPB_PWRCYC. -/
def grpCyc (g : Nat) : Fld := if g = 0 then ctRstGrpaPwrcyc else ctRstGrpbPwrcyc

/-- ME_GROUP_RESET (R138, R140): whether the reset completes within its bound is an operand (log entry 12). -/
def execMeGroupReset (now tile grp : Nat) (by_ : Writer) (completes : Bool) (s : State) : Host.Outcome State Fault Refusal :=
  .next (let s := s.advance now
    if 2 ≤ grp ∨ !s.tileReg tile by_ (ctRstA tile) ∨ s.flag (ctRstA tile) (grpBusy grp) then s
    else if completes then s.grpFlush tile grp
    else
      ((s.grpMes tile grp).foldl (fun s m => s.setMe tile m { s.me tile m with rstAt := some s.gtime }) s).setFld
        (ctRstA tile) (grpBusy grp) 1)

/-- ME_GROUP_POWER_CYCLE (R140): the domain goes off and on, which always completes. -/
def execMeGroupPowerCycle (now tile grp : Nat) (s : State) : Host.Outcome State Fault Refusal :=
  .next (let s := s.advance now
    let due := (s.grpMes tile grp).all (fun m =>
      match (s.me tile m).rstAt with
      | some t0 => decide (t0 + 2000000 ≤ s.gtime)
      | none => true)
    if 2 ≤ grp ∨ 24 ≤ tile ∨ !s.flag (ctRstA tile) (grpBusy grp) ∨ !due then s
    else (((s.grpFlush tile grp).setFld (ctRstA tile) (grpBusy grp) 0).setFld (ctRstA tile) (grpCyc grp) 1))

/-- MOVER_ABORT (R138, R141). -/
def execMoverAbort (tile mv : Nat) (by_ : Writer) (s : State) : Host.Outcome State Fault Refusal :=
  .next (if 8 ≤ mv ∨ !s.tileReg tile by_ (mvCtlA tile mv) then s else s.mvFlush tile mv)

/-- UNIT_FAULT_POP (R142). -/
def execUnitFaultPop (tile : Nat) (mover : Bool) (unit : Nat) (by_ : Writer) (s : State) : Host.Outcome State Fault Refusal :=
  .next (
    if mover then
      if 8 ≤ unit ∨ !s.tileReg tile by_ (mvFaultA tile unit) then s
      else s.setMover tile unit { s.mover tile unit with faults := (s.mover tile unit).faults.drop 1 }
    else if 6 ≤ unit ∨ !s.tileReg tile by_ (meFaultA tile unit) then s
    else s.setMe tile unit { s.me tile unit with faults := (s.me tile unit).faults.drop 1 })

/-- TS_ECC_CLEAR (R142). -/
def execTsEccClear (tile : Nat) (by_ : Writer) (s : State) : Host.Outcome State Fault Refusal :=
  .next (if !s.tileReg tile by_ (tsEccA tile) then s
    else (s.setFld (tsEccA tile) tsEccCeCount 0).setFld (tsEccA tile) tsEccUeCount 0)

/-- TS_SCRUB_ROW (R110 to R112): `upsets` says which words of the row were hit since its last access, and whether beyond
correction (log entry 12). -/
def execTsScrubRow (tile bank : Nat) (upsets : List (Nat × Bool)) (s : State) : Host.Outcome State Fault Refusal :=
  .next (
    if 24 ≤ tile ∨ 40 ≤ bank ∨ !s.domOn (3 * tile + 2) then s
    else
      let row := kvGet 0 s.tsScrub (40 * tile + bank)
      let a := tileBase tile + 256 * (40 * row + bank)
      let hit := upsets.foldl (fun (s : State) u =>
        if 32 ≤ u.1 ∨ s.tsMark (a / 8 + u.1) = 2 then s
        else s.setMarks (a / 8 + u.1) 1 (if u.2 then 2 else 1)) s
      let s1 : State := { hit with tsScrub := kvSet 0 s.tsScrub (40 * tile + bank) ((row + 1) % 16384) }
      let duo := s1.tsCheck tile a 256
      let s2 := duo.1
      -- Every corrected word is written back; an uncorrectable one keeps its mark.
      (List.range 32).foldl (fun (s : State) i =>
        if s.tsMark (a / 8 + i) = 1 then s.setMarks (a / 8 + i) 1 0 else s) s2)

end Sys2Proof.Machine
end

