-- ==== Sys2Proof/Machine/MemUnit.lean ====
section
/-!
DEFINITION. The memory units: codeword reads and writes, scrub, calibration and retrain, the error counts and logs, and the zero
fills (R150 to R164, R169, R183). Errors that storage cells suffer are operands (log entry 12).
-/

namespace Sys2Proof.Machine

/-- Whether an address lies in main memory: usable HBM, a journal area or the tier (R31, R32). -/
def inMain (a : Nat) : Bool :=
  match regionOf a with
  | .hbm _ => true
  | .journal _ => true
  | .tier => true
  | _ => false

/-- Whether the interface of a memory die is powered (R26). -/
def State.memOn (s : State) (die : Nat) : Bool := if die < 12 then s.domOn (72 + die) else s.domOn (94 + (die - 12))

/-- A codeword with upsets of its stored bytes, as (byte, difference) pairs. -/
def State.upset (s : State) (cw : Nat) (ups : List (Nat × Nat)) : State :=
  { s with cwErr := kvSet 0 s.cwErr cw (kvGet 0 s.cwErr cw ^^^ errOfPairs ups) }

/-- Differences that a wrong row or column makes in the address symbols, as the decoder sees them (R151, R154). -/
def virtOf (ups : List (Nat × Nat)) : List (Nat × Nat) := ups.filter (fun u => decide (72 ≤ u.1 ∧ u.1 < 77 ∧ 0 < u.2 ∧ u.2 < 256))

/-- MEMORY_READ (R153, R158, R159): the answer is the codeword's 64 bytes, or a fault where the read returns BAD_DATA. -/
def execMemoryRead (addr : Nat) (upsets : List (Nat × Nat)) (s : State) : Host.Outcome State Fault Refusal :=
  .next (
    if !inMain addr ∨ !s.memOn (memDie addr) then s
    else
      let cw := addr / 64
      let duo := (s.upset cw upsets).readCw cw 0 (virtOf upsets)
      let s1 := duo.1
      let c := duo.2
      s1.answer (if c.bad then .fault else .bytes (s1.peek (64 * cw) 64)))

/-- MEMORY_WRITE (R157): a write within one codeword; the answer says whether it met BAD_DATA. -/
def execMemoryWrite (addr : Nat) (data : List Byte) (s : State) : Host.Outcome State Fault Refusal :=
  .next (
    if !inMain addr ∨ !s.memOn (memDie addr) ∨ 64 < addr % 64 + data.length then s
    else
      let w := s.storeBy none addr data
      w.st.answer (if w.bad then .fault else .none))

/-- MEMORY_SCRUB (R160). -/
def execMemoryScrub (addr : Nat) (upsets : List (Nat × Nat)) (s : State) : Host.Outcome State Fault Refusal :=
  .next (
    if !inMain addr ∨ !s.memOn (memDie addr) ∨ !s.flag (memcfgA (memDie addr)) phMemcfgScrubEn then s
    else ((s.upset (addr / 64) upsets).readCw (addr / 64) 1 (virtOf upsets)).1)

/-- MEMORY_REFRESH (R164): a refresh delays requests and changes nothing. -/
def execMemoryRefresh (_die _unit : Nat) (s : State) : Host.Outcome State Fault Refusal := .next s

/-- A retrain's units: the two pseudo-channels of an HBM channel, or one LPDDR5X channel (R143, R162). -/
def retrainUnits (die unit : Nat) : List Nat := if die < 12 then [unit / 2 * 2, unit / 2 * 2 + 1] else [unit]

/-- Sets or clears one bit of PC_ACTIVE or CH_ACTIVE. -/
def State.setActive (s : State) (die unit : Nat) (v : Bool) : State := s.setFld (retrainA die) ⟨unit, 1⟩ (b2n v)

/-- Whether a unit is held for a retrain. -/
def State.retraining (s : State) (die unit : Nat) : Bool := decide (kvGet 0 s.retrain (32 * die + unit) ≠ 0)

/-- The stores that the hold of a unit kept back go on; a hart whose reset waited for them restarts (R139, R161, R162). -/
def State.flushHeld (s : State) : State :=
  (List.range 768).foldl (fun s k =>
    let t := k / 32
    let h := k % 32
    if (s.hart t h).dirty.isEmpty then s
    else
      let s1 := s.hartFlush t h
      if (s1.hart t h).rstAt.isSome ∧ (s1.hart t h).dirty.isEmpty then s1.setHart t h Hart.init else s1) s

/-- MEMORY_CALIBRATION (R161, R183): one unit of a die at a time is held. -/
def execMemoryCalibration (die unit : Nat) (active : Bool) (s : State) : Host.Outcome State Fault Refusal :=
  .next (
    if 14 ≤ die ∨ 32 ≤ unit ∨ !s.memOn die ∨ s.retraining die unit then s
    else if active then
      if (List.range 32).any (fun u => (s.fld (retrainA die) phRetrainPcActive).testBit u && !s.retraining die u) then s
      else s.setActive die unit true
    else (s.setActive die unit false).flushHeld)

/-- Corrected reads of a unit in the present second (R162). -/
def State.ceNow (s : State) (die unit : Nat) : Nat :=
  sumNat ((retrainUnits die unit).map (fun u =>
    let x := kvGet (0, 0) s.ceSec (32 * die + u)
    if x.2 = s.gtime / 1000000000 then x.1 else 0))

/-- CHANNEL_RETRAIN (R162): `cause` is 0 for the corrected-read threshold, 1 for a margin alarm of the PHY, 2 for an order of
Hasia. -/
def execChannelRetrain (now die unit cause : Nat) (s : State) : Host.Outcome State Fault Refusal :=
  .next (let s := s.advance now
    if 14 ≤ die ∨ 32 ≤ unit ∨ 3 ≤ cause ∨ !s.memOn die ∨ s.retraining die unit ∨
        (cause = 0 ∧ s.ceNow die unit ≤ s.fld (memcfgA die) phMemcfgRetrainCeThr) then s
    else
      ((retrainUnits die unit).foldl (fun (s : State) u =>
        ({ s with retrain := kvSet 0 s.retrain (32 * die + u) (s.gtime + 1) }).setActive die u true) s).raise (memEvent die 2 1))

/-- CHANNEL_RETRAIN_END (R162, R163). -/
def execChannelRetrainEnd (die unit : Nat) (ok : Bool) (s : State) : Host.Outcome State Fault Refusal :=
  .next (
    if 14 ≤ die ∨ 32 ≤ unit ∨ !s.retraining die unit then s
    else
      let s1 := (retrainUnits die unit).foldl (fun (s : State) u =>
        let s' := ({ s with retrain := kvSet 0 s.retrain (32 * die + u) 0 }).setActive die u false
        if ok then s' else s'.setFld (retrainA die) ⟨32 + u, 1⟩ 1) s
      (if ok then s1 else s1.raise (memEvent die 3 2)).flushHeld)

/-- ECCSTAT_CLEAR (R183). -/
def execEccstatClear (die : Nat) (by_ : Writer) (s : State) : Host.Outcome State Fault Refusal :=
  .next (if 14 ≤ die ∨ !s.memOn die ∨ !mayReachReg by_ (eccstatA die) then s
    else (s.setFld (eccstatA die) phEccstatCeCount 0).setFld (eccstatA die) phEccstatUeCount 0)

/-- UELOG_POP (R183). -/
def execUelogPop (die : Nat) (by_ : Writer) (s : State) : Host.Outcome State Fault Refusal :=
  .next (if 14 ≤ die ∨ !s.memOn die ∨ !mayReachReg by_ (uelogA die) then s
    else { s with uelog := kvSet [] s.uelog die ((kvGet [] s.uelog die).drop 1) })

/-- The zero fill of a tier segment is done: FILLING clears in both dies and each raises its event (R150). -/
def State.segFilled (s : State) (seg : Nat) : State :=
  (({ s with fills := kvSet none s.fills seg none }.zeroFill (tierBase + 0x40000000 * seg) 0x40000000).setFld
    (tdSegA seg) tdSegFilling 0)

/-- SEGMENT_FILL_COMPLETE (R150). -/
def execSegmentFillComplete (now seg : Nat) (s : State) : Host.Outcome State Fault Refusal :=
  .next (let s := s.advance now
    if 896 ≤ seg ∨ (kvGet none s.fills seg).isNone then s
    else ((s.segFilled seg).raise (32 * 85 + 4)).raise (32 * 86 + 4))

/-- One partition less for the SESSION_OPEN and SESSION_CLOSE commands that wait for its fill; the last one finishes them (R169,
R295, R296). -/
def State.fillDone (s : State) (p : Nat) : State :=
  s.busyCtxs.foldl (fun s e =>
    (e.2.cmds.filter (fun k => decide (k.stage = .started) && k.issued &&
        (decide (k.opc = some .sessionOpen) || decide (k.opc = some .sessionClose)))).foldl (fun s k =>
      let left := setBits k.left p 1 0
      let s1 := s.modCmd e.1 k.cseq (fun q => { q with left := left })
      if left = 0 ∧ k.left ≠ 0 then s1.finish e.1 k.cseq .ok noDetail k.moved else s1) s) s

/-- XTS_FILL_COMPLETE (R169): the partition's 48 GiB of HBM, journal area included, and every tier segment with OWNER *p*. -/
def execXtsFillComplete (now p : Nat) (s : State) : Host.Outcome State Fault Refusal :=
  .next (let s := s.advance now
    if 12 ≤ p ∨ (kvGet none s.fills (1024 + p)).isNone then s
    else
      let s1 := ({ s with fills := kvSet none s.fills (1024 + p) none }).zeroFill (hbmBase p) 0xC00000000
      let segs := (List.range 896).filter (fun g => decide (s.segOwner g = p))
      let s2 := segs.foldl (fun s g => s.segFilled g) s1
      let s3 := (s2.setFld (phXtsA p) phXtsFilling 0).raise (32 * (73 + p) + 11)
      (if segs.isEmpty then s3 else (s3.raise (32 * 85 + 4)).raise (32 * 86 + 4)).fillDone p)

end Sys2Proof.Machine
end

