-- ==== Sys2Proof/Machine/Link.lean ====
section
/-!
DEFINITION. The optical links: frames received, resends, lane swaps, retrains, training, and a link going down (R305 to R325,
R329 to R331, R340, R483 to R485).
-/

namespace Sys2Proof.Machine

/-! ### A link going down (R325, R340) -/

/-- Whether the tables of a directory entry use a link (R340). -/
def State.usesLink (s : State) (i n : Nat) : Bool :=
  let adapt := s.flag (fdSlicedirA i) fdSlicedirAdapt
  decide (s.fld (fdSlicedirA i) fdSlicedirSlice ≠ 0) && s.regs.any (fun e =>
    (decide (fdRouteA i 0 ≤ e.1) && decide (e.1 < fdRouteA i 0 + 0x1000) && (List.range 8).any (fun k =>
      let r := bits e.2.toNat (8 * k) 8
      r.testBit 6 && (decide (bits r 0 3 = n) || (adapt && decide (bits r 3 3 = n))))) ||
    (decide (fdMcastA i 0 ≤ e.1) && decide (e.1 < fdMcastA i 0 + 0x400) && (List.range 2).any (fun k =>
      let g := bits e.2.toNat (32 * k) 32
      g.testBit 19 && g.testBit n)))

/-- A link goes down with a cause, as failed or plainly down (R325, R340, R484; log entry 29). -/
def State.linkFail (s : State) (n cause st : Nat) : State :=
  let l := s.link n
  let lost := sumNat (l.outbox.map (·.1.length)) + sumNat (l.retry.map (·.2.1.length))
  let d := l.discarded + lost
  let s1 := s.setLink n { l with
    outbox := [], retry := [], retrainAt := none, nakOwed := false, xoffIn := 0, timeAd := none, stamps := [], peer := none,
    discarded := d, again := 0, seals := (0, 0), tried := s.gtime }
  let s2 := ((s1.setFld (lxErrA n) lxErrDiscarded (min 65535 (d / 1000))).setFld (lxStatA n) lxStatState st).setFld
    (lxStatA n) lxStatCause cause
  let s3 : State := { s2 with locket := { s2.locket with
    linkKeys := kvSet [] s2.locket.linkKeys n [], linkSs := kvSet [] s2.locket.linkSs n [] } }
  let s4 := (s3.setFld (lkLinkstatA n) lkLinkstatState 0).level (32 * 89 + 4 * n) true
  (List.range 64).foldl (fun s i => if s.usesLink i n then s.abortLocal i cause n none else s) s4

/-- LINK_DOWN (R325, R340): loss of light (cause 1) or a failed readiness screen (cause 8); the other causes have their own
commands. -/
def execLinkDown (now link cause : Nat) (s : State) : Host.Outcome State Fault Refusal :=
  .next (let s := s.advance now
    if (cause = 1 ∨ cause = 8) ∧ link < 6 ∧ s.fld (lxStatA link) lxStatState ∈ [1, 2, 3] then s.linkFail link cause 0 else s)

/-- LASER_FAULT (R309). -/
def execLaserFault (now src : Nat) (s : State) : Host.Outcome State Fault Refusal :=
  .next (let s := s.advance now
    if 2 ≤ src then s
    else ((List.range 6).filter (fun n => decide (n % 2 = src))).foldl (fun s n =>
      if s.fld (lxStatA n) lxStatState ∈ [1, 2, 3] then s.linkFail n 6 0 else s) s)

/-- STOP (R325, R371): the neighbour announces that it stops. -/
def execStop (now link : Nat) (b : Bead) (s : State) : Host.Outcome State Fault Refusal :=
  .next (let s := s.advance now
    match s.takeBead link b with
    | none => s
    | some (s1, _) =>
      if link < 6 ∧ b.kind = 11 ∧ leAt b.pay 0 1 = 3 ∧ s1.linkHolds link then s1.linkFail link 2 0 else s)

/-- LINK_ENABLE_WRITE (R325, R345). -/
def execLinkEnableWrite (now link : Nat) (v : Bool) (by_ : Writer) (s : State) : Host.Outcome State Fault Refusal :=
  .next (let s := s.advance now
    if 6 ≤ link ∨ !s.domOn (88 + link) ∨ !mayReachReg by_ (lxCtlA link) then s
    else
      let s1 := s.setFld (lxCtlA link) lxCtlEnable (b2n v)
      if !v ∧ s1.fld (lxStatA link) lxStatState ∈ [1, 2, 3] then s1.linkFail link 7 0 else s1)

/-! ### Resends and retrains (R321 to R324) -/

/-- The start of a full retrain (R324, R345). -/
def State.retrainStart (s : State) (n : Nat) : State :=
  (((s.setLink n { s.link n with retrainAt := some s.gtime }).setFld (lxStatA n) lxStatState 3).addSat (lxErrA n) lxErrRetrains 1).raise
    (32 * 89 + 4 * n + 3)

/-- The frames of the retry buffer go out again, sealed ones under fresh counts (R324, R485). -/
def State.resendAll (s : State) (n : Nat) : State :=
  let l := s.link n
  s.setLink n { l with
    timer := s.gtime, seals := (l.seals.1 + (l.retry.filter (fun f => decide (f.2.2 ≠ 0))).length, l.seals.2) }

/-- A resend with its two counts; either limit starts a full retrain (R322). -/
def State.resend (s : State) (n : Nat) : State :=
  let k := (s.link n).retry.length
  let s1 := ((s.resendAll n).addSat (lxErrA n) lxErrResent k).count none none 0x091 k
  let l := s1.link n
  let w := if l.resends.2 + 1000000 ≤ s1.gtime then (1, s1.gtime) else (l.resends.1 + 1, l.resends.2)
  let s2 := s1.setLink n { l with resends := w, again := l.again + 1 }
  if 8 ≤ l.again + 1 ∨ s2.fld (lxCtlA n) lxCtlRetryThr < w.1 then s2.retrainStart n else s2

/-- RETRY_TIMEOUT (R322). -/
def execRetryTimeout (now link : Nat) (s : State) : Host.Outcome State Fault Refusal :=
  .next (let s := s.advance now
    let l := s.link link
    if !s.linkUp link ∨ l.retry.isEmpty ∨ s.gtime < l.timer + 1000 * s.fld (lxCtlA link) lxCtlRetryUs then s
    else s.resend link)

/-- LINK_RETRAIN_ORDER (R345). -/
def execLinkRetrainOrder (now link : Nat) (by_ : Writer) (s : State) : Host.Outcome State Fault Refusal :=
  .next (let s := s.advance now
    if s.linkUp link ∧ mayReachReg by_ (lxCtlA link) then s.retrainStart link else s)

/-- Installs a pending link key: both directions count from 0 (R484, R485). -/
def State.installKey (s : State) (n : Nat) : State :=
  if s.fld (lkLinkstatA n) lkLinkstatState = 3 then
    ((s.setLink n { s.link n with seals := (0, 0) }).setFld (lkLinkstatA n) lkLinkstatState 4).addWrap
      (lkLinkstatA n) lkLinkstatEpoch 1
  else s

/-- RTT_NS and CLASS from a measured round trip (R308). -/
def State.setRtt (s : State) (n rtt : Nat) : State :=
  (s.setFld (lxStatA n) lxStatRttNs (min 2047 rtt)).setFld (lxStatA n) lxStatClass (b2n (decide (290 < rtt)))

/-- LINK_FULL_RETRAIN (R308, R324): on an up link the other end has begun one; on a retraining link it ends, with the round trip
measured and whether 64 good lanes were placed in each direction (log entry 12). -/
def execLinkFullRetrain (now link : Nat) (rttNs : Nat) (placed : Bool) (s : State) : Host.Outcome State Fault Refusal :=
  .next (let s := s.advance now
    if s.linkUp link then s.retrainStart link
    else if 6 ≤ link ∨ s.fld (lxStatA link) lxStatState ≠ 3 then s
    else if !placed then s.linkFail link 3 4
    else
      let s1 := s.setRtt link rttNs
      if 1240 < rttNs then s1.linkFail link 9 0
      else
        let s2 := (s1.setFld (lxStatA link) lxStatState 2).installKey link
        let s3 := s2.setLink link { s2.link link with retrainAt := none, again := 0, resends := (0, s2.gtime) }
        (s3.resendAll link).pumpAll link)

/-- LINK_RETRAIN_TIMEOUT (R324). -/
def execLinkRetrainTimeout (now link : Nat) (s : State) : Host.Outcome State Fault Refusal :=
  .next (let s := s.advance now
    match (s.link link).retrainAt with
    | none => s
    | some t0 => if s.gtime < t0 + 50000000 ∨ 6 ≤ link then s else s.linkFail link 4 4)

/-! ### Lanes (R306, R323) -/

/-- The lowest spare lane of a direction, lanes `lo` to `lo` + 71 of LX.LANE; any spare may serve (log entry 30). -/
def State.spareLane (s : State) (n lo : Nat) : Option Nat :=
  (List.range 72).find? (fun l => decide (s.fld (lxLaneA n (lo + l)) lxLaneRole = 1))

/-- Puts physical lane `new` in the place of `old` for its logical lane. -/
def State.swapLane (s : State) (n lo old new : Nat) : State :=
  let slot := s.fld (lxLaneA n (lo + old)) lxLaneSlot
  let f := if lo = 0 then lxStatSparesTx else lxStatSparesRx
  ((((s.setFld (lxLaneA n (lo + old)) lxLaneRole 2).setFld (lxLaneA n (lo + new)) lxLaneRole 0).setFld
    (lxLaneA n (lo + new)) lxLaneSlot slot).setFld (lxStatA n) f (s.fld (lxStatA n) f - 1)).raise (32 * 89 + 4 * n + 2)

/-- The LANE_SWAP bead's payload (R371): the codeword count of the swap is open (log entry 7). -/
def swapPay (node link dir logical physical atCw : Nat) : List Byte :=
  natLe 1 2 ++ zeros 1 ++ natLe 2 node ++ natLe 1 link ++ zeros 3 ++ natLe 1 dir ++ natLe 1 logical ++ natLe 1 physical ++
    zeros 5 ++ natLe 8 atCw

/-- LANE_SWAP (R323): with `rx` this end's receive lane `lane` has passed its error limit (log entry 12); without it the peer has
asked, by the LANE_SWAP bead at the front, that this end send on physical lane `lane`. -/
def execLaneSwap (link : Nat) (rx : Bool) (lane : Nat) (s : State) : Host.Outcome State Fault Refusal :=
  .next (
    if !s.linkUp link ∨ 72 ≤ lane then s
    else if rx then
      if s.fld (lxLaneA link (72 + lane)) lxLaneRole ≠ 0 then s
      else
        match s.spareLane link 72 with
        | none => s.retrainStart link
        | some new =>
          let slot := s.fld (lxLaneA link (72 + lane)) lxLaneSlot
          let duo := s.drawNat
          let v := duo.1
          let s1 := duo.2
          (s1.swapLane link 72 lane new).sendHop link 11 0 (swapPay s.node link 1 slot new (v % two64))
    else
      let q := (s.link link).inbox.filter (fun x => decide (x.1.vc = 4 ∧ x.1.kind = 11))
      match q.head? with
      | none => s
      | some (b, _) =>
        match s.takeBead link b with
        | none => s
        | some (s1, _) =>
          let slot := leAt b.pay 9 1
          if leAt b.pay 0 1 ≠ 2 ∨ leAt b.pay 8 1 ≠ 1 ∨ leAt b.pay 10 1 ≠ lane then s
          else
            match (List.range 72).find? (fun l =>
              decide (s1.fld (lxLaneA link l) lxLaneRole = 0) && decide (s1.fld (lxLaneA link l) lxLaneSlot = slot)) with
            | some old => if s1.fld (lxLaneA link lane) lxLaneRole = 1 then s1.swapLane link 0 old lane else s1
            | none => s1)

/-! ### Training (R310, R311, R371) -/

/-- Whether a link may train now: enabled, powered, lit, and the module's number set (R310, R345). -/
def State.mayTrain (s : State) (n : Nat) : Bool :=
  decide (n < 6) && s.domOn (88 + n) && s.flag (lxCtlA n) lxCtlEnable && decide (s.node ≠ 0xFFF) && s.pins.lasers

/-- The identity check of R311 on what the peer has sent. -/
def State.peerOk (s : State) (n : Nat) (p : Nat × Nat) : Bool :=
  decide (p.1 = s.neighbour s.node n) && decide (p.2 = n ^^^ 1)

/-- A link comes up: sequence numbers and counts start again, and its event is raised (R325). -/
def State.linkComesUp (s : State) (n : Nat) : State :=
  let l := s.link n
  ((((s.setLink n { l with
    txSeq := 0, rxSeq := 0, acked := 0, retry := [], nakOwed := false, xoffIn := 0, xoffOut := 0, inbox := [], outbox := [],
    timer := s.gtime, resends := (0, s.gtime), again := 0, seals := (0, 0) }).setFld (lxStatA n) lxStatState 2).setFld
    (lxStatA n) lxStatPeerOk 1).level (32 * 89 + 4 * n) false).raise (32 * 89 + 4 * n + 1)

/-- LINK_TRAINING (R308, R311, R325): a link that is down begins training, at the earliest 1 s after the last attempt; one that
trains and has heard its peer ends it. `screenOk` is the readiness screen's outcome (log entry 12). -/
def execLinkTraining (now link : Nat) (screenOk : Bool) (s : State) : Host.Outcome State Fault Refusal :=
  .next (let s := s.advance now
    let l := s.link link
    let st := s.fld (lxStatA link) lxStatState
    if !s.mayTrain link then s
    else if st = 0 ∨ st = 4 then
      if l.tried ≠ 0 ∧ s.gtime < l.tried + 1000000000 then s
      else ((s.setLink link { l with peer := none, stamps := [], tried := s.gtime }).setFld (lxStatA link) lxStatState 1).setFld
        (lxStatA link) lxStatPeerOk 0
    else if st ≠ 1 then s
    else
      match l.peer with
      | none => s
      | some p =>
        if !s.peerOk link p then (s.linkFail link 5 0).raise (32 * 89 + 24)
        else if 1240 < s.fld (lxStatA link) lxStatRttNs then s.linkFail link 9 0
        else if !screenOk then s.linkFail link 8 0
        else s.linkComesUp link)

/-- A TRAIN bead's payload (R371): identity, extent, STATE, own probe time and the echoed one. -/
def trainPay (node link z st probe echo : Nat) : List Byte :=
  natLe 1 1 ++ zeros 1 ++ natLe 2 node ++ natLe 1 link ++ zeros 3 ++ natLe 1 z ++ natLe 1 st ++ zeros 6 ++ natLe 8 probe ++
    natLe 8 echo

/-- TRAIN (R308, R311, R371): the peer's identity and probe arrive while the link trains. The answer is the bead sent back: its
STATE says whether this end accepts the identity. -/
def execTrain (now link : Nat) (b : Bead) (s : State) : Host.Outcome State Fault Refusal :=
  .next (let s := s.advance now
    if 6 ≤ link ∨ s.fld (lxStatA link) lxStatState ≠ 1 ∨ b.kind ≠ 11 ∨ leAt b.pay 0 1 ≠ 1 then s
    else
      let node := leAt b.pay 2 2 % 4096
      let peer := (node, leAt b.pay 4 1)
      let echo := leAt b.pay 24 8
      let s1 := ((s.setLink link { s.link link with peer := some peer }).setFld (lxStatA link) lxStatPeerNode node).setFld
        (lxStatA link) lxStatPeerLink peer.2
      let s2 := if echo ≠ 0 ∧ echo ≤ s1.gtime then s1.setRtt link (s1.gtime - echo) else s1
      if leAt b.pay 9 1 = 2 then (s2.linkFail link 5 0).raise (32 * 89 + 24)
      else
        let st := if s2.peerOk link peer then 1 else 2
        s2.answer (.bytes (⟨mkHead 11 4 (s2.neighbour s2.node link) 15 0 0 0,
          payload (trainPay s2.node link s2.zsize st s2.gtime (leAt b.pay 16 8))⟩ : Bead).bytes))

/-! ### Frames received (R319 to R321, R329 to R331, R335 check 1, R485) -/

/-- Applies ACKSEQ: frames it covers leave the retry buffer (R321). -/
def State.takeAck (s : State) (n ack : Nat) : State :=
  let l := s.link n
  match l.retry with
  | [] => s
  | f :: _ =>
    let k := (ack + 1 + 4096 - f.1) % 4096
    if k = 0 ∨ l.retry.length < k then s
    else s.setLink n { l with retry := l.retry.drop k, acked := ack + 1, timer := s.gtime, again := 0 }

/-- Whether a bead's header passes check 1 of R335. -/
def headOk (b : Bead) : Bool :=
  match kindVc b.kind with
  | some v => decide (b.vc / 2 * 2 = v)
  | none => false

/-- Whether a LINK bead waits for a command of its own: TRAIN belongs to training alone, and a LANE_SWAP of the peer's transmit
side asks nothing of this end. -/
def linkBeadKept (b : Bead) : Bool :=
  let t := leAt b.pay 0 1
  decide (t = 3 ∨ t = 4) || (decide (t = 2) && decide (leAt b.pay 8 1 = 1))

/-- One bead of an accepted frame: dropped at check 1, consumed, or held for its command (R335, R371). The data beads of a dropped
head are not counted again (R314). -/
def State.takeBeadIn (s : State) (n : Nat) (sealed_ : Bool) (b : Bead) : State :=
  if b.kind = 0 then s
  else
    let ok := headOk b && (b.kind != 11 || (decide (1 ≤ leAt b.pay 0 1) && decide (leAt b.pay 0 1 ≤ 4)))
    if !ok then (if isData b.kind then s else s.isodrop (fdOfLink n) 0 b.slice)
    else if b.kind = 11 ∧ !linkBeadKept b then s
    else s.setLink n { s.link n with inbox := (s.link n).inbox ++ [(b, sealed_)] }

/-- The count of a sealed transmission: the smallest value above the last accepted one with the given low 25 bits (R485). -/
def sealCount (next low : Nat) : Nat := next + (low + 2 ^ 25 - next % 2 ^ 25) % 2 ^ 25

/-- The beads of a frame and, for a sealed one, its count; none where the tag fails (R320, R485). -/
def State.openFrame (s : State) (n : Nat) (f : List Byte) : Option (List Bead × Option Nat) :=
  let slots : List Byte → Nat → List Bead := fun bs k => (chunksOf 72 k bs).map beadOf
  if !(leAt f 576 4).testBit 25 then some (slots (f.take 576) 8, none)
  else
    let sb := beadOf ((f.drop 504).take 72)
    let low := sb.group * 8192 + sb.pos
    let c := sealCount (s.link n).seals.2 low
    let key := kvGet [] s.locket.linkKeys n
    if sb.kind ≠ 15 ∨ !s.linkKeyed n then none
    else
      match gcmOpen key (frameNonce c (!(s.link n).low)) ((f.drop 576).take 4 ++ (f.drop 504).take 8) (f.take 504) (sb.pay.take 16) with
      | none => none
      | some pt => some (slots pt 7, some c)

/-- Whether a frame's beads have room in the receive buffer (R329, R331). -/
def State.hasRoom (s : State) (n : Nat) (bs : List Bead) : Bool :=
  let l := s.link n
  let l1 := { l with inbox := l.inbox ++ (bs.filter (fun (b : Bead) => decide (b.kind ≠ 0))).map (fun b => (b, false)) }
  decide (l1.shared ≤ 1856 * 1024)

/-- A frame is discarded and NAK owed (R321). -/
def State.owe (s : State) (n : Nat) : State := s.setLink n { s.link n with nakOwed := true }

/-- FRAME_RECEIVE (R319 to R321, R331, R335, R485). -/
def execFrameReceive (now link : Nat) (frame : List Byte) (s : State) : Host.Outcome State Fault Refusal :=
  .next (let s := s.advance now
    if !s.linkUp link ∨ frame.length ≠ 584 then s
    else if crc32c (frame.take 580) ≠ leAt frame 580 4 then (s.owe link).addSat (lxCrcerrA link) lxCrcerrFcrcFail 1
    else
      match s.openFrame link frame with
      | none => (s.owe link).addSat (lkLinkstatA link) lkLinkstatTagfail 1
      | some (beads, count) =>
        let ctrl := leAt frame 576 4
        let s1 := s.takeAck link (bits ctrl 12 12)
        let s2 := s1.setLink link { s1.link link with xoffIn := bits ctrl 26 6 }
        let s3 := if ctrl.testBit 24 ∧ !(s2.link link).retry.isEmpty then s2.resend link else s2
        let s4 := if bits ctrl 0 12 ≠ (s3.link link).rxSeq then s3.owe link
          else if !s3.hasRoom link beads then (s3.owe link).addSat (lxCrcerrA link) lxCrcerrOverrun 1
          else
            let l := s3.link link
            let a := s3.setLink link { l with
              rxSeq := (l.rxSeq + 1) % 4096, nakOwed := false,
              seals := (l.seals.1, match count with
                | some c => c + 1
                | none => l.seals.2) }
            let b : State := beads.foldl (fun s x => s.takeBeadIn link count.isSome x) a
            b.setLink link { b.link link with xoffOut := b.xoffOf link (b.link link) }
        s4.pumpAll link)

end Sys2Proof.Machine
end

