-- ==== Sys2Proof/Machine/Fabric.lean ====
section
/-!
DEFINITION. Messages that end at this module: chunks from remote movers, acknowledgements, clasp-signal beads and ABORT beads
(R133, R243, R316 to R318, R335, R342, R385, R567).
-/

namespace Sys2Proof.Machine

/-! ### A remote chunk (R317) -/

/-- Whether a range lies where a remote chunk for partition `p` may be written (R317 step 1). -/
def State.chunkPlace (s : State) (p a n : Nat) : Bool :=
  let e := a + n
  match regionOf a with
  | .hbm q => decide (q = p) && decide (e ≤ hbmBase p + 0xBC0000000)
  | .tile t => decide (t / 2 = p) && decide (e ≤ tileBase t + 0xA000000)
  | .tier => decide (e ≤ 0x1E000000000) && (List.range (segOf (e - 1) + 1 - segOf a)).all (fun i => decide (s.segOwner (segOf a + i) = p))
  | _ => false

/-- Whether a range waits for a zero fill (R150, R169). -/
def State.filling (s : State) (p a n : Nat) : Bool :=
  s.flag (phXtsA p) phXtsFilling ||
  (match regionOf a with
  | .tier => (List.range (segOf (a + n - 1) + 1 - segOf a)).any (fun i => s.flag (tdSegA (segOf a + i)) tdSegFilling)
  | _ => false)

/-- The contexts of a partition that record a chunk of a slice written to a range (R385 kind 0x08). -/
def State.beadRecorders (s : State) (p slice a n : Nat) : List Nat :=
  let c := (s.recorder p).recCtx
  if s.records c 3 && decide (partOf c = p) && decide (s.ctxSlice c = slice) && s.mayReach c (a : Nat) n then [c] else []

/-- Sends an ACK for a message (R316, R317). -/
def State.sendAck (s : State) (i : Nat) (h : Bead) (result : Nat) : State :=
  let b : Bead := ⟨mkHead 7 4 (leAt h.pay 0 2 % 4096) (leAt h.pay 2 1 % 16) h.slice h.group 0,
    payload (natLe 4 (leAt h.pay 20 4) ++ natLe 1 result ++ zeros 3 ++ natLe 2 s.node)⟩
  s.route i [b] 7 false

/-- A chunk that passed the checks of R335 at its destination (R317, R567): RESULT and the state after it. -/
def State.takeChunk (s : State) (i link : Nat) (m : Msg) : State :=
  let p := m.head.dport
  let a := bits (leAt m.head.pay 8 8) 0 44
  let n := leAt m.head.pay 16 2
  let sealed_ := s.flag (fdSlicedirA i) fdSlicedirSealed
  if !s.bezelOpen p then (s.bezelRefuse p).sendAck i m.head 2
  else if n = 0 ∨ 4096 < n ∨ !s.chunkPlace p a n ∨ (s.confidential p ∧ !sealed_) then
    (s.isodrop (fdOfLink link) 7 m.head.slice).sendAck i m.head 2
  else if crc32c m.data ≠ leAt m.head.pay 24 4 then
    let duo := s.drawBytes n
    let bs := duo.1
    let s1 := duo.2
    (s1.store none a bs).sendAck i m.head 1
  else
    let w := s.storeBy none a m.data
    let s1 := w.st.count none (some p) 0x034 n
    let s2 : State := (s1.beadRecorders p m.head.slice a n).foldl (fun s _ =>
      s.recPut p 8 0 (m.head.pay.take 28 ++ m.data)) s1
    s2.sendAck i m.head (if w.bad then 3 else 0)

/-- MSG_HEAD (R315, R317, R333, R335). -/
def execMsgHead (now link : Nat) (m : Msg) (s : State) : Host.Outcome State Fault Refusal :=
  .next (let s := s.advance now
    let a := bits (leAt m.head.pay 8 8) 0 44
    let here := (s.sliceEntry m.head.slice).any (fun i => s.forHere i m.head)
    -- A chunk for a range that is being filled waits for the fill (R150, R169).
    if m.head.kind ≠ 1 ∨ (here ∧ m.head.dport < 12 ∧ s.filling m.head.dport a (leAt m.head.pay 16 2)) then s
    else
      match s.screened link m with
      | none => s
      | some (s1, none, _) => s1
      | some (s1, some i, sealed_) =>
        if s1.forHere i m.head then s1.takeChunk i link m else s1.forward i link m sealed_)

/-! ### Acknowledgements -/

/-- ACK (R133, R317, R318): GROUP names the sender's stream; a response owed to a fenced partition is absorbed (R567). -/
def execAck (now link : Nat) (b : Bead) (s : State) : Host.Outcome State Fault Refusal :=
  .next (let s := s.advance now
    if b.kind ≠ 7 then s
    else
      match s.screened link ⟨b, []⟩ with
      | none => s
      | some (s1, none, _) => s1
      | some (s1, some i, sealed_) =>
        if !s1.forHere i b then s1.forward i link ⟨b, []⟩ sealed_
        else
          let p := b.group / 16
          if 12 ≤ p ∨ p ≠ b.dport then s1
          else if !s1.bezelOpen p then s1.addSat (phBezelA p) phBezelAbsorbed 1
          else s1.ackMover (2 * p + b.group / 8 % 2) (b.group % 8) (leAt b.pay 0 4) (leAt b.pay 4 1))

/-! ### Clasp-signal beads -/

/-- Whether a clasp-signal bead of a slice may change a clasp of a partition (R243). -/
def State.claspFrom (s : State) (p slice i : Nat) : Bool :=
  (List.range 64).any (fun k =>
    let c := 64 * p + k
    decide (s.ctxSlice c = slice) && decide (s.cfg0 c phCtxcfg0Remote = 1) && s.mayClasp c i)

/-- CLASP_BEAD (R243, R316, R335 check 8, R567). -/
def execClaspBead (link : Nat) (b : Bead) (s : State) : Host.Outcome State Fault Refusal :=
  .next (
    if b.kind ≠ 8 then s
    else
      match s.screened link ⟨b, []⟩ with
      | none => s
      | some (s1, none, _) => s1
      | some (s1, some i, sealed_) =>
        if !s1.forHere i b then s1.forward i link ⟨b, []⟩ sealed_
        else
          let p := b.dport
          let k := leAt b.pay 0 4 % 2 ^ 20
          if !s1.bezelOpen p then (s1.bezelRefuse p).isodrop (fdOfLink link) 8 b.slice
          else if !s1.claspFrom p b.slice k then s1.isodrop (fdOfLink link) 8 b.slice
          else s1.signal p k (bits (leAt b.pay 8 8) 0 44) ((leAt b.pay 16 1).testBit 0) none)

/-! ### ABORT beads -/

/-- ABORT_BEAD (R335, R341, R342): the abort forwards the bead on every other up link. -/
def execAbortBead (now link : Nat) (b : Bead) (s : State) : Host.Outcome State Fault Refusal :=
  .next (let s := s.advance now
    if b.kind ≠ 12 ∨ 6 ≤ link then s
    else
      match s.takeBead link b with
      | none => s
      | some (s1, _) =>
        match s1.sliceEntry b.slice with
        | none => s1.isodrop (fdOfLink link) 9 b.slice
        | some i =>
          if b.dport ≠ 15 then s1.isodrop (fdOfLink link) 6 b.slice
          else if leAt b.pay 2 1 ≠ s1.fld (fdSlicedirA i) fdSlicedirInstance then s1
          else
            let a : AbortInfo := ⟨leAt b.pay 2 1, leAt b.pay 3 1, leAt b.pay 4 2 % 4096, leAt b.pay 6 1, leAt b.pay 8 8, false⟩
            s1.abortEntry i a none link)

end Sys2Proof.Machine
end

