-- ==== Sys2Proof/Machine/TimeSync.lean ====
section
/-!
DEFINITION. Time: the TIME beads of the discipline, the choice of a parent, the reference input, and the speed monitors (R56 to
R61, R371 to R376). One GTIME stands for the package's copies (log entry 3); the rate at which it is slewed is physical.
-/

namespace Sys2Proof.Machine

/-- Whether this module is the master (R373). -/
def State.isMaster (s : State) : Bool := decide (s.node = s.fld gtDisccfgA gtDisccfgMaster)

/-- Whether GTIME has been loaded (R58). -/
def State.timeLoaded (s : State) : Bool := s.flag gtDiscstatA gtDiscstatLoaded

/-- Step 13 of a start: readiness is reported (R532, R538, R542; ELAPSED_MS is a free value, log entry 7). -/
def State.reportReady (s : State) : State :=
  let r := s.boot.result.1
  let c := s.boot.result.2
  let duo := s.drawNat
  let ms := duo.1
  let s1 := duo.2
  let w := fset (fset (fset (s1.reg hmBootA) hmBootReady r) hmBootCause c) hmBootPhase 14
  let w := fset (fset w hmBootTimeLoaded (b2n s1.timeLoaded)) hmBootElapsedMs ms
  let s2 := s1.setReg hmBootA w
  let s3 : State := { s2 with boot := { s2.boot with
    open_ := decide (r ≠ 3), everReady := s2.boot.everReady || decide (r ≠ 3), timeWait := 0 } }
  let s4 := s3.trayRec 7 r c
  if s4.flag hmMcbstatA hmMcbstatDefaultsInUse ∧ !s4.flag hmMcbstatA hmMcbstatKeepBad then
    { s4 with flash := { s4.flash with due := true } }
  else s4

/-- Whether step 12 need not wait: time is loaded, or this master advertises DEPTH 0 (R531). -/
def State.timeReady (s : State) : Bool :=
  s.timeLoaded || (s.isMaster && decide (s.fld gtDiscsrcA gtDiscsrcDepth = 0))

/-- A start that waits at step 12 goes on once time is there (R531). -/
def State.tryReady (s : State) : State := if s.boot.timeWait ≠ 0 ∧ s.timeReady then s.reportReady else s

/-- EST_ERR with DISCIPLINED: 1 while it is 20 ns or below; clearing it raises the event (R375, R376). -/
def State.setErr (s : State) (e : Nat) : State :=
  let was := s.flag gtDiscstatA gtDiscstatDisciplined
  let is_ := decide (e ≤ 200)
  let s1 := (s.setFld gtDiscsrcA gtDiscsrcEstErr (min 0xFFFF e)).setFld gtDiscstatA gtDiscstatDisciplined (b2n is_)
  if was && !is_ then s1.raise (32 * 91 + 1) else s1

/-- A fresh error bound at a distance from the master: the spec gives its lower bound alone (R375; log entry 7). -/
def State.freshErr (s : State) (depth : Nat) : State :=
  let duo := s.drawNat
  let v := duo.1
  let s1 := duo.2
  s1.setErr (20 + 5 * depth + v % 65516)

/-- The order in which equal distances are taken (R373). -/
def parentOrder : List Nat := [1, 0, 3, 2, 5, 4]

/-- The neighbour that advertises the smallest DEPTH below 63 with LOADED set (R373). -/
def State.bestParent (s : State) : Option (Nat × Nat) :=
  parentOrder.foldl (fun best n =>
    if !s.linkUp n then best
    else
      match (s.link n).timeAd, best with
      | some (d, 1, _, _), some (_, d0) => if d < 63 ∧ d < d0 then some (n, d) else best
      | some (d, 1, _, _), none => if d < 63 then some (n, d) else best
      | _, _ => best) none

/-- Takes the parent and DEPTH that R373 gives; a change of parent is counted. -/
def State.chooseParent (s : State) : State :=
  let old := s.fld gtDiscsrcA gtDiscsrcParent
  let put : Nat → Nat → State := fun n d =>
    let s1 := (s.setFld gtDiscsrcA gtDiscsrcParent n).setFld gtDiscsrcA gtDiscsrcDepth d
    if n = old then s1 else s1.addSat gtDiscsrcA gtDiscsrcChanges 1
  if s.isMaster then put 7 (if s.timeLoaded then 0 else 63)
  else
    match s.bestParent with
    | some (n, d) => put n (d + 1)
    | none => put 7 63

/-- TIME_BEAD_SEND (R371, R372): T_TX is the sender's GTIME as the bead leaves. -/
def execTimeBeadSend (now link : Nat) (s : State) : Host.Outcome State Fault Refusal :=
  .next (let s := s.advance now
    let l := s.link link
    let due := match l.stamps with
      | [] => true
      | t :: _ => decide (t + 1000 * s.fld gtDisccfgA gtDisccfgPeriodUs ≤ s.gtime)
    if !s.linkUp link ∨ !due then s
    else
      let duo := match l.timeAd with
        | some (_, _, t, r) => (t, r)
        | none => (0, 0)
      let echo := duo.1
      let rx := duo.2
      let pay := natLe 1 4 ++ zeros 1 ++ natLe 2 s.node ++ natLe 1 link ++ zeros 3 ++ natLe 8 s.gtime ++ natLe 8 echo ++
        natLe 8 rx ++ natLe 1 (s.fld gtDiscsrcA gtDiscsrcDepth) ++
        natLe 1 (b2n s.timeLoaded + 2 * s.fld gtDiscstatA gtDiscstatDisciplined) ++
        natLe 2 (s.fld gtDisccfgA gtDisccfgMaster) ++ natLe 4 (s.fld gtDiscsrcA gtDiscsrcEstErr)
      (s.setLink link { l with stamps := [s.gtime] }).sendHop link 11 0 pay)

/-- The one-way delay of R372 from a bead's stamps and the receipt. -/
def beadDelay (b : Bead) (rx : Nat) : Int :=
  (((leAt b.pay 24 8 : Nat) : Int) - (leAt b.pay 16 8 : Nat) - (((leAt b.pay 8 8 : Nat) : Int) - (rx : Nat))) / 2

/-- The offset of R372: parent minus own. -/
def beadTheta (b : Bead) (rx : Nat) : Int :=
  ((((leAt b.pay 8 8 : Nat) : Int) - (rx : Nat)) + (((leAt b.pay 24 8 : Nat) : Int) - (leAt b.pay 16 8 : Nat))) / 2

/-- A slew toward θ = 0: its size within ±100 ppm follows from 16 samples that the spec does not weigh (R374; log entry 7). -/
def State.slew (s : State) (theta : Int) : State :=
  let duo := s.drawNat
  let v := duo.1
  let s1 := duo.2
  let adj : Int := if theta = 0 then 0 else if theta < 0 then -((v % 10001 : Nat) : Int) else ((v % 10001 : Nat) : Int)
  s1.setFld gtDiscstatA gtDiscstatAdj (twos 16 adj)

/-- TIME_BEAD (R58, R372 to R375): the parent's bead loads GTIME once before the first ready, and is slewed to after. -/
def execTimeBead (now link : Nat) (b : Bead) (s : State) : Host.Outcome State Fault Refusal :=
  .next (let s := s.advance now
    if 6 ≤ link ∨ b.kind ≠ 11 ∨ leAt b.pay 0 1 ≠ 4 then s
    else
      match s.takeBead link b with
      | none => s
      | some (s1, _) =>
        let rx := s1.gtime
        let loaded := (leAt b.pay 33 1).testBit 0
        let depth := leAt b.pay 32 1
        let s2 := (s1.setLink link { s1.link link with timeAd := some (depth, b2n loaded, leAt b.pay 8 8, rx) }).chooseParent
        let echoed := leAt b.pay 16 8 ≠ 0
        let may := !s2.timeLoaded && !s2.boot.everReady && loaded && decide (depth < 63) && decide echoed
        let isParent := decide (s2.fld gtDiscsrcA gtDiscsrcParent = link)
        if may ∧ (isParent ∨ s2.isMaster) then
          let t := (((leAt b.pay 8 8 : Nat) : Int) + beadDelay b rx).toNat
          ((((({ s2 with gtime := t % two64 }).setFld gtDiscstatA gtDiscstatLoaded 1).chooseParent).freshErr
            (if s2.isMaster then 0 else depth + 1))).tryReady
        else if isParent ∧ echoed then (s2.slew (beadTheta b rx)).freshErr (depth + 1)
        else s2)

/-- TIME_PARENT_LOSS (R373, R376): EST_ERR grows by 40 ppm of the time since the parent's last bead. -/
def execTimeParentLoss (now : Nat) (s : State) : Host.Outcome State Fault Refusal :=
  .next (let s := s.advance now
    let n := s.fld gtDiscsrcA gtDiscsrcParent
    if 6 ≤ n then s
    else
      let last := (match (s.link n).timeAd with
        | some (_, _, _, r) => r
        | none => (s.link n).tried)
      if s.gtime < last + 100000 then s
      else
        let drift := ceilDiv (s.gtime - last) 2500
        ((s.setLink n { s.link n with timeAd := none }).chooseParent).setErr (s.fld gtDiscsrcA gtDiscsrcEstErr + drift))

/-- MASTER_TIME_TIMEOUT (R373): 1 s of link training without a neighbour that advertises time. -/
def execMasterTimeTimeout (now : Nat) (s : State) : Host.Outcome State Fault Refusal :=
  .next (let s := s.advance now
    let waited := (List.range 6).any (fun n => decide ((s.link n).tried ≠ 0) && decide ((s.link n).tried + 1000000000 ≤ s.gtime))
    let heard := (List.range 6).any (fun n => (s.link n).timeAd.any (fun a => decide (a.1 < 63)))
    if !s.isMaster ∨ s.timeLoaded ∨ !waited ∨ heard then s
    else (((s.setFld gtDiscstatA gtDiscstatLoaded 1).chooseParent).freshErr 0).tryReady)

/-- REFERENCE_LOSS (R60): the reference input has left ±500 ppm for more than 40 ns. -/
def execReferenceLoss (s : State) : Host.Outcome State Fault Refusal :=
  .next (if s.flag gtRefstatA gtRefstatHoldover then s
    else
      (((((s.setFld gtRefstatA gtRefstatHoldover 1).setFld gtRefstatA gtRefstatRefOk 0).setFld gtRefstatA gtRefstatRefLost 1).addSat
        gtRefstatA gtRefstatLossCount 1).raise (32 * 91)).level (32 * 91 + 2) true)

/-- REFERENCE_RETURN (R60): the reference has been within ±20 ppm for 10 ms. -/
def execReferenceReturn (now : Nat) (s : State) : Host.Outcome State Fault Refusal :=
  .next (let s := s.advance now
    if s.flag gtRefstatA gtRefstatHoldover then
      ((s.setFld gtRefstatA gtRefstatHoldover 0).setFld gtRefstatA gtRefstatRefOk 1).level (32 * 91 + 2) false
    else s)

/-- SPEED_MONITOR_UPDATE (R46, R61): a measurement of a die, and whether its rails stand at the row in force (log entry 12). -/
def execSpeedMonitorUpdate (die rate junc : Nat) (opReached : Bool) (s : State) : Host.Outcome State Fault Refusal :=
  .next (if 52 ≤ die then s
    else
      let s1 := ((s.setFld (gtSpeedA die) gtSpeedRate rate).setFld (gtSpeedA die) gtSpeedJunc junc).setFld (gtSpeedA die) gtSpeedValid 1
      if opReached then s1.setFld (gtSpeedA die) gtSpeedOp s.modPower.op else s1)

end Sys2Proof.Machine
end

