-- ==== Sys2Proof/Machine/Manage.lean ====
section
/-!
DEFINITION. The outputs of the active Hasia: releasing them at the end of a cycle, tray records, in-band interrupts and the
ALERT_N line (R424, R430, R433, R438, R453).
-/

namespace Sys2Proof.Machine

/-- The level of a sideband pin, as the event controller senses it (R493 group 95). -/
def State.setPin (s : State) (bit : Nat) (v : Bool) : State := s.setLevel (32 * 95 + bit) v

/-- An in-band interrupt with a mandatory data byte (R453). -/
def State.ibi (s : State) (n : Nat) : State := { s with mgmt := { s.mgmt with ibi := s.mgmt.ibi ++ [n] } }

/-- ALERT_N is held low while a tray event record is unread (R453). -/
def State.alertLine (s : State) : State :=
  let low := !s.mgmt.events.isEmpty
  let s1 : State := { s with pins := { s.pins with alert := low } }
  (s1.setFld hmSidebandA hmSidebandAlertN (b2n !low)).setPin 6 !low

/-- Queues a tray event record: the oldest of 256 is overwritten and counted (R453). -/
def State.queueNote (s : State) (b : List Byte) : State :=
  let full := decide (256 ≤ s.mgmt.events.length)
  let ev := if full then s.mgmt.events.drop 1 ++ [b] else s.mgmt.events ++ [b]
  let s1 : State := { s with mgmt := { s.mgmt with events := ev, log := s.mgmt.log ++ [b] } }
  let s2 := if full then s1.addSat hmTrayhbA hmTrayhbEvlost 1 else s1
  (s2.ibi 2).alertLine

/-- A reply of the management context becomes readable; Hasia holds the 64 most recent (R452, R453). -/
def State.queueReply (s : State) (rseq : Nat) (b : List Byte) : State :=
  let q := s.mgmt.replies ++ [(rseq, b)]
  ({ s with mgmt := { s.mgmt with replies := q.drop (q.length - 64), unread := s.mgmt.unread ++ [rseq] } }).ibi 1

/-- PWRCAP.SAFE: a safe fall-back of R424 binds, the hub's own or the tray's. -/
def State.setSafe (s : State) (p : Nat) : State :=
  s.setFld (phPwrcapA p) phPwrcapSafe (b2n ((s.pwr p).safe || s.flag hmPwrstatA hmPwrstatRackLost))

/-- A keepalive reaches a hub: its 2 s timer restarts and its safe fall-back ends (R424). -/
def State.keepalive (s : State) (p : Nat) : State :=
  (s.setPwr p { s.pwr p with keep := s.gtime, safe := false }).setSafe p

/-- Releases one output. -/
def State.releaseOne (s : State) (h : HeldOut) : State :=
  match h with
  | .fld a lo w v => s.setFld a ⟨lo, w⟩ v
  | .keep p => s.keepalive p
  | .note b => s.queueNote b
  | .reply r b => s.queueReply r b
  | .done c q st aux => s.finish c q st noDetail aux

/-- Steps 3 and 4 of a cycle's end: its outputs, the first `n`, are released, once, and both dies send their heartbeats (R433,
R438). -/
def State.releaseFirst (s : State) (n : Nat) : State :=
  let s1 := (s.mgmt.held.take n).foldl State.releaseOne s
  let beat : Hasia → Hasia := fun h => if h.st = 3 ∨ h.st = 4 then { h with hb := s.gtime } else h
  { s1 with mgmt := { s1.mgmt with
      held := s.mgmt.held.drop n, sent := none, image := s1.mgmt.image.map (fun i => { i with held := [] }),
      releasedAt := s1.mgmt.cycleAt, a := beat s1.mgmt.a, b := beat s1.mgmt.b } }

/-- Releases every output that waits. -/
def State.releaseHeld (s : State) : State := s.releaseFirst s.mgmt.held.length

/-- Releases the outputs of the cycle whose image is out (R433). -/
def State.releaseSent (s : State) : State :=
  match s.mgmt.sent with
  | some (i, _) => s.releaseFirst i.held.length
  | none => s

/-- A write on a path of R430 from a die that does not hold the latch is ignored and counted. -/
def State.foreign (s : State) : State := s.addSat hmHbstatA hmHbstatForeign 1

/-- A write that only the active Hasia makes (R428, R430). -/
def State.byOwner (s : State) (w : Writer) (f : State → State) : State :=
  match w with
  | .hasia d => if s.activeDie = some d then f s else s.foreign
  | _ => s

end Sys2Proof.Machine
end

