-- ==== Sys2Proof/Machine/Power.lean ====
section
/-!
DEFINITION. The two power loops: the hub's estimate step, and the active Hasia's samples, allocation, thermal caps, shedding and
emergency caps (R398 to R426). Powers are integers in µW, each division rounded down; factors are in units of 2^-32 (log entry
31).
-/

namespace Sys2Proof.Machine

/-- One watt in µW. -/
abbrev watt : Nat := 1000000

/-! ### The hub's estimate (R400 to R402) -/

/-- Scales a power term by (VCORE / VCORE_OP5)² of a hub's die, ageing offset included, VCORE at most 0.98 V (R401, R425). -/
def State.vScale (s : State) (p x : Nat) : Nat :=
  let v := min 980 (Config.vcore (24 + p) s.modPower.op + 5 * s.fld (hmTarnishA (24 + p)) hmTarnishOffsetSteps)
  let v5 := Config.vcore (24 + p) 5
  x * (v * v) / (v5 * v5)

/-- The fixed part F: running harts and static draw (R400). -/
def State.fixedPart (s : State) (p pips : Nat) : Int :=
  let c2 := phPwrcoef2A p
  let pip := s.vScale p (pips * s.fld c2 phPwrcoef2PipMw * 1000)
  let tj := max (s.fld (gtSpeedA (2 * p)) gtSpeedJunc) (s.fld (gtSpeedA (2 * p + 1)) gtSpeedJunc)
  let stat : Int := (s.fld c2 phPwrcoef2StaticW * 100000 : Nat)
  (pip : Int) + stat * (1000 + (s.fld c2 phPwrcoef2StaticTc : Int) * ((tj : Int) - 60)) / 1000

/-- The dynamic part D of the activity of one microsecond: pJ in a microsecond is µW (R400, R401). -/
def State.dynPart (s : State) (p : Nat) (act : Activity) : Nat :=
  let c0 := phPwrcoef0A p
  let c1 := phPwrcoef1A p
  let coef := [s.fld c0 phPwrcoef0EMxfp8, s.fld c0 phPwrcoef0EMxfp6, s.fld c0 phPwrcoef0EMxfp4, s.fld c0 phPwrcoef0EInt8,
    s.fld c1 phPwrcoef1EBf16, s.fld c1 phPwrcoef1EFp32]
  let me := sumNat ((coef.zip act.steps).map (fun x => x.1 * x.2)) + act.pithSteps * s.fld c0 phPwrcoef0EMxfp8
  let mv := (act.hbmBytes * s.fld c1 phPwrcoef1MvHbm + act.otherBytes * s.fld c1 phPwrcoef1MvOther) / 10
  s.vScale p (me + mv)

/-- The bubble fraction in 1/65,536 that brings F + D0 down to `top` (R402, R404). -/
def bubbleFor (f d0 top : Int) : Nat :=
  if f + d0 ≤ top then 0
  else if d0 ≤ 0 ∨ f > top then 65280
  else min 65280 (((f + d0 - top) * 65536 + d0 - 1) / d0).toNat

/-- hint_level after one more step toward the hint's target (R410). -/
def Power.hintStep (x : Power) (now ramp : Nat) : Power :=
  match x.hint with
  | none => { x with hintLevel := 0 }
  | some h =>
    if h.endAt ≠ 0 ∧ h.endAt ≤ now + 1 then { x with hint := none, hintLevel := 0 }
    else if now < h.startAt then { x with hintLevel := 0 }
    else
      let from_ := if x.hintLevel = 0 then x.level else x.hintLevel
      let t : Int := (h.target : Nat)
      { x with hintLevel := if from_ ≤ t then min t (from_ + (ramp : Nat)) else max t (from_ - (ramp : Nat)) }

/-- RAMP_SHORT is set with its event (R404, R407). -/
def State.rampShort (s : State) (p : Nat) : State :=
  (s.setFld (phPwrestA p) phPwrestRampShort 1).raise (32 * (73 + p) + 8)

/-- Flushes every unit of a partition's tiles: what their loss of power or a reset of the partition ends (R138 to R141). -/
def State.flushTiles (s : State) (p : Nat) : State :=
  [2 * p, 2 * p + 1].foldl (fun s t =>
    let s1 := (List.range 2).foldl (fun s g => s.grpFlush t g) s
    let s2 := (List.range 8).foldl (fun s j => s.mvFlush t j) s1
    (List.range 32).foldl (fun s h => s.hartReset t h) s2) s

/-- A tile's store is lost with its power: what comes back is marked word by word (R573). -/
def State.loseTile (s : State) (t : Nat) : State :=
  { s with mem := kvClear s.mem (tileBase t) 0xA000000, tsBad := kvClear s.tsBad (tileBase t / 8) 0x1400000,
           tsLost := kvSet false s.tsLost t true }

/-- The tile domains of a partition switch off (R396). -/
def State.tilesOff (s : State) (p : Nat) : State :=
  let s1 := s.flushTiles p
  let s2 := [2 * p, 2 * p + 1].foldl (fun s t => s.loseTile t) s1
  let s3 : State := { s2 with domains := (List.range 6).foldl (fun m i => kvSet false m (6 * p + i) false) s2.domains }
  (s3.setFld (phPwrcapA p) phPwrcapTilesOn 0).setPwr p { s3.pwr p with level := 0, fresh := false, descend := false }

/-- ESTIMATE_STEP (R400 to R404, R407, R410): the activity, the demand and the idle MEs' capacity are measured (log entry 12). -/
def execEstimateStep (now p : Nat) (act : Activity) (s : State) : Host.Outcome State Fault Refusal :=
  .next (let s := s.advance now
    if 12 ≤ p ∨ !s.domOn (72 + p) then s
    else if !s.tilesOn p then
      (((s.setFld (phPwrestA p) phPwrestEst 0).setFld (phPwrestA p) phPwrestBubble 0).setFld (phPwrestA p) phPwrestPithW 0).setFld
        (phPwrestA p) phPwrestPith 0
    else
      let lim := phPwrlimA p
      let dw : Fld → Int := fun f => ((s.fld lim f * 100000 : Nat) : Int)
      let ramp := s.fld lim phPwrlimRampStep * 100
      let f : Int := s.fixedPart p act.pips
      let e : Int := f + (s.dynPart p act : Nat)
      let x0 := s.pwr p
      let x := { x0 with level := if x0.fresh then e else x0.level, fresh := false,
                         est := (x0.est.1 + e.toNat, x0.est.2 + 1) }
      let soft0 : Int := dw phPwrlimLimitEst
      let soft : Int := if x.safe then min soft0 (dw phPwrlimSafeEst) else soft0
      let up : Int := x.level + (ramp : Nat)
      let down : Int := x.level - (ramp : Nat)
      let top0 : Int := min (max soft down) up
      let top : Int := if s.flag (phPwrcapA p) phPwrcapEmerg then min (dw phPwrlimEmergEst) top0 else top0
      let d0 : Int := (act.demand : Nat)
      let measOnly := s.flag (phPwrctlA p) phPwrctlMeasOnly
      let b := if measOnly then 256 * s.fld (phPwrctlA p) phPwrctlBubbleSet else bubbleFor f d0 top
      let run : Int := f + d0 * (65536 - (b : Nat)) / 65536
      let y := x.hintStep s.gtime ramp
      let floor : Int := min (max down y.hintLevel) top
      let want : Int := max 0 (floor - run)
      let pith : Int := min want (act.pithCap : Nat)
      let short := (!measOnly && decide (f > top)) || decide (want > pith)
      let y1 := { y with level := run + pith }
      let a := phPwrestA p
      let w := s.reg a
      let w := fset (fset (fset w phPwrestEst (min 65535 (e.toNat / 100000))) phPwrestBubble b) phPwrestPithW (min 65535 (pith.toNat / 100000))
      let w := fset (fset w phPwrestPith (b2n (decide (0 < pith)))) phPwrestHint (b2n y1.hint.isSome)
      let s1 := (s.setReg a w).setPwr p y1
      let s2 := if short then s1.rampShort p else s1
      -- The descent of R396 ends when the level meets the fixed part.
      if y1.descend ∧ y1.level ≤ f then s2.tilesOff p else s2)

/-! ### Allocation (R393, R411, R413, R418) -/

/-- The efficiency of the last 1 ms as a fraction, used no lower than 0.90 (R398). -/
def State.eta (s : State) : Nat × Nat :=
  let q := s.modPower.recent.take 50
  let out := sumNat (q.map (·.1))
  let inp := sumNat (q.map (·.2.1))
  if inp = 0 ∨ 10 * out < 9 * inp then (9, 10) else (out, inp)

/-- Whether the tray heartbeat is lost (R424). -/
def State.rackLost (s : State) : Bool := s.flag hmPwrstatA hmPwrstatRackLost

/-- The module input cap c_in in µW (R393, R411, R417 to R419, R424). -/
def State.cIn (s : State) : Nat :=
  let c := hmPwrcfgA
  let caps := [min 4100 (s.fld c hmPwrcfgRackCapW) * watt] ++
    (match s.modPower.uvMv with
    | some mv => [mv * 102500]
    | none => []) ++
    (if s.rackLost then [s.fld c hmPwrcfgSafePct * 41 * watt] else []) ++
    (if s.flag hmPwrstatA hmPwrstatTelemFault then [2870 * watt] else []) ++
    (if s.flag hmPwrstatA hmPwrstatEmergCool then [s.fld c hmPwrcfgCoolPct * 41 * watt] else [])
  caps.foldl min (4100 * watt)

/-- The common power of R411: the largest of the last 10 ms, in µW. -/
def State.commonPower (s : State) : Nat := maxNat (s.modPower.recent.map (·.2.2)) * 100000

/-- Water-filling of the host caps (R411): each open partition with its cap, the power left, and what each gets. -/
def waterFill : Nat → List (Nat × Option Nat) → Nat → List (Nat × Nat)
  | 0, _, _ => []
  | fuel + 1, open_, left =>
    if open_.isEmpty then []
    else
      let fair := left / open_.length
      let isLow : Nat × Option Nat → Bool := fun q => q.2.any (fun c => decide (c ≤ fair))
      let low := open_.filter isLow
      if low.isEmpty then open_.map (fun q => (q.1, fair))
      else
        low.map (fun q => (q.1, q.2.getD 0)) ++
          waterFill fuel (open_.filter (fun q => !isLow q)) (left - sumNat (low.map (fun q => q.2.getD 0)))

/-- Whether a partition is shed (R422). -/
def State.isShed (s : State) (p : Nat) : Bool := (s.fld hmPwrstatA hmPwrstatShed).testBit p
/-- Whether a partition diverges (R416). -/
def State.divergent (s : State) (p : Nat) : Bool := (s.fld hmPwrstatA hmPwrstatDivergent).testBit p

/-- Partitions with tile domains on and not shed. -/
def State.onParts (s : State) : List Nat := (List.range 12).filter (fun p => s.tilesOn p && !s.isShed p)

/-- The equal share of the pool in µW (R411). -/
def State.rackShare (s : State) : Nat :=
  let duo := s.eta
  let n := duo.1
  let d := duo.2
  let pool := s.cIn * n / d - s.commonPower
  let shed := (List.range 12).filter (fun p => s.isShed p)
  pool / max 1 (s.onParts.length + shed.length)

/-- The effective cap of every partition in µW, 0 for one whose tile domains are off (R411). -/
def State.effCaps (s : State) : List Nat :=
  let on := s.onParts
  let filled := waterFill 13 (on.map (fun p => (p, (s.pwr p).hostCap.map (· * watt)))) (s.rackShare * on.length)
  (List.range 12).map (fun p =>
    match filled.find? (fun q => decide (q.1 = p)) with
    | none => 0
    | some q =>
      let e := match (s.pwr p).thermal with
        | some t => min q.2 t
        | none => q.2
      if s.divergent p then e * 9 / 10 else e)

/-- Takes the allocation as each partition's effective cap. -/
def State.allocate (s : State) : State :=
  ((s.effCaps).zip (List.range 12)).foldl (fun s q => s.setPwr q.2 { s.pwr q.2 with eff := q.1 }) s

/-- The emergency fraction in percent (R413, R418). -/
def State.emergPct (s : State) : Nat :=
  let shelf := s.fld hmPwrcfgA hmPwrcfgShelfPct
  let cool := s.fld hmPwrcfgA hmPwrcfgCoolPct
  if s.flag hmPwrstatA hmPwrstatEmergCool then
    if s.flag hmTrayrptA hmTrayrptShelfLoss then min shelf cool else cool
  else shelf

/-- A cap of a percentage of 4,100 W, from the same pool as the effective caps, in 0.1 W (R411, R413). -/
def State.pctCap (s : State) (p pct : Nat) : Nat :=
  min 65535 (pct * (s.pwr p).eff * (4100 * watt) / (100 * max 1 s.cIn) / 100000)

/-- EMERG_EST of every powered hub is rewritten at once (R434). -/
def State.writeEmerg (s : State) : State :=
  (List.range 12).foldl (fun s p => s.setFld (phPwrlimA p) phPwrlimEmergEst (s.pctCap p s.emergPct)) s

/-- LIMIT_EST: k_p times the effective cap, in 0.1 W (R412). -/
def State.writeLimit (s : State) (p : Nat) : State :=
  s.setFld (phPwrlimA p) phPwrlimLimitEst (min 65535 ((s.pwr p).kp * (s.pwr p).eff / 4294967296 / 100000))

/-- RAMP_STEP of a powered partition in 0.1 mW per µs (R409). -/
def State.rampStep (s : State) : Nat :=
  let duo := s.eta
  let n := duo.1
  let d := duo.2
  min 65535 (s.fld hmPwrcfgA hmPwrcfgRamp * 41 * n / (d * max 1 ((List.range 12).filter (fun p => s.tilesOn p)).length))

/-- Rack order for a partition (R395). -/
def State.rackOn (s : State) (p : Nat) : Bool := (s.fld hmRackordA hmRackordRackOn).testBit p

/-- The register writes that a cycle computes for one partition's hub. -/
def State.powerOutputs (s : State) (p : Nat) : List HeldOut :=
  let put : Nat → Fld → Nat → HeldOut := fun a f v => .fld a f.lo f.width v
  let cap := phPwrcapA p
  let x := s.pwr p
  (if s.tilesOn p then
    [put (phPwrlimA p) phPwrlimEmergEst (s.pctCap p s.emergPct),
     put (phPwrlimA p) phPwrlimSafeEst (s.pctCap p (s.fld hmPwrcfgA hmPwrcfgSafePct)),
     put (phPwrlimA p) phPwrlimRampStep s.rampStep]
  else []) ++
  [put cap phPwrcapEffectiveW (min 65535 (x.eff / watt)), put cap phPwrcapHostW (min 65535 (x.hostCap.getD 0)),
   put cap phPwrcapRackShareW (min 65535 (s.rackShare / watt)), put cap phPwrcapDivergent (b2n (s.divergent p)),
   put cap phPwrcapTelemFault (s.fld hmPwrstatA hmPwrstatTelemFault), put cap phPwrcapThermal (b2n x.thermal.isSome),
   put cap phPwrcapRackOn (b2n (s.rackOn p)), put cap phPwrcapShed (b2n (s.isShed p)), .keep p]

/-! ### Samples (R398, R399, R412, R416, R417) -/

/-- Power of a channel's present rail word, in 0.1 W. -/
def State.railW (s : State) (c : Nat) : Nat := s.fld (hmRailA c) hmRailPower

/-- Whether a sample of channel `c` is plausible beside the sum of the other channels (R399). -/
def State.railOk (s : State) (smp : Telemetry) (c : Nat) : Bool :=
  match smp.rails.getD c none with
  | none => decide (s.gtime < kvGet 0 s.modPower.railAt c + 100000)
  | some (_, _, w) =>
    let others := sumNat (((List.range 24).filter (· ≠ 21)).map (fun k => match smp.rails.getD k none with
      | some (_, _, v) => v
      | none => s.railW k))
    let est := (s.pwr c).est.1 / max 1 (s.pwr c).est.2
    decide (2 * w ≤ 3 * Config.railRating c) &&
      !(decide (c < 12) && decide (w * 100000 * 10 < est) && decide ((s.pwr c).eff < 2 * est)) &&
      !(decide (c = 21) && decide (w < others))

/-- Takes a channel's sample into its rail word. -/
def State.takeRail (s : State) (smp : Telemetry) (c : Nat) : State :=
  let a := hmRailA c
  match smp.rails.getD c none with
  | none => s
  | some (i, v, w) =>
    let s1 := ((s.setFld a hmRailCurrent i).setFld a hmRailVoltage v).setFld a hmRailPower w
    let s2 := s1.addWrap a hmRailSamples 1
    { s2 with modPower := { s2.modPower with railAt := kvSet 0 s2.modPower.railAt c s2.gtime } }

/-- Whether a partition's estimate and measurement, averaged over the sample's 20 µs, differ by more than a percentage of the
measurement (R416). -/
def offBy (e m pct : Nat) : Bool :=
  let d := if e ≤ m then m - e else e - m
  decide (pct * m < 100 * d)

/-- POWER_MODEL_DIVERGENT of a partition (R416). -/
def State.setDivergent (s : State) (p : Nat) (v : Bool) : State :=
  let d := s.fld hmPwrstatA hmPwrstatDivergent
  let s1 := (s.setFld hmPwrstatA hmPwrstatDivergent (setBits d p 1 (b2n v))).setFld (phPwrctlA p) phPwrctlMeasOnly (b2n v)
  if v then s1.raise (32 * 92 + 3) else s1

/-- The factor of R412 in units of 2^-32, kept within 0.80 and 1.10, after a sample with mean measurement `mean` under the cap `eff`. -/
def loopFactor (kp eff mean : Nat) : Nat :=
  let k : Int := (kp : Nat)
  (max 3435973837 (min 4724464025 (k + k * ((eff : Int) - mean) / (4 * (eff : Int))))).toNat

/-- BUBBLE_SET follows the measured loop by a law that the spec does not give (R416; log entry 7). -/
def State.drawBubble (s : State) (p : Nat) : State :=
  s.drawNat.2.setFld (phPwrctlA p) phPwrctlBubbleSet (s.drawNat.1 % 256)

/-- The measured loop and the comparison of one partition at a sample. -/
def State.samplePart (s : State) (p : Nat) : State :=
  let m := s.railW p
  let x := s.pwr p
  let meas := (m :: x.meas).take 5
  let fault := s.flag hmPwrstatA hmPwrstatTelemFault
  let kp := if fault then 4294967296 else if x.eff = 0 then x.kp else loopFactor x.kp x.eff (sumNat meas * 100000 / meas.length)
  let e := x.est.1 / max 1 x.est.2
  let m6 := m * 100000
  let div := s.divergent p
  let cond := if div then !offBy e m6 10 else offBy e m6 15
  let condAt := if fault ∨ x.est.2 = 0 ∨ !cond then none else some (x.condAt.getD s.gtime)
  let s1 := s.setPwr p { x with meas := meas, kp := kp, est := (0, 0), condAt := condAt }
  let flip := condAt.any (fun t => decide (t + (if div then 1000000000 else 20000000) ≤ s.gtime))
  let s2 := if flip then (s1.setDivergent p !div).setPwr p { s1.pwr p with condAt := none } else s1
  if s2.divergent p ∧ !fault then s2.drawBubble p else s2

/-- TELEMETRY_SAMPLE (R398, R399, R411, R412, R416, R417). -/
def execTelemetrySample (now : Nat) (smp : Telemetry) (s : State) : Host.Outcome State Fault Refusal :=
  .next (let s := s.advance now
    if !s.hasiaUp then s
    else
      let ok := (List.range 24).map (fun c => s.railOk smp c)
      let s1 := (List.range 24).foldl (fun s c =>
        let s' := s.takeRail smp c
        s'.setFld (hmRailA c) hmRailPlausible (b2n (ok.getD c false))) s
      let other := sumNat (((List.range 24).filter (· ≠ 21)).map s1.railW)
      let common := sumNat (((List.range 24).filter (fun c => decide (12 ≤ c) && decide (c ≠ 21))).map s1.railW)
      let mp := s1.modPower
      let recent := ((other, s1.railW 21, common) :: mp.recent).take 500
      let bad := !ok.all id
      let s2 : State := { s1 with modPower := { mp with
        recent := recent, badAt := if bad then s1.gtime else mp.badAt,
        overAt := if 44000 < s1.railW 21 then s1.gtime else mp.overAt } }
      let was := s2.flag hmPwrstatA hmPwrstatTelemFault
      let fault := bad || (was && decide (s2.gtime < mp.badAt + 1000000000))
      let s3 := (s2.setFld hmPwrstatA hmPwrstatTelemFault (b2n fault)).level (32 * 92 + 2) fault
      let s3 := if fault = was then s3 else (List.range 12).foldl (fun s p =>
        s.setFld (phPwrctlA p) phPwrctlMeasOnly (b2n (!fault && s.divergent p))) s3
      let five := (recent.take 5).map (·.2.1)
      let inW := sumNat five / five.length
      let s4 := (s3.setFld hmPwrstatA hmPwrstatInputW (min 8191 (inW / 10))).setFld hmPwrstatA hmPwrstatInletC smp.inletC
      let s5 := ((List.range 12).filter (fun p => s4.tilesOn p)).foldl (fun s p => s.samplePart p) s4.allocate
      let s6 := if fault ∨ inW * 100000 ≤ s5.cIn ∨ inW = 0 then s5
        else (List.range 12).foldl (fun s p =>
          s.setPwr p { s.pwr p with kp := (s.pwr p).kp * s5.cIn / (inW * 100000) }) s5
      ((List.range 12).filter (fun p => s6.tilesOn p)).foldl (fun s p => s.writeLimit p) s6)

/-! ### Thermal caps and shedding (R420 to R422) -/

/-- JUNC of a die, where a measurement has been taken. -/
def State.junc (s : State) (d : Nat) : Nat := if s.flag (gtSpeedA d) gtSpeedValid then s.fld (gtSpeedA d) gtSpeedJunc else 0

/-- Dies that belong to the module and not to a partition or the host (R421). -/
def commonDies : List Nat := (List.range 11).map (· + 36) ++ [47, 49, 50, 51]

/-- The thermal cap of a partition after one cycle (R421). -/
def State.thermalStep (s : State) (p : Nat) : State :=
  let own := [2 * p, 2 * p + 1, 24 + p].map s.junc
  let com := commonDies.map s.junc
  let hot := maxNat own
  let chot := maxNat com
  let x := s.pwr p
  let cool := if hot ≤ 102 ∧ chot ≤ 102 then x.cool + 1 else 0
  let base := x.thermal.getD x.eff
  let t0 := if 105 ≤ hot then some (s.railW p * 95000) else x.thermal
  let t1 := if 105 ≤ chot then some ((t0.getD base) * 98 / 100) else t0
  let t2 := match t1 with
    | some t => if 10 ≤ cool then (if x.eff < t then none else some (t * 101 / 100)) else some t
    | none => none
  let s1 := s.setPwr p { x with thermal := t2, cool := cool }
  if t2.isSome ∧ x.thermal.isNone then s1.raise (32 * 92 + 5) else s1

/-- The inlet temperature is outside 15 to 45 °C (R420). -/
def State.inletCheck (s : State) : State :=
  let c := s.fld hmPwrstatA hmPwrstatInletC
  let out := decide (c < 15 ∨ 45 < c)
  (s.setFld hmPwrstatA hmPwrstatInletRange (b2n out)).level (32 * 92 + 1) out

/-- The hottest die reads a temperature or above. -/
def State.anyDie (s : State) (t : Nat) : Bool := (List.range 52).any (fun d => decide (t ≤ s.junc d))

/-- Keeps the time at which shedding may not yet be undone (R422). -/
def State.heatMark (s : State) : State :=
  if s.anyDie 100 ∨ s.flag hmPwrstatA hmPwrstatEmergCool then { s with modPower := { s.modPower with hotAt := s.gtime } } else s

/-- SHED of a partition (R422). -/
def State.setShed (s : State) (p : Nat) (v : Bool) : State :=
  let m := s.fld hmPwrstatA hmPwrstatShed
  (s.setFld hmPwrstatA hmPwrstatShed (setBits m p 1 (b2n v))).setFld (phPwrcapA p) phPwrcapShed (b2n v)

/-- SHED_STEP (R422). -/
def execShedStep (now : Nat) (s : State) : Host.Outcome State Fault Refusal :=
  .next (let s := (s.advance now).heatMark
    let mp := s.modPower
    let order := (List.range 12).map (fun i => bits (s.fld hmShedordA hmShedordOrder) (4 * i) 4)
    if !s.hasiaUp then s
    else if s.flag hmPwrstatA hmPwrstatEmergCool then
      if s.anyDie (s.fld hmPwrcfgA hmPwrcfgShedC) ∧ (mp.shed.isEmpty ∨ mp.shedAt + 10000000 ≤ s.gtime) then
        match order.find? (fun p => decide (p < 12) && !s.isShed p) with
        | some p => (({ s with modPower := { mp with shed := mp.shed ++ [p], shedAt := s.gtime } }).setShed p true).raise (32 * 92 + 6)
        | none => s
      else s
    else if mp.hotAt + 1000000000 ≤ s.gtime ∧ mp.shedAt + 100000000 ≤ s.gtime then
      match mp.shed.getLast? with
      | some p => ({ s with modPower := { mp with shed := mp.shed.dropLast, shedAt := s.gtime } }).setShed p false
      | none => s
    else s)

/-! ### The emergency input (R394, R418, R419) -/

/-- EMERG of every hub follows the emergency input. -/
def State.emergLine (s : State) : State :=
  let v := s.modPower.pwrlim || s.modPower.overPower
  let s1 := (List.range 12).foldl (fun s p => s.setFld (phPwrcapA p) phPwrcapEmerg (b2n v)) s
  s1.level (32 * 92 + 4) v

/-- OVER_POWER_TRIP (R394): the average over 20 µs is the row's occasion. -/
def execOverPowerTrip (now : Nat) (s : State) : Host.Outcome State Fault Refusal :=
  .next (let s := s.advance now
    let s1 : State := { s with modPower := { s.modPower with overPower := true, overAt := s.gtime, emerg := true } }
    ((s1.setFld hmPwrstatA hmPwrstatOverpower 1).raise (32 * 92)).emergLine)

/-- OVER_POWER_RELEASE (R394). -/
def execOverPowerRelease (now : Nat) (s : State) : Host.Outcome State Fault Refusal :=
  .next (let s := s.advance now
    if !s.modPower.overPower ∨ s.gtime < s.modPower.overAt + 10000000 then s
    else ({ s with modPower := { s.modPower with overPower := false } }).emergLine)

/-- The level of PWRLIM_N on its pin. -/
def State.pwrlimPin (s : State) (high : Bool) : State := (s.setFld hmSidebandA hmSidebandPwrlimN (b2n high)).setPin 3 high

/-- PWRLIM_ASSERT (R418): the hubs take EMERG_EST, precomputed for shelf loss. -/
def execPwrlimAssert (now : Nat) (s : State) : Host.Outcome State Fault Refusal :=
  .next (let s := s.advance now
    if s.modPower.pwrlim then s
    else
      let s1 : State := { s with modPower := { s.modPower with pwrlim := true, pwrlimAt := s.gtime, emerg := true } }
      ((s1.setFld hmPwrstatA hmPwrstatEmergShelf 1).pwrlimPin false).emergLine)

/-- PWRLIM_RELEASE (R419). -/
def execPwrlimRelease (now : Nat) (s : State) : Host.Outcome State Fault Refusal :=
  .next (let s := s.advance now
    if !s.modPower.pwrlim then s
    else (({ s with modPower := { s.modPower with pwrlim := false, pwrlimAt := s.gtime } }).pwrlimPin true).emergLine)

/-- EMERG_COOL: a cooling-loss report is active, or Hasia has taken the cause to be cooling loss (R418, R419). -/
def State.coolFlag (s : State) : State :=
  s.setFld hmPwrstatA hmPwrstatEmergCool (b2n (s.flag hmTrayrptA hmTrayrptCoolLoss || s.modPower.assumed))

/-- EMERGENCY_CAUSE_TIMEOUT (R418). -/
def execEmergencyCauseTimeout (now : Nat) (s : State) : Host.Outcome State Fault Refusal :=
  .next (let s := s.advance now
    let told := s.flag hmTrayrptA hmTrayrptShelfLoss || s.flag hmTrayrptA hmTrayrptCoolLoss
    if !s.hasiaUp ∨ !s.modPower.pwrlim ∨ s.modPower.assumed ∨ told ∨ s.gtime < s.modPower.pwrlimAt + 20000000 then s
    else ((({ s with modPower := { s.modPower with assumed := true } }).coolFlag).allocate).writeEmerg)

/-- EMERGENCY_END (R419). -/
def execEmergencyEnd (now : Nat) (s : State) : Host.Outcome State Fault Refusal :=
  .next (let s := s.advance now
    let mp := s.modPower
    if !mp.emerg ∨ mp.pwrlim ∨ mp.overPower ∨ s.gtime < mp.pwrlimAt + 10000000 then s
    else (({ s with modPower := { mp with emerg := false, assumed := false } }).setFld hmPwrstatA hmPwrstatEmergShelf 0).coolFlag)

/-- Whether a writer reaches the management-only space: the active Hasia, or the tray controller over its port (R37, R451). -/
def State.mgmtWriter (s : State) (w : Writer) : Bool :=
  match w with
  | .hasia d => decide (s.activeDie = some d)
  | .tray => s.hasiaUp
  | _ => false

/-- A report of the tray's causes (R418). -/
def State.trayCause (s : State) (shelf cool : Bool) : State :=
  let s1 := ((s.setFld hmTrayrptA hmTrayrptShelfLoss (b2n shelf)).setFld hmTrayrptA hmTrayrptCoolLoss (b2n cool)).coolFlag
  let s2 := s1.setFld hmPwrstatA hmPwrstatEmergShelf (b2n (s1.modPower.emerg || shelf))
  (s2.allocate).writeEmerg

/-- TRAY_CAUSE_REPORT (R418). -/
def execTrayCauseReport (shelf cool : Bool) (by_ : Writer) (s : State) : Host.Outcome State Fault Refusal :=
  .next (if s.mgmtWriter by_ then s.trayCause shelf cool else s)

/-! ### Keepalives and heartbeats (R424) -/

/-- KEEPALIVE (R424, R428, R430). -/
def execKeepalive (now p : Nat) (by_ : Writer) (s : State) : Host.Outcome State Fault Refusal :=
  .next (let s := s.advance now
    if 12 ≤ p ∨ !s.domOn (72 + p) then s else s.byOwner by_ (fun s => s.keepalive p))

/-- KEEPALIVE_TIMEOUT (R424). -/
def execKeepaliveTimeout (now p : Nat) (s : State) : Host.Outcome State Fault Refusal :=
  .next (let s := s.advance now
    if 12 ≤ p ∨ !s.domOn (72 + p) ∨ s.gtime < (s.pwr p).keep + 2000000000 then s
    else (s.setPwr p { s.pwr p with safe := true }).setSafe p)

/-- A tray heartbeat (R424). -/
def State.trayBeat (s : State) (v : Nat) : State :=
  let s1 : State := { s with modPower := { s.modPower with trayHb := s.gtime } }
  ((s1.setFld hmTrayhbA hmTrayhbSeq v).setFld hmTrayhbA hmTrayhbLost 0).setFld hmPwrstatA hmPwrstatRackLost 0

/-- TRAY_HEARTBEAT (R424, R459). -/
def execTrayHeartbeat (now v : Nat) (by_ : Writer) (s : State) : Host.Outcome State Fault Refusal :=
  .next (let s := s.advance now
    if s.mgmtWriter by_ then s.trayBeat v else s)

/-- TRAY_HEARTBEAT_LOSS (R424). -/
def execTrayHeartbeatLoss (now : Nat) (s : State) : Host.Outcome State Fault Refusal :=
  .next (let s := s.advance now
    if !s.hasiaUp ∨ s.gtime < s.modPower.trayHb + 5000000000 then s
    else (s.setFld hmTrayhbA hmTrayhbLost 1).setFld hmPwrstatA hmPwrstatRackLost 1)

/-! ### Operating point and tarnish (R45, R46, R425, R426) -/

/-- OP_CHANGE (R45, R46): Hasia applies the value that HM.PWRCFG.OP holds; each die reports it once its rails stand there. -/
def execOpChange (op : Nat) (s : State) : Host.Outcome State Fault Refusal :=
  .next (if s.hasiaUp ∧ s.fld hmPwrcfgA hmPwrcfgOp = op then { s with modPower := { s.modPower with op := op } } else s)

/-- TARNISH_EVAL (R425, R426): the drift is measured (log entry 12). -/
def execTarnishEval (die drift : Nat) (s : State) : Host.Outcome State Fault Refusal :=
  .next (if 52 ≤ die ∨ !s.hasiaUp then s
    else
      let a := hmTarnishA die
      let steps := max (s.fld a hmTarnishOffsetSteps) (min 6 (drift / 50))
      let s1 := (s.setFld a hmTarnishDrift (min 65535 drift)).setFld a hmTarnishOffsetSteps steps
      if steps = 6 ∧ 350 ≤ drift ∧ !s1.flag a hmTarnishAtLimit then (s1.setFld a hmTarnishAtLimit 1).raise (32 * 92 + 7) else s1)

end Sys2Proof.Machine
end

