-- ==== Sys2Proof/Machine/PowerCmd.lean ====
section
/-!
DEFINITION. The management cycle with its telemetry block and state image, and the commands of a host that ask for power (R289 to
R291, R410, R415, R433 to R437, R455).
-/

namespace Sys2Proof.Machine

/-! ### Cap requests (R290, R395, R415, R522) -/

/-- Whether the terms of R395 other than HOST_ON let a partition's tile domains be on, and the partition is in service (R522). -/
def State.mayPower (s : State) (p : Nat) : Bool :=
  s.rackOn p && !s.isShed p && s.pins.forceOffN && s.modPower.trip.isNone && !s.outOfService p

/-- The rule of R395. -/
def State.onRule (s : State) (p : Nat) : Bool := s.mayPower p && (s.pwr p).hostOn

/-- Holds a partition's power registers as outputs of the cycle. -/
def State.holdPower (s : State) (p : Nat) : State :=
  if s.domOn (72 + p) then (s.powerOutputs p).foldl State.hold s else s

/-- Removes a request of steward firmware. -/
def State.dropRequest (s : State) (ctx cseq : Nat) : State :=
  { s with mgmt := { s.mgmt with requests := s.mgmt.requests.filter (fun r => decide (r ≠ (ctx, cseq))) } }

/-- Hasia's decision on a CAP_REQUEST; the command finishes when the cycle's outputs are released (R290, R415, R433). -/
def State.decideCap (s0 : State) (ctx : Nat) (c : Cmd) : State :=
  let s := s0.dropRequest ctx c.cseq
  let p := par c.packet 2 2
  let w := par c.packet 4 4
  let x := s.pwr p
  let done : State → Bool → Bool → State := fun s clamped on =>
    let s1 := (s.allocate).holdPower p
    (s1.modCmd ctx c.cseq (fun k => { k with issued := true })).hold
      (.done ctx c.cseq (if clamped then .capClamped else .ok) ((s1.pwr p).eff / watt + b2n on * two32))
  match par c.packet 0 1 with
  | 0 =>
    let cap := if w = 0 then none else some (max 70 w)
    let s1 := (s.setPwr p { x with hostCap := cap }).allocate
    done s1 (decide (w ≠ 0) && (decide (w < 70) || decide ((s1.pwr p).eff / watt < w))) (s1.tilesOn p)
  | 1 =>
    if (s.partCtxs p).any (fun e => e.2.cmds.any (fun k => !decide (e.1 = ctx ∧ k.cseq = c.cseq))) then s.fail ctx c.cseq .busy
    else done (s.setPwr p { x with hostOn := false }) false false
  | _ =>
    let s1 := s.setPwr p { x with hostOn := true }
    done s1 (!s1.mayPower p) (s1.mayPower p)

/-- CAP_REQUEST (R290): with no active Hasia the request waits. -/
def execCapRequest (now ctx cseq : Nat) (s : State) : Host.Outcome State Fault Refusal :=
  .next (let s := s.advance now
    s.withBody ctx cseq .capRequest (fun c =>
      if s.hasiaUp then s.decideCap ctx c
      else if c.tReq ≠ 0 then s
      else
        let s1 := s.modCmd ctx cseq (fun k => { k with tReq := s.gtime + 1 })
        { s1 with mgmt := { s1.mgmt with requests := s1.mgmt.requests ++ [(ctx, cseq)] } }))

/-- CAP_REQUEST_TIMEOUT (R290): the request is withdrawn. -/
def execCapRequestTimeout (now ctx cseq : Nat) (s : State) : Host.Outcome State Fault Refusal :=
  .next (let s := s.advance now
    s.withBody ctx cseq .capRequest (fun c =>
      if c.tReq = 0 ∨ s.gtime + 1 < c.tReq + 2000000000 then s else (s.dropRequest ctx cseq).fail ctx cseq .timeout))

/-- CAP_QUERY (R291): the hub answers from its power-limit registers. -/
def execCapQuery (ctx cseq : Nat) (s : State) : Host.Outcome State Fault Refusal :=
  .next (s.withBody ctx cseq .capQuery (fun c =>
    s.finish ctx c.cseq .ok noDetail (bits (s.reg (phPwrcapA (par c.packet 2 2))).toNat 0 51)))

/-- HINT_PHASE (R289, R410). -/
def execHintPhase (now ctx cseq : Nat) (s : State) : Host.Outcome State Fault Refusal :=
  .next (let s := s.advance now
    s.withBody ctx cseq .hintPhase (fun c =>
      let p := partOf ctx
      let x := s.pwr p
      let lead := par c.packet 0 4 * 1000
      let dur := par c.packet 8 4 * 1000
      let h := min (par c.packet 4 4) (s.fld (phPwrcapA p) phPwrcapEffectiveW) * watt
      let ramp := s.fld (phPwrlimA p) phPwrlimRampStep * 100
      let climb : Int := ((h : Int) - x.level) * 1000 / (ramp : Nat)
      let start := ((c.tStart + lead : Nat) : Int) - climb
      let hint : Option Hint := if par c.packet 4 4 = 0 then none
        else some ⟨h, max c.tStart start.toNat, if dur = 0 then 0 else c.tStart + lead + dur + 1⟩
      let s1 := s.setPwr p { x with hint := hint, hintLevel := 0 }
      let s2 := if ctx < 768 then s1.setFld (phPwrestA p) phPwrestHint (b2n hint.isSome) else s
      s2.finish ctx cseq .ok noDetail 0))

/-! ### The telemetry block (R455) -/

/-- The hottest die and its junction. -/
def State.hottest (s : State) : Nat × Nat :=
  (List.range 52).foldl (fun (b : Nat × Nat) d => if b.2 < s.junc d then (d, s.junc d) else b) (0, 0)

/-- A mask of the partitions of which a test holds. -/
def partMask (f : Nat → Bool) : Nat := sumNat ((List.range 12).map (fun p => if f p then 2 ^ p else 0))

/-- The wear item with the smallest DAYS_LO, and that value (R455, R458). -/
def State.lifeItem (s : State) : Nat × Nat :=
  (List.range 114).foldl (fun (b : Nat × Nat) i =>
    let d := s.fld (hmWearA i) hmWearDaysLo
    if s.fld (hmWearA i) hmWearState ≠ 0 ∧ d < b.2 then (i, d) else b) (0, 9999)

/-- Corrected reads counted by every hub and memory-tier die. -/
def State.ceTotal (s : State) : Nat := sumNat ((List.range 14).map (fun d => s.fld (eccstatA d) phEccstatCeCount))

/-- The block of one cycle's values (R455). -/
def State.telemBlock (s : State) : List Byte :=
  let ps := hmPwrstatA
  let duo := s.eta
  let n := duo.1
  let d := duo.2
  let hot := s.hottest
  let life := s.lifeItem
  let flags := s.fld ps hmPwrstatEmergShelf + 2 * s.fld ps hmPwrstatEmergCool + 4 * s.fld ps hmPwrstatTelemFault +
    8 * s.fld ps hmPwrstatRackLost + 16 * s.fld hmRoleA hmRoleStandbyOk + 32 * s.mgmt.latch.getD 0 +
    128 * s.fld ps hmPwrstatInletRange
  let common := match s.modPower.recent with
    | r :: _ => r.2.2
    | [] => 0
  let body := natLe 8 s.gtime ++ natLe 4 s.mgmt.cycle ++ natLe 2 (s.fld ps hmPwrstatInputW) ++ natLe 2 (s.cIn / watt) ++
    natLe 1 (s.fld ps hmPwrstatInletC) ++ natLe 1 hot.2 ++ natLe 1 hot.1 ++ natLe 1 flags ++ natLe 1 s.modPower.op ++ zeros 3 ++
    (List.range 12).flatMap (fun p => natLe 2 (s.railW p)) ++ natLe 2 common ++ natLe 2 (1000 * n / d) ++
    (List.range 6).flatMap (fun l => natLe 1 (s.fld (lxStatA l) lxStatState + 16 * s.fld (lxStatA l) lxStatCause)) ++ zeros 2 ++
    natLe 4 (s.ceTotal - s.mgmt.ceLast) ++ natLe 4 life.2 ++ natLe 2 life.1 ++ natLe 2 (partMask s.tilesOn) ++
    natLe 2 (s.fld ps hmPwrstatDivergent) ++ natLe 2 (s.fld ps hmPwrstatShed) ++
    natLe 2 (partMask (fun p => decide (s.fld (phBezelA p) phBezelState = 2))) ++ zeros 46
  body ++ natLe 4 (crc32c body)

/-! ### The state image and the cycle (R433 to R437) -/

/-- The management-only registers that a state image carries. -/
def imageRegs : List Nat :=
  [hmPwrcfgA, hmPwrstatA, hmShedordA, hmRackordA, hmTrayrptA, hmTrayhbA, hmRolectlA]

/-- The image of the present cycle. -/
def State.takeImage (s : State) : Image where
  seq := s.mgmt.cycle
  regs := imageRegs.map (fun a => (a, s.reg a))
  power := s.power
  modPower := s.modPower
  held := s.mgmt.held

/-- A LIVE write to an HM register lands at the boundary (R545); a change of FORCE_FULL_NEXT causes an MCB write (R544). -/
def State.landLive (s : State) : State :=
  let s1 := s.mgmt.live.foldl (fun s q =>
    match regAt q.1 with
    | some (d, _) => s.setReg q.1 (takeFields d.fields [.rw] (s.reg q.1) (BitVec.ofNat 64 q.2))
    | none => s) s
  { s1 with
    mgmt := { s1.mgmt with live := [] },
    flash := { s1.flash with
      due := s1.flash.due || decide (s.fld hmBootcfgA hmBootcfgForceFullNext ≠ s1.fld hmBootcfgA hmBootcfgForceFullNext) } }

/-- The requests that wait are decided. -/
def State.serveRequests (s : State) : State :=
  s.mgmt.requests.foldl (fun s r =>
    match (s.ctx r.1).cmd r.2 with
    | some c => if c.stage = .started ∧ c.opc = some .capRequest then s.decideCap r.1 c else s.dropRequest r.1 r.2
    | none => s.dropRequest r.1 r.2) s

/-- Whether the die that is not active is the standby. -/
def State.standbyUp (s : State) : Bool :=
  match s.mgmt.latch with
  | some d => decide ((if d = 0 then s.mgmt.b.st else s.mgmt.a.st) = 3)
  | none => false

/-- The end of a cycle: the image is sent, and the outputs wait for its acknowledgement or go at once (R433). -/
def State.endCycle (s : State) (n : Nat) : State :=
  let up := s.standbyUp
  let img := s.takeImage
  let next : State → State := fun s =>
    { s with mgmt := { s.mgmt with cycle := s.mgmt.cycle + n, cycleAt := s.mgmt.cycleAt + 1000000 * n } }
  let s1 := next (if up then s.setFld hmHbstatA hmHbstatImageSeq (s.mgmt.cycle % two32) else s)
  if !up then s1.releaseHeld
  else if s.flag hmRoleA hmRoleStandbyOk then { s1 with mgmt := { s1.mgmt with sent := some (img, s.gtime) } }
  else
    let s2 := s1.releaseHeld
    { s2 with mgmt := { s2.mgmt with sent := some ({ img with held := [] }, s.gtime) } }

/-- MANAGEMENT_CYCLE (R411, R413, R420, R421, R424, R433, R455, R545). -/
def execManagementCycle (now : Nat) (s : State) : Host.Outcome State Fault Refusal :=
  .next (let s := s.advance now
    if !s.hasiaUp ∨ s.gtime < s.mgmt.cycleAt + 1000000 then s
    else
      -- Outputs that no acknowledgement has released went out 200 µs after their image.
      let s := if s.mgmt.sent.isSome && s.flag hmRoleA hmRoleStandbyOk then s.releaseSent else s
      let n := (s.gtime - s.mgmt.cycleAt) / 1000000
      let s1 := (s.landLive).inletCheck.heatMark
      let s2 := ((List.range 12).foldl (fun s p => s.thermalStep p) s1).allocate
      let s3 := s2.setFld hmPwrstatA hmPwrstatCIn (s2.cIn / watt)
      let s4 := s3.serveRequests
      let s5 := (List.range 12).foldl (fun s p => s.holdPower p) s4
      let s6 : State := { s5 with mgmt := { s5.mgmt with telem := s5.telemBlock, ceLast := s5.ceTotal } }
      s6.endCycle n)

end Sys2Proof.Machine
end

