-- ==== Sys2Proof/Machine/Observe.lean ====
section
/-!
DEFINITION. Counter banks and cameos: CNT_ENABLE, CNT_READ, CAMEO, CAMEO_CANCEL and the dump of a cameo (R292 to R294, R488, R590
to R602).
-/

namespace Sys2Proof.Machine

/-- The eight selectors of a CNT_ENABLE. -/
def cntSels (pk : List Byte) : List Nat := (List.range 8).map (fun j => par pk (8 + 2 * j) 2)

/-- Enables a context's bank with its selectors, or disables it (R591); a snapshot keeps the changes (R596). -/
def Ctx.cntSet (x : Ctx) (on : Bool) (sels : List Nat) : Ctx :=
  let tog := if x.cntOn = on then x.cntNow.tog else x.cntNow.tog + 1
  if on then
    { x with cntOn := true, cntSel := sels, cntVal := List.replicate 8 0,
             cntNow := { x.cntNow with on := true, tog := tog,
                                       chg := ((x.cntSel.zip sels).zip x.cntNow.chg).map (fun q => if q.1.1 = q.1.2 then q.2 else q.2 + 1) } }
  else { x with cntOn := false, cntNow := { x.cntNow with on := false, tog := tog } }

/-- Enables the partition bank (`b` = 0) or the module bank (`b` = 1), or disables it (R591, R605). -/
def State.cntSetBank (s : State) (b : Nat) (on : Bool) (sels : List Nat) : State :=
  let s1 := (s.setFld (hmCntbankA b) hmCntbankEnabled (b2n on)).addWrap (hmCntbankA b) hmCntbankEnables 1
  if on then
    let s2 := (List.range 2).foldl (fun s w => s.setReg (hmCntselA b w)
      (BitVec.ofNat 64 (sumNat ((List.range 4).map (fun j => sels.getD (4 * w + j) 0 * 2 ^ (16 * j)))))) s1
    (List.range 8).foldl (fun s j => s.setFld (hmCntvalA b j) hmCntvalValue 0) s2
  else s1

/-- CNT_ENABLE (R292, R488, R591, R593): the selectors are checked where they are loaded. -/
def execCntEnable (ctx cseq : Nat) (s : State) : Host.Outcome State Fault Refusal :=
  .next (s.withBody ctx cseq .cntEnable (fun c =>
    let scope := par c.packet 0 1
    let on := decide (par c.packet 1 1 = 1)
    let sels := cntSels c.packet
    match (List.range 8).find? (fun j => on && !cntSelOk scope (sels.getD j 0)) with
    | some j => s.finish ctx cseq .rejectedFormat (mkDetail j 0) 0
    | none =>
      if scope = 1 ∧ on ∧ sels.any (fun q => s.confidential (bits q 12 4)) then s.fail ctx cseq .rejectedPerm
      else
        let s1 := if scope = 0 then s.modCtx ctx (fun x => x.cntSet on sels) else s.cntSetBank (scope - 1) on sels
        s1.finish ctx cseq .ok noDetail 0))

/-- CNT_READ (R292, R488, R591). -/
def execCntRead (ctx cseq : Nat) (s : State) : Host.Outcome State Fault Refusal :=
  .next (s.withBody ctx cseq .cntRead (fun c =>
    let scope := par c.packet 0 1
    if scope = 1 ∧ (List.range 8).any (fun j => s.cntSelOf 0 j % 4096 ≠ 0 ∧ s.confidential (bits (s.cntSelOf 0 j) 12 4)) then
      s.fail ctx cseq .rejectedPerm
    else
      let duo := if scope = 0 then s.cntLatchCtx ctx else s.cntLatch (s.cntBank (scope - 1))
      let vals := duo.1
      let s1 := duo.2
      let w := s1.storeBy (some (ctx, cseq)) (par c.packet 8 8) (cntRecord s1.gtime ctx vals)
      if w.bad then w.st.finish ctx cseq .droppedBadData (mkDetail 0 5) 0 else w.st.finish ctx cseq .ok noDetail 0))

/-- CAMEO (R293, R598): it is armed at its retirement. -/
def execCameo (ctx cseq : Nat) (s : State) : Host.Outcome State Fault Refusal :=
  .next (s.withBody ctx cseq .cameo (fun c => s.finish ctx c.cseq .ok noDetail 0))

/-- CAMEO_CANCEL (R294). -/
def execCameoCancel (ctx cseq : Nat) (s : State) : Host.Outcome State Fault Refusal :=
  .next (s.withBody ctx cseq .cameoCancel (fun c =>
    let id := par c.packet 0 2
    let x := s.ctx ctx
    match x.cameos.find? (fun k => decide (k.id = id)) with
    | none => s.finish ctx cseq .ok noDetail 2
    | some k =>
      if k.stage = .armed then
        (s.setCtx ctx { x with cameos := x.cameos.filter (fun q => decide (q.id ≠ id)) }).finish ctx cseq .ok noDetail 0
      else s.finish ctx cseq .ok noDetail 1))

/-- The header of a dump (R600). -/
def cameoHeader (k : Cameo) (fmt flags addr len bytes now : Nat) : List Byte :=
  natLe 2 k.id ++ natLe 2 k.name ++ natLe 1 k.source ++ natLe 1 fmt ++ natLe 1 flags ++ zeros 1 ++ natLe 4 k.step ++
    natLe 4 k.cseq ++ natLe 8 addr ++ natLe 8 len ++ natLe 8 bytes ++ natLe 8 k.time ++ natLe 8 now ++ zeros 8

/-- The end of a dump: its stage, its counts, and DONE, with TAINT where it failed (R293, R602, R605). -/
def State.cameoEnd (s : State) (p ctx : Nat) (k : Cameo) (ok : Bool) : State :=
  let s1 := s.modCtx ctx (fun x => { x with cameos := x.cameos.map (fun q =>
    if q.id = k.id then { q with stage := if ok then .done else .failed } else q) })
  let s2 : State := { s1 with dumpQ := kvSet [] s1.dumpQ p ((kvGet [] s1.dumpQ p).drop 1) }
  let s3 := if ok then s2.addWrap (hmCameostat1A p) hmCameostat1Done 1 else s2.addSat (hmCameostat1A p) hmCameostat1Failed 1
  if clVal k.done = 0 then s3 else s3.signalCtx ctx (clIdx k.done) (clVal k.done) (!ok)

/-- CAMEO_DUMP (R599, R600, R602): the partition's oldest triggered dump runs to its end. -/
def execCameoDump (now p : Nat) (s : State) : Host.Outcome State Fault Refusal :=
  .next (let s := s.advance now
    match kvGet [] s.dumpQ p with
    | [] => s
    | (ctx, id) :: rest =>
      match (s.ctx ctx).cameos.find? (fun k => decide (k.id = id)) with
      | none => { s with dumpQ := kvSet [] s.dumpQ p rest }
      | some k =>
        if (s.bezel p).resetHold then s
        else
          match k.entry with
          | none => ((s.store none k.dst (cameoHeader k 0 2 0 0 0 s.gtime))).cameoEnd p ctx k false
          | some e =>
            let n := min e.len (k.dstSize - 64)
            let trunc := b2n (decide (n < e.len))
            let r := s.readMem 0 e.addr n
            match (if k.hit then none else r.data) with
            | none => ((r.st.store none k.dst (cameoHeader k e.fmt (trunc + 2) e.addr e.len 0 s.gtime))).cameoEnd p ctx k false
            | some d =>
              let w := r.st.storeBy none k.dst (cameoHeader k e.fmt trunc e.addr e.len n s.gtime ++ d)
              w.st.cameoEnd p ctx k true)

end Sys2Proof.Machine
end

