-- ==== Sys2Proof/Machine/RecordCmd.lean ====
section
/-!
DEFINITION. RECORD_START, RECORD_STOP and REPLAY_START, and what the hub does by itself during a replay (R301 to R303, R383 to
R391).
-/

namespace Sys2Proof.Machine

/-- Whether a range of the tier lies in segments that a partition owns (R383). -/
def State.inOwnSegs (s : State) (p a n : Nat) : Bool :=
  decide (regionOf a = .tier) && decide (regionOf (a + n - 1) = .tier) &&
    (List.range (segOf (a + n - 1) + 1 - segOf a)).all (fun i => decide (s.segOwner (segOf a + i) = p))

/-- RECORD_START (R301, R383, R384): the header unit is zeroed and written, then SEEDS and CLASPS. -/
def execRecordStart (ctx cseq : Nat) (s : State) : Host.Outcome State Fault Refusal :=
  .next (s.withBody ctx cseq .recordStart (fun c =>
    let p := partOf ctx
    let ring := par c.packet 0 8
    let units := par c.packet 8 4
    let what := par c.packet 12 4
    let sealed_ := decide ((s.ctx ctx).session ≠ 0)
    if (s.recorder p).recActive then s.fail ctx cseq .busy
    else if sealed_ && !s.inOwnSegs p ring (65536 * units) then s.fail ctx cseq .rejectedPerm
    else
      let flags := 1 + 16 * b2n sealed_
      let head := natLe 4 1 ++ natLe 2 ctx ++ natLe 1 p ++ natLe 1 flags ++ natLe 4 what ++ natLe 4 units ++ natLe 8 s.bundle ++
        natLe 8 s.gtime ++ zeros 28 ++ natLe 4 (cseq + 1) ++ natLe 2 (s.ctxSlice ctx) ++ natLe 1 s.modPower.op ++ zeros 1 ++
        natLe 4 (s.fld (phPwrcapA p) phPwrcapEffectiveW)
      let body := fitBytes 4092 head
      let s1 := (s.store none ring (fitBytes 65536 (body ++ natLe 4 (crc32c body))))
      let r0 := s1.recorder p
      let s2 := s1.setRecorder p { r0 with
        recActive := true, recCtx := ctx, base := ring, size := 65536 * units, what := what, prod := 0, tail := 0, rsn := 0,
        used := 0, flags := flags, capNext := 0, reads := [] }
      let s3 := ((s2.setFld (phRecordA p) phRecordCtx ctx).setFld (phRecordA p) phRecordActive 1).setFld (phRecordA p) phRecordRecords 0
      let s4 := (s3.recPut p 1 0 (s3.seedBytes ctx)).recPut p 2 0 (s3.claspBytes ctx)
      s4.finish ctx cseq .ok noDetail 0))

/-- RECORD_STOP (R302, R387). -/
def execRecordStop (ctx cseq : Nat) (s : State) : Host.Outcome State Fault Refusal :=
  .next (s.withBody ctx cseq .recordStop (fun _ =>
    let p := partOf ctx
    let r := s.recorder p
    let report : State → State := fun s =>
      let q := s.recorder p
      let ovf := q.flags.testBit 1
      (s.setRecorder p { q with flags := 0, rsn := 0 }).finish ctx cseq .ok noDetail (q.rsn + b2n ovf * 2 ^ 63)
    if r.recCtx ≠ ctx then s.finish ctx cseq .ok noDetail 0
    else if r.recActive then
      let s1 := s.recPut p 0xB 0 [0]
      report (if (s1.recorder p).recActive then s1.recEnd p else s1)
    else if r.flags.testBit 1 then report s
    else s.finish ctx cseq .ok noDetail 0))

/-- What R388 finds wrong with a ring and a target, or none. -/
def State.replayCheck (s : State) (ctx : Nat) (c : Cmd) : Option Status :=
  let p := partOf ctx
  let ring := par c.packet 0 8
  let t := par c.packet 16 2
  let h := s.peek ring 4096
  let flags := leAt h 7 1
  if crc32c (h.take 4092) ≠ leAt h 4092 4 ∨ leAt h 0 4 ≠ 1 ∨ flags % 8 ≠ 0 ∨ leAt h 6 1 ≠ p ∨ (s.ringAt ring 0).kind ≠ 1 then
    some .rejectedFormat
  else if flags.testBit 4 ∨ 768 ≤ t ∨ partOf t ≠ p ∨ t = ctx ∨ s.cfg0 t phCtxcfg0Enabled = 0 ∨ s.cfg0 t phCtxcfg0RecordOk = 0 ∨
      (s.ctx t).session ≠ 0 ∨ s.confidential p then some .rejectedPerm
  else if (s.recorder p).recActive ∨ (s.recorder p).repActive ∨ s.hasCmds t then some .busy
  else none

/-- REPLAY_START (R303, R388, R389): it stays in progress until the last packet is admitted. -/
def execReplayStart (ctx cseq : Nat) (s : State) : Host.Outcome State Fault Refusal :=
  .next (s.withBody ctx cseq .replayStart (fun c =>
    match s.replayCheck ctx c with
    | some st => s.fail ctx cseq st
    | none =>
      let p := partOf ctx
      let ring := par c.packet 0 8
      let t := par c.packet 16 2
      let h := s.peek ring 4096
      let r0 := s.recorder p
      let s1 := s.setRecorder p { r0 with
        repActive := true, repCtx := t, src := (ring, 65536 * par c.packet 8 4), cursor := 0, applied := 0,
        delta := (leAt h 60 4 + two32 - (s.ctx t).expCseq.toNat) % two32, fed := 0, drained := false, clasps := [], taints := [],
        reads := [], owner := (ctx, cseq), compared := 0 }
      let a := phReplayA p
      let w := fset (fset (fset (s1.reg a) phReplayTarget t) phReplayActive 1) phReplayStopped 0
      let w := fset w phReplayFwDiff (b2n (decide (leAt h 16 8 ≠ s.bundle)))
      let s2 := (s1.setReg a w).setReg (phReplaydivA p) (fset 0 phReplaydivRegion 0xFF)
      -- The leading SEEDS and CLASPS records set the target up.
      let lead := (s2.ringRecs (s2.recorder p) 0).takeWhile (fun x => decide (x.kind = 1 ∨ x.kind = 2))
      let s3 := lead.foldl (fun s x => s.replayApply p x) s2
      let s4 := s3.setRecorder p { s3.recorder p with applied := sumNat (lead.map (fun x => 64 * x.units)) }
      s4.issue ctx cseq 1))

/-- The next PACKET record of a replay's ring from an offset on. -/
def State.nextPacket (s : State) (p off : Nat) : Option RingRec :=
  (s.ringRecs (s.recorder p) off).find? (fun x => decide (x.kind = 3))

/-- The recorded packet as it is admitted to the target (R303). -/
def State.repPacket (s : State) (p : Nat) (x : RingRec) : List Byte :=
  let t := (s.recorder p).repCtx
  let pk := x.pay.take (64 * frameLen x.pay)
  -- CTX, CSEQ and RACK of the header name the target.
  putBytes (putBytes pk 4 (natLe 2 t)) 8 (natLe 4 (s.ctx t).expCseq.toNat ++ natLe 4 (s.ctx t).rack.toNat)

/-- REPLAY_FEED (R303, R389): one recorded packet enters the target's intake stream once its units are free. -/
def execReplayFeed (p : Nat) (s : State) : Host.Outcome State Fault Refusal :=
  .next (let r := s.recorder p
    let t := r.repCtx
    if !r.repActive ∨ r.drained ∨ s.flag (phReplayA p) phReplayStopped then s
    else
      let drain : State → State := fun s =>
        (s.setRecorder p { s.recorder p with drained := true }).finish r.owner.1 r.owner.2 .ok noDetail (s.recorder p).fed
      match s.nextPacket p r.cursor with
      | none => drain s
      | some x =>
        let pk := s.repPacket p x
        if !(s.ctx t).ready.isEmpty ∨ 1024 < (s.ctx t).unitsHeld + frameLen pk then s
        else
          let s1 := s.modCtx t (fun y => { y with ready := y.ready ++ [pk] })
          let s2 := s1.setRecorder p { r with cursor := x.off + 64 * x.units, fed := r.fed + 1 }
          if (s2.nextPacket p (x.off + 64 * x.units)).isNone then drain s2 else s2)

/-- REPLAY_END (R390, R391). -/
def execReplayEnd (p : Nat) (s : State) : Host.Outcome State Fault Refusal :=
  .next (let r := s.recorder p
    let x := s.ctx r.repCtx
    let stopped := s.flag (phReplayA p) phReplayStopped
    if !r.repActive ∨ !(r.drained || stopped) ∨ !x.ready.isEmpty ∨ !x.cmds.isEmpty then s
    else (if stopped then s.modCtx r.repCtx (fun y => { y with fenced := true }) else s).replayStop p)

end Sys2Proof.Machine
end

