-- ==== Sys2Proof/Machine/Secure.lean ====
section
/-!
DEFINITION. Locket's hallmarks and signatures, tenant sessions, and the commands of a host that wait on management (R167 to R169,
R295 to R298, R304, R467 to R482, R486).
-/

namespace Sys2Proof.Machine

/-! ### Hallmarks (R470, R471) -/

/-- The 32 bytes of a hallmark. -/
def State.hallmark (s : State) (i : Nat) : List Byte := (List.range 4).flatMap (fun w => natLe 8 (s.reg (lkHallmarkA i w)).toNat)

/-- Replaces a hallmark. -/
def State.setHallmark (s : State) (i : Nat) (m : List Byte) : State :=
  (List.range 4).foldl (fun s w => s.setReg (lkHallmarkA i w) (BitVec.ofNat 64 (leAt m (8 * w) 8))) s

/-- Extends a hallmark with a measurement. -/
def State.extendHallmark (s : State) (i : Nat) (m : List Byte) : State := s.setHallmark i (sha256 (s.hallmark i ++ m))

/-- The bytes of `n` consecutive register words. -/
def State.regBytes (s : State) (n : Nat) (addr : Nat → Nat) : List Byte :=
  (List.range n).flatMap (fun j => natLe 8 (s.reg (addr j)).toNat)

/-- The session that holds a partition. -/
def State.sessionFor (s : State) (p : Nat) : Option Session := s.locket.sessions.find? (fun x => x.parts.contains p)

/-- The measurement PART*p* (R471). -/
def State.partMeasure (s : State) (p : Nat) : List Byte :=
  let duo := match s.sessionFor p with
    | some x => ((x.secrets.length - 1) % 256, x.transcript)
    | none => (0, zeros 32)
  let gen := duo.1
  let t := duo.2
  let one := natLe 1 p ++ natLe 1 (b2n (s.confidential p)) ++ natLe 1 gen ++ t
  let two := (List.range 64).flatMap (fun k => natLe 8 (s.reg (phCtxcfg0A p k)).toNat ++ natLe 8 (s.reg (phCtxcfg1A p k)).toNat ++
    natLe 8 (s.reg (phCtxcfg2A p k)).toNat)
  let three := natLe 112 (sumNat (((List.range 896).filter (fun g => decide (s.segOwner g = p))).map (fun g => 2 ^ g)))
  let four := ((List.range 64).filter (fun i => decide (s.fld (fdSlicedirA i) fdSlicedirSlice ≠ 0) &&
      (s.fld (fdSlicedirA i) fdSlicedirPartmask).testBit p)).flatMap (fun i =>
    natLe 8 (s.reg (fdSlicedirA i)).toNat ++ sha256 (s.regBytes 512 (fdRouteA i) ++ s.regBytes 8192 (fdRankmapA i) ++
      s.regBytes 128 (fdMcastA i) ++ s.regBytes 256 (fdTreedefA i)))
  sha256 (one ++ two ++ three ++ four)

/-- Recomputes PART*p*. -/
def State.measurePart (s : State) (p : Nat) : State := s.setHallmark (10 + p) (s.partMeasure p)

/-! ### Signatures (R467 to R469) -/

/-- What Locket says when a signature is asked of it. -/
inductive LeafOut where
  /-- The next bottom tree is not ready: the signature waits. -/
  | wait
  /-- No signature is made. -/
  | busy (s : State)
  /-- A leaf to sign with. -/
  | leaf (n : Nat) (s : State)
  deriving DecidableEq, Repr

/-- The state after the next leaf is taken, reserving a block where it is the `first` of one (R468, R469). -/
def State.spendLeaf (s : State) (n : Nat) (first newTree : Bool) : State :=
  let s1 := if first then s.addWrap lkSigstateA lkSigstateReservedTo 1 else s
  let s2 := s1.addWrap lkSigstateA lkSigstateNextLeaf 1
  let s3 := if newTree then s2.setFld lkStateA lkStateTreeReady 0 else s2
  let s4 := if n + 1 = 2 ^ 40 then s3.setFld lkStateA lkStateSigOut 1 else s3
  let low := decide (2 ^ 40 - (n + 1) < 2 ^ 32)
  if low && !s4.flag lkStateA lkStateSigLow then (s4.setFld lkStateA lkStateSigLow 1).raise (32 * 93 + 5) else s4

/-- Takes the next leaf, where one may be taken (R468, R469). -/
def State.useLeaf (s : State) : LeafOut :=
  let n := s.fld lkSigstateA lkSigstateNextLeaf
  let first := decide (n = 65536 * s.fld lkSigstateA lkSigstateReservedTo)
  let newTree := decide (n % 2 ^ 20 = 0) && decide (n ≠ 0)
  if s.flag lkStateA lkStateSigOut then .busy s
  else if newTree && !s.flag lkStateA lkStateTreeReady then .wait
  else if first && s.locket.leafBad then .busy (s.raise (32 * 93 + 6))
  else .leaf n (s.spendLeaf n first newTree)

/-- The boot's part of the record: the encapsulation key of the per-boot pair. -/
def State.ek (s : State) : List Byte := fitBytes 1568 s.locket.bootKey.1

/-- Bytes 0 to 2,719 of a quote or boot record (R472). -/
def State.quoteBody (s : State) (ctx : Nat) (nonce : List Byte) : List Byte :=
  natLe 4 1 ++ natLe 2 0x6412 ++ natLe 1 (s.fld lkStateA lkStateLifecycle) ++
  natLe 1 (s.fld lkStateA lkStateDebugEn + 2 * s.fld hmMcbstatA hmMcbstatMirrorUsed + 4 * s.fld hmMcbstatA hmMcbstatDefaultsInUse) ++
  natLe 8 Config.serial ++ natLe 8 s.gtime ++ natLe 8 s.bundle ++ natLe 4 (s.fld lkBootcntA lkBootcntBoots) ++ natLe 2 ctx ++
  zeros 26 ++ fitBytes 32 nonce ++ zeros 32 ++ (List.range 32).flatMap s.hallmark ++ s.ek

/-- The whole record, signed with a leaf (R472). -/
def quoteRecord (body : List Byte) (leaf : Nat) : List Byte :=
  let cert := Config.cert.take 5900
  body ++ fitBytes 3604 (Config.hssSign leaf body) ++ (List.range 60).map Config.idPub ++ natLe 4 cert.length ++ cert

/-- QUOTE (R297, R472, R473). -/
def execQuote (now ctx cseq : Nat) (s : State) : Host.Outcome State Fault Refusal :=
  .next (let s := s.advance now
    s.withBody ctx cseq .quote (fun c =>
      if !s.hasiaUp then s
      else
        match s.useLeaf with
        | .wait => s
        | .busy s1 => s1.fail ctx cseq .busy
        | .leaf n s1 =>
          let out := quoteRecord (s1.quoteBody ctx ((c.packet.drop 64).take 32)) n
          let w := s1.storeBy (some (ctx, cseq)) (par c.packet 32 8) out
          if w.bad then w.st.finish ctx cseq .droppedBadData (mkDetail 0 5) 0
          else w.st.finish ctx cseq .ok noDetail out.length))

/-! ### Sessions (R295, R296, R476 to R478, R481, R486) -/

/-- Starts the zero fill of a partition that enters or leaves the confidential state (R169). -/
def State.startFill (s : State) (p : Nat) : State :=
  let s1 := ({ s with fills := kvSet none s.fills (1024 + p) (some s.gtime) }).setFld (phXtsA p) phXtsFilling 1
  ((List.range 896).filter (fun g => decide (s1.segOwner g = p))).foldl (fun s g => s.setFld (tdSegA g) tdSegFilling 1) s1

/-- Whether a partition has an unretired command. -/
def State.partBusy (s : State) (p : Nat) : Bool := (s.partCtxs p).any (fun e => !e.2.cmds.isEmpty)

/-- Whether a partition is confidential, or held by a session's opening or closing (R478). -/
def State.partHeld (s : State) (p : Nat) : Bool :=
  s.confidential p || s.flag (phXtsA p) phXtsFilling || (s.sessionFor p).isSome

/-- The open sessions and the confidential partitions, as LK.STATE shows them. -/
def State.lkCounts (s : State) : State :=
  (s.setFld lkStateA lkStateSessions s.locket.sessions.length).setFld lkStateA lkStateConf (partMask s.confidential)

/-- SEALED of every directory entry follows its partitions: set where one of them is confidential, cleared where none is
(R486). -/
def State.sealEntries (s : State) : State :=
  (List.range 64).foldl (fun s i =>
    let m := s.fld (fdSlicedirA i) fdSlicedirPartmask
    s.setFld (fdSlicedirA i) fdSlicedirSealed (b2n ((List.range 12).any (fun p => m.testBit p && s.confidential p)))) s

/-- A partition becomes confidential: its memory key is drawn and loaded, and the fill starts (R168, R169). -/
def State.enterConf (s : State) (p : Nat) : State :=
  let duo := s.drawRandom 64
  let key := duo.1
  let s1 := duo.2
  let s2 : State := { s1 with locket := { s1.locket with memKeys := kvSet [] s1.locket.memKeys p key } }
  ((s2.setFld (phXtsA p) phXtsEnabled 1).addWrap (phXtsA p) phXtsKeyLoads 1).startFill p

/-- A partition leaves the confidential state: its key is destroyed and the fill starts (R168, R169). -/
def State.leaveConf (s : State) (p : Nat) : State :=
  (({ s with locket := { s.locket with memKeys := kvSet [] s.locket.memKeys p [] } }).setFld (phXtsA p) phXtsEnabled 0).startFill p

/-- The parameter block's partitions. -/
def maskParts (m : Nat) : List Nat := (List.range 12).filter (fun p => m.testBit p)

/-- The session that a SESSION_OPEN packet asks for, and its confirmation record (R476, R477). -/
def State.newSession (s : State) (pk : List Byte) : Session × List Byte :=
  let blk := pk.drop 64
  let ct := (blk.drop 64).take 1568
  let t := sha256 (s.ek ++ ct ++ putBytes (blk.take 64) 8 (zeros 8))
  let x : Session := ⟨s.locket.nextSession, maskParts (par pk 0 4), (List.range (par pk 4 2)).map (fun i => par pk (16 + 2 * i) 2),
    [fitBytes 32 (Config.mlkemDecaps s.locket.bootKey.2 ct)], t⟩
  (x, natLe 4 x.id ++ natLe 4 (s.fld lkBootcntA lkBootcntBoots) ++ x.key 0 (ascii "conf") ++ zeros 24)

/-- SESSION_OPEN (R295, R469, R476 to R478): it finishes when the fills end. -/
def execSessionOpen (now ctx cseq : Nat) (s : State) : Host.Outcome State Fault Refusal :=
  .next (let s := s.advance now
    s.withBody ctx cseq .sessionOpen (fun c =>
      let parts := maskParts (par c.packet 0 4)
      if !s.hasiaUp then s
      else if s.fld lkStateA lkStateLifecycle ≠ 1 ∨ s.flag lkStateA lkStateDebugEn then s.fail ctx cseq .rejectedPerm
      else if s.flag lkStateA lkStateSigOut ∨ parts.any (fun p => s.partHeld p || s.partBusy p) then s.fail ctx cseq .busy
      else
        let duo := s.newSession c.packet
        let x := duo.1
        let conf := duo.2
        let w := s.storeBy (some (ctx, cseq)) (par c.packet 8 8) conf
        if w.bad then w.st.finish ctx cseq .droppedBadData (mkDetail 0 5) 0
        else
          let s1 : State := { w.st with locket := { w.st.locket with
            sessions := w.st.locket.sessions ++ [x], nextSession := x.id + 1 } }
          let s2 := x.ctxs.foldl (fun s k => s.modCtx k (fun y => { y with session := x.id, wraps := (0, 0) })) s1
          let s3 := parts.foldl (fun s p => s.enterConf p) s2
          let s4 := parts.foldl (fun s p => s.measurePart p) (s3.lkCounts.sealEntries)
          s4.modCmd ctx cseq (fun k => { k with issued := true, left := par c.packet 0 4, moved := x.id })))

/-- The end of a session: its keys are destroyed, its contexts are unsealed, and its partitions leave the confidential state
(R296). -/
def State.closeSession (s : State) (x : Session) : State :=
  let s1 : State := { s with locket := { s.locket with
    sessions := s.locket.sessions.filter (fun y => decide (y.id ≠ x.id)) } }
  let s2 := x.ctxs.foldl (fun s k => s.modCtx k (fun y => { y with session := 0 })) s1
  let s3 := x.parts.foldl (fun s p => s.leaveConf p) s2
  x.parts.foldl (fun s p => s.measurePart p) (s3.lkCounts.sealEntries)

/-- SESSION_CLOSE (R296): it finishes when the fills end. -/
def execSessionClose (now ctx cseq : Nat) (s : State) : Host.Outcome State Fault Refusal :=
  .next (let s := s.advance now
    s.withBody ctx cseq .sessionClose (fun c =>
      if !s.hasiaUp then s
      else
        match s.locket.sessions.find? (fun x => decide (x.id = par c.packet 0 4)) with
        | none => s.fail ctx cseq .rejectedFormat
        | some x =>
          if x.ctxs.any (fun k => (s.ctx k).cmds.any (fun q => !decide (k = ctx ∧ q.cseq = cseq))) then s.fail ctx cseq .busy
          else (s.closeSession x).modCmd ctx cseq (fun k => { k with
            issued := true, left := sumNat (x.parts.map (fun p => 2 ^ p)), moved := 0 })))

/-- KEY_ROTATE (R298, R481). -/
def execKeyRotate (now ctx cseq : Nat) (s : State) : Host.Outcome State Fault Refusal :=
  .next (let s := s.advance now
    s.withBody ctx cseq .keyRotate (fun c =>
      if !s.hasiaUp then s
      else
        match s.sessionOf ctx with
        | none => s.fail ctx cseq .rejectedPerm
        | some x =>
          let next := sha256 (x.secrets.getLastD [] ++ (c.packet.drop 64).take 32 ++ ascii "next")
          let s1 : State := { s with locket := { s.locket with
            sessions := s.locket.sessions.map (fun y => if y.id = x.id then { y with secrets := y.secrets ++ [next] } else y) } }
          (x.parts.foldl (fun s p => s.measurePart p) s1).finish ctx cseq .ok noDetail 0))

/-! ### Bounds on management (R304) -/

/-- Tier segments owned by some partitions. -/
def State.segsOf (s : State) (parts : List Nat) : Nat := ((List.range 896).filter (fun g => parts.contains (s.segOwner g))).length

/-- The scope kind of the transaction that a CFG_COMMIT names. -/
def State.commitKind (s : State) (c : Cmd) : Nat :=
  match s.txns.find? (fun t => decide (t.num = par c.packet 0 4)) with
  | some t => bits t.scope 0 16
  | none => 0

/-- The bound of R304 in ns, for a command that waits on management and that management has not taken up. -/
def State.mgmtBound (s : State) (c : Cmd) : Option Nat :=
  if c.stage ≠ .started then none
  else
    match c.opc with
    | some .capRequest => some 3000000
    | some .cfgCommit => if 5 ≤ s.commitKind c then some 52000000 else none
    | some .quote => some 40000000
    | some .sessionOpen => if c.issued then none else some (100000000 + 1200000 * s.segsOf (maskParts (par c.packet 0 4)))
    | some .sessionClose =>
      if c.issued then none
      else
        match s.locket.sessions.find? (fun x => decide (x.id = par c.packet 0 4)) with
        | some x => some (80000000 + 1200000 * s.segsOf x.parts)
        | none => some 80000000
    | _ => none

/-- MANAGEMENT_WAIT_TIMEOUT (R304): the command ends with TIMEOUT, and what it asked for is withdrawn. -/
def execManagementWaitTimeout (now ctx cseq : Nat) (s : State) : Host.Outcome State Fault Refusal :=
  .next (let s := s.advance now
    match (s.ctx ctx).cmd cseq with
    | some c =>
      match s.mgmtBound c with
      | some b => if s.gtime ≤ c.tStart + b + 2000000000 then s else (s.stopCmd ctx c).fail ctx cseq .timeout
      | none => s
    | none => s)

end Sys2Proof.Machine
end

