-- ==== Sys2Proof/Machine/Locket.lean ====
section
/-!
DEFINITION. Locket's orders: security versions, signature trees, link keying and debug unlock (R465, R469, R483 to R485, R489 to
R491).
-/

namespace Sys2Proof.Machine

/-- SVN_COMMIT (R465). -/
def execSvnCommit (by_ : Writer) (s : State) : Host.Outcome State Fault Refusal :=
  .next (s.byOwner by_ (fun s => (List.range 6).foldl (fun s i =>
    s.setFld (lkSvnA i) lkSvnMinsvn (max (s.fld (lkSvnA i) lkSvnMinsvn) (s.fld (lkSvnA i) lkSvnRunsvn))) s))

/-- LMS_TREE_GENERATE (R469). -/
def execLmsTreeGenerate (s : State) : Host.Outcome State Fault Refusal := .next (s.setFld lkStateA lkStateTreeReady 1)

/-! ### Link keying (R483, R484) -/

/-- A part of a link's exchange window (R483). -/
def State.linkWin (s : State) (n off len : Nat) : List Byte :=
  ((fitBytes 16384 (kvGet [] s.locket.linkx n)).drop off).take len

/-- Writes a part of a link's exchange window. -/
def State.setLinkWin (s : State) (n off : Nat) (bs : List Byte) : State :=
  { s with locket := { s.locket with
      linkx := kvSet [] s.locket.linkx n (putBytes (fitBytes 16384 (kvGet [] s.locket.linkx n)) off bs) } }

/-- STATE of a link's keying. -/
def State.linkState (s : State) (n v : Nat) : State := s.setFld (lkLinkstatA n) lkLinkstatState v

/-- A refusal or a mismatch: STATE REFUSED with an event (R484). -/
def State.keyRefused (s : State) (n : Nat) : State :=
  (({ s with locket := { s.locket with linkKeys := kvSet [] s.locket.linkKeys n [], linkSs := kvSet [] s.locket.linkSs n [] } }).linkState
    n 5).raise (32 * 93 + 7)

/-- SERIAL of a boot record. -/
def recSerial (r : List Byte) : Nat := leAt r 8 8

/-- Whether a peer's boot record is one that this end accepts (R472, R474, R484). -/
def peerRecOk (r : List Byte) : Bool :=
  let pub := (r.drop 6324).take 60
  decide (leAt r 0 4 = 1) && decide (leAt r 4 2 = 0x6412) && decide (leAt r 6 1 = 1) && !(leAt r 7 1).testBit 0 &&
  decide (recSerial r ≠ Config.serial % 2 ^ 64) && decide (leAt r 36 2 = 0xFFFF) && decide (leAt r 64 32 = 0) &&
  decide (leAt r 6384 4 ≤ 5900) && Config.certOk ((r.drop 6388).take (leAt r 6384 4)) pub &&
  Config.hssVerify pub (r.take 2720) ((r.drop 2720).take 3604)

/-- This end's SERIAL. -/
def ownSerial : Nat := Config.serial % 2 ^ 64

/-- A confirmation of a link key by the end with a SERIAL (R484). -/
def linkConf (k : List Byte) (serial : Nat) : List Byte := (sha256 (k ++ ascii "conf" ++ natLe 8 serial)).take 16

/-- Step 1: the peer's record is verified and its key encapsulated to. -/
def State.keyStep1 (s : State) (n : Nat) : State :=
  let r := s.linkWin n 0 12288
  if !peerRecOk r then s.keyRefused n
  else
    let duo := s.drawRandom 32
    let rnd := duo.1
    let s1 := duo.2
    let duo := Config.mlkemEncaps ((r.drop 1152).take 1568) rnd
    let ct := duo.1
    let ss := duo.2
    let s2 : State := { s1 with locket := { s1.locket with linkSs := kvSet [] s1.locket.linkSs n (fitBytes 32 ss) } }
    (s2.setLinkWin n 12288 (fitBytes 1568 ct)).linkState n 1

/-- Step 2: the link key, and this end's confirmation. -/
def State.keyStep2 (s : State) (n : Nat) : State :=
  let peer := s.linkWin n 0 2720
  let own := s.locket.bootRec.take 2720
  let ssIn := fitBytes 32 (Config.mlkemDecaps s.locket.bootKey.2 (s.linkWin n 13856 1568))
  let ssOut := kvGet [] s.locket.linkSs n
  let low := decide (ownSerial < recSerial peer)
  let k := if low then sha256 (ssIn ++ ssOut ++ sha256 own ++ sha256 peer ++ ascii "link")
    else sha256 (ssOut ++ ssIn ++ sha256 peer ++ sha256 own ++ ascii "link")
  let s1 : State := { s with locket := { s.locket with
    linkKeys := kvSet [] s.locket.linkKeys n k, linkSs := kvSet [] s.locket.linkSs n [] } }
  ((s1.setLink n { s1.link n with low := low }).setLinkWin n 15424 (linkConf k ownSerial)).linkState n 2

/-- Step 3: the peer's confirmation. -/
def State.keyStep3 (s : State) (n : Nat) : State :=
  let k := kvGet [] s.locket.linkKeys n
  if s.linkWin n 15440 16 = linkConf k (recSerial (s.linkWin n 0 2720)) then s.linkState n 3 else s.keyRefused n

/-- LINK_KEYING_SUBMIT (R484): the step that STATE stands before; after a refusal the exchange begins again. -/
def execLinkKeyingSubmit (n : Nat) (by_ : Writer) (s : State) : Host.Outcome State Fault Refusal :=
  .next (if 6 ≤ n ∨ !s.mgmtWriter by_ then s
    else
      match s.fld (lkLinkstatA n) lkLinkstatState with
      | 1 => s.keyStep2 n
      | 2 => s.keyStep3 n
      | 3 => s
      | 4 => s
      | _ => s.keyStep1 n)

/-- Destroys a link key: STATE becomes NONE. -/
def State.dropKey (s : State) (n : Nat) : State :=
  ({ s with locket := { s.locket with linkKeys := kvSet [] s.locket.linkKeys n [], linkSs := kvSet [] s.locket.linkSs n [] } }).linkState
    n 0

/-- LINK_KEY_DROP (R491). -/
def execLinkKeyDrop (n : Nat) (by_ : Writer) (s : State) : Host.Outcome State Fault Refusal :=
  .next (if 6 ≤ n ∨ !s.mgmtWriter by_ then s else s.dropKey n)

/-! ### Debug unlock (R489, R490) -/

/-- The nonce that LK.DBGNONCE shows. -/
def State.dbgNonce (s : State) : List Byte := s.regBytes 4 lkDbgnonceA

/-- DEBUG_NONCE_REQ (R490). -/
def execDebugNonceReq (by_ : Writer) (s : State) : Host.Outcome State Fault Refusal :=
  .next (s.byOwner by_ (fun s =>
    let duo := s.drawRandom 32
    let bs := duo.1
    let s1 := duo.2
    let s2 := (List.range 4).foldl (fun s w => s.setReg (lkDbgnonceA w) (BitVec.ofNat 64 (leAt bs (8 * w) 8))) s1
    { s2 with locket := { s2.locket with nonceOn := true } }))

/-- DEBUG_UNLOCK_SUBMIT (R490): a session's partitions leave the confidential state only without a command in flight (R169), so a
valid record waits until none is. -/
def execDebugUnlockSubmit (now : Nat) (by_ : Writer) (s : State) : Host.Outcome State Fault Refusal :=
  .next (let s := s.advance now
    if !s.mgmtWriter by_ then s
    else if !(s.locket.nonceOn && Config.debugOk ownSerial s.dbgNonce s.locket.dbgAuth) then s.setFld lkDbgctlA lkDbgctlRefused 1
    else if s.locket.sessions.any (fun x => x.parts.any (fun p => s.partBusy p)) then s
    else
      let s1 := s.locket.sessions.foldl (fun s x => s.closeSession x) s
      let s2 := (List.range 6).foldl (fun s n => s.dropKey n) s1
      let s3 := (s2.extendHallmark 2 (sha256 s2.locket.dbgAuth)).setFld lkStateA lkStateDebugEn 1
      let s4 : State := { s3 with locket := { s3.locket with nonceOn := false } }
      s4.raise (32 * 93 + 8))

end Sys2Proof.Machine
end

