-- ==== Sys2Proof/Machine/Failover.lean ====
section
/-!
DEFINITION. The two Hasia dies: state images, silence, takeover, restart, handover, and the wear estimates (R430 to R449, R456 to
R458).
-/

namespace Sys2Proof.Machine

/-! ### The two dies -/

/-- A Hasia die: 0 HM-A, 1 HM-B. -/
def State.hasia (s : State) (d : Nat) : Hasia := if d = 0 then s.mgmt.a else s.mgmt.b

/-- Replaces a die's record; HM.DIESTAT.STATE shows it, and a silent die shows what it showed. -/
def State.setHasia (s : State) (d : Nat) (x : Hasia) : State :=
  let s1 : State := { s with mgmt := if d = 0 then { s.mgmt with a := x } else { s.mgmt with b := x } }
  if x.st = 6 then s1 else s1.setFld (hmDiestatA d) hmDiestatState x.st

/-- The other die. -/
def otherDie (d : Nat) : Nat := 1 - d

/-- A new owner: the latch, its epoch, the event, the interrupt and the events claimed by the old one (R430, R441, R453, R514). -/
def State.newOwner (s : State) (old d : Nat) : State :=
  let s1 : State := { s with mgmt := { s.mgmt with latch := some d } }
  let s2 := (s1.setFld hmRoleA hmRoleOwner d).addWrap hmRoleA hmRoleOwnerEpoch 1
  ((s2.raise (32 * 93)).ibi 3).evOwnerChange old

/-- LAST_GAP_US: from the last boundary at which the old owner released outputs to the new owner's first (R441). -/
def State.gapFrom (s : State) (old : Nat) : State := s.setFld hmRoleA hmRoleLastGapUs (min 65535 ((s.mgmt.cycleAt - old) / 1000))

/-- The ordered handover of R445: the standby becomes active, the active standby; the new owner releases at the next boundary. -/
def State.handover (s : State) : State :=
  match s.mgmt.latch with
  | none => s
  | some d =>
    let e := otherDie d
    let s1 := (s.setHasia d { s.hasia d with st := 3 }).setHasia e { s.hasia e with st := 4, mayReturn := false }
    let s2 := (s1.newOwner d e).setFld hmRoleA hmRoleLastGapUs 1000
    { s2 with mgmt := { s2.mgmt with swapReq := false, image := none, accepted := 0, ackRun := 0, badRun := 0 } }

/-! ### Images (R433, R437) -/

/-- Clears STANDBY_OK with its event (R437). -/
def State.standbyLost (s : State) : State :=
  if s.flag hmRoleA hmRoleStandbyOk then (s.setFld hmRoleA hmRoleStandbyOk 0).raise (32 * 93 + 2) else s

/-- STATE_IMAGE (R437): while STANDBY_OK is 0, or with none accepted yet, the standby takes any sequence number. -/
def execStateImage (now seq : Nat) (crcOk : Bool) (s : State) : Host.Outcome State Fault Refusal :=
  .next (let s := s.advance now
    match s.mgmt.sent with
    | none => s
    | some (img, _) =>
      let held := s.flag hmRoleA hmRoleStandbyOk
      if !s.standbyUp then s
      else if crcOk && decide (seq = img.seq) && (decide (seq = s.mgmt.accepted) || decide (s.mgmt.accepted = 0) || !held) then
        let run := s.mgmt.ackRun + 1
        let s1 : State := { s with mgmt := { s.mgmt with image := some img, accepted := seq + 1, ackRun := run, badRun := 0 } }
        let s2 := s1.setFld hmHbstatA hmHbstatImageSeq (seq % two32)
        let s3 := if held then s2.releaseSent else { s2 with mgmt := { s2.mgmt with sent := none } }
        let s4 := if 10 ≤ run then s3.setFld hmRoleA hmRoleStandbyOk 1 else s3
        if s4.mgmt.swapReq ∧ held then s4.handover else s4
      else
        let bad := s.mgmt.badRun + 1
        let s1 := s.addSat hmHbstatA hmHbstatImageBad 1
        let s2 : State := { s1 with mgmt := { s1.mgmt with badRun := bad, ackRun := 0 } }
        if 3 ≤ bad then s2.standbyLost else s2)

/-- IMAGE_ACK_TIMEOUT (R433). -/
def execImageAckTimeout (now : Nat) (s : State) : Host.Outcome State Fault Refusal :=
  .next (let s := s.advance now
    match s.mgmt.sent with
    | none => s
    | some (_, t) => if s.gtime < t + 200000 ∨ !s.flag hmRoleA hmRoleStandbyOk then s else s.releaseSent)

/-! ### Silence and takeover (R439 to R444) -/

/-- HEARTBEAT_SILENCE (R439): two boundaries without a heartbeat, with 20 µs after each. -/
def execHeartbeatSilence (now : Nat) (s : State) : Host.Outcome State Fault Refusal :=
  .next (let s := s.advance now
    match s.activeDie with
    | none => s
    | some d =>
      if !s.standbyUp ∨ s.gtime < (s.hasia d).hb + 2020000 then s
      else
        ((s.setHasia d { s.hasia d with st := 6 }).setFld hmHbstatA hmHbstatPrivRx 0).setFld hmHbstatA hmHbstatSpineRx 0)

/-- What the latest acknowledged image brings back: Hasia's own part of power control, and its registers (R436, R441). The levels,
hints and keepalives are the hubs'. -/
def State.loadImage (s : State) (i : Image) : State :=
  let s1 := i.regs.foldl (fun s r => s.setReg r.1 r.2) s
  let s2 := (List.range 12).foldl (fun s p =>
    let x := kvGet Power.init i.power p
    s.setPwr p { s.pwr p with
      kp := x.kp, hostCap := x.hostCap, hostOn := x.hostOn, thermal := x.thermal, cool := x.cool, eff := x.eff, condAt := x.condAt }) s1
  let m := i.modPower
  { s2 with modPower := { s2.modPower with
      shed := m.shed, shedAt := m.shedAt, hotAt := m.hotAt, trayHb := m.trayHb, assumed := m.assumed, badAt := m.badAt } }

/-- Outputs of the old owner that were neither released nor in its latest acknowledged image are lost; a management reply is made
again alike (R435, R441). -/
def State.keepOutputs (s : State) (i : Image) : List HeldOut :=
  i.held ++ (s.mgmt.held.drop i.held.length).filter (fun h => match h with
    | .reply _ _ => true
    | _ => false)

/-- The requests of steward firmware that have no decision are presented again (R442). -/
def State.askAgain (s : State) : List (Nat × Nat) :=
  s.busyCtxs.flatMap (fun e => (e.2.cmds.filter (fun c => decide (c.stage = .started) && decide (c.opc = some .capRequest))).map
    (fun c => (e.1, c.cseq)))

/-- TAKEOVER (R440, R441, R443, R584): `fails` names the paths that the takeover check finds failed, by their bit in SELFTEST (log entry
12). The row stands at the boundary at which the new owner releases outputs. -/
def execTakeover (now : Nat) (fails : List Nat) (s : State) : Host.Outcome State Fault Refusal :=
  .next (let s := s.advance now
    match s.mgmt.latch with
    | none => s
    | some d =>
      let e := otherDie d
      if (s.hasia d).st ≠ 6 ∨ (s.hasia e).st ≠ 3 then s
      else if s.gtime < (s.hasia d).hb + 2000000 then (s.setFld hmHbstatA hmHbstatSplit 1).raise (32 * 93 + 1)
      else
        let old := s.mgmt.releasedAt
        let n := ceilDiv (s.gtime - s.mgmt.cycleAt) 1000000
        let img := s.mgmt.image
        let s1 := match img with
          | some i => s.loadImage i
          | none => s
        let held := match img with
          | some i => s.keepOutputs i
          | none => s.mgmt.held
        let od := s1.hasia d
        let back := decide (od.tookBack = 0) || decide (od.tookBack + 3600000000000 ≤ s1.gtime)
        let s2 := (s1.setHasia d { od with mayReturn := back }).setHasia e { s1.hasia e with st := 4, hb := s1.gtime }
        let s3 : State := { s2 with mgmt := { s2.mgmt with
          held := held, sent := none, image := none, accepted := 0, ackRun := 0, badRun := 0, swapReq := false,
          requests := s2.askAgain, cycle := s2.mgmt.cycle + n, cycleAt := s2.mgmt.cycleAt + 1000000 * n } }
        let s4 := ((s3.setFld hmRoleA hmRoleStandbyOk 0).newOwner d e).addSat hmRoleA hmRoleTakeovers 1
        let s5 := s4.gapFrom old
        let s6 := if fails.contains 0 then s5 else ((List.range 12).filter (fun p => s5.domOn (72 + p))).foldl (fun s p => s.hold (.keep p)) s5
        -- The dumps that the old owner held are lost (R584).
        let s7 : State := { s6.releaseHeld with dumps := [] }
        let mask := sumNat ((List.range 8).map (fun i => if fails.contains i then 2 ^ i else 0))
        if mask = 0 then s7
        else ((s7.setFld hmRoleA hmRoleDegraded 1).setFld (hmDiestatA e) hmDiestatSelftest mask).raise (32 * 93 + 3))

/-- HASIA_RESTART (R446): a die that needs a further restart after three within 24 h is held off. Its image comes up verified and
passes its self-test. -/
def execHasiaRestart (now : Nat) (s : State) : Host.Outcome State Fault Refusal :=
  .next (let s := s.advance now
    match s.activeDie with
    | none => s
    | some d =>
      let e := otherDie d
      let x := s.hasia e
      if x.st ≠ 6 ∨ s.flag (hmDiestatA e) hmDiestatHeldOff then s
      else
        let recent := x.restarts.filter (fun t => decide (s.gtime < t + 86400000000000))
        if 3 ≤ recent.length then
          let s1 := ((s.setHasia e { x with st := 0 }).setFld (hmDiestatA e) hmDiestatHeldOff 1).raise (32 * 93 + 4)
          { s1 with domains := kvSet false s1.domains (98 + e) false }
        else
          let r := s.gtime :: recent
          let s1 := (s.setHasia e { x with st := 3, hb := s.gtime, restarts := r }).setFld (hmDiestatA e) hmDiestatRestarts r.length
          let s2 := (s1.addWrap (hmDiestatA e) hmDiestatBoots 1).setFld (hmDiestatA e) hmDiestatSelftest 0
          let s3 := (s2.setFld hmHbstatA hmHbstatPrivRx 1).setFld hmHbstatA hmHbstatSpineRx 1
          { s3 with mgmt := { s3.mgmt with ackRun := 0, badRun := 0, accepted := 0 } })

/-! ### Swap and take-back (R445, R447) -/

/-- A swap order: ignored and counted while STANDBY_OK is 0 (R445). -/
def State.orderSwap (s : State) : State :=
  if s.flag hmRoleA hmRoleStandbyOk then { s with mgmt := { s.mgmt with swapReq := true } } else s.foreign

/-- SWAP (R445). -/
def execSwap (now : Nat) (by_ : Writer) (s : State) : Host.Outcome State Fault Refusal :=
  .next (let s := s.advance now
    if s.mgmtWriter by_ then s.orderSwap else s)

/-- TAKE_BACK (R447). -/
def execTakeBack (now : Nat) (s : State) : Host.Outcome State Fault Refusal :=
  .next (let s := s.advance now
    match s.activeDie with
    | none => s
    | some d =>
      let e := otherDie d
      let x := s.hasia e
      if x.st = 3 ∧ x.mayReturn ∧ s.flag hmRolectlA hmRolectlTakebackEn ∧ s.flag hmRoleA hmRoleStandbyOk ∧
          s.fld hmRolectlA hmRolectlTakebackCycles ≤ s.mgmt.ackRun then
        ({ s with mgmt := { s.mgmt with swapReq := true } }).setHasia e { x with mayReturn := false, tookBack := s.gtime + 1 }
      else s)

/-! ### Bring-up of the Hasia pair (R432, R449) -/

/-- The Hasia dies start: `okA` and `okB` say which of them pass boot and self-test. The primary takes the latch, else the other
die (R432). -/
def State.hasiaStart (s : State) (okA okB : Bool) : State :=
  let prim := s.fld hmRoleA hmRolePrimary
  let ok : Nat → Bool := fun d => if d = 0 then okA else okB
  let owner := if ok prim then some prim else if ok (otherDie prim) then some (otherDie prim) else none
  let one : State → Nat → State := fun s d =>
    let st := if owner = some d then 4 else if ok d then 3 else 5
    (s.setHasia d { (s.hasia d) with st := st, hb := s.gtime, mayReturn := false, tookBack := 0 }).addWrap (hmDiestatA d) hmDiestatBoots 1
  let s1 : State := { one (one s 0) 1 with domains := kvSet false (kvSet false s.domains 98 true) 99 true }
  let s2 : State := { s1 with mgmt := { s1.mgmt with
    latch := owner, cycle := 0, cycleAt := s1.gtime, releasedAt := s1.gtime, sent := none, image := none, accepted := 0,
    badRun := 0, ackRun := 0, swapReq := false, held := [], live := [] } }
  let s3 := (s2.setFld hmRoleA hmRoleOwner (owner.getD 0)).setFld hmRoleA hmRoleStandbyOk 0
  let both := okA && okB
  let s4 := (s3.setFld hmHbstatA hmHbstatPrivRx (b2n both)).setFld hmHbstatA hmHbstatSpineRx (b2n both)
  if owner.isSome ∧ owner ≠ some prim then s4.raise (32 * 93) else s4

/-- AO_WAKE_CYCLE (R449): both dies start anew, once. -/
def execAoWakeCycle (now : Nat) (s : State) : Host.Outcome State Fault Refusal :=
  .next (let s := s.advance now
    let quiet : Hasia → Bool := fun h => decide (h.st ≠ 3) && decide (h.st ≠ 4)
    if s.mgmt.aoUsed ∨ !s.pins.v48 ∨ !quiet s.mgmt.a ∨ !quiet s.mgmt.b ∨ s.gtime < max s.mgmt.a.hb s.mgmt.b.hb + 10000000000 then s
    else
      let s1 := s.hasiaStart true true
      { s1 with mgmt := { s1.mgmt with aoUsed := true, requests := s1.askAgain } })

/-! ### Wear (R456 to R458) -/

/-- Sums over points (x, y): count, Σx, Σy, Σx², Σxy, Σy². -/
def wearSums (pts : List (Nat × Nat)) : Nat × Int × Int × Int × Int × Int :=
  pts.foldl (fun (q : Nat × Int × Int × Int × Int × Int) p =>
    let x : Int := (p.1 : Nat)
    let y : Int := (p.2 : Nat)
    (q.1 + 1, q.2.1 + x, q.2.2.1 + y, q.2.2.2.1 + x * x, q.2.2.2.2.1 + x * y, q.2.2.2.2.2 + y * y)) (0, 0, 0, 0, 0, 0)

/-- The largest number of days up to 9,999 of which a test that holds up to some point holds. -/
def daysOf (p : Nat → Bool) : Nat := min 9999 (bisect p 14 0)

/-- DAYS, DAYS_LO and DAYS_HI of R457 over points in millionths, for a metric `w`: the slope is `a / d`, its standard error squared
`e / ((n − 2) d²)`; comparisons are exact. -/
def wearDays (pts : List (Nat × Nat)) (w : Nat) : Nat × Nat × Nat :=
  let duo := wearSums pts
  let n := duo.1
  let sx := duo.2.1
  let sy := duo.2.2.1
  let sxx := duo.2.2.2.1
  let sxy := duo.2.2.2.2.1
  let syy := duo.2.2.2.2.2
  let m : Int := (n : Nat)
  let d : Int := m * sxx - sx * sx
  let a : Int := m * sxy - sx * sy
  let e : Int := (m * syy - sy * sy) * d - a * a
  -- (1.645 × standard error × d)² = num / den.
  let num : Int := 2706025 * e
  let den : Int := 1000000 * (m - 2)
  let room : Int := ((1000000 - w : Nat) : Int) * d
  let mid := if a ≤ 0 then 9999 else min 9999 (room / a).toNat
  -- k (a + t) ≤ room, for t² = num / den.
  let up : Nat → Bool := fun k => let x : Int := (k : Nat); let r := room - x * a; decide (0 ≤ r) && decide (x * x * num ≤ r * r * den)
  let dn : Nat → Bool := fun k => let x : Int := (k : Nat); let r := x * a - room; decide (r ≤ 0) || decide (r * r * den ≤ x * x * num)
  let lo := if a ≤ 0 ∧ num ≤ a * a * den then 9999 else daysOf up
  let hi := if a ≤ 0 ∨ a * a * den ≤ num then 9999 else daysOf dn
  (mid, lo, hi)

/-- A wear event with its tray record of class 5; SUB is open (log entry 7). -/
def State.wearEvent (s : State) (i bitNo : Nat) (f : Fld) : State :=
  let duo := s.drawNat
  let sub := duo.1
  let s1 := duo.2
  ((s1.setFld (hmWearA i) f 1).raise (32 * 92 + bitNo)).trayRec 5 (sub % 256) i

/-- The events of an item whose DAYS_LO has been computed (R458). -/
def State.wearEvents (s : State) (i lo : Nat) : State :=
  let a := hmWearA i
  let s1 := if 455 < lo then s.setFld a hmWearEv365 0 else s
  let s2 := if 120 < lo then s1.setFld a hmWearEv90 0 else s1
  let s3 := if lo ≤ 365 ∧ !s2.flag a hmWearEv365 then s2.wearEvent i 8 hmWearEv365 else s2
  if lo ≤ 90 ∧ !s3.flag a hmWearEv90 then s3.wearEvent i 9 hmWearEv90 else s3

/-- The daily sample of one item: its metric in millionths (log entry 12). -/
def State.wearItem (s : State) (day i w : Nat) : State :=
  let a := hmWearA i
  let h := kvGet [] s.wear i ++ [(day, w)]
  let h := h.drop (h.length - 128)
  let s1 := ({ s with wear := kvSet [] s.wear i h }).setFld a hmWearW (min 1023 (w / 1000))
  let pts := h.filter (fun p => decide (day < p.1 + 90))
  if pts.length < 14 then s1.setFld a hmWearState 0
  else if 1000000 ≤ w then
    ((((s1.setFld a hmWearDays 0).setFld a hmWearDaysLo 0).setFld a hmWearDaysHi 0).setFld a hmWearState 2).wearEvents i 0
  else
    let duo := wearDays pts w
    let mid := duo.1
    let lo := duo.2.1
    let hi := duo.2.2
    ((((s1.setFld a hmWearDays mid).setFld a hmWearDaysLo lo).setFld a hmWearDaysHi hi).setFld a hmWearState 1).wearEvents i lo

/-- WEAR_DAILY (R457): the day is the one after the last sampled. -/
def execWearDaily (now : Nat) (samples : List Nat) (s : State) : Host.Outcome State Fault Refusal :=
  .next (let s := s.advance now
    if !s.hasiaUp ∨ s.gtime < s.mgmt.wearAt + 86400000000000 then s
    else
      let day := (((kvGet [] s.wear 0).getLast?.map (·.1)).getD 0) + 1
      let s1 : State := { s with mgmt := { s.mgmt with wearAt := s.gtime } }
      (List.range 114).foldl (fun s i => s.wearItem day i (samples.getD i 0)) s1)

end Sys2Proof.Machine
end

