-- ==== Sys2Proof/Machine/Mcb.lean ====
section
/-!
DEFINITION. The module configuration block: the soft-fuse overlay, reading a copy at bring-up, and writing both copies (R533 to R536,
R539 to R544, R626).
-/

namespace Sys2Proof.Machine

/-! ### The overlay (R534, R535) -/

/-- Entries in the overlay. -/
def State.overlayCount (s : State) : Nat := min 256 (s.fld hmSfctlA hmSfctlCount)

/-- The entries of the overlay, in order. -/
def State.overlay (s : State) : List Word := (List.range s.overlayCount).map (fun i => s.reg (hmSoftfuseA i))

/-- The words of the overlay registers replaced by a list of entries. -/
def State.setOverlay (s : State) (es : List Word) : State :=
  let n := min 256 es.length
  let s1 := (List.range 256).foldl (fun s i => s.setReg (hmSoftfuseA i) (es.getD i 0)) s
  (s1.setFld hmSfctlA hmSfctlCount n).setFld hmSfctlA hmSfctlFull (b2n (decide (n = 256)))

/-- A soft-fuse entry without its BOOT byte (R538). -/
def fuseEntry (kind die unit row source : Nat) : Nat := kind + 2 ^ 8 * die + 2 ^ 16 * unit + 2 ^ 32 * row + 2 ^ 48 * source

/-- Appends an entry; one equal in KIND, DIE, UNIT and ROW is not added, and one that finds 256 entries is not recorded and reported
to the tray (R534, R535, R580). -/
def State.overlayAdd (s : State) (e : Nat) : State :=
  if s.overlay.any (fun w => decide (bits w.toNat 0 48 = bits e 0 48)) then s
  else if 256 ≤ s.overlayCount then s.trayRec 6 0x11 (bits e 8 8)
  else
    let n := s.overlayCount
    let s1 := s.setReg (hmSoftfuseA n) (BitVec.ofNat 64 (setBits e 56 8 (s.fld lkBootcntA lkBootcntBoots)))
    let s2 := (s1.setFld hmSfctlA hmSfctlCount (n + 1)).setFld hmSfctlA hmSfctlFull (b2n (decide (n + 1 = 256)))
    { s2 with flash := { s2.flash with due := true } }

/-- Whether an overlay takes a unit out of use. -/
def fusedOut (es : List Word) (kind die unit : Nat) : Bool :=
  es.any (fun w => decide (bits w.toNat 0 8 = kind ∧ bits w.toNat 8 8 = die ∧ bits w.toNat 16 16 = unit))

/-! ### Registers by name in a record (R541) -/

/-- The home of a register address: the fabric dies hold identical copies of the slice tables, and both tier dies the segment table
(R148, R332). -/
def homeReg (a : Nat) : Nat :=
  if (regAt a).isSome then a
  else if 0x30200000000 ≤ a ∧ a < 0x30204000000 then 0x30200000000 + (a - 0x30200000000) % 0x1000000
  else if 0x30400000000 ≤ a ∧ a < 0x30402000000 then 0x30400000000 + (a - 0x30400000000) % 0x1000000
  else a

/-- The field that an address, a lowest bit and a width name exactly. -/
def fieldNamed (a lo width : Nat) : Option RegField :=
  match regAt (homeReg a) with
  | some (d, _) => fieldAt d lo width
  | none => none

/-- Whether a value lies in a field's range. -/
def RegField.takes (f : RegField) (v : Nat) : Bool := decide (f.least ≤ v) && decide (v ≤ f.most) && decide (v < 2 ^ f.fld.width)

/-- What one field record does. -/
inductive RecOut where
  /-- It is unused. -/
  | unused
  /-- It does not name exactly one field with Reset MCB. -/
  | skipped
  /-- Its value lies outside the range. -/
  | clamped
  /-- It gives a field its value. -/
  | apply
  deriving DecidableEq, Repr

/-- The checks of R541 on a record: address, lowest bit, width, value. -/
def recCheck (r : Nat × Nat × Nat × Nat) : RecOut :=
  if r.2.2.1 = 0 then .unused
  else match fieldNamed r.1 r.2.1 r.2.2.1 with
    | none => .skipped
    | some f => if !f.mcb then .skipped else if f.takes r.2.2.2 then .apply else .clamped

/-- The field records of the image that Hasia holds. -/
def State.mcbRecs (s : State) : List (Nat × Nat × Nat × Nat) :=
  (List.range (s.fld mcbHdrA mcbHdrNrec)).map (fun i =>
    (s.fld (mcbRecA i) mcbRecAddr, s.fld (mcbRecA i) mcbRecLo, s.fld (mcbRecA i) mcbRecWidth, (s.reg (mcbRecValueA i)).toNat))

/-- Applies the records that pass their checks to the registers that a test picks, in index order (R541). -/
def State.applyRecs (s : State) (pick : Nat → Bool) : State :=
  s.mcbRecs.foldl (fun s r =>
    if recCheck r = .apply ∧ pick (homeReg r.1) then s.setFld (homeReg r.1) ⟨r.2.1, r.2.2.1⟩ r.2.2.2 else s) s

/-! ### The image (R540) -/

/-- A list of words at a fixed count, as bytes. -/
def wordsBytes (n : Nat) (ws : List Word) : List Byte := (List.range n).flatMap (fun i => natLe 8 (ws.getD i 0).toNat)

/-- The 262,144 bytes of an MCB copy. -/
def McbImage.bytes (m : McbImage) : List Byte :=
  let rec_ : Nat × Nat × Nat × Nat → List Byte := fun r => natLe 6 r.1 ++ natLe 1 r.2.1 ++ natLe 1 r.2.2.1 ++ natLe 8 r.2.2.2
  let head := natLe 4 0x3142434D ++ natLe 2 1 ++ zeros 2 ++ natLe 8 m.gen ++ natLe 8 Config.serial ++ natLe 4 m.recs.length ++ zeros 4068
  let recs := fitBytes 131072 (m.recs.flatMap rec_)
  let boot := fitBytes 64 (natLe 1 (b2n m.bootrec.1 + 2 * b2n m.bootrec.2))
  let wear := (List.range 114).flatMap (fun i => fitBytes 512 ((m.hist.getD i []).flatMap (fun d => natLe 2 d.1 ++ natLe 2 d.2)))
  let body := head ++ recs ++ wordsBytes 256 m.overlay ++ boot ++ zeros 1984 ++ wear ++ wordsBytes 114 m.wear ++ zeros 112 ++
    wordsBytes 52 m.tarnish ++ zeros 63068
  body ++ natLe 4 (crc32c body)

/-- The image as Hasia holds it now, with a write number. -/
def State.mcbNow (s : State) (gen : Nat) : McbImage where
  gen := gen
  valid := true
  recs := s.mcbRecs
  overlay := s.overlay
  bootrec := (s.flag hmBootcfgA hmBootcfgForceFullNext, s.boot.step8)
  wear := (List.range 114).map (fun i => s.reg (hmWearA i))
  tarnish := (List.range 52).map (fun d => s.reg (hmTarnishA d))
  hist := (List.range 114).map (fun i => (kvGet [] s.wear i).map (fun q => (q.1, q.2 / 1000)))
  lastSeq := s.fld hmFstopA hmFstopLastSeq

/-- The registers that Hasia loads from an image (R541, R554). -/
def State.loadMcb (s : State) (m : McbImage) : State :=
  let idx : List (Nat × (Nat × Nat × Nat × Nat)) := (List.range (min 8192 m.recs.length)).zip m.recs
  let s1 := (s.setFld mcbHdrA mcbHdrNrec (min 8192 m.recs.length)).setFld mcbHdrA mcbHdrGen m.gen
  let s2 := idx.foldl (fun s e =>
    let w := fset (fset (fset 0 mcbRecAddr e.2.1) mcbRecLo e.2.2.1) mcbRecWidth e.2.2.2.1
    (s.setReg (mcbRecA e.1) w).setReg (mcbRecValueA e.1) (BitVec.ofNat 64 e.2.2.2.2)) s1
  let s3 := s2.applyRecs (fun _ => true)
  -- The image's own areas come last: no record stands over them.
  let s4 := s3.setOverlay m.overlay
  let s5 := (List.range 114).foldl (fun s i => s.setReg (hmWearA i) (m.wear.getD i 0)) s4
  let s6 := (List.range 52).foldl (fun s d => s.setReg (hmTarnishA d) (m.tarnish.getD d 0)) s5
  let s7 := (s6.setFld hmBootcfgA hmBootcfgForceFullNext (b2n m.bootrec.1)).setFld hmFstopA hmFstopLastSeq m.lastSeq
  { s7 with
    boot := { s7.boot with step8 := m.bootrec.2 },
    wear := (List.range 114).foldl (fun (h : Kv (List (Nat × Nat))) i =>
      kvSet [] h i ((m.hist.getD i []).map (fun q => (q.1, 1000 * q.2)))) [] }

/-- Merging the fast-stop slots into the image that the first MCB write carries (R626). -/
def State.mergeSlots (s : State) : State :=
  let last := s.fld hmFstopA hmFstopLastSeq
  let new := s.flash.slots.filter (fun b => decide (last < leAt b 4 4))
  let s1 := s.setFld hmFstopA hmFstopSlotsFree (256 - s.flash.slots.length)
  match new.getLast? with
  | none => s1
  | some b =>
    let s2 := ((s1.setFld hmFstopA hmFstopLastSeq (leAt b 4 4)).setFld hmFstopA hmFstopCause (leAt b 20 1)).setFld hmFstopA
      hmFstopMerged 1
    { s2 with flash := { s2.flash with due := true } }

/-! ### Choosing a copy (R542) -/

/-- The copy used at step 2, if one is valid: 0 A, 1 B. -/
def Flash.pick (f : Flash) : Option Nat :=
  if f.mcbA.valid ∧ f.mcbB.valid then some (if f.mcbA.gen < f.mcbB.gen then 1 else 0)
  else if f.mcbA.valid then some 0 else if f.mcbB.valid then some 1 else none

/-- The MCB part of step 2: the copy used, flags, events, hallmark 8, the records and the overlay (R519, R541, R542). -/
def State.readMcb (s : State) : State :=
  let f := s.flash
  let m := match f.pick with
    | some 0 => f.mcbA
    | some _ => f.mcbB
    | none => McbImage.empty
  let s1 := match f.pick with
    | some k =>
      let s1 := s.setFld hmMcbstatA hmMcbstatCopy k
      if f.mcbA.valid ∧ f.mcbB.valid then
        if f.mcbA.gen = f.mcbB.gen then s1 else s1.addSat hmMcbstatA hmMcbstatResync 1
      else (s1.setFld hmMcbstatA hmMcbstatMirrorUsed 1).raise (32 * 94)
    | none => (s.setFld hmMcbstatA hmMcbstatDefaultsInUse 1).raise (32 * 94 + 1)
  let s2 := (s1.loadMcb m).extendHallmark 8 (sha256 m.bytes)
  let n : RecOut → Nat := fun o => (m.recs.filter (fun r => decide (recCheck r = o))).length
  let s3 := (s2.setFld hmMcbstatA hmMcbstatRecSkipped (n .skipped)).setFld hmMcbstatA hmMcbstatRecClamped (n .clamped)
  s3.mergeSlots

/-! ### Writing (R543, R544) -/

/-- Whether Hasia writes neither copy (R543). -/
def State.mcbHeld (s : State) : Bool := s.flag hmMcbstatA hmMcbstatDefaultsInUse && s.flag hmMcbstatA hmMcbstatKeepBad

/-- One MCB write: copy A, and only then copy B. `okA` and `okB` say whether each completes (log entry 12). -/
def State.writeMcb (s : State) (okA okB : Bool) : State :=
  if !s.hasiaUp ∨ s.mcbHeld then s
  else
    let g := s.fld mcbHdrA mcbHdrGen + 1
    let img := s.mcbNow g
    let bad := { img with valid := false }
    let s1 := s.setFld mcbHdrA mcbHdrGen g
    if !okA then { s1 with flash := { s1.flash with mcbA := bad } }
    else if !okB then { s1 with flash := { s1.flash with mcbA := img, mcbB := bad } }
    else
      let last := s1.fld hmFstopA hmFstopLastSeq
      let slots := s1.flash.slots.filter (fun b => decide (last < leAt b 4 4))
      let s2 : State := { s1 with flash := { s1.flash with mcbA := img, mcbB := img, due := false, slots := slots } }
      ((s2.addWrap hmMcbstatA hmMcbstatWrites 1).extendHallmark 8 (sha256 img.bytes)).setFld hmFstopA hmFstopSlotsFree (256 - slots.length)

/-- A cause for an MCB write (R544). -/
def State.oweMcb (s : State) : State := { s with flash := { s.flash with due := true } }

/-- The repair of R542: a copy rewritten from the used one, or both from the defaults. -/
def State.repairMcb (s : State) : State :=
  let f := s.flash
  match f.pick with
  | some 0 => if f.mcbB.valid ∧ f.mcbB.gen = f.mcbA.gen then s else { s with flash := { f with mcbB := f.mcbA } }
  | some _ => { s with flash := { f with mcbA := f.mcbB } }
  | none => s.writeMcb true true

/-- MCB_WRITE (R544): a write for the causes that wait. -/
def execMcbWrite (okA okB : Bool) (s : State) : Host.Outcome State Fault Refusal :=
  .next (if s.flash.due then s.writeMcb okA okB else s)

/-- OVERLAY_APPEND (R534): the entry, and both copies. -/
def execOverlayAppend (entry : Word) (s : State) : Host.Outcome State Fault Refusal :=
  .next (
    let k := bits entry.toNat 0 8
    if !s.hasiaUp ∨ k = 0 ∨ 8 < k then s
    else
      let s1 := s.overlayAdd (bits entry.toNat 0 56)
      if s1.flash.due then s1.writeMcb true true else s1)

/-- OVERLAY_CLEAR (R535): outside RMA the write is ignored and counted. -/
def execOverlayClear (by_ : Writer) (s : State) : Host.Outcome State Fault Refusal :=
  .next (
    if !s.mgmtWriter by_ then s
    else if s.fld lkStateA lkStateLifecycle = 2 then (s.setOverlay []).oweMcb
    else (s.addSat hmCfgstatA hmCfgstatStIgnored 1).raise (32 * 94 + 2))

end Sys2Proof.Machine
end

