-- ==== Sys2Proof/Machine/RegView.lean ====
section
/-!
DEFINITION. What a read of a register returns: the fields that show a queue, a count or a state kept elsewhere, and the windows of
Locket (R11, R12, R36, R142, R183, R203, R250, R345, R382, R459, R491, R515, R588, R589, R605).
-/

namespace Sys2Proof.Machine

/-! ### Error domains as registers show them (R557, R558, R588) -/

/-- ACT of a code (R565). -/
def codeAct (code : Nat) : Bool := decide (code ≠ 1 ∧ code ≠ 2 ∧ code ≠ 3 ∧ code ≠ 0x25)

/-- Whether a command is unretired. -/
def State.unretired (s : State) (q : Nat × Nat) : Bool := ((s.ctx q.1).cmd q.2).isSome

/-- Whether a domain's handling is open: its action has not completed, or a command that it ends has not retired (R558). -/
def State.domOpen (s : State) (d : Nat) : Bool :=
  let x := s.dom d
  x.level.isSome && (!x.done || x.ends.any s.unretired)

/-- The three words of an error record (R588). -/
def errWords (r : ErrRec) (time : Nat) : Word × Word × Word :=
  (BitVec.ofNat 64 (r.code % 256 + 2 ^ 8 * (r.level % 8) + 2 ^ 11 * b2n (codeAct r.code) + 2 ^ 12 * (r.die % 256) +
      2 ^ 20 * (r.unit % 256) + 2 ^ 28 * (r.ctx % 1024)),
   BitVec.ofNat 64 (time % two32 + two32 * (r.cseq % two32)), BitVec.ofNat 64 (r.addr % 2 ^ 44))

/-- A word of a domain's queue as its registers read: word 0, 1 or 2. -/
def State.errqWord (s : State) (d k : Nat) : Word :=
  let x := s.dom d
  let lost := s.fld (hmErrq0A d) hmErrq0Lost
  match x.queue with
  | [] => if k = 0 then fset (fset 0 phErrq0Ctx 0x3FF) phErrq0Lost lost else 0
  | (r, t) :: _ =>
    let w := errWords r t
    if k = 0 then fset (fset w.1 phErrq0Lost lost) phErrq0Depth x.queue.length else if k = 1 then w.2.1 else w.2.2

/-- ESC of a domain. -/
def State.escWord (s : State) (d : Nat) : Word := fset (s.reg (hmEscA d)) hmEscOpen (b2n (s.domOpen d))

/-! ### Other computed registers -/

/-- Several fields set in a word. -/
def fsets (w : Word) (fs : List (Fld × Nat)) : Word := fs.foldl (fun w f => fset w f.1 f.2) w

/-- The oldest record of a unit's fault queue in its register (R142). -/
def faultWord (w : Word) (q : List (Nat × Nat)) : Word :=
  match q with
  | [] => fsets w [(meFaultCode, 0), (meFaultTagLo, 0)]
  | (code, tag) :: _ => fsets w [(meFaultCode, code), (meFaultTagLo, tag % 2 ^ 48)]

/-- The oldest record of an uncorrectable log (R183). -/
def State.uelogWord (s : State) (die : Nat) : Word :=
  let w := s.reg (uelogA die)
  match kvGet [] s.uelog die with
  | [] => w
  | r :: _ => fsets w [(phUelogAddr, r.addr), (phUelogKind, r.kind), (phUelogSource, r.source)]

/-- Engines of a tier die whose reset is in progress, as a mask. -/
def State.pressBusy (s : State) (die : Nat) : Nat :=
  sumNat ((List.range 16).map (fun e => if (s.press die e).rstAt.isSome then 2 ^ e else 0))

/-- Cameos of a partition at a stage. -/
def State.cameosAt (s : State) (p : Nat) (st : CameoStage) : Nat :=
  sumNat ((List.range 64).map (fun k => ((s.ctx (64 * p + k)).cameos.filter (fun q => decide (q.stage = st))).length))

/-- The word at a register's home address, as a read returns it. -/
def State.regWord (s : State) (h : Nat) (name : RegName) (is : List Nat) : Word :=
  let w := s.reg h
  let i := is.getD 0 0
  let j := is.getD 1 0
  match name with
  | .gtGtime => BitVec.ofNat 64 s.gtime
  | .meStat =>
    let x := s.me i j
    fsets w [(meStatDepth, x.queue.length), (meStatBusy, b2n x.cur.isSome), (meStatChain, b2n x.chain.isSome)]
  | .mvStat =>
    let x := s.mover i j
    fsets w [(mvStatDepth, x.queue.length), (mvStatBusy, b2n x.cur.isSome)]
  | .meFault => faultWord w (s.me i j).faults
  | .mvFault => faultWord w (s.mover i j).faults
  | .pipStat => fset w pipStatRunning (b2n (s.hart i j).running)
  | .phJstat =>
    fsets w [(phJstatFree, jSlots - s.jUsed i), (phJstatValid, s.jValid i),
      (phJstatWaiting, ((s.partCtxs i).filter (fun e => s.journalWait e.1)).length)]
  | .phUelog => s.uelogWord i
  | .tdUelog => s.uelogWord (12 + i)
  | .tdPectl => fset w tdPectlRstBusy (s.pressBusy i)
  | .tdPeshare => fset w tdPeshareQueued (kvGet [] s.pressQ (16 * i + j)).length
  | .tdPestat =>
    match (s.press i j).group with
    | none => fset w tdPestatBusy 0
    | some g => fsets w [(tdPestatBusy, 1), (tdPestatPart, g.part)]
  | .fdAbortlog =>
    match kvGet [] s.aborts i with
    | [] => w
    | r :: _ => fset r.word fdAbortlogLost (fget w fdAbortlogLost)
  | .fdAborttime =>
    match kvGet [] s.aborts i with
    | [] => 0
    | r :: _ => BitVec.ofNat 64 r.time
  | .fdCollstat => fset w fdCollstatActive (b2n (s.colls.any (fun k => decide (k.entry = i))))
  | .phErrq0 => s.errqWord i 0
  | .phErrq1 => s.errqWord i 1
  | .phErrq2 => s.errqWord i 2
  | .hmErrq0 => s.errqWord i 0
  | .hmErrq1 => s.errqWord i 1
  | .hmErrq2 => s.errqWord i 2
  | .phEsc => s.escWord i
  | .hmEsc => s.escWord i
  | .phClundo =>
    let n := (kvGet [] s.undo i).length
    fsets w [(phClundoUsed, n), (phClundoFull, b2n (decide (n = 16384)))]
  | .tdSeg => fset w tdSegConf (b2n (decide (s.segOwner i < 12) && s.confidential (s.segOwner i)))
  | .evcTgtCfg => fset w evcTgtCfgIrq (b2n (s.evIrq i))
  | .evcTgtClaim => (s.claimRead i).1
  | .hmTrayhb => fset w hmTrayhbAgeMs (min 65535 ((s.gtime - s.modPower.trayHb) / 1000000))
  | .hmDump => fsets w [(hmDumpHeld, s.dumps.length), (hmDumpCapturing, b2n !s.captures.isEmpty)]
  | .hmFwstat => fset w hmFwstatNextBank (s.flash.next % 2)
  | .hmCameostat0 =>
    fsets w [(hmCameostat0Armed, s.cameosAt i .armed), (hmCameostat0Running, b2n !(kvGet [] s.dumpQ i).isEmpty),
      (hmCameostat0Queued, (kvGet [] s.dumpQ i).length - 1)]
  -- A counter that names a confidential partition reads 0 (R594).
  | .hmCntval => if i = 0 ∧ s.confidential (bits (s.cntSelOf 0 j) 12 4) then 0 else w
  | _ => w

/-- The eight bytes that a window of Locket shows at an offset: the boot record and the link exchanges; DBGAUTH is write-only
(R491). -/
def State.lkWindow (s : State) (a : Nat) : Option (List Byte) :=
  if 0x3F001002000 ≤ a ∧ a < 0x3F001005000 then some (fitBytes 8 ((s.locket.bootRec.drop (a - 0x3F001002000)).take 8))
  else if 0x3F001010000 ≤ a ∧ a < 0x3F001028000 then
    some (s.linkWin ((a - 0x3F001010000) / 0x4000) ((a - 0x3F001010000) % 0x4000) 8)
  else none

/-- The word at an aligned address of the register region or the management-only space; an address that no block defines reads
as 0 (R36). -/
def State.regView (s : State) (a : Nat) : Word :=
  match s.lkWindow a with
  | some bs => BitVec.ofNat 64 (leNat bs)
  | none =>
    let h := homeReg a
    match regAt h with
    | some (d, is) => s.regWord h d.name is
    | none => 0

/-- A read of a word with its effect: a read of a CLAIM register claims (R501). -/
def State.regLoad (s : State) (a : Nat) : Word × State :=
  match regAt (homeReg a) with
  | some (d, is) => if d.name = .evcTgtClaim then s.claimRead (is.getD 0 0) else (s.regView a, s)
  | none => (s.regView a, s)

end Sys2Proof.Machine
end

