-- ==== Sys2Proof/Machine/Faults.lean ====
section
/-!
DEFINITION. Fault records, handlings and their escalation, hang windows, watchdogs, captures and dumps (R555 to R565, R579 to R584,
R588, R589).
-/

namespace Sys2Proof.Machine

/-! ### Units and their domains (R556, R562) -/

/-- Die index and UNIT of a unit key in a record: an ME is 0–7, a mover 8–15, a pip 32–63 (log entry 33). -/
def keyDie (key : Nat) : Nat × Nat :=
  if key < 1024 then (key / 32, key % 32)
  else if key < 2048 then ((key - 1024) / 32, 32 + key % 32)
  else if key < 2304 then (46 + (key - 2048) / 16, key % 16)
  else if key < 4096 then (36 + (key - 2304) / 2, key % 2)
  else (0xFF, 0xFF)

/-- The unit key that a record's DIE and UNIT name. -/
def dieKey (die unit : Nat) : Option Nat :=
  if die < 24 then (if unit < 16 then some (32 * die + unit) else if 32 ≤ unit ∧ unit < 64 then some (1024 + 32 * die + (unit - 32)) else none)
  else if (die = 46 ∨ die = 47) ∧ unit < 16 then some (pressKey (die - 46) unit)
  else if 36 ≤ die ∧ die < 40 ∧ unit < 2 then some (ruKey (die - 36) unit)
  else none

/-- The error domain of a unit or context (R208, R556). -/
def State.keyDomain (s : State) (key : Nat) : Nat :=
  if key < 1024 then key / 64
  else if key < 2048 then (key - 1024) / 64
  else if key < 2304 then 16 + (key - 2048) / 16
  else if key < 4096 then 12 + (key - 2304) / 2
  else s.hubOf (key - 4096)

/-- Whether a key names a unit or a context below 800. -/
def keyValid (key : Nat) : Bool :=
  (decide (key < 768) && decide (key % 32 < 6 ∨ (8 ≤ key % 32 ∧ key % 32 < 16))) || (decide (1024 ≤ key) && decide (key < 1792)) ||
    (decide (2048 ≤ key) && decide (key < 2080)) || (decide (2304 ≤ key) && decide (key < 2312)) ||
    (decide (4096 ≤ key) && decide (key < 4896))

/-! ### Handlings (R557, R558) -/

/-- A field of ESC of a domain, in the hub's register and its mirror (R589). -/
def State.escFld (s : State) (d : Nat) (f : Fld) (v : Nat) : State :=
  let s1 := s.setFld (hmEscA d) f v
  if d < 12 then s1.setFld (phEscA d) f v else s1

/-- One more action of a level in L1_COUNT or L2_COUNT. -/
def State.escCount (s : State) (d : Nat) (f : Fld) : State := s.escFld d f (satAdd 65535 (s.fld (hmEscA d) f) 1)

/-- Start level of a record (R565). -/
def recLevel (r : ErrRec) : Option Nat :=
  match r.code with
  | 0x10 | 0x11 | 0x12 | 0x13 | 0x14 => some 1
  | 0x15 => some 0
  | 0x16 | 0x20 | 0x22 => some 2
  | 0x17 | 0x21 => some 3
  | 0x23 => some 4
  | 0x30 => some (min 4 r.level)
  | _ => none

/-- Codes of R565. -/
def codeKnown (c : Nat) : Bool :=
  [1, 2, 3, 0x10, 0x11, 0x12, 0x13, 0x14, 0x15, 0x16, 0x17, 0x20, 0x21, 0x22, 0x23, 0x24, 0x25, 0x30, 0x31].contains c

/-- Whether the cause is a hang or an overrun (R237, R560). -/
def codeHang (c : Nat) : Bool := decide (0x10 ≤ c ∧ c ≤ 0x17) || decide (c = 0x30)

/-- LAST_FAULT of a recovery reset: ordered, after a hang, or after another record (R237). -/
def causeStatus (c : Nat) : Status := if c = 0 then .abortedFence else if codeHang c then .timeout else .droppedBadData

/-- A level begins: its capture comes first where an active Hasia makes one (R581). -/
def State.startLevel (s : State) (d lvl : Nat) (r : ErrRec) (raised : Bool) : State :=
  let x := s.dom d
  let s1 : State := { s with captures := s.captures.filter (fun c => decide (c.dom ≠ d)) }
  let s2 := s1.escFld d hmEscLevel lvl
  let s3 := if raised then s2.escFld d hmEscEscalated 1 else (s2.escFld d hmEscCode r.code).escFld d hmEscEscalated 0
  let y : Domain := { x with
    level := some lvl, cause := r, raised := raised, acting := decide (lvl = 4), since := s.gtime, done := false,
    ends := if raised then x.ends else [] }
  if 4 ≤ lvl then s3.setDom d y
  else if s.hasiaUp then { s3.setDom d y with captures := s3.captures ++ [⟨d, s.gtime, []⟩] }
  else
    let s4 := if lvl ≤ 2 then s3.addSat hmDumpA hmDumpSkipped 1 else s3
    s4.setDom d { y with acting := decide (lvl ≤ 2) }

/-- Queues a record; the result says whether it found the queue full (R557). -/
def State.queueRec (s : State) (d : Nat) (r : ErrRec) : State × Bool :=
  let x := s.dom d
  if x.queue.length < 256 then (s.setDom d { x with queue := x.queue ++ [(r, s.gtime)] }, false)
  else if codeAct r.code then (s, true)
  else
    let s1 := s.setFld (hmErrq0A d) hmErrq0Lost 1
    (if d < 12 then s1.setFld (phErrq0A d) phErrq0Lost 1 else s1, true)

/-- The hub that ADMIN_HUB names is lost (R571). -/
def State.loseAdmin (s : State) : State :=
  if s.boot.adminLost then s
  else
    let s1 : State := { s with boot := { s.boot with adminLost := true } }
    ((s1.setFld hmBootA hmBootReady 3).setFld hmBootA hmBootCause 4).trayRec 7 3 4

/-- Whether a record says that a hub is lost: its domain, its link to its fabric die, or a hang that a module reset did not clear
(R571). -/
def State.hubLost (s : State) (d : Nat) (r : ErrRec) : Bool :=
  decide (d = s.adminHub) && decide (r.die = 24 + d) &&
    (decide (r.code = 0x22) || (decide (r.code = 0x20) && decide (r.unit = 2)) ||
      (decide (r.code = 0x17) && decide ((s.dom d).cause.code = 0x17) && (s.dom d).done))

/-- Switches domains 96 and 97 off (R427, R565). -/
def State.hostDieOff (s : State) : State := { s with domains := kvSet false (kvSet false s.domains 96 false) 97 false }

/-- What a record says of its partition for the check of R570, and of the host die. -/
def State.recMarks (s : State) (d : Nat) (r : ErrRec) : State :=
  let s1 : State :=
    if r.code = 0x20 ∧ d < 12 then { s with boot := { s.boot with lost := (s.boot.lost.1 ||| 2 ^ d, s.boot.lost.2) } }
    else if r.code = 0x22 ∧ d < 12 then { s with boot := { s.boot with lost := (s.boot.lost.1, s.boot.lost.2 ||| 2 ^ d) } }
    else if r.code = 0x24 then
      -- The tray record's SUB is open (log entry 7).
      let duo := s.hostDieOff.drawNat
      let sub := duo.1
      let s' := duo.2
      s'.trayRec 6 (sub % 256) 48
    else s
  if s.hubLost d r then s1.loseAdmin else s1

/-- A fault record (R557, R558, R565). -/
def State.addRecord (s : State) (d : Nat) (r : ErrRec) : State :=
  let duo := (s.recMarks d r).queueRec d r
  let s1 := duo.1
  let full := duo.2
  match recLevel r with
  | none => s1
  | some l =>
    if s1.domOpen d then s1.startLevel d (min 4 (max ((s1.dom d).level.getD 0 + 1) l)) r true
    else if full then s1.startLevel d (min 4 (l + 1)) r true
    else s1.startLevel d l r false

/-- ERROR_RECORD (R555, R557, R558, R565): a hub queues the records of its partition, Hasia those of the other domains. -/
def execErrorRecord (now dom : Nat) (rec_ : ErrRec) (s : State) : Host.Outcome State Fault Refusal :=
  .next (let s := s.advance now
    if 26 ≤ dom ∨ !codeKnown rec_.code ∨ (dom < 12 ∧ !s.domOn (72 + dom)) ∨ (12 ≤ dom ∧ !s.hasiaUp) then s
    else s.addRecord dom rec_)

/-- ERRQ_POP (R588, R589): `p` is the domain; the hub's queue and its mirror are one. -/
def execErrqPop (p : Nat) (by_ : Writer) (s : State) : Host.Outcome State Fault Refusal :=
  .next (
    let ok := s.mgmtWriter by_ || (decide (p < 12) && s.domOn (72 + p) && mayReachReg by_ (phErrq0A p))
    if 26 ≤ p ∨ !ok then s else s.setDom p { s.dom p with queue := (s.dom p).queue.drop 1 })

/-- ABORTLOG_POP (R345). -/
def execAbortlogPop (f : Nat) (by_ : Writer) (s : State) : Host.Outcome State Fault Refusal :=
  .next (if 4 ≤ f ∨ !s.domOn (84 + f) ∨ !mayReachReg by_ (fdAbortlogA f) then s
    else { s with aborts := kvSet [] s.aborts f ((kvGet [] s.aborts f).drop 1) })

/-! ### Hang windows and watchdogs (R562 to R564) -/

/-- Whether a decoder command that is under way holds a unit. -/
def State.decHolds (s : State) (key : Nat) : Option (Nat × Cmd) :=
  (((s.partCtxs (key / 64)).flatMap (fun e => e.2.cmds.map (fun c => (e.1, c)))).find? (fun x =>
    decide (x.2.stage = .started) && x.2.is Opc.isDecoder && x.2.units.contains key))

/-- The chunks that a reduction unit holds with every input: entry, collective, chunk (R352, R562). -/
def State.ruReady (s : State) (f u : Nat) : Bool :=
  s.folds.any (fun x => decide (x.chunk % 4 = f) && decide (x.chunk / 4 % 2 = u) &&
    decide (s.foldNeed x.entry (s.coll x.entry x.coll).group ≤
      (s.folds.filter (fun y => decide (y.entry = x.entry ∧ y.coll = x.coll ∧ y.chunk = x.chunk))).length))

/-- Whether a unit's window runs (R562). -/
def State.windowRuns (s : State) (key : Nat) : Bool :=
  if key < 768 then
    let t := key / 32
    let k := key % 32
    if k < 8 then
      ((s.me t k).cur.isSome || !(s.me t k).queue.isEmpty || (s.decHolds key).isSome) && (s.mePip t k || !s.collRunning (t / 2))
    else (s.mover t (k - 8)).cur.isSome || (s.decHolds key).isSome
  else if key < 2048 then
    let x := s.hart ((key - 1024) / 32) (key % 32)
    x.running && x.wait.isNone
  else if key < 2304 then (s.press ((key - 2048) / 16) (key % 16)).group.isSome
  else if key < 4096 then s.ruReady ((key - 2304) / 2) (key % 2)
  else (s.ctx (key - 4096)).cmds.any (fun c => decide (c.stage = .started) && !c.is Opc.isColl)

/-- The window of a unit in ticks (R563). -/
def State.windowOf (s : State) (key : Nat) : Nat :=
  let ms := if key < 2048 ∨ 4096 ≤ key then s.fld (phHangA (s.keyDomain key)) phHangWindowMs else s.fld hmFltA hmFltWindowMs
  ms * 1000000

/-- The context and CSEQ that a unit works for, as its record names them. -/
def State.unitOwner (s : State) (key : Nat) : Nat × Nat :=
  let ofD : Option (List Byte) → Nat × Nat := fun d =>
    match d with
    | some d => (dscCtx d, dscCseq d)
    | none =>
      match s.decHolds key with
      | some (c, k) => (c, k.cseq)
      | none => (0x3FF, 0)
  if key < 768 then
    let t := key / 32
    let k := key % 32
    if k < 8 then ofD (match (s.me t k).cur with | some d => some d | none => (s.me t k).queue.head?)
    else ofD (s.mover t (k - 8)).cur
  else if key < 2048 then ((s.hart ((key - 1024) / 32) (key % 32)).job).getD (0x3FF, 0)
  else if key < 2304 then
    match (s.press ((key - 2048) / 16) (key % 16)).group with
    | some g => (g.ctx, g.cseq)
    | none => (0x3FF, 0)
  else if key < 4096 then (0x3FF, 0)
  else (key - 4096, (((s.ctx (key - 4096)).cmds.find? (fun c => decide (c.stage = .started))).map (·.cseq)).getD 0)

/-- Code of a progress expiry (R565). -/
def hangCode (key : Nat) : Nat :=
  if key < 768 then (if key % 32 < 8 then 0x10 else 0x11) else if key < 2048 then 0x12 else if key < 2304 then 0x13
  else if key < 4096 then 0x14 else 0x15

/-- HANG_WINDOW_EXPIRE (R562, R563, R565, R588): the window starts anew after the record. -/
def execHangWindowExpire (now unit : Nat) (s : State) : Host.Outcome State Fault Refusal :=
  .next (let s := s.advance now
    let d := s.keyDomain unit
    if !keyValid unit ∨ (d < 12 ∧ !s.domOn (72 + d)) ∨ (12 ≤ d ∧ !s.hasiaUp) ∨ !s.windowRuns unit ∨
        s.gtime < kvGet 0 s.windows unit + s.windowOf unit then s
    else
      let o := s.unitOwner unit
      let isCtx := decide (4096 ≤ unit)
      let duo := if isCtx then (24 + d, 0xFF) else keyDie unit
      let die := duo.1
      let n := duo.2
      let s1 :=
        if d < 12 then
          let a := phHangA d
          let s' := ((s.addSat a phHangExpired 1).setFld a phHangLastDie die).setFld a phHangLastUnit n
          (if isCtx then s'.setFld a phHangLastCtx o.1 else s').raise (32 * (73 + d) + 12)
        else s
      (s1.progress unit).addRecord d ⟨hangCode unit, (recLevel ⟨hangCode unit, 0, 0, 0, 0, 0, 0⟩).getD 0, die, n, o.1, o.2, 0⟩)

/-- WDOG_KICK (R564, R588): bit 0 kicks core 0, bit 1 core 1. -/
def execWdogKick (now p bits : Nat) (by_ : Writer) (s : State) : Host.Outcome State Fault Refusal :=
  .next (let s := s.advance now
    if 12 ≤ p ∨ !s.domOn (72 + p) ∨ !mayReachReg by_ (phWdogA p) then s
    else (List.range 2).foldl (fun (s : State) k =>
      if bits.testBit k then { s with wdog := kvSet 0 s.wdog (2 * p + k) s.gtime } else s) s)

/-- WATCHDOG_MISS (R564). -/
def execWatchdogMiss (now p core : Nat) (s : State) : Host.Outcome State Fault Refusal :=
  .next (let s := s.advance now
    if 12 ≤ p ∨ 2 ≤ core ∨ !s.domOn (72 + p) ∨
        s.gtime < kvGet 0 s.wdog (2 * p + core) + s.fld (phWdogA p) phWdogLimitMs * 1000000 then s
    else
      let s1 : State := { s with wdog := kvSet 0 s.wdog (2 * p + core) s.gtime }
      (s1.setFld (phWdogA p) phWdogWdogExp 1).addRecord p ⟨0x16, 2, 24 + p, core, 0x3FF, 0, 0⟩)

/-! ### Dumps (R581 to R584) -/

/-- A part of a dump before it is written: KIND, die, unit, the partition whose content it is, and its bytes (R583). -/
structure DumpPart where
  /-- KIND. -/
  kind : Nat
  /-- Die index. -/
  die : Nat
  /-- UNIT. -/
  unit : Nat
  /-- Partition, where it is a partition's content. -/
  part : Option Nat
  /-- Data bytes; their layout is the model's (log entry 34). -/
  data : List Byte
  deriving DecidableEq, Repr

/-- Address and word of each register that stands off its reset in a range. -/
def State.regDump (s : State) (lo n : Nat) : List Byte :=
  (s.regs.filter (fun e => decide (lo ≤ e.1) && decide (e.1 < lo + n))).flatMap (fun e => natLe 8 e.1 ++ natLe 8 (s.regView e.1).toNat)

/-- The words at some addresses. -/
def State.viewBytes (s : State) (as : List Nat) : List Byte := as.flatMap (fun a => natLe 8 (s.regView a).toNat)

/-- The parts of one unit: its registers and its queue (R581). -/
def State.unitParts (s : State) (key : Nat) : List DumpPart :=
  let duo := keyDie key
  let die := duo.1
  let n := duo.2
  if key < 768 then
    let t := key / 32
    let k := key % 32
    if k < 8 then
      [⟨1, die, n, some (t / 2), s.viewBytes [meStatA t k, meFaultA t k]⟩,
       ⟨2, die, n, some (t / 2), ((s.me t k).cur.toList ++ (s.me t k).queue).flatten⟩]
    else
      [⟨1, die, n, some (t / 2), s.viewBytes [mvStatA t (k - 8), mvFaultA t (k - 8)]⟩,
       ⟨2, die, n, some (t / 2), ((s.mover t (k - 8)).cur.toList ++ (s.mover t (k - 8)).queue).flatten⟩]
  else if key < 2048 then
    let t := (key - 1024) / 32
    [⟨1, die, n, some (t / 2), s.viewBytes [pipCtlA t (key % 32), pipStatA t (key % 32)] ++
      (List.range 32).flatMap (fun r => natLe 8 ((s.hart t (key % 32)).get r))⟩]
  else if key < 2304 then
    let d := (key - 2048) / 16
    [⟨1, die, n, none, s.viewBytes [tdPecapA d, tdPectlA d, tdPestatA d (key % 16)]⟩,
     ⟨2, die, n, none, ((s.press d (key % 16)).group.toList.flatMap (fun g => g.pages)).flatMap (fun q => natLe 8 q.1 ++ natLe 8 q.2)⟩]
  else
    let f := (key - 2304) / 2
    [⟨1, die, n, none, s.viewBytes [fdRustatA f (key % 2)]⟩,
     ⟨2, die, n, none, ((s.folds.filter (fun x => decide (x.chunk % 4 = f ∧ x.chunk / 4 % 2 = key % 2))).flatMap (fun x => x.pay))⟩]

/-- A context's state: its status block and its unretired packets. -/
def State.ctxPart (s : State) (c : Nat) : DumpPart :=
  ⟨4, 24 + s.hubOf c, 0xFF, if c < 768 then some (partOf c) else none, s.csbOf c ++ (s.ctx c).cmds.flatMap (·.packet)⟩

/-- Clasps `lo` to `hi` of a table with their taints, and the undo entries of a test's contexts. -/
def State.claspPart (s : State) (tab lo n : Nat) (mine : Nat → Bool) : DumpPart :=
  ⟨3, 24 + (if tab < 12 then tab else s.adminHub), 0xFF, if tab < 12 then some tab else none,
    (List.range n).flatMap (fun i => natLe 8 (s.claspVal tab (lo + i)) ++ [if s.claspTaint tab (lo + i) then 1 else 0]) ++
    ((kvGet [] s.undo tab).filter (fun u => mine u.ctx)).flatMap (fun u =>
      natLe 4 u.idx ++ natLe 2 u.ctx ++ natLe 4 u.cseq ++ natLe 8 (if u.isSet then u.prior else u.amount) ++
        natLe 1 (b2n u.isSet + 2 * b2n u.priorTaint + 4 * b2n u.observed))⟩

/-- A domain's error queue. -/
def State.errPart (s : State) (d : Nat) : DumpPart :=
  ⟨5, if d < 12 then 24 + d else 49, 0xFF, if d < 12 then some d else none,
    (s.dom d).queue.flatMap (fun r =>
      let w := errWords r.1 r.2
      natLe 8 w.1.toNat ++ natLe 8 w.2.1.toNat ++ natLe 8 w.2.2.toNat)⟩

/-- Unit keys of a partition's tiles. -/
def partUnits (p : Nat) : List Nat :=
  [2 * p, 2 * p + 1].flatMap (fun t =>
    (List.range 6).map (meUnit t) ++ (List.range 8).map (mvUnit t) ++ (List.range 32).map (hartUnit t))

/-- What level 2 captures of a partition (R581). -/
def State.partParts (s : State) (p : Nat) : List DumpPart :=
  (partUnits p).flatMap s.unitParts ++ [s.claspPart p 0 4096 (fun _ => true), s.errPart p] ++
    (List.range 64).map (fun k => s.ctxPart (64 * p + k)) ++
    [⟨6, 24 + p, 0xFF, some p, (s.holdsOf p).flatMap (fun h => h.used.flatMap (fun u => s.peek (jHdrA p u.2) 64))⟩]

/-- What a capture of a level names, in a domain, for its causing record (R581). -/
def State.captureParts (s : State) (d lvl : Nat) (r : ErrRec) : List DumpPart :=
  let unit := ((dieKey r.die r.unit).map s.unitParts).getD []
  match lvl with
  | 0 =>
    let c := r.ctx
    let tab := claspTab c
    let mine : List Byte → Bool := fun q => decide (dscCtx q = c)
    let qs := (partUnits (partOf c)).filterMap (fun k =>
      if k < 768 then
        let t := k / 32
        let e := (if k % 32 < 8 then (s.me t (k % 32)).cur.toList ++ (s.me t (k % 32)).queue
          else (s.mover t (k % 32 - 8)).cur.toList ++ (s.mover t (k % 32 - 8)).queue).filter mine
        if e.isEmpty then none else some (⟨2, k / 32, k % 32, some (partOf c), e.flatten⟩ : DumpPart)
      else none)
    let lo := s.cfg0 c phCtxcfg0ClaspLo
    [s.ctxPart c] ++ (if c < 768 then qs else []) ++ [s.claspPart tab lo (s.cfg0 c phCtxcfg0ClaspHi + 1 - lo) (fun x => decide (x = c))]
  | 1 => unit ++ (if d < 12 then [s.claspPart d 0 4096 (fun _ => true)] else []) ++ [s.errPart d]
  | 2 => if d < 12 then s.partParts d else unit ++ [s.errPart d]
  | _ =>
    (List.range 12).flatMap s.partParts ++
      (List.range 4).map (fun f => ⟨1, 36 + f, 0xFF, none, s.regDump (0x30200000000 + 0x1000000 * f) 0x1000000⟩) ++
      (List.range 2).map (fun t => ⟨1, 46 + t, 0xFF, none, s.regDump (0x30400000000 + 0x1000000 * t) 0x1000000⟩) ++
      (List.range 6).map (fun n => ⟨1, 40 + n, 0xFF, none, s.regDump (0x30300000000 + 0x100000 * n) 0x100000⟩) ++
      [⟨7, 49 + s.activeDie.getD 0, 0xFF, none, s.viewBytes imageRegs⟩]

/-- One part as it stands in the dump: unreadable, encrypted under the tenant's key, or plain (R482, R583). -/
def State.partBytes (s : State) (num idx : Nat) (bad : List Nat) (q : DumpPart) : List Byte :=
  let head : Nat → Nat → List Byte → List Byte := fun st len tag =>
    natLe 1 q.kind ++ natLe 1 q.die ++ natLe 1 q.unit ++ natLe 1 st ++ natLe 4 len ++ natLe 8 s.gtime ++ fitBytes 16 tag
  if bad.contains q.die then head 1 0 []
  else
    match q.part.bind (fun p => if s.confidential p then s.sessionFor p else none) with
    | some x =>
      let duo := gcmSeal (x.key (x.secrets.length - 1) (ascii "dump")) (natLe 4 num ++ natLe 4 idx ++ zeros 4) [] q.data
      let ct := duo.1
      let tag := duo.2
      head 2 ct.length tag ++ ct
    | none => head 0 q.data.length [] ++ q.data

/-- The bytes of a dump (R583). -/
def State.dumpBytes (s : State) (num d lvl code : Nat) (trunc raised : Bool) (since : Nat) (bad : List Nat) (ps : List DumpPart) :
    List Byte :=
  let head := natLe 4 0x504D5544 ++ natLe 2 1 ++ natLe 1 lvl ++ natLe 1 d ++ natLe 4 num ++ natLe 1 code ++
    natLe 1 (b2n trunc + 2 * b2n raised) ++ natLe 2 ps.length ++ natLe 8 since ++ natLe 8 Config.serial ++ natLe 8 s.bundle ++ zeros 24
  let body := head ++ ((List.range ps.length).zip ps).flatMap (fun q => s.partBytes num q.1 bad q.2)
  body ++ natLe 4 (crc32c body)

/-- A capture becomes a dump: the oldest of 16 is overwritten (R584). -/
def State.addDump (s : State) (d lvl code : Nat) (trunc raised : Bool) (since : Nat) (bad : List Nat) (ps : List DumpPart) : State :=
  let num := (s.fld hmDumpA hmDumpLast + 1) % 65536
  let full := decide (16 ≤ s.dumps.length)
  let body := s.dumpBytes num d lvl code trunc raised since bad ps
  let s1 : State := { s with dumps := (if full then s.dumps.drop 1 else s.dumps) ++ [⟨num, d, body⟩] }
  let s2 := (s1.setFld hmDumpA hmDumpLast num).addSat hmDumpA hmDumpUnreadable (ps.filter (fun q => bad.contains q.die)).length
  (if full then s2.addSat hmDumpA hmDumpOverwritten 1 else s2).trayRec 6 5 num

/-- The end of a level's capture: its dump, and the action may start (R581). -/
def State.endCapture (s : State) (d : Nat) (bad : List Nat) (trunc : Bool) : State :=
  let x := s.dom d
  let lvl := x.level.getD 0
  let old := (s.captures.find? (fun c => decide (c.dom = d))).getD ⟨d, s.gtime, []⟩
  let ps := s.captureParts d lvl x.cause
  let bad := if trunc then ps.map (·.die) else old.unreadable ++ bad
  let s1 := s.addDump d lvl x.cause.code trunc x.raised old.since bad ps
  ({ s1 with captures := s1.captures.filter (fun c => decide (c.dom ≠ d)) }).setDom d { x with acting := true, since := s.gtime }

/-- Bound of a level's capture in ticks (R559). -/
def captureBound (lvl : Nat) : Nat := if lvl ≤ 1 then 1000000 else if lvl = 2 then 10000000 else 100000000

/-- CAPTURE (R581 to R584): `unreadable` names the dies that did not answer (log entry 12). -/
def execCapture (now dom : Nat) (unreadable : List Nat) (s : State) : Host.Outcome State Fault Refusal :=
  .next (let s := s.advance now
    let x := s.dom dom
    if 26 ≤ dom ∨ !s.domOpen dom ∨ x.acting ∨ x.done ∨ 4 ≤ x.level.getD 4 ∨ !s.hasiaUp then s else s.endCapture dom unreadable false)

/-- CAPTURE_BOUND_EXPIRE (R559, R582): the captures that have reached their bounds. -/
def execCaptureBoundExpire (now : Nat) (s : State) : Host.Outcome State Fault Refusal :=
  .next (let s := s.advance now
    (s.captures.filter (fun c => decide (c.since + captureBound (((s.dom c.dom).level).getD 0) ≤ s.gtime))).foldl (fun s c =>
      s.endCapture c.dom [] true) s)

/-- SPINE_ACCESS_TIMEOUT (R582): the die of the capture in progress that began first. -/
def execSpineAccessTimeout (die : Nat) (s : State) : Host.Outcome State Fault Refusal :=
  .next (match s.captures with
    | [] => s
    | c :: cs => if 52 ≤ die then s else { s with captures := { c with unreadable := c.unreadable ++ [die] } :: cs })

/-- POWER_CYCLE_REQUEST (R579). -/
def execPowerCycleRequest (now dom : Nat) (s : State) : Host.Outcome State Fault Refusal :=
  .next (let s := s.advance now
    let x := s.dom dom
    if 26 ≤ dom ∨ x.level ≠ some 4 ∨ !x.acting ∨ !s.hasiaUp then s
    else ((s.setFld hmFltA hmFltPwrcycReq 1).trayRec 6 4 dom).setDom dom { x with acting := false })

/-! ### Bezel orders (R566 to R568) -/

/-- Whether a writer may order a bezel; `none` where a Hasia die without the latch wrote (R430, R588). -/
def State.bezelOrder (s : State) (p : Nat) (w : Writer) (f : State → Nat → State) : State :=
  if 12 ≤ p ∨ !s.domOn (72 + p) then s
  else
    match w with
    | .steward q => if q = p then f s 0 else s
    | .hasia d => if s.activeDie = some d then f s 1 else s.foreign
    | _ => s

/-- BEZEL_FENCE (R566, R567, R588). -/
def execBezelFence (p : Nat) (by_ : Writer) (s : State) : Host.Outcome State Fault Refusal :=
  .next (s.bezelOrder p by_ (fun s b => s.fenceBezel p b))

/-- BEZEL_OPEN (R568, R588). -/
def execBezelOpen (p : Nat) (by_ : Writer) (s : State) : Host.Outcome State Fault Refusal :=
  .next (s.bezelOrder p by_ (fun s _ => s.openBezel p))

end Sys2Proof.Machine
end

