-- ==== Sys2Proof/Machine/Resets.lean ====
section
/-!
DEFINITION. The actions of levels 0 to 2: context recovery resets, engine resets, partition resets with the mapping of R135, and what
an overrun, a power-domain fault or a failed die-to-die link does (R135 to R137, R427, R513, R537, R559 to R561, R569 to R574).
-/

namespace Sys2Proof.Machine

/-! ### Register blocks back at their Reset column (R11) -/

/-- Registers of a test at their reset words, with the fields of another test kept. -/
def State.resetRegs (s : State) (pick : Nat → Bool) (keep : RegField → Bool) : State :=
  { s with regs := s.regs.filterMap (fun e =>
      if pick e.1 then
        match regAt e.1 with
        | none => none
        | some (d, is) =>
          let w := d.fields.foldl (fun w f => if keep f then fset w f.fld (fget e.2 f.fld) else w) (resetWord d is)
          if w = resetWord d is then none else some (e.1, w)
      else some e) }

/-! ### The mapping of R135 to R137 -/

/-- The overlay as it stands in flash (R536). -/
def Flash.overlay (f : Flash) : List Word :=
  match f.pick with
  | some 0 => f.mcbA.overlay
  | some _ => f.mcbB.overlay
  | none => []

/-- Fills the vacant places of three with stand-ins, lowest first. -/
def fillThree (own spare : List Nat) : List (Option Nat) :=
  (List.range 3).map (fun i => if i < own.length then own[i]? else spare[i - own.length]?)

/-- The physical MEs of logical ME0 to ME5. -/
def mapMes (bad : Nat → Bool) : List (Option Nat) :=
  let a := (List.range 4).filter (fun m => !bad m)
  let b := ((List.range 4).map (· + 4)).filter (fun m => !bad m)
  fillThree (a.take 3) (b.drop 3) ++ fillThree (b.take 3) (a.drop 3)

/-- The physical pips of logical harts 0 to 31: cluster *c* has the physical pips 9*c* to 9*c* + 8. -/
def mapPips (bad : Nat → Bool) : List (Option Nat) :=
  let cl : Nat → List Nat := fun c => ((List.range 9).map (· + 9 * c)).filter (fun p => !bad p)
  let ninths := (List.range 4).flatMap (fun c => (cl c).drop 8)
  ((List.range 4).foldl (fun (r : List (Option Nat) × List Nat) c =>
    let own := (cl c).take 8
    let more := r.2.take (8 - own.length)
    (r.1 ++ (List.range 8).map (fun i => if i < own.length then own[i]? else more[i - own.length]?), r.2.drop (8 - own.length)))
    ([], ninths)).1

/-- A mask of the places of a list that are vacant. -/
def vacant (l : List (Option Nat)) : Nat :=
  sumNat (((List.range l.length).zip l).map (fun x => if x.2.isNone then 2 ^ x.1 else 0))

/-- Whether a tile has more failed banks than spare banks, or more failed rows in a bank than spare rows (R137): 2 spare banks, and
128 spare rows in each. -/
def storeFailed (es : List Word) (t : Nat) : Bool :=
  let mine : Nat → List Nat := fun k =>
    ((es.map (·.toNat)).filter (fun w => decide (bits w 0 8 = k ∧ bits w 8 8 = t))).map (fun w => bits w 16 32) |>.eraseDups
  decide (2 < ((mine 3).map (fun u => u % 65536)).eraseDups.length) ||
    (List.range 42).any (fun b => decide (128 < ((mine 4).filter (fun u => decide (u % 65536 = b))).length))

/-- Maps a tile's logical units (R135, R137). -/
def State.mapTile (s : State) (t : Nat) : State :=
  let es := s.flash.overlay
  let mes := mapMes (fusedOut es 1 t)
  let pips := mapPips (fusedOut es 2 t)
  let nMe := (mes.filter (·.isSome)).length
  let nPip := (pips.filter (·.isSome)).length
  let deg := decide (nMe < 6) || decide (nPip < 32)
  let memap := sumNat (((List.range 6).zip mes).map (fun x => x.2.getD 0 * 2 ^ (3 * x.1)))
  let s1 : State := { s with meAbsent := kvSet 0 s.meAbsent t (vacant mes), pipAbsent := kvSet 0 s.pipAbsent t (vacant pips) }
  let a := ctCapA t
  let s2 := ((s1.setFld a ctCapMeCount nMe).setFld a ctCapPipCount nPip).setFld a ctCapMemap memap
  let s3 := ((s2.setFld a ctCapDegraded (b2n deg)).setFld a ctCapFailed (b2n (storeFailed es t))).level (32 * (24 + t) + 29) deg
  ((List.range 32).zip pips).foldl (fun s x => s.setFld (pipStatA t x.1) pipStatPhys (x.2.getD 0)) s3

/-! ### Ending the commands that a reset cancels (R561) -/

/-- A started command that a unit's reset cancels: it retires in its place. -/
def State.cancelCmd (s : State) (st : Status) (q : Nat × Nat) : State :=
  match (s.ctx q.1).cmd q.2 with
  | some c => if c.stage = .started then (s.stopCmd q.1 c).finish q.1 q.2 st (mkDetail 0xFF 8) 0 else s
  | none => s

/-- The started commands among some. -/
def State.startedOf (s : State) (qs : List (Nat × Nat)) : List (Nat × Nat) :=
  (qs.filter (fun q => ((s.ctx q.1).cmd q.2).any (fun c => decide (c.stage = .started)))).eraseDups

/-- The units that an ME's group reset stops. -/
def State.groupOf (s : State) (t m : Nat) : List Nat := s.grpMes t (s.mePhys t m / 4)

/-- The commands whose descriptors, groups or chunks the reset of a unit cancels (R561). -/
def State.unitCmds (s : State) (key : Nat) : List (Nat × Nat) :=
  let held : Nat → List (Nat × Nat) := fun k => ((s.decHolds k).map (fun x => (x.1, x.2.cseq))).toList
  if key < 768 then
    let t := key / 32
    let k := key % 32
    if k < 8 then
      s.startedOf ((s.groupOf t k).flatMap (fun m =>
        (((s.me t m).cur.toList ++ (s.me t m).queue).map (fun d => (dscCtx d, dscCseq d))) ++ held (meUnit t m)))
    else s.startedOf ((((s.mover t (k - 8)).cur.toList ++ (s.mover t (k - 8)).queue).map (fun d => (dscCtx d, dscCseq d))) ++ held key)
  else if key < 2048 then s.startedOf ((s.hart ((key - 1024) / 32) (key % 32)).job).toList
  else if key < 2304 then []
  else
    let f := (key - 2304) / 2
    let hit := (s.folds.filter (fun x => decide (x.chunk % 4 = f ∧ x.chunk / 4 % 2 = key % 2))).map (fun x => (x.entry, x.coll))
    s.startedOf ((s.colls.filter (fun k => hit.contains (k.entry, k.coll))).flatMap (fun k => k.members.map (fun m => (m.ctx, m.cseq))))

/-- The reset of one unit that completes within its bound (R138 to R141, R202, R561). -/
def State.unitReset (s : State) (key : Nat) : State :=
  if key < 768 then
    let t := key / 32
    let k := key % 32
    if k < 8 then s.grpFlush t (s.mePhys t k / 4) else s.mvFlush t (k - 8)
  else if key < 2048 then s.hartReset ((key - 1024) / 32) (key % 32)
  else if key < 2304 then s.pressRequeue ((key - 2048) / 16) (key % 16)
  else { s with folds := s.folds.filter (fun x => !decide (x.chunk % 4 = (key - 2304) / 2 ∧ x.chunk / 4 % 2 = key % 2)) }

/-- The action of level 1 on a unit: it is reset, and the commands that this cancels retire (R561). -/
def State.levelOne (s : State) (d key : Nat) (st : Status) : State :=
  let qs := s.unitCmds key
  let s1 := (qs.foldl (State.cancelCmd · st) (s.unitReset key)).escCount d hmEscL1Count
  let x := s1.dom d
  (s1.setDom d { x with ends := x.ends ++ qs }).progress key

/-- Whether an ME or mover of a partition executes a descriptor of a context (R560). -/
def State.unitsWork (s : State) (ctx : Nat) : Bool :=
  ctx < 768 && (partUnits (partOf ctx)).any (fun k =>
    decide (k < 1024) && (if k % 32 < 8 then (s.me (k / 32) (k % 32)).cur else (s.mover (k / 32) (k % 32 - 8)).cur).any
      (fun d => decide (dscCtx d = ctx)))

/-- The action of the present level has completed. -/
def State.actDone (s : State) (d : Nat) : State := s.setDom d { s.dom d with done := true }

/-- Whether the action of a level may run in a domain for a cause: its capture is over (R558, R581). -/
def State.mayAct (s : State) (d lvl cause : Nat) : Bool :=
  let x := s.dom d
  decide (x.level = some lvl) && s.domOpen d && x.acting && !x.done && decide (x.cause.code = cause)

/-! ### Level 0 (R560) -/

/-- Removes the queued descriptors of a context and resets the harts that hold its rights. -/
def State.stopCtxUnits (s : State) (ctx : Nat) : State :=
  if 768 ≤ ctx then s
  else
    let keep : List (List Byte) → List (List Byte) := fun q => q.filter (fun d => decide (dscCtx d ≠ ctx))
    let s1 := ((partUnits (partOf ctx)).filter (· < 768)).foldl (fun s k =>
      let t := k / 32
      let n := k % 32
      if n < 8 then (s.setMe t n { s.me t n with queue := keep (s.me t n).queue }).landMe t n
      else (s.setMover t (n - 8) { s.mover t (n - 8) with queue := keep (s.mover t (n - 8)).queue }).landMv t (n - 8)) s
    (partHarts (partOf ctx)).foldl (fun s th =>
      if s.fld (pipCtlA th.1 th.2) pipCtlCtx = ctx then s.hartReset th.1 th.2 else s) s1

/-- CONTEXT_RECOVERY_RESET (R560): while a descriptor of the context executes, the action waits for it. -/
def execContextRecoveryReset (now ctx cause : Nat) (s : State) : Host.Outcome State Fault Refusal :=
  .next (let s := s.advance now
    let d := s.hubOf ctx
    if 800 ≤ ctx ∨ !s.mayAct d 0 cause ∨ (s.dom d).cause.ctx ≠ ctx then s
    else
      let s1 := s.stopCtxUnits ctx
      if s1.unitsWork ctx then s1 else (s1.discard [ctx] (causeStatus cause) noDetail true).actDone d)

/-! ### Level 1 (R561) -/

/-- ENGINE_RESET (R561): the unit of the causing record or, where the level was raised, any unit of the domain; after an overrun of
level 0 each unit that still works for the context, whose commands are then discarded. -/
def execEngineReset (now dom unit cause : Nat) (s : State) : Host.Outcome State Fault Refusal :=
  .next (let s := s.advance now
    let x := s.dom dom
    if 26 ≤ dom ∨ 4096 ≤ unit ∨ !keyValid unit ∨ s.keyDomain unit ≠ dom ∨ !s.mayAct dom 1 cause ∨
        (!x.raised ∧ dieKey x.cause.die x.cause.unit ≠ some unit) then s
    else
      let s1 := s.levelOne dom unit (causeStatus cause)
      if cause = 0x30 ∧ x.cause.ctx < 800 then
        if s1.unitsWork x.cause.ctx then s1 else (s1.discard [x.cause.ctx] .timeout noDetail true).actDone dom
      else s1.actDone dom)

/-! ### Partition reset (R569 to R573) -/

/-- The partition's registers of its two tiles back at their Reset column, with what is configured in them kept (R25, R586). -/
def State.resetTiles (s : State) (p : Nat) : State :=
  let lo := 0x30000000000 + 0x2000000 * p
  let s1 := s.resetRegs (fun a => decide (lo ≤ a) && decide (a < lo + 0x2000000)) (fun f => f.mcb)
  let s2 := [2 * p, 2 * p + 1].foldl (fun (s : State) t => { s with mvOwnPend := kvSet 0 s.mvOwnPend t 0 }) s1
  (partHarts p).foldl (fun s th =>
    let s' := s.setHart th.1 th.2 Hart.init
    let s' := if th.2 < 6 then s'.setMe th.1 th.2 Me.init else s'
    if th.2 < 8 then s'.setMover th.1 th.2 Mover.init else s') s2

/-- Press groups of a partition leave the queues, and the records of running ones are discarded (R569). -/
def State.dropGroups (s : State) (p : Nat) : State :=
  { s with
    pressQ := kvSet [] (kvSet [] s.pressQ p []) (16 + p) [],
    presses := (s.presses.map (fun e => (e.1, if e.2.group.any (fun g => decide (g.part = p)) then { e.2 with group := none } else e.2))).filter
      (fun e => decide (e.2 ≠ Press.init)) }

/-- A power cycle of a tile's store domain within a partition reset (R573). -/
def State.cycleTile (s : State) (p t : Nat) : State :=
  ((s.loseTile t).setFld (phPrstA p) phPrstTsLost 1).trayRec 6 6 t

/-- Why a partition leaves service, as WHY shows it, 0 for not (R570). -/
def State.whyOut (s : State) (p : Nat) : Nat :=
  b2n (decide (s.fld (phRetrainA p) phRetrainPcFailed ≠ 0)) +
    2 * b2n (s.flag (ctCapA (2 * p)) ctCapFailed || s.flag (ctCapA (2 * p + 1)) ctCapFailed) +
    4 * b2n (s.boot.lost.1.testBit p) + 8 * b2n (s.boot.lost.2.testBit p)

/-- The out-of-service check (R522, R570). -/
def State.serviceCheck (s : State) (p : Nat) : State :=
  let w := s.whyOut p
  let a := phPrstA p
  let s1 := s.setFld a phPrstWhy w
  if w = 0 then s1
  else
    let s2 := (s1.setFld a phPrstOutOfService 1).setFld hmBootA hmBootPartOk (setBits (s1.fld hmBootA hmBootPartOk) p 1 0)
    (if s2.tilesOn p then s2.tilesOff p else s2).trayRec 6 3 p

/-- Steps 4 to 7 of R569: units, contexts, clasps, mapping and journal. -/
def State.partCore (s : State) (p : Nat) (st : Status) : State :=
  let s1 := ((if s.tilesOn p then s.flushTiles p else s).dropGroups p).resetTiles p
  let s2 := if s1.confidential p then s1.addWrap (phXtsA p) phXtsKeyLoads 1 else s1
  let s3 := [2 * p, 2 * p + 1].foldl (fun s t => s.mapTile t) s2
  let s4 := (s3.evPartReset p).discard ((List.range 64).map (· + 64 * p)) st noDetail false
  let s5 := if s4.domOn (72 + p) then s4.jStart p else s4
  { s5 with
    undo := kvSet [] s5.undo p [], bezels := kvSet ⟨false, false⟩ s5.bezels p ⟨false, false⟩,
    wdog := kvSet 0 (kvSet 0 s5.wdog (2 * p) s5.gtime) (2 * p + 1) s5.gtime }

/-- The slices of which a partition is a member. -/
def State.slicesOf (s : State) (p : Nat) : List Nat :=
  (List.range 64).filter (fun i => decide (s.fld (fdSlicedirA i) fdSlicedirSlice ≠ 0) && (s.fld (fdSlicedirA i) fdSlicedirPartmask).testBit p)

/-- Steps 2 to 8 of a partition reset. -/
def State.partReset (s : State) (p : Nat) (st : Status) (cycle : Option Nat) : State :=
  let s1 := s.fenceBezel p 3
  let s2 := (s1.slicesOf p).foldl (fun s i => s.abortLocal i 11 15 none) s1
  let s3 := match cycle with
    | some t => s2.cycleTile p t
    | none => s2
  let s4 := (s3.partCore p st).serviceCheck p
  let duo := s4.drawNat
  let time := duo.1
  let s5 := duo.2
  let s6 := ((s5.setFld (phPrstA p) phPrstLastTime (time % 65536)).addSat (phPrstA p) phPrstCount 1).escCount p hmEscL2Count
  (if s6.outOfService p then s6 else s6.openBezel p).trayRec 6 1 p

/-- PARTITION_RESET (R569): cause 0 is an order of steward firmware or Hasia, whose capture the row makes itself. -/
def execPartitionReset (now p cause : Nat) (s : State) : Host.Outcome State Fault Refusal :=
  .next (let s := s.advance now
    if 12 ≤ p ∨ (cause = 0 ∧ !s.domOn (72 + p)) then s
    else if cause = 0 then
      let r : ErrRec := ⟨0, 2, 24 + p, 0xFF, 0x3FF, 0, 0⟩
      let s1 := if s.hasiaUp then s.addDump p 2 0 false false s.gtime [] (s.captureParts p 2 r) else s.addSat hmDumpA hmDumpSkipped 1
      s1.partReset p .abortedFence none
    else if !s.mayAct p 2 cause then s
    else
      let r := (s.dom p).cause
      let cycle := if r.code = 0x30 ∧ r.die / 2 = p ∧ r.die < 24 then some r.die else none
      (s.partReset p (causeStatus cause) cycle).actDone p)

/-! ### Overruns (R559, R561) -/

/-- Bound of a level's action in ticks; R561 gives none for a reduction unit (log entry 35). -/
def Domain.bound (x : Domain) : Nat :=
  match x.level with
  | some 0 => 2000000
  | some 1 =>
    match dieKey x.cause.die x.cause.unit with
    | some k => if k < 768 then (if k % 32 < 8 then 2000000 else 200000) else if k < 2048 then 100000 else if k < 2304 then 500000 else 0
    | none => 0
  | some 2 => 50000000
  | _ => 10000000

/-- A press engine is fenced off (R202). -/
def State.pressFence (s : State) (die e : Nat) : State :=
  let a := tdPecapA die
  let s1 := s.pressRequeue die e
  let s2 := (s1.setFld a tdPecapFailed (s1.fld a tdPecapFailed ||| 2 ^ e)).setFld a tdPecapCount (s1.fld a tdPecapCount - 1)
  (s2.setPress die e Press.init).raise (32 * (85 + die) + 3)

/-- The overrun of a unit's reset by the kind of unit: ME group, press engine or reduction unit (R561). -/
def State.unitOverrun (s : State) (d key : Nat) : State :=
  let s1 := s.levelOne d key .timeout
  if key < 768 then
    let t := key / 32
    let g := s.mePhys t (key % 32) / 4
    ((s1.setFld (ctRstA t) (grpBusy g) 0).setFld (ctRstA t) (grpCyc g) 1).overlayAdd (fuseEntry 1 t (s.mePhys t (key % 32)) 0 2)
  else if key < 2304 then
    let die := (key - 2048) / 16
    (s1.pressFence die (key % 16)).overlayAdd (fuseEntry 7 (46 + die) (key % 16) 0 2)
  else
    let f := (key - 2304) / 2
    let hit := (s.colls.map (·.entry)).eraseDups
    (hit.foldl (fun s i => s.abortLocal i 13 15 none) s1).overlayAdd (fuseEntry 8 (36 + f) (key % 2) 0 2)

/-- ACTION_OVERRUN (R559, R561). -/
def execActionOverrun (now dom : Nat) (s : State) : Host.Outcome State Fault Refusal :=
  .next (let s := s.advance now
    let x := s.dom dom
    let r := x.cause
    if 26 ≤ dom ∨ !s.domOpen dom ∨ !x.acting ∨ x.done ∨ s.gtime < x.since + x.bound then s
    else
      match x.level with
      | some 0 => s.addRecord dom ⟨0x30, 1, r.die, r.unit, r.ctx, r.cseq, 0⟩
      | some 1 =>
        match dieKey r.die r.unit with
        | none => s.addRecord dom ⟨0x30, 2, r.die, r.unit, r.ctx, r.cseq, 0⟩
        | some k =>
          if k < 2048 ∧ ¬(k < 768 ∧ k % 32 < 8) then s.addRecord dom ⟨0x30, 2, r.die, r.unit, r.ctx, r.cseq, 0⟩
          else ((s.queueRec dom ⟨0x30, 1, r.die, r.unit, r.ctx, r.cseq, 0⟩).1.unitOverrun dom k).actDone dom
      | some 2 => s.addRecord dom ⟨0x30, 3, 24 + dom % 12, 0xFF, 0x3FF, 0, 0⟩
      | some 3 => s.addRecord dom ⟨0x30, 4, r.die, 0xFF, 0x3FF, 0, 0⟩
      | _ => s)

/-! ### Power domains and die-to-die links (R427, R537) -/

/-- A domain's switch opened. -/
def State.switchOff (s : State) (d : Nat) : State := { s with domains := kvSet false s.domains d false }

/-- MEMVALID cleared (R517). -/
def State.memInvalid (s : State) : State := ({ s with boot := { s.boot with memvalid := false } }).setFld hmBootA hmBootMemvalid 0

/-- POWER_DOMAIN_FAULT (R427, R565): the domain is switched off and its record queued; a link die takes its link down. -/
def execPowerDomainFault (now dom : Nat) (s : State) : Host.Outcome State Fault Refusal :=
  .next (let s := s.advance now
    if 100 ≤ dom ∨ !s.domOn dom then s
    else
      let s1 := s.switchOff dom
      let rec_ : Nat → Nat → Nat → Nat → ErrRec := fun code lvl die unit => ⟨code, lvl, die, unit, 0x3FF, 0, 0⟩
      if dom < 72 then
        let t := dom / 3
        let p := t / 2
        let s2 := if dom % 3 < 2 then s1.grpFlush t (dom % 3)
          else ((s.flushTiles p).switchOff dom).cycleTile p t
        s2.addRecord p (rec_ 0x22 2 t (dom % 3))
      else if dom < 84 then
        let p := dom - 72
        let s2 := ({ s1 with mem := kvClear s1.mem (hbmBase p) 0xC00000000, cwErr := kvClear s1.cwErr (hbmBase p / 64) (0xC00000000 / 64) }).memInvalid
        s2.addRecord p (rec_ 0x22 2 (24 + p) 0xFF)
      else if dom < 88 then s1.addRecord (12 + (dom - 84)) (rec_ 0x23 4 (36 + (dom - 84)) 0xFF)
      else if dom < 94 then
        if s.linkHolds (dom - 88) then s1.linkFail (dom - 88) 3 4 else s1
      else if dom < 96 then s1.memInvalid.addRecord (16 + (dom - 94)) (rec_ 0x23 4 (46 + (dom - 94)) 0xFF)
      else if dom < 98 then s1.addRecord 24 (rec_ 0x24 0 48 0xFF)
      else s1.setHasia (dom - 98) { s1.hasia (dom - 98) with st := 6 })

/-- What a die-to-die link joins, by a die and its port (R20; log entry 36). -/
inductive DieLink where
  /-- A tile to its hub, or a hub to its fabric die. -/
  | part (p : Nat) (die : Nat) (port : Nat)
  /-- Between fabric dies, or a tier die or the host die to FD3: the domain concerned. -/
  | fabric (dom : Nat)
  /-- A link die to its fabric die. -/
  | optics (n : Nat)
  /-- A Hasia die to FD3. -/
  | hasia (d : Nat)
  deriving DecidableEq, Repr

/-- The link at a die's port: a tile, link, tier, host or Hasia die has port 0; a hub has its tiles at ports 0 and 1 and its fabric die
at port 2; a fabric die has its hubs at ports 0 to 2, the other fabric dies at 3 to 5, and its other dies from 6 on. -/
def dieLink (die port : Nat) : Option DieLink :=
  if die < 24 then (if port = 0 then some (.part (die / 2) (24 + die / 2) (die % 2)) else none)
  else if die < 36 then (if port < 3 then some (.part (die - 24) die port) else none)
  else if die < 40 then
    let f := die - 36
    if port < 3 then some (.part (3 * f + port) (24 + 3 * f + port) 2)
    else if port < 6 then some (.fabric (12 + f))
    else if f < 3 then (if port < 8 then some (.optics (2 * f + (port - 6))) else none)
    else if port = 6 then some (.fabric 24)
    else if port < 9 then some (.fabric (16 + (port - 7)))
    else if port < 11 then some (.hasia (port - 9)) else none
  else if port ≠ 0 then none
  else if die < 46 then some (.optics (die - 40))
  else if die < 48 then some (.fabric (16 + (die - 46)))
  else if die = 48 then some (.fabric 24)
  else if die < 51 then some (.hasia (die - 49)) else none

/-- UCIE_LANE_REPAIR (R537, R565, R572): a repaired lane loses nothing; a link without a full set of good lanes fails. -/
def execUcieLaneRepair (die port : Nat) (ok : Bool) (s : State) : Host.Outcome State Fault Refusal :=
  .next (
    if ok then s
    else
      match dieLink die port with
      | none => s
      | some (.part p d k) =>
        if !s.domOn (72 + p) then s
        else ((s.slicesOf p).foldl (fun s i => s.abortLocal i 14 15 none) s).addRecord p ⟨0x20, 2, d, k, 0x3FF, 0, 0⟩
      | some (.fabric d) =>
        if !s.hasiaUp then s
        else ((List.range 64).foldl (fun s i => s.abortLocal i 14 15 none) s).addRecord d ⟨0x21, 3, die, port, 0x3FF, 0, 0⟩
      | some (.optics n) => if s.linkHolds n then s.linkFail n 3 4 else s
      | some (.hasia d) => if (s.hasia d).st = 0 then s else s.setHasia d { s.hasia d with st := 6 })

end Sys2Proof.Machine
end

