-- ==== Sys2Proof/Machine/Boot.lean ====
section
/-!
DEFINITION. Starts of the module: power off, the cold start, the module reset with the warm start that follows it, and the commands
that act on a start in progress (R395 to R397, R460 to R475, R516 to R532, R577, R578, R613 to R622).
-/

namespace Sys2Proof.Machine

/-! ### Everything off (R397, R423, R475, R614) -/

/-- The module with its 100 switched domains off. What remains: the flash, Locket's fuses and non-volatile counters, the levels of the
input pins, a latched trip and the latches of the board. -/
def State.offState (s : State) : State :=
  let keep : List Nat := [hmSidebandA, lkSigstateA, lkBootcntA] ++ (List.range 6).map lkSvnA
  let life := fset (fset (fset 0 lkStateLifecycle (s.fld lkStateA lkStateLifecycle)) lkStateSigLow (s.fld lkStateA lkStateSigLow))
    lkStateSigOut (s.fld lkStateA lkStateSigOut)
  let mp := s.modPower
  let s1 : State := { State.reset with
    gtime := s.gtime, regs := s.regs.filter (fun e => keep.contains e.1), flash := s.flash, free := s.free, resp := s.resp,
    pending := s.pending,
    modPower := { ModPower.init with inputMv := mp.inputMv, uvMv := mp.uvMv, pwrlim := mp.pwrlim, trip := mp.trip },
    locket := { Locket.init with leafBad := s.locket.leafBad },
    boot := { Boot.init with stopped := s.boot.stopped, lowAt := s.boot.lowAt },
    pins := { s.pins with pwrGood := false, alert := false, traySync := false, lasers := false } }
  let s2 := (s1.setReg lkStateA life).setFld hmSidebandA hmSidebandAlertN 1
  (List.range 6).foldl (fun s i => s.setFld (lkSvnA i) lkSvnRunsvn 0) (s2.setFld hmSidebandA hmSidebandRefSpread 0)

/-! ### Images (R462 to R466, R470) -/

/-- Whether the start in progress meets an outcome. The numbers are the model's own (log entry 11): 1, 2 HM-A, HM-B fail step 2; 10 + p a
link of a tile of p to its hub fails; 30, 31, 32 a link between fabric dies, of a tier die, of the host die; 33, 34 of HM-A, HM-B; 40 + n
of link die n; 70 the tier's confirmation fails; 110 + p the link of hub p to its fabric die; 300 + 10 × bank + TYPE an image fails its
check in a bank; 420 the bundle carries no patch table; 500 + die a hub or tier die does not confirm self-refresh; 1,000 + 32 × memory
die + unit a pseudo-channel or channel fails; 100,000 + 1,000 × die + 100 × KIND + unit a unit fails its assay. -/
def State.bootFail (s : State) (n : Nat) : Bool := s.boot.fails.contains n

/-- Whether Locket refuses the image of a type in a bank (R463). -/
def State.imageBad (s : State) (bank ty : Nat) : Bool :=
  let b := s.flash.banks.getD bank (0, false)
  !b.2 || s.bootFail (300 + 10 * bank + ty) || decide (Config.imageSvn b.1 ty < s.fld (lkSvnA ty) lkSvnMinsvn)

/-- Whether the image of a type in the bank booted is refused. -/
def State.refused (s : State) (ty : Nat) : Bool := s.imageBad (s.fld lkStateA lkStateBank) ty

/-- The bank whose manifest and Hasia image pass: the next one to boot, else the other (R463). -/
def State.bootBank (s : State) : Option Nat :=
  let ok : Nat → Bool := fun b => !s.imageBad b 0 && !s.imageBad b 1
  let n := s.flash.next % 2
  if ok n then some n else if ok (1 - n) then some (1 - n) else none

/-- The header DIGEST of a running image. -/
def State.digest (s : State) (ty : Nat) : List Byte := (List.range 32).map (Config.imageDigest s.bundle ty)

/-- An image that is not refused is extended into its hallmark before its die leaves reset (R464, R470); a refused one is reported
(R463). -/
def State.verifyImage (s : State) (ty : Nat) : State :=
  if s.refused ty then (s.trayRec 6 0x10 ty).raise (32 * 93 + 9) else s.extendHallmark (ty + 2) (s.digest ty)

/-! ### Steps 3 to 6 (R519, R522) -/

/-- A partition's tile domains come on (R395, R402, R622). -/
def State.tilesUp (s : State) (p : Nat) : State :=
  let s1 : State := { s with
    domains := (List.range 6).foldl (fun m i => kvSet false m (6 * p + i) true) s.domains,
    modPower := { s.modPower with lastOn := s.gtime + 1 } }
  (s1.setPwr p { s1.pwr p with fresh := true, level := 0, descend := false }).setFld (phPwrcapA p) phPwrcapTilesOn 1

/-- Domains 96 and 97 come on. -/
def State.hostDieOn (s : State) : State := { s with domains := kvSet false (kvSet false s.domains 96 true) 97 true }

/-- Step 3: the power-domain ramp (R519). -/
def State.bootPower (s : State) (warm : Bool) : State :=
  let groups : List Nat := (List.range 4).map (· + 84) ++ (List.range 12).map (· + 72) ++ [94, 95] ++ (List.range 6).map (· + 88)
  let s1 : State := { s with
    domains := groups.foldl (fun m d => kvSet false m d true) s.domains, pins := { s.pins with lasers := true } }
  let s2 := (List.range 12).foldl (fun s p => if s.onRule p then s.tilesUp p else s) s1
  let s3 := (List.range 12).foldl (fun s p => s.setPwr p { s.pwr p with keep := s.gtime, safe := false }) s2
  -- A warm start leaves the host die as it is (R578).
  (if s3.flag hmRackordA hmRackordHdOn ∧ !warm then s3.hostDieOn else s3).emergLine

/-- The cause of NOT_READY found so far: the smallest (R532; log entry 37). -/
def State.notReady (s : State) (cause : Nat) : State :=
  let c := s.boot.result.2
  { s with boot := { s.boot with result := (3, if c = 0 then cause else min c cause) } }

/-- The hub that ADMIN_HUB names does not serve (R522, R571). -/
def State.noAdmin (s : State) : State := ({ s with boot := { s.boot with adminLost := true } }).notReady 4

/-- Step 4: the die-to-die links (R522). -/
def State.bootLinks (s : State) : State :=
  let s1 := (List.range 12).foldl (fun s p =>
    let s1 : State := if s.bootFail (10 + p) ∨ s.bootFail (110 + p) then
        { s with boot := { s.boot with lost := (s.boot.lost.1 ||| 2 ^ p, s.boot.lost.2) } }
      else s
    if s.bootFail (110 + p) ∧ p = s.adminHub then s1.noAdmin else s1) s
  let s2 := [30, 31, 32].foldl (fun s n => if s.bootFail n then s.notReady (n - 29) else s) s1
  let s3 := [0, 1].foldl (fun s d =>
    if s.bootFail (33 + d) then
      let s' := if s.activeDie = some d ∧ (s.hasia (otherDie d)).st = 3 then s.handover else s
      s'.setHasia d { s'.hasia d with st := 5 }
    else s) s2
  (List.range 6).foldl (fun s n => if s.bootFail (40 + n) then s.linkFail n 3 4 else s) s3

/-- Step 4: steward and pip-library images (R463, R519). -/
def State.bootImages (s : State) : State :=
  let s1 := (s.verifyImage 2).verifyImage 3
  let s2 : State := if s.refused 2 then
      { s1 with domains := (List.range 12).foldl (fun m p => kvSet false m (72 + p) false) s1.domains } |> State.noAdmin
    else s1
  if s.refused 3 then (List.range 12).foldl (fun s p => if s.tilesOn p then s.tilesOff p else s) s2 else s2

/-- Steps 5 to 8: memory units that fail their training, test or initialisation (R522, R526, R527). -/
def State.bootUnits (s : State) : State :=
  let mask : Nat → Nat → Nat := fun d n => sumNat ((List.range n).map (fun u => if s.bootFail (1000 + 32 * d + u) then 2 ^ u else 0))
  let s1 := (List.range 12).foldl (fun s p => s.setFld (phRetrainA p) phRetrainPcFailed (mask p 32)) s
  [0, 1].foldl (fun s i =>
    let m := mask (12 + i) 32
    let s' := s.setFld (tdRetrainA i) tdRetrainChFailed m
    if m ≠ 0 then s'.notReady 2 else s') s1

/-! ### Steps 7 and 8 (R517, R518, R523 to R527, R540) -/

/-- Whether step 7 runs the quick test (R525). -/
def State.quickTest (s : State) : Bool :=
  s.flag hmBootcfgA hmBootcfgMemtest && !s.flag hmMcbstatA hmMcbstatDefaultsInUse && !s.flag hmBootcfgA hmBootcfgForceFullNext &&
    !s.boot.step8

/-- Step 7: the test, with the marks it leaves in the MCB. -/
def State.memTest (s : State) : State :=
  let s1 := s.setFld hmBootA hmBootQuick (b2n s.quickTest)
  let s2 := (({ s1 with boot := { s1.boot with step8 := true } }).oweMcb).writeMcb true true
  if s2.flag hmBootcfgA hmBootcfgForceFullNext then ((s2.setFld hmBootcfgA hmBootcfgForceFullNext 0).oweMcb).writeMcb true true else s2

/-- Step 8: every codeword of HBM and of the tier is zero with correct check bytes. -/
def State.memInit (s : State) : State :=
  let s1 : State := { s with
    mem := kvClear s.mem 0 0x20000000000, cwErr := kvClear s.cwErr 0 0x800000000,
    boot := { s.boot with step8 := false, memvalid := true } }
  let s2 := (((s1.setFld hmBootA hmBootMemvalid 1).oweMcb).writeMcb true true)
  if s2.bootFail 70 then s2.notReady 6 else s2

/-- The superblocks of a cold start (R518). -/
def State.newSupers (s : State) : State :=
  let b := jSuper 1 (s.fld lkBootcntA lkBootcntBoots)
  (List.range 12).foldl (fun s p =>
    let s1 := (s.put (journalBase p) b).put (journalBase p + 4096) b
    { s1 with jgen := kvSet 1 s1.jgen p 1 }) s

/-- Steps 7 and 8, where they run. -/
def State.bootMemory (s : State) (warm : Bool) : State :=
  if warm ∧ s.boot.memvalid then s
  else
    let s1 := s.memTest.memInit
    if warm then s1 else s1.newSupers

/-! ### Step 9 (R519, R470, R621) -/

/-- The host-die boot image, and the host die's release; a refused image leaves it in reset. -/
def State.bootHost (s : State) : State :=
  if !s.flag hmRackordA hmRackordHdOn then s
  else
    let s1 := s.verifyImage 4
    if s1.refused 4 then s1.hostDieOff else s1

/-! ### Step 10 (R530) -/

/-- The soft-fuse entries of the units of one die and kind that fail the assay. -/
def State.assayUnits (s : State) (die kind n : Nat) : State :=
  (List.range n).foldl (fun s u =>
    if s.bootFail (100000 + 1000 * die + 100 * kind + u) ∧ !fusedOut s.overlay kind die u then s.overlayAdd (fuseEntry kind die u 0 1)
    else s) s

/-- The assay of a partition's tiles. -/
def State.assayPart (s : State) (p : Nat) : State :=
  [2 * p, 2 * p + 1].foldl (fun s t => (s.assayUnits t 1 8).assayUnits t 2 36) s

/-- Whether the assay is selected (R528). -/
def State.assayOn (s : State) : Bool := (s.fld hmBootcfgA hmBootcfgChecks).testBit 1

/-- Content of the tile stores after the assay of a warm start is unspecified (R530; log entry 2). -/
def State.clearStores (s : State) (p : Nat) : State :=
  [2 * p, 2 * p + 1].foldl (fun s t =>
    { s with mem := kvClear s.mem (tileBase t) 0xA000000, tsBad := kvClear s.tsBad (tileBase t / 8) 0x1400000,
             tsLost := kvSet false s.tsLost t false }) s

/-- TILE_ASSAY_PEND shows whether a partition's assay waits (R622). -/
def State.pendAssay (s : State) (m : Nat) : State :=
  ({ s with boot := { s.boot with assayPend := m } }).setFld hmSeqctlA hmSeqctlTileAssayPend (b2n (decide (m ≠ 0)))

/-- Step 10. -/
def State.bootAssay (s : State) (warm : Bool) : State :=
  if !s.assayOn then s
  else
    let s1 := (List.range 12).foldl (fun s p =>
      if s.tilesOn p then (if warm then s.clearStores p else s).assayPart p else s) s
    let s2 := s1.pendAssay (partMask (fun p => !s1.tilesOn p))
    let s3 := [46, 47].foldl (fun s d => s.assayUnits d 7 16) s2
    let s4 := (List.range 4).foldl (fun s f => s.assayUnits (36 + f) 8 2) s3
    if (List.range 4).any (fun f => fusedOut s4.overlay 8 (36 + f) 0 && fusedOut s4.overlay 8 (36 + f) 1) then s4.notReady 5 else s4

/-! ### Step 11 (R135, R513, R519, R536) -/

/-- Press engines in service: those that no overlay entry takes out (R536). -/
def State.mapPress (s : State) : State :=
  [0, 1].foldl (fun s i =>
    let ok := (List.range 16).filter (fun e => !fusedOut s.overlay 7 (46 + i) e)
    let s1 := (s.setFld (tdPecapA i) tdPecapEnabled (sumNat (ok.map (2 ^ ·)))).setFld (tdPecapA i) tdPecapCount ok.length
    s1.setFld (tdPecapA i) tdPecapFailed 0) s

/-- The condition of a level source as it stands, sensed anew; under MODE 1 a low level is the pending state. -/
def State.sense (s : State) (src : Nat) (v : Bool) : State :=
  let s1 := s.level src v
  if s1.fld (evcSrccfgA src) evcSrccfgMode = 1 ∧ !v ∧ !s1.flag (evcSrcstatA src) evcSrcstatPending then s1.countSource src 0 else s1

/-- The level sources of R493 outside the partitions. -/
def State.senseAll (s : State) : State :=
  let pin : Fld → Bool := fun f => s.flag hmSidebandA f
  let pos := s.fld hmSidebandA hmSidebandPosId
  let s1 := (List.range 6).foldl (fun s n => s.sense (32 * 89 + 4 * n) (!s.linkUp n)) s
  let s2 := s1.sense (32 * 91 + 2) (s1.flag gtRefstatA gtRefstatHoldover)
  let s3 := (s2.sense (32 * 92 + 1) (s2.flag hmPwrstatA hmPwrstatInletRange)).sense (32 * 92 + 2) (s2.flag hmPwrstatA hmPwrstatTelemFault)
  let s4 := s3.sense (32 * 92 + 4) (s3.modPower.pwrlim || s3.modPower.overPower)
  let pins : List Bool := [!pin hmSidebandPresent, pin hmSidebandPwrEn, pin hmSidebandResetN, pin hmSidebandPwrlimN,
    pin hmSidebandForceOffN, !s.pins.thermtrip, pin hmSidebandAlertN, pin hmSidebandTraySync, pos.testBit 0, pos.testBit 1, pos.testBit 2,
    pos.testBit 3]
  ((List.range 12).zip pins).foldl (fun s x => (s.setEvSrc (32 * 95 + x.1) { s.evSrc (32 * 95 + x.1) with
    pin := (x.2, s.gtime), sensed := x.2 }).sense (32 * 95 + x.1) x.2) s4

/-- The bring-up reset of one partition; it is not one that PH.PRST counts (log entry 38). -/
def State.bringUpPart (s : State) (p : Nat) : State :=
  if !s.domOn (72 + p) then s.fenceBezel p 3
  else
    let s1 := [2 * p, 2 * p + 1].foldl (fun s t => s.mapTile t) s
    let s2 := (s1.jStart p).serviceCheck p
    let s3 : State := { s2 with wdog := kvSet 0 (kvSet 0 s2.wdog (2 * p) s2.gtime) (2 * p + 1) s2.gtime }
    if s3.outOfService p then s3.fenceBezel p 3 else s3.openBezel p

/-- Step 11. -/
def State.bringUp (s : State) : State :=
  let s0 := if s.flash.due then s.writeMcb true true else s
  let s1 := s0.setFld hmBootA hmBootPartOk (partMask (fun p => s0.domOn (72 + p)))
  let s2 := (s1.mapPress).applyRecs (fun a => decide (0x30600000000 ≤ a ∧ a < 0x30601000000))
  let s3 := (List.range 12).foldl State.bringUpPart s2
  let s4 := (List.range 64).foldl (fun s i => if s.fld (fdSlicedirA i) fdSlicedirSlice ≠ 0 then s.deriveTrees i else s) s3
  ((s4.senseAll.repairMcb).setFld evcGctlA evcGctlDis 0).evSettle

/-! ### Steps 12 and 13 (R531, R532) -/

/-- Whether the module has less than its full complement (R532). -/
def State.degraded (s : State) : Bool :=
  (List.range 12).any (fun p => s.outOfService p) || (List.range 24).any (fun t => s.flag (ctCapA t) ctCapDegraded) ||
    [0, 1].any (fun i => decide (s.fld (tdPecapA i) tdPecapCount ≠ 16)) ||
    (List.range 4).any (fun f => fusedOut s.overlay 8 (36 + f) 0 || fusedOut s.overlay 8 (36 + f) 1) ||
    (List.range 6).any (fun n => s.bootFail (40 + n))

/-- Steps 12 and 13: a wait for time leaves the start at step 12. -/
def State.bootEnd (s : State) : State :=
  let s1 : State := if s.boot.result.2 ≠ 0 then s
    else { s with boot := { s.boot with result := (if s.degraded then 2 else 1, 0) } }
  if s1.node = 0xFFF ∨ s1.timeReady then s1.reportReady
  else ({ s1 with boot := { s1.boot with timeWait := s1.gtime + 1 } }).setFld hmBootA hmBootPhase 12

/-! ### The whole sequence (R519) -/

/-- Steps 3 to 13 of a start. -/
def State.continueStart (s : State) (warm : Bool) : State :=
  let s1 := (({ s with boot := { s.boot with held := 0 } }).setFld hmSeqctlA hmSeqctlHeld 0).bootPower warm
  let s2 := (s1.bootLinks.bootImages.bootUnits).bootMemory warm
  let s3 := (if warm then s2 else s2.bootHost).bootAssay warm
  s3.bringUp.bootEnd

/-- A start holds at the end of a step (R616, R621). -/
def State.holdStart (s : State) (step : Nat) : State :=
  ({ s with boot := { s.boot with held := step } }).setFld hmSeqctlA hmSeqctlHeld 1

/-- A cold start that has ended step 2 goes on, unless HOLD3 or RESET_N holds it (R616, R621). -/
def State.afterStep2 (s : State) : State :=
  if s.flag hmSeqctlA hmSeqctlHold3 ∨ !s.pins.resetN then s.holdStart 2 else s.continueStart false

/-- Boot failure: Locket holds every other die in reset, and PWR_GOOD shows the pattern of R615 (R463, R522, R629). -/
def State.bootFailed (s : State) : State :=
  let s1 := s.offState
  { s1 with boot := { s1.boot with failed := true }, pins := { s1.pins with pwrGood := true } }

/-- The next bottom tree is ready when the boot signs (R469). -/
def State.treeReady (s : State) : State :=
  match s.useLeaf with
  | .wait => s.setFld lkStateA lkStateTreeReady 1
  | _ => s

/-- The boot record, signed where a leaf is left (R472). -/
def State.signBoot (s : State) : State :=
  match s.useLeaf with
  | .leaf n t => { t with locket := { t.locket with bootRec := fitBytes 12288 (quoteRecord (t.quoteBody 0xFFFF (zeros 32)) n) } }
  | .busy t => t
  | .wait => s

/-- Steps 1 to 4 of R464 once a bank has been found: hallmarks, the per-boot key pair and the boot record. -/
def State.locketBoot (s : State) (bank : Nat) : State :=
  let alt := decide (bank ≠ s.flash.next % 2)
  let s1 := (s.setFld lkStateA lkStateBank bank).setFld lkStateA lkStateAltBank (b2n alt)
  let s1 := if alt then s1.raise (32 * 93 + 9) else s1
  let s2 := (List.range 6).foldl (fun s t => s.setFld (lkSvnA t) lkSvnRunsvn (Config.imageSvn s.bundle t)) s1
  let fixed : Nat → List Byte := fun i => (List.range 32).map (Config.fixedHash i)
  let s3 := (((s2.extendHallmark 0 (fixed 0)).extendHallmark 1 (fixed 1)).extendHallmark 2
    (sha256 (natLe 1 (s2.fld lkStateA lkStateLifecycle)))).extendHallmark 7 (s2.digest 0)
  let none_ := s3.bootFail 420
  let s4 := s3.extendHallmark 9 (if none_ then sha256 [] else s3.digest 5)
  let s5 := s4.extendHallmark 3 (s4.digest 1)
  let duo := s5.drawRandom 64
  let rnd := duo.1
  let s6 := duo.2
  let s7 : State := { s6 with locket := { s6.locket with bootKey := Config.mlkemKeygen rnd } }
  s7.treeReady.signBoot

/-- A cold start (R58, R516, R519): GTIME starts at 0; the start's own duration is left out (log entry 40). -/
def State.coldStart (s : State) (fails : List Nat) : State :=
  let s0 := s.offState
  let s1 : State := { s0 with
    gtime := 0, boot := { s0.boot with fails := fails, lowAt := 0 }, pins := { s0.pins with pwrGood := true } }
  let s2 := s1.addWrap lkBootcntA lkBootcntBoots 1
  let s3 := s2.setFld lkSigstateA lkSigstateNextLeaf (65536 * s2.fld lkSigstateA lkSigstateReservedTo)
  let okA := !s3.bootFail 1
  let okB := !s3.bootFail 2
  match s3.bootBank with
  | none => s3.bootFailed
  | some b =>
    if !okA ∧ !okB then s3.bootFailed
    else
      let s4 := (s3.locketBoot b).readMcb.hasiaStart okA okB
      let s5 := if s4.bootFail 420 ∨ s4.refused 5 then s4.trayRec 6 0x10 5 else s4
      let s6 : State := { s5 with modPower := { s5.modPower with op := s5.fld hmPwrcfgA hmPwrcfgOp } }
      (s6.setFld hmBootA hmBootPhase 2).afterStep2

/-- Whether the conditions of R614 and R618 let the module start. -/
def State.mayStart (s : State) : Bool :=
  s.pins.v48 && s.pins.present && s.pins.pwrEn && s.pins.forceOffN && s.modPower.trip.isNone && !s.boot.stopped && !s.pins.pwrGood

/-- COLD_START (R516, R519). -/
def execColdStart (now : Nat) (env : BootEnv) (s : State) : Host.Outcome State Fault Refusal :=
  .next (let s := s.advance now
    if s.mayStart then s.coldStart env.fails else s)

/-! ### The module reset (R577, R578) -/

/-- A STOP link bead on every up link (R371). -/
def State.sendStops (s : State) (reason : Nat) : State :=
  (List.range 6).foldl (fun s n =>
    if s.linkUp n then s.sendHop n 11 0 (natLe 1 3 ++ zeros 1 ++ natLe 2 s.node ++ natLe 1 n ++ zeros 3 ++ natLe 1 reason) else s) s

/-- Every slice is aborted with a cause (R341, R572). -/
def State.abortAll (s : State) (cause : Nat) : State := (List.range 64).foldl (fun s i => s.abortLocal i cause 15 none) s

/-- Every powered partition's bezel is fenced. -/
def State.fenceAll (s : State) (by_ : Nat) : State :=
  (List.range 12).foldl (fun s p => if s.domOn (72 + p) then s.fenceBezel p by_ else s) s

/-- Registers that a module reset keeps whole: clasps, sessions' state, segment owners, and the directory with ABORTED (R148, R150, R211,
R344, R475, R574). -/
def keptWhole (a : Nat) : Bool :=
  match regAt a with
  | some (d, _) =>
    match d.name with
    | .phClasp | .phAclasp | .phClasptaint | .phAclasptaint | .phXts | .tdSeg | .fdSlicedir | .phCtxcfg0 => true
    | _ => false
  | none => false

/-- The registers of the dies that step 5 holds in reset: what is committed as configuration stays, the rest takes its Reset column (R11,
R25, R513, R586; log entry 39). -/
def State.resetDies (s : State) : State :=
  let conf : RegField → Bool := fun f => f.kept || decide (f.acc = .st) || decide (f.acc = .fx) || decide (f.acc = .rw)
  let outside : Nat → Bool := fun a => decide (a < 0x30000000000) || (decide (0x30100000000 ≤ a) && decide (a < 0x3F000000000))
  ((List.range 12).foldl State.resetTiles (s.resetRegs (fun a => outside a && !keptWhole a) conf)).evModuleReset

/-- The hub's part of power control after a reset. -/
def Power.afterReset (x : Power) (now : Nat) : Power :=
  { x with level := 0, fresh := true, hintLevel := 0, hint := none, keep := now, safe := false, est := (0, 0), descend := false }

/-- Handlings whose action the module reset is or overtakes are done. -/
def State.closeHandlings (s : State) : State :=
  { s with
    errs := s.errs.map (fun e => (e.1, if e.2.level.any (fun l => decide (l ≤ 3)) then { e.2 with acting := true, done := true } else e.2)),
    captures := [] }

/-- Steps 4 and 5: every context undergoes a recovery reset, every queue is emptied, and the dies are reset. -/
def State.resetCore (s : State) (st : Status) : State :=
  let parts := List.range 12
  let s1 := parts.foldl (fun s p => ((if s.tilesOn p then s.flushTiles p else s).dropGroups p).setReg (phClundoA p) 0) s
  let s2 := parts.foldl (fun s p => s.discard ((List.range 64).map (· + 64 * p)) st noDetail false) s1
  let s3 := (s2.discard ((List.range 32).map (· + 768)) st noDetail false).resetDies
  let s4 : State := { s3 with
    undo := [], ceSec := [], retrain := [], uelog := [], presses := [], pressQ := [], pressRr := [], links := [], aborts := [], folds := [],
    colls := [], recorders := [], tsScrub := [], mvOwnPend := [], bezels := [], windows := [], wdog := [], dumpQ := [],
    locket := { s3.locket with linkKeys := [], linkSs := [] },
    pins := { s3.pins with lasers := false, traySync := false } }
  let s5 := (List.range 6).foldl (fun s n => s.setFld (lkLinkstatA n) lkLinkstatState 0) s4
  let s6 := parts.foldl (fun s p => s.setPwr p ((s.pwr p).afterReset s.gtime)) s5
  -- The host die and its Ethernet links go on (R578).
  ((s6.sense (32 * 96) (s.flag (evcSrcstatA (32 * 96)) evcSrcstatLevel)).sense (32 * 96 + 1)
    (s.flag (evcSrcstatA (32 * 96 + 1)) evcSrcstatLevel)).closeHandlings

/-- The state of the start as a warm one begins (R516, R538, R542, R622). -/
def State.beginWarm (s : State) (fails : List Nat) : State :=
  let b := s.boot
  let s1 : State := { s with boot := { b with
    held := 0, since := s.gtime, timeWait := 0, fails := fails, result := (0, 0), assayPend := 0, open_ := false, adminLost := false,
    lost := (0, 0) } }
  let w := fset (fset (fset 0 hmBootPhase 3) hmBootWarm 1) hmBootMemvalid (b2n b.memvalid)
  let s2 := ((s1.setReg hmBootA w).setFld hmMcbstatA hmMcbstatMirrorUsed 0).setFld hmMcbstatA hmMcbstatDefaultsInUse 0
  ((s2.setFld hmSeqctlA hmSeqctlTileAssayPend 0).setFld hmFstopA hmFstopMerged 0).setFld hmFstopA hmFstopCause 0

/-- Steps 1 to 5 of R577 and the warm start, or its hold while RESET_N is low (R616). `d` is the causing domain, 25 for an order. -/
def State.moduleReset (s : State) (d cause : Nat) (fails : List Nat) : State :=
  let r : ErrRec := if cause = 0 then ⟨0, 3, 48, 0xFF, 0x3FF, 0, 0⟩ else (s.dom d).cause
  let s1 := if cause = 0 then s.addDump 25 3 0 false false s.gtime [] (s.captureParts 25 3 r) else s
  let s2 := (s1.addSat hmFltA hmFltL3Count 1).trayRec 6 2 d
  let s3 := ((({ s2 with boot := { s2.boot with open_ := false } }).abortAll 12).sendStops 1).fenceAll 1
  let s4 := s3.resetCore (causeStatus cause)
  -- A missing confirmation of self-refresh escalates to level 4.
  if fails.any (fun n => decide (500 ≤ n) && decide (n < 552)) then s4.startLevel d 4 r true
  else
    let s5 := s4.beginWarm fails
    if s5.pins.resetN then s5.continueStart true else s5.holdStart 5

/-- MODULE_RESET (R559, R577): cause 0 is an order of Hasia; it waits for an active Hasia (R581). -/
def execModuleReset (now cause : Nat) (env : BootEnv) (s : State) : Host.Outcome State Fault Refusal :=
  .next (let s := s.advance now
    if !s.hasiaUp ∨ s.boot.held ≠ 0 then s
    else if cause = 0 then s.moduleReset 25 0 env.fails
    else
      match (List.range 26).find? (fun d => s.mayAct d 3 cause) with
      | some d => s.moduleReset d cause env.fails
      | none => s)

/-! ### Commands that act on a start in progress -/

/-- TIME_WAIT_EXPIRE (R531). -/
def execTimeWaitExpire (now : Nat) (s : State) : Host.Outcome State Fault Refusal :=
  .next (let s := s.advance now
    if s.boot.timeWait = 0 ∨ s.gtime + 1 < s.boot.timeWait + 1000000000 * s.fld hmBootcfgA hmBootcfgTimeWaitS then s else s.reportReady)

/-- HOLD3_WRITE (R621). -/
def execHold3Write (now : Nat) (v : Bool) (by_ : Writer) (s : State) : Host.Outcome State Fault Refusal :=
  .next (let s := s.advance now
    if !s.mgmtWriter by_ then s
    else
      let s1 := s.setFld hmSeqctlA hmSeqctlHold3 (b2n v)
      if s1.boot.held = 2 ∧ !v then s1.afterStep2 else s1)

/-- Whether FX fields still take writes: until step 13 has reported (R13, R520). -/
def State.bringUpOpen (s : State) : Bool := s.hasiaUp && decide (s.fld hmBootA hmBootReady = 0)

/-- A field of FD.NODE in all four copies. -/
def State.setNode (s : State) (f : Fld) (v : Nat) : State := (List.range 4).foldl (fun s i => s.setFld (fdNodeA i) f v) s

/-- A training link starts again (R520). -/
def State.retrainAll (s : State) : State :=
  (List.range 6).foldl (fun s n =>
    if s.fld (lxStatA n) lxStatState = 1 then s.setLink n { s.link n with peer := none, stamps := [], tried := s.gtime } else s) s

/-- Writes of NODE_ID, ZSIZE and MASTER by the tray controller (R13, R520, R547, R613). -/
def State.writeNode (s : State) (node zsize master : Nat) : State :=
  let node := node % 4096
  let ignored := b2n (decide (node ≠ s.node) || decide (zsize % 128 ≠ s.fld (fdNodeA 0) fdNodeZsize))
  if !s.bringUpOpen then
    let s1 := s.addSat (fdCfgstatA 0) fdCfgstatFxIgnored ignored
    s1.addSat hmCfgstatA hmCfgstatFxIgnored (b2n (decide (master % 4096 ≠ s.fld gtDisccfgA gtDisccfgMaster)))
  else
    let s1 := s.setFld gtDisccfgA gtDisccfgMaster master
    if node % 4 ≠ s.fld hmSidebandA hmSidebandPosId % 4 then (s1.addSat (fdCfgstatA 0) fdCfgstatFxIgnored 1).trayRec 7 0x10 0
    else
      let z := if 4 ≤ zsize ∧ zsize ≤ 64 ∧ zsize % 4 = 0 then zsize else s.fld (fdNodeA 0) fdNodeZsize
      let s2 := ((s1.setNode fdNodeNodeId node).setNode fdNodeZsize z)
      (if ignored = 1 then s2.retrainAll else s2).tryReady

/-- NODE_ID_WRITE (R520, R613). -/
def execNodeIdWrite (now node zsize master : Nat) (s : State) : Host.Outcome State Fault Refusal :=
  .next (let s := s.advance now
    if s.hasiaUp then s.writeNode node zsize master else s)

end Sys2Proof.Machine
end

