-- ==== Sys2Proof/Machine/Connector.lean ====
section
/-!
DEFINITION. The connectors: power, the sideband inputs, the fast stop and firmware recovery, and the tile and host-die domains that the
rack orders (R393, R395 to R397, R423, R614 to R618, R621, R622, R624 to R626, R629).
-/

namespace Sys2Proof.Machine

/-! ### Pins -/

/-- An input pin of HM.SIDEBAND with its event source of group 95. -/
def State.inPin (s : State) (f : Fld) (src : Nat) (v : Bool) : State := (s.setFld hmSidebandA f (b2n v)).setPin src v

/-- Whether the module is powered and not in boot failure. -/
def State.running (s : State) : Bool := s.pins.pwrGood && !s.boot.failed

/-! ### The fast stop (R393, R624 to R626) -/

/-- Inserts a record into a list ordered by the time of its fault. -/
def insertByTime (q : ErrRec × Nat) : List (ErrRec × Nat) → List (ErrRec × Nat)
  | [] => [q]
  | x :: xs => if x.2 ≤ q.2 then x :: insertByTime q xs else q :: x :: xs

/-- The newest error records across all domains, at most 128, the oldest of them first (log entry 41). -/
def State.newestErrs (s : State) : List (ErrRec × Nat) :=
  let all := ((List.range 26).flatMap (fun d => (s.dom d).queue)).foldl (fun acc q => insertByTime q acc) []
  all.drop (all.length - 128)

/-- SEQ of the last fast-stop record (R626). -/
def State.lastStop (s : State) : Nat := maxNat (s.fld hmFstopA hmFstopLastSeq :: s.flash.slots.map (fun b => leAt b 4 4))

/-- The fast-stop record of 4 KiB (R626); the day's wear accumulators are free values (log entry 7). -/
def State.stopRecord (s : State) (cause : Nat) : State :=
  if !s.hasiaUp ∨ 256 ≤ s.flash.slots.length then s
  else
    let duo := s.drawBytes 456
    let acc := duo.1
    let s1 := duo.2
    let err := s1.newestErrs.flatMap (fun q =>
      let w := errWords q.1 q.2
      natLe 8 w.1.toNat ++ natLe 8 w.2.1.toNat ++ natLe 8 w.2.2.toNat)
    let body := natLe 4 0x46535450 ++ natLe 4 (s1.lastStop + 1) ++ natLe 8 s1.gtime ++ natLe 4 (s1.fld lkBootcntA lkBootcntBoots) ++
      natLe 1 cause ++ zeros 3 ++ natLe 8 (s1.fld mcbHdrA mcbHdrGen) ++ acc ++ zeros 24 ++ fitBytes 3072 err ++ zeros 508
    { s1 with flash := { s1.flash with slots := s1.flash.slots ++ [body ++ natLe 4 (crc32c body)] } }

/-- The fast stop of R625. -/
def State.fastStop (s : State) (cause : Nat) : State :=
  let s1 := (if s.running then (s.sendStops 0).stopRecord cause else s).offState
  { s1 with boot := { s1.boot with stopped := true } }

/-- FAST_STOP (R624, R625): PRESENT_N opening (cause 1), or an input condition of R393 (2 undervoltage, 3 overvoltage). -/
def execFastStop (now cause : Nat) (s : State) : Host.Outcome State Fault Refusal :=
  .next (let s := s.advance now
    if cause = 1 then
      let s1 := ({ s with pins := { s.pins with present := false } }).inPin hmSidebandPresent 0 true
      let s2 := s1.setFld hmSidebandA hmSidebandPresent 0
      if s.pins.pwrGood then s2.fastStop 1 else s2
    else if (cause = 2 ∨ cause = 3) ∧ s.pins.pwrGood then ({ s with pins := { s.pins with v48 := false } }).fastStop cause
    else s)

/-- INPUT_VOLTAGE_EVENT (R393): the input has been at a voltage for a time. -/
def execInputVoltageEvent (now mv durUs : Nat) (s : State) : Host.Outcome State Fault Refusal :=
  .next (let s := s.advance now
    let inside := decide (40000 ≤ mv) && decide (mv ≤ 59500)
    let uv := if 36000 ≤ mv ∧ mv < 40000 ∧ durUs ≤ 10000 then some mv else if inside then none else s.modPower.uvMv
    let s1 : State := { s with modPower := { s.modPower with inputMv := mv, uvMv := uv }, pins := { s.pins with v48 := inside } }
    let stop := if (mv < 40000 ∧ 10000 < durUs) ∨ (mv < 36000 ∧ 50 ≤ durUs) then some 2
      else if 59500 < mv ∧ 50 ≤ durUs then some 3 else none
    match stop with
    | some c => if s1.pins.pwrGood then s1.fastStop c else s1
    | none => s1)

/-! ### Power up and down (R614 to R618) -/

/-- INPUT_POWER_APPLIED (R614): the AO domain is up; a PWR_EN already high lets COLD_START follow. -/
def execInputPowerApplied (mv : Nat) (s : State) : Host.Outcome State Fault Refusal :=
  .next (
    let s1 : State := { s with modPower := { s.modPower with inputMv := mv } }
    if 40000 ≤ mv ∧ mv ≤ 59500 ∧ !s.pins.v48 ∨ 40000 ≤ mv ∧ mv ≤ 59500 ∧ !s.pins.present then
      let s2 : State := { s1 with modPower := { s1.modPower with uvMv := none }, pins := { s1.pins with v48 := true, present := true } }
      ((s2.setFld hmSidebandA hmSidebandPosId Config.posId).inPin hmSidebandPresent 0 false).setFld hmSidebandA hmSidebandPresent 1
    else s1)

/-- POWER_UP (R614, R618, R624): PWR_EN goes high. After a fast stop or a thermal trip it counts only once it has been low for 100 ms. -/
def execPowerUp (now : Nat) (env : BootEnv) (s : State) : Host.Outcome State Fault Refusal :=
  .next (let s := s.advance now
    let low := decide (s.boot.lowAt ≠ 0) && decide (s.boot.lowAt + 100000000 ≤ s.gtime + 1)
    let s0 : State := { s with pins := { s.pins with pwrEn := true } }
    let s1 := s0.inPin hmSidebandPwrEn 1 true
    let s2 : State := { s1 with boot := { s1.boot with lowAt := 0, stopped := s1.boot.stopped && !low } }
    let s3 : State := if low then
        { s2 with modPower := { s2.modPower with trip := none }, pins := { s2.pins with thermtrip := false } }
      else s2
    if s3.mayStart then s3.coldStart env.fails else s3)

/-- ORDERED_SHUTDOWN (R617): PWR_EN low for 1 ms. -/
def execOrderedShutdown (now : Nat) (s : State) : Host.Outcome State Fault Refusal :=
  .next (let s := s.advance now
    if !s.pins.pwrEn then s
    else
      let s0 : State := { s with pins := { s.pins with pwrEn := false }, boot := { s.boot with lowAt := s.gtime + 1 } }
      let s1 := s0.inPin hmSidebandPwrEn 1 false
      if s1.running then (((s1.sendStops 1).abortAll 12).fenceAll 1).oweMcb.writeMcb true true |>.offState else s1.offState)

/-- RESET_N_ASSERT (R616, R618): a start held at the end of step 2 stays there. -/
def execResetNAssert (now : Nat) (s : State) : Host.Outcome State Fault Refusal :=
  .next (let s := s.advance now
    if !s.pins.resetN then s
    else
      let s0 : State := { s with pins := { s.pins with resetN := false } }
      let s1 := s0.inPin hmSidebandResetN 2 false
      if s1.running ∧ s1.hasiaUp ∧ s1.boot.held = 0 then s1.moduleReset 25 0 [] else s1)

/-- RESET_N_RELEASE (R616). -/
def execResetNRelease (now : Nat) (env : BootEnv) (s : State) : Host.Outcome State Fault Refusal :=
  .next (let s := s.advance now
    if s.pins.resetN then s
    else
      let s0 : State := { s with pins := { s.pins with resetN := true }, boot := { s.boot with fails := s.boot.fails ++ env.fails } }
      let s1 := s0.inPin hmSidebandResetN 2 true
      if s1.boot.held = 5 then s1.continueStart true else if s1.boot.held = 2 then s1.afterStep2 else s1)

/-- FORCE_OFF (R397). -/
def execForceOff (s : State) : Host.Outcome State Fault Refusal :=
  .next ((({ s with pins := { s.pins with forceOffN := false } }).inPin hmSidebandForceOffN 4 false).offState)

/-- FORCE_OFF_RELEASE (R397, R618). -/
def execForceOffRelease (now : Nat) (env : BootEnv) (s : State) : Host.Outcome State Fault Refusal :=
  .next (let s := s.advance now
    if s.pins.forceOffN then s
    else
      let s0 : State := { s with pins := { s.pins with forceOffN := true } }
      let s1 := s0.inPin hmSidebandForceOffN 4 true
      if s1.mayStart then s1.coldStart env.fails else s1)

/-- THERMAL_TRIP (R423): it needs no Hasia, no hub and no tick. -/
def execThermalTrip (die : Nat) (s : State) : Host.Outcome State Fault Refusal :=
  .next (if 52 ≤ die ∨ !s.running then s
    else ({ s with modPower := { s.modPower with trip := some die }, pins := { s.pins with thermtrip := true } }).offState)

/-- FLASH_RECOVERY (R629): the bundle versions that the tray controller programs into banks 0 and 1. -/
def execFlashRecovery (banks : List Nat) (s : State) : Host.Outcome State Fault Refusal :=
  .next (if s.boot.failed then
      let old := s.flash.banks
      { s with flash := { s.flash with
          banks := [0, 1].map (fun i => match banks[i]? with
            | some v => (v, true)
            | none => old.getD i (0, false)),
          staged := none } }
    else s)

/-! ### Tile and host-die domains (R395, R396, R621, R622) -/

/-- DOMAIN_OFF_ORDER (R396): after the fence, the descent for an order of the rack or the host; shedding skips it. -/
def execDomainOffOrder (now p : Nat) (s : State) : Host.Outcome State Fault Refusal :=
  .next (let s := s.advance now
    if 12 ≤ p ∨ !s.tilesOn p ∨ s.onRule p ∨ (s.pwr p).descend then s
    else
      let s1 := ((s.fenceBezel p 1).fencePart p none).1
      let s2 := (s1.slicesOf p).foldl (fun s i => s.abortLocal i 15 15 none) s1
      if s2.isShed p ∨ s2.outOfService p then s2.tilesOff p else s2.setPwr p { s2.pwr p with descend := true })

/-- Whether a partition's tile domains may come on now. -/
def State.tilesWanted (s : State) (p : Nat) : Bool := s.onRule p && !s.tilesOn p && s.domOn (72 + p) && !s.refused 3

/-- Time between two partitions, in ticks (R622): max(2 ms, 1 ms / RAMP). -/
def State.onGap (s : State) : Nat := max 2000000 (10000000 / max 1 (s.fld hmPwrcfgA hmPwrcfgRamp))

/-- DEGRADED tiles turn READY into READY_DEGRADED (R622). -/
def State.readyDegraded (s : State) : State :=
  if s.fld hmBootA hmBootReady = 1 ∧ s.degraded then (s.setFld hmBootA hmBootReady 2).trayRec 7 2 0 else s

/-- The deferred assay of a partition, and the mapping that follows it (R135, R622). -/
def State.lateAssay (s : State) (p : Nat) : State :=
  if !s.boot.assayPend.testBit p then s
  else
    let s1 := (s.assayPart p).pendAssay (setBits s.boot.assayPend p 1 0)
    let s2 := if s1.flash.due then s1.writeMcb true true else s1
    ([2 * p, 2 * p + 1].foldl (fun s t => s.mapTile t) s2).serviceCheck p

/-- DOMAIN_ON (R395, R396, R622): in ascending partition order. A bezel that Hasia fenced opens. -/
def execDomainOn (now p : Nat) (s : State) : Host.Outcome State Fault Refusal :=
  .next (let s := s.advance now
    let first := (List.range 12).find? (fun q => s.tilesWanted q)
    if !s.hasiaUp ∨ first ≠ some p ∨ (s.modPower.lastOn ≠ 0 ∧ s.gtime + 1 < s.modPower.lastOn + s.onGap) then s
    else
      let s1 := (s.tilesUp p).lateAssay p
      let s2 := if s1.fld (phBezelA p) phBezelState = 2 ∧ s1.fld (phBezelA p) phBezelBy = 1 then s1.openBezel p else s1
      s2.readyDegraded)

/-- A rack order (R395, R621): the host die's domains follow HD_ON at the write, with step 9 of a start. -/
def State.rackOrder (s : State) (v : Nat) : State :=
  let was := s.flag hmRackordA hmRackordHdOn
  let s1 := (s.setFld hmRackordA hmRackordRackOn (bits v 0 12)).setFld hmRackordA hmRackordHdOn (bits v 16 1)
  let is_ := s1.flag hmRackordA hmRackordHdOn
  if is_ ∧ !was ∧ s1.domOn 84 then s1.hostDieOn.bootHost else if was ∧ !is_ then s1.hostDieOff else s1

/-- RACK_ORDER_WRITE (R395, R459). -/
def execRackOrderWrite (now v : Nat) (by_ : Writer) (s : State) : Host.Outcome State Fault Refusal :=
  .next (let s := s.advance now
    if s.mgmtWriter by_ then s.rackOrder v else s)

end Sys2Proof.Machine
end

