-- ==== Sys2Proof/Machine/Events.lean ====
section
/-!
DEFINITION. The event-controller commands that happen at a time: level changes, claims, strand records, hold-off and masks
(R497 to R511).
-/

namespace Sys2Proof.Machine

/-- LEVEL_CHANGE (R497, R499). -/
def execLevelChange (now src : Nat) (level : Bool) (s : State) : Host.Outcome State Fault Refusal :=
  .next (let s1 := s.advance now
    if src < 4096 then (s1.setLevel src level).evSettle else s1)

/-- CLAIM (R501): the answer is the CLAIM word. -/
def execClaim (now k : Nat) (s : State) : Host.Outcome State Fault Refusal :=
  .next (let s1 := s.advance now
    if k < 78 then
      let r := s1.claimRead k
      (r.2.evSettle).answer (.bytes (natLe 8 r.1.toNat))
    else s1)

/-- STRAND_RECORD (R510 to R512). -/
def execStrandRecord (now k : Nat) (s : State) : Host.Outcome State Fault Refusal :=
  .next (let s1 := s.advance now
    if k < 78 then (s1.strandDeliver k).evSettle else s1)

/-- HOLDOFF_EXPIRE (R505): the timer counts ticks exactly. -/
def execHoldoffExpire (now g : Nat) (s : State) : Host.Outcome State Fault Refusal :=
  .next (let s1 := s.advance now
    let h := kvGet 0 s1.evcHold g
    if g < 128 ∧ h ≠ 0 ∧ h ≤ s1.gtime + 1 then
      (({ s1 with evcHold := kvSet 0 s1.evcHold g 0 }).setFld (evcGrpcfgA g) evcGrpcfgHolding 0).evSettle
    else s1)

/-- SOURCE_MASK_WRITE (R496, R507). The model withdraws the source at once: no late delivery (log entry 19). -/
def execSourceMaskWrite (now src : Nat) (v : Bool) (by_ : Writer) (s : State) : Host.Outcome State Fault Refusal :=
  .next (let s1 := s.advance now
    if 4096 ≤ src then s1
    else if !s1.evcMayWrite (src / 32) by_ then s1.lockRefused
    else (s1.setFld (evcSrccfgA src) evcSrccfgMask (b2n v)).evSettle)

end Sys2Proof.Machine
end

