-- ==== Sys2Proof/Machine/RegWrite.lean ====
section
/-!
DEFINITION. Register writes by any initiator, and the host die's loads and stores (R12 to R14, R36 to R39, R487, R545 to R547, R594).
-/

namespace Sys2Proof.Machine

/-- The state that a meaning leaves. -/
def leaves (s : State) (f : State → Host.Outcome State Fault Refusal) : State :=
  match f s with
  | .next t => t
  | _ => s

/-! ### Who reaches a block (R36, R37, R430, R451, R491) -/

/-- The domain that powers the block of an address below the management-only space (log entry 42). -/
def blockDomain (a : Nat) : Nat :=
  let o := a % 0x1000000000
  if o < 0x100000000 then 3 * (o / 0x1000000) + 2
  else if o < 0x200000000 then 72 + (o - 0x100000000) / 0x1000000
  else if o < 0x300000000 then 84 + (o - 0x200000000) / 0x1000000
  else if o < 0x400000000 then 88 + (o - 0x300000000) / 0x100000
  else if o < 0x500000000 then 94 + (o - 0x400000000) / 0x1000000
  else if o < 0x600000000 then 96
  else 84

/-- Whether a register write of an initiator arrives. -/
def State.arrives (s : State) (w : Writer) (a : Nat) : Bool :=
  if 0x3F000000000 ≤ a then
    s.mgmtWriter w && (decide (a < 0x3F001000000) || (match w with
      | .hasia _ => true
      | _ => (decide (lkLinkctlA 0 ≤ a) && decide (a ≤ lkLinkctlA 5)) || decide (a = lkDbgctlA) ||
          (decide (0x3F001010000 ≤ a) && decide (a < 0x3F001032000))))
  else
    mayReachReg w a && s.domOn (blockDomain a) && (match w with
      | .hasia d => decide (s.activeDie = some d)
      | _ => true)

/-! ### ST and FX fields (R12, R13, R547) -/

/-- Where ignored writes at an address are counted, and the event of an ST one (R547). -/
def ignoredAt (a : Nat) : Nat × Nat :=
  let o := a % 0x1000000000
  if 0x3F000000000 ≤ a then (hmCfgstatA, 32 * 94 + 2)
  else if o < 0x200000000 then
    let p := if o < 0x100000000 then o / 0x2000000 else (o - 0x100000000) / 0x1000000
    (phCfgstatA p, 32 * (73 + p) + 10)
  else if o < 0x300000000 then (fdCfgstatA ((o - 0x200000000) / 0x1000000), 32 * 90 + 5)
  else if o < 0x400000000 then (fdCfgstatA ((o - 0x300000000) / 0x100000 / 2), 32 * 90 + 5)
  else if o < 0x500000000 then
    let d := (o - 0x400000000) / 0x1000000
    (tdCfgstatA d, 32 * (85 + d) + 5)
  else (hmCfgstatA, 32 * 94 + 2)

/-- Access of a field in one copy of its register: OWNER is FX within the host reservation (R149). -/
def fieldAcc (d : RegDef) (is : List Nat) (f : RegField) : Acc :=
  if d.name = .tdSeg ∧ f.acc = .st ∧ 768 ≤ is.getD 0 0 then .fx else f.acc

/-- Whether a write carries other bits than the committed ones into a field of an access. -/
def differs (d : RegDef) (is : List Nat) (acc : Acc) (w v : Word) : Bool :=
  d.fields.any (fun f => decide (fieldAcc d is f = acc) && decide (fget w f.fld ≠ fget v f.fld))

/-- Whether R13 ignores part of a write. -/
def State.ignores (s : State) (a : Nat) (v : Word) : Bool :=
  match regAt (homeReg a) with
  | some (d, is) =>
    let w := s.reg (homeReg a)
    differs d is .st w v || (!s.bringUpOpen && differs d is .fx w v)
  | none => false

/-- ST fields of a write are counted with an event; FX fields are set before step 13 and counted after it. -/
def State.guarded (s : State) (a : Nat) (d : RegDef) (is : List Nat) (v : Word) : State :=
  let h := homeReg a
  let w := s.reg h
  let q := ignoredAt a
  let s1 := if differs d is .st w v then (s.addSat q.1 phCfgstatStIgnored 1).raise q.2 else s
  if !differs d is .fx w v then s1
  else if !s.bringUpOpen then s1.addSat q.1 phCfgstatFxIgnored 1
  else if d.name = .fdNode then s1.writeNode (fget v fdNodeNodeId) (fget v fdNodeZsize) (s1.fld gtDisccfgA gtDisccfgMaster)
  else
    (d.fields.filter (fun f => decide (fieldAcc d is f = .fx) && f.takes (fget v f.fld))).foldl
      (fun s f => s.setFld h f.fld (fget v f.fld)) s1

/-! ### RW and W1C fields, and what a write triggers -/

/-- RW fields replaced and W1C bits cleared, where the register has no rule of its own. -/
def State.plain (s : State) (a : Nat) (d : RegDef) (v : Word) : State :=
  let h := homeReg a
  s.setReg h (plainWrite d.fields (s.reg h) v)

/-- The writes to the event controller (R496, R498, R502, R503, R509, R515). -/
def State.evcStore (s : State) (a : Nat) (d : RegDef) (is : List Nat) (v : Word) (w : Writer) : State :=
  let i := is.getD 0 0
  let bit : Fld → Bool := fun f => decide (fget v f ≠ 0)
  match d.name with
  | .evcGctl => leaves s (execGlobalDisableWrite (bit evcGctlDis) w)
  | .evcSrccfg =>
    if !s.evcMayWrite (i / 32) w then s.lockRefused
    else
      let s1 := leaves s (execSourceMaskWrite s.gtime i (bit evcSrccfgMask) w)
      let s2 := leaves s1 (execRouteWrite i (fget v evcSrccfgRoute) w)
      let s3 := leaves s2 (execSourceModeWrite i (fget v evcSrccfgMode) (fget v evcSrccfgFilt) w)
      (s3.setFld a evcSrccfgPrio (fget v evcSrccfgPrio)).evSettle
  | .evcGrpcfg => if s.evcMayWrite i w then (s.plain a d v).evSettle else s.lockRefused
  | .evcTgtComplete => leaves s (execComplete i (fget v evcTgtCompleteSource))
  | .evcTgtCons => leaves s (execStrandConsWrite i v.toNat)
  | _ => (s.plain a d v).evSettle

/-- The writes to the dies (R103, R139 to R142, R162, R202, R324, R345, R428, R564, R569, R588). -/
def State.dieStore (s : State) (a : Nat) (d : RegDef) (is : List Nat) (v : Word) (w : Writer) : State :=
  let i := is.getD 0 0
  let j := is.getD 1 0
  let bit : Fld → Bool := fun f => decide (fget v f ≠ 0)
  let s1 := s.plain a d v
  match d.name with
  | .ctOwn =>
    let s2 := (List.range 6).foldl (fun s m => s.ownMe i m (v.toNat.testBit m)) s
    (List.range 8).foldl (fun s k => s.ownMv i k (v.toNat.testBit (8 + k))) s2
  | .ctRst =>
    let s2 := if bit ctRstGrpa then leaves s1 (execMeGroupReset s.gtime i 0 w true) else s1
    if bit ctRstGrpb then leaves s2 (execMeGroupReset s.gtime i 1 w true) else s2
  | .meFault => if bit meFaultPop then leaves s1 (execUnitFaultPop i false j w) else s1
  | .mvFault => if bit mvFaultPop then leaves s1 (execUnitFaultPop i true j w) else s1
  | .mvCtl => if bit mvCtlAbort then leaves s1 (execMoverAbort i j w) else s1
  | .pipCtl => if bit pipCtlRst then leaves s1 (execPipReset s.gtime i j w) else s1
  | .tsEcc => if bit tsEccClr then leaves s1 (execTsEccClear i w) else s1
  | .phEccstat => if bit phEccstatClr then leaves s1 (execEccstatClear i w) else s1
  | .tdEccstat => if bit phEccstatClr then leaves s1 (execEccstatClear (12 + i) w) else s1
  | .phUelog => if bit phUelogPop then leaves s1 (execUelogPop i w) else s1
  | .tdUelog => if bit phUelogPop then leaves s1 (execUelogPop (12 + i) w) else s1
  | .tdPectl => (List.range 16).foldl (fun s e =>
      if v.toNat.testBit e then leaves s (execPressEngineReset s.gtime i e w true) else s) s1
  | .lxCtl =>
    let s2 := leaves ((s1.setFld a lxCtlEnable (s.fld a lxCtlEnable))) (execLinkEnableWrite s.gtime i (bit lxCtlEnable) w)
    if bit lxCtlRetrain then leaves s2 (execLinkRetrainOrder s.gtime i w) else s2
  | .fdAbortlog => if bit fdAbortlogPop then leaves s1 (execAbortlogPop i w) else s1
  | .phPwrlim => s.byOwner w (fun s => s.plain a d v)
  | .phPwrctl => s.byOwner w (fun s => let s' := s.plain a d v; if bit phPwrctlKeepalive then s'.keepalive i else s')
  | .phWdog => leaves s1 (execWdogKick s.gtime i (v.toNat % 4) w)
  | .phErrq0 =>
    let s2 := if bit phErrq0Lost then s1.setFld (hmErrq0A i) hmErrq0Lost 0 else s1
    if bit phErrq0Pop then leaves s2 (execErrqPop i w) else s2
  | .phBezel =>
    let s2 := if bit phBezelFence then leaves s1 (execBezelFence i w) else s1
    if bit phBezelOpen ∧ !bit phBezelFence then leaves s2 (execBezelOpen i w) else s2
  | .phPrst =>
    let ok : Bool := match w with
      | .steward q => decide (q = i)
      | .hasia _ => true
      | _ => false
    if bit phPrstStart ∧ ok then leaves s1 (execPartitionReset s.gtime i 0) else s1
  | _ => s1

/-- The writes to the management-only space: a register with a row of its own acts at once, every other LIVE field lands at the next
cycle boundary (R418, R424, R445, R465, R484, R490, R535, R545, R621). -/
def State.mgmtStore (s : State) (a : Nat) (d : RegDef) (is : List Nat) (v : Word) (w : Writer) : State :=
  let i := is.getD 0 0
  let bit : Fld → Bool := fun f => decide (fget v f ≠ 0)
  let s1 := s.setReg a (clearW1c d.fields (s.reg a) v)
  let live : State := if d.fields.any (fun f => decide (f.acc = .rw)) then
      { s1 with mgmt := { s1.mgmt with live := s1.mgmt.live ++ [(a, v.toNat)] } }
    else s1
  match d.name with
  | .hmRackord => s1.rackOrder v.toNat
  | .hmTrayhb => s1.trayBeat (fget v hmTrayhbSeq)
  | .hmTrayrpt => s1.trayCause (bit hmTrayrptShelfLoss) (bit hmTrayrptCoolLoss)
  | .hmSeqctl => leaves s1 (execHold3Write s.gtime (bit hmSeqctlHold3) w)
  | .hmSfctl => if bit hmSfctlClear then leaves s1 (execOverlayClear w) else s1
  | .hmRolectl => if bit hmRolectlSwap then live.orderSwap else live
  | .hmErrq0 =>
    let s2 := if bit hmErrq0Lost ∧ i < 12 then s1.setFld (phErrq0A i) phErrq0Lost 0 else s1
    if bit hmErrq0Pop then leaves s2 (execErrqPop i w) else s2
  | .lkSvnctl => if bit lkSvnctlCommit then leaves s1 (execSvnCommit w) else s1
  | .lkLinkctl =>
    let s2 := if bit lkLinkctlSubmit then leaves s1 (execLinkKeyingSubmit i w) else s1
    if bit lkLinkctlDrop then leaves s2 (execLinkKeyDrop i w) else s2
  | .lkDbgctl =>
    let s2 := if bit lkDbgctlNonceReq then leaves s1 (execDebugNonceReq w) else s1
    if bit lkDbgctlSubmit then leaves s2 (execDebugUnlockSubmit s.gtime w) else s2
  | _ => live

/-- A write to a window of Locket: an exchange window or the debug authorisation (R483, R490, R491). -/
def State.lkStore (s : State) (a : Nat) (v : Word) : State :=
  let bs := natLe 8 v.toNat
  if 0x3F001010000 ≤ a ∧ a < 0x3F001028000 then s.setLinkWin ((a - 0x3F001010000) / 0x4000) ((a - 0x3F001010000) % 0x4000) bs
  else if 0x3F001030000 ≤ a ∧ a < 0x3F001032000 then
    { s with locket := { s.locket with dbgAuth := putBytes s.locket.dbgAuth (a - 0x3F001030000) bs } }
  else s

/-- A write of a whole register that an initiator may write. -/
def State.regStore (s : State) (a : Nat) (v : Word) (w : Writer) : State :=
  if !s.arrives w a then
    match w with
    | .hasia d => if s.activeDie = some d then s else s.foreign
    | _ => s
  else
    match regAt (homeReg a) with
    | none => s.lkStore a v
    | some (d, is) =>
      let s1 := s.guarded a d is v
      if 0x3F000000000 ≤ a then s1.mgmtStore a d is v w
      else if 0x30600000000 ≤ a ∧ a < 0x30700000000 then s1.evcStore a d is v w
      else s1.dieStore a d is v w

/-- REGISTER_WRITE (R12 to R14, R545 to R547): the address is a register's own; LIVE fields outside Hasia land at the write, which is a
safe point of their block (log entry 43). -/
def execRegisterWrite (now addr : Nat) (v : Word) (by_ : Writer) (s : State) : Host.Outcome State Fault Refusal :=
  .next (let s := s.advance now
    s.regStore addr v by_)

/-! ### The host die's accesses (R36 to R39, R148, R170, R487, R566) -/

/-- Whether a partition's host-die accesses are served: powered, not confidential, in service and its bezel open. -/
def State.hostPart (s : State) (p : Nat) : Bool :=
  s.domOn (72 + p) && !s.confidential p && !s.outOfService p && s.bezelOpen p

/-- What becomes of a host access to memory. -/
inductive HostWay where
  /-- Access fault (R39); a confidential partition is named where R487 refuses. -/
  | fault (conf : Option Nat)
  /-- The access waits: a fill, or the tier while a reset holds it (R150, R578). -/
  | wait
  /-- It is performed. -/
  | go
  deriving DecidableEq, Repr

/-- A refusal or service of one partition's memory. -/
def State.partWay (s : State) (p : Nat) : HostWay :=
  if s.confidential p then .fault (some p) else if s.hostPart p then .go else .fault none

/-- The tier segment at an index (R148, R150). -/
def State.segWay (s : State) (g : Nat) : HostWay :=
  let ow := s.segOwner g
  if ow < 12 then
    if s.confidential ow then .fault (some ow)
    else if s.flag (tdSegA g) tdSegFilling then .wait else .go
  else if ow = 12 ∨ ow = 13 then (if s.flag (tdSegA g) tdSegFilling then .wait else .go) else .fault none

/-- The way of an access to [`a`, `a + n`) of memory. -/
def State.memWay (s : State) (a n : Nat) : HostWay :=
  match regionOf a with
  | .hbm p => if a + n ≤ journalBase p then s.partWay p else .fault none
  | .tile t => if a + n ≤ tileBase t + 0xA000000 ∧ s.tilesOn (t / 2) then s.partWay (t / 2) else .fault none
  | .tier =>
    if 0x1E000000000 < a + n then .fault none
    else if s.boot.held = 5 ∨ !s.domOn 94 ∨ !s.domOn 95 then .wait
    else
      let x := s.segWay (segOf a)
      if x = .go then s.segWay (segOf (a + n - 1)) else x
  | _ => .fault none

/-- A refusal under R487 is counted in LK.HOSTREF, with its event (R487, R493). -/
def State.hostRefused (s : State) (p : Nat) : State :=
  ((s.addSat lkHostrefA lkHostrefCount 1).setFld lkHostrefA lkHostrefLastPart (2 ^ p)).raise (32 * 96 + 2)

/-- The confidential partition whose register the host die may not reach (R487, R594). -/
def State.hidden (s : State) (a : Nat) : Option Nat :=
  match regAt (homeReg a) with
  | none => if a < 0x30000000000 + 24 * 0x1000000 ∧ s.confidential ((a - 0x30000000000) / 0x2000000) then some ((a - 0x30000000000) / 0x2000000) else none
  | some (d, _) =>
    let o := a % 0x1000000000
    if o < 24 * 0x1000000 then
      let p := o / 0x2000000
      if s.confidential p ∧ d.name ≠ .ctCap then some p else none
    else if 0x100000000 ≤ o ∧ o < 0x100000000 + 12 * 0x1000000 then
      let p := (o - 0x100000000) / 0x1000000
      let no : Bool := match d.name with
        | .phClasp | .phClasptaint | .phSeed | .phJstat | .phRecord | .phReplay | .phReplaydiv => true
        | _ => false
      if s.confidential p && no then some p else none
    else none

/-- A load or store of the register region. Registers are read in part or in whole; a store that is not one whole register takes an access
fault (log entry 44). -/
def State.hostReg (s : State) (write : Bool) (a n : Nat) (data : List Byte) : State :=
  if 8 < a % 8 + n ∨ !s.domOn (blockDomain a) ∨ s.boot.held = 5 then s.answer .fault
  else
    let r := a / 8 * 8
    match s.hidden r with
    | some p => (s.hostRefused p).answer (if write then .none else .bytes (zeros n))
    | none =>
      if write then
        if n = 8 ∧ data.length = 8 then (s.regStore r (BitVec.ofNat 64 (leNat data)) .host).answer .none else s.answer .fault
      else
        let q := s.regLoad r
        q.2.evSettle.answer (.bytes (fitBytes n ((natLe 8 q.1.toNat).drop (a % 8))))

/-- HOST_ACCESS (R37 to R39): a load answers its bytes; bad data or a refusal is an access fault. -/
def execHostAccess (write : Bool) (addr len : Nat) (data : List Byte) (s : State) : Host.Outcome State Fault Refusal :=
  .next (
    if !s.domOn 96 ∨ len = 0 ∨ 64 < len ∨ (write ∧ data.length ≠ len) then s
    else
      match regionOf addr with
      | .intake c =>
        let off := (addr - 0x31000000000) % 0x10000
        if write then leaves s (execIntakeStore s.gtime c off data) else leaves s (execCsbRead c off len)
      | .regs => s.hostReg write addr len data
      | .mgmt => s.answer .fault
      | _ =>
        match s.memWay addr len with
        | .wait => s
        | .fault none => s.answer .fault
        | .fault (some p) => (s.hostRefused p).answer .fault
        | .go =>
          if write then (s.store none addr data).answer .none
          else
            let r := s.readMem 0 addr len
            match r.data with
            | some bs => r.st.answer (.bytes bs)
            | none => r.st.answer .fault)

end Sys2Proof.Machine
end

