-- ==== Sys2Proof/Machine/Port.lean ====
section
/-!
DEFINITION. The management port: the I3C commands of the tray controller and the files of the management Ethernet (R450 to R455, R583,
R584, R613, R630).
-/

namespace Sys2Proof.Machine

/-! ### The I3C target (R450, R451) -/

/-- Whether the owner's port of a kind answers, by the bit of its path in SELFTEST: 3 I3C, 4 Ethernet (R443, R444). -/
def State.portUp (s : State) (path : Nat) : Bool :=
  match s.activeDie with
  | none => false
  | some d => !(s.flag hmRoleA hmRoleDegraded && (s.fld (hmDiestatA d) hmDiestatSelftest).testBit path)

/-- The response to an I3C command: its result byte and the bytes after it. -/
def State.i3cAnswer (s : State) (code : Nat) (bs : List Byte) : State := s.answer (.bytes (natLe 1 code ++ bs))

/-- Whether `n` words from an address lie in the management-only space. -/
def inMgmt (a n : Nat) : Bool := decide (a % 8 = 0) && decide (0x3F000000000 ≤ a) && decide (a + 8 * n ≤ 0x40000000000)

/-- REG_READ (R451). -/
def execRegRead (addr count : Nat) (s : State) : Host.Outcome State Fault Refusal :=
  .next (if !s.portUp 3 then s
    else if count = 0 ∨ 32 < count then s.i3cAnswer 2 []
    else if !inMgmt addr count then s.i3cAnswer 1 []
    else s.i3cAnswer 0 ((List.range count).flatMap (fun i => natLe 8 (s.regView (addr + 8 * i)).toNat)))

/-- Whether a word of the tray is ignored in part: an ST field, an FX field after bring-up, an overlay clear outside RMA, or a register
that the tray may not write (R13, R451, R491, R535). -/
def State.trayIgnored (s : State) (a : Nat) (v : Word) : Bool :=
  !s.arrives .tray a || s.ignores a v ||
    (decide (a = hmSfctlA) && decide (fget v hmSfctlClear ≠ 0) && decide (s.fld lkStateA lkStateLifecycle ≠ 2))

/-- The words that a REG_WRITE carries, in address order, with whether one so far was refused. -/
def State.trayWords (s : State) (addr : Nat) (words : List Word) : State × Bool :=
  (words.zip (List.range words.length)).foldl (fun x w =>
    let a := addr + 8 * w.2
    (x.1.regStore a w.1 .tray, x.2 || x.1.trayIgnored a w.1)) (s, false)

/-- REG_WRITE (R451). -/
def execRegWrite (now addr : Nat) (words : List Word) (s : State) : Host.Outcome State Fault Refusal :=
  .next (let s := s.advance now
    if !s.portUp 3 then s
    else if words.isEmpty ∨ 32 < words.length then s.i3cAnswer 2 []
    else if !inMgmt addr words.length then s.i3cAnswer 1 []
    else
      let q := s.trayWords addr words
      q.1.i3cAnswer (if q.2 then 4 else 0) [])

/-- PKT (R215, R451): one packet for the management context, admitted or dropped whole. -/
def execPkt (now : Nat) (bytes : List Byte) (s : State) : Host.Outcome State Fault Refusal :=
  .next (let s := s.advance now
    if !s.portUp 3 then s
    else if bytes.length < 64 ∨ 2048 < bytes.length ∨ bytes.length ≠ 64 * frameLen bytes then s.i3cAnswer 2 []
    else
      let x := s.ctx 800
      if frameLen bytes ≤ s.free_ 800 then (s.setCtx 800 { x with ready := x.ready ++ [bytes], lastUnit := s.gtime }).i3cAnswer 0 []
      else (s.setCtx 800 { x with dropPkts := satAdd (two32 - 1) x.dropPkts 1 }).i3cAnswer 5 [])

/-- REPLY (R451, R452): the held reply with an RSEQ, or else the next one that has not been read. -/
def execReply (rseq : Option Nat) (s : State) : Host.Outcome State Fault Refusal :=
  .next (if !s.portUp 3 then s
    else
      let held : Nat → Bool := fun r => s.mgmt.replies.any (fun q => decide (q.1 = r))
      let want := match rseq with
        | some r => some (r % two32)
        | none => s.mgmt.unread.find? held
      match want.bind (fun r => s.mgmt.replies.find? (fun q => decide (q.1 = r))) with
      | none => s.i3cAnswer 3 []
      | some (r, bs) =>
        ({ s with mgmt := { s.mgmt with unread := s.mgmt.unread.filter (fun u => decide (u ≠ r) && held u) } }).i3cAnswer 0 (fitBytes 64 bs))

/-- CSB (R236, R451). -/
def execCsb (s : State) : Host.Outcome State Fault Refusal :=
  .next (if !s.portUp 3 then s else s.i3cAnswer 0 (s.csbOf 800))

/-- TELEM (R451, R455): the latest block; the read waits on no die. -/
def execTelem (s : State) : Host.Outcome State Fault Refusal :=
  .next (if !s.portUp 3 then s else s.i3cAnswer 0 (fitBytes 128 s.mgmt.telem))

/-- EVENTS (R451, R453): up to 16 tray event records are read; ALERT_N rises with the last of them. -/
def execEvents (s : State) : Host.Outcome State Fault Refusal :=
  .next (if !s.portUp 3 then s
    else
      let q := s.mgmt.events.take 16
      let s1 : State := { s with mgmt := { s.mgmt with events := s.mgmt.events.drop 16 } }
      (s1.alertLine).i3cAnswer 0 (natLe 1 q.length ++ q.flatMap (fitBytes 8)))

/-- I3C_DYNAMIC_ADDRESS (R450, R613). -/
def execI3cDynamicAddress (addr : Nat) (s : State) : Host.Outcome State Fault Refusal :=
  .next (if !s.portUp 3 ∨ 128 ≤ addr then s else { s with mgmt := { s.mgmt with i3c := addr } })

/-! ### The files of the management Ethernet (R454) -/

/-- Whether Locket accepts every image of a staged bundle (R463, R630); a bundle must fit its bank (R539). -/
def State.stagedGood (s : State) (bundle : List Byte) : Bool :=
  decide (64 ≤ bundle.length) && decide (bundle.length ≤ 0x1800000) &&
    (List.range 6).all (fun ty => Config.stagedOk bundle ty &&
      decide (s.fld (lkSvnA ty) lkSvnMinsvn ≤ Config.imageSvn (leAt bundle 8 8) ty))

/-- FW_STAGE (R630): the write and its verification, whole; the bundle version is that of the first image's header (R462). -/
def execFwStage (now : Nat) (bundle : List Byte) (s : State) : Host.Outcome State Fault Refusal :=
  .next (let s := s.advance now
    if !s.portUp 4 then s
    else
      let bank := 1 - s.fld lkStateA lkStateBank
      let v := leAt bundle 8 8
      let good := s.stagedGood bundle
      let s1 : State := { s with flash := { s.flash with
          banks := [0, 1].map (fun i => if i = bank then (v, good) else s.flash.banks.getD i (0, false)), staged := some (bank, v, good),
          next := if good then bank else if s.flash.next % 2 = bank then 1 - bank else s.flash.next } }
      let s2 := (s1.setFld hmFwstatA hmFwstatStagedOk (b2n good)).setFld hmFwstatA hmFwstatStagedBad (b2n !good)
      s2.setFld hmFwstatA hmFwstatStagedBundle (v % two32))

/-- DUMP_READ (R454, R583, R584): the file dump/`n`; a dump that is not held is refused. -/
def execDumpRead (n : Nat) (s : State) : Host.Outcome State Fault Refusal :=
  .next (if !s.portUp 4 then s
    else
      match s.dumps.find? (fun d => decide (d.num = n)) with
      | none => s.answer .none
      | some d => s.answer (.bytes d.body))

/-- The records of the uncorrectable logs and of the abort log, as their registers show them (R183, R345; log entry 45). -/
def State.errorFile (s : State) : List Byte :=
  let ue := (List.range 14).flatMap (fun d => (kvGet [] s.uelog d).flatMap (fun r =>
    natLe 8 (fsets 0 [(phUelogAddr, r.addr), (phUelogKind, r.kind), (phUelogSource, r.source)]).toNat))
  ue ++ (kvGet [] s.aborts 0).flatMap (fun r => natLe 8 r.word.toNat ++ natLe 8 r.time)

/-- LOG_READ (R454): 0 log/events, 1 log/errors, 2 log/wear; every other name is refused. -/
def execLogRead (which : Nat) (s : State) : Host.Outcome State Fault Refusal :=
  .next (if !s.portUp 4 then s
    else if which = 0 then s.answer (.bytes (s.mgmt.log.flatMap (fitBytes 8)))
    else if which = 1 then s.answer (.bytes s.errorFile)
    else if which = 2 then
      let m := s.mcbNow 0
      let hist := (List.range 114).flatMap (fun i => fitBytes 512 ((m.hist.getD i []).flatMap (fun d => natLe 2 d.1 ++ natLe 2 d.2)))
      s.answer (.bytes (hist ++ wordsBytes 114 ((List.range 114).map (fun i => s.reg (hmWearA i)))))
    else s.answer .none)

end Sys2Proof.Machine
end

