-- ==== Sys2Proof/Machine/Configure.lean ====
section
/-!
DEFINITION. Configuration transactions (R149, R150, R200, R210, R230, R286 to R288, R336, R344, R347 to R349, R471, R486, R487, R548 to
R553).
-/

namespace Sys2Proof.Machine

/-! ### Scopes and their fields (R286, R548) -/

/-- The context that a copy of PH.CTXCFG or PH.SEED belongs to: hub and local index (R250). -/
def State.ctxAt (s : State) (i k : Nat) : Option Nat :=
  if k < 64 then some (64 * i + k) else if i = s.adminHub then some (704 + k) else none

/-- The scope word of a register's ST fields. No register of a partition beyond its contexts' has one, so the scope of kind 4 is
empty. -/
def State.scopeOf (s : State) (d : RegDef) (is : List Nat) : Option Nat :=
  let ctx := s.ctxAt (is.getD 0 0) (is.getD 1 0)
  match d.name with
  | .phCtxcfg0 | .phCtxcfg1 | .phCtxcfg2 => ctx.map (fun c => 1 + 65536 * c)
  | .phSeed => ctx.map (fun c => 2 + 65536 * c)
  | .tdSeg => some 3
  | .fdSlicedir | .fdRoute | .fdRankmap | .fdMcast | .fdTreedef => some 5
  | .mcbRec | .mcbRecValue => some 6
  | _ => none

/-- Whether a field's range takes a value: an administration context has 1,024 clasps (R250). -/
def stTakes (d : RegDef) (is : List Nat) (f : RegField) (v : Nat) : Bool :=
  f.takes v && (decide (d.name ≠ .phCtxcfg0) || decide (is.getD 1 0 < 64) ||
    !(decide (f.fld = phCtxcfg0ClaspLo) || decide (f.fld = phCtxcfg0ClaspHi)) || decide (v < 1024))

/-- What a CFG_SET names: its field's register and field, where it is an ST field of the scope that takes the value. The slice tables
are written at FD0's addresses (R345). -/
def State.stField (s : State) (scope a lo width v : Nat) : Option (RegDef × RegField) :=
  let h := homeReg a
  if h ≠ a ∧ 0x30200000000 ≤ a ∧ a < 0x30300000000 then none
  else
    match regAt h with
    | none => none
    | some (d, is) =>
      match fieldAt d lo width with
      | none => none
      | some f => if fieldAcc d is f = .st ∧ s.scopeOf d is = some scope ∧ stTakes d is f v then some (d, f) else none

/-! ### Transactions (R287, R288, R551) -/

/-- The transaction that a command names, or the status it retires with. -/
def State.txnFor (s : State) (ctx num : Nat) : Txn ⊕ Status :=
  match s.txns.find? (fun t => decide (t.num = num)) with
  | none => .inr .rejectedFormat
  | some t => if t.opener ≠ ctx then .inr .rejectedPerm else if t.commit.isSome then .inr .busy else .inl t

/-- Replaces a transaction by its number. -/
def State.setTxn (s : State) (t : Txn) : State := { s with txns := s.txns.map (fun u => if u.num = t.num then t else u) }

/-- Closes a transaction; its opener's firmware holds one less (R554). -/
def State.closeTxn (s : State) (t : Txn) : State :=
  let s1 : State := { s with txns := s.txns.filter (fun u => decide (u.num ≠ t.num)) }
  let a := s1.cfgstatOf t.opener
  s1.setFld a phCfgstatOpen (s1.fld a phCfgstatOpen - 1)

/-- CFG_BEGIN (R286 to R288, R487, R551): a sealed context's scopes open for that context alone. -/
def execCfgBegin (now ctx cseq : Nat) (s : State) : Host.Outcome State Fault Refusal :=
  .next (let s := s.advance now
    s.withBody ctx cseq .cfgBegin (fun c =>
      let w := par c.packet 0 4
      let inst := bits w 16 16
      let shut := decide (bits w 0 16 = 1 ∨ bits w 0 16 = 2) && decide ((s.ctx inst).session ≠ 0) &&
        !(decide (inst = ctx) && decide (bits w 0 16 = 2))
      if shut then s.fail ctx cseq .rejectedPerm
      else if s.txns.any (fun t => decide (t.scope = w)) then s.fail ctx cseq .busy
      else
        let n := s.nextTxn
        let s1 : State := { s with txns := s.txns ++ [⟨n, w, ctx, [], s.gtime, none⟩], nextTxn := n + 1 }
        let a := s1.cfgstatOf ctx
        (s1.setFld a phCfgstatOpen (s1.fld a phCfgstatOpen + 1)).finish ctx cseq .ok noDetail (n % two32)))

/-- A staged set with one field's value put in: a second value of a field replaces the first; none beyond 4,096 fields. -/
def stagePut (staged : List (Nat × Nat × Nat × Nat)) (a lo width v : Nat) : Option (List (Nat × Nat × Nat × Nat)) :=
  let same : Nat × Nat × Nat × Nat → Bool := fun q => decide (homeReg q.1 = homeReg a ∧ q.2.1 = lo)
  if staged.any same then some (staged.map (fun q => if same q then (homeReg a, lo, width, v) else q))
  else if 4096 ≤ staged.length then none
  else some (staged ++ [(homeReg a, lo, width, v)])

/-- Whether a CFG_SET meets a rights field of a sealed context: every field of its scope but WAIT_LIMIT (R210). -/
def State.sealedRights (s : State) (t : Txn) (d : RegDef) (f : RegField) : Bool :=
  decide (bits t.scope 0 16 = 1) && decide ((s.ctx (bits t.scope 16 16)).session ≠ 0) &&
    !(decide (d.name = .phCtxcfg2) && decide (f.fld = phCtxcfg2WaitLimit))

/-- CFG_SET (R210, R287, R288, R551). -/
def execCfgSet (now ctx cseq : Nat) (s : State) : Host.Outcome State Fault Refusal :=
  .next (let s := s.advance now
    s.withBody ctx cseq .cfgSet (fun c =>
      let a := par c.packet 8 8
      let lo := par c.packet 16 1
      let width := par c.packet 17 1
      let v := par c.packet 24 8
      match s.txnFor ctx (par c.packet 0 4) with
      | .inr st => s.fail ctx cseq st
      | .inl t =>
        let s1 := s.setTxn { t with used := s.gtime }
        match s.stField t.scope a lo width v with
        | none => s1.fail ctx cseq .rejectedFormat
        | some (d, f) =>
          if s.sealedRights t d f then s1.fail ctx cseq .rejectedPerm
          else
            match stagePut t.staged a lo width v with
            | none => s1.fail ctx cseq .rejectedFormat
            | some q => (s.setTxn { t with used := s.gtime, staged := q }).finish ctx cseq .ok noDetail 0))

/-- CFG_GET (R288): the bits of a register as a read returns it; the read changes nothing. -/
def execCfgGet (ctx cseq : Nat) (s : State) : Host.Outcome State Fault Refusal :=
  .next (s.withBody ctx cseq .cfgGet (fun c =>
    s.finish ctx cseq .ok noDetail (bits (s.regView (par c.packet 8 8)).toNat (par c.packet 16 1) (par c.packet 17 1))))

/-- CFG_ROLLBACK (R287, R288). -/
def execCfgRollback (now ctx cseq : Nat) (s : State) : Host.Outcome State Fault Refusal :=
  .next (let s := s.advance now
    s.withBody ctx cseq .cfgRollback (fun c =>
      match s.txnFor ctx (par c.packet 0 4) with
      | .inr st => s.fail ctx cseq st
      | .inl t => (s.closeTxn t).finish ctx cseq .ok noDetail t.staged.length))

/-! ### Checks at a commit (R230, R349, R486, R553) -/

/-- The registers with a staged set applied, in all copies of each field. -/
def State.withStaged (s : State) (staged : List (Nat × Nat × Nat × Nat)) : State :=
  staged.foldl (fun s q => s.setFld q.1 ⟨q.2.1, q.2.2.1⟩ q.2.2.2) s

/-- Whether a context's reply ring lies in segments with OWNER 12, from a multiple of 4 KiB (R230). -/
def State.ringGood (s : State) (c : Nat) : Bool :=
  let b := s.cfg1 c phCtxcfg1RingBase
  let last := b + s.slotsOf c * (64 * (1 + s.cfg0 c phCtxcfg0Wide)) - 1
  aligned 4096 b && decide (regionOf b = .tier) && decide (regionOf last = .tier) &&
    (List.range (segOf last + 1 - segOf b)).all (fun i => decide (s.segOwner (segOf b + i) = 12))

/-- Directory entries of which a staged set touches the entry itself, the rank map or a TREEDEF (R347, R349). -/
def treeEntries (staged : List (Nat × Nat × Nat × Nat)) : List Nat :=
  stagedEntries (staged.filter (fun q => !(decide (fdMcastA 0 0 ≤ q.1) && decide (q.1 < fdMcastA 64 0)) &&
    !(decide (fdRouteA 0 0 ≤ q.1) && decide (q.1 < fdRouteA 64 0))))

/-- Directory entries of which a staged set touches a field of the entry itself (R344). -/
def dirEntries (staged : List (Nat × Nat × Nat × Nat)) : List Nat :=
  stagedEntries (staged.filter (fun q => decide (fdSlicedirA 0 ≤ q.1) && decide (q.1 < fdSlicedirA 64)))

/-- The records of the MCB image that a staged set edits. -/
def editedRecs (staged : List (Nat × Nat × Nat × Nat)) : List Nat :=
  (staged.map (fun q => (q.1 - mcbRecA 0) / 16)).eraseDups

/-- The check of a staged set at its commit, on the registers as they would stand: a status where it breaks a rule. -/
def State.commitCheck (s : State) (t : Txn) : Option Status :=
  let w := s.withStaged t.staged
  match bits t.scope 0 16 with
  | 1 => if w.ringGood (bits t.scope 16 16) then none else some .rejectedFormat
  | 5 =>
    let es := stagedEntries t.staged
    if es.any (fun i => s.flag (fdSlicedirA i) fdSlicedirSealed) then some .rejectedPerm
    else if (treeEntries t.staged).isEmpty then none
    else if es.all (fun i => w.entryCheck i) && decide (w.trayCount ≤ 1) then none
    else some .rejectedFormat
  | 6 =>
    let bad := (editedRecs t.staged).any (fun i =>
      let o := recCheck (w.fld (mcbRecA i) mcbRecAddr, w.fld (mcbRecA i) mcbRecLo, w.fld (mcbRecA i) mcbRecWidth,
        (w.reg (mcbRecValueA i)).toNat)
      decide (o = .skipped) || decide (o = .clamped))
    if bad then some .rejectedFormat else none
  | _ => none

/-- CFG_COMMIT (R288, R549, R552): the staged set is checked, and the look-out for the safe point begins. -/
def execCfgCommit (now ctx cseq : Nat) (s : State) : Host.Outcome State Fault Refusal :=
  .next (let s := s.advance now
    s.withBody ctx cseq .cfgCommit (fun c =>
      match s.txnFor ctx (par c.packet 0 4) with
      | .inr st => s.fail ctx cseq st
      | .inl t =>
        if 5 ≤ bits t.scope 0 16 ∧ !s.hasiaUp then s
        else
          match s.commitCheck t with
          | some st => (s.closeTxn t).fail ctx cseq st
          | none => (s.setTxn { t with used := s.gtime, commit := some (cseq, c.tStart) }).issue ctx cseq 0))

/-! ### The safe point (R200, R336, R548, R549) -/

/-- Whether a bead of one of a set of slices is buffered in the module. -/
def State.sliceBuffered (s : State) (es : List Nat) : Bool :=
  let sl := (es.map (fun i => s.fld (fdSlicedirA i) fdSlicedirSlice)).filter (fun v => decide (v ≠ 0))
  let mine : Bead → Bool := fun b => sl.contains b.slice
  s.links.any (fun e => e.2.inbox.any (fun b => mine b.1) || e.2.outbox.any (fun m => m.1.any mine) ||
    e.2.retry.any (fun f => f.2.1.any mine)) ||
  s.folds.any (fun f => es.contains f.entry) || s.colls.any (fun k => es.contains k.entry && !k.kept.isEmpty)

/-- Whether a Valid journal slot holds a block of one of a set of tier segments (R548). -/
def State.slotIn (s : State) (segs : List Nat) : Bool :=
  s.holds.any (fun h => h.used.any (fun u => match regionOf (4096 * u.1) with
    | .tier => segs.contains (segOf (4096 * u.1))
    | _ => false))

/-- Whether a press group that is queued or running reads one of a set of tier segments (R200). -/
def State.pressIn (s : State) (segs : List Nat) : Bool :=
  let hit : PressGroup → Bool := fun g => g.pages.any (fun q => match regionOf q.1 with
    | .tier => segs.contains (segOf q.1)
    | _ => false)
  s.pressQ.any (fun e => e.2.any hit) || s.presses.any (fun e => e.2.group.any hit)

/-- Whether a commit's quiescence holds: no started, unretired command but the commit itself breaks it (R548). -/
def State.quiet (s : State) (t : Txn) (cseq t0 : Nat) : Bool :=
  let busy := s.ctxs.any (fun e => e.2.running.any (fun k => !(decide (e.1 = t.opener ∧ k.cseq = cseq)) && s.breaksQuiet t e.1 k))
  match bits t.scope 0 16 with
  | 1 | 4 => !busy
  | 3 => !busy && !s.slotIn (s.stagedSegs t.staged) && !s.pressIn (s.stagedSegs t.staged)
  | 5 => s.hasiaUp && !busy && !s.sliceBuffered (stagedEntries t.staged)
  | 6 => s.hasiaUp && decide (t0 ≤ s.mgmt.cycleAt)
  | _ => true

/-- A segment's change of owner starts its zero fill (R150). -/
def State.fillSeg (s : State) (g : Nat) : State :=
  ({ s with fills := kvSet none s.fills g (some s.gtime) }).setFld (tdSegA g) tdSegFilling 1

/-- The partitions of a slice's entry. -/
def State.entryParts (s : State) (i : Nat) : List Nat := maskParts (s.fld (fdSlicedirA i) fdSlicedirPartmask)

/-- A commit's staged fields land, with what the change of scope brings (R150, R344, R347, R385, R471, R486, R553). -/
def State.land (s : State) (t : Txn) : State :=
  let inst := bits t.scope 16 16
  let w := s.withStaged t.staged
  match bits t.scope 0 16 with
  | 1 => if inst < 768 ∧ !t.staged.isEmpty then w.measurePart (partOf inst) else w
  | 2 =>
    let r := s.recorder (partOf inst)
    if inst < 768 ∧ r.recActive ∧ r.recCtx = inst ∧ s.seedBytes inst ≠ w.seedBytes inst then
      w.recPut (partOf inst) 1 0 (w.seedBytes inst)
    else w
  | 3 =>
    let segs := s.stagedSegs t.staged
    let w1 := segs.foldl State.fillSeg w
    let parts := (segs.map s.segOwner ++ segs.map w.segOwner).filter (fun p => decide (p < 12))
    parts.eraseDups.foldl State.measurePart w1
  | 5 =>
    let w1 := (dirEntries t.staged).foldl (fun (s : State) i =>
      (s.setFld (fdSlicedirA i) fdSlicedirAborted 0).setFld (fdCollstatA i) fdCollstatNextColl 0) w
    let w2 := ((treeEntries t.staged).foldl State.deriveTrees w1).sealEntries
    let parts := (stagedEntries t.staged).flatMap (fun i => s.entryParts i ++ w.entryParts i)
    parts.eraseDups.foldl State.measurePart w2
  | 6 =>
    let top := maxNat ((editedRecs t.staged).map (fun i => if w.fld (mcbRecA i) mcbRecWidth = 0 then 0 else i + 1))
    (w.setFld mcbHdrA mcbHdrNrec (max (w.fld mcbHdrA mcbHdrNrec) top)).oweMcb
  | _ => w

/-- The transaction with a number whose commit looks for its safe point. -/
def State.committing (s : State) (num : Nat) : Option (Txn × Nat × Nat) :=
  (s.txns.find? (fun t => decide (t.num = num))).bind (fun t => t.commit.map (fun k => (t, k)))

/-- COMMIT_SAFE_POINT (R549): every staged field is applied at once, the held commands are released, and the transaction closes. -/
def execCommitSafePoint (now txn : Nat) (s : State) : Host.Outcome State Fault Refusal :=
  .next (let s := s.advance now
    match s.committing txn with
    | none => s
    | some (t, cs, t0) =>
      if !s.quiet t cs t0 then s
      else ((s.land t).closeTxn t).finish t.opener cs .ok noDetail t.staged.length)

/-- COMMIT_BUSY_EXPIRE (R549): the transaction stays open; its 10 s begin again (R551). -/
def execCommitBusyExpire (now txn : Nat) (s : State) : Host.Outcome State Fault Refusal :=
  .next (let s := s.advance now
    match s.committing txn with
    | none => s
    | some (t, cs, t0) =>
      if s.gtime < t0 + 50000000 ∨ s.quiet t cs t0 ∨ (5 ≤ bits t.scope 0 16 ∧ !s.hasiaUp) then s
      else (s.setTxn { t with commit := none, used := s.gtime }).fail t.opener cs .commitBusy)

/-- TRANSACTION_ABANDON (R551): after 10 s without use. -/
def execTransactionAbandon (now txn : Nat) (s : State) : Host.Outcome State Fault Refusal :=
  .next (let s := s.advance now
    match s.txns.find? (fun t => decide (t.num = txn)) with
    | none => s
    | some t =>
      if t.commit.isSome ∨ s.gtime < t.used + 10000000000 then s
      else ((s.closeTxn t).addSat (s.cfgstatOf t.opener) phCfgstatAbandoned 1).raise (32 * 94 + 3))

end Sys2Proof.Machine
end

