-- ==== Sys2Proof/Machine/Dispatch.lean ====
section
/-!
DEFINITION. One arm per command: each is one call of the command's meaning.
-/

namespace Sys2Proof.Machine

/-- The effect of a command on everything but the queue. -/
def exec (i : Instr) (s : State) : Host.Outcome State Fault Refusal :=
  match i with
  | .intakeStore now ctx off data => Sys2Proof.Machine.execIntakeStore now ctx off data s
  | .intakeAbandon now ctx => Sys2Proof.Machine.execIntakeAbandon now ctx s
  | .packetCheck ctx => Sys2Proof.Machine.execPacketCheck ctx s
  | .csbRead ctx off len => Sys2Proof.Machine.execCsbRead ctx off len s
  | .commandStart now ctx => Sys2Proof.Machine.execCommandStart now ctx s
  | .commandRetire now ctx => Sys2Proof.Machine.execCommandRetire now ctx s
  | .waitLimitExpire now ctx => Sys2Proof.Machine.execWaitLimitExpire now ctx s
  | .move ctx cseq => Sys2Proof.Machine.execMove ctx cseq s
  | .fill ctx cseq => Sys2Proof.Machine.execFill ctx cseq s
  | .gather ctx cseq => Sys2Proof.Machine.execGather ctx cseq s
  | .scatter ctx cseq => Sys2Proof.Machine.execScatter ctx cseq s
  | .matmul ctx cseq => Sys2Proof.Machine.execMatmul ctx cseq s
  | .matmulAcc ctx cseq => Sys2Proof.Machine.execMatmulAcc ctx cseq s
  | .convert ctx cseq => Sys2Proof.Machine.execConvert ctx cseq s
  | .run ctx cseq => Sys2Proof.Machine.execRun ctx cseq s
  | .runWait ctx cseq => Sys2Proof.Machine.execRunWait ctx cseq s
  | .attnPages ctx cseq => Sys2Proof.Machine.execAttnPages ctx cseq s
  | .kvAppend ctx cseq => Sys2Proof.Machine.execKvAppend ctx cseq s
  | .kvEvict ctx cseq => Sys2Proof.Machine.execKvEvict ctx cseq s
  | .allreduce ctx cseq => Sys2Proof.Machine.execAllreduce ctx cseq s
  | .reduce ctx cseq => Sys2Proof.Machine.execReduce ctx cseq s
  | .bcast ctx cseq => Sys2Proof.Machine.execBcast ctx cseq s
  | .allgather ctx cseq => Sys2Proof.Machine.execAllgather ctx cseq s
  | .barrier ctx cseq => Sys2Proof.Machine.execBarrier ctx cseq s
  | .wait ctx cseq => Sys2Proof.Machine.execWait ctx cseq s
  | .signal ctx cseq => Sys2Proof.Machine.execSignal ctx cseq s
  | .signalRemote ctx cseq => Sys2Proof.Machine.execSignalRemote ctx cseq s
  | .cfgBegin now ctx cseq => Sys2Proof.Machine.execCfgBegin now ctx cseq s
  | .cfgSet now ctx cseq => Sys2Proof.Machine.execCfgSet now ctx cseq s
  | .cfgGet ctx cseq => Sys2Proof.Machine.execCfgGet ctx cseq s
  | .cfgCommit now ctx cseq => Sys2Proof.Machine.execCfgCommit now ctx cseq s
  | .commitSafePoint now txn => Sys2Proof.Machine.execCommitSafePoint now txn s
  | .commitBusyExpire now txn => Sys2Proof.Machine.execCommitBusyExpire now txn s
  | .cfgRollback now ctx cseq => Sys2Proof.Machine.execCfgRollback now ctx cseq s
  | .transactionAbandon now txn => Sys2Proof.Machine.execTransactionAbandon now txn s
  | .hintPhase now ctx cseq => Sys2Proof.Machine.execHintPhase now ctx cseq s
  | .capRequest now ctx cseq => Sys2Proof.Machine.execCapRequest now ctx cseq s
  | .capRequestTimeout now ctx cseq => Sys2Proof.Machine.execCapRequestTimeout now ctx cseq s
  | .managementWaitTimeout now ctx cseq => Sys2Proof.Machine.execManagementWaitTimeout now ctx cseq s
  | .capQuery ctx cseq => Sys2Proof.Machine.execCapQuery ctx cseq s
  | .cntEnable ctx cseq => Sys2Proof.Machine.execCntEnable ctx cseq s
  | .cntRead ctx cseq => Sys2Proof.Machine.execCntRead ctx cseq s
  | .cameo ctx cseq => Sys2Proof.Machine.execCameo ctx cseq s
  | .cameoDump now p => Sys2Proof.Machine.execCameoDump now p s
  | .cameoCancel ctx cseq => Sys2Proof.Machine.execCameoCancel ctx cseq s
  | .sessionOpen now ctx cseq => Sys2Proof.Machine.execSessionOpen now ctx cseq s
  | .sessionClose now ctx cseq => Sys2Proof.Machine.execSessionClose now ctx cseq s
  | .quote now ctx cseq => Sys2Proof.Machine.execQuote now ctx cseq s
  | .keyRotate now ctx cseq => Sys2Proof.Machine.execKeyRotate now ctx cseq s
  | .fence ctx cseq => Sys2Proof.Machine.execFence ctx cseq s
  | .resume ctx cseq => Sys2Proof.Machine.execResume ctx cseq s
  | .ctxReset ctx cseq => Sys2Proof.Machine.execCtxReset ctx cseq s
  | .statusQuery ctx cseq => Sys2Proof.Machine.execStatusQuery ctx cseq s
  | .recordStart ctx cseq => Sys2Proof.Machine.execRecordStart ctx cseq s
  | .recordStop ctx cseq => Sys2Proof.Machine.execRecordStop ctx cseq s
  | .replayStart ctx cseq => Sys2Proof.Machine.execReplayStart ctx cseq s
  | .replayFeed p => Sys2Proof.Machine.execReplayFeed p s
  | .replayEnd p => Sys2Proof.Machine.execReplayEnd p s
  | .meqPush tile hart rd rs1 rs2 => Sys2Proof.Machine.execMeqPush tile hart rd rs1 rs2 s
  | .mvqPush tile hart rd rs1 rs2 => Sys2Proof.Machine.execMvqPush tile hart rd rs1 rs2 s
  | .claspWait now tile hart rd rs1 rs2 irq => Sys2Proof.Machine.execClaspWait now tile hart rd rs1 rs2 irq s
  | .claspWaitTimeout now tile hart => Sys2Proof.Machine.execClaspWaitTimeout now tile hart s
  | .claspAdd tile hart rd rs1 rs2 => Sys2Proof.Machine.execClaspAdd tile hart rd rs1 rs2 s
  | .evtRaise tile hart rs1 => Sys2Proof.Machine.execEvtRaise tile hart rs1 s
  | .cntSnap tile hart rd rs1 => Sys2Proof.Machine.execCntSnap tile hart rd rs1 s
  | .pipAccess tile hart kind addr len data => Sys2Proof.Machine.execPipAccess tile hart kind addr len data s
  | .pipTrapUnhandled tile hart cause => Sys2Proof.Machine.execPipTrapUnhandled tile hart cause s
  | .pipExit tile hart code => Sys2Proof.Machine.execPipExit tile hart code s
  | .cameoName tile hart n addr len fmt => Sys2Proof.Machine.execCameoName tile hart n addr len fmt s
  | .hostAccess write addr len data => Sys2Proof.Machine.execHostAccess write addr len data s
  | .meDescriptorStart tile me => Sys2Proof.Machine.execMeDescriptorStart tile me s
  | .meDescriptorComplete tile me => Sys2Proof.Machine.execMeDescriptorComplete tile me s
  | .meOwnerChangeLand tile me => Sys2Proof.Machine.execMeOwnerChangeLand tile me s
  | .moverDescriptorStart tile mv => Sys2Proof.Machine.execMoverDescriptorStart tile mv s
  | .moverChunk now tile mv => Sys2Proof.Machine.execMoverChunk now tile mv s
  | .moverDescriptorComplete tile mv => Sys2Proof.Machine.execMoverDescriptorComplete tile mv s
  | .ackTimeout now tile mv msgseq => Sys2Proof.Machine.execAckTimeout now tile mv msgseq s
  | .pipReset now tile hart by_ => Sys2Proof.Machine.execPipReset now tile hart by_ s
  | .pipResetDrainExpire now tile hart => Sys2Proof.Machine.execPipResetDrainExpire now tile hart s
  | .meGroupReset now tile grp by_ completes => Sys2Proof.Machine.execMeGroupReset now tile grp by_ completes s
  | .meGroupPowerCycle now tile grp => Sys2Proof.Machine.execMeGroupPowerCycle now tile grp s
  | .moverAbort tile mv by_ => Sys2Proof.Machine.execMoverAbort tile mv by_ s
  | .unitFaultPop tile mover unit by_ => Sys2Proof.Machine.execUnitFaultPop tile mover unit by_ s
  | .tsEccClear tile by_ => Sys2Proof.Machine.execTsEccClear tile by_ s
  | .tsScrubRow tile bank upsets => Sys2Proof.Machine.execTsScrubRow tile bank upsets s
  | .memoryRead addr upsets => Sys2Proof.Machine.execMemoryRead addr upsets s
  | .memoryWrite addr data => Sys2Proof.Machine.execMemoryWrite addr data s
  | .memoryScrub addr upsets => Sys2Proof.Machine.execMemoryScrub addr upsets s
  | .memoryRefresh die unit => Sys2Proof.Machine.execMemoryRefresh die unit s
  | .memoryCalibration die unit active => Sys2Proof.Machine.execMemoryCalibration die unit active s
  | .channelRetrain now die unit cause => Sys2Proof.Machine.execChannelRetrain now die unit cause s
  | .channelRetrainEnd die unit ok => Sys2Proof.Machine.execChannelRetrainEnd die unit ok s
  | .eccstatClear die by_ => Sys2Proof.Machine.execEccstatClear die by_ s
  | .uelogPop die by_ => Sys2Proof.Machine.execUelogPop die by_ s
  | .segmentFillComplete now seg => Sys2Proof.Machine.execSegmentFillComplete now seg s
  | .xtsFillComplete now p => Sys2Proof.Machine.execXtsFillComplete now p s
  | .pressGroupDispatch die => Sys2Proof.Machine.execPressGroupDispatch die s
  | .pressGroupComplete die engine => Sys2Proof.Machine.execPressGroupComplete die engine s
  | .pressEngineReset now die engine by_ completes => Sys2Proof.Machine.execPressEngineReset now die engine by_ completes s
  | .pressResetTimeout now die engine => Sys2Proof.Machine.execPressResetTimeout now die engine s
  | .frameReceive now link frame => Sys2Proof.Machine.execFrameReceive now link frame s
  | .retryTimeout now link => Sys2Proof.Machine.execRetryTimeout now link s
  | .laneSwap link rx lane => Sys2Proof.Machine.execLaneSwap link rx lane s
  | .linkFullRetrain now link rttNs placed => Sys2Proof.Machine.execLinkFullRetrain now link rttNs placed s
  | .linkRetrainTimeout now link => Sys2Proof.Machine.execLinkRetrainTimeout now link s
  | .linkDown now link cause => Sys2Proof.Machine.execLinkDown now link cause s
  | .linkTraining now link screenOk => Sys2Proof.Machine.execLinkTraining now link screenOk s
  | .laserFault now src => Sys2Proof.Machine.execLaserFault now src s
  | .linkRetrainOrder now link by_ => Sys2Proof.Machine.execLinkRetrainOrder now link by_ s
  | .linkEnableWrite now link v by_ => Sys2Proof.Machine.execLinkEnableWrite now link v by_ s
  | .msgHead now link m => Sys2Proof.Machine.execMsgHead now link m s
  | .ack now link b => Sys2Proof.Machine.execAck now link b s
  | .claspBead link b => Sys2Proof.Machine.execClaspBead link b s
  | .abortBead now link b => Sys2Proof.Machine.execAbortBead now link b s
  | .sliceAbort now entry cause link => Sys2Proof.Machine.execSliceAbort now entry cause link s
  | .multicastReplicate link m => Sys2Proof.Machine.execMulticastReplicate link m s
  | .redHead now link m => Sys2Proof.Machine.execRedHead now link m s
  | .chunkFold now entry coll chunk => Sys2Proof.Machine.execChunkFold now entry coll chunk s
  | .mcHead now link m => Sys2Proof.Machine.execMcHead now link m s
  | .barUp now link b => Sys2Proof.Machine.execBarUp now link b s
  | .barDown now link b => Sys2Proof.Machine.execBarDown now link b s
  | .barrierRelease now entry => Sys2Proof.Machine.execBarrierRelease now entry s
  | .collectiveTimeout now ctx cseq => Sys2Proof.Machine.execCollectiveTimeout now ctx cseq s
  | .traySyncRise now => Sys2Proof.Machine.execTraySyncRise now s
  | .traySyncRedrive now => Sys2Proof.Machine.execTraySyncRedrive now s
  | .timeBeadSend now link => Sys2Proof.Machine.execTimeBeadSend now link s
  | .timeBead now link b => Sys2Proof.Machine.execTimeBead now link b s
  | .timeParentLoss now => Sys2Proof.Machine.execTimeParentLoss now s
  | .masterTimeTimeout now => Sys2Proof.Machine.execMasterTimeTimeout now s
  | .train now link b => Sys2Proof.Machine.execTrain now link b s
  | .stop now link b => Sys2Proof.Machine.execStop now link b s
  | .referenceLoss => Sys2Proof.Machine.execReferenceLoss s
  | .referenceReturn now => Sys2Proof.Machine.execReferenceReturn now s
  | .estimateStep now p act => Sys2Proof.Machine.execEstimateStep now p act s
  | .telemetrySample now smp => Sys2Proof.Machine.execTelemetrySample now smp s
  | .managementCycle now => Sys2Proof.Machine.execManagementCycle now s
  | .overPowerTrip now => Sys2Proof.Machine.execOverPowerTrip now s
  | .overPowerRelease now => Sys2Proof.Machine.execOverPowerRelease now s
  | .pwrlimAssert now => Sys2Proof.Machine.execPwrlimAssert now s
  | .emergencyCauseTimeout now => Sys2Proof.Machine.execEmergencyCauseTimeout now s
  | .emergencyEnd now => Sys2Proof.Machine.execEmergencyEnd now s
  | .trayCauseReport shelf cool by_ => Sys2Proof.Machine.execTrayCauseReport shelf cool by_ s
  | .inputVoltageEvent now mv durUs => Sys2Proof.Machine.execInputVoltageEvent now mv durUs s
  | .shedStep now => Sys2Proof.Machine.execShedStep now s
  | .thermalTrip die => Sys2Proof.Machine.execThermalTrip die s
  | .domainOffOrder now p => Sys2Proof.Machine.execDomainOffOrder now p s
  | .domainOn now p => Sys2Proof.Machine.execDomainOn now p s
  | .keepalive now p by_ => Sys2Proof.Machine.execKeepalive now p by_ s
  | .keepaliveTimeout now p => Sys2Proof.Machine.execKeepaliveTimeout now p s
  | .trayHeartbeat now v by_ => Sys2Proof.Machine.execTrayHeartbeat now v by_ s
  | .trayHeartbeatLoss now => Sys2Proof.Machine.execTrayHeartbeatLoss now s
  | .opChange op => Sys2Proof.Machine.execOpChange op s
  | .tarnishEval die drift => Sys2Proof.Machine.execTarnishEval die drift s
  | .wearDaily now samples => Sys2Proof.Machine.execWearDaily now samples s
  | .rackOrderWrite now v by_ => Sys2Proof.Machine.execRackOrderWrite now v by_ s
  | .stateImage now seq crcOk => Sys2Proof.Machine.execStateImage now seq crcOk s
  | .heartbeatSilence now => Sys2Proof.Machine.execHeartbeatSilence now s
  | .takeover now fails => Sys2Proof.Machine.execTakeover now fails s
  | .hasiaRestart now => Sys2Proof.Machine.execHasiaRestart now s
  | .swap now by_ => Sys2Proof.Machine.execSwap now by_ s
  | .takeBack now => Sys2Proof.Machine.execTakeBack now s
  | .aoWakeCycle now => Sys2Proof.Machine.execAoWakeCycle now s
  | .regRead addr count => Sys2Proof.Machine.execRegRead addr count s
  | .regWrite now addr words => Sys2Proof.Machine.execRegWrite now addr words s
  | .pkt now bytes => Sys2Proof.Machine.execPkt now bytes s
  | .reply rseq => Sys2Proof.Machine.execReply rseq s
  | .csb => Sys2Proof.Machine.execCsb s
  | .telem => Sys2Proof.Machine.execTelem s
  | .events => Sys2Proof.Machine.execEvents s
  | .i3cDynamicAddress addr => Sys2Proof.Machine.execI3cDynamicAddress addr s
  | .fwStage now bundle => Sys2Proof.Machine.execFwStage now bundle s
  | .dumpRead n => Sys2Proof.Machine.execDumpRead n s
  | .logRead which => Sys2Proof.Machine.execLogRead which s
  | .svnCommit by_ => Sys2Proof.Machine.execSvnCommit by_ s
  | .lmsTreeGenerate => Sys2Proof.Machine.execLmsTreeGenerate s
  | .linkKeyingSubmit n by_ => Sys2Proof.Machine.execLinkKeyingSubmit n by_ s
  | .linkKeyDrop n by_ => Sys2Proof.Machine.execLinkKeyDrop n by_ s
  | .debugNonceReq by_ => Sys2Proof.Machine.execDebugNonceReq by_ s
  | .debugUnlockSubmit now by_ => Sys2Proof.Machine.execDebugUnlockSubmit now by_ s
  | .eventOccurrence src => Sys2Proof.Machine.execEventOccurrence src s
  | .levelChange now src level => Sys2Proof.Machine.execLevelChange now src level s
  | .claim now k => Sys2Proof.Machine.execClaim now k s
  | .complete k src => Sys2Proof.Machine.execComplete k src s
  | .strandRecord now k => Sys2Proof.Machine.execStrandRecord now k s
  | .strandConsWrite k v => Sys2Proof.Machine.execStrandConsWrite k v s
  | .holdoffExpire now g => Sys2Proof.Machine.execHoldoffExpire now g s
  | .globalDisableWrite v by_ => Sys2Proof.Machine.execGlobalDisableWrite v by_ s
  | .sourceMaskWrite now src v by_ => Sys2Proof.Machine.execSourceMaskWrite now src v by_ s
  | .sourceModeWrite src mode filt by_ => Sys2Proof.Machine.execSourceModeWrite src mode filt by_ s
  | .routeWrite src r by_ => Sys2Proof.Machine.execRouteWrite src r by_ s
  | .coldStart now env => Sys2Proof.Machine.execColdStart now env s
  | .moduleReset now cause env => Sys2Proof.Machine.execModuleReset now cause env s
  | .timeWaitExpire now => Sys2Proof.Machine.execTimeWaitExpire now s
  | .hold3Write now v by_ => Sys2Proof.Machine.execHold3Write now v by_ s
  | .nodeIdWrite now node zsize master => Sys2Proof.Machine.execNodeIdWrite now node zsize master s
  | .overlayAppend entry => Sys2Proof.Machine.execOverlayAppend entry s
  | .overlayClear by_ => Sys2Proof.Machine.execOverlayClear by_ s
  | .mcbWrite okA okB => Sys2Proof.Machine.execMcbWrite okA okB s
  | .registerWrite now addr v by_ => Sys2Proof.Machine.execRegisterWrite now addr v by_ s
  | .errorRecord now dom rec_ => Sys2Proof.Machine.execErrorRecord now dom rec_ s
  | .hangWindowExpire now unit => Sys2Proof.Machine.execHangWindowExpire now unit s
  | .watchdogMiss now p core => Sys2Proof.Machine.execWatchdogMiss now p core s
  | .wdogKick now p bits by_ => Sys2Proof.Machine.execWdogKick now p bits by_ s
  | .contextRecoveryReset now ctx cause => Sys2Proof.Machine.execContextRecoveryReset now ctx cause s
  | .engineReset now dom unit cause => Sys2Proof.Machine.execEngineReset now dom unit cause s
  | .actionOverrun now dom => Sys2Proof.Machine.execActionOverrun now dom s
  | .partitionReset now p cause => Sys2Proof.Machine.execPartitionReset now p cause s
  | .powerCycleRequest now dom => Sys2Proof.Machine.execPowerCycleRequest now dom s
  | .capture now dom unreadable => Sys2Proof.Machine.execCapture now dom unreadable s
  | .captureBoundExpire now => Sys2Proof.Machine.execCaptureBoundExpire now s
  | .spineAccessTimeout die => Sys2Proof.Machine.execSpineAccessTimeout die s
  | .bezelFence p by_ => Sys2Proof.Machine.execBezelFence p by_ s
  | .bezelOpen p by_ => Sys2Proof.Machine.execBezelOpen p by_ s
  | .errqPop p by_ => Sys2Proof.Machine.execErrqPop p by_ s
  | .abortlogPop f by_ => Sys2Proof.Machine.execAbortlogPop f by_ s
  | .powerUp now env => Sys2Proof.Machine.execPowerUp now env s
  | .orderedShutdown now => Sys2Proof.Machine.execOrderedShutdown now s
  | .resetNAssert now => Sys2Proof.Machine.execResetNAssert now s
  | .resetNRelease now env => Sys2Proof.Machine.execResetNRelease now env s
  | .forceOff => Sys2Proof.Machine.execForceOff s
  | .forceOffRelease now env => Sys2Proof.Machine.execForceOffRelease now env s
  | .fastStop now cause => Sys2Proof.Machine.execFastStop now cause s
  | .flashRecovery banks => Sys2Proof.Machine.execFlashRecovery banks s
  | .ucieLaneRepair die port ok => Sys2Proof.Machine.execUcieLaneRepair die port ok s
  | .powerDomainFault now dom => Sys2Proof.Machine.execPowerDomainFault now dom s
  | .pwrlimRelease now => Sys2Proof.Machine.execPwrlimRelease now s
  | .imageAckTimeout now => Sys2Proof.Machine.execImageAckTimeout now s
  | .inputPowerApplied mv => Sys2Proof.Machine.execInputPowerApplied mv s
  | .speedMonitorUpdate die rate junc opReached => Sys2Proof.Machine.execSpeedMonitorUpdate die rate junc opReached s

end Sys2Proof.Machine
end

