-- ==== Sys2Proof/Machine/Step.lean ====
section
/-!
DEFINITION. One step of the block: the command at the front of the queue, or one tick of GTIME where none waits (log entry 4).
-/

namespace Sys2Proof.Machine

/-- Takes the command at the front of the queue and answers what it does to the state with the queue's rest; with no command
waiting, GTIME goes on by one tick. -/
def step (s : State) : Host.Outcome State Fault Refusal :=
  match s.pending with
  | [] => .next (s.advance (s.gtime + 1))
  | c :: cs => exec c { s with pending := cs }

/-- The state with the command that a table word spells at the front of its queue: the table gives its rows no bits, so no
word spells one. -/
def State.withFetchWord (s : State) (nbits w : Nat) : State :=
  match Sys2Proof.decodeTableWord nbits w with
  | some c => { s with pending := c :: s.pending }
  | none => s

end Sys2Proof.Machine
end

