-- ==== Sys2Proof/Safety.lean ====
section
/-!
DEFINITION. What every state that the statements speak of holds, and what a safe step is.
-/

namespace Sys2Proof.Machine

/-- Memory is in its canonical form: addresses strictly rising, no entry equal to what an unlisted address reads as. -/
def Memory.wf (m : Kv Byte) : Bool := kvWf 0 m

/-- The byte of main memory, of a journal, of the tier or of a tile store that the state holds at an address. -/
def State.byteAt (s : State) (a : Nat) : Byte := kvGet 0 s.mem a

/-- What every command keeps: the queue of waiting commands, and the canonical form of memory. -/
def State.Kept (q : List Instr) (s : State) : Prop := s.pending = q ∧ Memory.wf s.mem = true

/-- No in-place command holds blocks, and every stored codeword is the valid one of its data (R151, R176). -/
def State.Plain (s : State) : Prop := s.holds = [] ∧ s.cwErr = []

/-- Between `s` and `t` no part of the state differs but registers, and of those only the ones at the listed addresses. -/
def OnlyRegs (s t : State) (as : List Nat) : Prop := t = { s with regs := t.regs } ∧ ∀ a, a ∉ as → t.reg a = s.reg a

/-- Between `s` and `t` no part of the state differs but context `c`. -/
def OnlyCtx (s t : State) (c : Nat) : Prop := t = { s with ctxs := t.ctxs } ∧ ∀ d, d ≠ c → t.ctx d = s.ctx d

/-- Every byte of memory reads in `t` as it does in `s`. -/
def SameMem (s t : State) : Prop := ∀ a, t.byteAt a = s.byteAt a

/-- The command of a context with a CSEQ has finished with a status and an AUX (R231, R247). -/
def Ended (s : State) (ctx cseq : Nat) (st : Status) (aux : Nat) : Prop :=
  ∃ c, (s.ctx ctx).cmd cseq = some c ∧ c.stage = .finished ∧ c.status = st ∧ c.aux = aux

/-- No command of a context with a CSEQ is still to finish. -/
def Closed (s : State) (ctx cseq : Nat) : Prop := ∀ c ∈ (s.ctx ctx).cmds, c.cseq = cseq → c.stage = .finished

/-- The status of a command that completes: OK_CORRECTED where a corrected error occurred, OK otherwise (R247). -/
def Cmd.okStatus (c : Cmd) : Status := if c.corrected then .okCorrected else .ok

/-- A command neither faults nor is refused. -/
def Completes (i : Instr) (s : State) : Prop := ∃ t, exec i s = .next t

end Sys2Proof.Machine
end

