-- ==== Sys2Proof/Certificates/Slice0/Obligations.lean ====
section
/-!
DEFINITION. The statements about the block, for the provers. Unless a statement says otherwise its rules are numbers of spec/.
-/

open Sys2Proof Sys2Proof.Machine


/-- For every command c and state s with c at the front of its queue, step s is exec of c on s with the rest of the queue; on an empty queue step answers s with GTIME gone on by one tick (the model's choice, log entry 4). -/
def Obligations.StepRunsFrontCommand : Prop :=
  (∀ (c : Instr) (cs : List Instr) (s : State), s.pending = c :: cs → step s = exec c { s with pending := cs }) ∧
  (∀ s : State, s.pending = [] → ∃ t, step s = .next t ∧ t = s.advance (s.gtime + 1) ∧ t.gtime = s.gtime + 1 ∧ t.pending = [] ∧
    SameMem s t)

/-- For every command and every state whose memory is in canonical form, exec answers a next state (never a fault or a refusal), whose queue is the one it was given and whose memory is in canonical form: addresses strictly rising, no entry equal to what an unlisted address reads as. -/
def Obligations.EveryCommandCompletes : Prop :=
  ∀ (i : Instr) (s : State), Memory.wf s.mem = true →
    ∃ t, exec i s = .next t ∧ t.pending = s.pending ∧ Memory.wf t.mem = true

/-- For every state whose memory is in canonical form, if step answers t then memory is in canonical form in t, and the queue of t is that of s without its front command. -/
def Obligations.StepKeepsInvariant : Prop :=
  ∀ s t : State, Memory.wf s.mem = true → step s = .next t → Memory.wf t.mem = true ∧ t.pending = s.pending.tail

/-- At reset no command waits and memory is in canonical form; GTIME is 0, every register reads its Reset column, every byte of memory reads 0 (the model's choice, log entry 2), and every context is as R212 initialises it. -/
def Obligations.ResetMeetsInvariant : Prop :=
  State.reset.pending = [] ∧ Memory.wf State.reset.mem = true ∧ State.reset.gtime = 0 ∧
  (∀ a, State.reset.reg a = regReset a) ∧ (∀ a, State.reset.byteAt a = 0) ∧
  (∀ c, (State.reset.ctx c).expCseq = 1 ∧ (State.reset.ctx c).nextRseq = 1 ∧ (State.reset.ctx c).lastDone = 0 ∧
    (State.reset.ctx c).rack = 0 ∧ (State.reset.ctx c).fenced = false ∧ (State.reset.ctx c).cmds = [])

/-- A store into an intake window that crosses a 64-byte boundary takes an access fault and writes nothing. Any other store puts its bytes and their mask bits into the unit buffer; where the mask is then full the unit joins the packet being received and the buffer is empty again, and otherwise nothing but the buffer changes. -/
def Obligations.IntakeStoreFillsUnit : Prop :=
  ∀ (s : State) (now ctx off : Nat) (data : List Byte), ctx < 800 → data ≠ [] → off < 65536 →
    let s1 := s.advance now
    let x := s1.ctx ctx
    let o := off % 64
    let buf := putBytes x.unitBuf o data
    let mask := x.unitMask ||| ((2 ^ data.length - 1) <<< o)
    (64 < o + data.length → ∃ t, exec (.intakeStore now ctx off data) s = .next t ∧ t = { s1 with resp := .fault }) ∧
    (o + data.length ≤ 64 → mask ≠ 2 ^ 64 - 1 →
      ∃ t, exec (.intakeStore now ctx off data) s = .next t ∧ OnlyCtx s1 t ctx ∧
        t.ctx ctx = { x with unitBuf := buf, unitMask := mask }) ∧
    (o + data.length ≤ 64 → mask = 2 ^ 64 - 1 → x.dropLeft = 0 → x.rxLeft ≠ 0 →
      ∃ t, exec (.intakeStore now ctx off data) s = .next t ∧ OnlyCtx s1 t ctx ∧ (t.ctx ctx).unitMask = 0 ∧
        (x.rxLeft = 1 → (t.ctx ctx).ready = x.ready ++ [x.rx ++ buf] ∧ (t.ctx ctx).rxLeft = 0) ∧
        (x.rxLeft ≠ 1 → (t.ctx ctx).rx = x.rx ++ buf ∧ (t.ctx ctx).rxLeft = x.rxLeft - 1 ∧ (t.ctx ctx).ready = x.ready))

/-- When INTAKE_STALL has passed since the last unit of an admitted incomplete packet, the packet and the partial unit buffer are abandoned, ABANDON of the context and of its hub count one more, saturating, and no other context, no memory and nothing else but registers and event sources changes. -/
def Obligations.IntakeAbandonDropsPacket : Prop :=
  ∀ (s : State) (now ctx : Nat),
    let s1 := s.advance now
    let x := s1.ctx ctx
    let p := s1.hubOf ctx
    ctx < 800 → x.rxLeft ≠ 0 → x.lastUnit + x.stall * 1000000 ≤ s1.gtime →
      ∃ t, exec (.intakeAbandon now ctx) s = .next t ∧ t = { s1 with ctxs := t.ctxs, regs := t.regs, evc := t.evc } ∧
        t.ctx ctx = { x with rx := [], rxLeft := 0, unitBuf := zeros 64, unitMask := 0, abandons := min (two32 - 1) (x.abandons + 1) } ∧
        (∀ d, d ≠ ctx → t.ctx d = s1.ctx d) ∧
        t.fld (phIntakeA p) phIntakeAbandon = min (2 ^ phIntakeAbandon.width - 1) (s1.fld (phIntakeA p) phIntakeAbandon + 1)

/-- Where the hub does not hold the checks of a context outside every session, PACKET_CHECK takes its oldest complete packet: a sealed packet, or one whose CSEQ is not EXP_CSEQ, is rejected, which leaves EXP_CSEQ and the accepted commands as they are and suppresses further rejection replies; a packet in sequence is accepted, which raises EXP_CSEQ by 1 and ends the suppression. -/
def Obligations.PacketCheckDecides : Prop :=
  ∀ (s : State) (ctx : Nat) (pk : List Byte) (rest : List (List Byte)),
    let x := s.ctx ctx
    ctx ≤ 800 → x.ready = pk :: rest → s.checkHeld ctx = false → x.session = 0 →
      (pSealed pk = true ∨ pCseq pk ≠ x.expCseq.toNat →
        ∃ t, exec (.packetCheck ctx) s = .next t ∧ (t.ctx ctx).expCseq = x.expCseq ∧ (t.ctx ctx).ready = rest ∧
          (t.ctx ctx).suppress = true ∧ (t.ctx ctx).cmds.length = x.cmds.length) ∧
      (pSealed pk = false → pCseq pk = x.expCseq.toNat →
        ∃ t, exec (.packetCheck ctx) s = .next t ∧ (t.ctx ctx).expCseq = x.expCseq + 1 ∧ (t.ctx ctx).ready = rest ∧
          (t.ctx ctx).suppress = false ∧ (t.ctx ctx).cmds.length = x.cmds.length + 1)

/-- A read of an intake window answers the bytes of the context's latched Context Status Block from its offset on; a read that includes offset 0 latches the block as it stands first. Nothing else changes. -/
def Obligations.CsbReadLatches : Prop :=
  ∀ (s : State) (ctx off len : Nat), ctx < 800 → len ≠ 0 →
    ∃ t, exec (.csbRead ctx off len) s = .next t ∧ t = { s with ctxs := t.ctxs, resp := t.resp } ∧
      (∀ d, d ≠ ctx → t.ctx d = s.ctx d) ∧
      (t.ctx ctx).latch = (if off = 0 then s.csbOf ctx else (s.ctx ctx).latch) ∧
      t.ctx ctx = { s.ctx ctx with latch := (t.ctx ctx).latch } ∧
      t.resp = .bytes (fitBytes len ((t.ctx ctx).latch.drop off))

/-- Where the oldest unstarted command of an administration context waits for nothing (no wait, no taint, no fence, no content error, no order, room under MAXFLIGHT, no conflict, no fill, no commit in progress), COMMAND_START starts it: its GTIME_START is the present GTIME and the other commands of its context keep their places. -/
def Obligations.CommandStartStarts : Prop :=
  ∀ (s : State) (now ctx : Nat) (c : Cmd),
    let s1 := s.advance now
    768 ≤ ctx → ctx < 800 → (s1.ctx ctx).oldest = some c → (s1.ctx ctx).fenced = false →
      pWait c.packet 0 = 0 → pWait c.packet 1 = 0 → s1.contentCheck ctx c.isSealed c.packet = none → c.opc = some .wait →
      (pFlags c.packet).testBit 2 = false → (s1.ctx ctx).running.length < s1.maxflight ctx → s1.conflicts ctx c = false →
      (s1.cmdRegions ctx c) = [] → s1.heldByCommit ctx c = false →
      ∃ t, exec (.commandStart now ctx) s = .next t ∧ t.gtime = s1.gtime ∧ SameMem s1 t ∧
        (t.ctx ctx).cmds.map (fun k => k.cseq) = (s1.ctx ctx).cmds.map (fun k => k.cseq) ∧
        ∀ k ∈ (t.ctx ctx).cmds, k.cseq = c.cseq → k.stage ≠ .accepted ∧ k.ran = true ∧ k.tStart = s1.gtime

/-- The oldest unstarted command of a fenced context, RESUME apart, ends with ABORTED_FENCE without running when its start is tried; and where the wait time of the oldest command has reached a WAIT_LIMIT other than 0 with a wait unsatisfied, and no RUN_WAIT waits for its DONE_CLASP, the command ends with TIMEOUT. -/
def Obligations.FencedCommandEnds : Prop :=
  (∀ (s : State) (now ctx : Nat) (c : Cmd),
    let s1 := s.advance now
    (s1.ctx ctx).oldest = some c → (s1.ctx ctx).fenced = true → c.opc ≠ some .resume →
      ∃ t, exec (.commandStart now ctx) s = .next t ∧ t.gtime = s1.gtime ∧ Closed t ctx c.cseq) ∧
  (∀ (s : State) (now ctx : Nat) (c : Cmd),
    let s1 := s.advance now
    s1.waitLimit ctx ≠ 0 → (s1.ctx ctx).cmds.find? (fun k => s1.doneWait ctx k && decide (s1.waitLimit ctx ≤ k.waited)) = none →
      (s1.ctx ctx).oldest = some c → s1.waitLimit ctx ≤ c.waited → s1.waitsSat ctx c.packet = false →
      ∃ t, exec (.waitLimitExpire now ctx) s = .next t ∧ t.gtime = s1.gtime ∧ Closed t ctx c.cseq)

/-- Where the oldest command of an administration context has finished with a clean status, has reply ring space, waits for no rejection reply, and carries no SIG, no cameo, no journal record and no waiting FENCE, COMMAND_RETIRE retires it: LAST_DONE_CSEQ is its CSEQ, NEXT_RSEQ has risen by 1 for its reply, and it is no longer among the context's commands. -/
def Obligations.CommandRetireRetires : Prop :=
  ∀ (s : State) (now ctx : Nat) (c : Cmd) (rest : List Cmd),
    let s1 := s.advance now
    let x := s1.ctx ctx
    768 ≤ ctx → ctx < 800 → x.cmds = c :: rest → c.stage = .finished → c.status = .ok → s1.ringSpace ctx = true → x.due = [] →
      c.opc = some .wait → clVal (pSig c.packet) = 0 → c.fencers = [] → c.slots = 0 → s1.holds = [] → x.cameos = [] →
      (∀ k ∈ rest, k.cseq ≠ c.cseq) →
      ∃ t, exec (.commandRetire now ctx) s = .next t ∧ t.gtime = s1.gtime ∧
        (t.ctx ctx).lastDone = BitVec.ofNat 32 c.cseq ∧ (t.ctx ctx).nextRseq = x.nextRseq + 1 ∧ (t.ctx ctx).cmds = rest

/-- A started local MOVE, FILL, GATHER or SCATTER runs to its end, and while no in-place command holds blocks and no codeword is in error every byte of memory outside the destination rows (the rows that the transfer's own address function gives from the parameter block and, for GATHER and SCATTER, the index list as it stands) keeps its value. -/
def Obligations.LocalMoveStores : Prop :=
  ∀ (s : State) (ctx : Nat) (c : Cmd) (o : Opc) (i : Instr),
    (o = .move ∧ i = .move ctx c.cseq) ∨ (o = .fill ∧ i = .fill ctx c.cseq) ∨ (o = .gather ∧ i = .gather ctx c.cseq) ∨
      (o = .scatter ∧ i = .scatter ctx c.cseq) →
    s.body ctx c.cseq o = some c → (par c.packet 1 1).testBit 2 = false →
    let n := if o = .gather ∨ o = .scatter then 8 * par c.packet 28 4 else 0
    let x := xferOf (blockOf c.packet) (idxList (s.peek (par c.packet 88 8) n)) c.seed
    ∃ t, exec i s = .next t ∧ Closed t ctx c.cseq ∧ t.gtime = s.gtime ∧
      (s.Plain → ∀ a, (∀ r, ¬((x.dstOf r).toNat ≤ a ∧ a < (x.dstOf r).toNat + x.dlen)) → t.byteAt a = s.byteAt a)

/-- A started MOVE, FILL, GATHER or SCATTER with a remote destination changes no byte of this module's memory while no in-place command holds blocks and no codeword is in error, and afterwards the command has either finished or waits only for acknowledgements. -/
def Obligations.RemoteMoveStoresNothing : Prop :=
  ∀ (s : State) (ctx : Nat) (c : Cmd) (o : Opc) (i : Instr),
    (o = .move ∧ i = .move ctx c.cseq) ∨ (o = .fill ∧ i = .fill ctx c.cseq) ∨ (o = .gather ∧ i = .gather ctx c.cseq) ∨
      (o = .scatter ∧ i = .scatter ctx c.cseq) →
    s.body ctx c.cseq o = some c → (par c.packet 1 1).testBit 2 = true →
    ∃ t, exec i s = .next t ∧ (s.Plain → SameMem s t) ∧
      ∀ k ∈ (t.ctx ctx).cmds, k.cseq = c.cseq → k.stage = .finished ∨ k.issued = true

/-- A started MATMUL or MATMUL_ACC ends unless a collective of its partition runs, in which case its MEs stand idle and nothing changes; a started CONVERT ends where a hart is free for it, and waits unchanged otherwise; a started KV_APPEND ends. -/
def Obligations.MatmulConvertEnd : Prop :=
  (∀ (s : State) (ctx : Nat) (c : Cmd) (o : Opc) (i : Instr),
    (o = .matmul ∧ i = .matmul ctx c.cseq) ∨ (o = .matmulAcc ∧ i = .matmulAcc ctx c.cseq) → s.body ctx c.cseq o = some c →
      (s.collRunning (partOf ctx) = false → ∃ t, exec i s = .next t ∧ Closed t ctx c.cseq ∧ t.gtime = s.gtime) ∧
      (s.collRunning (partOf ctx) = true → exec i s = .next s)) ∧
  (∀ (s : State) (ctx : Nat) (c : Cmd), s.body ctx c.cseq .convert = some c → mvFmts (par c.packet 0 1) ≠ none →
      (s.freeHart (partOf ctx) = true → ∃ t, exec (.convert ctx c.cseq) s = .next t ∧ Closed t ctx c.cseq ∧ t.gtime = s.gtime) ∧
      (s.freeHart (partOf ctx) = false → exec (.convert ctx c.cseq) s = .next s)) ∧
  (∀ (s : State) (ctx : Nat) (c : Cmd), s.body ctx c.cseq .kvAppend = some c →
      ∃ t, exec (.kvAppend ctx c.cseq) s = .next t ∧ Closed t ctx c.cseq ∧ t.gtime = s.gtime)

/-- A started KV_EVICT ends, and while no in-place command holds blocks and no codeword is in error every byte outside the destination pages of its pair list, and outside the source pages where ZERO_SRC is set, keeps its value. -/
def Obligations.KvEvictStores : Prop :=
  ∀ (s : State) (ctx : Nat) (c : Cmd), s.body ctx c.cseq .kvEvict = some c →
    let zero := (par c.packet 1 1).testBit 0
    ∃ t, exec (.kvEvict ctx c.cseq) s = .next t ∧ Closed t ctx c.cseq ∧ t.gtime = s.gtime ∧
      (s.Plain → ∀ a, (∀ q ∈ kvPairs (c.pairs.getD []), ¬(q.2 ≤ a ∧ a < q.2 + 65536) ∧ (zero = true → ¬(q.1 ≤ a ∧ a < q.1 + 65536))) →
        t.byteAt a = s.byteAt a)

/-- A started RUN or RUN_WAIT starts every hart that its packet names with the kernel's entry address and for this command, is counted as having that many harts outstanding, and stores nothing to memory. -/
def Obligations.RunStartsHarts : Prop :=
  ∀ (s : State) (ctx : Nat) (c : Cmd) (o : Opc) (i : Instr),
    (o = .run ∧ i = .run ctx c.cseq) ∨ (o = .runWait ∧ i = .runWait ctx c.cseq) → s.body ctx c.cseq o = some c →
    ∃ t, exec i s = .next t ∧ SameMem s t ∧
      (∀ k ∈ (t.ctx ctx).cmds, k.cseq = c.cseq → k.issued = true ∧ k.left = (runHarts (partOf ctx) c.packet).length) ∧
      ∀ th ∈ runHarts (partOf ctx) c.packet, (t.hart th.1 th.2).running = true ∧ (t.hart th.1 th.2).job = some (ctx, c.cseq) ∧
        (t.hart th.1 th.2).entry = par c.packet 8 8 + par c.packet 20 4

/-- A hart that runs a kernel and calls pip_exit stops with its exit code; a trap of such a hart that the supervisor does not handle ends the command it runs for; a cameo_name with a length of 0 unbinds the entry it names and answers 0, and a name above 1,023 is answered 1 with nothing bound. -/
def Obligations.HartEnds : Prop :=
  (∀ (s : State) (tile hart code ctx cseq : Nat), tile < 24 → hart < 32 → (s.hart tile hart).running = true →
    (s.hart tile hart).job = some (ctx, cseq) →
    ∃ t, exec (.pipExit tile hart code) s = .next t ∧ (t.hart tile hart).running = false ∧ (t.hart tile hart).exitCode = code ∧
      SameMem s t) ∧
  (∀ (s : State) (tile hart cause ctx cseq : Nat) (c : Cmd), tile < 24 → hart < 32 → (s.hart tile hart).job = some (ctx, cseq) →
    (s.ctx ctx).cmd cseq = some c →
    ∃ t, exec (.pipTrapUnhandled tile hart cause) s = .next t ∧ Closed t ctx cseq ∧ t.gtime = s.gtime) ∧
  (∀ (s : State) (tile hart n addr len fmt : Nat), tile < 24 → hart < 32 →
    let c := s.fld (pipCtlA tile hart) pipCtlCtx
    c < 800 →
      (1023 < n → ∃ t, exec (.cameoName tile hart n addr len fmt) s = .next t ∧ t = { s with harts := t.harts } ∧
        (t.hart tile hart).get 10 = 1) ∧
      (n ≤ 1023 → len % two32 = 0 → ∃ t, exec (.cameoName tile hart n addr len fmt) s = .next t ∧
        t = { s with harts := t.harts, ctxs := t.ctxs } ∧ (t.hart tile hart).get 10 = 0 ∧
        (t.ctx c).names = kvSet none (s.ctx c).names n none ∧ ∀ d, d ≠ c → t.ctx d = s.ctx d) ∧
      (n ≤ 1023 → len % two32 ≠ 0 → s.mayReach c (addr : Nat) (len % two32) = true → Fmt.ofCode fmt ≠ none →
        ∃ t, exec (.cameoName tile hart n addr len fmt) s = .next t ∧
        t = { s with harts := t.harts, ctxs := t.ctxs } ∧ (t.hart tile hart).get 10 = 0 ∧
        (t.ctx c).names = kvSet none (s.ctx c).names n (some ⟨addr, len % two32, fmt⟩)))

/-- An ATTN_PAGES whose list reads well and passes its checks waits for as many groups as its list gives; a dispatch gives the group at the front of the queue whose turn it is to the engine found for it; a finished, reset or timed-out engine holds no group any longer, and an engine whose reset has taken 500 µs is marked FAILED. -/
def Obligations.PressGroupsMove : Prop :=
  (∀ (s : State) (ctx : Nat) (c : Cmd) (l : List Byte), s.body ctx c.cseq .attnPages = some c →
    let r := s.readMem 0 (par c.packet 16 8) (8 * par c.packet 12 4)
    let ps := pageList l (par c.packet 12 4)
    s.Plain → r.data = some l → (r.st.markCorr ctx c.cseq r.corr).pagesCheck ctx c.packet ps = none →
    ∃ t, exec (.attnPages ctx c.cseq) s = .next t ∧ SameMem s t ∧
      ∀ k ∈ (t.ctx ctx).cmds, k.cseq = c.cseq → k.issued = true ∧ k.left = (pageGroups (par c.packet 4 1) ps).length) ∧
  (∀ (s : State) (die p n e : Nat) (g : PressGroup) (rest : List PressGroup), die < 2 →
    s.pressTurn die 14 (kvGet (0, 0) s.pressRr die) = some (p, n) → kvGet [] s.pressQ (16 * die + p) = g :: rest →
    (List.range 16).find? (fun e => s.pressFree die e && decide (g.avoid ≠ e + 1)) = some e →
    ∃ t, exec (.pressGroupDispatch die) s = .next t ∧ t.press die e = ⟨some g, none⟩ ∧
      kvGet [] t.pressQ (16 * die + p) = rest ∧
      t = { s with pressQ := t.pressQ, pressRr := t.pressRr, presses := t.presses, windows := t.windows }) ∧
  (∀ (s : State) (die e : Nat) (g : PressGroup), die < 2 → e < 16 → (s.press die e).group = some g →
    ((s.ctx g.ctx).cmd g.cseq = none ∨ s.pagesReady die g = true) →
    ∃ t, exec (.pressGroupComplete die e) s = .next t ∧ (t.press die e).group = none) ∧
  (∀ (s : State) (now die e : Nat) (w : Writer) (completes : Bool), die < 2 → e < 16 →
    let s1 := s.advance now
    mayReachReg w (tdPectlA die) = true → (s1.press die e).rstAt = none → (s1.fld (tdPecapA die) tdPecapFailed).testBit e = false →
    (s1.fld (tdPecapA die) tdPecapEnabled).testBit e = true →
    ∃ t, exec (.pressEngineReset now die e w completes) s = .next t ∧ (t.press die e).group = none ∧
      (completes = false → (t.press die e).rstAt = some s1.gtime)) ∧
  (∀ (s : State) (now die e since : Nat), die < 2 → e < 16 →
    let s1 := s.advance now
    (s1.press die e).rstAt = some since → since + 500000 ≤ s1.gtime →
    ∃ t, exec (.pressResetTimeout now die e) s = .next t ∧ (t.fld (tdPecapA die) tdPecapFailed).testBit e = true ∧ SameMem s1 t)

/-- Every context of the reset state, and the target of a CTX_RESET MODE 1 that names another context with neither a command nor a session, has EXP_CSEQ 1, LAST_DONE_CSEQ 0, NEXT_RSEQ 1, RACK 0, STATE.FENCED clear, an empty intake buffer (no unit of it is held) and an empty unit buffer. -/
def Obligations.ContextsBeginInitialised : Prop :=
  let fresh := fun (x : Ctx) => x.expCseq = 1 ∧ x.lastDone = 0 ∧ x.nextRseq = 1 ∧ x.rack = 0 ∧ x.fenced = false ∧ x.unitsHeld = 0 ∧
    x.ready = [] ∧ x.rx = [] ∧ x.unitMask = 0
  (∀ c, fresh (State.reset.ctx c)) ∧
  (∀ (s : State) (ctx : Nat) (c : Cmd), s.body ctx c.cseq .ctxReset = some c → par c.packet 0 1 = 1 →
    let tg := par c.packet 2 2
    tg ≠ ctx → (s.ctx tg).cmds = [] → (s.ctx tg).session = 0 →
      ∃ t, exec (.ctxReset ctx c.cseq) s = .next t ∧ fresh (t.ctx tg) ∧ Ended t ctx c.cseq c.okStatus 0)

/-- A started WAIT or SIGNAL_REMOTE ends with AUX 0 and changes nothing but its own context and its progress mark. A started SIGNAL of a partition that records nothing ends; the clasp it names holds its prior VALUE plus VALUE modulo 2^64 after MODE 0, and VALUE with TAINT clear after MODE 1. In an administration context AUX is the prior VALUE and no memory changes. -/
def Obligations.SynchronisationCommandsEnd : Prop :=
  (∀ (s : State) (ctx : Nat) (c : Cmd) (o : Opc) (i : Instr),
    (o = .wait ∧ i = .wait ctx c.cseq) ∨ (o = .signalRemote ∧ i = .signalRemote ctx c.cseq) → s.body ctx c.cseq o = some c →
      ∃ t, exec i s = .next t ∧ t = { s with ctxs := t.ctxs, windows := t.windows } ∧ Ended t ctx c.cseq c.okStatus 0 ∧
        ∀ d, d ≠ ctx → t.ctx d = s.ctx d) ∧
  (∀ (s : State) (ctx : Nat) (c : Cmd), s.body ctx c.cseq .signal = some c →
    let i := clIdx (par c.packet 4 4)
    let v := par c.packet 8 8
    i < claspCount (claspTab ctx) → (s.recorder (partOf ctx)).recActive = false →
      ∃ t, exec (.signal ctx c.cseq) s = .next t ∧ Closed t ctx c.cseq ∧ t.gtime = s.gtime ∧
        (par c.packet 0 1 = 0 → t.ctxClasp ctx i = (s.ctxClasp ctx i + v) % two64) ∧
        (par c.packet 0 1 ≠ 0 → t.ctxClasp ctx i = v ∧ t.ctxTaint ctx i = false) ∧
        (768 ≤ ctx → SameMem s t ∧ Ended t ctx c.cseq c.okStatus (s.ctxClasp ctx i)))

/-- A started FENCE of kind 0, or of its own context, ends, with every earlier command of the context finished with ABORTED_FENCE; kind 0 leaves the context as fenced as it was and kind 1 leaves it fenced. A FENCE of another context leaves that context fenced with every command finished with ABORTED_FENCE, and either ends at once or waits for exactly those commands to retire. A FENCE of a partition leaves all its 64 contexts fenced and, where no reset holds the bezel, the bezel fenced. -/
def Obligations.FenceAborts : Prop :=
  ∀ (s : State) (ctx : Nat) (c : Cmd), s.body ctx c.cseq .fence = some c →
    let kind := par c.packet 0 1
    let tg := par c.packet 2 2
    let old := ((s.ctx ctx).cmds.takeWhile (fun k => decide (k.cseq ≠ c.cseq))).map (fun k => k.cseq)
    (kind = 0 ∨ (kind = 1 ∧ tg = ctx) →
      ∃ t, exec (.fence ctx c.cseq) s = .next t ∧ Closed t ctx c.cseq ∧
        (∀ k ∈ (t.ctx ctx).cmds, k.cseq ∈ old → k.stage = .finished ∧ k.status = .abortedFence) ∧
        (kind = 1 → (t.ctx ctx).fenced = true) ∧
        (kind = 0 → (∀ k ∈ (s.ctx ctx).cmds, k.is Opc.isRun = false) → (t.ctx ctx).fenced = (s.ctx ctx).fenced)) ∧
    (kind = 1 → tg ≠ ctx →
      ∃ t, exec (.fence ctx c.cseq) s = .next t ∧ (t.ctx tg).fenced = true ∧
        (∀ k ∈ (t.ctx tg).cmds, k.stage = .finished ∧ k.status = .abortedFence) ∧
        ((s.ctx tg).cmds = [] → Closed t ctx c.cseq) ∧
        ((s.ctx tg).cmds ≠ [] → ∀ k ∈ (t.ctx ctx).cmds, k.cseq = c.cseq → k.issued = true ∧ k.left = (s.ctx tg).cmds.length)) ∧
    (2 ≤ kind → tg < 12 → 768 ≤ ctx →
      ∃ t, exec (.fence ctx c.cseq) s = .next t ∧ (∀ i, i < 64 → (t.ctx (64 * tg + i)).fenced = true) ∧
        ((s.bezel tg).resetHold = false → t.fld (phBezelA tg) phBezelState = 2))

/-- A started RESUME ends with AUX 0, with its own context, the context it names, or all 64 contexts of the partition it names unfenced; a partition RESUME opens the bezel unless a reset holds it or the partition is out of service. CTX_RESET MODE 0 of another context ends and leaves that context without commands; MODE 1 of one with commands ends with BUSY and changes nothing else. STATUS_QUERY of its own context ends with the AUX taken at its acceptance, and of another context ends, storing nothing outside the 64 bytes at DST. -/
def Obligations.ResumeResetQueryEnd : Prop :=
  (∀ (s : State) (ctx : Nat) (c : Cmd), s.body ctx c.cseq .resume = some c →
    let kind := par c.packet 0 1
    let tg := par c.packet 2 2
    ∃ t, exec (.resume ctx c.cseq) s = .next t ∧ Ended t ctx c.cseq c.okStatus 0 ∧ SameMem s t ∧
      (kind = 0 → (t.ctx ctx).fenced = false) ∧ (kind = 1 → (t.ctx tg).fenced = false) ∧
      (2 ≤ kind → tg < 12 → (∀ i, i < 64 → (t.ctx (64 * tg + i)).fenced = false) ∧
        ((s.bezel tg).resetHold = false → s.outOfService tg = false → t.fld (phBezelA tg) phBezelState = 0))) ∧
  (∀ (s : State) (ctx : Nat) (c : Cmd), s.body ctx c.cseq .ctxReset = some c → par c.packet 2 2 ≠ ctx →
    let tg := par c.packet 2 2
    (par c.packet 0 1 = 0 →
      ∃ t, exec (.ctxReset ctx c.cseq) s = .next t ∧ Closed t ctx c.cseq ∧ (t.ctx tg).cmds = [] ∧
        (t.ctx tg).expCseq = (t.ctx tg).lastDone + 1) ∧
    (par c.packet 0 1 ≠ 0 → (s.ctx tg).session = 0 → (s.ctx tg).cmds ≠ [] →
      ∃ t, exec (.ctxReset ctx c.cseq) s = .next t ∧ Ended t ctx c.cseq .busy 0 ∧
        t = { s with ctxs := t.ctxs, windows := t.windows } ∧ ∀ d, d ≠ ctx → t.ctx d = s.ctx d)) ∧
  (∀ (s : State) (ctx : Nat) (c : Cmd), s.body ctx c.cseq .statusQuery = some c →
    let tg := par c.packet 2 2
    let dst := par c.packet 8 8
    (tg = 0xFFFF ∨ tg = ctx →
      ∃ t, exec (.statusQuery ctx c.cseq) s = .next t ∧ Ended t ctx c.cseq c.okStatus c.moved ∧
        t = { s with ctxs := t.ctxs, windows := t.windows } ∧ ∀ d, d ≠ ctx → t.ctx d = s.ctx d) ∧
    (tg ≠ 0xFFFF → tg ≠ ctx → s.Plain →
      ∃ t, exec (.statusQuery ctx c.cseq) s = .next t ∧ Closed t ctx c.cseq ∧
        ∀ a, ¬(dst ≤ a ∧ a < dst + 64) → t.byteAt a = s.byteAt a))

/-- A started CFG_BEGIN ends with REJECTED_PERM for a scope of another sealed context or of its own rights, with BUSY for a scope that is open, and otherwise opens a transaction with the next number, returned in AUX. CFG_SET ends with the status of a transaction it may not use, and otherwise stages the value of an ST field of the scope. CFG_GET ends with the bits of the register as a read returns it, and changes nothing. CFG_ROLLBACK closes the transaction, and AUX is the number of fields it had staged. -/
def Obligations.TransactionsOpenAndStage : Prop :=
  (∀ (s : State) (now ctx : Nat) (c : Cmd),
    let s1 := s.advance now
    let w := par c.packet 0 4
    let inst := bits w 16 16
    let shut := (bits w 0 16 = 1 ∨ bits w 0 16 = 2) ∧ (s1.ctx inst).session ≠ 0 ∧ ¬(inst = ctx ∧ bits w 0 16 = 2)
    s1.body ctx c.cseq .cfgBegin = some c →
      (shut → ∃ t, exec (.cfgBegin now ctx c.cseq) s = .next t ∧ Ended t ctx c.cseq .rejectedPerm 0 ∧
        t = { s1 with ctxs := t.ctxs, windows := t.windows }) ∧
      (¬shut → (∃ u ∈ s1.txns, u.scope = w) → ∃ t, exec (.cfgBegin now ctx c.cseq) s = .next t ∧ Ended t ctx c.cseq .busy 0 ∧
        t = { s1 with ctxs := t.ctxs, windows := t.windows }) ∧
      (¬shut → (∀ u ∈ s1.txns, u.scope ≠ w) → ∃ t, exec (.cfgBegin now ctx c.cseq) s = .next t ∧
        Ended t ctx c.cseq c.okStatus (s1.nextTxn % two32) ∧ t.txns = s1.txns ++ [⟨s1.nextTxn, w, ctx, [], s1.gtime, none⟩] ∧
        t.nextTxn = s1.nextTxn + 1 ∧ OnlyRegs { s1 with txns := t.txns, nextTxn := t.nextTxn, ctxs := t.ctxs, windows := t.windows } t
          [s1.cfgstatOf ctx])) ∧
  (∀ (s : State) (now ctx : Nat) (c : Cmd),
    let s1 := s.advance now
    s1.body ctx c.cseq .cfgSet = some c →
      (∀ st, s1.txnFor ctx (par c.packet 0 4) = .inr st → ∃ t, exec (.cfgSet now ctx c.cseq) s = .next t ∧ Ended t ctx c.cseq st 0 ∧
        t = { s1 with ctxs := t.ctxs, windows := t.windows }) ∧
      (∀ u d f q, s1.txnFor ctx (par c.packet 0 4) = .inl u →
        s1.stField u.scope (par c.packet 8 8) (par c.packet 16 1) (par c.packet 17 1) (par c.packet 24 8) = some (d, f) →
        s1.sealedRights u d f = false →
        stagePut u.staged (par c.packet 8 8) (par c.packet 16 1) (par c.packet 17 1) (par c.packet 24 8) = some q →
        ∃ t, exec (.cfgSet now ctx c.cseq) s = .next t ∧ Ended t ctx c.cseq c.okStatus 0 ∧
          t = { s1 with txns := t.txns, ctxs := t.ctxs, windows := t.windows } ∧
          t.txns = s1.txns.map (fun v => if v.num = u.num then { u with used := s1.gtime, staged := q } else v))) ∧
  (∀ (s : State) (ctx : Nat) (c : Cmd), s.body ctx c.cseq .cfgGet = some c →
    ∃ t, exec (.cfgGet ctx c.cseq) s = .next t ∧
      Ended t ctx c.cseq c.okStatus (bits (s.regView (par c.packet 8 8)).toNat (par c.packet 16 1) (par c.packet 17 1)) ∧
      t = { s with ctxs := t.ctxs, windows := t.windows } ∧ ∀ d, d ≠ ctx → t.ctx d = s.ctx d) ∧
  (∀ (s : State) (now ctx : Nat) (c : Cmd) (u : Txn),
    let s1 := s.advance now
    s1.body ctx c.cseq .cfgRollback = some c → s1.txnFor ctx (par c.packet 0 4) = .inl u →
      ∃ t, exec (.cfgRollback now ctx c.cseq) s = .next t ∧ Ended t ctx c.cseq c.okStatus u.staged.length ∧
        t.txns = s1.txns.filter (fun v => decide (v.num ≠ u.num)) ∧
        OnlyRegs { s1 with txns := t.txns, ctxs := t.ctxs, windows := t.windows } t [s1.cfgstatOf u.opener])

/-- A started CFG_COMMIT whose staged set breaks a rule ends with its status and closes the transaction; one that breaks none looks for its safe point from its start on; one that needs management waits unchanged while no die is active. At the safe point the commit ends and its transaction is gone, and a commit of one field of an administration context puts the staged value into the field. A commit that finds no safe point for 50 ms ends with its transaction open and unchanged but for its use. A transaction unused for 10 s is abandoned, and nothing but transactions, registers and event sources changes. -/
def Obligations.CommitsLandWhole : Prop :=
  (∀ (s : State) (now ctx : Nat) (c : Cmd) (u : Txn),
    let s1 := s.advance now
    s1.body ctx c.cseq .cfgCommit = some c → s1.txnFor ctx (par c.packet 0 4) = .inl u →
      (5 ≤ bits u.scope 0 16 → s1.hasiaUp = false → exec (.cfgCommit now ctx c.cseq) s = .next s1) ∧
      (bits u.scope 0 16 < 5 ∨ s1.hasiaUp = true →
        (∀ st, s1.commitCheck u = some st → ∃ t, exec (.cfgCommit now ctx c.cseq) s = .next t ∧ Ended t ctx c.cseq st 0 ∧
          (∀ v ∈ t.txns, v.num ≠ u.num) ∧ SameMem s1 t) ∧
        (s1.commitCheck u = none → ∃ t, exec (.cfgCommit now ctx c.cseq) s = .next t ∧
          (∀ v ∈ t.txns, v.num = u.num → v.commit = some (c.cseq, c.tStart) ∧ v.staged = u.staged) ∧
          t = { s1 with txns := t.txns, ctxs := t.ctxs } ∧
          ∀ k ∈ (t.ctx ctx).cmds, k.cseq = c.cseq → k.issued = true))) ∧
  (∀ (s : State) (now txn : Nat) (u : Txn) (cs t0 : Nat),
    let s1 := s.advance now
    s1.committing txn = some (u, cs, t0) →
      (s1.quiet u cs t0 = true → ∃ t, exec (.commitSafePoint now txn) s = .next t ∧ Closed t u.opener cs ∧ (∀ v ∈ t.txns, v.num ≠ txn) ∧
        ∀ a lo w v, u.staged = [(a, lo, w, v)] → bits u.scope 0 16 = 1 → 768 ≤ bits u.scope 16 16 → u.opener = 800 →
          a ≠ hmCfgstatA → lo + w ≤ 64 → t.fld a ⟨lo, w⟩ = v % 2 ^ w) ∧
      (s1.quiet u cs t0 = false → t0 + 50000000 ≤ s1.gtime → bits u.scope 0 16 < 5 ∨ s1.hasiaUp = true →
        ∃ t, exec (.commitBusyExpire now txn) s = .next t ∧ Closed t u.opener cs ∧
          (∀ v ∈ t.txns, v.num = txn → v = { u with commit := none, used := s1.gtime }) ∧
          t = { s1 with txns := t.txns, ctxs := t.ctxs, windows := t.windows })) ∧
  (∀ (s : State) (now txn : Nat) (u : Txn),
    let s1 := s.advance now
    s1.txns.find? (fun v => decide (v.num = txn)) = some u → u.commit = none → u.used + 10000000000 ≤ s1.gtime →
      ∃ t, exec (.transactionAbandon now txn) s = .next t ∧ (∀ v ∈ t.txns, v.num ≠ txn) ∧
        t = { s1 with txns := t.txns, regs := t.regs, evc := t.evc })

/-- A started HINT_PHASE ends with AUX 0 and its partition holds the hint it gives, or none for LEVEL 0. A CAP_REQUEST waits with management while no die is active; with one, it sets the host cap of its partition (none for 0, never under 70 W), turns the tiles' host order off unless another command of the partition is unretired, which ends it with BUSY, or turns it on. The request not served for 2 s, and any management command beyond its bound plus 2 s, ends with TIMEOUT. CAP_QUERY ends with the power-limit register of the partition it names. -/
def Obligations.PowerCommandsEnd : Prop :=
  (∀ (s : State) (now ctx : Nat) (c : Cmd),
    let s1 := s.advance now
    s1.body ctx c.cseq .hintPhase = some c →
      ∃ t, exec (.hintPhase now ctx c.cseq) s = .next t ∧ Ended t ctx c.cseq c.okStatus 0 ∧
        ((t.pwr (partOf ctx)).hint = none ↔ par c.packet 4 4 = 0) ∧ (t.pwr (partOf ctx)).hintLevel = 0 ∧
        OnlyRegs { s1 with power := t.power, ctxs := t.ctxs, windows := t.windows } t [phPwrestA (partOf ctx)]) ∧
  (∀ (s : State) (now ctx : Nat) (c : Cmd),
    let s1 := s.advance now
    let p := par c.packet 2 2
    let w := par c.packet 4 4
    s1.body ctx c.cseq .capRequest = some c →
      (s1.hasiaUp = false → c.tReq = 0 → ∃ t, exec (.capRequest now ctx c.cseq) s = .next t ∧
        t = { s1 with ctxs := t.ctxs, mgmt := { s1.mgmt with requests := s1.mgmt.requests ++ [(ctx, c.cseq)] } } ∧
        (∀ k ∈ (t.ctx ctx).cmds, k.cseq = c.cseq → k.tReq = s1.gtime + 1)) ∧
      (s1.hasiaUp = true → par c.packet 0 1 = 0 → ∃ t, exec (.capRequest now ctx c.cseq) s = .next t ∧
        (t.pwr p).hostCap = (if w = 0 then none else some (max 70 w)) ∧
        (∀ k ∈ (t.ctx ctx).cmds, k.cseq = c.cseq → k.issued = true) ∧ SameMem s1 t) ∧
      (s1.hasiaUp = true → par c.packet 0 1 = 1 →
        (∀ e ∈ s1.partCtxs p, ∀ k ∈ e.2.cmds, e.1 = ctx ∧ k.cseq = c.cseq) →
        ∃ t, exec (.capRequest now ctx c.cseq) s = .next t ∧ (t.pwr p).hostOn = false ∧
          (∀ k ∈ (t.ctx ctx).cmds, k.cseq = c.cseq → k.issued = true) ∧ SameMem s1 t) ∧
      (s1.hasiaUp = true → par c.packet 0 1 = 1 →
        (∃ e ∈ s1.partCtxs p, ∃ k ∈ e.2.cmds, ¬(e.1 = ctx ∧ k.cseq = c.cseq)) →
        ∃ t, exec (.capRequest now ctx c.cseq) s = .next t ∧ Ended t ctx c.cseq .busy 0 ∧ t.power = s1.power) ∧
      (s1.hasiaUp = true → 2 ≤ par c.packet 0 1 → ∃ t, exec (.capRequest now ctx c.cseq) s = .next t ∧ (t.pwr p).hostOn = true ∧
        (∀ k ∈ (t.ctx ctx).cmds, k.cseq = c.cseq → k.issued = true) ∧ SameMem s1 t) ∧
      (c.tReq ≠ 0 → c.tReq + 2000000000 ≤ s1.gtime + 1 → ∃ t, exec (.capRequestTimeout now ctx c.cseq) s = .next t ∧
        Ended t ctx c.cseq .timeout 0 ∧ (ctx, c.cseq) ∉ t.mgmt.requests ∧
        t = { s1 with ctxs := t.ctxs, windows := t.windows, mgmt := t.mgmt })) ∧
  (∀ (s : State) (now ctx : Nat) (c : Cmd) (b : Nat),
    let s1 := s.advance now
    (s1.ctx ctx).cmd c.cseq = some c → s1.mgmtBound c = some b → c.tStart + b + 2000000000 < s1.gtime →
      ∃ t, exec (.managementWaitTimeout now ctx c.cseq) s = .next t ∧ Closed t ctx c.cseq ∧ (ctx, c.cseq) ∉ t.mgmt.requests) ∧
  (∀ (s : State) (ctx : Nat) (c : Cmd), s.body ctx c.cseq .capQuery = some c →
    ∃ t, exec (.capQuery ctx c.cseq) s = .next t ∧
      Ended t ctx c.cseq c.okStatus (bits (s.reg (phPwrcapA (par c.packet 2 2))).toNat 0 51) ∧
      t = { s with ctxs := t.ctxs, windows := t.windows } ∧ ∀ d, d ≠ ctx → t.ctx d = s.ctx d)

/-- A started CNT_ENABLE with ENABLE 1 and a selector that its scope does not take ends with REJECTED_FORMAT; of the partition bank with a selector of a confidential partition it ends with REJECTED_PERM; otherwise it ends with AUX 0 and the bank is enabled as asked: a context bank with the selectors given and all counters 0. A started CNT_READ ends, storing nothing outside the 128 bytes at DST, or ends with REJECTED_PERM where the partition bank counts a confidential partition. -/
def Obligations.CountersEnableAndRead : Prop :=
  (∀ (s : State) (ctx : Nat) (c : Cmd), s.body ctx c.cseq .cntEnable = some c →
    let scope := par c.packet 0 1
    let on := decide (par c.packet 1 1 = 1)
    let sels := cntSels c.packet
    (on = true → (∃ j, j < 8 ∧ cntSelOk scope (sels.getD j 0) = false) →
      ∃ t, exec (.cntEnable ctx c.cseq) s = .next t ∧ Ended t ctx c.cseq .rejectedFormat 0 ∧
        t = { s with ctxs := t.ctxs, windows := t.windows }) ∧
    (on = true → (∀ j, j < 8 → cntSelOk scope (sels.getD j 0) = true) → scope = 1 →
      (∃ q ∈ sels, s.confidential (bits q 12 4) = true) →
      ∃ t, exec (.cntEnable ctx c.cseq) s = .next t ∧ Ended t ctx c.cseq .rejectedPerm 0 ∧
        t = { s with ctxs := t.ctxs, windows := t.windows }) ∧
    ((on = true → ∀ j, j < 8 → cntSelOk scope (sels.getD j 0) = true) →
      (scope = 0 → ∃ t, exec (.cntEnable ctx c.cseq) s = .next t ∧ Ended t ctx c.cseq c.okStatus 0 ∧ (t.ctx ctx).cntOn = on ∧
        (on = true → (t.ctx ctx).cntSel = sels ∧ (t.ctx ctx).cntVal = List.replicate 8 0) ∧
        t = { s with ctxs := t.ctxs, windows := t.windows } ∧ ∀ d, d ≠ ctx → t.ctx d = s.ctx d) ∧
      (scope = 1 ∨ scope = 2 → (on = true → scope = 1 → ∀ q ∈ sels, s.confidential (bits q 12 4) = false) →
        ∃ t, exec (.cntEnable ctx c.cseq) s = .next t ∧ Ended t ctx c.cseq c.okStatus 0 ∧
          t.flag (hmCntbankA (scope - 1)) hmCntbankEnabled = on ∧
          (on = true → ∀ j, j < 8 → t.fld (hmCntvalA (scope - 1) j) hmCntvalValue = 0 ∧
            t.cntSelOf (scope - 1) j = sels.getD j 0 % 65536) ∧
          t = { s with regs := t.regs, ctxs := t.ctxs, windows := t.windows }))) ∧
  (∀ (s : State) (ctx : Nat) (c : Cmd), s.body ctx c.cseq .cntRead = some c →
    let scope := par c.packet 0 1
    let dst := par c.packet 8 8
    let bad := scope = 1 ∧ ∃ j, j < 8 ∧ s.cntSelOf 0 j % 4096 ≠ 0 ∧ s.confidential (bits (s.cntSelOf 0 j) 12 4) = true
    (bad → ∃ t, exec (.cntRead ctx c.cseq) s = .next t ∧ Ended t ctx c.cseq .rejectedPerm 0 ∧
      t = { s with ctxs := t.ctxs, windows := t.windows }) ∧
    (¬bad → s.Plain → ∃ t, exec (.cntRead ctx c.cseq) s = .next t ∧ Closed t ctx c.cseq ∧ t.gtime = s.gtime ∧
      ∀ a, ¬(dst ≤ a ∧ a < dst + 128) → t.byteAt a = s.byteAt a))

/-- A started CAMEO ends with AUX 0 and changes nothing but its context (it is armed at its retirement). A CAMEO_CANCEL ends with AUX 0 and the cameo gone where it is armed, with AUX 1 where it is not, and with AUX 2 where no cameo has the identifier. The dump at the front of a partition's queue, where no reset holds the bezel, ends: it leaves the queue, and its cameo is failed where its name was unbound or a reset struck it. -/
def Obligations.CameosRun : Prop :=
  (∀ (s : State) (ctx : Nat) (c : Cmd), s.body ctx c.cseq .cameo = some c →
    ∃ t, exec (.cameo ctx c.cseq) s = .next t ∧ Ended t ctx c.cseq c.okStatus 0 ∧ t = { s with ctxs := t.ctxs, windows := t.windows } ∧
      (t.ctx ctx).cameos = (s.ctx ctx).cameos ∧ ∀ d, d ≠ ctx → t.ctx d = s.ctx d) ∧
  (∀ (s : State) (ctx : Nat) (c : Cmd), s.body ctx c.cseq .cameoCancel = some c →
    let id := par c.packet 0 2
    let found := (s.ctx ctx).cameos.find? (fun k => decide (k.id = id))
    ∃ t, exec (.cameoCancel ctx c.cseq) s = .next t ∧ t = { s with ctxs := t.ctxs, windows := t.windows } ∧
      (∀ d, d ≠ ctx → t.ctx d = s.ctx d) ∧
      (found = none → Ended t ctx c.cseq c.okStatus 2 ∧ (t.ctx ctx).cameos = (s.ctx ctx).cameos) ∧
      (∀ k, found = some k → k.stage = .armed → Ended t ctx c.cseq c.okStatus 0 ∧ ∀ q ∈ (t.ctx ctx).cameos, q.id ≠ id) ∧
      (∀ k, found = some k → k.stage ≠ .armed → Ended t ctx c.cseq c.okStatus 1 ∧ (t.ctx ctx).cameos = (s.ctx ctx).cameos)) ∧
  (∀ (s : State) (now p ctx id : Nat) (rest : List (Nat × Nat)) (k : Cameo),
    let s1 := s.advance now
    kvGet [] s1.dumpQ p = (ctx, id) :: rest → (s1.ctx ctx).cameos.find? (fun k => decide (k.id = id)) = some k →
      (s1.bezel p).resetHold = false →
      ∃ t, exec (.cameoDump now p) s = .next t ∧ kvGet [] t.dumpQ p = rest ∧
        (∀ q ∈ (t.ctx ctx).cameos, q.id = id → q.stage = .done ∨ q.stage = .failed) ∧
        (k.entry = none ∨ k.hit = true → ∀ q ∈ (t.ctx ctx).cameos, q.id = id → q.stage = .failed))

/-- While a die is active: SESSION_OPEN outside lifecycle 1 or with debug enabled ends with REJECTED_PERM; with signing out, or with a partition of its mask held or busy, with BUSY; otherwise, where its confirmation is stored, the session is open, its contexts are sealed under it, its partitions are confidential and wait for their fill. SESSION_CLOSE of an unknown session ends with REJECTED_FORMAT, of one with another unretired command with BUSY, and otherwise the session is gone, its contexts are unsealed and its partitions are not confidential. KEY_ROTATE of a sealed context ends with the session holding one more secret. -/
def Obligations.SessionsOpenAndClose : Prop :=
  (∀ (s : State) (now ctx : Nat) (c : Cmd),
    let s1 := s.advance now
    let parts := maskParts (par c.packet 0 4)
    let permOk := s1.fld lkStateA lkStateLifecycle = 1 ∧ s1.flag lkStateA lkStateDebugEn = false
    let busy := s1.flag lkStateA lkStateSigOut = true ∨ ∃ p ∈ parts, s1.partHeld p = true ∨ s1.partBusy p = true
    s1.body ctx c.cseq .sessionOpen = some c → s1.hasiaUp = true →
      (¬permOk → ∃ t, exec (.sessionOpen now ctx c.cseq) s = .next t ∧ Ended t ctx c.cseq .rejectedPerm 0 ∧
        t = { s1 with ctxs := t.ctxs, windows := t.windows }) ∧
      (permOk → busy → ∃ t, exec (.sessionOpen now ctx c.cseq) s = .next t ∧ Ended t ctx c.cseq .busy 0 ∧
        t = { s1 with ctxs := t.ctxs, windows := t.windows }) ∧
      (permOk → ¬busy → (s1.storeBy (some (ctx, c.cseq)) (par c.packet 8 8) (s1.newSession c.packet).2).bad = false →
        ∃ t, exec (.sessionOpen now ctx c.cseq) s = .next t ∧
          t.locket.sessions = s1.locket.sessions ++ [(s1.newSession c.packet).1] ∧
          (∀ k ∈ (s1.newSession c.packet).1.ctxs, (t.ctx k).session = s1.locket.nextSession) ∧
          (∀ p ∈ parts, t.confidential p = true ∧ t.flag (phXtsA p) phXtsFilling = true) ∧
          ∀ k ∈ (t.ctx ctx).cmds, k.cseq = c.cseq → k.issued = true)) ∧
  (∀ (s : State) (now ctx : Nat) (c : Cmd),
    let s1 := s.advance now
    let found := s1.locket.sessions.find? (fun x => decide (x.id = par c.packet 0 4))
    s1.body ctx c.cseq .sessionClose = some c → s1.hasiaUp = true →
      (found = none → ∃ t, exec (.sessionClose now ctx c.cseq) s = .next t ∧ Ended t ctx c.cseq .rejectedFormat 0 ∧
        t = { s1 with ctxs := t.ctxs, windows := t.windows }) ∧
      (∀ x, found = some x → (∃ k ∈ x.ctxs, ∃ q ∈ (s1.ctx k).cmds, ¬(k = ctx ∧ q.cseq = c.cseq)) →
        ∃ t, exec (.sessionClose now ctx c.cseq) s = .next t ∧ Ended t ctx c.cseq .busy 0 ∧
          t = { s1 with ctxs := t.ctxs, windows := t.windows }) ∧
      (∀ x, found = some x → (∀ k ∈ x.ctxs, ∀ q ∈ (s1.ctx k).cmds, k = ctx ∧ q.cseq = c.cseq) →
        ∃ t, exec (.sessionClose now ctx c.cseq) s = .next t ∧
          t.locket.sessions = s1.locket.sessions.filter (fun y => decide (y.id ≠ x.id)) ∧
          (∀ k ∈ x.ctxs, (t.ctx k).session = 0) ∧ (∀ p ∈ x.parts, p < 12 → t.confidential p = false) ∧
          ∀ k ∈ (t.ctx ctx).cmds, k.cseq = c.cseq → k.issued = true)) ∧
  (∀ (s : State) (now ctx : Nat) (c : Cmd) (x : Session),
    let s1 := s.advance now
    s1.body ctx c.cseq .keyRotate = some c → s1.hasiaUp = true → s1.sessionOf ctx = some x →
      ∃ t, exec (.keyRotate now ctx c.cseq) s = .next t ∧ Ended t ctx c.cseq c.okStatus 0 ∧ SameMem s1 t ∧
        t.locket.sessions = s1.locket.sessions.map (fun y => if y.id = x.id then
          { y with secrets := y.secrets ++ [sha256 (x.secrets.getLastD [] ++ (c.packet.drop 64).take 32 ++ ascii "next")] } else y))

/-- A started QUOTE waits unchanged while no die is active or the next bottom tree is not ready, and ends with BUSY where no signature can be made. Otherwise it ends, storing nothing outside the record at DST, and where the record is stored AUX is 6,388 plus the length of the certificate chain. -/
def Obligations.QuoteStoresItsRecord : Prop :=
  ∀ (s : State) (now ctx : Nat) (c : Cmd),
    let s1 := s.advance now
    let dst := par c.packet 32 8
    let size := 6388 + (Config.cert.take 5900).length
    s1.body ctx c.cseq .quote = some c →
      (s1.hasiaUp = false → exec (.quote now ctx c.cseq) s = .next s1) ∧
      (s1.hasiaUp = true → s1.useLeaf = .wait → exec (.quote now ctx c.cseq) s = .next s1) ∧
      (∀ s2, s1.hasiaUp = true → s1.useLeaf = .busy s2 → ∃ t, exec (.quote now ctx c.cseq) s = .next t ∧ Ended t ctx c.cseq .busy 0 ∧
        SameMem s1 t) ∧
      (∀ n s2, s1.hasiaUp = true → s1.useLeaf = .leaf n s2 → s1.Plain →
        ∃ t, exec (.quote now ctx c.cseq) s = .next t ∧ Closed t ctx c.cseq ∧
          (∀ a, ¬(dst ≤ a ∧ a < dst + size) → t.byteAt a = s1.byteAt a) ∧
          ((s2.storeBy (some (ctx, c.cseq)) dst (quoteRecord (s2.quoteBody ctx ((c.packet.drop 64).take 32)) n)).bad = false →
            Ended t ctx c.cseq c.okStatus size))

/-- A started RECORD_START ends with BUSY while a recording of the partition is active, with REJECTED_PERM for a sealed context whose ring leaves its partition's segments, and otherwise ends with the ring taken for its context. RECORD_STOP of another context ends with AUX 0; of the recording context it ends with no recording active. A REPLAY_START that breaks R388 ends with that status; otherwise the target replays for it and the command stays in progress. A feed moves the next recorded packet to the target's intake once there is room, and drains the replay where none is left; a replay that is drained or stopped, with its target empty, ends, and a stopped one leaves its target fenced. -/
def Obligations.RecordingsAndReplays : Prop :=
  (∀ (s : State) (ctx : Nat) (c : Cmd), s.body ctx c.cseq .recordStart = some c →
    let p := partOf ctx
    let shut := (s.ctx ctx).session ≠ 0 ∧ s.inOwnSegs p (par c.packet 0 8) (65536 * par c.packet 8 4) = false
    ((s.recorder p).recActive = true → ∃ t, exec (.recordStart ctx c.cseq) s = .next t ∧ Ended t ctx c.cseq .busy 0 ∧
      t = { s with ctxs := t.ctxs, windows := t.windows }) ∧
    ((s.recorder p).recActive = false → shut → ∃ t, exec (.recordStart ctx c.cseq) s = .next t ∧ Ended t ctx c.cseq .rejectedPerm 0 ∧
      t = { s with ctxs := t.ctxs, windows := t.windows }) ∧
    ((s.recorder p).recActive = false → ¬shut → ∃ t, exec (.recordStart ctx c.cseq) s = .next t ∧ Closed t ctx c.cseq ∧
      (t.recorder p).recCtx = ctx ∧ (t.recorder p).base = par c.packet 0 8 ∧ (t.recorder p).size = 65536 * par c.packet 8 4 ∧
      (t.recorder p).what = par c.packet 12 4 ∧ t.gtime = s.gtime)) ∧
  (∀ (s : State) (ctx : Nat) (c : Cmd), s.body ctx c.cseq .recordStop = some c →
    let p := partOf ctx
    ((s.recorder p).recCtx ≠ ctx → ∃ t, exec (.recordStop ctx c.cseq) s = .next t ∧ Ended t ctx c.cseq c.okStatus 0 ∧
      t = { s with ctxs := t.ctxs, windows := t.windows }) ∧
    ((s.recorder p).recCtx = ctx → ∃ t, exec (.recordStop ctx c.cseq) s = .next t ∧ Closed t ctx c.cseq ∧
      (t.recorder p).recActive = false ∧ t.gtime = s.gtime)) ∧
  (∀ (s : State) (ctx : Nat) (c : Cmd), s.body ctx c.cseq .replayStart = some c →
    (∀ st, s.replayCheck ctx c = some st → ∃ t, exec (.replayStart ctx c.cseq) s = .next t ∧ Ended t ctx c.cseq st 0 ∧
      t = { s with ctxs := t.ctxs, windows := t.windows }) ∧
    (s.replayCheck ctx c = none → ∃ t, exec (.replayStart ctx c.cseq) s = .next t ∧ SameMem s t ∧
      (t.recorder (partOf ctx)).repActive = true ∧ (t.recorder (partOf ctx)).repCtx = par c.packet 16 2 ∧
      (t.recorder (partOf ctx)).owner = (ctx, c.cseq) ∧ ∀ k ∈ (t.ctx ctx).cmds, k.cseq = c.cseq → k.issued = true)) ∧
  (∀ (s : State) (p : Nat),
    let r := s.recorder p
    r.repActive = true → r.drained = false → s.flag (phReplayA p) phReplayStopped = false →
      (s.nextPacket p r.cursor = none → ∃ t, exec (.replayFeed p) s = .next t ∧ (t.recorder p).drained = true ∧
        Closed t r.owner.1 r.owner.2 ∧ SameMem s t) ∧
      (∀ x, s.nextPacket p r.cursor = some x → (s.ctx r.repCtx).ready = [] →
        (s.ctx r.repCtx).unitsHeld + frameLen (s.repPacket p x) ≤ 1024 →
        ∃ t, exec (.replayFeed p) s = .next t ∧ (t.ctx r.repCtx).ready = [s.repPacket p x] ∧ (t.recorder p).fed = r.fed + 1 ∧
          SameMem s t)) ∧
  (∀ (s : State) (p : Nat),
    let r := s.recorder p
    let stopped := s.flag (phReplayA p) phReplayStopped
    r.repActive = true → r.drained = true ∨ stopped = true → (s.ctx r.repCtx).ready = [] → (s.ctx r.repCtx).cmds = [] →
      ∃ t, exec (.replayEnd p) s = .next t ∧ (t.recorder p).repActive = false ∧ (t.recorder p).clasps = [] ∧
        (stopped = true → (t.ctx r.repCtx).fenced = true) ∧ SameMem s t)

/-- A started collective or BARRIER outside a replay, whose slice has no directory entry here or an ABORTED one, ends with REJECTED_PERM and changes nothing else; otherwise it is under way as a member of its slice's collective (its command issued, to end with the collective). A collective that has reached its time limit ends with TIMEOUT. -/
def Obligations.CollectivesStart : Prop :=
  (∀ (s : State) (ctx : Nat) (c : Cmd) (o : Opc) (i : Instr),
    (o = .allreduce ∧ i = .allreduce ctx c.cseq) ∨ (o = .reduce ∧ i = .reduce ctx c.cseq) ∨ (o = .bcast ∧ i = .bcast ctx c.cseq) ∨
      (o = .allgather ∧ i = .allgather ctx c.cseq) ∨ (o = .barrier ∧ i = .barrier ctx c.cseq) →
    s.body ctx c.cseq o = some c → s.replayOf ctx = none →
      (s.sliceEntry (s.ctxSlice ctx) = none → ∃ t, exec i s = .next t ∧ Ended t ctx c.cseq .rejectedPerm 0 ∧
        t = { s with ctxs := t.ctxs, windows := t.windows }) ∧
      (∀ e, s.sliceEntry (s.ctxSlice ctx) = some e → s.flag (fdSlicedirA e) fdSlicedirAborted = true →
        ∃ t, exec i s = .next t ∧ Ended t ctx c.cseq .rejectedPerm 0 ∧ t = { s with ctxs := t.ctxs, windows := t.windows }) ∧
      (∀ e, s.sliceEntry (s.ctxSlice ctx) = some e → s.flag (fdSlicedirA e) fdSlicedirAborted = false →
        ∃ t, exec i s = .next t ∧ ∀ k ∈ (t.ctx ctx).cmds, k.cseq = c.cseq → k.issued = true)) ∧
  (∀ (s : State) (now ctx : Nat) (c : Cmd) (m : CollMember),
    let s1 := s.advance now
    (s1.ctx ctx).cmd c.cseq = some c → c.is Opc.isColl = true → c.stage = .started → s1.replayOf ctx = none →
      (s1.colls.flatMap (fun q => q.members)).find? (fun m => decide (m.ctx = ctx ∧ m.cseq = c.cseq)) = some m → m.limit ≠ 0 →
      c.tStart + m.limit * 1000000 ≤ s1.gtime →
      ∃ t, exec (.collectiveTimeout now ctx c.cseq) s = .next t ∧ Closed t ctx c.cseq)

/-- A bead or message of the kind of MSG_HEAD, ACK, RED_HEAD, MC_HEAD, BAR_UP, BAR_DOWN, CLASP_BEAD or MULTICAST_REPLICATE, taken from a link end, that the checks of R335 drop has no effect beyond the drop; a routed one that is for another module is passed on towards it and has no other effect; a multicast message of an entry that is no tree is replicated by the group table. -/
def Obligations.ScreenedMessages : Prop :=
  ∀ (s : State) (now link : Nat) (m : Msg),
    let s1 := s.advance now
    let held := (s1.sliceEntry m.head.slice).any (fun i => s1.forHere i m.head) = true ∧ m.head.dport < 12 ∧
      s1.filling m.head.dport (bits (leAt m.head.pay 8 8) 0 44) (leAt m.head.pay 16 2) = true
    (∀ s2 x, s1.screened link m = some (s2, none, x) →
      (m.head.kind = 3 → exec (.redHead now link m) s = .next s2) ∧
      (m.head.kind = 5 → exec (.mcHead now link m) s = .next s2) ∧
      (m.head.kind = 1 → ¬held →
        exec (.msgHead now link m) s = .next s2) ∧
      (m.data = [] → (m.head.kind = 7 → exec (.ack now link m.head) s = .next s2) ∧
        (m.head.kind = 9 → exec (.barUp now link m.head) s = .next s2) ∧
        (m.head.kind = 10 → exec (.barDown now link m.head) s = .next s2))) ∧
    (∀ s2 i x, s1.screened link m = some (s2, some i, x) → s2.forHere i m.head = false →
      (m.head.kind = 3 → exec (.redHead now link m) s = .next (s2.forward i link m x)) ∧
      (m.head.kind = 1 → ¬held →
        exec (.msgHead now link m) s = .next (s2.forward i link m x)) ∧
      (m.data = [] → (m.head.kind = 7 → exec (.ack now link m.head) s = .next (s2.forward i link m x)) ∧
        (m.head.kind = 9 → exec (.barUp now link m.head) s = .next (s2.forward i link m x)))) ∧
    (∀ s2 x, s.screened link m = some (s2, none, x) → (m.head.kind = 8 → m.data = [] → exec (.claspBead link m.head) s = .next s2) ∧
      (m.head.kind = 5 ∨ m.head.kind = 10 → exec (.multicastReplicate link m) s = .next s2)) ∧
    (∀ s2 i x, s.screened link m = some (s2, some i, x) →
      (m.head.kind = 8 → m.data = [] → s2.forHere i m.head = false → exec (.claspBead link m.head) s = .next (s2.forward i link m x)) ∧
      (m.head.kind = 5 ∨ m.head.kind = 10 → s2.fld (fdTreedefA i (m.head.group % 256)) fdTreedefMode ≠ 1 →
        s2.fld (fdTreedefA i (m.head.group % 256)) fdTreedefMode ≠ 2 →
        ∃ t, exec (.multicastReplicate link m) s = .next t ∧ t = s2.replicate i link m x ∧ SameMem s t ∧ t.ctxs = s.ctxs))

/-- A chunk for this module stores nothing outside its destination range, and nothing at all where the bezel of its partition is fenced or its range is not one it may write. An ACK of a mover of an open partition takes the message it names off the mover's outstanding ones. A clasp-signal bead that may change the clasp, of a partition that records nothing, adds its increment to it modulo 2^64, and sets TAINT where it carries one. An ABORT bead of another instance of the slice, or for another port, aborts nothing; an abort of an entry already aborted changes nothing. -/
def Obligations.RemoteMessagesArrive : Prop :=
  (∀ (s : State) (now link : Nat) (m : Msg) (s2 : State) (i : Nat) (x : Bool),
    let s1 := s.advance now
    let p := m.head.dport
    let a := bits (leAt m.head.pay 8 8) 0 44
    let n := leAt m.head.pay 16 2
    m.head.kind = 1 → s1.filling p a n = false → s1.screened link m = some (s2, some i, x) → s2.forHere i m.head = true →
      (s2.bezelOpen p = false ∨ s2.chunkPlace p a n = false ∨ n = 0 ∨ 4096 < n →
        ∃ t, exec (.msgHead now link m) s = .next t ∧ SameMem s1 t ∧ t.ctxs = s1.ctxs) ∧
      (s2.bezelOpen p = true → s1.Plain → (∀ q, (s1.recorder q).recActive = false) →
        ∃ t, exec (.msgHead now link m) s = .next t ∧ ∀ b, ¬(a ≤ b ∧ b < a + n) → t.byteAt b = s1.byteAt b)) ∧
  (∀ (s : State) (now link : Nat) (b : Bead) (s2 : State) (i : Nat) (x : Bool) (k : Sent),
    let s1 := s.advance now
    let p := b.group / 16
    let tile := 2 * p + b.group / 8 % 2
    let mv := b.group % 8
    b.kind = 7 → s1.screened link ⟨b, []⟩ = some (s2, some i, x) → s2.forHere i b = true → p < 12 → p = b.dport →
      (s2.bezelOpen p = false → ∃ t, exec (.ack now link b) s = .next t ∧ OnlyRegs s2 t [phBezelA p] ∧
        t.fld (phBezelA p) phBezelAbsorbed = min (2 ^ phBezelAbsorbed.width - 1) (s2.fld (phBezelA p) phBezelAbsorbed + 1)) ∧
      (s2.bezelOpen p = true → (s2.mover tile mv).owner.2 = 0 →
        (s2.mover tile mv).sent.find? (fun q => decide (q.seq = leAt b.pay 0 4)) = some k →
        ∃ t, exec (.ack now link b) s = .next t ∧ t = { s2 with movers := t.movers, windows := t.windows } ∧
          (t.mover tile mv).sent.length + 1 = (s2.mover tile mv).sent.length ∧
          (t.mover tile mv).result = mvResult (s2.mover tile mv).result (leAt b.pay 4 1))) ∧
  (∀ (s : State) (link : Nat) (b : Bead) (s2 : State) (i : Nat) (x : Bool),
    let p := b.dport
    let k := leAt b.pay 0 4 % 2 ^ 20
    b.kind = 8 → s.screened link ⟨b, []⟩ = some (s2, some i, x) → s2.forHere i b = true → p < 12 → k < 4096 →
      (s2.bezelOpen p = true → s2.claspFrom p b.slice k = true → (s2.recorder p).recActive = false →
        ∃ t, exec (.claspBead link b) s = .next t ∧
          t.claspVal p k = (s2.claspVal p k + bits (leAt b.pay 8 8) 0 44) % two64 ∧
          t.claspTaint p k = (s2.claspTaint p k || (leAt b.pay 16 1).testBit 0)) ∧
      (s2.bezelOpen p = false ∨ s2.claspFrom p b.slice k = false →
        ∃ t, exec (.claspBead link b) s = .next t ∧ t.claspVal p k = s2.claspVal p k ∧ SameMem s t ∧ t.ctxs = s.ctxs)) ∧
  (∀ (s : State) (now link : Nat) (b : Bead) (s2 : State) (i : Nat) (x : Bool),
    let s1 := s.advance now
    b.kind = 12 → link < 6 → s1.takeBead link b = some (s2, x) → s2.sliceEntry b.slice = some i →
      (b.dport ≠ 15 ∨ leAt b.pay 2 1 ≠ s2.fld (fdSlicedirA i) fdSlicedirInstance →
        ∃ t, exec (.abortBead now link b) s = .next t ∧ SameMem s1 t ∧ t.ctxs = s1.ctxs ∧ t.colls = s1.colls) ∧
      (b.dport = 15 → leAt b.pay 2 1 = s2.fld (fdSlicedirA i) fdSlicedirInstance → s2.flag (fdSlicedirA i) fdSlicedirAborted = true →
        exec (.abortBead now link b) s = .next s2))

/-- On an up link a frame of 584 bytes whose FCRC fails leaves a NAK owed and counts one more FCRC failure, one whose seal does not open leaves a NAK owed and counts one more tag failure, and neither changes anything else; a good frame out of sequence leaves the expected sequence number as it is, and one in sequence with room raises it by 1 modulo 4,096. A retry timeout counts every frame of the retry buffer as resent. A retrain order, or a full retrain begun by the other end, takes an up link to RETRAINING at this GTIME; a full retrain that placed its lanes within the round-trip limit brings the link up again with the round trip measured. -/
def Obligations.LinkFramesArrive : Prop :=
  (∀ (s : State) (now link : Nat) (f : List Byte),
    let s1 := s.advance now
    let seq := bits (leAt f 576 4) 0 12
    s1.linkUp link = true → f.length = 584 →
      (crc32c (f.take 580) ≠ leAt f 580 4 → ∃ t, exec (.frameReceive now link f) s = .next t ∧
        (t.link link).nakOwed = true ∧ OnlyRegs { s1 with links := t.links } t [lxCrcerrA link] ∧
        t.fld (lxCrcerrA link) lxCrcerrFcrcFail = min (2 ^ lxCrcerrFcrcFail.width - 1) (s1.fld (lxCrcerrA link) lxCrcerrFcrcFail + 1)) ∧
      (crc32c (f.take 580) = leAt f 580 4 → s1.openFrame link f = none → ∃ t, exec (.frameReceive now link f) s = .next t ∧
        (t.link link).nakOwed = true ∧ OnlyRegs { s1 with links := t.links } t [lkLinkstatA link]) ∧
      (∀ bs n, crc32c (f.take 580) = leAt f 580 4 → s1.openFrame link f = some (bs, n) →
        ∃ t, exec (.frameReceive now link f) s = .next t ∧ SameMem s1 t ∧ t.ctxs = s1.ctxs ∧
          (seq ≠ (s1.link link).rxSeq → (t.link link).rxSeq = (s1.link link).rxSeq) ∧
          (seq = (s1.link link).rxSeq → s1.hasRoom link bs = true → (t.link link).rxSeq = ((s1.link link).rxSeq + 1) % 4096))) ∧
  (∀ (s : State) (now link : Nat),
    let s1 := s.advance now
    let l := s1.link link
    s1.linkUp link = true → l.retry ≠ [] → l.timer + 1000 * s1.fld (lxCtlA link) lxCtlRetryUs ≤ s1.gtime →
      ∃ t, exec (.retryTimeout now link) s = .next t ∧ SameMem s1 t ∧
        t.fld (lxErrA link) lxErrResent = min (2 ^ lxErrResent.width - 1) (s1.fld (lxErrA link) lxErrResent + l.retry.length) ∧
        (t.link link).timer = s1.gtime ∧ (t.link link).retry = l.retry) ∧
  (∀ (s : State) (now link rtt : Nat) (w : Writer) (placed : Bool),
    let s1 := s.advance now
    (s1.linkUp link = true → ∀ i, i = .linkFullRetrain now link rtt placed ∨ (i = .linkRetrainOrder now link w ∧ mayReachReg w (lxCtlA link) = true) →
      ∃ t, exec i s = .next t ∧ t = { s1 with links := t.links, regs := t.regs, evc := t.evc } ∧
        t.fld (lxStatA link) lxStatState = 3 ∧ (t.link link).retrainAt = some s1.gtime) ∧
    (link < 6 → s1.fld (lxStatA link) lxStatState = 3 → placed = true → rtt ≤ 1240 →
      ∃ t, exec (.linkFullRetrain now link rtt placed) s = .next t ∧ t.fld (lxStatA link) lxStatState = 2 ∧
        t.fld (lxStatA link) lxStatRttNs = min 2047 rtt ∧ (t.link link).retrainAt = none))

/-- LINK_DOWN (causes 1 and 8), LASER_FAULT, STOP, clearing LX.CTL.ENABLE and the end of a retrain that failed or took 50 ms take a link that trains, is up or retrains down with their cause: a failed retrain as FAILED, the others as DOWN. With no slice configured nothing is queued or unacknowledged on the link afterwards, no link key is installed on it, and memory and contexts are as before. LINK_ENABLE_WRITE sets ENABLE. -/
def Obligations.LinksGoDown : Prop :=
  ∀ (s : State) (now link : Nat),
    let s1 := s.advance now
    let idle := ∀ i, i < 64 → s1.fld (fdSlicedirA i) fdSlicedirSlice = 0
    let on := s1.fld (lxStatA link) lxStatState = 1 ∨ s1.fld (lxStatA link) lxStatState = 2 ∨ s1.fld (lxStatA link) lxStatState = 3
    let down := fun (t : State) (cause st : Nat) => t.fld (lxStatA link) lxStatState = st ∧ t.fld (lxStatA link) lxStatCause = cause ∧
      (t.link link).retry = [] ∧ (t.link link).outbox = [] ∧ kvGet [] t.locket.linkKeys link = [] ∧ SameMem s1 t ∧ t.ctxs = s1.ctxs
    link < 6 → idle →
      (∀ cause, cause = 1 ∨ cause = 8 → on → ∃ t, exec (.linkDown now link cause) s = .next t ∧ down t cause 0) ∧
      (on → ∃ t, exec (.laserFault now (link % 2)) s = .next t ∧ down t 6 0) ∧
      (∀ b s2 x, s1.takeBead link b = some (s2, x) → b.kind = 11 → leAt b.pay 0 1 = 3 → s2.linkHolds link = true →
        ∃ t, exec (.stop now link b) s = .next t ∧ down t 2 0) ∧
      (∀ w, s1.domOn (88 + link) = true → mayReachReg w (lxCtlA link) = true →
        (on → ∃ t, exec (.linkEnableWrite now link false w) s = .next t ∧ down t 7 0 ∧ t.fld (lxCtlA link) lxCtlEnable = 0) ∧
        (∃ t, exec (.linkEnableWrite now link true w) s = .next t ∧ t.fld (lxCtlA link) lxCtlEnable = 1 ∧ OnlyRegs s1 t [lxCtlA link])) ∧
      (∀ rtt, s1.fld (lxStatA link) lxStatState = 3 →
        (∃ t, exec (.linkFullRetrain now link rtt false) s = .next t ∧ down t 3 4) ∧
        (1240 < rtt → ∃ t, exec (.linkFullRetrain now link rtt true) s = .next t ∧ down t 9 0)) ∧
      (∀ t0, (s1.link link).retrainAt = some t0 → t0 + 50000000 ≤ s1.gtime →
        ∃ t, exec (.linkRetrainTimeout now link) s = .next t ∧ down t 4 4)

/-- An abort of a directory entry's slice that is not aborted sets ABORTED, ends the collectives and folds of the entry, and, where no kernel runs, leaves every context of the slice fenced with all its commands finished with ABORTED_SLICE. A second abort of it changes nothing. -/
def Obligations.SliceAborts : Prop :=
  ∀ (s : State) (now entry cause link : Nat),
    let s1 := s.advance now
    let slice := s1.fld (fdSlicedirA entry) fdSlicedirSlice
    entry < 64 → cause < 16 → link < 6 → slice ≠ 0 →
      (s1.flag (fdSlicedirA entry) fdSlicedirAborted = true → exec (.sliceAbort now entry cause link) s = .next s1) ∧
      (s1.flag (fdSlicedirA entry) fdSlicedirAborted = false → (∀ c, ∀ k ∈ (s1.ctx c).cmds, k.is Opc.isRun = false) →
        ∃ t, exec (.sliceAbort now entry cause link) s = .next t ∧ t.flag (fdSlicedirA entry) fdSlicedirAborted = true ∧
          (∀ k ∈ t.colls, k.entry ≠ entry) ∧ (∀ f ∈ t.folds, f.entry ≠ entry) ∧ SameMem s1 t ∧
          ∀ c, c < 800 → s1.ctxSlice c = slice → (t.ctx c).fenced = true ∧
            ∀ k ∈ (t.ctx c).cmds, k.stage = .finished ∧ k.status = .abortedSlice)

/-- A receive lane in use that passes its error limit on an up link gives its place to the lowest spare lane, or starts a full retrain where none is left. A link that may train and is down begins training at the earliest 1 s after its last attempt; one that trains and has heard the right peer within the round-trip limit, with its screen passed, comes up with its sequence numbers at 0. A TRAIN bead to a training link stores the peer's number and link, and answers with a TRAIN bead. -/
def Obligations.LinksTrain : Prop :=
  (∀ (s : State) (link lane : Nat), s.linkUp link = true → lane < 72 → s.fld (lxLaneA link (72 + lane)) lxLaneRole = 0 →
    (∀ new, s.spareLane link 72 = some new → ∃ t, exec (.laneSwap link true lane) s = .next t ∧
      t.fld (lxLaneA link (72 + lane)) lxLaneRole = 2 ∧ t.fld (lxLaneA link (72 + new)) lxLaneRole = 0 ∧
      t.fld (lxLaneA link (72 + new)) lxLaneSlot = s.fld (lxLaneA link (72 + lane)) lxLaneSlot ∧ SameMem s t ∧ t.ctxs = s.ctxs) ∧
    (s.spareLane link 72 = none → ∃ t, exec (.laneSwap link true lane) s = .next t ∧ t.fld (lxStatA link) lxStatState = 3 ∧
      (t.link link).retrainAt = some s.gtime)) ∧
  (∀ (s : State) (now link : Nat) (ok : Bool),
    let s1 := s.advance now
    let l := s1.link link
    s1.mayTrain link = true →
      (s1.fld (lxStatA link) lxStatState = 0 ∨ s1.fld (lxStatA link) lxStatState = 4 → l.tried = 0 ∨ l.tried + 1000000000 ≤ s1.gtime →
        ∃ t, exec (.linkTraining now link ok) s = .next t ∧ t.fld (lxStatA link) lxStatState = 1 ∧ (t.link link).tried = s1.gtime ∧
          OnlyRegs { s1 with links := t.links } t [lxStatA link]) ∧
      (∀ p, s1.fld (lxStatA link) lxStatState = 1 → l.peer = some p → s1.peerOk link p = true →
        s1.fld (lxStatA link) lxStatRttNs ≤ 1240 → ok = true →
        ∃ t, exec (.linkTraining now link ok) s = .next t ∧ t.fld (lxStatA link) lxStatState = 2 ∧ (t.link link).txSeq = 0 ∧
          (t.link link).rxSeq = 0 ∧ (t.link link).retry = [] ∧ t = { s1 with links := t.links, regs := t.regs, evc := t.evc })) ∧
  (∀ (s : State) (now link : Nat) (b : Bead),
    let s1 := s.advance now
    link < 6 → s1.fld (lxStatA link) lxStatState = 1 → b.kind = 11 → leAt b.pay 0 1 = 1 → leAt b.pay 9 1 ≠ 2 →
      ∃ t, exec (.train now link b) s = .next t ∧ (t.link link).peer = some (leAt b.pay 2 2 % 4096, leAt b.pay 4 1) ∧
        OnlyRegs { s1 with links := t.links, resp := t.resp } t [lxStatA link] ∧
        t.fld (lxStatA link) lxStatPeerNode = leAt b.pay 2 2 % 4096 ∧
        ∃ r : Bead, t.resp = .bytes r.bytes ∧ r.kind = 11 ∧ leAt r.pay 0 1 = 1)

/-- A sequence number a is later than b exactly when (a − b) mod 2^32 lies from 1 to 2^31 − 1, and neither is later exactly when that difference is 0 or 2^31. -/
def Obligations.LaterComparesModulo : Prop :=
  ∀ a b : BitVec 32,
    (later a.toNat b.toNat = true ↔ 1 ≤ (a - b).toNat ∧ (a - b).toNat ≤ 2 ^ 31 - 1) ∧
    ((later a.toNat b.toNat = false ∧ later b.toNat a.toNat = false) ↔ ((a - b).toNat = 0 ∨ (a - b).toNat = 2 ^ 31))

/-- On a hart that runs with a valid context, an unaligned descriptor address traps with cause 4 and nothing else changes. Where the descriptor is read: a unit that is absent answers 3, one that pips do not own (or an ME switched off or resetting) 2, a descriptor that fails its checks 4 + 256 × its fault code, a full queue 1; otherwise the descriptor stands at the end of the queue and rd reads 0. No memory changes. -/
def Obligations.QueuePushes : Prop :=
  (∀ (s : State) (tile hart rd rs1 rs2 : Nat) (i : Instr), s.pipRuns tile hart = true → s.pipCtx tile hart < 800 →
    aligned 128 ((s.hart tile hart).get rs1) = false → i = .meqPush tile hart rd rs1 rs2 ∨ i = .mvqPush tile hart rd rs1 rs2 →
    ∃ t, exec i s = .next t ∧ t = { s with harts := t.harts } ∧ (t.hart tile hart).trap = 5 ∧ (t.hart tile hart).x = (s.hart tile hart).x) ∧
  (∀ (s : State) (tile hart rd rs1 rs2 : Nat) (d : List Byte),
    let c := s.pipCtx tile hart
    let a := (s.hart tile hart).get rs1
    let j := (s.hart tile hart).get rs2
    let u := (s.readMem 0 a 128).st
    s.pipRuns tile hart = true → c < 800 → aligned 128 a = true → (s.hart tile hart).translates a 128 = true →
    s.pipReaches tile c a 128 = true → (s.readMem 0 a 128).data = some d → rd ≠ 0 → s.Plain →
      (∃ t, exec (.meqPush tile hart rd rs1 rs2) s = .next t ∧ t = { u with harts := t.harts, mes := t.mes } ∧ SameMem s t ∧
        (6 ≤ j ∨ u.mePresent tile j = false → (t.hart tile hart).get rd = 3 ∧ t.mes = u.mes) ∧
        (j < 6 → u.mePresent tile j = true → u.mePip tile j = false ∨ u.meUp tile j = false → (t.hart tile hart).get rd = 2 ∧ t.mes = u.mes) ∧
        (j < 6 → u.mePresent tile j = true → u.mePip tile j = true → u.meUp tile j = true →
          (u.meCheck tile c d ≠ 0 → u.meCheck tile c d < 16 → (t.hart tile hart).get rd = 4 + 256 * u.meCheck tile c d ∧ t.mes = u.mes) ∧
          (u.meCheck tile c d = 0 → 16 ≤ (u.me tile j).queue.length → (t.hart tile hart).get rd = 1 ∧ t.mes = u.mes) ∧
          (u.meCheck tile c d = 0 → (u.me tile j).queue.length < 16 → (t.hart tile hart).get rd = 0 ∧
            (t.me tile j).queue = (u.me tile j).queue ++ [entryOf d c (u.pipCseq tile hart)]))) ∧
      (∃ t, exec (.mvqPush tile hart rd rs1 rs2) s = .next t ∧ t = { u with harts := t.harts, movers := t.movers } ∧ SameMem s t ∧
        (8 ≤ j → (t.hart tile hart).get rd = 3 ∧ t.movers = u.movers) ∧
        (j < 8 → u.mvPip tile j = false → (t.hart tile hart).get rd = 2 ∧ t.movers = u.movers) ∧
        (j < 8 → u.mvPip tile j = true →
          (u.mvCheck tile c d ≠ 0 → u.mvCheck tile c d < 16 → (t.hart tile hart).get rd = 4 + 256 * u.mvCheck tile c d ∧ t.movers = u.movers) ∧
          (u.mvCheck tile c d = 0 → 32 ≤ (u.mover tile j).queue.length → (t.hart tile hart).get rd = 1 ∧ t.movers = u.movers) ∧
          (u.mvCheck tile c d = 0 → (u.mover tile j).queue.length < 32 → (t.hart tile hart).get rd = 0 ∧
            (t.mover tile j).queue = (u.mover tile j).queue ++ [entryOf d c (u.pipCseq tile hart)]))))

/-- On a hart that runs with a valid context: a clasp.wait for a clasp outside its rights traps with cause 5, one already satisfied writes 0 to rd, and another makes the hart wait; a wait that has lasted its limit ends with 1 in rd. A clasp.add outside its rights traps with cause 7; within them, in a partition that neither records nor replays, the clasp holds its prior value plus rs2 [43:0] modulo 2^64, and rd holds the prior value. -/
def Obligations.ClaspInstructions : Prop :=
  (∀ (s : State) (now tile hart rd rs1 rs2 : Nat),
    let s1 := s.advance now
    let x := s1.hart tile hart
    let c := s1.pipCtx tile hart
    let i := bits (x.get rs1) 0 20
    let v := bits (x.get rs2) 0 44
    s1.pipRuns tile hart = true → c < 800 →
      (s1.pipClasp tile c i = false → ∃ t, exec (.claspWait now tile hart rd rs1 rs2 false) s = .next t ∧ t = { s1 with harts := t.harts } ∧
        (t.hart tile hart).trap = 6) ∧
      (s1.pipClasp tile c i = true → v ≤ s1.ctxClasp c i → ∃ t, exec (.claspWait now tile hart rd rs1 rs2 false) s = .next t ∧
        t = { s1 with harts := t.harts, undo := t.undo } ∧ (t.hart tile hart).get rd = 0 ∧ (t.hart tile hart).wait = none) ∧
      (s1.pipClasp tile c i = true → s1.ctxClasp c i < v → ∃ t, exec (.claspWait now tile hart rd rs1 rs2 false) s = .next t ∧
        t = { s1 with harts := t.harts } ∧
        (t.hart tile hart).wait = some ⟨rd, i, v, s1.gtime, s1.fld (pipCtlA tile hart) pipCtlWaitlim⟩)) ∧
  (∀ (s : State) (now tile hart : Nat) (w : ClaspWait),
    let s1 := s.advance now
    tile < 24 → hart < 32 → (s1.hart tile hart).wait = some w → w.since + 1000 * w.limit ≤ s1.gtime →
      ∃ t, exec (.claspWaitTimeout now tile hart) s = .next t ∧ t = { s1 with harts := t.harts } ∧ (t.hart tile hart).wait = none ∧
        (w.rd ≠ 0 → (t.hart tile hart).get w.rd = 1)) ∧
  (∀ (s : State) (tile hart rd rs1 rs2 : Nat),
    let x := s.hart tile hart
    let c := s.pipCtx tile hart
    let i := bits (x.get rs1) 0 20
    s.pipRuns tile hart = true → c < 800 →
      (s.pipClasp tile c i = false → ∃ t, exec (.claspAdd tile hart rd rs1 rs2) s = .next t ∧ t = { s with harts := t.harts } ∧
        (t.hart tile hart).trap = 8) ∧
      (s.pipClasp tile c i = true → (s.recorder (partOf c)).recActive = false → (s.recorder (partOf c)).repActive = false →
        ∃ t, exec (.claspAdd tile hart rd rs1 rs2) s = .next t ∧ SameMem s t ∧
          t.claspVal (partOf c) i = (s.claspVal (partOf c) i + bits (x.get rs2) 0 44) % two64 ∧
          (rd ≠ 0 → (t.hart tile hart).get rd = s.claspVal (partOf c) i)))

/-- On a hart that runs: evt.raise of a number above 31 traps with cause 2, and of another counts one more occurrence at its occurrence source; cnt.snap writes 1 to rd where the bank is off, traps with cause 6 for an unaligned address, and otherwise stores nothing outside its 128 bytes; a load within the kernel's arguments answers them, one beyond the rights faults; a store changes no byte outside its range; a time read without a kernel answers GTIME. A host access to the management-only space, or one that the way to memory refuses, faults with no effect on memory; a host store changes no byte outside its range, and a host load none. -/
def Obligations.PipEventsAndAccesses : Prop :=
  (∀ (s : State) (tile hart rd rs1 : Nat),
    let x := s.hart tile hart
    let c := s.pipCtx tile hart
    let v := x.get rs1
    s.pipRuns tile hart = true → c < 800 →
      (31 < v → ∃ t, exec (.evtRaise tile hart rs1) s = .next t ∧ t = { s with harts := t.harts } ∧ (t.hart tile hart).trap = 3) ∧
      (v ≤ 31 → evcAssigned (32 * tile + v) = true → evcIsLevel (32 * tile + v) = false →
        ∃ t, exec (.evtRaise tile hart rs1) s = .next t ∧
          t.fld (evcSrcstatA (32 * tile + v)) evcSrcstatPending = 1 ∧
          t.fld (evcSrcstatA (32 * tile + v)) evcSrcstatCount = min 255 (s.fld (evcSrcstatA (32 * tile + v)) evcSrcstatCount + 1) ∧
          (t.evSrc (32 * tile + v)).info = 32 * (tile % 2) + hart ∧
          OnlyRegs { s with evc := t.evc } t [evcSrcstatA (32 * tile + v)]) ∧
      ((s.ctx c).cntOn = false → ∃ t, exec (.cntSnap tile hart rd rs1) s = .next t ∧ t = { s with harts := t.harts } ∧
        (rd ≠ 0 → (t.hart tile hart).get rd = 1)) ∧
      ((s.ctx c).cntOn = true → aligned 128 v = false → ∃ t, exec (.cntSnap tile hart rd rs1) s = .next t ∧
        t = { s with harts := t.harts } ∧ (t.hart tile hart).trap = 7) ∧
      ((s.ctx c).cntOn = true → aligned 128 v = true → x.translates v 128 = true → inTileStore v = true →
        s.pipReaches tile c v 128 = true → s.Plain →
        ∃ t, exec (.cntSnap tile hart rd rs1) s = .next t ∧ ∀ a, ¬(v ≤ a ∧ a < v + 128) → t.byteAt a = s.byteAt a)) ∧
  (∀ (s : State) (tile hart addr len : Nat) (data : List Byte),
    let x := s.hart tile hart
    let c := s.pipCtx tile hart
    s.pipRuns tile hart = true →
      (x.job.isSome = true → x.get 11 ≤ addr → addr + len ≤ x.get 11 + x.args.length →
        ∃ t, exec (.pipAccess tile hart .load addr len data) s = .next t ∧
          t = { s with resp := .bytes ((x.args.drop (addr - x.get 11)).take len) }) ∧
      (x.job = none → s.pipReaches tile c addr len = false →
        ∃ t, exec (.pipAccess tile hart .load addr len data) s = .next t ∧ t.resp = .fault ∧ (t.hart tile hart).trap = 6 ∧
          t = { s with harts := t.harts, resp := .fault }) ∧
      (s.Plain → ∃ t, exec (.pipAccess tile hart .store addr len data) s = .next t ∧
        ∀ a, ¬(addr ≤ a ∧ a < addr + data.length) → t.byteAt a = s.byteAt a) ∧
      (x.job = none → exec (.pipAccess tile hart .timeRead addr len data) s = .next (s.answer (.bytes (natLe 8 s.gtime))))) ∧
  (∀ (s : State) (w : Bool) (addr len : Nat) (data : List Byte), s.domOn 96 = true → len ≠ 0 → len ≤ 64 → (w = true → data.length = len) →
    (regionOf addr = .mgmt → exec (.hostAccess w addr len data) s = .next (s.answer .fault)) ∧
    (addr < 0x30000000000 → s.memWay addr len = .go → s.Plain →
      ∃ t, exec (.hostAccess w addr len data) s = .next t ∧ t.ctxs = s.ctxs ∧
        ∀ a, (w = true → ¬(addr ≤ a ∧ a < addr + len)) → t.byteAt a = s.byteAt a) ∧
    (addr < 0x30000000000 → s.memWay addr len = .fault none → exec (.hostAccess w addr len data) s = .next (s.answer .fault)))

/-- A powered ME that executes nothing, is in no reset and is not held for a collective takes the descriptor at the front of its queue. A descriptor in execution that neither opens a chain nor continues the open one ends with fault code 7 and its chain discarded; any other one ends too, leaving the ME free, with its chain closed where it is the last. A pending change of an ME's owner lands once the ME is empty and not before. -/
def Obligations.EngineDescriptors : Prop :=
  (∀ (s : State) (tile m : Nat) (d : List Byte) (ds : List (List Byte)),
    let x := s.me tile m
    tile < 24 → x.queue = d :: ds → s.mePresent tile m = true → x.cur = none → x.rstAt = none → s.meUp tile m = true →
      (s.collRunning (tile / 2) = false → ∃ t, exec (.meDescriptorStart tile m) s = .next t ∧
        t = { s with mes := t.mes, windows := t.windows } ∧ t.me tile m = { x with queue := ds, cur := some d }) ∧
      (s.collRunning (tile / 2) = true → exec (.meDescriptorStart tile m) s = .next s)) ∧
  (∀ (s : State) (tile m : Nat) (d : List Byte),
    let x := s.me tile m
    x.cur = some d → x.rstAt = none → s.meUp tile m = true →
      (dscFlag d 0 = false → (dscFlag d 2 = true ∨ x.chain.any (fun c => chainSame c d) = false) →
        ∃ t, exec (.meDescriptorComplete tile m) s = .next t ∧ (t.me tile m).cur = none ∧ (t.me tile m).chain = none ∧
          (t.me tile m).queue = x.queue ∧ SameMem s t) ∧
      ((dscFlag d 0 = true ∨ (dscFlag d 2 = false ∧ x.chain.any (fun c => chainSame c d) = true)) →
        ∃ t, exec (.meDescriptorComplete tile m) s = .next t ∧ (t.me tile m).cur = none ∧
          (dscFlag d 1 = true → (t.me tile m).chain = none))) ∧
  (∀ (s : State) (tile m : Nat), tile < 24 → m < 6 → (s.fld (ctOwnA tile) ctOwnPend).testBit m = true →
    (s.meEmpty tile m = true → ∃ t, exec (.meOwnerChangeLand tile m) s = .next t ∧ OnlyRegs s t [ctOwnA tile] ∧
      t.mePip tile m = !s.mePip tile m ∧ (t.fld (ctOwnA tile) ctOwnPend).testBit m = false) ∧
    (s.meEmpty tile m = false → exec (.meOwnerChangeLand tile m) s = .next s))

/-- A powered mover that is free takes the descriptor at the front of its queue. A chunk of a local move whose codewords are in order stores nothing outside the rows of its destination; a mover that has sent or stored all its bytes takes no further chunk. A descriptor with every byte delivered and every message acknowledged ends, leaving the mover free, and none ends before. A message of a pip's transfer not acknowledged in its time stops the mover, and one of a command's transfer ends the command with TIMEOUT unless bad data had already stopped it. -/
def Obligations.MoverDescriptors : Prop :=
  (∀ (s : State) (tile mv : Nat) (d : List Byte) (ds : List (List Byte)),
    let x := s.mover tile mv
    tile < 24 → mv < 8 → x.queue = d :: ds → x.cur = none → x.owner = (0, 0) → s.domOn (3 * tile + 2) = true →
      dsc d 0 1 ≠ 3 → dsc d 0 1 ≠ 4 → (dsc d 1 1).testBit 2 = false →
      ∃ t, exec (.moverDescriptorStart tile mv) s = .next t ∧ t = { s with movers := t.movers, windows := t.windows } ∧
        (t.mover tile mv).cur = some d ∧ (t.mover tile mv).queue = ds ∧ (t.mover tile mv).pos = 0) ∧
  (∀ (s : State) (tile mv : Nat) (d : List Byte) (ds : List (List Byte)),
    let x := s.mover tile mv
    tile < 24 → mv < 8 → x.queue = d :: ds → x.cur = none → x.owner = (0, 0) → s.domOn (3 * tile + 2) = true →
      ∃ t, exec (.moverDescriptorStart tile mv) s = .next t ∧ (t.mover tile mv).queue = ds) ∧
  (∀ (s : State) (now tile mv : Nat) (d : List Byte),
    let s1 := s.advance now
    let m := s1.mover tile mv
    let x := dscXfer d
    m.cur = some d →
      (m.cut = true ∨ x.rows * x.dlen ≤ m.pos → exec (.moverChunk now tile mv) s = .next s1) ∧
      (m.cut = false → m.pos < x.rows * x.dlen → s1.Plain →
        ∃ t, exec (.moverChunk now tile mv) s = .next t ∧
          ((dsc d 1 1).testBit 2 = true → SameMem s1 t) ∧
          ((dsc d 1 1).testBit 2 = false → ∀ a, (∀ r, ¬((x.dstOf r).toNat ≤ a ∧ a < (x.dstOf r).toNat + x.dlen)) →
            t.byteAt a = s1.byteAt a))) ∧
  (∀ (s : State) (tile mv : Nat) (d : List Byte),
    let m := s.mover tile mv
    let x := dscXfer d
    m.cur = some d →
      (m.sent ≠ [] ∨ (m.pos < x.rows * x.dlen ∧ m.cut = false) → exec (.moverDescriptorComplete tile mv) s = .next s) ∧
      (m.sent = [] → x.rows * x.dlen ≤ m.pos ∨ m.cut = true →
        ∃ t, exec (.moverDescriptorComplete tile mv) s = .next t ∧ (t.mover tile mv).cur = none ∧ t.gtime = s.gtime)) ∧
  (∀ (s : State) (now tile mv seq : Nat) (k : Sent),
    let s1 := s.advance now
    let x := s1.mover tile mv
    x.sent.find? (fun q => decide (q.seq = seq ∧ q.time + 1000 * q.limit ≤ s1.gtime)) = some k → x.cut = false →
      (∀ d, x.owner.2 = 0 → x.cur = some d → ∃ t, exec (.ackTimeout now tile mv seq) s = .next t ∧ (t.mover tile mv).cur = none ∧
        (t.mover tile mv).sent = [] ∧ SameMem s1 t) ∧
      (∀ c, x.owner.2 ≠ 0 → (s1.ctx x.owner.1).cmd (x.owner.2 - 1) = some c → c.fault ≠ 5 →
        ∃ t, exec (.ackTimeout now tile mv seq) s = .next t ∧ Closed t x.owner.1 (x.owner.2 - 1)))

/-- Ordered by a writer that reaches the tile's registers, in a powered tile: a reset of a present hart leaves it at its reset state, unless stores it holds back must drain first; 50 µs after the start it is there whatever is left, with LOSSY set where something was lost. An ME group reset that completes leaves every ME of the group without queue, descriptor and chain; one that does not shows busy until, at least 2 ms later, the group's power cycle completes it. A mover abort leaves its mover without queue and descriptor. A pop takes the oldest record off a unit's fault queue. -/
def Obligations.TileUnitResets : Prop :=
  (∀ (s : State) (now tile hart : Nat) (w : Writer),
    let s1 := s.advance now
    s1.tileReg tile w (pipCtlA tile hart) = true → s1.hartPresent tile hart = true → (s1.hart tile hart).rstAt = none →
      (s1.hart tile hart).dirty = [] →
      ∃ t, exec (.pipReset now tile hart w) s = .next t ∧ t.hart tile hart = Hart.init ∧ t = { s1 with harts := t.harts } ∧
        ∀ q h, (q, h) ≠ (tile, hart) → h < 32 → t.hart q h = s1.hart q h) ∧
  (∀ (s : State) (now tile hart t0 : Nat),
    let s1 := s.advance now
    tile < 24 → hart < 32 → (s1.hart tile hart).rstAt = some t0 → t0 + 50000 ≤ s1.gtime →
      ∃ t, exec (.pipResetDrainExpire now tile hart) s = .next t ∧ t.hart tile hart = Hart.init ∧
        (((s1.hart tile hart).dirty.any (fun d => s1.unitHeld d.1)) = true → (s1.hart tile hart).dirty.all (fun d => s1.unitHeld d.1) = true →
          t.flag (pipStatA tile hart) pipStatLossy = true ∧ SameMem s1 t)) ∧
  (∀ (s : State) (now tile grp : Nat) (w : Writer),
    let s1 := s.advance now
    grp < 2 → s1.tileReg tile w (ctRstA tile) = true → s1.flag (ctRstA tile) (grpBusy grp) = false →
      (∃ t, exec (.meGroupReset now tile grp w true) s = .next t ∧ SameMem s1 t ∧
        ∀ m ∈ s1.grpMes tile grp, (t.me tile m).queue = [] ∧ (t.me tile m).cur = none ∧ (t.me tile m).chain = none) ∧
      (∃ t, exec (.meGroupReset now tile grp w false) s = .next t ∧ t.flag (ctRstA tile) (grpBusy grp) = true ∧
        OnlyRegs { s1 with mes := t.mes } t [ctRstA tile] ∧ ∀ m ∈ s1.grpMes tile grp, (t.me tile m).rstAt = some s1.gtime)) ∧
  (∀ (s : State) (now tile grp : Nat),
    let s1 := s.advance now
    let due := ∀ m ∈ s1.grpMes tile grp, ∀ t0, (s1.me tile m).rstAt = some t0 → t0 + 2000000 ≤ s1.gtime
    grp < 2 → tile < 24 → s1.flag (ctRstA tile) (grpBusy grp) = true →
      (due → ∃ t, exec (.meGroupPowerCycle now tile grp) s = .next t ∧ t.flag (ctRstA tile) (grpBusy grp) = false ∧
        t.flag (ctRstA tile) (grpCyc grp) = true ∧ SameMem s1 t) ∧
      (¬due → exec (.meGroupPowerCycle now tile grp) s = .next s1)) ∧
  (∀ (s : State) (tile u : Nat) (w : Writer),
    (u < 8 → s.tileReg tile w (mvCtlA tile u) = true → ∃ t, exec (.moverAbort tile u w) s = .next t ∧
      (t.mover tile u).queue = [] ∧ (t.mover tile u).cur = none ∧ SameMem s t) ∧
    (u < 8 → s.tileReg tile w (mvFaultA tile u) = true → ∃ t, exec (.unitFaultPop tile true u w) s = .next t ∧
      t = { s with movers := t.movers } ∧ t.mover tile u = { s.mover tile u with faults := (s.mover tile u).faults.drop 1 }) ∧
    (u < 6 → s.tileReg tile w (meFaultA tile u) = true → ∃ t, exec (.unitFaultPop tile false u w) s = .next t ∧
      t = { s with mes := t.mes } ∧ t.me tile u = { s.me tile u with faults := (s.me tile u).faults.drop 1 }))

/-- A writer that reaches it clears both error counts of a powered tile's store, and nothing else changes. A scrub of a bank's row changes no stored byte, goes on to the next of its 16,384 rows, and leaves no word of the row with one bit in error, while a word that was uncorrectable stays so. -/
def Obligations.TileStoreKeepsItsCode : Prop :=
  (∀ (s : State) (tile : Nat) (w : Writer), s.tileReg tile w (tsEccA tile) = true →
    ∃ t, exec (.tsEccClear tile w) s = .next t ∧ OnlyRegs s t [tsEccA tile] ∧ t.fld (tsEccA tile) tsEccCeCount = 0 ∧
      t.fld (tsEccA tile) tsEccUeCount = 0 ∧ t.fld (tsEccA tile) tsEccLastBank = s.fld (tsEccA tile) tsEccLastBank) ∧
  (∀ (s : State) (tile bank : Nat) (ups : List (Nat × Bool)), tile < 24 → bank < 40 → s.domOn (3 * tile + 2) = true →
    let row := kvGet 0 s.tsScrub (40 * tile + bank)
    let w0 := (tileBase tile + 256 * (40 * row + bank)) / 8
    row < 16384 →
      ∃ t, exec (.tsScrubRow tile bank ups) s = .next t ∧ SameMem s t ∧ kvGet 0 t.tsScrub (40 * tile + bank) = (row + 1) % 16384 ∧
        ∀ i, i < 32 → t.tsMark (w0 + i) ≠ 1 ∧ (s.tsMark (w0 + i) = 2 → t.tsMark (w0 + i) = 2))

/-- While no codeword is in error, no unit has failed and no in-place command holds blocks, a read of a powered main-memory codeword answers its 64 bytes and changes nothing else. A write within a codeword stores its bytes at their place and no byte elsewhere. A scrub of one changes nothing, and a refresh never does. -/
def Obligations.MainMemoryAccesses : Prop :=
  (∀ (s : State) (a : Nat), inMain a = true → s.memOn (memDie a) = true → s.unitFailed (64 * (a / 64)) = false → s.Plain →
    (exec (.memoryRead a []) s = .next (s.answer (.bytes (s.peek (64 * (a / 64)) 64)))) ∧
    (s.flag (memcfgA (memDie a)) phMemcfgScrubEn = true → exec (.memoryScrub a []) s = .next s)) ∧
  (∀ (s : State) (a : Nat) (bs : List Byte), inMain a = true → s.memOn (memDie a) = true → a % 64 + bs.length ≤ 64 → s.Plain →
    (∀ d, d < 14 → s.fld (retrainA d) phRetrainPcFailed = 0) →
    ∃ t, exec (.memoryWrite a bs) s = .next t ∧ t.resp = .none ∧ t = { s with mem := t.mem, resp := .none } ∧
      (∀ j, j < bs.length → t.byteAt (a + j) = bs.getD j 0) ∧
      ∀ b, ¬(a ≤ b ∧ b < a + bs.length) → t.byteAt b = s.byteAt b) ∧
  (∀ (s : State) (die unit : Nat), exec (.memoryRefresh die unit) s = .next s)

/-- On a powered memory die: a calibration holds one unit that is not retraining, while no other unit of the die is calibrating, and its end releases it. A retrain ordered or alarmed marks its units active since this GTIME and counts one more event occurrence; its end clears them, and where it failed marks them failed. A clear of the error counts clears both and nothing else; a pop takes the oldest record off the log. -/
def Obligations.MemoryUnitsHoldAndRetrain : Prop :=
  ∀ (s : State) (now die unit : Nat), die < 14 → unit < 32 →
    (s.memOn die = true → s.retraining die unit = false →
      ((∀ u, u < 32 → (s.fld (retrainA die) phRetrainPcActive).testBit u = true → s.retraining die u = true) →
        ∃ t, exec (.memoryCalibration die unit true) s = .next t ∧ OnlyRegs s t [retrainA die] ∧
          (t.fld (retrainA die) phRetrainPcActive).testBit unit = true) ∧
      ((∀ h, h < 768 → (s.hart (h / 32) (h % 32)).dirty = []) →
        ∃ t, exec (.memoryCalibration die unit false) s = .next t ∧ OnlyRegs s t [retrainA die] ∧
          (t.fld (retrainA die) phRetrainPcActive).testBit unit = false)) ∧
    (let s1 := s.advance now
     ∀ cause, cause = 1 ∨ cause = 2 → s1.memOn die = true → s1.retraining die unit = false →
      ∃ t, exec (.channelRetrain now die unit cause) s = .next t ∧
        (∀ u ∈ retrainUnits die unit, kvGet 0 t.retrain (32 * die + u) = s1.gtime + 1 ∧
          (t.fld (retrainA die) phRetrainPcActive).testBit u = true) ∧
        t = { s1 with retrain := t.retrain, regs := t.regs, evc := t.evc }) ∧
    (s.retraining die unit = true → (∀ h, h < 768 → (s.hart (h / 32) (h % 32)).dirty = []) → ∀ ok,
      ∃ t, exec (.channelRetrainEnd die unit ok) s = .next t ∧
        (∀ u ∈ retrainUnits die unit, t.retraining die u = false ∧ (t.fld (retrainA die) phRetrainPcActive).testBit u = false ∧
          (ok = false → (t.fld (retrainA die) phRetrainPcFailed).testBit u = true)) ∧
        t = { s with retrain := t.retrain, regs := t.regs, evc := t.evc }) ∧
    (∀ w, s.memOn die = true → mayReachReg w (eccstatA die) = true → ∃ t, exec (.eccstatClear die w) s = .next t ∧
      OnlyRegs s t [eccstatA die] ∧ t.fld (eccstatA die) phEccstatCeCount = 0 ∧ t.fld (eccstatA die) phEccstatUeCount = 0) ∧
    (∀ w, s.memOn die = true → mayReachReg w (uelogA die) = true → ∃ t, exec (.uelogPop die w) s = .next t ∧
      t = { s with uelog := t.uelog } ∧ kvGet [] t.uelog die = (kvGet [] s.uelog die).drop 1 ∧
      ∀ d, d ≠ die → kvGet [] t.uelog d = kvGet [] s.uelog d)

/-- A segment's zero fill that is in progress ends with every byte of the segment 0, no codeword of it in error and FILLING clear, and no byte outside it changed. A partition's ends with every byte of its 48 GiB of HBM 0 and its FILLING clear, and no byte outside that HBM and its own segments changed. -/
def Obligations.ZeroFillsComplete : Prop :=
  (∀ (s : State) (now seg : Nat),
    let s1 := s.advance now
    let base := tierBase + 0x40000000 * seg
    seg < 896 → kvGet none s1.fills seg ≠ none →
      ∃ t, exec (.segmentFillComplete now seg) s = .next t ∧ t.flag (tdSegA seg) tdSegFilling = false ∧ kvGet none t.fills seg = none ∧
        (∀ a, base ≤ a → a < base + 0x40000000 → t.byteAt a = 0) ∧
        (∀ w, base / 64 ≤ w → w < (base + 0x40000000) / 64 → kvGet 0 t.cwErr w = 0) ∧
        (∀ a, ¬(base ≤ a ∧ a < base + 0x40000000) → t.byteAt a = s1.byteAt a)) ∧
  (∀ (s : State) (now p : Nat),
    let s1 := s.advance now
    p < 12 → kvGet none s1.fills (1024 + p) ≠ none →
      ∃ t, exec (.xtsFillComplete now p) s = .next t ∧ t.flag (phXtsA p) phXtsFilling = false ∧
        (∀ a, hbmBase p ≤ a → a < hbmBase p + 0xC00000000 → t.byteAt a = 0) ∧
        (∀ a, ¬(hbmBase p ≤ a ∧ a < hbmBase p + 0xC00000000) →
          (∀ g, g < 896 → s1.segOwner g = p → ¬(tierBase + 0x40000000 * g ≤ a ∧ a < tierBase + 0x40000000 * g + 0x40000000)) →
          t.byteAt a = s1.byteAt a))

/-- A chunk of an open, undisturbed collective from a child link, for this module, joins the inputs that wait to be folded, and nothing but links, registers, event sources, collectives and those inputs changes. A fold whose inputs are not all there changes nothing; one whose inputs are there takes them all. A chunk on its way down whose group names a partition of this module that has not started its command, while none has, is kept for it. -/
def Obligations.ReductionsArrive : Prop :=
  (∀ (s : State) (now link : Nat) (m : Msg) (s2 : State) (i : Nat) (x : Bool),
    let s1 := s.advance now
    let y := m.head.pay
    m.head.kind = 3 → s1.screened link m = some (s2, some i, x) → s2.forHere i m.head = true →
      let n := s2.collNum i
      let q := ((s2.coll i n).meet (payRef y)).1
      leAt y 32 1 ≠ 4 → (leAt y 35 1).testBit 1 = false → q.mism = false →
      ∃ t, exec (.redHead now link m) s = .next t ∧ t = { s2 with colls := t.colls, folds := t.folds } ∧
        t.folds = s2.folds ++ [⟨i, n, leAt y 20 4, bits (leAt y 4 4) 0 20, y, m.data⟩] ∧ t.coll i n = q) ∧
  (∀ (s : State) (now entry coll chunk : Nat),
    let s1 := s.advance now
    let mine := fun (f : FoldIn) => f.entry = entry ∧ f.coll = coll ∧ f.chunk = chunk
    let have_ := (s1.folds.filter (fun f => decide (mine f))).length
    let need := s1.foldNeed entry (s1.coll entry coll).group
    (have_ = 0 ∨ have_ < need → exec (.chunkFold now entry coll chunk) s = .next s1) ∧
    (have_ ≠ 0 → need ≤ have_ → ∃ t, exec (.chunkFold now entry coll chunk) s = .next t ∧ ∀ f ∈ t.folds, ¬mine f)) ∧
  (∀ (s : State) (now link : Nat) (m : Msg) (s2 : State) (i : Nat) (x : Bool) (p : Nat),
    let s1 := s.advance now
    let g := m.head.group % 256
    m.head.kind = 5 → s1.screened link m = some (s2, some i, x) → p < 12 → (s2.groupEntry i g).testBit (6 + p) = true →
      (s2.coll i (s2.nextOf i)).members = [] → (s2.coll i (s2.nextOf i)).ref = none →
      ∃ t, exec (.mcHead now link m) s = .next t ∧ SameMem s1 t ∧ t.ctxs = s1.ctxs ∧
        (t.coll i (s2.nextOf i)).kept = (s2.coll i (s2.nextOf i)).kept ++ [(m.head.pay, m.data)])

/-- A child's report for this module stands in its collective's record, in place of an earlier one of that link, while a partition of the group has not reported. An END from above ends the command of every member and raises NEXT_COLL by 1. A release whose time is ahead, with GTIME disciplined, arms the comparator; one whose time has passed, the comparator's expiry and the rise of TRAY_SYNC end the command of every member, and the first two, like the redrive 200 ns after the rise, close the collective. -/
def Obligations.BarriersReportAndRelease : Prop :=
  (∀ (s : State) (now link : Nat) (b : Bead) (s2 : State) (i : Nat) (x : Bool) (p : Nat),
    let s1 := s.advance now
    b.kind = 9 → s1.screened link ⟨b, []⟩ = some (s2, some i, x) → s2.forHere i b = true →
      let q := s2.coll i (s2.collNum i)
      let g := if q.ref.isNone then leAt b.pay 2 1 else q.group
      p < 12 → (s2.groupEntry i g).testBit (6 + p) = true → (∀ k ∈ q.members, partOf k.ctx ≠ p) →
        ∃ t, exec (.barUp now link b) s = .next t ∧ t = { s2 with colls := t.colls } ∧
          (t.coll i (s2.collNum i)).kids = q.kids.filter (fun y => decide (y.1 ≠ link)) ++ [(link, b.pay)]) ∧
  (∀ (s : State) (now link : Nat) (b : Bead) (s2 : State) (i : Nat) (x : Bool),
    let s1 := s.advance now
    let s3 := s2.replicate i link ⟨b, []⟩ x
    let n := s3.nextOf i
    b.kind = 10 → s1.screened link ⟨b, []⟩ = some (s2, some i, x) →
      (leAt b.pay 3 1 = 1 → ∃ t, exec (.barDown now link b) s = .next t ∧ t.nextOf i = (n + 1) % two32 ∧
        (∀ k ∈ (s3.coll i n).members, Closed t k.ctx k.cseq) ∧ (∀ k ∈ t.colls, ¬(k.entry = i ∧ k.coll = n)) ∧ SameMem s1 t) ∧
      (leAt b.pay 3 1 ≠ 1 → s1.gtime ≤ leAt b.pay 8 8 → s3.disciplined = true →
        ∃ t, exec (.barDown now link b) s = .next t ∧ t = { s3 with colls := t.colls } ∧
          (t.coll i n).release = some (leAt b.pay 8 8)) ∧
      (leAt b.pay 3 1 ≠ 1 → leAt b.pay 8 8 < s1.gtime → ∃ t, exec (.barDown now link b) s = .next t ∧
        t.nextOf i = (n + 1) % two32 ∧ ∀ k ∈ (s3.coll i n).members, Closed t k.ctx k.cseq)) ∧
  (∀ (s : State) (now entry : Nat) (k : Coll),
    let s1 := s.advance now
    s1.colls.find? (fun k => decide (k.entry = entry) && !k.tray && k.release.any (fun t => decide (t ≤ s1.gtime))) = some k →
      ∃ t, exec (.barrierRelease now entry) s = .next t ∧ (∀ q ∈ t.colls, ¬(q.entry = entry ∧ q.coll = k.coll)) ∧
        t.nextOf entry = (k.coll + 1) % two32 ∧ ∀ m ∈ (s1.coll entry k.coll).members, Closed t m.ctx m.cseq) ∧
  (∀ (s : State) (now : Nat) (k : Coll),
    let s1 := s.advance now
    s1.pins.traySync = false → s1.colls.find? (fun k => k.tray && k.release.isNone) = some k →
      ∃ t, exec (.traySyncRise now) s = .next t ∧ (∀ m ∈ k.members, Closed t m.ctx m.cseq) ∧
        (t.coll k.entry k.coll).release = some s1.gtime ∧ t.flag hmSidebandA hmSidebandTraySync = true ∧ SameMem s1 t) ∧
  (∀ (s : State) (now : Nat) (k : Coll),
    let s1 := s.advance now
    s1.colls.find? (fun k => k.tray && k.release.any (fun t => decide (t + 200 ≤ s1.gtime))) = some k →
      ∃ t, exec (.traySyncRedrive now) s = .next t ∧ t.pins.traySync = true ∧ t.flag hmSidebandA hmSidebandTraySync = false ∧
        (∀ q ∈ t.colls, ¬(q.entry = k.entry ∧ q.coll = k.coll)) ∧ t.nextOf k.entry = (k.coll + 1) % two32 ∧ SameMem s1 t)

/-- An up link that has sent no TIME bead sends one stamped with GTIME. A TIME bead taken by a module that has been ready or is LOADED leaves GTIME as it is and keeps what the neighbour advertised; before that, one of the only neighbour that advertises time, with DEPTH below 63 and an echo, loads GTIME with T_TX plus the delay of R372 and sets LOADED. A parent silent for 100 us is dropped and 40 ppm of its silence is added to EST_ERR. A master that heard no time through 1 s of link training is LOADED with DEPTH 0 and its GTIME as it was. The loss and return of the reference set and clear HOLDOVER and REF_OK without a step of GTIME; a speed monitor holds the measurement of its die. -/
def Obligations.TimeBeadsAndReference : Prop :=
  (∀ (s : State) (now link : Nat),
    let s1 := s.advance now
    (s1.linkUp link = true → (s1.link link).stamps = [] → ∃ t, exec (.timeBeadSend now link) s = .next t ∧
      (t.link link).stamps = [s1.gtime] ∧ t.gtime = s1.gtime ∧ SameMem s1 t ∧ ∀ n, n ≠ link → t.link n = s1.link n) ∧
    (∀ b s2 x, link < 6 → b.kind = 11 → leAt b.pay 0 1 = 4 → s1.takeBead link b = some (s2, x) →
      let ad := (leAt b.pay 32 1, b2n ((leAt b.pay 33 1).testBit 0), leAt b.pay 8 8, s1.gtime)
      let delay : Int := (((leAt b.pay 24 8 : Nat) : Int) - (leAt b.pay 16 8 : Nat) - (((leAt b.pay 8 8 : Nat) : Int) - (s1.gtime : Nat))) / 2
      (s1.timeLoaded = true ∨ s1.boot.everReady = true → ∃ t, exec (.timeBead now link b) s = .next t ∧ t.gtime = s1.gtime ∧
        (t.link link).timeAd = some ad ∧ SameMem s1 t ∧ t.ctxs = s1.ctxs) ∧
      (s1.timeLoaded = false → s1.boot.everReady = false → s1.isMaster = false → s1.linkUp link = true →
        (∀ n, n < 6 → n ≠ link → (s1.link n).timeAd = none) → ad.1 < 63 → ad.2.1 = 1 → leAt b.pay 16 8 ≠ 0 →
        ∃ t, exec (.timeBead now link b) s = .next t ∧ t.timeLoaded = true ∧ SameMem s1 t ∧
          t.gtime = (((leAt b.pay 8 8 : Nat) : Int) + delay).toNat % two64 ∧ t.fld gtDiscsrcA gtDiscsrcParent = link ∧
          t.fld gtDiscsrcA gtDiscsrcDepth = ad.1 + 1)) ∧
    (∀ d l tx r, s1.fld gtDiscsrcA gtDiscsrcParent = link → link < 6 → (s1.link link).timeAd = some (d, l, tx, r) →
      (s1.gtime < r + 100000 → exec (.timeParentLoss now) s = .next s1) ∧
      (r + 100000 ≤ s1.gtime → ∃ t, exec (.timeParentLoss now) s = .next t ∧ (t.link link).timeAd = none ∧ t.gtime = s1.gtime ∧
        t = { s1 with links := t.links, regs := t.regs, evc := t.evc } ∧
        t.fld gtDiscsrcA gtDiscsrcEstErr = min 0xFFFF (s1.fld gtDiscsrcA gtDiscsrcEstErr + ceilDiv (s1.gtime - r) 2500))) ∧
    (s1.isMaster = true → s1.timeLoaded = false → link < 6 → (s1.link link).tried ≠ 0 → (s1.link link).tried + 1000000000 ≤ s1.gtime →
      (∀ n, n < 6 → (s1.link n).timeAd = none) →
      ∃ t, exec (.masterTimeTimeout now) s = .next t ∧ t.timeLoaded = true ∧ t.gtime = s1.gtime ∧ SameMem s1 t ∧
        t.fld gtDiscsrcA gtDiscsrcParent = 7 ∧ t.fld gtDiscsrcA gtDiscsrcDepth = 0)) ∧
  (∀ (s : State) (now : Nat),
    let s1 := s.advance now
    (s.flag gtRefstatA gtRefstatHoldover = false → ∃ t, exec .referenceLoss s = .next t ∧ t = { s with regs := t.regs, evc := t.evc } ∧
      t.flag gtRefstatA gtRefstatHoldover = true ∧ t.flag gtRefstatA gtRefstatRefOk = false ∧
      t.flag gtRefstatA gtRefstatRefLost = true ∧ t.fld gtRefstatA gtRefstatLossCount =
        min (2 ^ gtRefstatLossCount.width - 1) (s.fld gtRefstatA gtRefstatLossCount + 1)) ∧
    (s1.flag gtRefstatA gtRefstatHoldover = true → ∃ t, exec (.referenceReturn now) s = .next t ∧
      t = { s1 with regs := t.regs, evc := t.evc } ∧ t.flag gtRefstatA gtRefstatHoldover = false ∧
      t.flag gtRefstatA gtRefstatRefOk = true ∧ t.flag gtRefstatA gtRefstatRefLost = s1.flag gtRefstatA gtRefstatRefLost)) ∧
  (∀ (s : State) (die rate junc : Nat) (at_ : Bool), die < 52 →
    ∃ t, exec (.speedMonitorUpdate die rate junc at_) s = .next t ∧ OnlyRegs s t [gtSpeedA die] ∧
      t.fld (gtSpeedA die) gtSpeedRate = rate % 2 ^ gtSpeedRate.width ∧ t.fld (gtSpeedA die) gtSpeedJunc = junc % 2 ^ gtSpeedJunc.width ∧
      t.flag (gtSpeedA die) gtSpeedValid = true ∧
      t.fld (gtSpeedA die) gtSpeedOp = if at_ then s.modPower.op % 2 ^ gtSpeedOp.width else s.fld (gtSpeedA die) gtSpeedOp)

/-- An estimate step of a powered hub whose tiles are off reports zeros; of one whose tiles are on it reports the estimate, and under the emergency input keeps the level within EMERG_EST wherever the largest bubble suffices. A sample sets each channel's rail word and the telemetry fault: set by an implausible sample, cleared 1 s after the last, with every running partition's factor at 1.00 while it lasts. A management cycle lands at a boundary, sets C_IN, sends the image and, while STANDBY_OK is 1, changes no hub limit. Ageing offsets never fall; the operating point in force becomes the one written; a daily sample sets every item's metric and needs 14 days for an estimate; shedding takes the first of SHEDORD and gives the last one back. -/
def Obligations.PowerLoops : Prop :=
  (∀ (s : State) (now p : Nat) (act : Activity),
    let s1 := s.advance now
    let e : Int := s1.fixedPart p act.pips + (s1.dynPart p act : Nat)
    let emerg : Int := ((s1.fld (phPwrlimA p) phPwrlimEmergEst * 100000 : Nat) : Int)
    p < 12 → s1.domOn (72 + p) = true →
      (s1.tilesOn p = false → ∃ t, exec (.estimateStep now p act) s = .next t ∧ OnlyRegs s1 t [phPwrestA p] ∧
        t.fld (phPwrestA p) phPwrestEst = 0 ∧ t.fld (phPwrestA p) phPwrestBubble = 0 ∧ t.fld (phPwrestA p) phPwrestPithW = 0) ∧
      (s1.tilesOn p = true → (s1.pwr p).descend = false → ∃ t, exec (.estimateStep now p act) s = .next t ∧
        t = { s1 with power := t.power, regs := t.regs, evc := t.evc } ∧
        t.fld (phPwrestA p) phPwrestEst = min 65535 (e.toNat / 100000) ∧ (∀ q, q ≠ p → t.pwr q = s1.pwr q) ∧
        (s1.flag (phPwrcapA p) phPwrcapEmerg = true → s1.flag (phPwrctlA p) phPwrctlMeasOnly = false →
          s1.fixedPart p act.pips + (act.demand : Int) * 256 / 65536 ≤ emerg → (t.pwr p).level ≤ emerg))) ∧
  (∀ (s : State) (now : Nat) (smp : Telemetry),
    let s1 := s.advance now
    let bad := !(List.range 24).all (fun c => s1.railOk smp c)
    let was := s1.flag hmPwrstatA hmPwrstatTelemFault
    s1.hasiaUp = true → ∃ t, exec (.telemetrySample now smp) s = .next t ∧
      t = { s1 with regs := t.regs, evc := t.evc, power := t.power, modPower := t.modPower, free := t.free } ∧
      t.flag hmPwrstatA hmPwrstatTelemFault = (bad || (was && decide (s1.gtime < s1.modPower.badAt + 1000000000))) ∧
      (∀ p, p < 12 → s1.tilesOn p = true → t.flag hmPwrstatA hmPwrstatTelemFault = true → (t.pwr p).kp = 4294967296) ∧
      ∀ c i v w, c < 24 → smp.rails.getD c none = some (i, v, w) → t.fld (hmRailA c) hmRailCurrent = i % 65536 ∧
        t.fld (hmRailA c) hmRailVoltage = v % 65536 ∧ t.fld (hmRailA c) hmRailPower = w % 65536 ∧
        t.flag (hmRailA c) hmRailPlausible = s1.railOk smp c) ∧
  (∀ (s : State) (now : Nat),
    let s1 := s.advance now
    s1.hasiaUp = true →
      (s1.gtime < s1.mgmt.cycleAt + 1000000 → exec (.managementCycle now) s = .next s1) ∧
      (s1.mgmt.cycleAt + 1000000 ≤ s1.gtime → s1.mgmt.live = [] → s1.mgmt.requests = [] → s1.mgmt.sent = none →
        s1.standbyUp = true → s1.flag hmRoleA hmRoleStandbyOk = true →
        ∃ t, exec (.managementCycle now) s = .next t ∧ t.mgmt.cycle = s1.mgmt.cycle + (s1.gtime - s1.mgmt.cycleAt) / 1000000 ∧
          t.fld hmPwrstatA hmPwrstatCIn = s1.cIn / watt ∧ (∃ img, t.mgmt.sent = some (img, s1.gtime) ∧ img.seq = s1.mgmt.cycle) ∧
          SameMem s1 t ∧ t.ctxs = s1.ctxs ∧ ∀ p, p < 12 → t.reg (phPwrlimA p) = s1.reg (phPwrlimA p))) ∧
  (∀ (s : State) (op : Nat), s.hasiaUp = true → s.fld hmPwrcfgA hmPwrcfgOp = op →
    exec (.opChange op) s = .next { s with modPower := { s.modPower with op := op } }) ∧
  (∀ (s : State) (die drift : Nat), s.hasiaUp = true → die < 52 →
    ∃ t, exec (.tarnishEval die drift) s = .next t ∧ t = { s with regs := t.regs, evc := t.evc } ∧
      t.fld (hmTarnishA die) hmTarnishDrift = min 65535 drift ∧
      t.fld (hmTarnishA die) hmTarnishOffsetSteps = max (s.fld (hmTarnishA die) hmTarnishOffsetSteps) (min 6 (drift / 50)) ∧
      (t.fld (hmTarnishA die) hmTarnishOffsetSteps = 6 → 350 ≤ drift → t.flag (hmTarnishA die) hmTarnishAtLimit = true)) ∧
  (∀ (s : State) (now : Nat) (ws : List Nat),
    let s1 := s.advance now
    s1.hasiaUp = true → s1.mgmt.wearAt + 86400000000000 ≤ s1.gtime → ∃ t, exec (.wearDaily now ws) s = .next t ∧
      t = { s1 with mgmt := t.mgmt, wear := t.wear, regs := t.regs, evc := t.evc, free := t.free } ∧ t.mgmt.wearAt = s1.gtime ∧
      ∀ i, i < 114 → t.fld (hmWearA i) hmWearW = min 1023 (ws.getD i 0 / 1000) ∧
        ((kvGet [] s1.wear i).length < 13 → t.fld (hmWearA i) hmWearState = 0)) ∧
  (∀ (s : State) (now p : Nat),
    let s1 := s.advance now
    s1.hasiaUp = true → p < 12 →
      (s1.flag hmPwrstatA hmPwrstatEmergCool = true → s1.anyDie (s1.fld hmPwrcfgA hmPwrcfgShedC) = true → s1.modPower.shed = [] →
        bits (s1.fld hmShedordA hmShedordOrder) 0 4 = p → s1.isShed p = false →
        ∃ t, exec (.shedStep now) s = .next t ∧ t.isShed p = true ∧ t.modPower.shed = [p] ∧ ∀ q, q < 12 → q ≠ p → t.isShed q = s1.isShed q) ∧
      (∀ xs, s1.flag hmPwrstatA hmPwrstatEmergCool = false → s1.anyDie 100 = false → s1.modPower.hotAt + 1000000000 ≤ s1.gtime →
        s1.modPower.shedAt + 100000000 ≤ s1.gtime → s1.modPower.shed = xs ++ [p] →
        ∃ t, exec (.shedStep now) s = .next t ∧ t.isShed p = false ∧ t.modPower.shed = xs ∧
          ∀ q, q < 12 → q ≠ p → t.isShed q = s1.isShed q))

/-- The over-power comparator and PWRLIM_N each set EMERG in every hub; it clears once both are released, the comparator not before 10 ms below 4,400 W. A cause report of the tray controller sets EMERG_SHELF, EMERG_COOL and every hub's EMERG_EST, the lower of two caps where both are reported; 20 ms without a cause count as cooling loss. The emergency ends 10 ms after PWRLIM_N has gone high; a cooling-loss report that stays active keeps its cap. -/
def Obligations.EmergencyInput : Prop :=
  ∀ (s : State) (now : Nat),
    let s1 := s.advance now
    (∃ t, exec (.overPowerTrip now) s = .next t ∧ t = { s1 with regs := t.regs, evc := t.evc, modPower := t.modPower } ∧
      t.modPower.overPower = true ∧ t.flag hmPwrstatA hmPwrstatOverpower = true ∧
      ∀ p, p < 12 → t.flag (phPwrcapA p) phPwrcapEmerg = true) ∧
    (s1.modPower.overPower = true →
      (s1.gtime < s1.modPower.overAt + 10000000 → exec (.overPowerRelease now) s = .next s1) ∧
      (s1.modPower.overAt + 10000000 ≤ s1.gtime → ∃ t, exec (.overPowerRelease now) s = .next t ∧ t.modPower.overPower = false ∧
        t = { s1 with regs := t.regs, evc := t.evc, modPower := t.modPower } ∧
        ∀ p, p < 12 → t.flag (phPwrcapA p) phPwrcapEmerg = s1.modPower.pwrlim)) ∧
    (s1.modPower.pwrlim = false → ∃ t, exec (.pwrlimAssert now) s = .next t ∧ t.modPower.pwrlim = true ∧
      t = { s1 with regs := t.regs, evc := t.evc, modPower := t.modPower } ∧ t.flag hmPwrstatA hmPwrstatEmergShelf = true ∧
      t.flag hmSidebandA hmSidebandPwrlimN = false ∧ ∀ p, p < 12 → t.flag (phPwrcapA p) phPwrcapEmerg = true) ∧
    (s1.modPower.pwrlim = true → ∃ t, exec (.pwrlimRelease now) s = .next t ∧ t.modPower.pwrlim = false ∧
      t = { s1 with regs := t.regs, evc := t.evc, modPower := t.modPower } ∧ t.flag hmSidebandA hmSidebandPwrlimN = true ∧
      ∀ p, p < 12 → t.flag (phPwrcapA p) phPwrcapEmerg = s1.modPower.overPower) ∧
    (s1.hasiaUp = true → s1.modPower.pwrlim = true → s1.modPower.assumed = false → s1.flag hmTrayrptA hmTrayrptShelfLoss = false →
      s1.flag hmTrayrptA hmTrayrptCoolLoss = false →
      (s1.gtime < s1.modPower.pwrlimAt + 20000000 → exec (.emergencyCauseTimeout now) s = .next s1) ∧
      (s1.modPower.pwrlimAt + 20000000 ≤ s1.gtime → ∃ t, exec (.emergencyCauseTimeout now) s = .next t ∧
        t = { s1 with regs := t.regs, power := t.power, modPower := t.modPower } ∧ t.flag hmPwrstatA hmPwrstatEmergCool = true ∧
        ∀ p, p < 12 → t.fld (phPwrlimA p) phPwrlimEmergEst = t.pctCap p (s1.fld hmPwrcfgA hmPwrcfgCoolPct))) ∧
    (s1.modPower.emerg = true → s1.modPower.overPower = false →
      (s1.modPower.pwrlim = true ∨ s1.gtime < s1.modPower.pwrlimAt + 10000000 → exec (.emergencyEnd now) s = .next s1) ∧
      (s1.modPower.pwrlim = false → s1.modPower.pwrlimAt + 10000000 ≤ s1.gtime → ∃ t, exec (.emergencyEnd now) s = .next t ∧
        OnlyRegs { s1 with modPower := t.modPower } t [hmPwrstatA] ∧ t.modPower.emerg = false ∧
        t.flag hmPwrstatA hmPwrstatEmergShelf = false ∧
        t.flag hmPwrstatA hmPwrstatEmergCool = s1.flag hmTrayrptA hmTrayrptCoolLoss)) ∧
    (∀ (shelf cool : Bool) (w : Writer),
      let c := cool || s.modPower.assumed
      let sp := s.fld hmPwrcfgA hmPwrcfgShelfPct
      let cp := s.fld hmPwrcfgA hmPwrcfgCoolPct
      (s.mgmtWriter w = false → exec (.trayCauseReport shelf cool w) s = .next s) ∧
      (s.mgmtWriter w = true → ∃ t, exec (.trayCauseReport shelf cool w) s = .next t ∧
        t = { s with regs := t.regs, power := t.power } ∧ t.flag hmTrayrptA hmTrayrptShelfLoss = shelf ∧
        t.flag hmTrayrptA hmTrayrptCoolLoss = cool ∧ t.flag hmPwrstatA hmPwrstatEmergCool = c ∧
        t.flag hmPwrstatA hmPwrstatEmergShelf = (s.modPower.emerg || shelf) ∧
        ∀ p, p < 12 → t.fld (phPwrlimA p) phPwrlimEmergEst = t.pctCap p (if c then (if shelf then min sp cp else cp) else sp)))

/-- A keepalive of the active Hasia restarts a powered hub's 2 s and ends its safe fall-back; one of the other die is ignored and counted in FOREIGN. After 2 s without one the hub falls back. A heartbeat of the tray controller is kept with its number and ends RACK_LOST; 5 s without one set it, and the module input cap is then at most SAFE_PCT of 4,100 W. -/
def Obligations.KeepalivesAndHeartbeats : Prop :=
  ∀ (s : State) (now p v : Nat) (w : Writer),
    let s1 := s.advance now
    (p < 12 → s1.domOn (72 + p) = true →
      (∀ d, s1.activeDie = some d → ∃ t, exec (.keepalive now p (.hasia d)) s = .next t ∧
        OnlyRegs { s1 with power := t.power } t [phPwrcapA p] ∧ (t.pwr p).keep = s1.gtime ∧ (t.pwr p).safe = false ∧
        (∀ q, q ≠ p → t.pwr q = s1.pwr q) ∧ t.flag (phPwrcapA p) phPwrcapSafe = s1.rackLost) ∧
      (∀ d, s1.activeDie ≠ some d → ∃ t, exec (.keepalive now p (.hasia d)) s = .next t ∧ OnlyRegs s1 t [hmHbstatA] ∧
        t.fld hmHbstatA hmHbstatForeign = min (2 ^ hmHbstatForeign.width - 1) (s1.fld hmHbstatA hmHbstatForeign + 1)) ∧
      (s1.gtime < (s1.pwr p).keep + 2000000000 → exec (.keepaliveTimeout now p) s = .next s1) ∧
      ((s1.pwr p).keep + 2000000000 ≤ s1.gtime → ∃ t, exec (.keepaliveTimeout now p) s = .next t ∧ (t.pwr p).safe = true ∧
        OnlyRegs { s1 with power := t.power } t [phPwrcapA p] ∧ t.flag (phPwrcapA p) phPwrcapSafe = true)) ∧
    (s1.mgmtWriter w = true → ∃ t, exec (.trayHeartbeat now v w) s = .next t ∧ t.modPower.trayHb = s1.gtime ∧
      OnlyRegs { s1 with modPower := t.modPower } t [hmTrayhbA, hmPwrstatA] ∧ t.fld hmTrayhbA hmTrayhbSeq = v % two32 ∧
      t.flag hmTrayhbA hmTrayhbLost = false ∧ t.rackLost = false) ∧
    (s1.hasiaUp = true →
      (s1.gtime < s1.modPower.trayHb + 5000000000 → exec (.trayHeartbeatLoss now) s = .next s1) ∧
      (s1.modPower.trayHb + 5000000000 ≤ s1.gtime → ∃ t, exec (.trayHeartbeatLoss now) s = .next t ∧
        OnlyRegs s1 t [hmTrayhbA, hmPwrstatA] ∧ t.rackLost = true ∧ t.flag hmTrayhbA hmTrayhbLost = true ∧
        t.cIn ≤ s1.fld hmPwrcfgA hmPwrcfgSafePct * 41 * watt))

/-- FORCE_OFF, THERMAL_TRIP, a fast stop, the input conditions that cause one and ORDERED_SHUTDOWN leave the 100 switched domains off with the lasers out, every byte of memory and every context as at reset, and GTIME counting on. COLD_START, POWER_UP and FORCE_OFF_RELEASE start the module where R614 and R618 allow it, with GTIME at 0. RESET_N low, and a module reset ordered while it is low, hold at the end of step 5, and its release goes on. An order turns a partition's tile domains off, after the descent unless it is shed; they come on in partition order. The wait for time ends with the start reported, HOLD3 takes the tray controller's writes, and recovery programs the banks only in boot failure. -/
def Obligations.SupplyAndSideband : Prop :=
  let off := fun (u t : State) => t.pins.pwrGood = false ∧ t.pins.lasers = false ∧ t.gtime = u.gtime ∧ (∀ d, d < 100 → t.domOn d = false) ∧
    (∀ a, t.byteAt a = 0) ∧ ∀ c, t.ctx c = State.reset.ctx c
  ∀ (s : State) (now : Nat) (env : BootEnv),
    let s1 := s.advance now
    (∃ t, exec .forceOff s = .next t ∧ off s t ∧ t.pins.forceOffN = false) ∧
    (∀ die, die < 52 → s.running = true → ∃ t, exec (.thermalTrip die) s = .next t ∧ off s t ∧ t.modPower.trip = some die ∧
      t.pins.thermtrip = true) ∧
    (s1.pins.pwrGood = true →
      (∃ t, exec (.fastStop now 1) s = .next t ∧ off s1 t ∧ t.pins.present = false ∧ t.boot.stopped = true) ∧
      (∃ t, exec (.fastStop now 2) s = .next t ∧ off s1 t ∧ t.pins.v48 = false ∧ t.boot.stopped = true) ∧
      (∀ mv d, 59500 < mv → 50 ≤ d → ∃ t, exec (.inputVoltageEvent now mv d) s = .next t ∧ off s1 t ∧ t.boot.stopped = true)) ∧
    (∀ mv d, 36000 ≤ mv → mv < 40000 → d ≤ 10000 → ∃ t, exec (.inputVoltageEvent now mv d) s = .next t ∧
      t = { s1 with modPower := t.modPower, pins := t.pins } ∧ t.modPower.inputMv = mv ∧ t.cIn ≤ mv * 102500) ∧
    (∀ mv d, 40000 ≤ mv → mv ≤ 59500 → exec (.inputVoltageEvent now mv d) s =
      .next { s1 with modPower := { s1.modPower with inputMv := mv, uvMv := none }, pins := { s1.pins with v48 := true } }) ∧
    (∀ mv, 40000 ≤ mv → mv ≤ 59500 → s.pins.v48 = false → ∃ t, exec (.inputPowerApplied mv) s = .next t ∧ t.pins.v48 = true ∧
      t.pins.present = true ∧ t.modPower.inputMv = mv ∧ t = { s with modPower := t.modPower, pins := t.pins, regs := t.regs, evc := t.evc }) ∧
    (s1.pins.pwrEn = true → ∃ t, exec (.orderedShutdown now) s = .next t ∧ off s1 t ∧ t.pins.pwrEn = false) ∧
    (s1.mayStart = true → ∃ t, exec (.coldStart now env) s = .next t ∧ t.gtime = 0 ∧ t.pins.pwrGood = true) ∧
    (s1.mayStart = false → exec (.coldStart now env) s = .next s1) ∧
    (s1.pins.v48 = true → s1.pins.present = true → s1.modPower.trip = none → s1.boot.stopped = false → s1.pins.pwrGood = false →
      (s1.pins.forceOffN = true → s1.boot.lowAt = 0 → ∃ t, exec (.powerUp now env) s = .next t ∧ t.gtime = 0 ∧ t.pins.pwrGood = true) ∧
      (s1.pins.forceOffN = false → s1.pins.pwrEn = true → ∃ t, exec (.forceOffRelease now env) s = .next t ∧ t.gtime = 0 ∧
        t.pins.pwrGood = true)) ∧
    (s1.pins.resetN = true → s1.boot.held ≠ 0 → ∃ t, exec (.resetNAssert now) s = .next t ∧ t.pins.resetN = false ∧
      t = { s1 with pins := t.pins, regs := t.regs, evc := t.evc }) ∧
    (s1.pins.resetN = false → s1.boot.held = 0 → ∃ t, exec (.resetNRelease now env) s = .next t ∧ t.pins.resetN = true ∧
      t = { s1 with pins := t.pins, boot := t.boot, regs := t.regs, evc := t.evc }) ∧
    (s1.hasiaUp = true → s1.boot.held = 0 →
      (s1.running = true → s1.pins.resetN = true → ∃ t, exec (.resetNAssert now) s = .next t ∧ t.pins.resetN = false ∧ t.boot.held = 5 ∧
        t.gtime = s1.gtime) ∧
      (s1.pins.resetN = false → ∃ t, exec (.moduleReset now 0 ⟨[]⟩) s = .next t ∧ t.boot.held = 5 ∧ t.gtime = s1.gtime) ∧
      (s1.pins.resetN = true → ∃ t, exec (.moduleReset now 0 ⟨[]⟩) s = .next t ∧ t.boot.held = 0 ∧ t.gtime = s1.gtime)) ∧
    (∀ p, p < 12 → s1.tilesOn p = true → s1.onRule p = false → (s1.pwr p).descend = false →
      ∃ t, exec (.domainOffOrder now p) s = .next t ∧ (s1.isShed p = true → t.tilesOn p = false) ∧
        (t.tilesOn p = false ∨ (t.pwr p).descend = true)) ∧
    (∀ p, p < 12 → s1.hasiaUp = true → (List.range 12).find? (fun q => s1.tilesWanted q) = some p → s1.modPower.lastOn = 0 →
      s1.boot.assayPend.testBit p = false → ∃ t, exec (.domainOn now p) s = .next t ∧ t.tilesOn p = true ∧
        t.modPower.lastOn = s1.gtime + 1 ∧ SameMem s1 t ∧ t.ctxs = s1.ctxs) ∧
    (∀ v w, (s1.mgmtWriter w = false → exec (.rackOrderWrite now v w) s = .next s1) ∧
      (s1.mgmtWriter w = true → bits v 16 1 = s1.fld hmRackordA hmRackordHdOn → ∃ t, exec (.rackOrderWrite now v w) s = .next t ∧
        OnlyRegs s1 t [hmRackordA] ∧ t.fld hmRackordA hmRackordRackOn = bits v 0 12)) ∧
    (s1.boot.timeWait ≠ 0 →
      (s1.gtime + 1 < s1.boot.timeWait + 1000000000 * s1.fld hmBootcfgA hmBootcfgTimeWaitS → exec (.timeWaitExpire now) s = .next s1) ∧
      (s1.boot.timeWait + 1000000000 * s1.fld hmBootcfgA hmBootcfgTimeWaitS ≤ s1.gtime + 1 → ∃ t, exec (.timeWaitExpire now) s = .next t ∧
        t.boot.timeWait = 0 ∧ t.fld hmBootA hmBootReady = s1.boot.result.1 % 4 ∧ SameMem s1 t ∧ t.gtime = s1.gtime)) ∧
    (∀ v w, (s1.mgmtWriter w = false → exec (.hold3Write now v w) s = .next s1) ∧
      (s1.mgmtWriter w = true → s1.boot.held ≠ 2 ∨ v = true → ∃ t, exec (.hold3Write now v w) s = .next t ∧
        OnlyRegs s1 t [hmSeqctlA] ∧ t.flag hmSeqctlA hmSeqctlHold3 = v)) ∧
    (∀ banks, (s.boot.failed = false → exec (.flashRecovery banks) s = .next s) ∧
      (s.boot.failed = true → ∃ t, exec (.flashRecovery banks) s = .next t ∧ t = { s with flash := t.flash } ∧
        ∀ i v, i < 2 → banks[i]? = some v → t.flash.banks[i]? = some (v, true)))

/-- The standby takes an image that is whole and next in sequence, and the tenth in a row sets STANDBY_OK; a discarded one is counted, and the third in a row clears STANDBY_OK. An image not acknowledged within 200 us has its outputs released, once. Two boundaries without a heartbeat mark the active die silent; a takeover then gives the latch, the active state and the hubs' keepalives to the standby and counts itself, while a heartbeat that returned makes it a split. A silent die restarts as the standby, but is held off after three restarts in 24 h. A swap is taken only while STANDBY_OK is 1 and then happens at the next acknowledged image. The AO domain wakes both dies once. -/
def Obligations.HasiaPair : Prop :=
  ∀ (s : State) (now : Nat),
    let s1 := s.advance now
    let ok := s1.flag hmRoleA hmRoleStandbyOk
    (∀ img t0 seq crc, s1.mgmt.sent = some (img, t0) → s1.standbyUp = true →
      let good := crc = true ∧ seq = img.seq ∧ (seq = s1.mgmt.accepted ∨ s1.mgmt.accepted = 0 ∨ ok = false)
      (good → img.held = [] → ∃ t, exec (.stateImage now seq crc) s = .next t ∧ t.mgmt.sent = none ∧
        t.fld hmHbstatA hmHbstatImageSeq = seq % two32 ∧
        (s1.mgmt.swapReq = false → t.mgmt.accepted = seq + 1 ∧ t.mgmt.ackRun = s1.mgmt.ackRun + 1 ∧ t.mgmt.badRun = 0 ∧
          t.mgmt.latch = s1.mgmt.latch ∧ t.flag hmRoleA hmRoleStandbyOk = (ok || decide (10 ≤ s1.mgmt.ackRun + 1))) ∧
        (s1.mgmt.swapReq = true → ok = true → ∀ d, s1.mgmt.latch = some d → t.mgmt.latch = some (1 - d) ∧ t.mgmt.swapReq = false ∧
          (t.hasia (1 - d)).st = 4 ∧ (t.hasia d).st = 3)) ∧
      (¬good → ∃ t, exec (.stateImage now seq crc) s = .next t ∧ t.mgmt.badRun = s1.mgmt.badRun + 1 ∧ t.mgmt.ackRun = 0 ∧
        t = { s1 with mgmt := t.mgmt, regs := t.regs, evc := t.evc } ∧ t.mgmt.sent = s1.mgmt.sent ∧
        t.fld hmHbstatA hmHbstatImageBad = min (2 ^ hmHbstatImageBad.width - 1) (s1.fld hmHbstatA hmHbstatImageBad + 1) ∧
        t.flag hmRoleA hmRoleStandbyOk = (ok && decide (s1.mgmt.badRun + 1 < 3)))) ∧
    (∀ img t0, s1.mgmt.sent = some (img, t0) → ok = true →
      (s1.gtime < t0 + 200000 → exec (.imageAckTimeout now) s = .next s1) ∧
      (t0 + 200000 ≤ s1.gtime → ∃ t, exec (.imageAckTimeout now) s = .next t ∧ t.mgmt.sent = none ∧
        t.mgmt.held = s1.mgmt.held.drop img.held.length)) ∧
    (∀ d, s1.activeDie = some d → s1.standbyUp = true →
      (s1.gtime < (s1.hasia d).hb + 2020000 → exec (.heartbeatSilence now) s = .next s1) ∧
      ((s1.hasia d).hb + 2020000 ≤ s1.gtime → ∃ t, exec (.heartbeatSilence now) s = .next t ∧ (t.hasia d).st = 6 ∧
        t.mgmt.latch = some d ∧ OnlyRegs { s1 with mgmt := t.mgmt } t [hmHbstatA] ∧ t.flag hmHbstatA hmHbstatPrivRx = false ∧
        t.flag hmHbstatA hmHbstatSpineRx = false)) ∧
    (∀ d, s1.mgmt.latch = some d → (s1.hasia d).st = 6 → (s1.hasia (1 - d)).st = 3 →
      (s1.gtime < (s1.hasia d).hb + 2000000 → ∃ t, exec (.takeover now []) s = .next t ∧ t.flag hmHbstatA hmHbstatSplit = true ∧
        t = { s1 with regs := t.regs, evc := t.evc }) ∧
      ((s1.hasia d).hb + 2000000 ≤ s1.gtime → s1.mgmt.image = none → s1.mgmt.held = [] → ∃ t, exec (.takeover now []) s = .next t ∧
        t.mgmt.latch = some (1 - d) ∧ (t.hasia (1 - d)).st = 4 ∧ t.fld hmRoleA hmRoleOwner = 1 - d ∧ t.dumps = [] ∧
        t.fld hmRoleA hmRoleTakeovers = min (2 ^ hmRoleTakeovers.width - 1) (s1.fld hmRoleA hmRoleTakeovers + 1) ∧
        t.flag hmRoleA hmRoleStandbyOk = false ∧ SameMem s1 t ∧ t.ctxs = s1.ctxs ∧
        ∀ p, p < 12 → s1.domOn (72 + p) = true → (t.pwr p).keep = s1.gtime ∧ (t.pwr p).safe = false)) ∧
    (∀ d, s1.activeDie = some d → (s1.hasia (1 - d)).st = 6 → s1.flag (hmDiestatA (1 - d)) hmDiestatHeldOff = false →
      let recent := (s1.hasia (1 - d)).restarts.filter (fun t => decide (s1.gtime < t + 86400000000000))
      (3 ≤ recent.length → ∃ t, exec (.hasiaRestart now) s = .next t ∧ (t.hasia (1 - d)).st = 0 ∧
        t.flag (hmDiestatA (1 - d)) hmDiestatHeldOff = true ∧ t.domOn (98 + (1 - d)) = false ∧ t.mgmt.latch = s1.mgmt.latch) ∧
      (recent.length < 3 → ∃ t, exec (.hasiaRestart now) s = .next t ∧ (t.hasia (1 - d)).st = 3 ∧
        (t.hasia (1 - d)).restarts = s1.gtime :: recent ∧ OnlyRegs { s1 with mgmt := t.mgmt } t [hmDiestatA (1 - d), hmHbstatA])) ∧
    (∀ w, (s1.mgmtWriter w = false → exec (.swap now w) s = .next s1) ∧
      (s1.mgmtWriter w = true → ok = true → exec (.swap now w) s = .next { s1 with mgmt := { s1.mgmt with swapReq := true } }) ∧
      (s1.mgmtWriter w = true → ok = false → ∃ t, exec (.swap now w) s = .next t ∧ OnlyRegs s1 t [hmHbstatA] ∧
        t.fld hmHbstatA hmHbstatForeign = min (2 ^ hmHbstatForeign.width - 1) (s1.fld hmHbstatA hmHbstatForeign + 1))) ∧
    (∀ d, s1.activeDie = some d → s1.flag hmRolectlA hmRolectlTakebackEn = false → exec (.takeBack now) s = .next s1) ∧
    (∀ d, s1.activeDie = some d → (s1.hasia (1 - d)).st = 3 → (s1.hasia (1 - d)).mayReturn = true →
      s1.flag hmRolectlA hmRolectlTakebackEn = true → ok = true → s1.fld hmRolectlA hmRolectlTakebackCycles ≤ s1.mgmt.ackRun →
      ∃ t, exec (.takeBack now) s = .next t ∧ t.mgmt.swapReq = true ∧ (t.hasia (1 - d)).mayReturn = false ∧
        OnlyRegs { s1 with mgmt := t.mgmt } t [hmDiestatA (1 - d)]) ∧
    (s1.mgmt.aoUsed = false → s1.pins.v48 = true → s1.mgmt.a.st ≠ 3 → s1.mgmt.a.st ≠ 4 → s1.mgmt.b.st ≠ 3 → s1.mgmt.b.st ≠ 4 →
      max s1.mgmt.a.hb s1.mgmt.b.hb + 10000000000 ≤ s1.gtime →
      let d := s1.fld hmRoleA hmRolePrimary
      ∃ t, exec (.aoWakeCycle now) s = .next t ∧ t.mgmt.aoUsed = true ∧ t.activeDie = some d ∧ (t.hasia (1 - d)).st = 3 ∧
        SameMem s1 t ∧ t.ctxs = s1.ctxs)

/-- While the owner's port answers: REG_READ answers the registers of a range of the management-only space and BAD_ADDR elsewhere; a LIVE value that REG_WRITE gives waits for the cycle boundary; PKT is admitted whole or dropped whole and counted; REPLY answers a held reply, CSB the status block of the management context, TELEM the latest block, EVENTS up to 16 records, and the files their contents; FW_STAGE replaces the bank that is not booted and has it booted next only if it is good. SVN_COMMIT raises and never lowers MINSVN, and only the owner orders it. A keying step takes STATE on, or to REFUSED; a drop leaves no key. A debug unlock without a valid record is REFUSED; a valid one sets DEBUG_EN, destroys the link keys and uses up its nonce. -/
def Obligations.ManagementPort : Prop :=
  ∀ (s : State) (now : Nat),
    let s1 := s.advance now
    (s.portUp 3 = true →
      (∀ a n, 0 < n → n ≤ 32 → (a % 8 = 0 → 0x3F000000000 ≤ a → a + 8 * n ≤ 0x40000000000 →
        exec (.regRead a n) s = .next (s.answer (.bytes (natLe 1 0 ++ (List.range n).flatMap (fun i => natLe 8 (s.regView (a + 8 * i)).toNat))))) ∧
        (a < 0x3F000000000 → exec (.regRead a n) s = .next (s.answer (.bytes (natLe 1 1))))) ∧
      (∀ r q, s.mgmt.replies.find? (fun q => decide (q.1 = r % two32)) = some q → ∃ t, exec (.reply (some r)) s = .next t ∧
        t.resp = .bytes (natLe 1 0 ++ fitBytes 64 q.2) ∧ t = { s with mgmt := t.mgmt, resp := t.resp } ∧ q.1 ∉ t.mgmt.unread ∧
        t.mgmt.replies = s.mgmt.replies) ∧
      (∀ r, s.mgmt.replies.find? (fun q => decide (q.1 = r % two32)) = none →
        exec (.reply (some r)) s = .next (s.answer (.bytes (natLe 1 3)))) ∧
      exec .csb s = .next (s.answer (.bytes (natLe 1 0 ++ s.csbOf 800))) ∧
      exec .telem s = .next (s.answer (.bytes (natLe 1 0 ++ fitBytes 128 s.mgmt.telem))) ∧
      (∃ t, exec .events s = .next t ∧ t.mgmt = { s.mgmt with events := s.mgmt.events.drop 16 } ∧
        t.pins.alert = !(s.mgmt.events.drop 16).isEmpty ∧ (t.flag hmSidebandA hmSidebandAlertN = (s.mgmt.events.drop 16).isEmpty) ∧
        t.resp = .bytes (natLe 1 0 ++ natLe 1 (s.mgmt.events.take 16).length ++ (s.mgmt.events.take 16).flatMap (fitBytes 8))) ∧
      (∀ a, a < 128 → exec (.i3cDynamicAddress a) s = .next { s with mgmt := { s.mgmt with i3c := a } })) ∧
    (s1.portUp 3 = true →
      (∀ v : Word, s1.trayIgnored hmPwrcfgA v = false → ∃ t, exec (.regWrite now hmPwrcfgA [v]) s = .next t ∧
        t.mgmt = { s1.mgmt with live := s1.mgmt.live ++ [(hmPwrcfgA, v.toNat)] } ∧ t.resp = .bytes (natLe 1 0) ∧
        OnlyRegs { s1 with mgmt := t.mgmt, resp := t.resp } t [hmPwrcfgA]) ∧
      (∀ bytes, 64 ≤ bytes.length → bytes.length ≤ 2048 → bytes.length = 64 * frameLen bytes →
        (frameLen bytes ≤ s1.free_ 800 → ∃ t, exec (.pkt now bytes) s = .next t ∧ OnlyCtx { s1 with resp := t.resp } t 800 ∧
          (t.ctx 800).ready = (s1.ctx 800).ready ++ [bytes] ∧ t.resp = .bytes (natLe 1 0)) ∧
        (s1.free_ 800 < frameLen bytes → ∃ t, exec (.pkt now bytes) s = .next t ∧ OnlyCtx { s1 with resp := t.resp } t 800 ∧
          (t.ctx 800).dropPkts = min (two32 - 1) ((s1.ctx 800).dropPkts + 1) ∧ (t.ctx 800).ready = (s1.ctx 800).ready ∧
          t.resp = .bytes (natLe 1 5)))) ∧
    (s.portUp 4 = true →
      (∀ n d, s.dumps.find? (fun d => decide (d.num = n)) = some d → exec (.dumpRead n) s = .next (s.answer (.bytes d.body))) ∧
      exec (.logRead 0) s = .next (s.answer (.bytes (s.mgmt.log.flatMap (fitBytes 8))))) ∧
    (s1.portUp 4 = true → ∀ bundle, let bank := 1 - s1.fld lkStateA lkStateBank
      ∃ t, exec (.fwStage now bundle) s = .next t ∧ OnlyRegs { s1 with flash := t.flash } t [hmFwstatA] ∧
        t.flag hmFwstatA hmFwstatStagedOk = s1.stagedGood bundle ∧ t.flag hmFwstatA hmFwstatStagedBad = !s1.stagedGood bundle ∧
        t.flash.banks[bank]? = some (leAt bundle 8 8, s1.stagedGood bundle) ∧
        (s1.stagedGood bundle = true → t.flash.next = bank) ∧ (s1.stagedGood bundle = false → t.flash.next % 2 ≠ bank)) ∧
    (∀ d, (s.activeDie = some d → ∃ t, exec (.svnCommit (.hasia d)) s = .next t ∧ OnlyRegs s t ((List.range 6).map lkSvnA) ∧
        ∀ i, i < 6 → t.fld (lkSvnA i) lkSvnMinsvn = max (s.fld (lkSvnA i) lkSvnMinsvn) (s.fld (lkSvnA i) lkSvnRunsvn)) ∧
      (s.activeDie ≠ some d → ∃ t, exec (.svnCommit (.hasia d)) s = .next t ∧ OnlyRegs s t [hmHbstatA]) ∧
      (s.activeDie = some d → ∃ t, exec (.debugNonceReq (.hasia d)) s = .next t ∧ t.locket = { s.locket with nonceOn := true } ∧
        OnlyRegs { s with locket := t.locket, free := t.free } t ((List.range 4).map lkDbgnonceA))) ∧
    (∃ t, exec .lmsTreeGenerate s = .next t ∧ OnlyRegs s t [lkStateA] ∧ t.flag lkStateA lkStateTreeReady = true) ∧
    (∀ n w, n < 6 → s.mgmtWriter w = true →
      let st := s.fld (lkLinkstatA n) lkLinkstatState
      let key := kvGet [] s.locket.linkKeys n
      let conf := sha256 (key ++ ascii "conf" ++ natLe 8 (leAt (s.linkWin n 0 2720) 8 8))
      (st = 0 → ∃ t, exec (.linkKeyingSubmit n w) s = .next t ∧
        t.fld (lkLinkstatA n) lkLinkstatState = (if peerRecOk (s.linkWin n 0 12288) then 1 else 5) ∧
        (peerRecOk (s.linkWin n 0 12288) = false → kvGet [] t.locket.linkKeys n = []) ∧ t.ctxs = s.ctxs ∧ t.links = s.links) ∧
      (st = 1 → ∃ t, exec (.linkKeyingSubmit n w) s = .next t ∧ t.fld (lkLinkstatA n) lkLinkstatState = 2 ∧
        kvGet [] t.locket.linkSs n = [] ∧ OnlyRegs { s with locket := t.locket, links := t.links } t [lkLinkstatA n]) ∧
      (st = 2 → s.linkWin n 15440 16 = conf.take 16 → ∃ t, exec (.linkKeyingSubmit n w) s = .next t ∧
        t.fld (lkLinkstatA n) lkLinkstatState = 3 ∧ OnlyRegs s t [lkLinkstatA n]) ∧
      (st = 2 → s.linkWin n 15440 16 ≠ conf.take 16 → ∃ t, exec (.linkKeyingSubmit n w) s = .next t ∧
        t.fld (lkLinkstatA n) lkLinkstatState = 5 ∧ kvGet [] t.locket.linkKeys n = []) ∧
      (∃ t, exec (.linkKeyDrop n w) s = .next t ∧ t.fld (lkLinkstatA n) lkLinkstatState = 0 ∧ kvGet [] t.locket.linkKeys n = [] ∧
        OnlyRegs { s with locket := t.locket } t [lkLinkstatA n])) ∧
    (∀ w, s1.mgmtWriter w = true →
      let valid := s1.locket.nonceOn && Config.debugOk (Config.serial % 2 ^ 64) s1.dbgNonce s1.locket.dbgAuth
      s1.locket.sessions = [] → ∃ t, exec (.debugUnlockSubmit now w) s = .next t ∧
        (valid = false → OnlyRegs s1 t [lkDbgctlA] ∧ t.flag lkDbgctlA lkDbgctlRefused = true) ∧
        (valid = true → t.flag lkStateA lkStateDebugEn = true ∧ t.locket.nonceOn = false ∧
          ∀ n, n < 6 → kvGet [] t.locket.linkKeys n = [] ∧ t.fld (lkLinkstatA n) lkLinkstatState = 0) ∧
        SameMem s1 t ∧ t.ctxs = s1.ctxs)

/-- With no configuration change pending: an occurrence counts once at its assigned source, up to 255 with SAT, and a reserved source takes none. A level source in mode 0 pends with its condition. A claim answers the winner, a candidate of the highest priority, with its count, and makes it active, or answers NONE; its completion clears ACTIVE, and a completion of a source not active at the target is an error event. A strand takes one record of 32 bytes and completes the source, writes the overflow record in its last place, and from then on counts what it loses. A hold-off ends on its tick. Masks, modes and routes take effect for a writer that the lock admits, at once or once the source is inactive; any other writer is counted in LOCKREF. -/
def Obligations.EventController : Prop :=
  ∀ (s : State) (now : Nat),
    let s1 := s.advance now
    let calm := fun (u : State) => ∀ e ∈ u.evc, e.2.pendRoute = none ∧ e.2.pendMode = none
    let only := fun (u t : State) (src : Nat) => OnlyRegs { u with evc := t.evc } t [evcSrcstatA src]
    (calm s → ∀ src k, src < 4096 → k < 78 →
      (evcAssigned src = true → evcIsLevel src = false → ∃ t, exec (.eventOccurrence src) s = .next t ∧ only s t src ∧
        t.flag (evcSrcstatA src) evcSrcstatPending = true ∧
        t.fld (evcSrcstatA src) evcSrcstatCount = min 255 (s.fld (evcSrcstatA src) evcSrcstatCount + 1) ∧
        (s.fld (evcSrcstatA src) evcSrcstatCount = 255 → t.flag (evcSrcstatA src) evcSrcstatSat = true)) ∧
      (evcAssigned src = false → exec (.eventOccurrence src) s = .next s) ∧
      (s.flag (evcSrcstatA src) evcSrcstatActive = true → (s.evSrc src).activeAt = k → evcIsLevel src = false →
        ∃ t, exec (.complete k src) s = .next t ∧ OnlyRegs s t [evcSrcstatA src] ∧ t.flag (evcSrcstatA src) evcSrcstatActive = false) ∧
      (s.flag (evcSrcstatA src) evcSrcstatActive = false → ∃ t, exec (.complete k src) s = .next t ∧ only s t (32 * 97 + 2) ∧
        t.flag (evcSrcstatA (32 * 97 + 2)) evcSrcstatPending = true)) ∧
    (calm s1 → ∀ src k, src < 4096 → k < 78 →
      (evcIsLevel src = true → src / 32 ≠ 95 → s1.fld (evcSrccfgA src) evcSrccfgMode = 0 → s1.flag (evcSrcstatA src) evcSrcstatLevel = false →
        ∀ v, ∃ t, exec (.levelChange now src v) s = .next t ∧ only s1 t src ∧ t.flag (evcSrcstatA src) evcSrcstatLevel = v ∧
          t.flag (evcSrcstatA src) evcSrcstatPending = v) ∧
      (s1.flag (evcTgtCfgA k) evcTgtCfgStrandEn = false →
        (s1.winner k = none → ∃ t, exec (.claim now k) s = .next t ∧ t = s1.answer (.bytes (natLe 8 0x80000000))) ∧
        (s1.winner k = some src → s1.fld (evcGrpcfgA (src / 32)) evcGrpcfgHoldoffUs = 0 →
          s1.candidate k src = true ∧ (∀ x, x < 4096 → s1.candidate k x = true → s1.evPrio x ≤ s1.evPrio src) ∧
          ∃ t, exec (.claim now k) s = .next t ∧ only { s1 with resp := t.resp } t src ∧ (t.evSrc src).activeAt = k ∧
            t.resp = .bytes (natLe 8 (src + 65536 * s1.fld (evcSrcstatA src) evcSrcstatCount +
              16777216 * s1.fld (evcSrcstatA src) evcSrcstatSat)) ∧
            t.flag (evcSrcstatA src) evcSrcstatActive = true ∧ t.flag (evcSrcstatA src) evcSrcstatPending = false ∧
            t.fld (evcSrcstatA src) evcSrcstatCount = 0 ∧ t.flag (evcSrcstatA src) evcSrcstatSat = false)) ∧
      (s1.flag (evcTgtCfgA k) evcTgtCfgStrandEn = true → s1.winner k = some src → s1.fld (evcGrpcfgA (src / 32)) evcGrpcfgHoldoffUs = 0 →
        let n := s1.strandSize k
        let prod := s1.fld (evcTgtProdA k) evcTgtProdProd
        let a := 4096 * s1.fld (evcTgtBaseA k) evcTgtBaseBase + 32 * (prod % n)
        let ovf := s1.flag (evcTgtCfgA k) evcTgtCfgStrandOvf
        (ovf = false → s1.occupancy k + 2 ≤ n → s1.Plain → (∀ d, d < 14 → s1.fld (retrainA d) phRetrainPcFailed = 0) →
          ∃ t, exec (.strandRecord now k) s = .next t ∧ t.fld (evcTgtProdA k) evcTgtProdProd = (prod + 1) % two32 ∧
            t.flag (evcSrcstatA src) evcSrcstatActive = false ∧ t.flag (evcSrcstatA src) evcSrcstatPending = false ∧
            (∀ j, j < 2 → t.byteAt (a + j) = (natLe 2 src).getD j 0) ∧
            (∀ j, j < 8 → t.byteAt (a + 16 + j) = (natLe 8 s1.gtime).getD j 0) ∧
            ∀ b, ¬(a ≤ b ∧ b < a + 32) → t.byteAt b = s1.byteAt b) ∧
        (ovf = false → s1.occupancy k + 1 = n → ∃ t, exec (.strandRecord now k) s = .next t ∧
          t.flag (evcTgtCfgA k) evcTgtCfgStrandOvf = true ∧ t.fld (evcTgtProdA k) evcTgtProdProd = (prod + 1) % two32) ∧
        (ovf = true → ∃ t, exec (.strandRecord now k) s = .next t ∧ SameMem s1 t ∧ t.fld (evcTgtProdA k) evcTgtProdProd = prod ∧
          t.fld (evcTgtLostA k) evcTgtLostLostRecords = min (two32 - 1) (s1.fld (evcTgtLostA k) evcTgtLostLostRecords + 1) ∧
          t.fld (evcTgtLostA k) evcTgtLostLostEvents =
            min (two32 - 1) (s1.fld (evcTgtLostA k) evcTgtLostLostEvents + s1.fld (evcSrcstatA src) evcSrcstatCount))) ∧
      (∀ g, g < 128 → kvGet 0 s1.evcHold g ≠ 0 →
        (s1.gtime + 1 < kvGet 0 s1.evcHold g → exec (.holdoffExpire now g) s = .next s1) ∧
        (kvGet 0 s1.evcHold g ≤ s1.gtime + 1 → ∃ t, exec (.holdoffExpire now g) s = .next t ∧ kvGet 0 t.evcHold g = 0 ∧
          OnlyRegs { s1 with evcHold := t.evcHold } t [evcGrpcfgA g] ∧ t.flag (evcGrpcfgA g) evcGrpcfgHolding = false)) ∧
      (∀ v w, (s1.evcMayWrite (src / 32) w = true → ∃ t, exec (.sourceMaskWrite now src v w) s = .next t ∧
          OnlyRegs s1 t [evcSrccfgA src] ∧ t.flag (evcSrccfgA src) evcSrccfgMask = v) ∧
        (s1.evcMayWrite (src / 32) w = false → ∃ t, exec (.sourceMaskWrite now src v w) s = .next t ∧
          t.fld evcGctlA evcGctlLockref = min (two32 - 1) (s1.fld evcGctlA evcGctlLockref + 1) ∧
          t.reg (evcSrccfgA src) = s1.reg (evcSrccfgA src)))) ∧
    (calm s → ∀ src w, src < 4096 →
      (∀ v, s.isOwner w = true → ∃ t, exec (.globalDisableWrite v w) s = .next t ∧ OnlyRegs s t [evcGctlA] ∧ t.flag evcGctlA evcGctlDis = v) ∧
      (∀ v, s.isOwner w = false → ∃ t, exec (.globalDisableWrite v w) s = .next t ∧ t.flag evcGctlA evcGctlDis = s.flag evcGctlA evcGctlDis ∧
        t.fld evcGctlA evcGctlLockref = min (two32 - 1) (s.fld evcGctlA evcGctlLockref + 1)) ∧
      (∀ mode filt, s.evcMayWrite (src / 32) w = true → evcIsLevel src = true → mode ≤ 4 → mode ≠ s.fld (evcSrccfgA src) evcSrccfgMode →
        (s.flag (evcSrcstatA src) evcSrcstatActive = true → ∃ t, exec (.sourceModeWrite src mode filt w) s = .next t ∧
          t = { s with evc := t.evc } ∧ (t.evSrc src).pendMode = some (mode, filt % 256)) ∧
        (s.flag (evcSrcstatA src) evcSrcstatActive = false → s.selected src = false → ∃ t, exec (.sourceModeWrite src mode filt w) s = .next t ∧
          t.fld (evcSrccfgA src) evcSrccfgMode = mode ∧ t.fld (evcSrccfgA src) evcSrccfgFilt = filt % 256 ∧
          t.fld (evcSrcstatA src) evcSrcstatCount = 0 ∧ OnlyRegs { s with evc := t.evc } t [evcSrccfgA src, evcSrcstatA src])) ∧
      (∀ r, r < 128 → s.evcMayWrite (src / 32) w = true →
        (70 ≤ r → r ≤ 126 → exec (.routeWrite src r w) s = .next s) ∧
        ((r < 70 ∨ r = 127) → r ≠ s.fld (evcSrccfgA src) evcSrccfgRoute →
          (s.flag (evcSrcstatA src) evcSrcstatActive = true → ∃ t, exec (.routeWrite src r w) s = .next t ∧
            t.flag (evcSrcstatA src) evcSrcstatRoutePend = true ∧ t.reg (evcSrccfgA src) = s.reg (evcSrccfgA src) ∧ only s t src) ∧
          (s.flag (evcSrcstatA src) evcSrcstatActive = false → s.selected src = false → ∃ t, exec (.routeWrite src r w) s = .next t ∧
            t.flag (evcSrcstatA src) evcSrcstatRoutePend = false ∧ t.fld (evcSrccfgA src) evcSrccfgRoute = r ∧
            OnlyRegs { s with evc := t.evc } t [evcSrccfgA src, evcSrcstatA src])))) ∧
    (∀ k v, k < 78 → v < two32 →
      let prod := s.fld (evcTgtProdA k) evcTgtProdProd
      let past := (v + two32 - prod) % two32
      ∃ t, exec (.strandConsWrite k v) s = .next t ∧ OnlyRegs s t [evcTgtConsA k] ∧
        t.fld (evcTgtConsA k) evcTgtConsCons = if 1 ≤ past ∧ past < 2 ^ 31 then prod else v)

/-- Until step 13 the tray controller's NODE_ID, ZSIZE and MASTER take effect in every copy; after it a change of an FX field is ignored and counted while the RW fields of the same write land. A write that does not reach its register changes nothing but, from the other Hasia die, FOREIGN. An overlay entry is appended once and stands in both MCB copies; the overlay is cleared in RMA alone. An MCB write gives the image the next GEN in copy A and only then in copy B. Pops take the oldest entry; a kick is kept with its GTIME; a bezel order of the hub's firmware or of the owner fences with its author, one of the other Hasia die is ignored and counted; a repaired lane loses nothing, and a hub link that cannot be repaired is a record at level 2. -/
def Obligations.ConfigurationAndQueues : Prop :=
  ∀ (s : State) (now : Nat),
    let s1 := s.advance now
    (s1.hasiaUp = true → ∀ node z m, node < 4096 → m < 4096 → 4 ≤ z → z ≤ 64 → z % 4 = 0 →
      (s1.fld hmBootA hmBootReady = 0 → node % 4 = s1.fld hmSidebandA hmSidebandPosId % 4 → ∃ t, exec (.nodeIdWrite now node z m) s = .next t ∧
        t.fld gtDisccfgA gtDisccfgMaster = m ∧ SameMem s1 t ∧ t.ctxs = s1.ctxs ∧
        ∀ i, i < 4 → t.fld (fdNodeA i) fdNodeNodeId = node ∧ t.fld (fdNodeA i) fdNodeZsize = z) ∧
      (s1.fld hmBootA hmBootReady ≠ 0 → node ≠ s1.node → ∃ t, exec (.nodeIdWrite now node z m) s = .next t ∧
        OnlyRegs s1 t [fdCfgstatA 0, hmCfgstatA] ∧
        t.fld (fdCfgstatA 0) fdCfgstatFxIgnored = min 65535 (s1.fld (fdCfgstatA 0) fdCfgstatFxIgnored + 1))) ∧
    (∀ a (v : Word), (∀ p, s1.arrives (.steward p) a = false → exec (.registerWrite now a v (.steward p)) s = .next s1) ∧
      (∀ d, s1.activeDie ≠ some d → 0x3F000000000 ≤ a → ∃ t, exec (.registerWrite now a v (.hasia d)) s = .next t ∧ OnlyRegs s1 t [hmHbstatA] ∧
        t.fld hmHbstatA hmHbstatForeign = min 255 (s1.fld hmHbstatA hmHbstatForeign + 1))) ∧
    (s1.domOn 84 = true → s1.fld hmBootA hmBootReady ≠ 0 → ∀ v : Word, ∃ t, exec (.registerWrite now gtDisccfgA v .host) s = .next t ∧
      t.fld gtDisccfgA gtDisccfgPeriodUs = fget v gtDisccfgPeriodUs ∧ t.fld gtDisccfgA gtDisccfgMaster = s1.fld gtDisccfgA gtDisccfgMaster ∧
      OnlyRegs s1 t [gtDisccfgA, hmCfgstatA] ∧ t.fld hmCfgstatA hmCfgstatFxIgnored =
        (if fget v gtDisccfgMaster = s1.fld gtDisccfgA gtDisccfgMaster then s1.fld hmCfgstatA hmCfgstatFxIgnored
         else min 65535 (s1.fld hmCfgstatA hmCfgstatFxIgnored + 1))) ∧
    (s.hasiaUp = true → ∀ e : Word, 1 ≤ e.toNat % 256 → e.toNat % 256 ≤ 8 → s.mcbHeld = false →
      (∀ w ∈ s.overlay, w.toNat % 2 ^ 48 ≠ e.toNat % 2 ^ 48) → s.overlay.length < 256 →
      ∃ t w, exec (.overlayAppend e) s = .next t ∧ t.overlay = s.overlay ++ [w] ∧ w.toNat % 2 ^ 56 = e.toNat % 2 ^ 56 ∧
        t.flash.mcbA.overlay = t.overlay ∧ t.flash.mcbB.overlay = t.overlay) ∧
    (∀ w, s.mgmtWriter w = true →
      (s.fld lkStateA lkStateLifecycle = 2 → ∃ t, exec (.overlayClear w) s = .next t ∧ t.overlay = [] ∧ t.flash.due = true) ∧
      (s.fld lkStateA lkStateLifecycle ≠ 2 → ∃ t, exec (.overlayClear w) s = .next t ∧ t.overlay = s.overlay ∧
        t.fld hmCfgstatA hmCfgstatStIgnored = min (two32 - 1) (s.fld hmCfgstatA hmCfgstatStIgnored + 1))) ∧
    (s.flash.due = false → ∀ a b, exec (.mcbWrite a b) s = .next s) ∧
    (s.flash.due = true → s.hasiaUp = true → s.mcbHeld = false →
      let g := s.fld mcbHdrA mcbHdrGen + 1
      (∃ t, exec (.mcbWrite true true) s = .next t ∧ t.flash.mcbA.gen = g ∧ t.flash.mcbA.valid = true ∧ t.flash.mcbB = t.flash.mcbA ∧
        t.flash.due = false ∧ t.fld mcbHdrA mcbHdrGen = g % 2 ^ 48) ∧
      (∃ t, exec (.mcbWrite true false) s = .next t ∧ t.flash.mcbA.gen = g ∧ t.flash.mcbA.valid = true ∧ t.flash.mcbB.valid = false) ∧
      (∃ t, exec (.mcbWrite false true) s = .next t ∧ t.flash.mcbA.valid = false ∧ t.flash.mcbB = s.flash.mcbB)) ∧
    (∀ p w, p < 26 → s.mgmtWriter w = true → ∃ t, exec (.errqPop p w) s = .next t ∧ t = { s with errs := t.errs } ∧
      t.dom p = { s.dom p with queue := (s.dom p).queue.drop 1 } ∧ ∀ d, d ≠ p → t.dom d = s.dom d) ∧
    (∀ f, f < 4 → s.domOn (84 + f) = true → ∃ t, exec (.abortlogPop f .host) s = .next t ∧ t = { s with aborts := t.aborts } ∧
      kvGet [] t.aborts f = (kvGet [] s.aborts f).drop 1) ∧
    (∀ p bits, p < 12 → s1.domOn (72 + p) = true → ∃ t, exec (.wdogKick now p bits (.steward p)) s = .next t ∧ t = { s1 with wdog := t.wdog } ∧
      ∀ k, k < 2 → kvGet 0 t.wdog (2 * p + k) = if bits.testBit k then s1.gtime else kvGet 0 s1.wdog (2 * p + k)) ∧
    (∀ p, p < 12 → s.domOn (72 + p) = true →
      ((s.bezel p).resetHold = false → ∃ t, exec (.bezelFence p (.steward p)) s = .next t ∧ t.fld (phBezelA p) phBezelState = 2 ∧
        t.fld (phBezelA p) phBezelBy = 0 ∧ t = { s with regs := t.regs, evc := t.evc }) ∧
      ((s.bezel p).resetHold = false → ∀ d, s.activeDie = some d → ∃ t, exec (.bezelFence p (.hasia d)) s = .next t ∧
        t.fld (phBezelA p) phBezelState = 2 ∧ t.fld (phBezelA p) phBezelBy = 1 ∧ t = { s with regs := t.regs, evc := t.evc }) ∧
      (∀ d, s.activeDie ≠ some d → ∃ t, exec (.bezelFence p (.hasia d)) s = .next t ∧ OnlyRegs s t [hmHbstatA])) ∧
    (∀ die port, exec (.ucieLaneRepair die port true) s = .next s) ∧
    (∀ p, p < 12 → s.domOn (72 + p) = true → (s.dom p).level = none → (s.dom p).queue.length < 256 → s.slicesOf p = [] →
      ∃ t, exec (.ucieLaneRepair (24 + p) 2 false) s = .next t ∧ (t.dom p).level = some 2 ∧
        (t.dom p).queue = (s.dom p).queue ++ [(⟨0x20, 2, 24 + p, 2, 0x3FF, 0, 0⟩, s.gtime)] ∧ SameMem s t ∧ t.ctxs = s.ctxs)

/-- A record is queued in its domain; one that starts an action opens a handling at its level, with its capture first while a Hasia is active, or raises the open one above its level. A unit that has made no progress for its window, and a missed kick, produce their records, and not before. The capture of a level ends in a dump and lets the action start; one that reaches its bound ends too. A context recovery reset leaves the context without commands; an engine reset and a partition reset count themselves, and a partition reset leaves every context of the partition without commands. An action that overruns raises the level. Level 4 asks the tray for a power cycle. A power-domain fault switches its domain off. -/
def Obligations.FaultsAndTheirHandling : Prop :=
  ∀ (s : State) (now : Nat),
    let s1 := s.advance now
    (∀ d (r : ErrRec), d < 26 → codeKnown r.code = true → (d < 12 → s1.domOn (72 + d) = true) → s1.hasiaUp = true →
      (s1.dom d).queue.length < 256 → ∃ t, exec (.errorRecord now d r) s = .next t ∧
        (t.dom d).queue = (s1.dom d).queue ++ [(r, s1.gtime)] ∧ SameMem s1 t ∧ t.ctxs = s1.ctxs ∧
        (recLevel r = none → (t.dom d).level = (s1.dom d).level) ∧
        (∀ l, recLevel r = some l → s1.domOpen d = false → (t.dom d).level = some l ∧ (t.dom d).cause = r ∧
          (l < 4 → (t.dom d).acting = false ∧ ⟨d, s1.gtime, []⟩ ∈ t.captures)) ∧
        (∀ l k, recLevel r = some l → s1.domOpen d = true → (s1.dom d).level = some k → (t.dom d).level = some (min 4 (max (k + 1) l)))) ∧
    (∀ u, keyValid u = true → s1.windowRuns u = true → s1.keyDomain u < 12 → s1.domOn (72 + s1.keyDomain u) = true →
      (s1.gtime < kvGet 0 s1.windows u + s1.windowOf u → exec (.hangWindowExpire now u) s = .next s1) ∧
      (kvGet 0 s1.windows u + s1.windowOf u ≤ s1.gtime → (s1.dom (s1.keyDomain u)).queue.length < 256 →
        ∃ t r, exec (.hangWindowExpire now u) s = .next t ∧ r.code = hangCode u ∧
          (t.dom (s1.keyDomain u)).queue = (s1.dom (s1.keyDomain u)).queue ++ [(r, s1.gtime)] ∧ kvGet 0 t.windows u = s1.gtime ∧
          SameMem s1 t ∧ t.ctxs = s1.ctxs)) ∧
    (∀ p c, p < 12 → c < 2 → s1.domOn (72 + p) = true →
      let due := kvGet 0 s1.wdog (2 * p + c) + s1.fld (phWdogA p) phWdogLimitMs * 1000000
      (s1.gtime < due → exec (.watchdogMiss now p c) s = .next s1) ∧
      (due ≤ s1.gtime → s1.domOpen p = false → (s1.dom p).queue.length < 256 → ∃ t, exec (.watchdogMiss now p c) s = .next t ∧
        t.flag (phWdogA p) phWdogWdogExp = true ∧ (t.dom p).level = some 2 ∧ (t.dom p).cause.code = 0x16 ∧
        kvGet 0 t.wdog (2 * p + c) = s1.gtime)) ∧
    (∀ d bad, d < 26 → s1.hasiaUp = true → s1.domOpen d = true → (s1.dom d).acting = false → (s1.dom d).done = false →
      ∀ l, (s1.dom d).level = some l → l < 4 → ∃ t, exec (.capture now d bad) s = .next t ∧ (t.dom d).acting = true ∧
        (∀ c ∈ t.captures, c.dom ≠ d) ∧ SameMem s1 t ∧ t.ctxs = s1.ctxs ∧
        t.fld hmDumpA hmDumpLast = (s1.fld hmDumpA hmDumpLast + 1) % 65536 ∧
        ∃ x, t.dumps.getLast? = some x ∧ x.dom = d ∧ x.num = (s1.fld hmDumpA hmDumpLast + 1) % 65536) ∧
    (∀ c l, s1.captures = [c] → (s1.dom c.dom).level = some l →
      (s1.gtime < c.since + captureBound l → exec (.captureBoundExpire now) s = .next s1) ∧
      (c.since + captureBound l ≤ s1.gtime → ∃ t, exec (.captureBoundExpire now) s = .next t ∧ (t.dom c.dom).acting = true ∧
        t.captures = [] ∧ SameMem s1 t ∧ t.ctxs = s1.ctxs)) ∧
    (∀ c cs die, s.captures = c :: cs → die < 52 → exec (.spineAccessTimeout die) s =
      .next { s with captures := { c with unreadable := c.unreadable ++ [die] } :: cs }) ∧
    (∀ ctx cause, ctx < 800 → s1.mayAct (s1.hubOf ctx) 0 cause = true → (s1.dom (s1.hubOf ctx)).cause.ctx = ctx →
      (s1.stopCtxUnits ctx).unitsWork ctx = false → ∃ t, exec (.contextRecoveryReset now ctx cause) s = .next t ∧
        (t.ctx ctx).cmds = [] ∧ (t.ctx ctx).lastFault = (causeStatus cause).code ∧ (t.dom (s1.hubOf ctx)).done = true) ∧
    (∀ d u cause, d < 26 → u < 4096 → keyValid u = true → s1.keyDomain u = d → s1.mayAct d 1 cause = true → cause ≠ 0x30 →
      dieKey (s1.dom d).cause.die (s1.dom d).cause.unit = some u → s1.unitCmds u = [] → ∃ t, exec (.engineReset now d u cause) s = .next t ∧
        (t.dom d).done = true ∧ t.fld (hmEscA d) hmEscL1Count = min 65535 (s1.fld (hmEscA d) hmEscL1Count + 1)) ∧
    (∀ d, d < 26 → s1.domOpen d = true → (s1.dom d).acting = true → (s1.dom d).done = false → (s1.dom d).level = some 0 →
      (s1.gtime < (s1.dom d).since + 2000000 → exec (.actionOverrun now d) s = .next s1) ∧
      ((s1.dom d).since + 2000000 ≤ s1.gtime → ∃ t, exec (.actionOverrun now d) s = .next t ∧ (t.dom d).level = some 1 ∧
        (t.dom d).cause.code = 0x30 ∧ (t.dom d).raised = true)) ∧
    (∀ p, p < 12 → s1.domOn (72 + p) = true → ∃ t, exec (.partitionReset now p 0) s = .next t ∧ (∀ c, c / 64 = p → (t.ctx c).cmds = []) ∧
      t.fld (phPrstA p) phPrstCount = min 65535 (s1.fld (phPrstA p) phPrstCount + 1)) ∧
    (∀ d, d < 26 → s1.hasiaUp = true → (s1.dom d).level = some 4 → (s1.dom d).acting = true → ∃ t, exec (.powerCycleRequest now d) s = .next t ∧
      t.flag hmFltA hmFltPwrcycReq = true ∧ (t.dom d).acting = false ∧ t = { s1 with regs := t.regs, mgmt := t.mgmt, errs := t.errs }) ∧
    (∀ d, d < 100 → s1.domOn d = true → ∃ t, exec (.powerDomainFault now d) s = .next t ∧ t.domOn d = false)
end

