-- ==== Sys2Proof/Laws/Kv.lean ====
section
/-!
SUPPORT. Sparse tables: reading after writing, and the canonical form that every operation on a table keeps.
-/

namespace Sys2Proof.Machine

variable {ν : Type}

/-! ### Reading a joined or filtered table -/

/-- A key that is in no entry reads as the default. -/
theorem kvGet_absent (d : ν) (m : Kv ν) (k : Nat) (h : ∀ p ∈ m, p.1 ≠ k) : kvGet d m k = d := by
  induction m with
  | nil => rfl
  | cons p m ih =>
    obtain ⟨a, v⟩ := p
    have ha : a ≠ k := h (a, v) (by simp)
    simp [kvGet, ha, ih (fun p hp => h p (by simp [hp]))]

/-- A key outside the first part of a joined table is read in the second. -/
theorem kvGet_append_right (d : ν) (m n : Kv ν) (k : Nat) (h : ∀ p ∈ m, p.1 ≠ k) : kvGet d (m ++ n) k = kvGet d n k := by
  induction m with
  | nil => rfl
  | cons p m ih =>
    obtain ⟨a, v⟩ := p
    have ha : a ≠ k := h (a, v) (by simp)
    simp [kvGet, ha, ih (fun p hp => h p (by simp [hp]))]

/-- A key outside the second part of a joined table is read in the first. -/
theorem kvGet_append_left (d : ν) (m n : Kv ν) (k : Nat) (h : ∀ p ∈ n, p.1 ≠ k) : kvGet d (m ++ n) k = kvGet d m k := by
  induction m with
  | nil => simpa [kvGet] using kvGet_absent d n k h
  | cons p m ih =>
    obtain ⟨a, v⟩ := p
    simp only [List.cons_append, kvGet]
    split
    · rfl
    · exact ih

/-- Filtering by a test of the key keeps the entries of the keys that pass. -/
theorem kvGet_filter (d : ν) (m : Kv ν) (f : Nat → Bool) (k : Nat) (h : f k = true) :
    kvGet d (m.filter (fun p => f p.1)) k = kvGet d m k := by
  induction m with
  | nil => rfl
  | cons p m ih =>
    obtain ⟨a, v⟩ := p
    by_cases ha : f a = true
    · simp only [List.filter_cons, ha, if_true, kvGet, ih]
    · have hk : a ≠ k := fun e => ha (e ▸ h)
      simpa [List.filter_cons, ha, kvGet, hk] using ih

theorem kvGet_below (d : ν) (m : Kv ν) (k j : Nat) (h : j < k) : kvGet d (kvBelow m k) j = kvGet d m j :=
  kvGet_filter d m (fun a => decide (a < k)) j (by simpa using h)

theorem kvGet_from (d : ν) (m : Kv ν) (k j : Nat) (h : k ≤ j) : kvGet d (kvFrom m k) j = kvGet d m j :=
  kvGet_filter d m (fun a => decide (k ≤ a)) j (by simpa using h)

theorem kvBelow_lt {m : Kv ν} {k : Nat} {p : Nat × ν} (h : p ∈ kvBelow m k) : p.1 < k := by
  simpa using (List.mem_filter.mp h).2

theorem kvFrom_ge {m : Kv ν} {k : Nat} {p : Nat × ν} (h : p ∈ kvFrom m k) : k ≤ p.1 := by
  simpa using (List.mem_filter.mp h).2

/-! ### Reading after writing -/

variable [DecidableEq ν]

/-- The key that was written reads as its new value. -/
@[simp] theorem kvGet_kvSet_same (d : ν) (m : Kv ν) (k : Nat) (v : ν) : kvGet d (kvSet d m k v) k = v := by
  unfold kvSet
  have hb : ∀ p ∈ kvBelow m k, p.1 ≠ k := fun p hp => Nat.ne_of_lt (kvBelow_lt hp)
  have hf : ∀ p ∈ kvFrom m (k + 1), p.1 ≠ k := fun p hp => by have := kvFrom_ge hp; omega
  rw [kvGet_append_left _ _ _ _ hf, kvGet_append_right _ _ _ _ hb]
  split
  · rename_i h; simp [kvGet, h]
  · simp [kvGet]

/-- Every other key reads as before. -/
theorem kvGet_kvSet_other (d e : ν) (m : Kv ν) (k j : Nat) (v : ν) (h : j ≠ k) : kvGet e (kvSet d m k v) j = kvGet e m j := by
  unfold kvSet
  have hm : ∀ p ∈ (if v = d then ([] : Kv ν) else [(k, v)]), p.1 ≠ j := by
    intro p hp
    split at hp
    · simp at hp
    · simp at hp; subst hp; exact fun e => h e.symm
  by_cases hj : j < k
  · have hf : ∀ p ∈ kvFrom m (k + 1), p.1 ≠ j := fun p hp => by have := kvFrom_ge hp; omega
    rw [kvGet_append_left _ _ _ _ hf, kvGet_append_left _ _ _ _ hm, kvGet_below _ _ _ _ hj]
  · have hb : ∀ p ∈ kvBelow m k, p.1 ≠ j := fun p hp => by have := kvBelow_lt hp; omega
    have hbm : ∀ p ∈ kvBelow m k ++ (if v = d then ([] : Kv ν) else [(k, v)]), p.1 ≠ j := by
      intro p hp
      rcases List.mem_append.mp hp with hp | hp
      · exact hb p hp
      · exact hm p hp
    rw [kvGet_append_right _ _ _ _ hbm, kvGet_from _ _ _ _ (by omega)]

/-- A read after a write, by whether the keys agree. -/
theorem kvGet_kvSet (d : ν) (m : Kv ν) (k j : Nat) (v : ν) : kvGet d (kvSet d m k v) j = if j = k then v else kvGet d m j := by
  split
  · rename_i h; subst h; simp
  · rename_i h; exact kvGet_kvSet_other d d m k j v h

theorem kvRun_range (d : ν) : ∀ (vs : List ν) (k : Nat) (p : Nat × ν), p ∈ kvRun d k vs → k ≤ p.1 ∧ p.1 < k + vs.length
  | [], _, _, h => by simp [kvRun] at h
  | v :: vs, k, p, h => by
    have step : p ∈ kvRun d (k + 1) vs → k ≤ p.1 ∧ p.1 < k + (v :: vs).length := fun h => by
      have := kvRun_range d vs (k + 1) p h
      simp; omega
    unfold kvRun at h
    split at h
    · exact step h
    · rcases List.mem_cons.mp h with h | h
      · subst h; simp
      · exact step h

/-- A key outside the written run reads as before. -/
theorem kvGet_kvWrite_other (d e : ν) (m : Kv ν) (k j : Nat) (vs : List ν) (h : j < k ∨ k + vs.length ≤ j) :
    kvGet e (kvWrite d m k vs) j = kvGet e m j := by
  unfold kvWrite
  have hm : ∀ p ∈ kvRun d k vs, p.1 ≠ j := fun p hp => by have := kvRun_range d vs k p hp; omega
  by_cases hj : j < k
  · have hf : ∀ p ∈ kvFrom m (k + vs.length), p.1 ≠ j := fun p hp => by have := kvFrom_ge hp; omega
    rw [kvGet_append_left _ _ _ _ hf, kvGet_append_left _ _ _ _ hm, kvGet_below _ _ _ _ hj]
  · have hbm : ∀ p ∈ kvBelow m k ++ kvRun d k vs, p.1 ≠ j := by
      intro p hp
      rcases List.mem_append.mp hp with hp | hp
      · have := kvBelow_lt hp; omega
      · exact hm p hp
    rw [kvGet_append_right _ _ _ _ hbm, kvGet_from _ _ _ _ (by omega)]

/-- A key of a run reads as its value. -/
theorem kvGet_kvRun (d : ν) : ∀ (vs : List ν) (k j : Nat), k ≤ j → kvGet d (kvRun d k vs) j = (vs.getD (j - k) d)
  | [], _, _, _ => by simp [kvRun, kvGet]
  | v :: vs, k, j, h => by
    unfold kvRun
    by_cases hj : j = k
    · subst hj
      have ha : kvGet d (kvRun d (j + 1) vs) j = d :=
        kvGet_absent d _ j (fun p hp => by have := kvRun_range d vs (j + 1) p hp; omega)
      split
      · rename_i hv; simp [ha, hv]
      · simp [kvGet]
    · have hr := kvGet_kvRun d vs (k + 1) j (by omega)
      have hi : j - k = (j - (k + 1)) + 1 := by omega
      split
      · rw [hr, hi, List.getD_cons_succ]
      · have hk : k ≠ j := fun e => hj e.symm
        simp only [kvGet, hk, if_false]
        rw [hr, hi, List.getD_cons_succ]

/-- A key of the written run reads as its new value. -/
theorem kvGet_kvWrite_same (d : ν) (m : Kv ν) (k j : Nat) (vs : List ν) (h1 : k ≤ j) (h2 : j < k + vs.length) :
    kvGet d (kvWrite d m k vs) j = vs.getD (j - k) d := by
  unfold kvWrite
  have hb : ∀ p ∈ kvBelow m k, p.1 ≠ j := fun p hp => by have := kvBelow_lt hp; omega
  have hf : ∀ p ∈ kvFrom m (k + vs.length), p.1 ≠ j := fun p hp => by have := kvFrom_ge hp; omega
  rw [kvGet_append_left _ _ _ _ hf, kvGet_append_right _ _ _ _ hb, kvGet_kvRun d vs k j h1]

/-! ### The canonical form -/

omit [DecidableEq ν] in
/-- A table is sorted exactly where its keys pairwise rise. -/
theorem kvSorted_iff (m : Kv ν) : kvSorted m = true ↔ m.Pairwise (fun p q => p.1 < q.1) := by
  induction m with
  | nil => simp [kvSorted]
  | cons p m ih =>
    cases m with
    | nil => simp [kvSorted]
    | cons q m =>
      simp only [kvSorted, Bool.and_eq_true, decide_eq_true_eq, ih, List.pairwise_cons]
      constructor
      · rintro ⟨h, hq, hm⟩
        refine ⟨?_, hq, hm⟩
        intro x hx
        rcases List.mem_cons.mp hx with hx | hx
        · subst hx; exact h
        · exact Nat.lt_trans h (hq x hx)
      · rintro ⟨h, hq, hm⟩
        exact ⟨h q (by simp), hq, hm⟩

/-- The canonical form as a proposition about the entries. -/
theorem kvWf_iff (d : ν) (m : Kv ν) : kvWf d m = true ↔ m.Pairwise (fun p q => p.1 < q.1) ∧ ∀ p ∈ m, p.2 ≠ d := by
  simp [kvWf, kvSorted_iff]

theorem kvRun_wf (d : ν) : ∀ (vs : List ν) (k : Nat), kvWf d (kvRun d k vs) = true
  | [], _ => by simp [kvRun, kvWf, kvSorted]
  | v :: vs, k => by
    have ih := (kvWf_iff d _).mp (kvRun_wf d vs (k + 1))
    unfold kvRun
    split
    · exact kvRun_wf d vs (k + 1)
    · rename_i hv
      refine (kvWf_iff d _).mpr ⟨List.pairwise_cons.mpr ⟨fun p hp => ?_, ih.1⟩, fun p hp => ?_⟩
      · have := kvRun_range d vs (k + 1) p hp; simp; omega
      · rcases List.mem_cons.mp hp with h | h
        · subst h; exact hv
        · exact ih.2 p h

/-- Three canonical parts whose keys lie in order join to a canonical table. -/
theorem kvWf_join (d : ν) (a b c : Kv ν) (i j : Nat) (ha : kvWf d a = true) (hb : kvWf d b = true) (hc : kvWf d c = true)
    (h1 : ∀ p ∈ a, p.1 < i) (h2 : ∀ p ∈ b, i ≤ p.1 ∧ p.1 < j) (h3 : ∀ p ∈ c, j ≤ p.1) (hij : i ≤ j) :
    kvWf d (a ++ b ++ c) = true := by
  obtain ⟨sa, na⟩ := (kvWf_iff d _).mp ha
  obtain ⟨sb, nb⟩ := (kvWf_iff d _).mp hb
  obtain ⟨sc, nc⟩ := (kvWf_iff d _).mp hc
  refine (kvWf_iff d _).mpr ⟨?_, ?_⟩
  · refine List.pairwise_append.mpr ⟨List.pairwise_append.mpr ⟨sa, sb, ?_⟩, sc, ?_⟩
    · intro p hp q hq
      have := h1 p hp; have := h2 q hq; omega
    · intro p hp q hq
      have := h3 q hq
      rcases List.mem_append.mp hp with hp | hp
      · have := h1 p hp; omega
      · have := h2 p hp; omega
  · intro p hp
    rcases List.mem_append.mp hp with hp | hp
    · rcases List.mem_append.mp hp with hp | hp
      · exact na p hp
      · exact nb p hp
    · exact nc p hp

theorem kvWf_filter (d : ν) (m : Kv ν) (f : Nat × ν → Bool) (h : kvWf d m = true) : kvWf d (m.filter f) = true := by
  obtain ⟨sm, nm⟩ := (kvWf_iff d _).mp h
  exact (kvWf_iff d _).mpr ⟨sm.filter _, fun p hp => nm p (List.mem_filter.mp hp).1⟩

theorem kvBelow_wf (d : ν) (m : Kv ν) (k : Nat) (h : kvWf d m = true) : kvWf d (kvBelow m k) = true := kvWf_filter d m _ h

theorem kvFrom_wf (d : ν) (m : Kv ν) (k : Nat) (h : kvWf d m = true) : kvWf d (kvFrom m k) = true := kvWf_filter d m _ h

/-- Writing a run keeps the canonical form. -/
theorem kvWrite_wf (d : ν) (m : Kv ν) (k : Nat) (vs : List ν) (h : kvWf d m = true) : kvWf d (kvWrite d m k vs) = true :=
  kvWf_join d _ _ _ k (k + vs.length) (kvBelow_wf d m k h) (kvRun_wf d vs k) (kvFrom_wf d m _ h)
    (fun _ hp => kvBelow_lt hp) (fun p hp => kvRun_range d vs k p hp) (fun _ hp => kvFrom_ge hp) (by omega)

/-- Writing one key keeps the canonical form. -/
theorem kvSet_wf (d : ν) (m : Kv ν) (k : Nat) (v : ν) (h : kvWf d m = true) : kvWf d (kvSet d m k v) = true := by
  unfold kvSet
  refine kvWf_join d _ _ _ k (k + 1) (kvBelow_wf d m k h) ?_ (kvFrom_wf d m _ h) (fun _ hp => kvBelow_lt hp) ?_
    (fun _ hp => kvFrom_ge hp) (by omega)
  · split
    · simp [kvWf, kvSorted]
    · rename_i hv; simp [kvWf, kvSorted, hv]
  · intro p hp
    split at hp
    · simp at hp
    · simp at hp; subst hp; simp

/-- Clearing a range keeps the canonical form. -/
theorem kvClear_wf (d : ν) (m : Kv ν) (k n : Nat) (h : kvWf d m = true) : kvWf d (kvClear m k n) = true := by
  have := kvWf_join d (kvBelow m k) [] (kvFrom m (k + n)) k (k + n) (kvBelow_wf d m k h) (by simp [kvWf, kvSorted])
    (kvFrom_wf d m _ h) (fun _ hp => kvBelow_lt hp) (by simp) (fun _ hp => kvFrom_ge hp) (by omega)
  simpa [kvClear] using this

end Sys2Proof.Machine
end

