-- ==== Sys2Proof/Laws/Fields.lean ====
section
/-!
SUPPORT. Reading a register or one of its fields after writing one.
-/

namespace Sys2Proof.Machine

/-- A number from the bits below a field, the field and the bits above it. -/
theorem bits_split (x lo w : Nat) : x = x / 2 ^ (lo + w) * 2 ^ (lo + w) + bits x lo w * 2 ^ lo + x % 2 ^ lo := by
  unfold bits
  rw [Nat.shiftRight_eq_div_pow]
  have h1 : x = x / 2 ^ lo * 2 ^ lo + x % 2 ^ lo := (Nat.div_add_mod' x (2 ^ lo)).symm
  have h2 : x / 2 ^ lo = x / 2 ^ lo / 2 ^ w * 2 ^ w + x / 2 ^ lo % 2 ^ w := (Nat.div_add_mod' (x / 2 ^ lo) (2 ^ w)).symm
  have h3 : x / 2 ^ lo / 2 ^ w = x / 2 ^ (lo + w) := by rw [Nat.div_div_eq_div_mul, Nat.pow_add]
  rw [h3] at h2
  calc x = x / 2 ^ lo * 2 ^ lo + x % 2 ^ lo := h1
    _ = (x / 2 ^ (lo + w) * 2 ^ w + x / 2 ^ lo % 2 ^ w) * 2 ^ lo + x % 2 ^ lo := by rw [← h2]
    _ = _ := by rw [Nat.add_mul, Nat.mul_assoc, Nat.pow_add 2 lo w, Nat.mul_comm (2 ^ w) (2 ^ lo)]

theorem setBits_eq (x lo w v : Nat) :
    setBits x lo w v = x / 2 ^ (lo + w) * 2 ^ (lo + w) + v % 2 ^ w * 2 ^ lo + x % 2 ^ lo := by
  have h := bits_split x lo w
  unfold setBits
  omega

/-- The three parts of a number written as one. -/
theorem parts_div (h b l lo w : Nat) (hl : l < 2 ^ lo) :
    (h * 2 ^ (lo + w) + b * 2 ^ lo + l) / 2 ^ lo = h * 2 ^ w + b := by
  have e : h * 2 ^ (lo + w) + b * 2 ^ lo + l = (h * 2 ^ w + b) * 2 ^ lo + l := by
    rw [Nat.add_mul, Nat.mul_assoc, Nat.pow_add 2 lo w, Nat.mul_comm (2 ^ lo) (2 ^ w)]
  rw [e, Nat.add_comm, Nat.add_mul_div_right _ _ (Nat.two_pow_pos lo), Nat.div_eq_of_lt hl, Nat.zero_add]

/-- A field reads as the low bits of what was written to it. -/
theorem bits_setBits_same (x lo w v : Nat) : bits (setBits x lo w v) lo w = v % 2 ^ w := by
  rw [setBits_eq]
  unfold bits
  rw [Nat.shiftRight_eq_div_pow, parts_div _ _ _ _ _ (Nat.mod_lt _ (Nat.two_pow_pos lo)),
    Nat.add_comm, Nat.add_mul_mod_self_right, Nat.mod_mod]

theorem setBits_lt (x lo w v : Nat) (hx : x < 2 ^ 64) (hw : lo + w ≤ 64) : setBits x lo w v < 2 ^ 64 := by
  rw [setBits_eq]
  have hv := Nat.mod_lt v (Nat.two_pow_pos w)
  have hl := Nat.mod_lt x (Nat.two_pow_pos lo)
  have hp : 2 ^ 64 = 2 ^ (64 - (lo + w)) * 2 ^ (lo + w) := by rw [← Nat.pow_add]; congr 1; omega
  have hq : x / 2 ^ (lo + w) < 2 ^ (64 - (lo + w)) := by
    rw [Nat.div_lt_iff_lt_mul (Nat.two_pow_pos _)]
    omega
  have h1 : (x / 2 ^ (lo + w) + 1) * 2 ^ (lo + w) ≤ 2 ^ 64 := by
    rw [hp]
    exact Nat.mul_le_mul_right _ hq
  have h2 : (v % 2 ^ w + 1) * 2 ^ lo ≤ 2 ^ (lo + w) := by
    rw [Nat.pow_add, Nat.mul_comm (2 ^ lo)]
    exact Nat.mul_le_mul_right _ hv
  rw [Nat.add_mul] at h1 h2
  omega

/-- A field read after another field of the word was written, the other one above it. -/
theorem bits_setBits_above (x lo w v lo' w' : Nat) (h : lo' + w' ≤ lo) : bits (setBits x lo w v) lo' w' = bits x lo' w' := by
  have low : ∀ y : Nat, bits y lo' w' = bits (y % 2 ^ lo) lo' w' := by
    intro y
    unfold bits
    rw [Nat.shiftRight_eq_div_pow, Nat.shiftRight_eq_div_pow]
    have e : 2 ^ lo = 2 ^ lo' * 2 ^ (lo - lo') := by rw [← Nat.pow_add]; congr 1; omega
    rw [e, Nat.mod_mul_right_div_self]
    have d : 2 ^ w' ∣ 2 ^ (lo - lo') := Nat.pow_dvd_pow 2 (by omega)
    rw [Nat.mod_mod_of_dvd _ d]
  rw [low, low x, setBits_eq]
  have e : x / 2 ^ (lo + w) * 2 ^ (lo + w) + v % 2 ^ w * 2 ^ lo + x % 2 ^ lo =
      x % 2 ^ lo + 2 ^ lo * (x / 2 ^ (lo + w) * 2 ^ w + v % 2 ^ w) := by
    have a1 : x / 2 ^ (lo + w) * 2 ^ (lo + w) = 2 ^ lo * (x / 2 ^ (lo + w) * 2 ^ w) := by
      rw [Nat.pow_add 2 lo w, Nat.mul_left_comm]
    have a2 : v % 2 ^ w * 2 ^ lo = 2 ^ lo * (v % 2 ^ w) := Nat.mul_comm _ _
    rw [a1, a2, ← Nat.mul_add, Nat.add_comm]
  rw [e, Nat.add_mul_mod_self_left, Nat.mod_mod]

/-- A field read after another field of the word was written, the other one below it. -/
theorem bits_setBits_below (x lo w v lo' w' : Nat) (h : lo + w ≤ lo') : bits (setBits x lo w v) lo' w' = bits x lo' w' := by
  have high : ∀ y : Nat, bits y lo' w' = bits (y / 2 ^ (lo + w)) (lo' - (lo + w)) w' := by
    intro y
    unfold bits
    rw [Nat.shiftRight_eq_div_pow, Nat.shiftRight_eq_div_pow, Nat.div_div_eq_div_mul, ← Nat.pow_add]
    congr 3
    omega
  rw [high, high x, setBits_eq]
  congr 1
  have hv := Nat.mod_lt v (Nat.two_pow_pos w)
  have hl := Nat.mod_lt x (Nat.two_pow_pos lo)
  have h2 : (v % 2 ^ w + 1) * 2 ^ lo ≤ 2 ^ (lo + w) := by
    rw [Nat.pow_add, Nat.mul_comm (2 ^ lo)]
    exact Nat.mul_le_mul_right _ hv
  rw [Nat.add_mul] at h2
  rw [Nat.add_assoc, Nat.add_comm, Nat.add_mul_div_right _ _ (Nat.two_pow_pos _), Nat.div_eq_of_lt (by omega), Nat.zero_add]

/-! ### Fields of words -/

theorem fset_toNat (w : Word) (f : Fld) (v : Nat) (hf : f.lo + f.width ≤ 64) : (fset w f v).toNat = setBits w.toNat f.lo f.width v := by
  unfold fset
  rw [BitVec.toNat_ofNat, Nat.mod_eq_of_lt (setBits_lt _ _ _ _ w.isLt hf)]

/-- A field of a word reads as the low bits of what was written to it. -/
theorem fget_fset_same (w : Word) (f : Fld) (v : Nat) (hf : f.lo + f.width ≤ 64) : fget (fset w f v) f = v % 2 ^ f.width := by
  unfold fget
  rw [fset_toNat w f v hf, bits_setBits_same]

/-- A field of a word keeps its value when a field that does not overlap it is written. -/
theorem fget_fset_other (w : Word) (f g : Fld) (v : Nat) (hf : f.lo + f.width ≤ 64)
    (h : g.lo + g.width ≤ f.lo ∨ f.lo + f.width ≤ g.lo) : fget (fset w f v) g = fget w g := by
  unfold fget
  rw [fset_toNat w f v hf]
  cases h with
  | inl h => exact bits_setBits_above _ _ _ _ _ _ h
  | inr h => exact bits_setBits_below _ _ _ _ _ _ h

/-- A field's value is below the field's range. -/
theorem fget_lt (w : Word) (f : Fld) : fget w f < 2 ^ f.width := Nat.mod_lt _ (Nat.two_pow_pos _)

/-! ### Registers -/

/-- A register reads as it was written. -/
@[simp] theorem State.reg_setReg_same (s : State) (a : Nat) (w : Word) : (s.setReg a w).reg a = w := by
  simp [State.reg, State.setReg]

/-- A write of one register leaves every other register as it was. -/
theorem State.reg_setReg_other (s : State) (a b : Nat) (w : Word) (h : b ≠ a) : (s.setReg a w).reg b = s.reg b := by
  simp only [State.reg, State.setReg]
  exact kvGet_kvSet_other _ _ _ _ _ _ h

theorem State.reg_setReg (s : State) (a b : Nat) (w : Word) : (s.setReg a w).reg b = if b = a then w else s.reg b := by
  split
  · rename_i h
    subst h
    exact State.reg_setReg_same _ _ _
  · rename_i h
    exact State.reg_setReg_other _ _ _ _ h

/-- A register field reads as the low bits of what was written to it. -/
theorem State.fld_setFld_same (s : State) (a : Nat) (f : Fld) (v : Nat) (hf : f.lo + f.width ≤ 64) :
    (s.setFld a f v).fld a f = v % 2 ^ f.width := by
  unfold State.fld State.setFld
  rw [State.reg_setReg_same, fget_fset_same _ _ _ hf]

/-- A register field keeps its value when another register is written. -/
theorem State.fld_setFld_elsewhere (s : State) (a b : Nat) (f g : Fld) (v : Nat) (h : b ≠ a) :
    (s.setFld a f v).fld b g = s.fld b g := by
  unfold State.fld State.setFld
  rw [State.reg_setReg_other _ _ _ _ h]

/-- A register field keeps its value when a field of the same register that does not overlap it is written. -/
theorem State.fld_setFld_other (s : State) (a : Nat) (f g : Fld) (v : Nat) (hf : f.lo + f.width ≤ 64)
    (h : g.lo + g.width ≤ f.lo ∨ f.lo + f.width ≤ g.lo) : (s.setFld a f v).fld a g = s.fld a g := by
  unfold State.fld State.setFld
  rw [State.reg_setReg_same, fget_fset_other _ _ _ _ hf h]

/-- A write of a register changes nothing but that register. -/
theorem State.setReg_frame (s : State) (a : Nat) (w : Word) : s.setReg a w = { s with regs := (s.setReg a w).regs } := rfl

/-- A write of a register field changes nothing but that register. -/
theorem State.setFld_frame (s : State) (a : Nat) (f : Fld) (v : Nat) : s.setFld a f v = { s with regs := (s.setFld a f v).regs } := rfl

/-! ### Contexts and the other tables -/

@[simp] theorem State.ctx_setCtx_same (s : State) (c : Nat) (x : Ctx) : (s.setCtx c x).ctx c = x := by
  simp [State.ctx, State.setCtx]

theorem State.ctx_setCtx_other (s : State) (c d : Nat) (x : Ctx) (h : d ≠ c) : (s.setCtx c x).ctx d = s.ctx d := by
  simp only [State.ctx, State.setCtx]
  exact kvGet_kvSet_other _ _ _ _ _ _ h

@[simp] theorem State.me_setMe_same (s : State) (t m : Nat) (x : Me) : (s.setMe t m x).me t m = x := by
  simp [State.me, State.setMe]

@[simp] theorem State.mover_setMover_same (s : State) (t m : Nat) (x : Mover) : (s.setMover t m x).mover t m = x := by
  simp [State.mover, State.setMover]

@[simp] theorem State.hart_setHart_same (s : State) (t h : Nat) (x : Hart) : (s.setHart t h x).hart t h = x := by
  simp [State.hart, State.setHart]

@[simp] theorem State.link_setLink_same (s : State) (n : Nat) (x : Link) : (s.setLink n x).link n = x := by
  simp [State.link, State.setLink]

theorem State.link_setLink_other (s : State) (n k : Nat) (x : Link) (h : k ≠ n) : (s.setLink n x).link k = s.link k := by
  simp only [State.link, State.setLink]
  exact kvGet_kvSet_other _ _ _ _ _ _ h

@[simp] theorem State.press_setPress_same (s : State) (d e : Nat) (x : Press) : (s.setPress d e x).press d e = x := by
  simp [State.press, State.setPress]

@[simp] theorem State.pwr_setPwr_same (s : State) (p : Nat) (x : Power) : (s.setPwr p x).pwr p = x := by
  simp [State.pwr, State.setPwr]

@[simp] theorem State.recorder_setRecorder_same (s : State) (p : Nat) (x : Recorder) : (s.setRecorder p x).recorder p = x := by
  simp [State.recorder, State.setRecorder]

@[simp] theorem State.dom_setDom_same (s : State) (d : Nat) (x : Domain) : (s.setDom d x).dom d = x := by
  simp [State.dom, State.setDom]

@[simp] theorem State.bezel_setBezel_same (s : State) (p : Nat) (x : Bezel) : (s.setBezel p x).bezel p = x := by
  simp [State.bezel, State.setBezel]

@[simp] theorem State.evSrc_setEvSrc_same (s : State) (n : Nat) (x : EvcSrc) : (s.setEvSrc n x).evSrc n = x := by
  simp [State.evSrc, State.setEvSrc]

end Sys2Proof.Machine
end

