-- ==== Sys2Proof/Laws/KeptOps.lean ====
section
/-!
SUPPORT. What every operation of Machine/Ops.lean keeps: the queue, and the canonical form of memory.
-/

set_option linter.unusedVariables false
set_option linter.unusedSimpArgs false

namespace Sys2Proof.Machine

/-- A state written out keeps what its queue and memory keep. -/
theorem State.kept_mk {q : List Instr} (v0 : Nat) (v1 : Kv Word) (v2 : Kv Byte) (v3 : Kv Nat) (v4 : Kv Nat) (v5 : Kv Bool) (v6 : Kv Ctx) (v7 : Kv (List Undo)) (v8 : List Hold) (v9 : Kv Nat) (v10 : Kv (List UeRec)) (v11 : Kv (Nat × Nat)) (v12 : Kv Nat) (v13 : Kv (Option Nat)) (v14 : Kv Me) (v15 : Kv Mover) (v16 : Kv Hart) (v17 : Kv Nat) (v18 : Kv (List PressGroup)) (v19 : Kv (Nat × Nat)) (v20 : Kv Press) (v21 : Kv Link) (v22 : Kv (List AbortRec)) (v23 : List FoldIn) (v24 : List Coll) (v25 : List Txn) (v26 : Nat) (v27 : Kv Recorder) (v28 : Kv Power) (v29 : ModPower) (v30 : Mgmt) (v31 : Kv (List (Nat × Nat))) (v32 : Locket) (v33 : Kv EvcSrc) (v34 : Kv Nat) (v35 : Kv Nat) (v36 : Kv Bool) (v37 : Boot) (v38 : Flash) (v39 : Kv Domain) (v40 : List Dump) (v41 : List Capture) (v42 : Kv (List (Nat × Nat))) (v43 : Kv Nat) (v44 : Kv Nat) (v45 : Kv Nat) (v46 : Kv Bezel) (v47 : Kv Nat) (v48 : Kv Nat) (v49 : Pins) (v50 : Nat) (v51 : Resp) (v52 : List Instr) :
    State.Kept q ⟨v0, v1, v2, v3, v4, v5, v6, v7, v8, v9, v10, v11, v12, v13, v14, v15, v16, v17, v18, v19, v20, v21, v22, v23, v24, v25, v26, v27, v28, v29, v30, v31, v32, v33, v34, v35, v36, v37, v38, v39, v40, v41, v42, v43, v44, v45, v46, v47, v48, v49, v50, v51, v52⟩ = (v52 = q ∧ Memory.wf v2 = true) := propext ⟨fun h => h, fun h => h⟩

/-- A run of bytes written keeps the canonical form. -/
theorem memWf_write (m : Kv Byte) (a : Nat) (bs : List Byte) (h : Memory.wf m = true) : Memory.wf (kvWrite 0 m a bs) = true :=
  kvWrite_wf 0 m a bs h

/-- A range cleared keeps the canonical form. -/
theorem memWf_clear (m : Kv Byte) (a n : Nat) (h : Memory.wf m = true) : Memory.wf (kvClear m a n) = true := kvClear_wf 0 m a n h

theorem State.Kept.pend {q : List Instr} {s : State} (h : s.Kept q) : s.pending = q := h.1

theorem State.Kept.both {q : List Instr} {s : State} (h : s.Kept q) : s.pending = q ∧ Memory.wf s.mem = true := h

theorem State.Kept.split_ {q : List Instr} {s : State} {m : Kv Byte} (h : s.Kept q) (hm : Memory.wf m = true) :
    s.pending = q ∧ Memory.wf m = true := ⟨h.1, hm⟩

theorem State.Kept.wf {q : List Instr} {s : State} (h : s.Kept q) : Memory.wf s.mem = true := h.2

theorem kept_ite {q : List Instr} {c : Prop} [Decidable c] {a b : State} (ha : c → a.Kept q) (hb : ¬c → b.Kept q) :
    (if c then a else b).Kept q := by
  split
  · exact ha ‹_›
  · exact hb ‹_›

/-- A fold keeps what each of its turns keeps. -/
theorem foldl_kept {q : List Instr} {α : Type} (f : State → α → State) (hf : ∀ s x, s.Kept q → (f s x).Kept q) (l : List α) (s : State)
    (h : s.Kept q) : (l.foldl f s).Kept q := by
  induction l generalizing s with
  | nil => exact h
  | cons x l ih => exact ih _ (hf _ _ h)

/-- A result that carries a state keeps what its state keeps. -/
def KeptVia {ρ : Type} (π : ρ → State) (q : List Instr) (r : ρ) : Prop := (π r).Kept q

theorem KeptVia.out {ρ : Type} (π : ρ → State) {q : List Instr} {r : ρ} (h : KeptVia π q r) : (π r).Kept q := h

theorem KeptVia.of {ρ : Type} (π : ρ → State) {q : List Instr} {r : ρ} (h : (π r).Kept q) : KeptVia π q r := h

/-- The state in the middle of a triple. -/
def sndFst {α β : Type} (r : α × State × β) : State := r.2.1

/-- The state at the end of a triple. -/
def sndSnd {α β : Type} (r : α × β × State) : State := r.2.2

theorem keptVia_fst {q : List Instr} {β : Type} (a : State) (b : β) : KeptVia Prod.fst q (a, b) = a.Kept q :=
  propext ⟨fun h => h, fun h => h⟩

theorem keptVia_snd {q : List Instr} {β : Type} (a : State) (b : β) : KeptVia Prod.snd q (b, a) = a.Kept q :=
  propext ⟨fun h => h, fun h => h⟩

theorem keptVia_sndFst {q : List Instr} {α β : Type} (a : State) (b : β) (c : α) : KeptVia sndFst q (c, a, b) = a.Kept q :=
  propext ⟨fun h => h, fun h => h⟩

theorem keptVia_sndSnd {q : List Instr} {α β : Type} (a : State) (b : β) (c : α) : KeptVia sndSnd q (c, b, a) = a.Kept q :=
  propext ⟨fun h => h, fun h => h⟩

theorem kept_of_fst_eq {q : List Instr} {β : Type} {r : State × β} {a : State} {b : β} (e : r = (a, b)) (h : KeptVia Prod.fst q r) :
    a.Kept q := by
  subst e
  exact h

theorem kept_of_snd_eq {q : List Instr} {β : Type} {r : β × State} {a : State} {b : β} (e : r = (b, a)) (h : KeptVia Prod.snd q r) :
    a.Kept q := by
  subst e
  exact h

theorem kept_of_sndFst_eq {q : List Instr} {α β : Type} {r : α × State × β} {a : State} {b : β} {c : α} (e : r = (c, a, b))
    (h : KeptVia sndFst q r) : a.Kept q := by
  subst e
  exact h

theorem kept_of_sndSnd_eq {q : List Instr} {α β : Type} {r : α × β × State} {a : State} {b : β} {c : α} (e : r = (c, b, a))
    (h : KeptVia sndSnd q r) : a.Kept q := by
  subst e
  exact h

theorem keptVia_ite {ρ : Type} {π : ρ → State} {q : List Instr} {c : Prop} [Decidable c] {a b : ρ} (ha : c → KeptVia π q a)
    (hb : ¬c → KeptVia π q b) : KeptVia π q (if c then a else b) := by
  split
  · exact ha ‹_›
  · exact hb ‹_›

/-- A fold over results that carry a state. -/
theorem foldl_kept_via {ρ α : Type} (π : ρ → State) {q : List Instr} (f : ρ → α → ρ) (hf : ∀ r x, (π r).Kept q → KeptVia π q (f r x))
    (l : List α) (s : ρ) (h : KeptVia π q s) : (π (l.foldl f s)).Kept q := by
  induction l generalizing s with
  | nil => exact h
  | cons x l ih => exact ih _ (hf _ _ h)

theorem foldl_kept_fst {q : List Instr} {α β : Type} (f : State × β → α → State × β)
    (hf : ∀ r x, r.1.Kept q → KeptVia Prod.fst q (f r x)) (l : List α) (s : State × β) (h : KeptVia Prod.fst q s) :
    (l.foldl f s).1.Kept q := foldl_kept_via Prod.fst f hf l s h

theorem foldl_kept_snd {q : List Instr} {α β : Type} (f : β × State → α → β × State)
    (hf : ∀ r x, r.2.Kept q → KeptVia Prod.snd q (f r x)) (l : List α) (s : β × State) (h : KeptVia Prod.snd q s) :
    (l.foldl f s).2.Kept q := foldl_kept_via Prod.snd f hf l s h

theorem keptVia_ReadOut {q : List Instr} (v0 : State) (v1 : Option (List Byte)) (v2 : Bool) : KeptVia ReadOut.st q ⟨v0, v1, v2⟩ = v0.Kept q :=
  propext ⟨fun h => h, fun h => h⟩

theorem keptVia_WriteOut {q : List Instr} (v0 : State) (v1 : Bool) : KeptVia WriteOut.st q ⟨v0, v1⟩ = v0.Kept q :=
  propext ⟨fun h => h, fun h => h⟩

theorem State.setReg_kept {Q : List Instr} (s : State) (a : Nat) (w : Word) (hs : s.Kept Q) : (State.setReg s a w).Kept Q := by
  unfold State.setReg
  repeat' first
    | with_reducible assumption
    | intro _
    | with_reducible apply State.Kept.both
    | with_reducible apply State.Kept.split_
    | with_reducible refine State.Kept.wf (q := Q) ?_
    | split
    | simp only [↓State.kept_mk]
    | dsimp only

theorem State.setFld_kept {Q : List Instr} (s : State) (a : Nat) (f : Fld) (v : Nat) (hs : s.Kept Q) : (State.setFld s a f v).Kept Q := by
  unfold State.setFld
  repeat' first
    | with_reducible assumption
    | with_reducible apply State.setReg_kept
    | intro _
    | split
    | dsimp only

theorem State.addSat_kept {Q : List Instr} (s : State) (a : Nat) (f : Fld) (n : Nat) (hs : s.Kept Q) : (State.addSat s a f n).Kept Q := by
  unfold State.addSat
  repeat' first
    | with_reducible assumption
    | with_reducible apply State.setFld_kept
    | intro _
    | split
    | dsimp only

theorem State.addWrap_kept {Q : List Instr} (s : State) (a : Nat) (f : Fld) (n : Nat) (hs : s.Kept Q) : (State.addWrap s a f n).Kept Q := by
  unfold State.addWrap
  repeat' first
    | with_reducible assumption
    | with_reducible apply State.setFld_kept
    | intro _
    | split
    | dsimp only

theorem State.setCtx_kept {Q : List Instr} (s : State) (c : Nat) (x : Ctx) (hs : s.Kept Q) : (State.setCtx s c x).Kept Q := by
  unfold State.setCtx
  repeat' first
    | with_reducible assumption
    | intro _
    | with_reducible apply State.Kept.both
    | with_reducible apply State.Kept.split_
    | with_reducible refine State.Kept.wf (q := Q) ?_
    | split
    | simp only [↓State.kept_mk]
    | dsimp only

theorem State.modCtx_kept {Q : List Instr} (s : State) (c : Nat) (f : Ctx → Ctx) (hs : s.Kept Q) : (State.modCtx s c f).Kept Q := by
  unfold State.modCtx
  repeat' first
    | with_reducible assumption
    | with_reducible apply State.setCtx_kept
    | intro _
    | split
    | dsimp only

theorem State.setMe_kept {Q : List Instr} (s : State) (t : Nat) (m : Nat) (x : Me) (hs : s.Kept Q) : (State.setMe s t m x).Kept Q := by
  unfold State.setMe
  repeat' first
    | with_reducible assumption
    | intro _
    | with_reducible apply State.Kept.both
    | with_reducible apply State.Kept.split_
    | with_reducible refine State.Kept.wf (q := Q) ?_
    | split
    | simp only [↓State.kept_mk]
    | dsimp only

theorem State.setMover_kept {Q : List Instr} (s : State) (t : Nat) (m : Nat) (x : Mover) (hs : s.Kept Q) : (State.setMover s t m x).Kept Q := by
  unfold State.setMover
  repeat' first
    | with_reducible assumption
    | intro _
    | with_reducible apply State.Kept.both
    | with_reducible apply State.Kept.split_
    | with_reducible refine State.Kept.wf (q := Q) ?_
    | split
    | simp only [↓State.kept_mk]
    | dsimp only

theorem State.setHart_kept {Q : List Instr} (s : State) (t : Nat) (h : Nat) (x : Hart) (hs : s.Kept Q) : (State.setHart s t h x).Kept Q := by
  unfold State.setHart
  repeat' first
    | with_reducible assumption
    | intro _
    | with_reducible apply State.Kept.both
    | with_reducible apply State.Kept.split_
    | with_reducible refine State.Kept.wf (q := Q) ?_
    | split
    | simp only [↓State.kept_mk]
    | dsimp only

theorem State.setLink_kept {Q : List Instr} (s : State) (n : Nat) (x : Link) (hs : s.Kept Q) : (State.setLink s n x).Kept Q := by
  unfold State.setLink
  repeat' first
    | with_reducible assumption
    | intro _
    | with_reducible apply State.Kept.both
    | with_reducible apply State.Kept.split_
    | with_reducible refine State.Kept.wf (q := Q) ?_
    | split
    | simp only [↓State.kept_mk]
    | dsimp only

theorem State.setPress_kept {Q : List Instr} (s : State) (d : Nat) (e : Nat) (x : Press) (hs : s.Kept Q) : (State.setPress s d e x).Kept Q := by
  unfold State.setPress
  repeat' first
    | with_reducible assumption
    | intro _
    | with_reducible apply State.Kept.both
    | with_reducible apply State.Kept.split_
    | with_reducible refine State.Kept.wf (q := Q) ?_
    | split
    | simp only [↓State.kept_mk]
    | dsimp only

theorem State.setPwr_kept {Q : List Instr} (s : State) (p : Nat) (x : Power) (hs : s.Kept Q) : (State.setPwr s p x).Kept Q := by
  unfold State.setPwr
  repeat' first
    | with_reducible assumption
    | intro _
    | with_reducible apply State.Kept.both
    | with_reducible apply State.Kept.split_
    | with_reducible refine State.Kept.wf (q := Q) ?_
    | split
    | simp only [↓State.kept_mk]
    | dsimp only

theorem State.setRecorder_kept {Q : List Instr} (s : State) (p : Nat) (x : Recorder) (hs : s.Kept Q) : (State.setRecorder s p x).Kept Q := by
  unfold State.setRecorder
  repeat' first
    | with_reducible assumption
    | intro _
    | with_reducible apply State.Kept.both
    | with_reducible apply State.Kept.split_
    | with_reducible refine State.Kept.wf (q := Q) ?_
    | split
    | simp only [↓State.kept_mk]
    | dsimp only

theorem State.setDom_kept {Q : List Instr} (s : State) (d : Nat) (x : Domain) (hs : s.Kept Q) : (State.setDom s d x).Kept Q := by
  unfold State.setDom
  repeat' first
    | with_reducible assumption
    | intro _
    | with_reducible apply State.Kept.both
    | with_reducible apply State.Kept.split_
    | with_reducible refine State.Kept.wf (q := Q) ?_
    | split
    | simp only [↓State.kept_mk]
    | dsimp only

theorem State.setBezel_kept {Q : List Instr} (s : State) (p : Nat) (x : Bezel) (hs : s.Kept Q) : (State.setBezel s p x).Kept Q := by
  unfold State.setBezel
  repeat' first
    | with_reducible assumption
    | intro _
    | with_reducible apply State.Kept.both
    | with_reducible apply State.Kept.split_
    | with_reducible refine State.Kept.wf (q := Q) ?_
    | split
    | simp only [↓State.kept_mk]
    | dsimp only

theorem State.setEvSrc_kept {Q : List Instr} (s : State) (n : Nat) (x : EvcSrc) (hs : s.Kept Q) : (State.setEvSrc s n x).Kept Q := by
  unfold State.setEvSrc
  repeat' first
    | with_reducible assumption
    | intro _
    | with_reducible apply State.Kept.both
    | with_reducible apply State.Kept.split_
    | with_reducible refine State.Kept.wf (q := Q) ?_
    | split
    | simp only [↓State.kept_mk]
    | dsimp only

theorem State.answer_kept {Q : List Instr} (s : State) (r : Resp) (hs : s.Kept Q) : (State.answer s r).Kept Q := by
  unfold State.answer
  repeat' first
    | with_reducible assumption
    | intro _
    | with_reducible apply State.Kept.both
    | with_reducible apply State.Kept.split_
    | with_reducible refine State.Kept.wf (q := Q) ?_
    | split
    | simp only [↓State.kept_mk]
    | dsimp only

theorem State.drawNat_kept {Q : List Instr} (s : State) (hs : s.Kept Q) : (State.drawNat s).2.Kept Q := by
  unfold State.drawNat
  refine KeptVia.out Prod.snd ?_
  repeat' first
    | with_reducible assumption
    | intro _
    | with_reducible apply State.Kept.both
    | with_reducible apply State.Kept.split_
    | with_reducible refine State.Kept.wf (q := Q) ?_
    | split
    | simp only [↓State.kept_mk, ↓keptVia_fst, ↓keptVia_snd, ↓keptVia_sndFst, ↓keptVia_sndSnd]
    | with_reducible refine KeptVia.of _ ?_
    | dsimp only

theorem State.drawBytes_kept {Q : List Instr} (s : State) (n : Nat) (hs : s.Kept Q) : (State.drawBytes s n).2.Kept Q := by
  unfold State.drawBytes
  refine KeptVia.out Prod.snd ?_
  repeat' first
    | with_reducible assumption
    | intro _
    | with_reducible apply State.Kept.both
    | with_reducible apply State.Kept.split_
    | with_reducible refine State.Kept.wf (q := Q) ?_
    | split
    | simp only [↓State.kept_mk, ↓keptVia_fst, ↓keptVia_snd, ↓keptVia_sndFst, ↓keptVia_sndSnd]
    | with_reducible refine KeptVia.of _ ?_
    | dsimp only

theorem State.drawRandom_kept {Q : List Instr} (s : State) (n : Nat) (hs : s.Kept Q) : (State.drawRandom s n).2.Kept Q := by
  unfold State.drawRandom
  refine KeptVia.out Prod.snd ?_
  repeat' first
    | with_reducible assumption
    | intro _
    | with_reducible apply State.Kept.both
    | with_reducible apply State.Kept.split_
    | with_reducible refine State.Kept.wf (q := Q) ?_
    | split
    | simp only [↓State.kept_mk, ↓keptVia_fst, ↓keptVia_snd, ↓keptVia_sndFst, ↓keptVia_sndSnd]
    | with_reducible refine KeptVia.of _ ?_
    | dsimp only

theorem State.countSource_kept {Q : List Instr} (s : State) (src : Nat) (info : Nat) (hs : s.Kept Q) : (State.countSource s src info).Kept Q := by
  unfold State.countSource
  repeat' first
    | with_reducible assumption
    | with_reducible apply State.setEvSrc_kept
    | with_reducible apply State.setReg_kept
    | intro _
    | with_reducible refine kept_ite (fun _ => ?_) (fun _ => ?_)
    | split
    | dsimp only

theorem State.raiseInfo_kept {Q : List Instr} (s : State) (src : Nat) (info : Nat) (hs : s.Kept Q) : (State.raiseInfo s src info).Kept Q := by
  unfold State.raiseInfo
  repeat' first
    | with_reducible assumption
    | with_reducible apply State.countSource_kept
    | intro _
    | with_reducible refine kept_ite (fun _ => ?_) (fun _ => ?_)
    | split
    | dsimp only

theorem State.raise_kept {Q : List Instr} (s : State) (src : Nat) (hs : s.Kept Q) : (State.raise s src).Kept Q := by
  unfold State.raise
  repeat' first
    | with_reducible assumption
    | with_reducible apply State.raiseInfo_kept
    | intro _
    | split
    | dsimp only

theorem State.senseLevel_kept {Q : List Instr} (s : State) (src : Nat) (level : Bool) (hs : s.Kept Q) : (State.senseLevel s src level).Kept Q := by
  unfold State.senseLevel
  repeat' first
    | with_reducible assumption
    | with_reducible apply State.setFld_kept
    | with_reducible apply State.countSource_kept
    | intro _
    | with_reducible refine kept_ite (fun _ => ?_) (fun _ => ?_)
    | split
    | dsimp only

theorem State.level_kept {Q : List Instr} (s : State) (src : Nat) (v : Bool) (hs : s.Kept Q) : (State.level s src v).Kept Q := by
  unfold State.level
  repeat' first
    | with_reducible assumption
    | with_reducible apply State.senseLevel_kept
    | intro _
    | with_reducible refine kept_ite (fun _ => ?_) (fun _ => ?_)
    | split
    | dsimp only

theorem State.count_kept {Q : List Instr} (s : State) (ctx : Option Nat) (part : Option Nat) (code : Nat) (n : Nat) (hs : s.Kept Q) : (State.count s ctx part code n).Kept Q := by
  unfold State.count
  repeat' first
    | with_reducible assumption
    | with_reducible apply State.modCtx_kept
    | with_reducible apply State.addWrap_kept
    | with_reducible apply foldl_kept
    | intro _
    | with_reducible refine kept_of_fst_eq (e := by with_reducible assumption) ?_
    | with_reducible refine kept_of_snd_eq (e := by with_reducible assumption) ?_
    | with_reducible refine kept_of_sndFst_eq (e := by with_reducible assumption) ?_
    | with_reducible refine kept_of_sndSnd_eq (e := by with_reducible assumption) ?_
    | with_reducible refine kept_ite (fun _ => ?_) (fun _ => ?_)
    | split
    | dsimp only

theorem State.logUe_kept {Q : List Instr} (s : State) (die : Nat) (r : UeRec) (hs : s.Kept Q) : (State.logUe s die r).Kept Q := by
  unfold State.logUe
  repeat' first
    | with_reducible assumption
    | with_reducible apply State.setFld_kept
    | with_reducible apply State.raise_kept
    | intro _
    | with_reducible apply State.Kept.both
    | with_reducible apply State.Kept.split_
    | with_reducible refine State.Kept.wf (q := Q) ?_
    | with_reducible refine kept_ite (fun _ => ?_) (fun _ => ?_)
    | split
    | simp only [↓State.kept_mk]
    | dsimp only

theorem State.readCw_kept {Q : List Instr} (s : State) (cw : Nat) (source : Nat) (virt : List (Nat × Nat)) (hs : s.Kept Q) : (State.readCw s cw source virt).1.Kept Q := by
  unfold State.readCw
  refine KeptVia.out Prod.fst ?_
  repeat' first
    | with_reducible assumption
    | with_reducible apply State.logUe_kept
    | with_reducible apply State.addSat_kept
    | with_reducible apply State.count_kept
    | intro _
    | with_reducible refine kept_of_fst_eq (e := by with_reducible assumption) ?_
    | with_reducible refine kept_of_snd_eq (e := by with_reducible assumption) ?_
    | with_reducible refine kept_of_sndFst_eq (e := by with_reducible assumption) ?_
    | with_reducible refine kept_of_sndSnd_eq (e := by with_reducible assumption) ?_
    | with_reducible apply State.Kept.both
    | with_reducible apply State.Kept.split_
    | with_reducible apply memWf_write
    | with_reducible refine State.Kept.wf (q := Q) ?_
    | with_reducible refine kept_ite (fun _ => ?_) (fun _ => ?_)
    | with_reducible refine keptVia_ite (fun _ => ?_) (fun _ => ?_)
    | split
    | simp only [↓State.kept_mk, ↓keptVia_fst, ↓keptVia_snd, ↓keptVia_sndFst, ↓keptVia_sndSnd]
    | with_reducible refine KeptVia.of _ ?_
    | dsimp only

theorem State.readCws_kept {q : List Instr} (s : State) (source : Nat) (x1 : List Nat) (hs : s.Kept q) : (State.readCws s source x1).1.Kept q := by
  induction x1 generalizing s with
  | nil => exact hs
  | cons c l ih => exact ih _ (State.readCw_kept s c source [] hs)

theorem State.setMarks_kept {Q : List Instr} (s : State) (w : Nat) (n : Nat) (v : Nat) (hs : s.Kept Q) : (State.setMarks s w n v).Kept Q := by
  unfold State.setMarks
  repeat' first
    | with_reducible assumption
    | intro _
    | with_reducible apply State.Kept.both
    | with_reducible apply State.Kept.split_
    | with_reducible apply memWf_write
    | with_reducible apply memWf_clear
    | with_reducible refine State.Kept.wf (q := Q) ?_
    | with_reducible refine kept_ite (fun _ => ?_) (fun _ => ?_)
    | split
    | simp only [↓State.kept_mk]
    | dsimp only

theorem State.tsUe_kept {Q : List Instr} (s : State) (t : Nat) (word : Nat) (hs : s.Kept Q) : (State.tsUe s t word).Kept Q := by
  unfold State.tsUe
  repeat' first
    | with_reducible assumption
    | with_reducible apply State.raise_kept
    | with_reducible apply State.setFld_kept
    | with_reducible apply State.addSat_kept
    | intro _
    | split
    | dsimp only

theorem State.tsCheck_kept {Q : List Instr} (s : State) (t : Nat) (a : Nat) (n : Nat) (hs : s.Kept Q) : (State.tsCheck s t a n).1.Kept Q := by
  unfold State.tsCheck
  refine KeptVia.out Prod.fst ?_
  repeat' first
    | with_reducible assumption
    | with_reducible apply State.addSat_kept
    | with_reducible apply State.tsUe_kept
    | with_reducible apply foldl_kept
    | with_reducible apply foldl_kept_fst
    | with_reducible apply foldl_kept_snd
    | intro _
    | split
    | simp only [↓keptVia_fst, ↓keptVia_snd, ↓keptVia_sndFst, ↓keptVia_sndSnd]
    | with_reducible refine KeptVia.of _ ?_
    | dsimp only

theorem State.readMem_kept {Q : List Instr} (s : State) (source : Nat) (a : Nat) (n : Nat) (hs : s.Kept Q) : (State.readMem s source a n).st.Kept Q := by
  unfold State.readMem
  refine KeptVia.out ReadOut.st ?_
  repeat' first
    | with_reducible assumption
    | with_reducible apply State.tsCheck_kept
    | with_reducible apply State.readCws_kept
    | intro _
    | with_reducible refine kept_of_fst_eq (e := by with_reducible assumption) ?_
    | with_reducible refine kept_of_snd_eq (e := by with_reducible assumption) ?_
    | with_reducible refine kept_of_sndFst_eq (e := by with_reducible assumption) ?_
    | with_reducible refine kept_of_sndSnd_eq (e := by with_reducible assumption) ?_
    | with_reducible refine kept_ite (fun _ => ?_) (fun _ => ?_)
    | with_reducible refine keptVia_ite (fun _ => ?_) (fun _ => ?_)
    | split
    | simp only [↓keptVia_ReadOut]
    | with_reducible refine KeptVia.of _ ?_
    | dsimp only

theorem State.writeCw_kept {Q : List Instr} (s : State) (a : Nat) (bs : List Byte) (hs : s.Kept Q) : (State.writeCw s a bs).st.Kept Q := by
  unfold State.writeCw
  refine KeptVia.out WriteOut.st ?_
  repeat' first
    | with_reducible assumption
    | with_reducible apply State.readCw_kept
    | intro _
    | with_reducible apply State.Kept.both
    | with_reducible apply State.Kept.split_
    | with_reducible apply memWf_write
    | with_reducible refine State.Kept.wf (q := Q) ?_
    | with_reducible refine kept_ite (fun _ => ?_) (fun _ => ?_)
    | with_reducible refine keptVia_ite (fun _ => ?_) (fun _ => ?_)
    | split
    | simp only [↓State.kept_mk, ↓keptVia_WriteOut]
    | with_reducible refine KeptVia.of _ ?_
    | dsimp only

theorem State.writeWord_kept {Q : List Instr} (s : State) (a : Nat) (bs : List Byte) (hs : s.Kept Q) : (State.writeWord s a bs).st.Kept Q := by
  unfold State.writeWord
  refine KeptVia.out WriteOut.st ?_
  repeat' first
    | with_reducible assumption
    | with_reducible apply State.setMarks_kept
    | intro _
    | with_reducible apply State.Kept.both
    | with_reducible apply State.Kept.split_
    | with_reducible apply memWf_write
    | with_reducible refine State.Kept.wf (q := Q) ?_
    | with_reducible refine kept_ite (fun _ => ?_) (fun _ => ?_)
    | with_reducible refine keptVia_ite (fun _ => ?_) (fun _ => ?_)
    | split
    | simp only [↓State.kept_mk, ↓keptVia_WriteOut]
    | with_reducible refine KeptVia.of _ ?_
    | dsimp only

theorem State.writeSplit_kept {q : List Instr} (s : State) (g : Nat) (part : State → Nat → List Byte → WriteOut)
    (whole : State → Nat → List Byte → State) (a : Nat) (bs : List Byte)
    (hp : ∀ s a bs, s.Kept q → (part s a bs).st.Kept q) (hw : ∀ s a bs, s.Kept q → (whole s a bs).Kept q) (hs : s.Kept q) :
    (State.writeSplit s g part whole a bs).st.Kept q := by
  unfold State.writeSplit
  refine hp _ _ _ ?_
  split
  · exact hp _ _ _ hs
  · exact hw _ _ _ (hp _ _ _ hs)

theorem State.writeMem_kept {q : List Instr} (s : State) (a : Nat) (bs : List Byte) (hs : s.Kept q) : (State.writeMem s a bs).st.Kept q := by
  unfold State.writeMem
  split
  · refine State.writeSplit_kept _ _ _ _ _ _ (fun s a bs h => State.writeWord_kept s a bs h) (fun s a bs h => ?_) hs
    exact State.setMarks_kept _ _ _ _ ⟨h.1, memWf_write _ _ _ h.2⟩
  · split
    · refine foldl_kept_via WriteOut.st _ ?_ (List.range _) (⟨s, false⟩ : WriteOut) hs
      intro r i h
      exact State.writeCw_kept r.st _ _ h
    · exact State.writeSplit_kept _ _ _ _ _ _ (fun s a bs h => State.writeCw_kept s a bs h) (fun s a bs h => ⟨h.1, memWf_write _ _ _ h.2⟩) hs

theorem State.put_kept {Q : List Instr} (s : State) (a : Nat) (bs : List Byte) (hs : s.Kept Q) : (State.put s a bs).Kept Q := by
  unfold State.put
  repeat' first
    | with_reducible assumption
    | with_reducible apply State.writeMem_kept
    | intro _
    | split
    | dsimp only

theorem State.zeroFill_kept {Q : List Instr} (s : State) (a : Nat) (n : Nat) (hs : s.Kept Q) : (State.zeroFill s a n).Kept Q := by
  unfold State.zeroFill
  repeat' first
    | with_reducible assumption
    | intro _
    | with_reducible apply State.Kept.both
    | with_reducible apply State.Kept.split_
    | with_reducible apply memWf_clear
    | with_reducible refine State.Kept.wf (q := Q) ?_
    | split
    | simp only [↓State.kept_mk]
    | dsimp only

theorem State.poisonRange_kept {Q : List Instr} (s : State) (a : Nat) (n : Nat) (hs : s.Kept Q) : (State.poisonRange s a n).Kept Q := by
  unfold State.poisonRange
  repeat' first
    | with_reducible assumption
    | intro _
    | with_reducible apply State.Kept.both
    | with_reducible apply State.Kept.split_
    | with_reducible apply memWf_write
    | with_reducible refine State.Kept.wf (q := Q) ?_
    | split
    | simp only [↓State.kept_mk]
    | dsimp only

theorem State.putClasp_kept {Q : List Instr} (s : State) (tab : Nat) (i : Nat) (v : Nat) (hs : s.Kept Q) : (State.putClasp s tab i v).Kept Q := by
  unfold State.putClasp
  repeat' first
    | with_reducible assumption
    | with_reducible apply State.setReg_kept
    | intro _
    | split
    | dsimp only

theorem State.putTaint_kept {Q : List Instr} (s : State) (tab : Nat) (i : Nat) (t : Bool) (hs : s.Kept Q) : (State.putTaint s tab i t).Kept Q := by
  unfold State.putTaint
  repeat' first
    | with_reducible assumption
    | with_reducible apply State.setFld_kept
    | intro _
    | split
    | dsimp only

theorem State.touchUndo_kept {Q : List Instr} (s : State) (tab : Nat) (i : Nat) (hs : s.Kept Q) : (State.touchUndo s tab i).Kept Q := by
  unfold State.touchUndo
  repeat' first
    | with_reducible assumption
    | intro _
    | with_reducible apply State.Kept.both
    | with_reducible apply State.Kept.split_
    | with_reducible refine State.Kept.wf (q := Q) ?_
    | with_reducible refine kept_ite (fun _ => ?_) (fun _ => ?_)
    | split
    | simp only [↓State.kept_mk]
    | dsimp only

theorem State.observe_kept {Q : List Instr} (s : State) (tab : Nat) (i : Nat) (ctx : Nat) (cseq : Nat) (hs : s.Kept Q) : (State.observe s tab i ctx cseq).Kept Q := by
  unfold State.observe
  repeat' first
    | with_reducible assumption
    | intro _
    | with_reducible apply State.Kept.both
    | with_reducible apply State.Kept.split_
    | with_reducible refine State.Kept.wf (q := Q) ?_
    | with_reducible refine kept_ite (fun _ => ?_) (fun _ => ?_)
    | split
    | simp only [↓State.kept_mk]
    | dsimp only

theorem State.wakeHarts_kept {Q : List Instr} (s : State) (tab : Nat) (i : Nat) (hs : s.Kept Q) : (State.wakeHarts s tab i).Kept Q := by
  unfold State.wakeHarts
  repeat' first
    | with_reducible assumption
    | with_reducible apply State.observe_kept
    | with_reducible apply State.setHart_kept
    | with_reducible apply foldl_kept
    | with_reducible apply foldl_kept_fst
    | with_reducible apply foldl_kept_snd
    | intro _
    | with_reducible refine kept_of_fst_eq (e := by with_reducible assumption) ?_
    | with_reducible refine kept_of_snd_eq (e := by with_reducible assumption) ?_
    | with_reducible refine kept_of_sndFst_eq (e := by with_reducible assumption) ?_
    | with_reducible refine kept_of_sndSnd_eq (e := by with_reducible assumption) ?_
    | with_reducible refine kept_ite (fun _ => ?_) (fun _ => ?_)
    | with_reducible refine keptVia_ite (fun _ => ?_) (fun _ => ?_)
    | split
    | simp only [↓keptVia_fst, ↓keptVia_snd, ↓keptVia_sndFst, ↓keptVia_sndSnd]
    | with_reducible refine KeptVia.of _ ?_
    | dsimp only

theorem State.claspAdd_kept {Q : List Instr} (s : State) (tab : Nat) (i : Nat) (inc : Nat) (taint : Bool) (hs : s.Kept Q) : (State.claspAdd s tab i inc taint).Kept Q := by
  unfold State.claspAdd
  repeat' first
    | with_reducible assumption
    | with_reducible apply State.putClasp_kept
    | with_reducible apply State.putTaint_kept
    | with_reducible apply State.wakeHarts_kept
    | with_reducible apply State.touchUndo_kept
    | intro _
    | with_reducible refine kept_ite (fun _ => ?_) (fun _ => ?_)
    | split
    | dsimp only

theorem State.logUndo_kept {Q : List Instr} (s : State) (tab : Nat) (u : Undo) (hs : s.Kept Q) : (State.logUndo s tab u).1.Kept Q := by
  unfold State.logUndo
  refine KeptVia.out Prod.fst ?_
  repeat' first
    | with_reducible assumption
    | with_reducible apply State.addSat_kept
    | intro _
    | with_reducible apply State.Kept.both
    | with_reducible apply State.Kept.split_
    | with_reducible refine State.Kept.wf (q := Q) ?_
    | with_reducible refine kept_ite (fun _ => ?_) (fun _ => ?_)
    | with_reducible refine keptVia_ite (fun _ => ?_) (fun _ => ?_)
    | split
    | simp only [↓State.kept_mk, ↓keptVia_fst, ↓keptVia_snd, ↓keptVia_sndFst, ↓keptVia_sndSnd]
    | with_reducible refine KeptVia.of _ ?_
    | dsimp only

theorem State.markOvf_kept {Q : List Instr} (s : State) (ctx : Nat) (cseq : Nat) (hs : s.Kept Q) : (State.markOvf s ctx cseq).Kept Q := by
  unfold State.markOvf
  repeat' first
    | with_reducible assumption
    | with_reducible apply State.modCtx_kept
    | intro _
    | with_reducible refine kept_ite (fun _ => ?_) (fun _ => ?_)
    | split
    | dsimp only

theorem State.claspAddFor_kept {Q : List Instr} (s : State) (tab : Nat) (i : Nat) (inc : Nat) (ctx : Nat) (cseq : Nat) (hs : s.Kept Q) : (State.claspAddFor s tab i inc ctx cseq).Kept Q := by
  unfold State.claspAddFor
  repeat' first
    | with_reducible assumption
    | with_reducible apply State.claspAdd_kept
    | with_reducible apply State.logUndo_kept
    | with_reducible apply State.markOvf_kept
    | with_reducible apply State.wakeHarts_kept
    | with_reducible apply State.putClasp_kept
    | intro _
    | with_reducible refine kept_ite (fun _ => ?_) (fun _ => ?_)
    | split
    | dsimp only

theorem State.claspSetFor_kept {Q : List Instr} (s : State) (tab : Nat) (i : Nat) (v : Nat) (ctx : Nat) (cseq : Nat) (hs : s.Kept Q) : (State.claspSetFor s tab i v ctx cseq).Kept Q := by
  unfold State.claspSetFor
  repeat' first
    | with_reducible assumption
    | with_reducible apply State.logUndo_kept
    | with_reducible apply State.markOvf_kept
    | with_reducible apply State.wakeHarts_kept
    | with_reducible apply State.putTaint_kept
    | with_reducible apply State.putClasp_kept
    | intro _
    | with_reducible refine kept_ite (fun _ => ?_) (fun _ => ?_)
    | split
    | dsimp only

theorem State.freeUndo_kept {Q : List Instr} (s : State) (tab : Nat) (ctx : Nat) (cseq : Nat) (hs : s.Kept Q) : (State.freeUndo s tab ctx cseq).Kept Q := by
  unfold State.freeUndo
  repeat' first
    | with_reducible assumption
    | intro _
    | with_reducible apply State.Kept.both
    | with_reducible apply State.Kept.split_
    | with_reducible refine State.Kept.wf (q := Q) ?_
    | with_reducible refine kept_ite (fun _ => ?_) (fun _ => ?_)
    | split
    | simp only [↓State.kept_mk]
    | dsimp only

theorem State.taintByUndo_kept {Q : List Instr} (s : State) (tab : Nat) (i : Nat) (hs : s.Kept Q) : (State.taintByUndo s tab i).Kept Q := by
  unfold State.taintByUndo
  repeat' first
    | with_reducible assumption
    | with_reducible apply State.addSat_kept
    | with_reducible apply State.putTaint_kept
    | intro _
    | with_reducible refine kept_ite (fun _ => ?_) (fun _ => ?_)
    | split
    | dsimp only

theorem State.undoOne_kept {Q : List Instr} (s : State) (tab : Nat) (later : List Nat) (u : Undo) (hs : s.Kept Q) : (State.undoOne s tab later u).1.Kept Q := by
  unfold State.undoOne
  refine KeptVia.out Prod.fst ?_
  repeat' first
    | with_reducible assumption
    | with_reducible apply State.putTaint_kept
    | with_reducible apply State.putClasp_kept
    | with_reducible apply State.taintByUndo_kept
    | intro _
    | with_reducible refine kept_ite (fun _ => ?_) (fun _ => ?_)
    | with_reducible refine keptVia_ite (fun _ => ?_) (fun _ => ?_)
    | split
    | simp only [↓keptVia_fst, ↓keptVia_snd, ↓keptVia_sndFst, ↓keptVia_sndSnd]
    | with_reducible refine KeptVia.of _ ?_
    | dsimp only

theorem State.undoClasps_kept {Q : List Instr} (s : State) (tab : Nat) (gone : List (Nat × Nat × Bool)) (hs : s.Kept Q) : (State.undoClasps s tab gone).Kept Q := by
  unfold State.undoClasps
  repeat' first
    | with_reducible assumption
    | with_reducible apply State.undoOne_kept
    | with_reducible apply State.taintByUndo_kept
    | with_reducible apply foldl_kept
    | with_reducible apply foldl_kept_fst
    | with_reducible apply foldl_kept_snd
    | intro _
    | with_reducible apply State.Kept.both
    | with_reducible apply State.Kept.split_
    | with_reducible refine State.Kept.wf (q := Q) ?_
    | with_reducible refine kept_ite (fun _ => ?_) (fun _ => ?_)
    | with_reducible refine keptVia_ite (fun _ => ?_) (fun _ => ?_)
    | split
    | simp only [↓State.kept_mk, ↓keptVia_fst, ↓keptVia_snd, ↓keptVia_sndFst, ↓keptVia_sndSnd]
    | with_reducible refine KeptVia.of _ ?_
    | dsimp only

theorem State.hold_kept {Q : List Instr} (s : State) (h : HeldOut) (hs : s.Kept Q) : (State.hold s h).Kept Q := by
  unfold State.hold
  repeat' first
    | with_reducible assumption
    | intro _
    | with_reducible apply State.Kept.both
    | with_reducible apply State.Kept.split_
    | with_reducible refine State.Kept.wf (q := Q) ?_
    | split
    | simp only [↓State.kept_mk]
    | dsimp only

theorem State.trayRec_kept {Q : List Instr} (s : State) (cls : Nat) (sub : Nat) (index : Nat) (hs : s.Kept Q) : (State.trayRec s cls sub index).Kept Q := by
  unfold State.trayRec
  repeat' first
    | with_reducible assumption
    | with_reducible apply State.hold_kept
    | intro _
    | with_reducible refine kept_ite (fun _ => ?_) (fun _ => ?_)
    | split
    | dsimp only

end Sys2Proof.Machine
end

