-- ==== Sys2Proof/Laws/KeptJournal.lean ====
section
/-!
SUPPORT. What every operation of Machine/Journal.lean keeps: the queue, and the canonical form of memory.
-/

set_option linter.unusedVariables false
set_option linter.unusedSimpArgs false

namespace Sys2Proof.Machine

theorem keptVia_JWrite {q : List Instr} (v0 : State) (v1 : Bool) (v2 : Option Nat) : KeptVia JWrite.st q ⟨v0, v1, v2⟩ = v0.Kept q :=
  propext ⟨fun h => h, fun h => h⟩

theorem State.jPutSuper_kept {Q : List Instr} (s : State) (p : Nat) (hs : s.Kept Q) : (State.jPutSuper s p).Kept Q := by
  unfold State.jPutSuper
  repeat' first
    | with_reducible assumption
    | with_reducible apply State.put_kept
    | intro _
    | split
    | dsimp only

theorem State.setHold_kept {Q : List Instr} (s : State) (h : Hold) (hs : s.Kept Q) : (State.setHold s h).Kept Q := by
  unfold State.setHold
  repeat' first
    | with_reducible assumption
    | intro _
    | with_reducible apply State.Kept.both
    | with_reducible apply State.Kept.split_
    | with_reducible refine State.Kept.wf (q := Q) ?_
    | with_reducible refine kept_ite (fun _ => ?_) (fun _ => ?_)
    | split
    | simp only [↓State.kept_mk]
    | dsimp only

theorem State.jCopy_kept {Q : List Instr} (s : State) (h : Hold) (b : Nat) (hs : s.Kept Q) : (State.jCopy s h b).1.Kept Q := by
  unfold State.jCopy
  refine KeptVia.out Prod.fst ?_
  repeat' first
    | with_reducible assumption
    | with_reducible apply State.readMem_kept
    | with_reducible apply State.put_kept
    | with_reducible apply State.jPutSuper_kept
    | with_reducible apply State.setHold_kept
    | intro _
    | with_reducible refine kept_of_fst_eq (e := by with_reducible assumption) ?_
    | with_reducible refine kept_of_snd_eq (e := by with_reducible assumption) ?_
    | with_reducible refine kept_of_sndFst_eq (e := by with_reducible assumption) ?_
    | with_reducible refine kept_of_sndSnd_eq (e := by with_reducible assumption) ?_
    | with_reducible apply State.Kept.both
    | with_reducible apply State.Kept.split_
    | with_reducible refine State.Kept.wf (q := Q) ?_
    | with_reducible refine kept_ite (fun _ => ?_) (fun _ => ?_)
    | with_reducible refine keptVia_ite (fun _ => ?_) (fun _ => ?_)
    | split
    | simp only [↓State.kept_mk, ↓keptVia_fst, ↓keptVia_snd, ↓keptVia_sndFst, ↓keptVia_sndSnd]
    | with_reducible refine KeptVia.of _ ?_
    | dsimp only

theorem State.jRetireSlot_kept {Q : List Instr} (s : State) (p : Nat) (k : Nat) (hs : s.Kept Q) : (State.jRetireSlot s p k).Kept Q := by
  unfold State.jRetireSlot
  repeat' first
    | with_reducible assumption
    | with_reducible apply State.put_kept
    | intro _
    | split
    | dsimp only

theorem State.dropHold_kept {Q : List Instr} (s : State) (ctx : Nat) (cseq : Nat) (hs : s.Kept Q) : (State.dropHold s ctx cseq).Kept Q := by
  unfold State.dropHold
  repeat' first
    | with_reducible assumption
    | intro _
    | with_reducible apply State.Kept.both
    | with_reducible apply State.Kept.split_
    | with_reducible refine State.Kept.wf (q := Q) ?_
    | split
    | simp only [↓State.kept_mk]
    | dsimp only

theorem State.jRetire_kept {Q : List Instr} (s : State) (ctx : Nat) (cseq : Nat) (hs : s.Kept Q) : (State.jRetire s ctx cseq).Kept Q := by
  unfold State.jRetire
  repeat' first
    | with_reducible assumption
    | with_reducible apply State.dropHold_kept
    | with_reducible apply State.jRetireSlot_kept
    | with_reducible apply foldl_kept
    | intro _
    | with_reducible refine kept_of_fst_eq (e := by with_reducible assumption) ?_
    | with_reducible refine kept_of_snd_eq (e := by with_reducible assumption) ?_
    | with_reducible refine kept_of_sndFst_eq (e := by with_reducible assumption) ?_
    | with_reducible refine kept_of_sndSnd_eq (e := by with_reducible assumption) ?_
    | split
    | dsimp only

theorem State.jRestore_kept {Q : List Instr} (s : State) (p : Nat) (k : Nat) (hs : s.Kept Q) : (State.jRestore s p k).Kept Q := by
  unfold State.jRestore
  repeat' first
    | with_reducible assumption
    | with_reducible apply State.readMem_kept
    | with_reducible apply State.setMarks_kept
    | with_reducible apply State.poisonRange_kept
    | with_reducible apply State.logUe_kept
    | with_reducible apply State.put_kept
    | with_reducible apply State.jRetireSlot_kept
    | intro _
    | with_reducible refine kept_of_fst_eq (e := by with_reducible assumption) ?_
    | with_reducible refine kept_of_snd_eq (e := by with_reducible assumption) ?_
    | with_reducible refine kept_of_sndFst_eq (e := by with_reducible assumption) ?_
    | with_reducible refine kept_of_sndSnd_eq (e := by with_reducible assumption) ?_
    | with_reducible refine kept_ite (fun _ => ?_) (fun _ => ?_)
    | split
    | dsimp only

theorem State.jRollback_kept {Q : List Instr} (s : State) (ctx : Nat) (cseq : Nat) (hs : s.Kept Q) : (State.jRollback s ctx cseq).Kept Q := by
  unfold State.jRollback
  repeat' first
    | with_reducible assumption
    | with_reducible apply State.dropHold_kept
    | with_reducible apply State.jRestore_kept
    | with_reducible apply foldl_kept
    | intro _
    | with_reducible refine kept_of_fst_eq (e := by with_reducible assumption) ?_
    | with_reducible refine kept_of_snd_eq (e := by with_reducible assumption) ?_
    | with_reducible refine kept_of_sndFst_eq (e := by with_reducible assumption) ?_
    | with_reducible refine kept_of_sndSnd_eq (e := by with_reducible assumption) ?_
    | split
    | dsimp only

theorem State.jStart_kept {Q : List Instr} (s : State) (p : Nat) (hs : s.Kept Q) : (State.jStart s p).Kept Q := by
  unfold State.jStart
  repeat' first
    | with_reducible assumption
    | with_reducible apply State.readCw_kept
    | with_reducible apply State.logUe_kept
    | with_reducible apply State.put_kept
    | with_reducible apply State.jRestore_kept
    | with_reducible apply State.jPutSuper_kept
    | with_reducible apply foldl_kept
    | with_reducible apply foldl_kept_fst
    | with_reducible apply foldl_kept_snd
    | intro _
    | with_reducible apply State.Kept.both
    | with_reducible apply State.Kept.split_
    | with_reducible refine State.Kept.wf (q := Q) ?_
    | with_reducible refine kept_ite (fun _ => ?_) (fun _ => ?_)
    | with_reducible refine keptVia_ite (fun _ => ?_) (fun _ => ?_)
    | split
    | simp only [↓State.kept_mk, ↓keptVia_fst, ↓keptVia_snd, ↓keptVia_sndFst, ↓keptVia_sndSnd]
    | with_reducible refine KeptVia.of _ ?_
    | dsimp only

theorem State.clash_kept {Q : List Instr} (s : State) (p : Nat) (hs : s.Kept Q) : (State.clash s p).Kept Q := by
  unfold State.clash
  repeat' first
    | with_reducible assumption
    | with_reducible apply State.raise_kept
    | with_reducible apply State.setFld_kept
    | with_reducible apply State.addSat_kept
    | intro _
    | split
    | dsimp only

theorem State.storeBy_kept {Q : List Instr} (s : State) (owner : Option (Nat × Nat)) (a : Nat) (bs : List Byte) (hs : s.Kept Q) : (State.storeBy s owner a bs).st.Kept Q := by
  unfold State.storeBy
  refine KeptVia.out JWrite.st ?_
  repeat' first
    | with_reducible assumption
    | with_reducible apply State.jCopy_kept
    | with_reducible apply State.clash_kept
    | with_reducible apply State.writeMem_kept
    | with_reducible apply foldl_kept
    | with_reducible apply foldl_kept_fst
    | with_reducible apply foldl_kept_snd
    | with_reducible apply foldl_kept_via JWrite.st
    | intro _
    | with_reducible refine kept_of_fst_eq (e := by with_reducible assumption) ?_
    | with_reducible refine kept_of_snd_eq (e := by with_reducible assumption) ?_
    | with_reducible refine kept_of_sndFst_eq (e := by with_reducible assumption) ?_
    | with_reducible refine kept_of_sndSnd_eq (e := by with_reducible assumption) ?_
    | with_reducible refine kept_ite (fun _ => ?_) (fun _ => ?_)
    | with_reducible refine keptVia_ite (fun _ => ?_) (fun _ => ?_)
    | split
    | simp only [↓keptVia_fst, ↓keptVia_snd, ↓keptVia_sndFst, ↓keptVia_sndSnd, ↓keptVia_JWrite]
    | with_reducible refine KeptVia.of _ ?_
    | dsimp only

theorem State.store_kept {Q : List Instr} (s : State) (owner : Option (Nat × Nat)) (a : Nat) (bs : List Byte) (hs : s.Kept Q) : (State.store s owner a bs).Kept Q := by
  unfold State.store
  repeat' first
    | with_reducible assumption
    | with_reducible apply State.storeBy_kept
    | intro _
    | split
    | dsimp only

end Sys2Proof.Machine
end

