-- ==== Sys2Proof/Laws/KeptCount.lean ====
section
/-!
SUPPORT. What every operation of Machine/Count.lean keeps: the queue, and the canonical form of memory.
-/

set_option linter.unusedVariables false
set_option linter.unusedSimpArgs false

namespace Sys2Proof.Machine

theorem State.countCtx_kept {Q : List Instr} (s : State) (c : Nat) (code : Nat) (n : Nat) (hs : s.Kept Q) : (State.countCtx s c code n).Kept Q := by
  unfold State.countCtx
  repeat' first
    | with_reducible assumption
    | with_reducible apply State.count_kept
    | intro _
    | with_reducible refine kept_ite (fun _ => ?_) (fun _ => ?_)
    | split
    | dsimp only

theorem State.cntLatch_kept {q : List Instr} (s : State) (x1 : List (Nat × Nat)) (hs : s.Kept q) : (State.cntLatch s x1).2.Kept q := by
  induction x1 generalizing s with
  | nil => exact hs
  | cons c l ih =>
    unfold State.cntLatch
    have hd := State.drawNat_kept s hs
    by_cases hc : cntFreeCodes.contains (bits c.1 0 12) = true
    · simp only [hc, if_true]
      exact ih _ hd
    · simp only [hc]
      exact ih _ hs

theorem State.cntLatchCtx_kept {Q : List Instr} (s : State) (c : Nat) (hs : s.Kept Q) : (State.cntLatchCtx s c).2.Kept Q := by
  unfold State.cntLatchCtx
  refine KeptVia.out Prod.snd ?_
  repeat' first
    | with_reducible assumption
    | with_reducible apply State.cntLatch_kept
    | intro _
    | split
    | simp only [↓keptVia_fst, ↓keptVia_snd, ↓keptVia_sndFst, ↓keptVia_sndSnd]
    | with_reducible refine KeptVia.of _ ?_
    | dsimp only

theorem State.cntReply_kept {Q : List Instr} (s : State) (sels : List Nat) (a : CntLatch) (b : CntLatch) (hs : s.Kept Q) : (State.cntReply s sels a b).2.2.Kept Q := by
  unfold State.cntReply
  refine KeptVia.out sndSnd ?_
  repeat' first
    | with_reducible assumption
    | with_reducible apply State.drawNat_kept
    | with_reducible apply foldl_kept
    | with_reducible apply foldl_kept_fst
    | with_reducible apply foldl_kept_snd
    | intro _
    | with_reducible refine kept_ite (fun _ => ?_) (fun _ => ?_)
    | with_reducible refine keptVia_ite (fun _ => ?_) (fun _ => ?_)
    | split
    | simp only [↓keptVia_fst, ↓keptVia_snd, ↓keptVia_sndFst, ↓keptVia_sndSnd]
    | with_reducible refine KeptVia.of _ ?_
    | dsimp only

end Sys2Proof.Machine
end

