-- ==== Sys2Proof/Laws/KeptEvc.lean ====
section
/-!
SUPPORT. What every operation of Machine/Evc.lean keeps: the queue, and the canonical form of memory.
-/

set_option linter.unusedVariables false
set_option linter.unusedSimpArgs false

namespace Sys2Proof.Machine

theorem keptVia_Claimed {q : List Instr} (v0 : State) (v1 : Nat) (v2 : Nat) (v3 : Nat) : KeptVia Claimed.st q ⟨v0, v1, v2, v3⟩ = v0.Kept q :=
  propext ⟨fun h => h, fun h => h⟩

theorem State.lockRefused_kept {Q : List Instr} (s : State) (hs : s.Kept Q) : (State.lockRefused s).Kept Q := by
  unfold State.lockRefused
  repeat' first
    | with_reducible assumption
    | with_reducible apply State.raise_kept
    | with_reducible apply State.addSat_kept
    | intro _
    | split
    | dsimp only

theorem State.evSettleOne_kept {Q : List Instr} (s : State) (src : Nat) (hs : s.Kept Q) : (State.evSettleOne s src).Kept Q := by
  unfold State.evSettleOne
  repeat' first
    | with_reducible assumption
    | with_reducible apply State.setFld_kept
    | with_reducible apply State.setReg_kept
    | with_reducible apply State.setEvSrc_kept
    | intro _
    | with_reducible refine kept_of_fst_eq (e := by with_reducible assumption) ?_
    | with_reducible refine kept_of_snd_eq (e := by with_reducible assumption) ?_
    | with_reducible refine kept_of_sndFst_eq (e := by with_reducible assumption) ?_
    | with_reducible refine kept_of_sndSnd_eq (e := by with_reducible assumption) ?_
    | with_reducible refine kept_ite (fun _ => ?_) (fun _ => ?_)
    | split
    | dsimp only

theorem State.evSettle_kept {Q : List Instr} (s : State) (hs : s.Kept Q) : (State.evSettle s).Kept Q := by
  unfold State.evSettle
  repeat' first
    | with_reducible assumption
    | with_reducible apply State.evSettleOne_kept
    | with_reducible apply foldl_kept
    | intro _
    | split
    | dsimp only

theorem State.startHold_kept {Q : List Instr} (s : State) (g : Nat) (hs : s.Kept Q) : (State.startHold s g).Kept Q := by
  unfold State.startHold
  repeat' first
    | with_reducible assumption
    | with_reducible apply State.setFld_kept
    | intro _
    | with_reducible apply State.Kept.both
    | with_reducible apply State.Kept.split_
    | with_reducible refine State.Kept.wf (q := Q) ?_
    | with_reducible refine kept_ite (fun _ => ?_) (fun _ => ?_)
    | split
    | simp only [↓State.kept_mk]
    | dsimp only

theorem State.takeWinner_kept {Q : List Instr} (s : State) (k : Nat) (src : Nat) (hs : s.Kept Q) : (State.takeWinner s k src).st.Kept Q := by
  unfold State.takeWinner
  refine KeptVia.out Claimed.st ?_
  repeat' first
    | with_reducible assumption
    | with_reducible apply State.setReg_kept
    | with_reducible apply State.setEvSrc_kept
    | with_reducible apply State.startHold_kept
    | intro _
    | split
    | simp only [↓keptVia_Claimed]
    | with_reducible refine KeptVia.of _ ?_
    | dsimp only

theorem State.completeSrc_kept {Q : List Instr} (s : State) (src : Nat) (hs : s.Kept Q) : (State.completeSrc s src).Kept Q := by
  unfold State.completeSrc
  repeat' first
    | with_reducible assumption
    | with_reducible apply State.setFld_kept
    | intro _
    | with_reducible refine kept_ite (fun _ => ?_) (fun _ => ?_)
    | split
    | dsimp only

theorem State.claimRead_kept {Q : List Instr} (s : State) (k : Nat) (hs : s.Kept Q) : (State.claimRead s k).2.Kept Q := by
  unfold State.claimRead
  refine KeptVia.out Prod.snd ?_
  repeat' first
    | with_reducible assumption
    | with_reducible apply State.takeWinner_kept
    | intro _
    | with_reducible refine kept_of_fst_eq (e := by with_reducible assumption) ?_
    | with_reducible refine kept_of_snd_eq (e := by with_reducible assumption) ?_
    | with_reducible refine kept_of_sndFst_eq (e := by with_reducible assumption) ?_
    | with_reducible refine kept_of_sndSnd_eq (e := by with_reducible assumption) ?_
    | with_reducible refine kept_ite (fun _ => ?_) (fun _ => ?_)
    | with_reducible refine keptVia_ite (fun _ => ?_) (fun _ => ?_)
    | split
    | simp only [↓keptVia_fst, ↓keptVia_snd, ↓keptVia_sndFst, ↓keptVia_sndSnd]
    | with_reducible refine KeptVia.of _ ?_
    | dsimp only

theorem State.completeWrite_kept {Q : List Instr} (s : State) (k : Nat) (src : Nat) (hs : s.Kept Q) : (State.completeWrite s k src).Kept Q := by
  unfold State.completeWrite
  repeat' first
    | with_reducible assumption
    | with_reducible apply State.completeSrc_kept
    | with_reducible apply State.raise_kept
    | intro _
    | with_reducible refine kept_ite (fun _ => ?_) (fun _ => ?_)
    | split
    | dsimp only

theorem State.strandPut_kept {Q : List Instr} (s : State) (k : Nat) (src : Nat) (count : Nat) (flags : Nat) (first : Nat) (info : Nat) (hs : s.Kept Q) : (State.strandPut s k src count flags first info).Kept Q := by
  unfold State.strandPut
  repeat' first
    | with_reducible assumption
    | with_reducible apply State.store_kept
    | with_reducible apply State.setFld_kept
    | intro _
    | with_reducible apply State.Kept.both
    | with_reducible apply State.Kept.split_
    | with_reducible refine State.Kept.wf (q := Q) ?_
    | split
    | simp only [↓State.kept_mk]
    | dsimp only

theorem State.strandDeliver_kept {Q : List Instr} (s : State) (k : Nat) (hs : s.Kept Q) : (State.strandDeliver s k).Kept Q := by
  unfold State.strandDeliver
  repeat' first
    | with_reducible assumption
    | with_reducible apply State.takeWinner_kept
    | with_reducible apply State.setFld_kept
    | with_reducible apply State.addSat_kept
    | with_reducible apply State.strandPut_kept
    | with_reducible apply State.raise_kept
    | intro _
    | with_reducible refine kept_of_fst_eq (e := by with_reducible assumption) ?_
    | with_reducible refine kept_of_snd_eq (e := by with_reducible assumption) ?_
    | with_reducible refine kept_of_sndFst_eq (e := by with_reducible assumption) ?_
    | with_reducible refine kept_of_sndSnd_eq (e := by with_reducible assumption) ?_
    | with_reducible refine kept_ite (fun _ => ?_) (fun _ => ?_)
    | split
    | dsimp only

theorem State.filterPins_kept {Q : List Instr} (s : State) (now : Nat) (hs : s.Kept Q) : (State.filterPins s now).Kept Q := by
  unfold State.filterPins
  repeat' first
    | with_reducible assumption
    | with_reducible apply State.setEvSrc_kept
    | with_reducible apply State.senseLevel_kept
    | with_reducible apply foldl_kept
    | intro _
    | with_reducible apply State.Kept.both
    | with_reducible apply State.Kept.split_
    | with_reducible refine State.Kept.wf (q := Q) ?_
    | with_reducible refine kept_ite (fun _ => ?_) (fun _ => ?_)
    | split
    | simp only [↓State.kept_mk]
    | dsimp only

theorem State.setLevel_kept {Q : List Instr} (s : State) (src : Nat) (v : Bool) (hs : s.Kept Q) : (State.setLevel s src v).Kept Q := by
  unfold State.setLevel
  repeat' first
    | with_reducible assumption
    | with_reducible apply State.senseLevel_kept
    | with_reducible apply State.setEvSrc_kept
    | intro _
    | with_reducible refine kept_ite (fun _ => ?_) (fun _ => ?_)
    | with_reducible refine keptVia_ite (fun _ => ?_) (fun _ => ?_)
    | split
    | simp only [↓keptVia_fst, ↓keptVia_snd, ↓keptVia_sndFst, ↓keptVia_sndSnd]
    | with_reducible refine KeptVia.of _ ?_
    | dsimp only

theorem State.evClear_kept {Q : List Instr} (s : State) (src : Nat) (hs : s.Kept Q) : (State.evClear s src).Kept Q := by
  unfold State.evClear
  repeat' first
    | with_reducible assumption
    | with_reducible apply State.setReg_kept
    | intro _
    | split
    | dsimp only

theorem State.evPartReset_kept {Q : List Instr} (s : State) (p : Nat) (hs : s.Kept Q) : (State.evPartReset s p).Kept Q := by
  unfold State.evPartReset
  repeat' first
    | with_reducible assumption
    | with_reducible apply State.evSettle_kept
    | with_reducible apply State.evClear_kept
    | with_reducible apply State.completeSrc_kept
    | with_reducible apply foldl_kept
    | intro _
    | with_reducible refine kept_ite (fun _ => ?_) (fun _ => ?_)
    | split
    | dsimp only

theorem State.evOwnerChange_kept {Q : List Instr} (s : State) (old : Nat) (hs : s.Kept Q) : (State.evOwnerChange s old).Kept Q := by
  unfold State.evOwnerChange
  repeat' first
    | with_reducible assumption
    | with_reducible apply State.evSettle_kept
    | with_reducible apply State.completeSrc_kept
    | with_reducible apply foldl_kept
    | intro _
    | with_reducible refine kept_ite (fun _ => ?_) (fun _ => ?_)
    | split
    | dsimp only

theorem State.evModuleReset_kept {Q : List Instr} (s : State) (hs : s.Kept Q) : (State.evModuleReset s).Kept Q := by
  unfold State.evModuleReset
  repeat' first
    | with_reducible assumption
    | intro _
    | with_reducible apply State.Kept.both
    | with_reducible apply State.Kept.split_
    | with_reducible apply memWf_clear
    | with_reducible refine State.Kept.wf (q := Q) ?_
    | split
    | simp only [↓State.kept_mk]
    | dsimp only

theorem execEventOccurrence_kept {Q : List Instr} (src : Nat) (s : State) (hs : s.Kept Q) {t : State} (e : execEventOccurrence src s = .next t) : t.Kept Q := by
  unfold execEventOccurrence at e
  injection e with e
  subst e
  repeat' first
    | with_reducible assumption
    | with_reducible apply State.evSettle_kept
    | with_reducible apply State.raise_kept
    | intro _
    | with_reducible refine kept_ite (fun _ => ?_) (fun _ => ?_)
    | split
    | dsimp only

theorem execComplete_kept {Q : List Instr} (k : Nat) (src : Nat) (s : State) (hs : s.Kept Q) {t : State} (e : execComplete k src s = .next t) : t.Kept Q := by
  unfold execComplete at e
  injection e with e
  subst e
  repeat' first
    | with_reducible assumption
    | with_reducible apply State.evSettle_kept
    | with_reducible apply State.completeWrite_kept
    | intro _
    | with_reducible refine kept_ite (fun _ => ?_) (fun _ => ?_)
    | split
    | dsimp only

theorem execStrandConsWrite_kept {Q : List Instr} (k : Nat) (v : Nat) (s : State) (hs : s.Kept Q) {t : State} (e : execStrandConsWrite k v s = .next t) : t.Kept Q := by
  unfold execStrandConsWrite at e
  injection e with e
  subst e
  repeat' first
    | with_reducible assumption
    | with_reducible apply State.setFld_kept
    | intro _
    | with_reducible refine kept_ite (fun _ => ?_) (fun _ => ?_)
    | split
    | dsimp only

theorem execGlobalDisableWrite_kept {Q : List Instr} (v : Bool) (by_ : Writer) (s : State) (hs : s.Kept Q) {t : State} (e : execGlobalDisableWrite v by_ s = .next t) : t.Kept Q := by
  unfold execGlobalDisableWrite at e
  injection e with e
  subst e
  repeat' first
    | with_reducible assumption
    | with_reducible apply State.evSettle_kept
    | with_reducible apply State.setFld_kept
    | with_reducible apply State.lockRefused_kept
    | intro _
    | with_reducible refine kept_ite (fun _ => ?_) (fun _ => ?_)
    | split
    | dsimp only

theorem execSourceModeWrite_kept {Q : List Instr} (src : Nat) (mode : Nat) (filt : Nat) (by_ : Writer) (s : State) (hs : s.Kept Q) {t : State} (e : execSourceModeWrite src mode filt by_ s = .next t) : t.Kept Q := by
  unfold execSourceModeWrite at e
  injection e with e
  subst e
  repeat' first
    | with_reducible assumption
    | with_reducible apply State.lockRefused_kept
    | with_reducible apply State.evSettle_kept
    | with_reducible apply State.setEvSrc_kept
    | intro _
    | with_reducible refine kept_ite (fun _ => ?_) (fun _ => ?_)
    | with_reducible refine keptVia_ite (fun _ => ?_) (fun _ => ?_)
    | split
    | simp only [↓keptVia_fst, ↓keptVia_snd, ↓keptVia_sndFst, ↓keptVia_sndSnd]
    | with_reducible refine KeptVia.of _ ?_
    | dsimp only

theorem execRouteWrite_kept {Q : List Instr} (src : Nat) (r : Nat) (by_ : Writer) (s : State) (hs : s.Kept Q) {t : State} (e : execRouteWrite src r by_ s = .next t) : t.Kept Q := by
  unfold execRouteWrite at e
  injection e with e
  subst e
  repeat' first
    | with_reducible assumption
    | with_reducible apply State.lockRefused_kept
    | with_reducible apply State.setFld_kept
    | with_reducible apply State.setEvSrc_kept
    | with_reducible apply State.evSettle_kept
    | intro _
    | with_reducible refine kept_ite (fun _ => ?_) (fun _ => ?_)
    | split
    | dsimp only

end Sys2Proof.Machine
end

