-- ==== Sys2Proof/Laws/KeptStart.lean ====
section
/-!
SUPPORT. What every operation of Machine/Start.lean keeps: the queue, and the canonical form of memory.
-/

set_option linter.unusedVariables false
set_option linter.unusedSimpArgs false

namespace Sys2Proof.Machine

theorem State.modCmd_kept {Q : List Instr} (s : State) (ctx : Nat) (cseq : Nat) (f : Cmd → Cmd) (hs : s.Kept Q) : (State.modCmd s ctx cseq f).Kept Q := by
  unfold State.modCmd
  repeat' first
    | with_reducible assumption
    | with_reducible apply State.modCtx_kept
    | intro _
    | with_reducible refine kept_ite (fun _ => ?_) (fun _ => ?_)
    | split
    | dsimp only

theorem State.progress_kept {Q : List Instr} (s : State) (key : Nat) (hs : s.Kept Q) : (State.progress s key).Kept Q := by
  unfold State.progress
  repeat' first
    | with_reducible assumption
    | intro _
    | with_reducible apply State.Kept.both
    | with_reducible apply State.Kept.split_
    | with_reducible refine State.Kept.wf (q := Q) ?_
    | split
    | simp only [↓State.kept_mk]
    | dsimp only

theorem State.finish_kept {Q : List Instr} (s : State) (ctx : Nat) (cseq : Nat) (st : Status) (detail : Nat) (aux : Nat) (hs : s.Kept Q) : (State.finish s ctx cseq st detail aux).Kept Q := by
  unfold State.finish
  repeat' first
    | with_reducible assumption
    | with_reducible apply State.progress_kept
    | with_reducible apply State.modCtx_kept
    | intro _
    | with_reducible refine kept_ite (fun _ => ?_) (fun _ => ?_)
    | split
    | dsimp only

theorem State.fail_kept {Q : List Instr} (s : State) (ctx : Nat) (cseq : Nat) (st : Status) (hs : s.Kept Q) : (State.fail s ctx cseq st).Kept Q := by
  unfold State.fail
  repeat' first
    | with_reducible assumption
    | with_reducible apply State.finish_kept
    | intro _
    | split
    | dsimp only

theorem State.doneWake_kept {Q : List Instr} (s : State) (p : Nat) (i : Nat) (hs : s.Kept Q) : (State.doneWake s p i).Kept Q := by
  unfold State.doneWake
  repeat' first
    | with_reducible assumption
    | with_reducible apply State.observe_kept
    | with_reducible apply State.finish_kept
    | with_reducible apply foldl_kept
    | intro _
    | with_reducible refine kept_ite (fun _ => ?_) (fun _ => ?_)
    | split
    | dsimp only

theorem State.settleClasp_kept {Q : List Instr} (s : State) (tab : Nat) (i : Nat) (hs : s.Kept Q) : (State.settleClasp s tab i).Kept Q := by
  unfold State.settleClasp
  repeat' first
    | with_reducible assumption
    | with_reducible apply State.doneWake_kept
    | with_reducible apply State.wakeHarts_kept
    | intro _
    | split
    | dsimp only

end Sys2Proof.Machine
end

