-- ==== Sys2Proof/Laws/KeptClock.lean ====
section
/-!
SUPPORT. What every operation of Machine/Clock.lean keeps: the queue, and the canonical form of memory.
-/

set_option linter.unusedVariables false
set_option linter.unusedSimpArgs false

namespace Sys2Proof.Machine

theorem State.ctxTicks_kept {Q : List Instr} (s : State) (dt : Nat) (c : Nat) (hs : s.Kept Q) : (State.ctxTicks s dt c).Kept Q := by
  unfold State.ctxTicks
  repeat' first
    | with_reducible assumption
    | with_reducible apply State.modCmd_kept
    | with_reducible apply State.countCtx_kept
    | with_reducible apply State.progress_kept
    | with_reducible apply foldl_kept
    | intro _
    | with_reducible refine kept_of_fst_eq (e := by with_reducible assumption) ?_
    | with_reducible refine kept_of_snd_eq (e := by with_reducible assumption) ?_
    | with_reducible refine kept_of_sndFst_eq (e := by with_reducible assumption) ?_
    | with_reducible refine kept_of_sndSnd_eq (e := by with_reducible assumption) ?_
    | with_reducible refine kept_ite (fun _ => ?_) (fun _ => ?_)
    | split
    | dsimp only

theorem State.bankTicks_kept {Q : List Instr} (s : State) (dt : Nat) (hs : s.Kept Q) : (State.bankTicks s dt).Kept Q := by
  unfold State.bankTicks
  repeat' first
    | with_reducible assumption
    | with_reducible apply State.modCtx_kept
    | with_reducible apply State.addWrap_kept
    | with_reducible apply foldl_kept
    | intro _
    | with_reducible refine kept_ite (fun _ => ?_) (fun _ => ?_)
    | split
    | dsimp only

theorem State.advance_kept {Q : List Instr} (s : State) (now : Nat) (hs : s.Kept Q) : (State.advance s now).Kept Q := by
  unfold State.advance
  repeat' first
    | with_reducible assumption
    | with_reducible apply State.bankTicks_kept
    | with_reducible apply State.ctxTicks_kept
    | with_reducible apply State.filterPins_kept
    | with_reducible apply foldl_kept
    | intro _
    | with_reducible apply State.Kept.both
    | with_reducible apply State.Kept.split_
    | with_reducible refine State.Kept.wf (q := Q) ?_
    | with_reducible refine kept_ite (fun _ => ?_) (fun _ => ?_)
    | split
    | simp only [↓State.kept_mk]
    | dsimp only

end Sys2Proof.Machine
end

