-- ==== Sys2Proof/Laws/KeptEvents.lean ====
section
/-!
SUPPORT. What every operation of Machine/Events.lean keeps: the queue, and the canonical form of memory.
-/

set_option linter.unusedVariables false
set_option linter.unusedSimpArgs false

namespace Sys2Proof.Machine

theorem execLevelChange_kept {Q : List Instr} (now : Nat) (src : Nat) (level : Bool) (s : State) (hs : s.Kept Q) {t : State} (e : execLevelChange now src level s = .next t) : t.Kept Q := by
  unfold execLevelChange at e
  injection e with e
  subst e
  repeat' first
    | with_reducible assumption
    | with_reducible apply State.advance_kept
    | with_reducible apply State.evSettle_kept
    | with_reducible apply State.setLevel_kept
    | intro _
    | with_reducible refine kept_ite (fun _ => ?_) (fun _ => ?_)
    | split
    | dsimp only

theorem execClaim_kept {Q : List Instr} (now : Nat) (k : Nat) (s : State) (hs : s.Kept Q) {t : State} (e : execClaim now k s = .next t) : t.Kept Q := by
  unfold execClaim at e
  injection e with e
  subst e
  repeat' first
    | with_reducible assumption
    | with_reducible apply State.advance_kept
    | with_reducible apply State.claimRead_kept
    | with_reducible apply State.answer_kept
    | with_reducible apply State.evSettle_kept
    | intro _
    | with_reducible refine kept_ite (fun _ => ?_) (fun _ => ?_)
    | split
    | dsimp only

theorem execStrandRecord_kept {Q : List Instr} (now : Nat) (k : Nat) (s : State) (hs : s.Kept Q) {t : State} (e : execStrandRecord now k s = .next t) : t.Kept Q := by
  unfold execStrandRecord at e
  injection e with e
  subst e
  repeat' first
    | with_reducible assumption
    | with_reducible apply State.advance_kept
    | with_reducible apply State.evSettle_kept
    | with_reducible apply State.strandDeliver_kept
    | intro _
    | with_reducible refine kept_ite (fun _ => ?_) (fun _ => ?_)
    | split
    | dsimp only

theorem execHoldoffExpire_kept {Q : List Instr} (now : Nat) (g : Nat) (s : State) (hs : s.Kept Q) {t : State} (e : execHoldoffExpire now g s = .next t) : t.Kept Q := by
  unfold execHoldoffExpire at e
  injection e with e
  subst e
  repeat' first
    | with_reducible assumption
    | with_reducible apply State.advance_kept
    | with_reducible apply State.evSettle_kept
    | with_reducible apply State.setFld_kept
    | intro _
    | with_reducible apply State.Kept.both
    | with_reducible apply State.Kept.split_
    | with_reducible refine State.Kept.wf (q := Q) ?_
    | with_reducible refine kept_ite (fun _ => ?_) (fun _ => ?_)
    | split
    | simp only [↓State.kept_mk]
    | dsimp only

theorem execSourceMaskWrite_kept {Q : List Instr} (now : Nat) (src : Nat) (v : Bool) (by_ : Writer) (s : State) (hs : s.Kept Q) {t : State} (e : execSourceMaskWrite now src v by_ s = .next t) : t.Kept Q := by
  unfold execSourceMaskWrite at e
  injection e with e
  subst e
  repeat' first
    | with_reducible assumption
    | with_reducible apply State.advance_kept
    | with_reducible apply State.lockRefused_kept
    | with_reducible apply State.evSettle_kept
    | with_reducible apply State.setFld_kept
    | intro _
    | with_reducible refine kept_ite (fun _ => ?_) (fun _ => ?_)
    | split
    | dsimp only

end Sys2Proof.Machine
end

