-- ==== Sys2Proof/Laws/KeptRecord.lean ====
section
/-!
SUPPORT. What every operation of Machine/Record.lean keeps: the queue, and the canonical form of memory.
-/

set_option linter.unusedVariables false
set_option linter.unusedSimpArgs false

namespace Sys2Proof.Machine

theorem State.recBytes_kept {Q : List Instr} (s : State) (r : Recorder) (off : Nat) (bs : List Byte) (hs : s.Kept Q) : (State.recBytes s r off bs).Kept Q := by
  unfold State.recBytes
  repeat' first
    | with_reducible assumption
    | with_reducible apply State.store_kept
    | intro _
    | with_reducible refine kept_ite (fun _ => ?_) (fun _ => ?_)
    | split
    | dsimp only

theorem State.recHeader_kept {Q : List Instr} (s : State) (p : Nat) (endTime : Nat) (hs : s.Kept Q) : (State.recHeader s p endTime).Kept Q := by
  unfold State.recHeader
  repeat' first
    | with_reducible assumption
    | with_reducible apply State.store_kept
    | with_reducible apply State.setFld_kept
    | intro _
    | split
    | dsimp only

theorem State.recEnd_kept {Q : List Instr} (s : State) (p : Nat) (hs : s.Kept Q) : (State.recEnd s p).Kept Q := by
  unfold State.recEnd
  repeat' first
    | with_reducible assumption
    | with_reducible apply State.setRecorder_kept
    | with_reducible apply State.recHeader_kept
    | with_reducible apply State.setFld_kept
    | intro _
    | split
    | dsimp only

theorem State.recOne_kept {Q : List Instr} (s : State) (p : Nat) (kind : Nat) (rflags : Nat) (cseq : Nat) (payload : List Byte) (hs : s.Kept Q) : (State.recOne s p kind rflags cseq payload).Kept Q := by
  unfold State.recOne
  repeat' first
    | with_reducible assumption
    | with_reducible apply State.recEnd_kept
    | with_reducible apply State.setFld_kept
    | with_reducible apply State.setRecorder_kept
    | with_reducible apply State.recBytes_kept
    | with_reducible apply State.recHeader_kept
    | intro _
    | with_reducible refine kept_ite (fun _ => ?_) (fun _ => ?_)
    | split
    | dsimp only

theorem State.recPut_kept {Q : List Instr} (s : State) (p : Nat) (kind : Nat) (cseq : Nat) (payload : List Byte) (hs : s.Kept Q) : (State.recPut s p kind cseq payload).Kept Q := by
  unfold State.recPut
  repeat' first
    | with_reducible assumption
    | with_reducible apply State.recOne_kept
    | with_reducible apply foldl_kept
    | intro _
    | with_reducible refine kept_ite (fun _ => ?_) (fun _ => ?_)
    | split
    | dsimp only

theorem State.recClasp_kept {Q : List Instr} (s : State) (tab : Nat) (i : Nat) (mode : Nat) (taint : Bool) (v : Nat) (src : Option Nat) (hs : s.Kept Q) : (State.recClasp s tab i mode taint v src).Kept Q := by
  unfold State.recClasp
  repeat' first
    | with_reducible assumption
    | with_reducible apply State.recPut_kept
    | intro _
    | with_reducible refine kept_ite (fun _ => ?_) (fun _ => ?_)
    | split
    | dsimp only

theorem State.signal_kept {Q : List Instr} (s : State) (tab : Nat) (i : Nat) (inc : Nat) (taint : Bool) (src : Option Nat) (hs : s.Kept Q) : (State.signal s tab i inc taint src).Kept Q := by
  unfold State.signal
  repeat' first
    | with_reducible assumption
    | with_reducible apply State.recClasp_kept
    | with_reducible apply State.doneWake_kept
    | with_reducible apply State.claspAdd_kept
    | intro _
    | split
    | dsimp only

theorem State.addFor_kept {Q : List Instr} (s : State) (tab : Nat) (i : Nat) (inc : Nat) (ctx : Nat) (cseq : Nat) (hs : s.Kept Q) : (State.addFor s tab i inc ctx cseq).Kept Q := by
  unfold State.addFor
  repeat' first
    | with_reducible assumption
    | with_reducible apply State.recClasp_kept
    | with_reducible apply State.doneWake_kept
    | with_reducible apply State.claspAddFor_kept
    | intro _
    | split
    | dsimp only

theorem State.setFor_kept {Q : List Instr} (s : State) (tab : Nat) (i : Nat) (v : Nat) (ctx : Nat) (cseq : Nat) (hs : s.Kept Q) : (State.setFor s tab i v ctx cseq).Kept Q := by
  unfold State.setFor
  repeat' first
    | with_reducible assumption
    | with_reducible apply State.recClasp_kept
    | with_reducible apply State.doneWake_kept
    | with_reducible apply State.claspSetFor_kept
    | intro _
    | split
    | dsimp only

theorem State.capEnter_kept {Q : List Instr} (s : State) (p : Nat) (addr : Nat) (len : Nat) (dig : List Byte) (hs : s.Kept Q) : (State.capEnter s p addr len dig).Kept Q := by
  unfold State.capEnter
  repeat' first
    | with_reducible assumption
    | with_reducible apply State.store_kept
    | with_reducible apply State.setRecorder_kept
    | intro _
    | split
    | dsimp only

theorem State.recStart_kept {Q : List Instr} (s : State) (ctx : Nat) (c : Cmd) (hs : s.Kept Q) : (State.recStart s ctx c).Kept Q := by
  unfold State.recStart
  repeat' first
    | with_reducible assumption
    | with_reducible apply State.recPut_kept
    | with_reducible apply State.recOne_kept
    | with_reducible apply State.capEnter_kept
    | with_reducible apply foldl_kept
    | intro _
    | with_reducible refine kept_ite (fun _ => ?_) (fun _ => ?_)
    | split
    | dsimp only

theorem State.recRetire_kept {Q : List Instr} (s : State) (ctx : Nat) (c : Cmd) (hs : s.Kept Q) : (State.recRetire s ctx c).Kept Q := by
  unfold State.recRetire
  repeat' first
    | with_reducible assumption
    | with_reducible apply State.recPut_kept
    | with_reducible apply State.capEnter_kept
    | with_reducible apply foldl_kept
    | intro _
    | with_reducible refine kept_ite (fun _ => ?_) (fun _ => ?_)
    | split
    | dsimp only

theorem State.loadSeeds_kept {Q : List Instr} (s : State) (c : Nat) (pay : List Byte) (hs : s.Kept Q) : (State.loadSeeds s c pay).Kept Q := by
  unfold State.loadSeeds
  repeat' first
    | with_reducible assumption
    | with_reducible apply State.setReg_kept
    | with_reducible apply foldl_kept
    | intro _
    | split
    | dsimp only

theorem State.replayApply_kept {Q : List Instr} (s : State) (p : Nat) (x : RingRec) (hs : s.Kept Q) : (State.replayApply s p x).Kept Q := by
  unfold State.replayApply
  repeat' first
    | with_reducible assumption
    | with_reducible apply State.loadSeeds_kept
    | with_reducible apply State.setRecorder_kept
    | with_reducible apply State.store_kept
    | intro _
    | with_reducible refine kept_of_fst_eq (e := by with_reducible assumption) ?_
    | with_reducible refine kept_of_snd_eq (e := by with_reducible assumption) ?_
    | with_reducible refine kept_of_sndFst_eq (e := by with_reducible assumption) ?_
    | with_reducible refine kept_of_sndSnd_eq (e := by with_reducible assumption) ?_
    | with_reducible refine kept_ite (fun _ => ?_) (fun _ => ?_)
    | split
    | dsimp only

theorem State.replayCatchUp_kept {Q : List Instr} (s : State) (p : Nat) (rec_ : Nat) (hs : s.Kept Q) : (State.replayCatchUp s p rec_).Kept Q := by
  unfold State.replayCatchUp
  repeat' first
    | with_reducible assumption
    | with_reducible apply State.replayApply_kept
    | with_reducible apply State.setRecorder_kept
    | with_reducible apply foldl_kept
    | intro _
    | with_reducible refine kept_of_fst_eq (e := by with_reducible assumption) ?_
    | with_reducible refine kept_of_snd_eq (e := by with_reducible assumption) ?_
    | with_reducible refine kept_of_sndFst_eq (e := by with_reducible assumption) ?_
    | with_reducible refine kept_of_sndSnd_eq (e := by with_reducible assumption) ?_
    | split
    | dsimp only

theorem State.diverge_kept {Q : List Instr} (s : State) (p : Nat) (kind : Nat) (region : Nat) (rsn : Nat) (rec_ : Nat) (hs : s.Kept Q) : (State.diverge s p kind region rsn rec_).Kept Q := by
  unfold State.diverge
  repeat' first
    | with_reducible assumption
    | with_reducible apply State.setFld_kept
    | with_reducible apply State.raise_kept
    | intro _
    | with_reducible refine kept_ite (fun _ => ?_) (fun _ => ?_)
    | split
    | dsimp only

theorem State.replayCompare_kept {Q : List Instr} (s : State) (ctx : Nat) (c : Cmd) (hs : s.Kept Q) : (State.replayCompare s ctx c).Kept Q := by
  unfold State.replayCompare
  repeat' first
    | with_reducible assumption
    | with_reducible apply State.setRecorder_kept
    | with_reducible apply State.diverge_kept
    | intro _
    | with_reducible refine kept_of_fst_eq (e := by with_reducible assumption) ?_
    | with_reducible refine kept_of_snd_eq (e := by with_reducible assumption) ?_
    | with_reducible refine kept_of_sndFst_eq (e := by with_reducible assumption) ?_
    | with_reducible refine kept_of_sndSnd_eq (e := by with_reducible assumption) ?_
    | with_reducible refine kept_ite (fun _ => ?_) (fun _ => ?_)
    | split
    | dsimp only

end Sys2Proof.Machine
end

