-- ==== Sys2Proof/Laws/KeptWire.lean ====
section
/-!
SUPPORT. What every operation of Machine/Wire.lean keeps: the queue, and the canonical form of memory.
-/

set_option linter.unusedVariables false
set_option linter.unusedSimpArgs false

namespace Sys2Proof.Machine

theorem State.pump_kept {Q : List Instr} (s : State) (n : Nat) (x1 : Nat) (hs : s.Kept Q) : (State.pump s n x1).Kept Q := by
  induction x1 generalizing s with
  | zero => exact hs
  | succ fuel ih =>
    unfold State.pump
    dsimp only
    split
    · exact hs
    · split
      · exact hs
      · exact ih _ (State.count_kept _ _ _ _ _ (State.setLink_kept _ _ _ hs))

theorem State.pumpAll_kept {Q : List Instr} (s : State) (n : Nat) (hs : s.Kept Q) : (State.pumpAll s n).Kept Q := by
  unfold State.pumpAll
  repeat' first
    | with_reducible assumption
    | with_reducible apply State.pump_kept
    | intro _
    | split
    | dsimp only

theorem State.isodrop_kept {Q : List Instr} (s : State) (fd : Nat) (k : Nat) (slice : Nat) (hs : s.Kept Q) : (State.isodrop s fd k slice).Kept Q := by
  unfold State.isodrop
  repeat' first
    | with_reducible assumption
    | with_reducible apply State.count_kept
    | with_reducible apply State.raise_kept
    | with_reducible apply State.setFld_kept
    | with_reducible apply State.addSat_kept
    | intro _
    | split
    | dsimp only

theorem State.emit_kept {Q : List Instr} (s : State) (out : Nat) (m : List Bead) (needSeal : Bool) (hs : s.Kept Q) : (State.emit s out m needSeal).Kept Q := by
  unfold State.emit
  repeat' first
    | with_reducible assumption
    | with_reducible apply State.setLink_kept
    | with_reducible apply State.isodrop_kept
    | with_reducible apply State.pumpAll_kept
    | intro _
    | with_reducible refine kept_ite (fun _ => ?_) (fun _ => ?_)
    | with_reducible refine keptVia_ite (fun _ => ?_) (fun _ => ?_)
    | split
    | simp only [↓keptVia_fst, ↓keptVia_snd, ↓keptVia_sndFst, ↓keptVia_sndSnd]
    | with_reducible refine KeptVia.of _ ?_
    | dsimp only

theorem State.route_kept {Q : List Instr} (s : State) (entry : Nat) (m : List Bead) (inLink : Nat) (needSeal : Bool) (hs : s.Kept Q) : (State.route s entry m inLink needSeal).Kept Q := by
  unfold State.route
  repeat' first
    | with_reducible assumption
    | with_reducible apply State.emit_kept
    | intro _
    | with_reducible refine kept_ite (fun _ => ?_) (fun _ => ?_)
    | split
    | dsimp only

theorem State.sendHop_kept {Q : List Instr} (s : State) (n : Nat) (kind : Nat) (slice : Nat) (pay : List Byte) (hs : s.Kept Q) : (State.sendHop s n kind slice pay).Kept Q := by
  unfold State.sendHop
  repeat' first
    | with_reducible assumption
    | with_reducible apply State.emit_kept
    | intro _
    | split
    | dsimp only

end Sys2Proof.Machine
end

