-- ==== Sys2Proof/Laws/KeptEngine.lean ====
section
/-!
SUPPORT. What every operation of Machine/Engine.lean keeps: the queue, and the canonical form of memory.
-/

set_option linter.unusedVariables false
set_option linter.unusedSimpArgs false

namespace Sys2Proof.Machine

theorem keptVia_Rows {q : List Instr} (v0 : State) (v1 : Option (List (List Byte))) (v2 : Bool) : KeptVia Rows.st q ⟨v0, v1, v2⟩ = v0.Kept q :=
  propext ⟨fun h => h, fun h => h⟩

theorem keptVia_Wrote {q : List Instr} (v0 : State) (v1 : Bool) (v2 : Option Nat) : KeptVia Wrote.st q ⟨v0, v1, v2⟩ = v0.Kept q :=
  propext ⟨fun h => h, fun h => h⟩

theorem keptVia_AccOut {q : List Instr} (v0 : State) (v1 : Option (List Accu)) (v2 : Bool) : KeptVia AccOut.st q ⟨v0, v1, v2⟩ = v0.Kept q :=
  propext ⟨fun h => h, fun h => h⟩

theorem keptVia_PieceOut {q : List Instr} (v0 : State) (v1 : Option (List Byte)) (v2 : Bool) : KeptVia PieceOut.st q ⟨v0, v1, v2⟩ = v0.Kept q :=
  propext ⟨fun h => h, fun h => h⟩

theorem State.wakeReplay_kept {Q : List Instr} (s : State) (p : Nat) (i : Nat) (hs : s.Kept Q) : (State.wakeReplay s p i).Kept Q := by
  unfold State.wakeReplay
  repeat' first
    | with_reducible assumption
    | with_reducible apply State.doneWake_kept
    | with_reducible apply State.setHart_kept
    | with_reducible apply foldl_kept
    | intro _
    | with_reducible refine kept_of_fst_eq (e := by with_reducible assumption) ?_
    | with_reducible refine kept_of_snd_eq (e := by with_reducible assumption) ?_
    | with_reducible refine kept_of_sndFst_eq (e := by with_reducible assumption) ?_
    | with_reducible refine kept_of_sndSnd_eq (e := by with_reducible assumption) ?_
    | with_reducible refine kept_ite (fun _ => ?_) (fun _ => ?_)
    | split
    | dsimp only

theorem State.addClaspFor_kept {Q : List Instr} (s : State) (ctx : Nat) (cseq : Nat) (i : Nat) (inc : Nat) (hs : s.Kept Q) : (State.addClaspFor s ctx cseq i inc).Kept Q := by
  unfold State.addClaspFor
  repeat' first
    | with_reducible assumption
    | with_reducible apply State.wakeReplay_kept
    | with_reducible apply State.setRecorder_kept
    | with_reducible apply State.addFor_kept
    | with_reducible apply State.signal_kept
    | intro _
    | with_reducible refine kept_of_fst_eq (e := by with_reducible assumption) ?_
    | with_reducible refine kept_of_snd_eq (e := by with_reducible assumption) ?_
    | with_reducible refine kept_of_sndFst_eq (e := by with_reducible assumption) ?_
    | with_reducible refine kept_of_sndSnd_eq (e := by with_reducible assumption) ?_
    | with_reducible refine kept_ite (fun _ => ?_) (fun _ => ?_)
    | split
    | dsimp only

theorem State.setClaspFor_kept {Q : List Instr} (s : State) (ctx : Nat) (cseq : Nat) (i : Nat) (v : Nat) (hs : s.Kept Q) : (State.setClaspFor s ctx cseq i v).Kept Q := by
  unfold State.setClaspFor
  repeat' first
    | with_reducible assumption
    | with_reducible apply State.wakeReplay_kept
    | with_reducible apply State.setRecorder_kept
    | with_reducible apply State.setFor_kept
    | intro _
    | with_reducible refine kept_of_fst_eq (e := by with_reducible assumption) ?_
    | with_reducible refine kept_of_snd_eq (e := by with_reducible assumption) ?_
    | with_reducible refine kept_of_sndFst_eq (e := by with_reducible assumption) ?_
    | with_reducible refine kept_of_sndSnd_eq (e := by with_reducible assumption) ?_
    | split
    | dsimp only

theorem State.signalCtx_kept {Q : List Instr} (s : State) (ctx : Nat) (i : Nat) (inc : Nat) (taint : Bool) (hs : s.Kept Q) : (State.signalCtx s ctx i inc taint).Kept Q := by
  unfold State.signalCtx
  repeat' first
    | with_reducible assumption
    | with_reducible apply State.wakeReplay_kept
    | with_reducible apply State.setRecorder_kept
    | with_reducible apply State.signal_kept
    | intro _
    | with_reducible refine kept_of_fst_eq (e := by with_reducible assumption) ?_
    | with_reducible refine kept_of_snd_eq (e := by with_reducible assumption) ?_
    | with_reducible refine kept_of_sndFst_eq (e := by with_reducible assumption) ?_
    | with_reducible refine kept_of_sndSnd_eq (e := by with_reducible assumption) ?_
    | with_reducible refine kept_ite (fun _ => ?_) (fun _ => ?_)
    | split
    | dsimp only

theorem State.dscSig_kept {Q : List Instr} (s : State) (d : List Byte) (f : Nat) (hs : s.Kept Q) : (State.dscSig s d f).Kept Q := by
  unfold State.dscSig
  repeat' first
    | with_reducible assumption
    | with_reducible apply State.addClaspFor_kept
    | intro _
    | with_reducible refine kept_ite (fun _ => ?_) (fun _ => ?_)
    | split
    | dsimp only

theorem State.meFault_kept {Q : List Instr} (s : State) (t : Nat) (m : Nat) (code : Nat) (tag : Nat) (hs : s.Kept Q) : (State.meFault s t m code tag).Kept Q := by
  unfold State.meFault
  repeat' first
    | with_reducible assumption
    | with_reducible apply State.setMe_kept
    | with_reducible apply State.raise_kept
    | with_reducible apply State.setFld_kept
    | intro _
    | with_reducible refine kept_ite (fun _ => ?_) (fun _ => ?_)
    | with_reducible refine keptVia_ite (fun _ => ?_) (fun _ => ?_)
    | split
    | simp only [↓keptVia_fst, ↓keptVia_snd, ↓keptVia_sndFst, ↓keptVia_sndSnd]
    | with_reducible refine KeptVia.of _ ?_
    | dsimp only

theorem State.mvFault_kept {Q : List Instr} (s : State) (t : Nat) (j : Nat) (code : Nat) (tag : Nat) (hs : s.Kept Q) : (State.mvFault s t j code tag).Kept Q := by
  unfold State.mvFault
  repeat' first
    | with_reducible assumption
    | with_reducible apply State.setMover_kept
    | with_reducible apply State.raise_kept
    | with_reducible apply State.setFld_kept
    | intro _
    | with_reducible refine kept_ite (fun _ => ?_) (fun _ => ?_)
    | with_reducible refine keptVia_ite (fun _ => ?_) (fun _ => ?_)
    | split
    | simp only [↓keptVia_fst, ↓keptVia_snd, ↓keptVia_sndFst, ↓keptVia_sndSnd]
    | with_reducible refine KeptVia.of _ ?_
    | dsimp only

theorem State.readRows_kept {Q : List Instr} (s : State) (addr : Nat) (n : Nat) (stride : Nat) (len : Nat) (hs : s.Kept Q) : (State.readRows s addr n stride len).st.Kept Q := by
  unfold State.readRows
  refine KeptVia.out Rows.st ?_
  repeat' first
    | with_reducible assumption
    | with_reducible apply State.readMem_kept
    | with_reducible apply foldl_kept
    | with_reducible apply foldl_kept_via Rows.st
    | intro _
    | with_reducible refine kept_of_fst_eq (e := by with_reducible assumption) ?_
    | with_reducible refine kept_of_snd_eq (e := by with_reducible assumption) ?_
    | with_reducible refine kept_of_sndFst_eq (e := by with_reducible assumption) ?_
    | with_reducible refine kept_of_sndSnd_eq (e := by with_reducible assumption) ?_
    | split
    | simp only [↓keptVia_Rows]
    | with_reducible refine KeptVia.of _ ?_
    | dsimp only

theorem State.writeRows_kept {Q : List Instr} (s : State) (owner : Option (Nat × Nat)) (addr : Nat) (stride : Nat) (rows : List (List Byte)) (hs : s.Kept Q) : (State.writeRows s owner addr stride rows).st.Kept Q := by
  unfold State.writeRows
  refine KeptVia.out Wrote.st ?_
  repeat' first
    | with_reducible assumption
    | with_reducible apply State.storeBy_kept
    | with_reducible apply foldl_kept
    | with_reducible apply foldl_kept_via Wrote.st
    | intro _
    | with_reducible refine kept_ite (fun _ => ?_) (fun _ => ?_)
    | with_reducible refine keptVia_ite (fun _ => ?_) (fun _ => ?_)
    | split
    | simp only [↓keptVia_Wrote]
    | with_reducible refine KeptVia.of _ ?_
    | dsimp only

theorem State.meStream_kept {Q : List Instr} (s : State) (d : List Byte) (acc : List Accu) (hs : s.Kept Q) : (State.meStream s d acc).st.Kept Q := by
  unfold State.meStream
  refine KeptVia.out AccOut.st ?_
  repeat' first
    | with_reducible assumption
    | with_reducible apply State.readRows_kept
    | intro _
    | with_reducible refine kept_of_fst_eq (e := by with_reducible assumption) ?_
    | with_reducible refine kept_of_snd_eq (e := by with_reducible assumption) ?_
    | with_reducible refine kept_of_sndFst_eq (e := by with_reducible assumption) ?_
    | with_reducible refine kept_of_sndSnd_eq (e := by with_reducible assumption) ?_
    | with_reducible refine kept_ite (fun _ => ?_) (fun _ => ?_)
    | with_reducible refine keptVia_ite (fun _ => ?_) (fun _ => ?_)
    | split
    | simp only [↓keptVia_AccOut]
    | with_reducible refine KeptVia.of _ ?_
    | dsimp only

theorem State.meOpen_kept {Q : List Instr} (s : State) (d : List Byte) (hs : s.Kept Q) : (State.meOpen s d).st.Kept Q := by
  unfold State.meOpen
  refine KeptVia.out AccOut.st ?_
  repeat' first
    | with_reducible assumption
    | with_reducible apply State.readRows_kept
    | intro _
    | with_reducible refine kept_of_fst_eq (e := by with_reducible assumption) ?_
    | with_reducible refine kept_of_snd_eq (e := by with_reducible assumption) ?_
    | with_reducible refine kept_of_sndFst_eq (e := by with_reducible assumption) ?_
    | with_reducible refine kept_of_sndSnd_eq (e := by with_reducible assumption) ?_
    | with_reducible refine kept_ite (fun _ => ?_) (fun _ => ?_)
    | with_reducible refine keptVia_ite (fun _ => ?_) (fun _ => ?_)
    | split
    | simp only [↓keptVia_AccOut]
    | with_reducible refine KeptVia.of _ ?_
    | dsimp only

theorem State.meWrite_kept {Q : List Instr} (s : State) (d : List Byte) (owner : Option (Nat × Nat)) (acc : List Accu) (hs : s.Kept Q) : (State.meWrite s d owner acc).st.Kept Q := by
  unfold State.meWrite
  refine KeptVia.out Wrote.st ?_
  repeat' first
    | with_reducible assumption
    | with_reducible apply State.writeRows_kept
    | intro _
    | with_reducible refine kept_ite (fun _ => ?_) (fun _ => ?_)
    | with_reducible refine keptVia_ite (fun _ => ?_) (fun _ => ?_)
    | split
    | with_reducible refine KeptVia.of _ ?_
    | dsimp only

theorem State.meCounts_kept {Q : List Instr} (s : State) (ctx : Nat) (fa : Fmt) (fb : Fmt) (m : Nat) (k : Nat) (hs : s.Kept Q) : (State.meCounts s ctx fa fb m k).Kept Q := by
  unfold State.meCounts
  repeat' first
    | with_reducible assumption
    | with_reducible apply State.countCtx_kept
    | intro _
    | split
    | dsimp only

theorem State.pieceData_kept {Q : List Instr} (s : State) (x : Xfer) (q : Piece) (hs : s.Kept Q) : (State.pieceData s x q).st.Kept Q := by
  unfold State.pieceData
  refine KeptVia.out PieceOut.st ?_
  repeat' first
    | with_reducible assumption
    | with_reducible apply State.readMem_kept
    | intro _
    | with_reducible refine kept_of_fst_eq (e := by with_reducible assumption) ?_
    | with_reducible refine kept_of_snd_eq (e := by with_reducible assumption) ?_
    | with_reducible refine kept_of_sndFst_eq (e := by with_reducible assumption) ?_
    | with_reducible refine kept_of_sndSnd_eq (e := by with_reducible assumption) ?_
    | with_reducible refine kept_ite (fun _ => ?_) (fun _ => ?_)
    | with_reducible refine keptVia_ite (fun _ => ?_) (fun _ => ?_)
    | split
    | simp only [↓keptVia_PieceOut]
    | with_reducible refine KeptVia.of _ ?_
    | dsimp only

theorem State.chunkRead_kept {Q : List Instr} (s : State) (x : Xfer) (ctx : Nat) (pos : Nat) (stop : Nat) (hs : s.Kept Q) : (State.chunkRead s x ctx pos stop).st.Kept Q := by
  unfold State.chunkRead
  refine KeptVia.out PieceOut.st ?_
  repeat' first
    | with_reducible assumption
    | with_reducible apply State.pieceData_kept
    | with_reducible apply State.countCtx_kept
    | with_reducible apply foldl_kept
    | with_reducible apply foldl_kept_via PieceOut.st
    | intro _
    | with_reducible refine kept_of_fst_eq (e := by with_reducible assumption) ?_
    | with_reducible refine kept_of_snd_eq (e := by with_reducible assumption) ?_
    | with_reducible refine kept_of_sndFst_eq (e := by with_reducible assumption) ?_
    | with_reducible refine kept_of_sndSnd_eq (e := by with_reducible assumption) ?_
    | with_reducible refine kept_ite (fun _ => ?_) (fun _ => ?_)
    | with_reducible refine keptVia_ite (fun _ => ?_) (fun _ => ?_)
    | split
    | simp only [↓keptVia_PieceOut]
    | with_reducible refine KeptVia.of _ ?_
    | dsimp only

theorem State.chunkWrite_kept {Q : List Instr} (s : State) (x : Xfer) (owner : Option (Nat × Nat)) (ctx : Nat) (pos : Nat) (stop : Nat) (bs : List Byte) (hs : s.Kept Q) : (State.chunkWrite s x owner ctx pos stop bs).st.Kept Q := by
  unfold State.chunkWrite
  refine KeptVia.out Wrote.st ?_
  repeat' first
    | with_reducible assumption
    | with_reducible apply State.storeBy_kept
    | with_reducible apply State.countCtx_kept
    | with_reducible apply foldl_kept
    | with_reducible apply foldl_kept_via Wrote.st
    | intro _
    | with_reducible refine kept_ite (fun _ => ?_) (fun _ => ?_)
    | with_reducible refine keptVia_ite (fun _ => ?_) (fun _ => ?_)
    | split
    | simp only [↓keptVia_Wrote]
    | with_reducible refine KeptVia.of _ ?_
    | dsimp only

theorem State.sendChunk_kept {Q : List Instr} (s : State) (ctx : Nat) (t : Nat) (j : Nat) (remote : Nat) (addr : Nat) (last : Bool) (data : List Byte) (hs : s.Kept Q) : (State.sendChunk s ctx t j remote addr last data).Kept Q := by
  unfold State.sendChunk
  repeat' first
    | with_reducible assumption
    | with_reducible apply State.setMover_kept
    | with_reducible apply State.route_kept
    | with_reducible apply State.countCtx_kept
    | intro _
    | with_reducible refine kept_of_fst_eq (e := by with_reducible assumption) ?_
    | with_reducible refine kept_of_snd_eq (e := by with_reducible assumption) ?_
    | with_reducible refine kept_of_sndFst_eq (e := by with_reducible assumption) ?_
    | with_reducible refine kept_of_sndSnd_eq (e := by with_reducible assumption) ?_
    | split
    | dsimp only

end Sys2Proof.Machine
end

