-- ==== Sys2Proof/Laws/KeptFlow.lean ====
section
/-!
SUPPORT. What every operation of Machine/Flow.lean keeps: the queue, and the canonical form of memory.
-/

set_option linter.unusedVariables false
set_option linter.unusedSimpArgs false

namespace Sys2Proof.Machine

theorem State.ownMe_kept {Q : List Instr} (s : State) (t : Nat) (m : Nat) (pip : Bool) (hs : s.Kept Q) : (State.ownMe s t m pip).Kept Q := by
  unfold State.ownMe
  repeat' first
    | with_reducible assumption
    | with_reducible apply State.setFld_kept
    | intro _
    | with_reducible refine kept_ite (fun _ => ?_) (fun _ => ?_)
    | split
    | dsimp only

theorem State.landMe_kept {Q : List Instr} (s : State) (t : Nat) (m : Nat) (hs : s.Kept Q) : (State.landMe s t m).Kept Q := by
  unfold State.landMe
  repeat' first
    | with_reducible assumption
    | with_reducible apply State.setFld_kept
    | intro _
    | with_reducible refine kept_ite (fun _ => ?_) (fun _ => ?_)
    | split
    | dsimp only

theorem State.ownMv_kept {Q : List Instr} (s : State) (t : Nat) (j : Nat) (pip : Bool) (hs : s.Kept Q) : (State.ownMv s t j pip).Kept Q := by
  unfold State.ownMv
  repeat' first
    | with_reducible assumption
    | with_reducible apply State.setFld_kept
    | intro _
    | with_reducible apply State.Kept.both
    | with_reducible apply State.Kept.split_
    | with_reducible refine State.Kept.wf (q := Q) ?_
    | with_reducible refine kept_ite (fun _ => ?_) (fun _ => ?_)
    | split
    | simp only [↓State.kept_mk]
    | dsimp only

theorem State.landMv_kept {Q : List Instr} (s : State) (t : Nat) (j : Nat) (hs : s.Kept Q) : (State.landMv s t j).Kept Q := by
  unfold State.landMv
  repeat' first
    | with_reducible assumption
    | with_reducible apply State.setFld_kept
    | intro _
    | with_reducible apply State.Kept.both
    | with_reducible apply State.Kept.split_
    | with_reducible refine State.Kept.wf (q := Q) ?_
    | with_reducible refine kept_ite (fun _ => ?_) (fun _ => ?_)
    | split
    | simp only [↓State.kept_mk]
    | dsimp only

theorem State.hartFlush_kept {Q : List Instr} (s : State) (t : Nat) (h : Nat) (hs : s.Kept Q) : (State.hartFlush s t h).Kept Q := by
  unfold State.hartFlush
  repeat' first
    | with_reducible assumption
    | with_reducible apply State.store_kept
    | with_reducible apply State.setHart_kept
    | with_reducible apply foldl_kept
    | intro _
    | split
    | dsimp only

theorem State.hartReset_kept {Q : List Instr} (s : State) (t : Nat) (h : Nat) (hs : s.Kept Q) : (State.hartReset s t h).Kept Q := by
  unfold State.hartReset
  repeat' first
    | with_reducible assumption
    | with_reducible apply State.hartFlush_kept
    | with_reducible apply State.setHart_kept
    | intro _
    | with_reducible refine kept_ite (fun _ => ?_) (fun _ => ?_)
    | split
    | dsimp only

theorem State.meFlush_kept {Q : List Instr} (s : State) (t : Nat) (m : Nat) (hs : s.Kept Q) : (State.meFlush s t m).Kept Q := by
  unfold State.meFlush
  repeat' first
    | with_reducible assumption
    | with_reducible apply State.meFault_kept
    | with_reducible apply State.landMe_kept
    | with_reducible apply State.setMe_kept
    | with_reducible apply foldl_kept
    | intro _
    | split
    | dsimp only

theorem State.mvFlush_kept {Q : List Instr} (s : State) (t : Nat) (j : Nat) (hs : s.Kept Q) : (State.mvFlush s t j).Kept Q := by
  unfold State.mvFlush
  repeat' first
    | with_reducible assumption
    | with_reducible apply State.mvFault_kept
    | with_reducible apply State.landMv_kept
    | with_reducible apply State.setMover_kept
    | with_reducible apply foldl_kept
    | with_reducible apply foldl_kept_fst
    | with_reducible apply foldl_kept_snd
    | intro _
    | split
    | simp only [↓keptVia_fst, ↓keptVia_snd, ↓keptVia_sndFst, ↓keptVia_sndSnd]
    | with_reducible refine KeptVia.of _ ?_
    | dsimp only

theorem State.grpFlush_kept {Q : List Instr} (s : State) (t : Nat) (g : Nat) (hs : s.Kept Q) : (State.grpFlush s t g).Kept Q := by
  unfold State.grpFlush
  repeat' first
    | with_reducible assumption
    | with_reducible apply State.meFlush_kept
    | with_reducible apply foldl_kept
    | intro _
    | split
    | dsimp only

theorem State.stopRun_kept {Q : List Instr} (s : State) (ctx : Nat) (c : Cmd) (hs : s.Kept Q) : (State.stopRun s ctx c).Kept Q := by
  unfold State.stopRun
  repeat' first
    | with_reducible assumption
    | with_reducible apply State.hartReset_kept
    | with_reducible apply State.mvFlush_kept
    | with_reducible apply State.grpFlush_kept
    | with_reducible apply foldl_kept
    | with_reducible apply foldl_kept_fst
    | with_reducible apply foldl_kept_snd
    | intro _
    | split
    | simp only [↓keptVia_fst, ↓keptVia_snd, ↓keptVia_sndFst, ↓keptVia_sndSnd]
    | with_reducible refine KeptVia.of _ ?_
    | dsimp only

theorem State.stopCmd_kept {Q : List Instr} (s : State) (ctx : Nat) (c : Cmd) (hs : s.Kept Q) : (State.stopCmd s ctx c).Kept Q := by
  unfold State.stopCmd
  repeat' first
    | with_reducible assumption
    | with_reducible apply State.stopRun_kept
    | with_reducible apply State.setMover_kept
    | with_reducible apply foldl_kept
    | with_reducible apply foldl_kept_fst
    | with_reducible apply foldl_kept_snd
    | intro _
    | with_reducible apply State.Kept.both
    | with_reducible apply State.Kept.split_
    | with_reducible refine State.Kept.wf (q := Q) ?_
    | with_reducible refine kept_ite (fun _ => ?_) (fun _ => ?_)
    | with_reducible refine keptVia_ite (fun _ => ?_) (fun _ => ?_)
    | split
    | simp only [↓State.kept_mk, ↓keptVia_fst, ↓keptVia_snd, ↓keptVia_sndFst, ↓keptVia_sndSnd]
    | with_reducible refine KeptVia.of _ ?_
    | dsimp only

theorem State.abortCmds_kept {Q : List Instr} (s : State) (ctx : Nat) (st : Status) (pick : Cmd → Bool) (by_ : Option (Nat × Nat)) (hs : s.Kept Q) : (State.abortCmds s ctx st pick by_).1.Kept Q := by
  unfold State.abortCmds
  refine KeptVia.out Prod.fst ?_
  repeat' first
    | with_reducible assumption
    | with_reducible apply State.stopCmd_kept
    | with_reducible apply State.modCtx_kept
    | with_reducible apply foldl_kept
    | with_reducible apply foldl_kept_fst
    | with_reducible apply foldl_kept_snd
    | intro _
    | with_reducible refine kept_ite (fun _ => ?_) (fun _ => ?_)
    | with_reducible refine keptVia_ite (fun _ => ?_) (fun _ => ?_)
    | split
    | simp only [↓keptVia_fst, ↓keptVia_snd, ↓keptVia_sndFst, ↓keptVia_sndSnd]
    | with_reducible refine KeptVia.of _ ?_
    | dsimp only

theorem State.fencerDone_kept {Q : List Instr} (s : State) (f : Nat × Nat) (hs : s.Kept Q) : (State.fencerDone s f).Kept Q := by
  unfold State.fencerDone
  repeat' first
    | with_reducible assumption
    | with_reducible apply State.modCmd_kept
    | with_reducible apply State.finish_kept
    | intro _
    | with_reducible refine kept_of_fst_eq (e := by with_reducible assumption) ?_
    | with_reducible refine kept_of_snd_eq (e := by with_reducible assumption) ?_
    | with_reducible refine kept_of_sndFst_eq (e := by with_reducible assumption) ?_
    | with_reducible refine kept_of_sndSnd_eq (e := by with_reducible assumption) ?_
    | with_reducible refine kept_ite (fun _ => ?_) (fun _ => ?_)
    | split
    | dsimp only

theorem State.abandonTxns_kept {Q : List Instr} (s : State) (c : Nat) (hs : s.Kept Q) : (State.abandonTxns s c).Kept Q := by
  unfold State.abandonTxns
  repeat' first
    | with_reducible assumption
    | with_reducible apply State.addSat_kept
    | with_reducible apply State.setFld_kept
    | with_reducible apply State.raise_kept
    | with_reducible apply foldl_kept
    | intro _
    | with_reducible apply State.Kept.both
    | with_reducible apply State.Kept.split_
    | with_reducible refine State.Kept.wf (q := Q) ?_
    | with_reducible refine kept_ite (fun _ => ?_) (fun _ => ?_)
    | split
    | simp only [↓State.kept_mk]
    | dsimp only

theorem State.recReset_kept {Q : List Instr} (s : State) (c : Nat) (hs : s.Kept Q) : (State.recReset s c).Kept Q := by
  unfold State.recReset
  repeat' first
    | with_reducible assumption
    | with_reducible apply State.recPut_kept
    | with_reducible apply State.setRecorder_kept
    | with_reducible apply State.recEnd_kept
    | intro _
    | with_reducible refine kept_ite (fun _ => ?_) (fun _ => ?_)
    | split
    | dsimp only

theorem State.replayStop_kept {Q : List Instr} (s : State) (p : Nat) (hs : s.Kept Q) : (State.replayStop s p).Kept Q := by
  unfold State.replayStop
  repeat' first
    | with_reducible assumption
    | with_reducible apply State.finish_kept
    | with_reducible apply State.setFld_kept
    | with_reducible apply State.setRecorder_kept
    | intro _
    | with_reducible refine kept_ite (fun _ => ?_) (fun _ => ?_)
    | split
    | dsimp only

theorem State.forfeit_kept {Q : List Instr} (s : State) (ctx : Nat) (c : Cmd) (hs : s.Kept Q) : (State.forfeit s ctx c).Kept Q := by
  unfold State.forfeit
  repeat' first
    | with_reducible assumption
    | with_reducible apply State.drawBytes_kept
    | with_reducible apply foldl_kept
    | intro _
    | with_reducible apply State.Kept.both
    | with_reducible apply State.Kept.split_
    | with_reducible apply memWf_write
    | with_reducible refine State.Kept.wf (q := Q) ?_
    | with_reducible refine kept_ite (fun _ => ?_) (fun _ => ?_)
    | split
    | simp only [↓State.kept_mk]
    | dsimp only

theorem State.discard_kept {Q : List Instr} (s : State) (ctxs : List Nat) (st : Status) (detail : Nat) (roll : Bool) (hs : s.Kept Q) : (State.discard s ctxs st detail roll).Kept Q := by
  unfold State.discard
  repeat' first
    | with_reducible assumption
    | with_reducible apply State.stopCmd_kept
    | with_reducible apply State.jRollback_kept
    | with_reducible apply State.forfeit_kept
    | with_reducible apply State.undoClasps_kept
    | with_reducible apply State.settleClasp_kept
    | with_reducible apply State.fencerDone_kept
    | with_reducible apply State.recReset_kept
    | with_reducible apply State.abandonTxns_kept
    | with_reducible apply State.setCtx_kept
    | with_reducible apply State.replayStop_kept
    | with_reducible apply State.progress_kept
    | with_reducible apply foldl_kept
    | with_reducible apply foldl_kept_fst
    | with_reducible apply foldl_kept_snd
    | intro _
    | with_reducible refine kept_of_fst_eq (e := by with_reducible assumption) ?_
    | with_reducible refine kept_of_snd_eq (e := by with_reducible assumption) ?_
    | with_reducible refine kept_of_sndFst_eq (e := by with_reducible assumption) ?_
    | with_reducible refine kept_of_sndSnd_eq (e := by with_reducible assumption) ?_
    | with_reducible refine kept_ite (fun _ => ?_) (fun _ => ?_)
    | with_reducible refine keptVia_ite (fun _ => ?_) (fun _ => ?_)
    | split
    | simp only [↓keptVia_fst, ↓keptVia_snd, ↓keptVia_sndFst, ↓keptVia_sndSnd]
    | with_reducible refine KeptVia.of _ ?_
    | dsimp only

theorem State.writeReply_kept {Q : List Instr} (s : State) (c : Nat) (m : ReplyMsg) (hs : s.Kept Q) : (State.writeReply s c m).Kept Q := by
  unfold State.writeReply
  repeat' first
    | with_reducible assumption
    | with_reducible apply State.setCtx_kept
    | with_reducible apply State.hold_kept
    | with_reducible apply State.store_kept
    | intro _
    | with_reducible refine kept_of_fst_eq (e := by with_reducible assumption) ?_
    | with_reducible refine kept_of_snd_eq (e := by with_reducible assumption) ?_
    | with_reducible refine kept_of_sndFst_eq (e := by with_reducible assumption) ?_
    | with_reducible refine kept_of_sndSnd_eq (e := by with_reducible assumption) ?_
    | with_reducible refine kept_ite (fun _ => ?_) (fun _ => ?_)
    | with_reducible refine keptVia_ite (fun _ => ?_) (fun _ => ?_)
    | split
    | simp only [↓keptVia_fst, ↓keptVia_snd, ↓keptVia_sndFst, ↓keptVia_sndSnd]
    | with_reducible refine KeptVia.of _ ?_
    | dsimp only

theorem State.ringLevel_kept {Q : List Instr} (s : State) (c : Nat) (hs : s.Kept Q) : (State.ringLevel s c).Kept Q := by
  unfold State.ringLevel
  repeat' first
    | with_reducible assumption
    | with_reducible apply State.level_kept
    | intro _
    | with_reducible refine kept_ite (fun _ => ?_) (fun _ => ?_)
    | split
    | dsimp only

theorem State.flushDue_kept {Q : List Instr} (s : State) (c : Nat) (head : Bool) (x1 : Nat) (hs : s.Kept Q) :
    (State.flushDue s c head x1).Kept Q := by
  induction x1 generalizing s with
  | zero => exact hs
  | succ fuel ih =>
    unfold State.flushDue
    dsimp only
    split
    · exact hs
    · split
      · exact hs
      · exact ih _ (State.writeReply_kept _ _ _ (State.setCtx_kept _ _ _ hs))

theorem State.flushReplies_kept {Q : List Instr} (s : State) (c : Nat) (hs : s.Kept Q) : (State.flushReplies s c).Kept Q := by
  unfold State.flushReplies
  repeat' first
    | with_reducible assumption
    | with_reducible apply State.ringLevel_kept
    | with_reducible apply State.flushDue_kept
    | intro _
    | split
    | dsimp only

theorem State.armCameo_kept {Q : List Instr} (s : State) (ctx : Nat) (c : Cmd) (hs : s.Kept Q) : (State.armCameo s ctx c).1.Kept Q := by
  unfold State.armCameo
  refine KeptVia.out Prod.fst ?_
  repeat' first
    | with_reducible assumption
    | with_reducible apply State.setCtx_kept
    | intro _
    | with_reducible refine kept_ite (fun _ => ?_) (fun _ => ?_)
    | with_reducible refine keptVia_ite (fun _ => ?_) (fun _ => ?_)
    | split
    | simp only [↓keptVia_fst, ↓keptVia_snd, ↓keptVia_sndFst, ↓keptVia_sndSnd]
    | with_reducible refine KeptVia.of _ ?_
    | dsimp only

theorem State.fireCameos_kept {Q : List Instr} (s : State) (ctx : Nat) (c : Cmd) (hs : s.Kept Q) : (State.fireCameos s ctx c).Kept Q := by
  unfold State.fireCameos
  repeat' first
    | with_reducible assumption
    | with_reducible apply State.setCtx_kept
    | intro _
    | with_reducible apply State.Kept.both
    | with_reducible apply State.Kept.split_
    | with_reducible refine State.Kept.wf (q := Q) ?_
    | with_reducible refine kept_ite (fun _ => ?_) (fun _ => ?_)
    | with_reducible refine keptVia_ite (fun _ => ?_) (fun _ => ?_)
    | split
    | simp only [↓State.kept_mk, ↓keptVia_fst, ↓keptVia_snd, ↓keptVia_sndFst, ↓keptVia_sndSnd]
    | with_reducible refine KeptVia.of _ ?_
    | dsimp only

theorem State.applySig_kept {Q : List Instr} (s : State) (ctx : Nat) (c : Cmd) (hs : s.Kept Q) : (State.applySig s ctx c).Kept Q := by
  unfold State.applySig
  repeat' first
    | with_reducible assumption
    | with_reducible apply State.signalCtx_kept
    | intro _
    | with_reducible refine kept_ite (fun _ => ?_) (fun _ => ?_)
    | split
    | dsimp only

theorem State.remoteSignal_kept {Q : List Instr} (s : State) (ctx : Nat) (c : Cmd) (hs : s.Kept Q) : (State.remoteSignal s ctx c).Kept Q := by
  unfold State.remoteSignal
  repeat' first
    | with_reducible assumption
    | with_reducible apply State.route_kept
    | intro _
    | with_reducible refine kept_of_fst_eq (e := by with_reducible assumption) ?_
    | with_reducible refine kept_of_snd_eq (e := by with_reducible assumption) ?_
    | with_reducible refine kept_of_sndFst_eq (e := by with_reducible assumption) ?_
    | with_reducible refine kept_of_sndSnd_eq (e := by with_reducible assumption) ?_
    | with_reducible refine kept_ite (fun _ => ?_) (fun _ => ?_)
    | split
    | dsimp only

theorem State.returnUnits_kept {Q : List Instr} (s : State) (c : Cmd) (hs : s.Kept Q) : (State.returnUnits s c).Kept Q := by
  unfold State.returnUnits
  repeat' first
    | with_reducible assumption
    | with_reducible apply State.ownMe_kept
    | with_reducible apply State.ownMv_kept
    | with_reducible apply foldl_kept
    | intro _
    | with_reducible refine kept_ite (fun _ => ?_) (fun _ => ?_)
    | split
    | dsimp only

theorem State.retireReply_kept {Q : List Instr} (s : State) (ctx : Nat) (c : Cmd) (hs : s.Kept Q) : (State.retireReply s ctx c).Kept Q := by
  unfold State.retireReply
  repeat' first
    | with_reducible assumption
    | with_reducible apply State.cntReply_kept
    | with_reducible apply State.writeReply_kept
    | intro _
    | with_reducible refine kept_ite (fun _ => ?_) (fun _ => ?_)
    | with_reducible refine keptVia_ite (fun _ => ?_) (fun _ => ?_)
    | split
    | simp only [↓keptVia_fst, ↓keptVia_snd, ↓keptVia_sndFst, ↓keptVia_sndSnd]
    | with_reducible refine KeptVia.of _ ?_
    | dsimp only

theorem State.retireHead_kept {Q : List Instr} (s : State) (ctx : Nat) (c0 : Cmd) (hs : s.Kept Q) : (State.retireHead s ctx c0).Kept Q := by
  unfold State.retireHead
  repeat' first
    | with_reducible assumption
    | with_reducible apply State.armCameo_kept
    | with_reducible apply State.jRetire_kept
    | with_reducible apply State.jRollback_kept
    | with_reducible apply State.remoteSignal_kept
    | with_reducible apply State.returnUnits_kept
    | with_reducible apply State.applySig_kept
    | with_reducible apply State.modCtx_kept
    | with_reducible apply State.replayCompare_kept
    | with_reducible apply State.recRetire_kept
    | with_reducible apply State.forfeit_kept
    | with_reducible apply State.countCtx_kept
    | with_reducible apply State.fireCameos_kept
    | with_reducible apply State.retireReply_kept
    | with_reducible apply State.freeUndo_kept
    | with_reducible apply State.raiseInfo_kept
    | with_reducible apply State.fencerDone_kept
    | with_reducible apply State.progress_kept
    | with_reducible apply State.flushReplies_kept
    | with_reducible apply foldl_kept
    | intro _
    | with_reducible refine kept_ite (fun _ => ?_) (fun _ => ?_)
    | split
    | dsimp only

end Sys2Proof.Machine
end

