-- ==== Sys2Proof/Laws/KeptIntake.lean ====
section
/-!
SUPPORT. What every operation of Machine/Intake.lean keeps: the queue, and the canonical form of memory.
-/

set_option linter.unusedVariables false
set_option linter.unusedSimpArgs false

namespace Sys2Proof.Machine

theorem State.takeUnit_kept {Q : List Instr} (s : State) (c : Nat) (u : List Byte) (hs : s.Kept Q) : (State.takeUnit s c u).Kept Q := by
  unfold State.takeUnit
  repeat' first
    | with_reducible assumption
    | with_reducible apply State.setCtx_kept
    | with_reducible apply State.raise_kept
    | with_reducible apply State.addSat_kept
    | intro _
    | with_reducible refine kept_ite (fun _ => ?_) (fun _ => ?_)
    | split
    | dsimp only

theorem execIntakeStore_kept {Q : List Instr} (now : Nat) (ctx : Nat) (off : Nat) (data : List Byte) (s : State) (hs : s.Kept Q) {t : State} (e : execIntakeStore now ctx off data s = .next t) : t.Kept Q := by
  unfold execIntakeStore at e
  injection e with e
  subst e
  repeat' first
    | with_reducible assumption
    | with_reducible apply State.advance_kept
    | with_reducible apply State.answer_kept
    | with_reducible apply State.takeUnit_kept
    | with_reducible apply State.setCtx_kept
    | intro _
    | with_reducible refine kept_ite (fun _ => ?_) (fun _ => ?_)
    | split
    | dsimp only

theorem execIntakeAbandon_kept {Q : List Instr} (now : Nat) (ctx : Nat) (s : State) (hs : s.Kept Q) {t : State} (e : execIntakeAbandon now ctx s = .next t) : t.Kept Q := by
  unfold execIntakeAbandon at e
  injection e with e
  subst e
  repeat' first
    | with_reducible assumption
    | with_reducible apply State.advance_kept
    | with_reducible apply State.setCtx_kept
    | with_reducible apply State.raise_kept
    | with_reducible apply State.addSat_kept
    | intro _
    | with_reducible refine kept_ite (fun _ => ?_) (fun _ => ?_)
    | split
    | dsimp only

theorem State.rejectPk_kept {Q : List Instr} (s : State) (c : Nat) (pk : List Byte) (st : Status) (hs : s.Kept Q) : (State.rejectPk s c pk st).Kept Q := by
  unfold State.rejectPk
  repeat' first
    | with_reducible assumption
    | with_reducible apply State.flushReplies_kept
    | with_reducible apply State.setCtx_kept
    | intro _
    | with_reducible refine kept_ite (fun _ => ?_) (fun _ => ?_)
    | split
    | dsimp only

theorem State.touchOldest_kept {Q : List Instr} (s : State) (ctx : Nat) (hs : s.Kept Q) : (State.touchOldest s ctx).Kept Q := by
  unfold State.touchOldest
  repeat' first
    | with_reducible assumption
    | with_reducible apply State.readMem_kept
    | with_reducible apply State.finish_kept
    | with_reducible apply State.modCmd_kept
    | intro _
    | with_reducible refine kept_of_fst_eq (e := by with_reducible assumption) ?_
    | with_reducible refine kept_of_snd_eq (e := by with_reducible assumption) ?_
    | with_reducible refine kept_of_sndFst_eq (e := by with_reducible assumption) ?_
    | with_reducible refine kept_of_sndSnd_eq (e := by with_reducible assumption) ?_
    | with_reducible refine kept_ite (fun _ => ?_) (fun _ => ?_)
    | split
    | dsimp only

theorem State.acceptPk_kept {Q : List Instr} (s : State) (c : Nat) (pk : List Byte) (isSealed : Bool) (sealOk : Bool) (hs : s.Kept Q) : (State.acceptPk s c pk isSealed sealOk).Kept Q := by
  unfold State.acceptPk
  repeat' first
    | with_reducible assumption
    | with_reducible apply State.flushReplies_kept
    | with_reducible apply State.setCtx_kept
    | with_reducible apply State.recPut_kept
    | with_reducible apply State.finish_kept
    | with_reducible apply State.modCmd_kept
    | with_reducible apply State.progress_kept
    | with_reducible apply State.touchOldest_kept
    | intro _
    | with_reducible refine kept_of_fst_eq (e := by with_reducible assumption) ?_
    | with_reducible refine kept_of_snd_eq (e := by with_reducible assumption) ?_
    | with_reducible refine kept_of_sndFst_eq (e := by with_reducible assumption) ?_
    | with_reducible refine kept_of_sndSnd_eq (e := by with_reducible assumption) ?_
    | with_reducible refine kept_ite (fun _ => ?_) (fun _ => ?_)
    | with_reducible refine keptVia_ite (fun _ => ?_) (fun _ => ?_)
    | split
    | simp only [↓keptVia_fst, ↓keptVia_snd, ↓keptVia_sndFst, ↓keptVia_sndSnd]
    | with_reducible refine KeptVia.of _ ?_
    | dsimp only

theorem execPacketCheck_kept {Q : List Instr} (ctx : Nat) (s : State) (hs : s.Kept Q) {t : State} (e : execPacketCheck ctx s = .next t) : t.Kept Q := by
  unfold execPacketCheck at e
  injection e with e
  subst e
  repeat' first
    | with_reducible assumption
    | with_reducible apply State.setCtx_kept
    | with_reducible apply State.rejectPk_kept
    | with_reducible apply State.acceptPk_kept
    | intro _
    | with_reducible refine kept_of_fst_eq (e := by with_reducible assumption) ?_
    | with_reducible refine kept_of_snd_eq (e := by with_reducible assumption) ?_
    | with_reducible refine kept_of_sndFst_eq (e := by with_reducible assumption) ?_
    | with_reducible refine kept_of_sndSnd_eq (e := by with_reducible assumption) ?_
    | with_reducible refine kept_ite (fun _ => ?_) (fun _ => ?_)
    | split
    | dsimp only

theorem execCsbRead_kept {Q : List Instr} (ctx : Nat) (off : Nat) (len : Nat) (s : State) (hs : s.Kept Q) {t : State} (e : execCsbRead ctx off len s = .next t) : t.Kept Q := by
  unfold execCsbRead at e
  injection e with e
  subst e
  repeat' first
    | with_reducible assumption
    | with_reducible apply State.modCtx_kept
    | with_reducible apply State.answer_kept
    | intro _
    | with_reducible refine kept_ite (fun _ => ?_) (fun _ => ?_)
    | split
    | dsimp only

theorem State.observeWaits_kept {Q : List Instr} (s : State) (ctx : Nat) (c : Cmd) (hs : s.Kept Q) : (State.observeWaits s ctx c).Kept Q := by
  unfold State.observeWaits
  repeat' first
    | with_reducible assumption
    | with_reducible apply State.observe_kept
    | with_reducible apply foldl_kept
    | intro _
    | with_reducible refine kept_ite (fun _ => ?_) (fun _ => ?_)
    | split
    | dsimp only

theorem State.startCmd_kept {Q : List Instr} (s : State) (ctx : Nat) (c : Cmd) (units : List Nat) (hs : s.Kept Q) : (State.startCmd s ctx c units).Kept Q := by
  unfold State.startCmd
  repeat' first
    | with_reducible assumption
    | with_reducible apply State.modCtx_kept
    | with_reducible apply State.observeWaits_kept
    | with_reducible apply State.countCtx_kept
    | with_reducible apply State.recStart_kept
    | with_reducible apply State.progress_kept
    | with_reducible apply State.touchOldest_kept
    | with_reducible apply foldl_kept
    | with_reducible apply foldl_kept_fst
    | with_reducible apply foldl_kept_snd
    | intro _
    | with_reducible apply State.Kept.both
    | with_reducible apply State.Kept.split_
    | with_reducible refine State.Kept.wf (q := Q) ?_
    | with_reducible refine kept_ite (fun _ => ?_) (fun _ => ?_)
    | with_reducible refine keptVia_ite (fun _ => ?_) (fun _ => ?_)
    | split
    | simp only [↓State.kept_mk, ↓keptVia_fst, ↓keptVia_snd, ↓keptVia_sndFst, ↓keptVia_sndSnd]
    | with_reducible refine KeptVia.of _ ?_
    | dsimp only

theorem State.finishRecorded_kept {Q : List Instr} (s : State) (ctx : Nat) (c : Cmd) (hs : s.Kept Q) : (State.finishRecorded s ctx c).Kept Q := by
  unfold State.finishRecorded
  repeat' first
    | with_reducible assumption
    | with_reducible apply State.finish_kept
    | intro _
    | with_reducible refine kept_of_fst_eq (e := by with_reducible assumption) ?_
    | with_reducible refine kept_of_snd_eq (e := by with_reducible assumption) ?_
    | with_reducible refine kept_of_sndFst_eq (e := by with_reducible assumption) ?_
    | with_reducible refine kept_of_sndSnd_eq (e := by with_reducible assumption) ?_
    | split
    | dsimp only

theorem State.tryStart_kept {Q : List Instr} (s : State) (ctx : Nat) (c : Cmd) (hs : s.Kept Q) : (State.tryStart s ctx c).Kept Q := by
  unfold State.tryStart
  repeat' first
    | with_reducible assumption
    | with_reducible apply State.touchOldest_kept
    | with_reducible apply State.finish_kept
    | with_reducible apply State.replayCatchUp_kept
    | with_reducible apply State.observeWaits_kept
    | with_reducible apply State.addSat_kept
    | with_reducible apply State.modCmd_kept
    | with_reducible apply State.startCmd_kept
    | with_reducible apply State.finishRecorded_kept
    | intro _
    | with_reducible refine kept_of_fst_eq (e := by with_reducible assumption) ?_
    | with_reducible refine kept_of_snd_eq (e := by with_reducible assumption) ?_
    | with_reducible refine kept_of_sndFst_eq (e := by with_reducible assumption) ?_
    | with_reducible refine kept_of_sndSnd_eq (e := by with_reducible assumption) ?_
    | with_reducible refine kept_ite (fun _ => ?_) (fun _ => ?_)
    | split
    | dsimp only

theorem execCommandStart_kept {Q : List Instr} (now : Nat) (ctx : Nat) (s : State) (hs : s.Kept Q) {t : State} (e : execCommandStart now ctx s = .next t) : t.Kept Q := by
  unfold execCommandStart at e
  injection e with e
  subst e
  repeat' first
    | with_reducible assumption
    | with_reducible apply State.advance_kept
    | with_reducible apply State.tryStart_kept
    | intro _
    | with_reducible refine kept_of_fst_eq (e := by with_reducible assumption) ?_
    | with_reducible refine kept_of_snd_eq (e := by with_reducible assumption) ?_
    | with_reducible refine kept_of_sndFst_eq (e := by with_reducible assumption) ?_
    | with_reducible refine kept_of_sndSnd_eq (e := by with_reducible assumption) ?_
    | split
    | dsimp only

theorem execCommandRetire_kept {Q : List Instr} (now : Nat) (ctx : Nat) (s : State) (hs : s.Kept Q) {t : State} (e : execCommandRetire now ctx s = .next t) : t.Kept Q := by
  unfold execCommandRetire at e
  injection e with e
  subst e
  repeat' first
    | with_reducible assumption
    | with_reducible apply State.flushReplies_kept
    | with_reducible apply State.advance_kept
    | with_reducible apply State.retireHead_kept
    | with_reducible apply State.ringLevel_kept
    | intro _
    | with_reducible refine kept_of_fst_eq (e := by with_reducible assumption) ?_
    | with_reducible refine kept_of_snd_eq (e := by with_reducible assumption) ?_
    | with_reducible refine kept_of_sndFst_eq (e := by with_reducible assumption) ?_
    | with_reducible refine kept_of_sndSnd_eq (e := by with_reducible assumption) ?_
    | with_reducible refine kept_ite (fun _ => ?_) (fun _ => ?_)
    | split
    | dsimp only

theorem execWaitLimitExpire_kept {Q : List Instr} (now : Nat) (ctx : Nat) (s : State) (hs : s.Kept Q) {t : State} (e : execWaitLimitExpire now ctx s = .next t) : t.Kept Q := by
  unfold execWaitLimitExpire at e
  injection e with e
  subst e
  repeat' first
    | with_reducible assumption
    | with_reducible apply State.advance_kept
    | with_reducible apply State.finish_kept
    | with_reducible apply State.touchOldest_kept
    | intro _
    | with_reducible refine kept_of_fst_eq (e := by with_reducible assumption) ?_
    | with_reducible refine kept_of_snd_eq (e := by with_reducible assumption) ?_
    | with_reducible refine kept_of_sndFst_eq (e := by with_reducible assumption) ?_
    | with_reducible refine kept_of_sndSnd_eq (e := by with_reducible assumption) ?_
    | with_reducible refine kept_ite (fun _ => ?_) (fun _ => ?_)
    | split
    | dsimp only

end Sys2Proof.Machine
end

