-- ==== Sys2Proof/Laws/KeptControl.lean ====
section
/-!
SUPPORT. What every operation of Machine/Control.lean keeps: the queue, and the canonical form of memory.
-/

set_option linter.unusedVariables false
set_option linter.unusedSimpArgs false

namespace Sys2Proof.Machine

theorem State.withBody_kept {Q : List Instr} (s : State) (ctx : Nat) (cseq : Nat) (o : Opc) (f : Cmd → State) (hs : s.Kept Q)
    (hf : ∀ c, s.body ctx cseq o = some c → (f c).Kept Q) : (State.withBody s ctx cseq o f).Kept Q := by
  unfold State.withBody
  split
  · exact hf _ ‹_›
  · exact hs

theorem State.issue_kept {Q : List Instr} (s : State) (ctx : Nat) (cseq : Nat) (left : Nat) (hs : s.Kept Q) : (State.issue s ctx cseq left).Kept Q := by
  unfold State.issue
  repeat' first
    | with_reducible assumption
    | with_reducible apply State.modCmd_kept
    | intro _
    | split
    | dsimp only

theorem State.fenceBezel_kept {Q : List Instr} (s : State) (p : Nat) (by_ : Nat) (hs : s.Kept Q) : (State.fenceBezel s p by_).Kept Q := by
  unfold State.fenceBezel
  repeat' first
    | with_reducible assumption
    | with_reducible apply State.setBezel_kept
    | with_reducible apply State.setFld_kept
    | with_reducible apply State.level_kept
    | intro _
    | with_reducible refine kept_ite (fun _ => ?_) (fun _ => ?_)
    | split
    | dsimp only

theorem State.openBezel_kept {Q : List Instr} (s : State) (p : Nat) (hs : s.Kept Q) : (State.openBezel s p).Kept Q := by
  unfold State.openBezel
  repeat' first
    | with_reducible assumption
    | with_reducible apply State.setBezel_kept
    | with_reducible apply State.level_kept
    | with_reducible apply State.setFld_kept
    | intro _
    | with_reducible refine kept_ite (fun _ => ?_) (fun _ => ?_)
    | split
    | dsimp only

theorem State.bezelRefuse_kept {Q : List Instr} (s : State) (p : Nat) (hs : s.Kept Q) : (State.bezelRefuse s p).Kept Q := by
  unfold State.bezelRefuse
  repeat' first
    | with_reducible assumption
    | with_reducible apply State.addSat_kept
    | intro _
    | split
    | dsimp only

theorem execWait_kept {Q : List Instr} (ctx : Nat) (cseq : Nat) (s : State) (hs : s.Kept Q) {t : State} (e : execWait ctx cseq s = .next t) : t.Kept Q := by
  unfold execWait at e
  injection e with e
  subst e
  repeat' first
    | with_reducible assumption
    | with_reducible apply State.withBody_kept
    | with_reducible apply State.finish_kept
    | intro _
    | split
    | dsimp only

theorem execSignal_kept {Q : List Instr} (ctx : Nat) (cseq : Nat) (s : State) (hs : s.Kept Q) {t : State} (e : execSignal ctx cseq s = .next t) : t.Kept Q := by
  unfold execSignal at e
  injection e with e
  subst e
  repeat' first
    | with_reducible assumption
    | with_reducible apply State.withBody_kept
    | with_reducible apply State.addClaspFor_kept
    | with_reducible apply State.setClaspFor_kept
    | with_reducible apply State.finish_kept
    | intro _
    | with_reducible refine kept_ite (fun _ => ?_) (fun _ => ?_)
    | split
    | dsimp only

theorem execSignalRemote_kept {Q : List Instr} (ctx : Nat) (cseq : Nat) (s : State) (hs : s.Kept Q) {t : State} (e : execSignalRemote ctx cseq s = .next t) : t.Kept Q := by
  unfold execSignalRemote at e
  injection e with e
  subst e
  repeat' first
    | with_reducible assumption
    | with_reducible apply State.withBody_kept
    | with_reducible apply State.finish_kept
    | intro _
    | split
    | dsimp only

theorem State.fenceCtx_kept {Q : List Instr} (s : State) (c : Nat) (by_ : Option (Nat × Nat)) (hs : s.Kept Q) : (State.fenceCtx s c by_).1.Kept Q := by
  unfold State.fenceCtx
  refine KeptVia.out Prod.fst ?_
  repeat' first
    | with_reducible assumption
    | with_reducible apply State.abortCmds_kept
    | with_reducible apply State.modCtx_kept
    | intro _
    | split
    | simp only [↓keptVia_fst, ↓keptVia_snd, ↓keptVia_sndFst, ↓keptVia_sndSnd]
    | with_reducible refine KeptVia.of _ ?_
    | dsimp only

theorem State.fencePart_kept {Q : List Instr} (s : State) (p : Nat) (by_ : Option (Nat × Nat)) (hs : s.Kept Q) : (State.fencePart s p by_).1.Kept Q := by
  unfold State.fencePart
  refine KeptVia.out Prod.fst ?_
  repeat' first
    | with_reducible assumption
    | with_reducible apply State.fenceCtx_kept
    | with_reducible apply foldl_kept
    | with_reducible apply foldl_kept_fst
    | with_reducible apply foldl_kept_snd
    | intro _
    | split
    | simp only [↓keptVia_fst, ↓keptVia_snd, ↓keptVia_sndFst, ↓keptVia_sndSnd]
    | with_reducible refine KeptVia.of _ ?_
    | dsimp only

theorem State.fenceWait_kept {Q : List Instr} (s : State) (ctx : Nat) (cseq : Nat) (n : Nat) (hs : s.Kept Q) : (State.fenceWait s ctx cseq n).Kept Q := by
  unfold State.fenceWait
  repeat' first
    | with_reducible assumption
    | with_reducible apply State.finish_kept
    | with_reducible apply State.modCmd_kept
    | intro _
    | with_reducible refine kept_ite (fun _ => ?_) (fun _ => ?_)
    | split
    | dsimp only

theorem execFence_kept {Q : List Instr} (ctx : Nat) (cseq : Nat) (s : State) (hs : s.Kept Q) {t : State} (e : execFence ctx cseq s = .next t) : t.Kept Q := by
  unfold execFence at e
  injection e with e
  subst e
  repeat' first
    | with_reducible assumption
    | with_reducible apply State.withBody_kept
    | with_reducible apply State.abortCmds_kept
    | with_reducible apply State.modCtx_kept
    | with_reducible apply State.finish_kept
    | with_reducible apply State.fenceCtx_kept
    | with_reducible apply State.fenceWait_kept
    | with_reducible apply State.fencePart_kept
    | with_reducible apply State.fenceBezel_kept
    | intro _
    | with_reducible refine kept_ite (fun _ => ?_) (fun _ => ?_)
    | with_reducible refine keptVia_ite (fun _ => ?_) (fun _ => ?_)
    | split
    | simp only [↓keptVia_fst, ↓keptVia_snd, ↓keptVia_sndFst, ↓keptVia_sndSnd]
    | with_reducible refine KeptVia.of _ ?_
    | dsimp only

theorem execResume_kept {Q : List Instr} (ctx : Nat) (cseq : Nat) (s : State) (hs : s.Kept Q) {t : State} (e : execResume ctx cseq s = .next t) : t.Kept Q := by
  unfold execResume at e
  injection e with e
  subst e
  repeat' first
    | with_reducible assumption
    | with_reducible apply State.withBody_kept
    | with_reducible apply State.modCtx_kept
    | with_reducible apply State.openBezel_kept
    | with_reducible apply State.finish_kept
    | with_reducible apply foldl_kept
    | intro _
    | with_reducible refine kept_ite (fun _ => ?_) (fun _ => ?_)
    | split
    | dsimp only

theorem State.initCtx_kept {Q : List Instr} (s : State) (c : Nat) (hs : s.Kept Q) : (State.initCtx s c).Kept Q := by
  unfold State.initCtx
  repeat' first
    | with_reducible assumption
    | with_reducible apply State.setCtx_kept
    | with_reducible apply State.abandonTxns_kept
    | with_reducible apply State.modCtx_kept
    | intro _
    | split
    | dsimp only

theorem execCtxReset_kept {Q : List Instr} (ctx : Nat) (cseq : Nat) (s : State) (hs : s.Kept Q) {t : State} (e : execCtxReset ctx cseq s = .next t) : t.Kept Q := by
  unfold execCtxReset at e
  injection e with e
  subst e
  repeat' first
    | with_reducible assumption
    | with_reducible apply State.withBody_kept
    | with_reducible apply State.finish_kept
    | with_reducible apply State.discard_kept
    | with_reducible apply State.fail_kept
    | with_reducible apply State.initCtx_kept
    | intro _
    | with_reducible refine kept_ite (fun _ => ?_) (fun _ => ?_)
    | split
    | dsimp only

theorem execStatusQuery_kept {Q : List Instr} (ctx : Nat) (cseq : Nat) (s : State) (hs : s.Kept Q) {t : State} (e : execStatusQuery ctx cseq s = .next t) : t.Kept Q := by
  unfold execStatusQuery at e
  injection e with e
  subst e
  repeat' first
    | with_reducible assumption
    | with_reducible apply State.withBody_kept
    | with_reducible apply State.finish_kept
    | with_reducible apply State.storeBy_kept
    | intro _
    | with_reducible refine kept_ite (fun _ => ?_) (fun _ => ?_)
    | with_reducible refine keptVia_ite (fun _ => ?_) (fun _ => ?_)
    | split
    | simp only [↓keptVia_fst, ↓keptVia_snd, ↓keptVia_sndFst, ↓keptVia_sndSnd]
    | with_reducible refine KeptVia.of _ ?_
    | dsimp only

end Sys2Proof.Machine
end

