-- ==== Sys2Proof/Laws/KeptDataMove.lean ====
section
/-!
SUPPORT. What every operation of Machine/DataMove.lean keeps: the queue, and the canonical form of memory.
-/

set_option linter.unusedVariables false
set_option linter.unusedSimpArgs false

namespace Sys2Proof.Machine

theorem keptVia_MoveRun {q : List Instr} (v0 : State) (v1 : Nat) (v2 : Option Nat) (v3 : Bool) (v4 : List Byte) : KeptVia MoveRun.st q ⟨v0, v1, v2, v3, v4⟩ = v0.Kept q :=
  propext ⟨fun h => h, fun h => h⟩

theorem moveLocal_kept {Q : List Instr} (x : Xfer) (ctx : Nat) (cseq : Nat) (stop : Nat) (x1 : Nat) (x2 : Nat) (x3 : MoveRun)
    (hx3 : x3.st.Kept Q) : (moveLocal x ctx cseq stop x1 x2 x3).st.Kept Q := by
  induction x1 generalizing x2 x3 with
  | zero => exact hx3
  | succ fuel ih =>
    have hd : (x3.st.chunkRead x ctx x2 (x.chunkEnd x2 stop false)).st.Kept Q := State.chunkRead_kept _ _ _ _ _ hx3
    unfold moveLocal
    dsimp only
    split
    · exact hx3
    · split
      · exact hd
      · split
        · exact State.chunkWrite_kept _ _ _ _ _ _ _ hd
        · exact ih _ _ (State.chunkWrite_kept _ _ _ _ _ _ _ hd)

theorem moveRemote_kept {Q : List Instr} (x : Xfer) (ctx : Nat) (t : Nat) (j : Nat) (remote : Nat) (stop : Nat) (quiet : Bool)
    (x1 : Nat) (x2 : Nat) (x3 : MoveRun) (hx3 : x3.st.Kept Q) : (moveRemote x ctx t j remote stop quiet x1 x2 x3).st.Kept Q := by
  induction x1 generalizing x2 x3 with
  | zero => exact hx3
  | succ fuel ih =>
    have hd : (x3.st.chunkRead x ctx x2 (x.chunkEnd x2 stop true)).st.Kept Q := State.chunkRead_kept _ _ _ _ _ hx3
    unfold moveRemote
    dsimp only
    split
    · exact hx3
    · split
      · exact hd
      · refine ih _ _ ?_
        show State.Kept Q (if quiet then _ else _)
        split
        · exact hd
        · exact State.sendChunk_kept _ _ _ _ _ _ _ _ hd

theorem State.markCorr_kept {Q : List Instr} (s : State) (ctx : Nat) (cseq : Nat) (corr : Bool) (hs : s.Kept Q) : (State.markCorr s ctx cseq corr).Kept Q := by
  unfold State.markCorr
  repeat' first
    | with_reducible assumption
    | with_reducible apply State.modCmd_kept
    | intro _
    | with_reducible refine kept_ite (fun _ => ?_) (fun _ => ?_)
    | split
    | dsimp only

theorem State.remoteDone_kept {Q : List Instr} (s : State) (ctx : Nat) (c : Cmd) (hs : s.Kept Q) : (State.remoteDone s ctx c).Kept Q := by
  unfold State.remoteDone
  repeat' first
    | with_reducible assumption
    | with_reducible apply State.finish_kept
    | intro _
    | with_reducible refine kept_ite (fun _ => ?_) (fun _ => ?_)
    | split
    | dsimp only

theorem State.mvEnd_kept {Q : List Instr} (s : State) (t : Nat) (j : Nat) (code : Nat) (tag : Nat) (evt : Bool) (hs : s.Kept Q) : (State.mvEnd s t j code tag evt).Kept Q := by
  unfold State.mvEnd
  repeat' first
    | with_reducible assumption
    | with_reducible apply State.mvFault_kept
    | with_reducible apply State.progress_kept
    | with_reducible apply State.addWrap_kept
    | with_reducible apply State.raise_kept
    | intro _
    | with_reducible refine kept_ite (fun _ => ?_) (fun _ => ?_)
    | split
    | dsimp only

theorem State.decMvEnd_kept {Q : List Instr} (s : State) (ctx : Nat) (c : Cmd) (t : Nat) (j : Nat) (hs : s.Kept Q) : (State.decMvEnd s ctx c t j).Kept Q := by
  unfold State.decMvEnd
  repeat' first
    | with_reducible assumption
    | with_reducible apply State.mvEnd_kept
    | with_reducible apply State.setMover_kept
    | intro _
    | with_reducible refine kept_ite (fun _ => ?_) (fun _ => ?_)
    | with_reducible refine keptVia_ite (fun _ => ?_) (fun _ => ?_)
    | split
    | simp only [↓keptVia_fst, ↓keptVia_snd, ↓keptVia_sndFst, ↓keptVia_sndSnd]
    | with_reducible refine KeptVia.of _ ?_
    | dsimp only

theorem State.moveBody_kept {Q : List Instr} (s : State) (o : Opc) (ctx : Nat) (c : Cmd) (hs : s.Kept Q) : (State.moveBody s o ctx c).Kept Q := by
  unfold State.moveBody
  repeat' first
    | with_reducible assumption
    | with_reducible apply State.readMem_kept
    | with_reducible apply State.finish_kept
    | with_reducible apply State.setMover_kept
    | with_reducible apply moveRemote_kept
    | with_reducible apply State.decMvEnd_kept
    | with_reducible apply State.modCmd_kept
    | with_reducible apply State.markCorr_kept
    | with_reducible apply State.remoteDone_kept
    | with_reducible apply moveLocal_kept
    | with_reducible apply State.mvEnd_kept
    | with_reducible apply foldl_kept
    | with_reducible apply foldl_kept_fst
    | with_reducible apply foldl_kept_snd
    | with_reducible apply foldl_kept_via MoveRun.st
    | intro _
    | with_reducible refine kept_of_fst_eq (e := by with_reducible assumption) ?_
    | with_reducible refine kept_of_snd_eq (e := by with_reducible assumption) ?_
    | with_reducible refine kept_of_sndFst_eq (e := by with_reducible assumption) ?_
    | with_reducible refine kept_of_sndSnd_eq (e := by with_reducible assumption) ?_
    | with_reducible refine kept_ite (fun _ => ?_) (fun _ => ?_)
    | with_reducible refine keptVia_ite (fun _ => ?_) (fun _ => ?_)
    | split
    | simp only [↓keptVia_fst, ↓keptVia_snd, ↓keptVia_sndFst, ↓keptVia_sndSnd, ↓keptVia_MoveRun]
    | with_reducible refine KeptVia.of _ ?_
    | dsimp only

theorem execMove_kept {Q : List Instr} (ctx : Nat) (cseq : Nat) (s : State) (hs : s.Kept Q) {t : State} (e : execMove ctx cseq s = .next t) : t.Kept Q := by
  unfold execMove at e
  injection e with e
  subst e
  repeat' first
    | with_reducible assumption
    | with_reducible apply State.withBody_kept
    | with_reducible apply State.moveBody_kept
    | intro _
    | split
    | dsimp only

theorem execFill_kept {Q : List Instr} (ctx : Nat) (cseq : Nat) (s : State) (hs : s.Kept Q) {t : State} (e : execFill ctx cseq s = .next t) : t.Kept Q := by
  unfold execFill at e
  injection e with e
  subst e
  repeat' first
    | with_reducible assumption
    | with_reducible apply State.withBody_kept
    | with_reducible apply State.moveBody_kept
    | intro _
    | split
    | dsimp only

theorem execGather_kept {Q : List Instr} (ctx : Nat) (cseq : Nat) (s : State) (hs : s.Kept Q) {t : State} (e : execGather ctx cseq s = .next t) : t.Kept Q := by
  unfold execGather at e
  injection e with e
  subst e
  repeat' first
    | with_reducible assumption
    | with_reducible apply State.withBody_kept
    | with_reducible apply State.moveBody_kept
    | intro _
    | split
    | dsimp only

theorem execScatter_kept {Q : List Instr} (ctx : Nat) (cseq : Nat) (s : State) (hs : s.Kept Q) {t : State} (e : execScatter ctx cseq s = .next t) : t.Kept Q := by
  unfold execScatter at e
  injection e with e
  subst e
  repeat' first
    | with_reducible assumption
    | with_reducible apply State.withBody_kept
    | with_reducible apply State.moveBody_kept
    | intro _
    | split
    | dsimp only

theorem State.convertBody_kept {Q : List Instr} (s : State) (ctx : Nat) (c : Cmd) (hs : s.Kept Q) : (State.convertBody s ctx c).Kept Q := by
  unfold State.convertBody
  repeat' first
    | with_reducible assumption
    | with_reducible apply State.readRows_kept
    | with_reducible apply State.markCorr_kept
    | with_reducible apply State.finish_kept
    | with_reducible apply State.writeRows_kept
    | intro _
    | with_reducible refine kept_of_fst_eq (e := by with_reducible assumption) ?_
    | with_reducible refine kept_of_snd_eq (e := by with_reducible assumption) ?_
    | with_reducible refine kept_of_sndFst_eq (e := by with_reducible assumption) ?_
    | with_reducible refine kept_of_sndSnd_eq (e := by with_reducible assumption) ?_
    | with_reducible refine kept_ite (fun _ => ?_) (fun _ => ?_)
    | with_reducible refine keptVia_ite (fun _ => ?_) (fun _ => ?_)
    | split
    | simp only [↓keptVia_fst, ↓keptVia_snd, ↓keptVia_sndFst, ↓keptVia_sndSnd]
    | with_reducible refine KeptVia.of _ ?_
    | dsimp only

theorem execConvert_kept {Q : List Instr} (ctx : Nat) (cseq : Nat) (s : State) (hs : s.Kept Q) {t : State} (e : execConvert ctx cseq s = .next t) : t.Kept Q := by
  unfold execConvert at e
  injection e with e
  subst e
  repeat' first
    | with_reducible assumption
    | with_reducible apply State.withBody_kept
    | with_reducible apply State.convertBody_kept
    | intro _
    | with_reducible refine kept_ite (fun _ => ?_) (fun _ => ?_)
    | split
    | dsimp only

theorem State.kvHalf_kept {Q : List Instr} (s : State) (owner : Nat × Nat) (o : OutSpec) (fs : Fmt) (d : Nat) (tok0 : Nat) (page : Nat) (col0 : Nat) (rows : List (List Byte)) (hs : s.Kept Q) : (State.kvHalf s owner o fs d tok0 page col0 rows).st.Kept Q := by
  unfold State.kvHalf
  refine KeptVia.out Wrote.st ?_
  repeat' first
    | with_reducible assumption
    | with_reducible apply State.storeBy_kept
    | with_reducible apply foldl_kept
    | with_reducible apply foldl_kept_via Wrote.st
    | intro _
    | with_reducible refine kept_ite (fun _ => ?_) (fun _ => ?_)
    | with_reducible refine keptVia_ite (fun _ => ?_) (fun _ => ?_)
    | split
    | simp only [↓keptVia_Wrote]
    | with_reducible refine KeptVia.of _ ?_
    | dsimp only

theorem State.kvAppendBody_kept {Q : List Instr} (s : State) (ctx : Nat) (c : Cmd) (hs : s.Kept Q) : (State.kvAppendBody s ctx c).Kept Q := by
  unfold State.kvAppendBody
  repeat' first
    | with_reducible assumption
    | with_reducible apply State.readRows_kept
    | with_reducible apply State.markCorr_kept
    | with_reducible apply State.finish_kept
    | with_reducible apply State.kvHalf_kept
    | intro _
    | with_reducible refine kept_of_fst_eq (e := by with_reducible assumption) ?_
    | with_reducible refine kept_of_snd_eq (e := by with_reducible assumption) ?_
    | with_reducible refine kept_of_sndFst_eq (e := by with_reducible assumption) ?_
    | with_reducible refine kept_of_sndSnd_eq (e := by with_reducible assumption) ?_
    | with_reducible refine kept_ite (fun _ => ?_) (fun _ => ?_)
    | with_reducible refine keptVia_ite (fun _ => ?_) (fun _ => ?_)
    | split
    | simp only [↓keptVia_fst, ↓keptVia_snd, ↓keptVia_sndFst, ↓keptVia_sndSnd]
    | with_reducible refine KeptVia.of _ ?_
    | dsimp only

theorem execKvAppend_kept {Q : List Instr} (ctx : Nat) (cseq : Nat) (s : State) (hs : s.Kept Q) {t : State} (e : execKvAppend ctx cseq s = .next t) : t.Kept Q := by
  unfold execKvAppend at e
  injection e with e
  subst e
  repeat' first
    | with_reducible assumption
    | with_reducible apply State.withBody_kept
    | with_reducible apply State.kvAppendBody_kept
    | intro _
    | split
    | dsimp only

theorem State.evictPairs_kept {Q : List Instr} (s : State) (ctx : Nat) (cseq : Nat) (zero : Bool) (ps : List (Nat × Nat)) (hs : s.Kept Q) : (State.evictPairs s ctx cseq zero ps).st.Kept Q := by
  unfold State.evictPairs
  refine KeptVia.out MoveRun.st ?_
  repeat' first
    | with_reducible assumption
    | with_reducible apply State.readMem_kept
    | with_reducible apply State.storeBy_kept
    | with_reducible apply foldl_kept
    | with_reducible apply foldl_kept_fst
    | with_reducible apply foldl_kept_snd
    | with_reducible apply foldl_kept_via MoveRun.st
    | intro _
    | with_reducible refine kept_of_fst_eq (e := by with_reducible assumption) ?_
    | with_reducible refine kept_of_snd_eq (e := by with_reducible assumption) ?_
    | with_reducible refine kept_of_sndFst_eq (e := by with_reducible assumption) ?_
    | with_reducible refine kept_of_sndSnd_eq (e := by with_reducible assumption) ?_
    | with_reducible refine kept_ite (fun _ => ?_) (fun _ => ?_)
    | with_reducible refine keptVia_ite (fun _ => ?_) (fun _ => ?_)
    | split
    | simp only [↓keptVia_fst, ↓keptVia_snd, ↓keptVia_sndFst, ↓keptVia_sndSnd, ↓keptVia_MoveRun]
    | with_reducible refine KeptVia.of _ ?_
    | dsimp only

theorem execKvEvict_kept {Q : List Instr} (ctx : Nat) (cseq : Nat) (s : State) (hs : s.Kept Q) {t : State} (e : execKvEvict ctx cseq s = .next t) : t.Kept Q := by
  unfold execKvEvict at e
  injection e with e
  subst e
  repeat' first
    | with_reducible assumption
    | with_reducible apply State.withBody_kept
    | with_reducible apply State.evictPairs_kept
    | with_reducible apply State.markCorr_kept
    | with_reducible apply State.finish_kept
    | intro _
    | with_reducible refine kept_of_fst_eq (e := by with_reducible assumption) ?_
    | with_reducible refine kept_of_snd_eq (e := by with_reducible assumption) ?_
    | with_reducible refine kept_of_sndFst_eq (e := by with_reducible assumption) ?_
    | with_reducible refine kept_of_sndSnd_eq (e := by with_reducible assumption) ?_
    | split
    | dsimp only

end Sys2Proof.Machine
end

