-- ==== Sys2Proof/Laws/KeptMatrix.lean ====
section
/-!
SUPPORT. What every operation of Machine/Matrix.lean keeps: the queue, and the canonical form of memory.
-/

set_option linter.unusedVariables false
set_option linter.unusedSimpArgs false

namespace Sys2Proof.Machine

/-- The state of a chain in progress. -/
abbrev chainSt (r : ChainRun) : State := r.run.st

theorem keptVia_ChainRun {q : List Instr} (v0 : MmRun) (v1 : List Accu) : KeptVia chainSt q ⟨v0, v1⟩ = v0.st.Kept q :=
  propext ⟨fun h => h, fun h => h⟩

theorem keptVia_MmRun {q : List Instr} (v0 : State) (v1 : Option Nat) (v2 : Bool) : KeptVia MmRun.st q ⟨v0, v1, v2⟩ = v0.Kept q :=
  propext ⟨fun h => h, fun h => h⟩

theorem MmRun.copy_kept {Q : List Instr} (r : MmRun) (ctx : Nat) (c : Cmd) (q : Plane) (dst : Nat) (dstStride : Nat) (dstIdx : Nat) (hr : r.st.Kept Q) : (MmRun.copy r ctx c q dst dstStride dstIdx).st.Kept Q := by
  unfold MmRun.copy
  refine KeptVia.out MmRun.st ?_
  repeat' first
    | with_reducible assumption
    | with_reducible apply State.drawNat_kept
    | with_reducible apply State.mvFault_kept
    | with_reducible apply State.readMem_kept
    | with_reducible apply State.storeBy_kept
    | with_reducible apply State.countCtx_kept
    | with_reducible apply foldl_kept
    | with_reducible apply foldl_kept_fst
    | with_reducible apply foldl_kept_snd
    | with_reducible apply foldl_kept_via MmRun.st
    | intro _
    | with_reducible refine kept_of_fst_eq (e := by with_reducible assumption) ?_
    | with_reducible refine kept_of_snd_eq (e := by with_reducible assumption) ?_
    | with_reducible refine kept_of_sndFst_eq (e := by with_reducible assumption) ?_
    | with_reducible refine kept_of_sndSnd_eq (e := by with_reducible assumption) ?_
    | with_reducible refine kept_ite (fun _ => ?_) (fun _ => ?_)
    | with_reducible refine keptVia_ite (fun _ => ?_) (fun _ => ?_)
    | split
    | simp only [↓keptVia_fst, ↓keptVia_snd, ↓keptVia_sndFst, ↓keptVia_sndSnd, ↓keptVia_MmRun]
    | with_reducible refine KeptVia.of _ ?_
    | dsimp only

theorem State.mmStep_kept {Q : List Instr} (ctx : Nat) (c : Cmd) (accIn : Bool) (t : Nat) (m0 : Nat) (row : Nat) (col : Nat) (m : Nat) (n : Nat) (slot : Nat) (seq : Nat) (d : Nat) (total : Nat) (r : ChainRun) (hr : r.run.st.Kept Q) : (State.mmStep ctx c accIn t m0 row col m n slot seq d total r).run.st.Kept Q := by
  unfold State.mmStep
  refine KeptVia.out chainSt ?_
  repeat' first
    | with_reducible assumption
    | with_reducible apply MmRun.copy_kept
    | with_reducible apply State.meFault_kept
    | with_reducible apply State.meOpen_kept
    | with_reducible apply State.meStream_kept
    | with_reducible apply State.progress_kept
    | with_reducible apply State.addWrap_kept
    | with_reducible apply State.meCounts_kept
    | with_reducible apply State.meWrite_kept
    | with_reducible apply foldl_kept
    | with_reducible apply foldl_kept_fst
    | with_reducible apply foldl_kept_snd
    | with_reducible apply foldl_kept_via AccOut.st
    | with_reducible apply foldl_kept_via chainSt
    | with_reducible apply foldl_kept_via MmRun.st
    | intro _
    | with_reducible refine kept_of_fst_eq (e := by with_reducible assumption) ?_
    | with_reducible refine kept_of_snd_eq (e := by with_reducible assumption) ?_
    | with_reducible refine kept_of_sndFst_eq (e := by with_reducible assumption) ?_
    | with_reducible refine kept_of_sndSnd_eq (e := by with_reducible assumption) ?_
    | with_reducible refine kept_ite (fun _ => ?_) (fun _ => ?_)
    | with_reducible refine keptVia_ite (fun _ => ?_) (fun _ => ?_)
    | split
    | simp only [↓keptVia_fst, ↓keptVia_snd, ↓keptVia_sndFst, ↓keptVia_sndSnd, ↓keptVia_AccOut, ↓keptVia_ChainRun, ↓keptVia_MmRun]
    | with_reducible refine KeptVia.of _ ?_
    | dsimp only

theorem State.mmTile_kept {Q : List Instr} (ctx : Nat) (c : Cmd) (accIn : Bool) (mes : List (Nat × Nat)) (i : Nat) (r : MmRun)
    (hr : r.st.Kept Q) : (State.mmTile ctx c accIn mes i r).st.Kept Q := by
  unfold State.mmTile
  split
  · exact hr
  · refine foldl_kept_via chainSt _ (fun x d h => State.mmStep_kept _ _ _ _ _ _ _ _ _ _ _ _ _ _ h) _ _ ?_
    rw [keptVia_ChainRun]
    refine KeptVia.out MmRun.st ?_
    split
    · exact MmRun.copy_kept _ _ _ _ _ _ _ (MmRun.copy_kept _ _ _ _ _ _ _ hr)
    · exact hr

theorem State.matmulBody_kept {Q : List Instr} (s : State) (accIn : Bool) (ctx : Nat) (c : Cmd) (hs : s.Kept Q) : (State.matmulBody s accIn ctx c).Kept Q := by
  unfold State.matmulBody
  repeat' first
    | with_reducible assumption
    | with_reducible apply State.mmTile_kept
    | with_reducible apply State.drawNat_kept
    | with_reducible apply State.setFld_kept
    | with_reducible apply State.markCorr_kept
    | with_reducible apply State.finish_kept
    | with_reducible apply foldl_kept
    | with_reducible apply foldl_kept_fst
    | with_reducible apply foldl_kept_snd
    | with_reducible apply foldl_kept_via MmRun.st
    | intro _
    | with_reducible refine kept_of_fst_eq (e := by with_reducible assumption) ?_
    | with_reducible refine kept_of_snd_eq (e := by with_reducible assumption) ?_
    | with_reducible refine kept_of_sndFst_eq (e := by with_reducible assumption) ?_
    | with_reducible refine kept_of_sndSnd_eq (e := by with_reducible assumption) ?_
    | with_reducible refine kept_ite (fun _ => ?_) (fun _ => ?_)
    | with_reducible refine keptVia_ite (fun _ => ?_) (fun _ => ?_)
    | split
    | simp only [↓keptVia_fst, ↓keptVia_snd, ↓keptVia_sndFst, ↓keptVia_sndSnd, ↓keptVia_MmRun]
    | with_reducible refine KeptVia.of _ ?_
    | dsimp only

theorem execMatmul_kept {Q : List Instr} (ctx : Nat) (cseq : Nat) (s : State) (hs : s.Kept Q) {t : State} (e : execMatmul ctx cseq s = .next t) : t.Kept Q := by
  unfold execMatmul at e
  injection e with e
  subst e
  repeat' first
    | with_reducible assumption
    | with_reducible apply State.withBody_kept
    | with_reducible apply State.matmulBody_kept
    | intro _
    | split
    | dsimp only

theorem execMatmulAcc_kept {Q : List Instr} (ctx : Nat) (cseq : Nat) (s : State) (hs : s.Kept Q) {t : State} (e : execMatmulAcc ctx cseq s = .next t) : t.Kept Q := by
  unfold execMatmulAcc at e
  injection e with e
  subst e
  repeat' first
    | with_reducible assumption
    | with_reducible apply State.withBody_kept
    | with_reducible apply State.matmulBody_kept
    | intro _
    | split
    | dsimp only

end Sys2Proof.Machine
end

