-- ==== Sys2Proof/Laws/KeptKernel.lean ====
section
/-!
SUPPORT. What every operation of Machine/Kernel.lean keeps: the queue, and the canonical form of memory.
-/

set_option linter.unusedVariables false
set_option linter.unusedSimpArgs false

namespace Sys2Proof.Machine

theorem State.runBody_kept {Q : List Instr} (s : State) (ctx : Nat) (c : Cmd) (hs : s.Kept Q) : (State.runBody s ctx c).Kept Q := by
  unfold State.runBody
  repeat' first
    | with_reducible assumption
    | with_reducible apply State.ownMe_kept
    | with_reducible apply State.ownMv_kept
    | with_reducible apply State.drawNat_kept
    | with_reducible apply State.progress_kept
    | with_reducible apply State.setFld_kept
    | with_reducible apply State.setHart_kept
    | with_reducible apply State.issue_kept
    | with_reducible apply foldl_kept
    | with_reducible apply foldl_kept_fst
    | with_reducible apply foldl_kept_snd
    | intro _
    | with_reducible refine kept_ite (fun _ => ?_) (fun _ => ?_)
    | with_reducible refine keptVia_ite (fun _ => ?_) (fun _ => ?_)
    | split
    | simp only [↓keptVia_fst, ↓keptVia_snd, ↓keptVia_sndFst, ↓keptVia_sndSnd]
    | with_reducible refine KeptVia.of _ ?_
    | dsimp only

theorem execRun_kept {Q : List Instr} (ctx : Nat) (cseq : Nat) (s : State) (hs : s.Kept Q) {t : State} (e : execRun ctx cseq s = .next t) : t.Kept Q := by
  unfold execRun at e
  injection e with e
  subst e
  repeat' first
    | with_reducible assumption
    | with_reducible apply State.withBody_kept
    | with_reducible apply State.runBody_kept
    | intro _
    | split
    | dsimp only

theorem execRunWait_kept {Q : List Instr} (ctx : Nat) (cseq : Nat) (s : State) (hs : s.Kept Q) {t : State} (e : execRunWait ctx cseq s = .next t) : t.Kept Q := by
  unfold execRunWait at e
  injection e with e
  subst e
  repeat' first
    | with_reducible assumption
    | with_reducible apply State.withBody_kept
    | with_reducible apply State.runBody_kept
    | intro _
    | split
    | dsimp only

theorem State.hartEnded_kept {Q : List Instr} (s : State) (ctx : Nat) (cseq : Nat) (hs : s.Kept Q) : (State.hartEnded s ctx cseq).Kept Q := by
  unfold State.hartEnded
  repeat' first
    | with_reducible assumption
    | with_reducible apply State.modCmd_kept
    | with_reducible apply State.setHart_kept
    | with_reducible apply State.doneWake_kept
    | with_reducible apply State.finish_kept
    | with_reducible apply foldl_kept
    | intro _
    | with_reducible refine kept_of_fst_eq (e := by with_reducible assumption) ?_
    | with_reducible refine kept_of_snd_eq (e := by with_reducible assumption) ?_
    | with_reducible refine kept_of_sndFst_eq (e := by with_reducible assumption) ?_
    | with_reducible refine kept_of_sndSnd_eq (e := by with_reducible assumption) ?_
    | with_reducible refine kept_ite (fun _ => ?_) (fun _ => ?_)
    | split
    | dsimp only

theorem execPipExit_kept {Q : List Instr} (tile : Nat) (hart : Nat) (code : Nat) (s : State) (hs : s.Kept Q) {t : State} (e : execPipExit tile hart code s = .next t) : t.Kept Q := by
  unfold execPipExit at e
  injection e with e
  subst e
  repeat' first
    | with_reducible assumption
    | with_reducible apply State.hartEnded_kept
    | with_reducible apply State.setHart_kept
    | intro _
    | with_reducible refine kept_of_fst_eq (e := by with_reducible assumption) ?_
    | with_reducible refine kept_of_snd_eq (e := by with_reducible assumption) ?_
    | with_reducible refine kept_of_sndFst_eq (e := by with_reducible assumption) ?_
    | with_reducible refine kept_of_sndSnd_eq (e := by with_reducible assumption) ?_
    | with_reducible refine kept_ite (fun _ => ?_) (fun _ => ?_)
    | split
    | dsimp only

theorem execPipTrapUnhandled_kept {Q : List Instr} (tile : Nat) (hart : Nat) (cause : Nat) (s : State) (hs : s.Kept Q) {t : State} (e : execPipTrapUnhandled tile hart cause s = .next t) : t.Kept Q := by
  unfold execPipTrapUnhandled at e
  injection e with e
  subst e
  repeat' first
    | with_reducible assumption
    | with_reducible apply State.raise_kept
    | with_reducible apply State.setHart_kept
    | with_reducible apply State.stopRun_kept
    | with_reducible apply State.finish_kept
    | with_reducible apply State.drawNat_kept
    | intro _
    | with_reducible refine kept_of_fst_eq (e := by with_reducible assumption) ?_
    | with_reducible refine kept_of_snd_eq (e := by with_reducible assumption) ?_
    | with_reducible refine kept_of_sndFst_eq (e := by with_reducible assumption) ?_
    | with_reducible refine kept_of_sndSnd_eq (e := by with_reducible assumption) ?_
    | with_reducible refine kept_ite (fun _ => ?_) (fun _ => ?_)
    | split
    | dsimp only

theorem execCameoName_kept {Q : List Instr} (tile : Nat) (hart : Nat) (n : Nat) (addr : Nat) (len : Nat) (fmt : Nat) (s : State) (hs : s.Kept Q) {t : State} (e : execCameoName tile hart n addr len fmt s = .next t) : t.Kept Q := by
  unfold execCameoName at e
  injection e with e
  subst e
  repeat' first
    | with_reducible assumption
    | with_reducible apply State.setHart_kept
    | with_reducible apply State.setCtx_kept
    | intro _
    | with_reducible refine kept_ite (fun _ => ?_) (fun _ => ?_)
    | split
    | dsimp only

end Sys2Proof.Machine
end

