-- ==== Sys2Proof/Laws/KeptPress.lean ====
section
/-!
SUPPORT. What every operation of Machine/Press.lean keeps: the queue, and the canonical form of memory.
-/

set_option linter.unusedVariables false
set_option linter.unusedSimpArgs false

namespace Sys2Proof.Machine

theorem keptVia_PageOut {q : List Instr} (v0 : State) (v1 : Option (List KvTok)) (v2 : Bool) : KeptVia PageOut.st q ⟨v0, v1, v2⟩ = v0.Kept q :=
  propext ⟨fun h => h, fun h => h⟩

theorem State.readPage_kept {Q : List Instr} (s : State) (f : Fmt) (d : Nat) (page : Nat) (n : Nat) (hs : s.Kept Q) : (State.readPage s f d page n).st.Kept Q := by
  unfold State.readPage
  refine KeptVia.out PageOut.st ?_
  repeat' first
    | with_reducible assumption
    | with_reducible apply State.readMem_kept
    | intro _
    | with_reducible refine kept_of_fst_eq (e := by with_reducible assumption) ?_
    | with_reducible refine kept_of_snd_eq (e := by with_reducible assumption) ?_
    | with_reducible refine kept_of_sndFst_eq (e := by with_reducible assumption) ?_
    | with_reducible refine kept_of_sndSnd_eq (e := by with_reducible assumption) ?_
    | with_reducible refine kept_ite (fun _ => ?_) (fun _ => ?_)
    | with_reducible refine keptVia_ite (fun _ => ?_) (fun _ => ?_)
    | split
    | simp only [↓keptVia_fst, ↓keptVia_snd, ↓keptVia_sndFst, ↓keptVia_sndSnd, ↓keptVia_PageOut]
    | with_reducible refine KeptVia.of _ ?_
    | dsimp only

theorem State.attnBody_kept {Q : List Instr} (s : State) (ctx : Nat) (c : Cmd) (hs : s.Kept Q) : (State.attnBody s ctx c).Kept Q := by
  unfold State.attnBody
  repeat' first
    | with_reducible assumption
    | with_reducible apply State.readMem_kept
    | with_reducible apply State.markCorr_kept
    | with_reducible apply State.finish_kept
    | with_reducible apply State.modCmd_kept
    | with_reducible apply foldl_kept
    | with_reducible apply foldl_kept_fst
    | with_reducible apply foldl_kept_snd
    | intro _
    | with_reducible refine kept_of_fst_eq (e := by with_reducible assumption) ?_
    | with_reducible refine kept_of_snd_eq (e := by with_reducible assumption) ?_
    | with_reducible refine kept_of_sndFst_eq (e := by with_reducible assumption) ?_
    | with_reducible refine kept_of_sndSnd_eq (e := by with_reducible assumption) ?_
    | with_reducible apply State.Kept.both
    | with_reducible apply State.Kept.split_
    | with_reducible refine State.Kept.wf (q := Q) ?_
    | split
    | simp only [↓State.kept_mk, ↓keptVia_fst, ↓keptVia_snd, ↓keptVia_sndFst, ↓keptVia_sndSnd]
    | with_reducible refine KeptVia.of _ ?_
    | dsimp only

theorem execAttnPages_kept {Q : List Instr} (ctx : Nat) (cseq : Nat) (s : State) (hs : s.Kept Q) {t : State} (e : execAttnPages ctx cseq s = .next t) : t.Kept Q := by
  unfold execAttnPages at e
  injection e with e
  subst e
  repeat' first
    | with_reducible assumption
    | with_reducible apply State.withBody_kept
    | with_reducible apply State.attnBody_kept
    | intro _
    | split
    | dsimp only

theorem execPressGroupDispatch_kept {Q : List Instr} (die : Nat) (s : State) (hs : s.Kept Q) {t : State} (e : execPressGroupDispatch die s = .next t) : t.Kept Q := by
  unfold execPressGroupDispatch at e
  injection e with e
  subst e
  repeat' first
    | with_reducible assumption
    | with_reducible apply State.progress_kept
    | with_reducible apply State.setPress_kept
    | intro _
    | with_reducible refine kept_of_fst_eq (e := by with_reducible assumption) ?_
    | with_reducible refine kept_of_snd_eq (e := by with_reducible assumption) ?_
    | with_reducible refine kept_of_sndFst_eq (e := by with_reducible assumption) ?_
    | with_reducible refine kept_of_sndSnd_eq (e := by with_reducible assumption) ?_
    | with_reducible apply State.Kept.both
    | with_reducible apply State.Kept.split_
    | with_reducible refine State.Kept.wf (q := Q) ?_
    | with_reducible refine kept_ite (fun _ => ?_) (fun _ => ?_)
    | with_reducible refine keptVia_ite (fun _ => ?_) (fun _ => ?_)
    | split
    | simp only [↓State.kept_mk, ↓keptVia_fst, ↓keptVia_snd, ↓keptVia_sndFst, ↓keptVia_sndSnd]
    | with_reducible refine KeptVia.of _ ?_
    | dsimp only

theorem State.readPages_kept {Q : List Instr} (s : State) (f : Fmt) (d : Nat) (ps : List (Nat × Nat)) (hs : s.Kept Q) : (State.readPages s f d ps).st.Kept Q := by
  unfold State.readPages
  refine KeptVia.out PageOut.st ?_
  repeat' first
    | with_reducible assumption
    | with_reducible apply State.readPage_kept
    | with_reducible apply foldl_kept
    | with_reducible apply foldl_kept_via PageOut.st
    | intro _
    | with_reducible refine kept_of_fst_eq (e := by with_reducible assumption) ?_
    | with_reducible refine kept_of_snd_eq (e := by with_reducible assumption) ?_
    | with_reducible refine kept_of_sndFst_eq (e := by with_reducible assumption) ?_
    | with_reducible refine kept_of_sndSnd_eq (e := by with_reducible assumption) ?_
    | split
    | simp only [↓keptVia_PageOut]
    | with_reducible refine KeptVia.of _ ?_
    | dsimp only

theorem State.pressDone_kept {Q : List Instr} (s : State) (die : Nat) (e : Nat) (g : PressGroup) (c : Cmd) (hs : s.Kept Q) : (State.pressDone s die e g c).Kept Q := by
  unfold State.pressDone
  repeat' first
    | with_reducible assumption
    | with_reducible apply State.readRows_kept
    | with_reducible apply State.readPages_kept
    | with_reducible apply State.markCorr_kept
    | with_reducible apply State.setPress_kept
    | with_reducible apply State.finish_kept
    | with_reducible apply State.stopCmd_kept
    | with_reducible apply State.storeBy_kept
    | with_reducible apply State.progress_kept
    | with_reducible apply State.addWrap_kept
    | with_reducible apply State.countCtx_kept
    | with_reducible apply State.modCmd_kept
    | with_reducible apply foldl_kept
    | with_reducible apply foldl_kept_fst
    | with_reducible apply foldl_kept_snd
    | with_reducible apply foldl_kept_via Wrote.st
    | intro _
    | with_reducible refine kept_of_fst_eq (e := by with_reducible assumption) ?_
    | with_reducible refine kept_of_snd_eq (e := by with_reducible assumption) ?_
    | with_reducible refine kept_of_sndFst_eq (e := by with_reducible assumption) ?_
    | with_reducible refine kept_of_sndSnd_eq (e := by with_reducible assumption) ?_
    | with_reducible refine kept_ite (fun _ => ?_) (fun _ => ?_)
    | with_reducible refine keptVia_ite (fun _ => ?_) (fun _ => ?_)
    | split
    | simp only [↓keptVia_fst, ↓keptVia_snd, ↓keptVia_sndFst, ↓keptVia_sndSnd, ↓keptVia_Wrote]
    | with_reducible refine KeptVia.of _ ?_
    | dsimp only

theorem execPressGroupComplete_kept {Q : List Instr} (die : Nat) (engine : Nat) (s : State) (hs : s.Kept Q) {t : State} (e : execPressGroupComplete die engine s = .next t) : t.Kept Q := by
  unfold execPressGroupComplete at e
  injection e with e
  subst e
  repeat' first
    | with_reducible assumption
    | with_reducible apply State.setPress_kept
    | with_reducible apply State.pressDone_kept
    | intro _
    | with_reducible refine kept_of_fst_eq (e := by with_reducible assumption) ?_
    | with_reducible refine kept_of_snd_eq (e := by with_reducible assumption) ?_
    | with_reducible refine kept_of_sndFst_eq (e := by with_reducible assumption) ?_
    | with_reducible refine kept_of_sndSnd_eq (e := by with_reducible assumption) ?_
    | with_reducible refine kept_ite (fun _ => ?_) (fun _ => ?_)
    | split
    | dsimp only

theorem State.pressRequeue_kept {Q : List Instr} (s : State) (die : Nat) (e : Nat) (hs : s.Kept Q) : (State.pressRequeue s die e).Kept Q := by
  unfold State.pressRequeue
  repeat' first
    | with_reducible assumption
    | with_reducible apply State.setPress_kept
    | with_reducible apply State.fail_kept
    | with_reducible apply State.stopCmd_kept
    | intro _
    | with_reducible refine kept_of_fst_eq (e := by with_reducible assumption) ?_
    | with_reducible refine kept_of_snd_eq (e := by with_reducible assumption) ?_
    | with_reducible refine kept_of_sndFst_eq (e := by with_reducible assumption) ?_
    | with_reducible refine kept_of_sndSnd_eq (e := by with_reducible assumption) ?_
    | with_reducible apply State.Kept.both
    | with_reducible apply State.Kept.split_
    | with_reducible refine State.Kept.wf (q := Q) ?_
    | with_reducible refine kept_ite (fun _ => ?_) (fun _ => ?_)
    | split
    | simp only [↓State.kept_mk]
    | dsimp only

theorem execPressEngineReset_kept {Q : List Instr} (now : Nat) (die : Nat) (engine : Nat) (by_ : Writer) (completes : Bool) (s : State) (hs : s.Kept Q) {t : State} (e : execPressEngineReset now die engine by_ completes s = .next t) : t.Kept Q := by
  unfold execPressEngineReset at e
  injection e with e
  subst e
  repeat' first
    | with_reducible assumption
    | with_reducible apply State.advance_kept
    | with_reducible apply State.pressRequeue_kept
    | with_reducible apply State.setPress_kept
    | intro _
    | with_reducible refine kept_ite (fun _ => ?_) (fun _ => ?_)
    | split
    | dsimp only

theorem execPressResetTimeout_kept {Q : List Instr} (now : Nat) (die : Nat) (engine : Nat) (s : State) (hs : s.Kept Q) {t : State} (e : execPressResetTimeout now die engine s = .next t) : t.Kept Q := by
  unfold execPressResetTimeout at e
  injection e with e
  subst e
  repeat' first
    | with_reducible assumption
    | with_reducible apply State.advance_kept
    | with_reducible apply State.setFld_kept
    | with_reducible apply State.raise_kept
    | with_reducible apply State.setPress_kept
    | intro _
    | with_reducible refine kept_of_fst_eq (e := by with_reducible assumption) ?_
    | with_reducible refine kept_of_snd_eq (e := by with_reducible assumption) ?_
    | with_reducible refine kept_of_sndFst_eq (e := by with_reducible assumption) ?_
    | with_reducible refine kept_of_sndSnd_eq (e := by with_reducible assumption) ?_
    | with_reducible refine kept_ite (fun _ => ?_) (fun _ => ?_)
    | split
    | dsimp only

end Sys2Proof.Machine
end

