-- ==== Sys2Proof/Laws/KeptTrees.lean ====
section
/-!
SUPPORT. What every operation of Machine/Trees.lean keeps: the queue, and the canonical form of memory.
-/

set_option linter.unusedVariables false
set_option linter.unusedSimpArgs false

namespace Sys2Proof.Machine

theorem State.setGroup_kept {Q : List Instr} (s : State) (i : Nat) (g : Nat) (v : Nat) (hs : s.Kept Q) : (State.setGroup s i g v).Kept Q := by
  unfold State.setGroup
  repeat' first
    | with_reducible assumption
    | with_reducible apply State.setFld_kept
    | intro _
    | split
    | dsimp only

theorem State.deriveTree_kept {Q : List Instr} (s : State) (i : Nat) (g : Nat) (hs : s.Kept Q) : (State.deriveTree s i g).Kept Q := by
  unfold State.deriveTree
  repeat' first
    | with_reducible assumption
    | with_reducible apply State.setReg_kept
    | with_reducible apply State.setGroup_kept
    | with_reducible apply foldl_kept
    | with_reducible apply foldl_kept_fst
    | with_reducible apply foldl_kept_snd
    | intro _
    | with_reducible refine kept_ite (fun _ => ?_) (fun _ => ?_)
    | with_reducible refine keptVia_ite (fun _ => ?_) (fun _ => ?_)
    | split
    | simp only [↓keptVia_fst, ↓keptVia_snd, ↓keptVia_sndFst, ↓keptVia_sndSnd]
    | with_reducible refine KeptVia.of _ ?_
    | dsimp only

theorem State.syncLine_kept {Q : List Instr} (s : State) (v : Bool) (hs : s.Kept Q) : (State.syncLine s v).Kept Q := by
  unfold State.syncLine
  repeat' first
    | with_reducible assumption
    | with_reducible apply State.setLevel_kept
    | with_reducible apply State.setFld_kept
    | intro _
    | split
    | dsimp only

theorem State.driveSync_kept {Q : List Instr} (s : State) (low : Bool) (hs : s.Kept Q) : (State.driveSync s low).Kept Q := by
  unfold State.driveSync
  repeat' first
    | with_reducible assumption
    | with_reducible apply State.syncLine_kept
    | intro _
    | with_reducible apply State.Kept.both
    | with_reducible apply State.Kept.split_
    | with_reducible refine State.Kept.wf (q := Q) ?_
    | with_reducible refine kept_ite (fun _ => ?_) (fun _ => ?_)
    | split
    | simp only [↓State.kept_mk]
    | dsimp only

theorem State.deriveTrees_kept {Q : List Instr} (s : State) (i : Nat) (hs : s.Kept Q) : (State.deriveTrees s i).Kept Q := by
  unfold State.deriveTrees
  repeat' first
    | with_reducible assumption
    | with_reducible apply State.deriveTree_kept
    | with_reducible apply State.driveSync_kept
    | with_reducible apply foldl_kept
    | intro _
    | with_reducible refine kept_ite (fun _ => ?_) (fun _ => ?_)
    | split
    | dsimp only

theorem State.logAbort_kept {Q : List Instr} (s : State) (slice : Nat) (a : AbortInfo) (hs : s.Kept Q) : (State.logAbort s slice a).Kept Q := by
  unfold State.logAbort
  repeat' first
    | with_reducible assumption
    | with_reducible apply State.raise_kept
    | with_reducible apply State.setFld_kept
    | with_reducible apply foldl_kept
    | with_reducible apply foldl_kept_fst
    | with_reducible apply foldl_kept_snd
    | intro _
    | with_reducible apply State.Kept.both
    | with_reducible apply State.Kept.split_
    | with_reducible refine State.Kept.wf (q := Q) ?_
    | with_reducible refine kept_ite (fun _ => ?_) (fun _ => ?_)
    | with_reducible refine keptVia_ite (fun _ => ?_) (fun _ => ?_)
    | split
    | simp only [↓State.kept_mk, ↓keptVia_fst, ↓keptVia_snd, ↓keptVia_sndFst, ↓keptVia_sndSnd]
    | with_reducible refine KeptVia.of _ ?_
    | dsimp only

theorem State.disarmTrees_kept {Q : List Instr} (s : State) (i : Nat) (hs : s.Kept Q) : (State.disarmTrees s i).Kept Q := by
  unfold State.disarmTrees
  repeat' first
    | with_reducible assumption
    | with_reducible apply State.setFld_kept
    | with_reducible apply foldl_kept
    | intro _
    | split
    | dsimp only

theorem State.abortEntry_kept {Q : List Instr} (s : State) (i : Nat) (a : AbortInfo) (spare : Option (Nat × Nat)) (from_ : Nat) (hs : s.Kept Q) : (State.abortEntry s i a spare from_).Kept Q := by
  unfold State.abortEntry
  repeat' first
    | with_reducible assumption
    | with_reducible apply State.raiseInfo_kept
    | with_reducible apply State.logAbort_kept
    | with_reducible apply State.setFld_kept
    | with_reducible apply State.modCtx_kept
    | with_reducible apply State.abortCmds_kept
    | with_reducible apply State.disarmTrees_kept
    | with_reducible apply State.driveSync_kept
    | with_reducible apply State.sendHop_kept
    | with_reducible apply foldl_kept
    | with_reducible apply foldl_kept_fst
    | with_reducible apply foldl_kept_snd
    | intro _
    | with_reducible apply State.Kept.both
    | with_reducible apply State.Kept.split_
    | with_reducible refine State.Kept.wf (q := Q) ?_
    | with_reducible refine kept_ite (fun _ => ?_) (fun _ => ?_)
    | with_reducible refine keptVia_ite (fun _ => ?_) (fun _ => ?_)
    | split
    | simp only [↓State.kept_mk, ↓keptVia_fst, ↓keptVia_snd, ↓keptVia_sndFst, ↓keptVia_sndSnd]
    | with_reducible refine KeptVia.of _ ?_
    | dsimp only

theorem State.abortLocal_kept {Q : List Instr} (s : State) (i : Nat) (cause : Nat) (link : Nat) (spare : Option (Nat × Nat)) (hs : s.Kept Q) : (State.abortLocal s i cause link spare).Kept Q := by
  unfold State.abortLocal
  repeat' first
    | with_reducible assumption
    | with_reducible apply State.abortEntry_kept
    | intro _
    | split
    | dsimp only

end Sys2Proof.Machine
end

