-- ==== Sys2Proof/Laws/KeptArrive.lean ====
section
/-!
SUPPORT. What every operation of Machine/Arrive.lean keeps: the queue, and the canonical form of memory.
-/

set_option linter.unusedVariables false
set_option linter.unusedSimpArgs false

namespace Sys2Proof.Machine

theorem State.takeMsg_kept {Q : List Instr} (s : State) (n : Nat) (m : Msg) (hs : s.Kept Q) {r : State × Bool}
    (e : State.takeMsg s n m = some r) : r.1.Kept Q := by
  unfold State.takeMsg at e
  dsimp only at e
  repeat' split at e
  all_goals first
    | (cases e; done)
    | (cases e; exact State.setLink_kept _ _ _ hs)

theorem State.takeBead_kept {Q : List Instr} (s : State) (n : Nat) (b : Bead) (hs : s.Kept Q) {r : State × Bool} (e : State.takeBead s n b = some r) : r.1.Kept Q := by
  unfold State.takeBead at e
  repeat' first
    | with_reducible assumption
    | with_reducible refine State.takeMsg_kept (e := by with_reducible assumption) (hs := ?_) ..
    | intro _
    | split
    | dsimp only

theorem State.screen_kept {Q : List Instr} (s : State) (n : Nat) (b : Bead) (sealed_ : Bool) (hs : s.Kept Q) : (State.screen s n b sealed_).1.Kept Q := by
  unfold State.screen
  refine KeptVia.out Prod.fst ?_
  repeat' first
    | with_reducible assumption
    | with_reducible apply State.isodrop_kept
    | intro _
    | with_reducible refine kept_of_fst_eq (e := by with_reducible assumption) ?_
    | with_reducible refine kept_of_snd_eq (e := by with_reducible assumption) ?_
    | with_reducible refine kept_of_sndFst_eq (e := by with_reducible assumption) ?_
    | with_reducible refine kept_of_sndSnd_eq (e := by with_reducible assumption) ?_
    | with_reducible refine kept_ite (fun _ => ?_) (fun _ => ?_)
    | with_reducible refine keptVia_ite (fun _ => ?_) (fun _ => ?_)
    | split
    | simp only [↓keptVia_fst, ↓keptVia_snd, ↓keptVia_sndFst, ↓keptVia_sndSnd]
    | with_reducible refine KeptVia.of _ ?_
    | dsimp only

theorem State.forward_kept {Q : List Instr} (s : State) (i : Nat) (n : Nat) (m : Msg) (sealed_ : Bool) (hs : s.Kept Q) : (State.forward s i n m sealed_).Kept Q := by
  unfold State.forward
  repeat' first
    | with_reducible assumption
    | with_reducible apply State.route_kept
    | intro _
    | split
    | dsimp only

theorem State.replicate_kept {Q : List Instr} (s : State) (i : Nat) (n : Nat) (m : Msg) (sealed_ : Bool) (hs : s.Kept Q) : (State.replicate s i n m sealed_).Kept Q := by
  unfold State.replicate
  repeat' first
    | with_reducible assumption
    | with_reducible apply State.emit_kept
    | with_reducible apply foldl_kept
    | intro _
    | split
    | dsimp only

end Sys2Proof.Machine
end

