-- ==== Sys2Proof/Laws/KeptCollect.lean ====
section
/-!
SUPPORT. What every operation of Machine/Collect.lean keeps: the queue, and the canonical form of memory.
-/

set_option linter.unusedVariables false
set_option linter.unusedSimpArgs false

namespace Sys2Proof.Machine

theorem keptVia_ReadIn {q : List Instr} (v0 : State) (v1 : Bool) (v2 : Bool) (v3 : List (Nat × Option (List Byte))) : KeptVia ReadIn.st q ⟨v0, v1, v2, v3⟩ = v0.Kept q :=
  propext ⟨fun h => h, fun h => h⟩

theorem State.setColl_kept {Q : List Instr} (s : State) (k : Coll) (hs : s.Kept Q) : (State.setColl s k).Kept Q := by
  unfold State.setColl
  repeat' first
    | with_reducible assumption
    | intro _
    | with_reducible apply State.Kept.both
    | with_reducible apply State.Kept.split_
    | with_reducible refine State.Kept.wf (q := Q) ?_
    | split
    | simp only [↓State.kept_mk]
    | dsimp only

theorem State.chunkUp_kept {Q : List Instr} (s : State) (i : Nat) (g : Nat) (pay : List Byte) (data : List Byte) (hs : s.Kept Q) : (State.chunkUp s i g pay data).Kept Q := by
  unfold State.chunkUp
  repeat' first
    | with_reducible assumption
    | with_reducible apply State.route_kept
    | intro _
    | split
    | dsimp only

theorem State.credit_kept {Q : List Instr} (s : State) (i : Nat) (n : Nat) (ctx : Nat) (cseq : Nat) (add : Nat) (left : Nat) (hs : s.Kept Q) : (State.credit s i n ctx cseq add left).Kept Q := by
  unfold State.credit
  repeat' first
    | with_reducible assumption
    | intro _
    | with_reducible apply State.Kept.both
    | with_reducible apply State.Kept.split_
    | with_reducible refine State.Kept.wf (q := Q) ?_
    | with_reducible refine kept_ite (fun _ => ?_) (fun _ => ?_)
    | split
    | simp only [↓State.kept_mk]
    | dsimp only

theorem State.deliverTo_kept {Q : List Instr} (s : State) (i : Nat) (n : Nat) (m : CollMember) (pay : List Byte) (data : List Byte) (hs : s.Kept Q) : (State.deliverTo s i n m pay data).Kept Q := by
  unfold State.deliverTo
  repeat' first
    | with_reducible assumption
    | with_reducible apply State.credit_kept
    | with_reducible apply State.countCtx_kept
    | with_reducible apply State.storeBy_kept
    | with_reducible apply State.recPut_kept
    | intro _
    | with_reducible refine kept_of_fst_eq (e := by with_reducible assumption) ?_
    | with_reducible refine kept_of_snd_eq (e := by with_reducible assumption) ?_
    | with_reducible refine kept_of_sndFst_eq (e := by with_reducible assumption) ?_
    | with_reducible refine kept_of_sndSnd_eq (e := by with_reducible assumption) ?_
    | with_reducible refine kept_ite (fun _ => ?_) (fun _ => ?_)
    | with_reducible refine keptVia_ite (fun _ => ?_) (fun _ => ?_)
    | split
    | simp only [↓keptVia_fst, ↓keptVia_snd, ↓keptVia_sndFst, ↓keptVia_sndSnd]
    | with_reducible refine KeptVia.of _ ?_
    | dsimp only

theorem State.deliver_kept {Q : List Instr} (s : State) (i : Nat) (n : Nat) (g : Nat) (pay : List Byte) (data : List Byte) (hs : s.Kept Q) : (State.deliver s i n g pay data).Kept Q := by
  unfold State.deliver
  repeat' first
    | with_reducible assumption
    | with_reducible apply State.setColl_kept
    | with_reducible apply State.deliverTo_kept
    | with_reducible apply foldl_kept
    | with_reducible apply foldl_kept_fst
    | with_reducible apply foldl_kept_snd
    | intro _
    | with_reducible refine kept_ite (fun _ => ?_) (fun _ => ?_)
    | with_reducible refine keptVia_ite (fun _ => ?_) (fun _ => ?_)
    | split
    | simp only [↓keptVia_fst, ↓keptVia_snd, ↓keptVia_sndFst, ↓keptVia_sndSnd]
    | with_reducible refine KeptVia.of _ ?_
    | dsimp only

theorem State.chunkDown_kept {Q : List Instr} (s : State) (i : Nat) (n : Nat) (g : Nat) (pay : List Byte) (data : List Byte) (hs : s.Kept Q) : (State.chunkDown s i n g pay data).Kept Q := by
  unfold State.chunkDown
  repeat' first
    | with_reducible assumption
    | with_reducible apply State.deliver_kept
    | with_reducible apply State.replicate_kept
    | intro _
    | split
    | dsimp only

theorem State.mismatch_kept {Q : List Instr} (s : State) (i : Nat) (n : Nat) (k : Nat) (hs : s.Kept Q) : (State.mismatch s i n k).Kept Q := by
  unfold State.mismatch
  repeat' first
    | with_reducible assumption
    | with_reducible apply State.setColl_kept
    | with_reducible apply State.chunkDown_kept
    | with_reducible apply State.chunkUp_kept
    | intro _
    | with_reducible apply State.Kept.both
    | with_reducible apply State.Kept.split_
    | with_reducible refine State.Kept.wf (q := Q) ?_
    | with_reducible refine kept_ite (fun _ => ?_) (fun _ => ?_)
    | split
    | simp only [↓State.kept_mk]
    | dsimp only

theorem State.nextUp_kept {Q : List Instr} (s : State) (i : Nat) (n : Nat) (hs : s.Kept Q) : (State.nextUp s i n).Kept Q := by
  unfold State.nextUp
  repeat' first
    | with_reducible assumption
    | with_reducible apply State.setFld_kept
    | intro _
    | with_reducible apply State.Kept.both
    | with_reducible apply State.Kept.split_
    | with_reducible refine State.Kept.wf (q := Q) ?_
    | split
    | simp only [↓State.kept_mk]
    | dsimp only

theorem State.memberDone_kept {Q : List Instr} (s : State) (m : CollMember) (status : Nat) (hs : s.Kept Q) : (State.memberDone s m status).Kept Q := by
  unfold State.memberDone
  repeat' first
    | with_reducible assumption
    | with_reducible apply State.finish_kept
    | intro _
    | with_reducible refine kept_of_fst_eq (e := by with_reducible assumption) ?_
    | with_reducible refine kept_of_snd_eq (e := by with_reducible assumption) ?_
    | with_reducible refine kept_of_sndFst_eq (e := by with_reducible assumption) ?_
    | with_reducible refine kept_of_sndSnd_eq (e := by with_reducible assumption) ?_
    | with_reducible refine kept_ite (fun _ => ?_) (fun _ => ?_)
    | split
    | dsimp only

theorem State.collDone_kept {Q : List Instr} (s : State) (i : Nat) (n : Nat) (status : Nat) (hs : s.Kept Q) : (State.collDone s i n status).Kept Q := by
  unfold State.collDone
  repeat' first
    | with_reducible assumption
    | with_reducible apply State.nextUp_kept
    | with_reducible apply State.memberDone_kept
    | with_reducible apply foldl_kept
    | intro _
    | split
    | dsimp only

theorem State.release_kept {Q : List Instr} (s : State) (i : Nat) (n : Nat) (hs : s.Kept Q) : (State.release s i n).Kept Q := by
  unfold State.release
  repeat' first
    | with_reducible assumption
    | with_reducible apply State.finish_kept
    | with_reducible apply State.setFld_kept
    | with_reducible apply State.nextUp_kept
    | with_reducible apply foldl_kept
    | intro _
    | with_reducible refine kept_ite (fun _ => ?_) (fun _ => ?_)
    | split
    | dsimp only

theorem State.releaseAt_kept {Q : List Instr} (s : State) (i : Nat) (n : Nat) (at_ : Nat) (hs : s.Kept Q) : (State.releaseAt s i n at_).Kept Q := by
  unfold State.releaseAt
  repeat' first
    | with_reducible assumption
    | with_reducible apply State.setColl_kept
    | with_reducible apply State.raise_kept
    | with_reducible apply State.addSat_kept
    | with_reducible apply State.release_kept
    | intro _
    | with_reducible refine kept_ite (fun _ => ?_) (fun _ => ?_)
    | split
    | dsimp only

theorem State.collStep_kept {Q : List Instr} (s : State) (i : Nat) (n : Nat) (hs : s.Kept Q) : (State.collStep s i n).Kept Q := by
  unfold State.collStep
  repeat' first
    | with_reducible assumption
    | with_reducible apply State.driveSync_kept
    | with_reducible apply State.setColl_kept
    | with_reducible apply State.route_kept
    | with_reducible apply State.collDone_kept
    | with_reducible apply State.replicate_kept
    | with_reducible apply State.releaseAt_kept
    | intro _
    | with_reducible refine kept_ite (fun _ => ?_) (fun _ => ?_)
    | split
    | dsimp only

theorem execChunkFold_kept {Q : List Instr} (now : Nat) (entry : Nat) (coll : Nat) (chunk : Nat) (s : State) (hs : s.Kept Q) {t : State} (e : execChunkFold now entry coll chunk s = .next t) : t.Kept Q := by
  unfold execChunkFold at e
  injection e with e
  subst e
  repeat' first
    | with_reducible assumption
    | with_reducible apply State.advance_kept
    | with_reducible apply State.progress_kept
    | with_reducible apply State.count_kept
    | with_reducible apply State.addSat_kept
    | with_reducible apply State.addWrap_kept
    | with_reducible apply State.raise_kept
    | with_reducible apply State.collStep_kept
    | with_reducible apply State.mismatch_kept
    | with_reducible apply State.chunkUp_kept
    | with_reducible apply State.deliverTo_kept
    | with_reducible apply State.chunkDown_kept
    | with_reducible apply foldl_kept
    | intro _
    | with_reducible refine kept_of_fst_eq (e := by with_reducible assumption) ?_
    | with_reducible refine kept_of_snd_eq (e := by with_reducible assumption) ?_
    | with_reducible refine kept_of_sndFst_eq (e := by with_reducible assumption) ?_
    | with_reducible refine kept_of_sndSnd_eq (e := by with_reducible assumption) ?_
    | with_reducible apply State.Kept.both
    | with_reducible apply State.Kept.split_
    | with_reducible refine State.Kept.wf (q := Q) ?_
    | with_reducible refine kept_ite (fun _ => ?_) (fun _ => ?_)
    | split
    | simp only [↓State.kept_mk]
    | dsimp only

theorem ReadIn.next_kept {Q : List Instr} (r : ReadIn) (pk : List Byte) (k : Nat) (hr : r.st.Kept Q) : (ReadIn.next r pk k).st.Kept Q := by
  unfold ReadIn.next
  refine KeptVia.out ReadIn.st ?_
  repeat' first
    | with_reducible assumption
    | with_reducible apply State.readMem_kept
    | intro _
    | with_reducible refine kept_ite (fun _ => ?_) (fun _ => ?_)
    | with_reducible refine keptVia_ite (fun _ => ?_) (fun _ => ?_)
    | split
    | simp only [↓keptVia_fst, ↓keptVia_snd, ↓keptVia_sndFst, ↓keptVia_sndSnd, ↓keptVia_ReadIn]
    | with_reducible refine KeptVia.of _ ?_
    | dsimp only

theorem State.sendChunkOf_kept {Q : List Instr} (s : State) (o : Opc) (i : Nat) (n : Nat) (ctx : Nat) (c : Cmd) (rank : Nat) (q : Nat × Option (List Byte)) (total : Nat) (hs : s.Kept Q) : (State.sendChunkOf s o i n ctx c rank q total).Kept Q := by
  unfold State.sendChunkOf
  repeat' first
    | with_reducible assumption
    | with_reducible apply State.modCmd_kept
    | with_reducible apply State.countCtx_kept
    | with_reducible apply State.chunkDown_kept
    | with_reducible apply State.chunkUp_kept
    | intro _
    | with_reducible refine kept_of_fst_eq (e := by with_reducible assumption) ?_
    | with_reducible refine kept_of_snd_eq (e := by with_reducible assumption) ?_
    | with_reducible refine kept_of_sndFst_eq (e := by with_reducible assumption) ?_
    | with_reducible refine kept_of_sndSnd_eq (e := by with_reducible assumption) ?_
    | with_reducible apply State.Kept.both
    | with_reducible apply State.Kept.split_
    | with_reducible refine State.Kept.wf (q := Q) ?_
    | with_reducible refine kept_ite (fun _ => ?_) (fun _ => ?_)
    | split
    | simp only [↓State.kept_mk]
    | dsimp only

theorem State.replayColl_kept {Q : List Instr} (s : State) (ctx : Nat) (c : Cmd) (o : Opc) (hs : s.Kept Q) : (State.replayColl s ctx c o).Kept Q := by
  unfold State.replayColl
  repeat' first
    | with_reducible assumption
    | with_reducible apply State.store_kept
    | with_reducible apply State.finishRecorded_kept
    | with_reducible apply foldl_kept
    | with_reducible apply foldl_kept_fst
    | with_reducible apply foldl_kept_snd
    | intro _
    | with_reducible refine kept_of_fst_eq (e := by with_reducible assumption) ?_
    | with_reducible refine kept_of_snd_eq (e := by with_reducible assumption) ?_
    | with_reducible refine kept_of_sndFst_eq (e := by with_reducible assumption) ?_
    | with_reducible refine kept_of_sndSnd_eq (e := by with_reducible assumption) ?_
    | split
    | simp only [↓keptVia_fst, ↓keptVia_snd, ↓keptVia_sndFst, ↓keptVia_sndSnd]
    | with_reducible refine KeptVia.of _ ?_
    | dsimp only

theorem State.keptTo_kept {Q : List Instr} (s : State) (i : Nat) (n : Nat) (ctx : Nat) (x : List Byte × List Byte) (hs : s.Kept Q) : (State.keptTo s i n ctx x).Kept Q := by
  unfold State.keptTo
  repeat' first
    | with_reducible assumption
    | with_reducible apply State.deliverTo_kept
    | intro _
    | with_reducible refine kept_of_fst_eq (e := by with_reducible assumption) ?_
    | with_reducible refine kept_of_snd_eq (e := by with_reducible assumption) ?_
    | with_reducible refine kept_of_sndFst_eq (e := by with_reducible assumption) ?_
    | with_reducible refine kept_of_sndSnd_eq (e := by with_reducible assumption) ?_
    | split
    | dsimp only

theorem State.collBody_kept {Q : List Instr} (s : State) (o : Opc) (ctx : Nat) (c : Cmd) (hs : s.Kept Q) : (State.collBody s o ctx c).Kept Q := by
  unfold State.collBody
  repeat' first
    | with_reducible assumption
    | with_reducible apply State.countCtx_kept
    | with_reducible apply State.modCmd_kept
    | with_reducible apply State.replayColl_kept
    | with_reducible apply State.finish_kept
    | with_reducible apply State.issue_kept
    | with_reducible apply State.setColl_kept
    | with_reducible apply State.keptTo_kept
    | with_reducible apply State.collStep_kept
    | with_reducible apply State.mismatch_kept
    | with_reducible apply ReadIn.next_kept
    | with_reducible apply State.sendChunkOf_kept
    | with_reducible apply State.markCorr_kept
    | with_reducible apply foldl_kept
    | with_reducible apply foldl_kept_via ReadIn.st
    | intro _
    | with_reducible refine kept_of_fst_eq (e := by with_reducible assumption) ?_
    | with_reducible refine kept_of_snd_eq (e := by with_reducible assumption) ?_
    | with_reducible refine kept_of_sndFst_eq (e := by with_reducible assumption) ?_
    | with_reducible refine kept_of_sndSnd_eq (e := by with_reducible assumption) ?_
    | with_reducible apply State.Kept.both
    | with_reducible apply State.Kept.split_
    | with_reducible refine State.Kept.wf (q := Q) ?_
    | with_reducible refine kept_ite (fun _ => ?_) (fun _ => ?_)
    | with_reducible refine keptVia_ite (fun _ => ?_) (fun _ => ?_)
    | split
    | simp only [↓State.kept_mk, ↓keptVia_ReadIn]
    | with_reducible refine KeptVia.of _ ?_
    | dsimp only

theorem execAllreduce_kept {Q : List Instr} (ctx : Nat) (cseq : Nat) (s : State) (hs : s.Kept Q) {t : State} (e : execAllreduce ctx cseq s = .next t) : t.Kept Q := by
  unfold execAllreduce at e
  injection e with e
  subst e
  repeat' first
    | with_reducible assumption
    | with_reducible apply State.withBody_kept
    | with_reducible apply State.collBody_kept
    | intro _
    | split
    | dsimp only

theorem execReduce_kept {Q : List Instr} (ctx : Nat) (cseq : Nat) (s : State) (hs : s.Kept Q) {t : State} (e : execReduce ctx cseq s = .next t) : t.Kept Q := by
  unfold execReduce at e
  injection e with e
  subst e
  repeat' first
    | with_reducible assumption
    | with_reducible apply State.withBody_kept
    | with_reducible apply State.collBody_kept
    | intro _
    | split
    | dsimp only

theorem execBcast_kept {Q : List Instr} (ctx : Nat) (cseq : Nat) (s : State) (hs : s.Kept Q) {t : State} (e : execBcast ctx cseq s = .next t) : t.Kept Q := by
  unfold execBcast at e
  injection e with e
  subst e
  repeat' first
    | with_reducible assumption
    | with_reducible apply State.withBody_kept
    | with_reducible apply State.collBody_kept
    | intro _
    | split
    | dsimp only

theorem execAllgather_kept {Q : List Instr} (ctx : Nat) (cseq : Nat) (s : State) (hs : s.Kept Q) {t : State} (e : execAllgather ctx cseq s = .next t) : t.Kept Q := by
  unfold execAllgather at e
  injection e with e
  subst e
  repeat' first
    | with_reducible assumption
    | with_reducible apply State.withBody_kept
    | with_reducible apply State.collBody_kept
    | intro _
    | split
    | dsimp only

theorem execBarrier_kept {Q : List Instr} (ctx : Nat) (cseq : Nat) (s : State) (hs : s.Kept Q) {t : State} (e : execBarrier ctx cseq s = .next t) : t.Kept Q := by
  unfold execBarrier at e
  injection e with e
  subst e
  repeat' first
    | with_reducible assumption
    | with_reducible apply State.withBody_kept
    | with_reducible apply State.collBody_kept
    | intro _
    | split
    | dsimp only

theorem State.admit_kept {Q : List Instr} (s : State) (n : Nat) (m : Msg) (hs : s.Kept Q) {r : State × Option Nat × Bool}
    (e : State.screened s n m = some r) : r.1.Kept Q := by
  unfold State.screened at e
  split at e
  · exact absurd e (by simp)
  · rename_i s1 sealed_ h
    injection e with e
    subst e
    exact State.screen_kept _ _ _ _ (State.takeMsg_kept s n m hs h)

theorem execRedHead_kept {Q : List Instr} (now : Nat) (link : Nat) (m : Msg) (s : State) (hs : s.Kept Q) {t : State} (e : execRedHead now link m s = .next t) : t.Kept Q := by
  unfold execRedHead at e
  injection e with e
  subst e
  repeat' first
    | with_reducible assumption
    | with_reducible apply State.advance_kept
    | with_reducible refine State.admit_kept (e := by with_reducible assumption) (hs := ?_) ..
    | with_reducible apply State.forward_kept
    | with_reducible apply State.setColl_kept
    | with_reducible apply State.collStep_kept
    | with_reducible apply State.chunkDown_kept
    | with_reducible apply State.chunkUp_kept
    | with_reducible apply State.mismatch_kept
    | intro _
    | with_reducible refine kept_of_fst_eq (e := by with_reducible assumption) ?_
    | with_reducible refine kept_of_snd_eq (e := by with_reducible assumption) ?_
    | with_reducible refine kept_of_sndFst_eq (e := by with_reducible assumption) ?_
    | with_reducible refine kept_of_sndSnd_eq (e := by with_reducible assumption) ?_
    | with_reducible apply State.Kept.both
    | with_reducible apply State.Kept.split_
    | with_reducible refine State.Kept.wf (q := Q) ?_
    | with_reducible refine kept_ite (fun _ => ?_) (fun _ => ?_)
    | split
    | simp only [↓State.kept_mk]
    | dsimp only

theorem execMcHead_kept {Q : List Instr} (now : Nat) (link : Nat) (m : Msg) (s : State) (hs : s.Kept Q) {t : State} (e : execMcHead now link m s = .next t) : t.Kept Q := by
  unfold execMcHead at e
  injection e with e
  subst e
  repeat' first
    | with_reducible assumption
    | with_reducible apply State.advance_kept
    | with_reducible refine State.admit_kept (e := by with_reducible assumption) (hs := ?_) ..
    | with_reducible apply State.collStep_kept
    | with_reducible apply State.deliver_kept
    | with_reducible apply State.replicate_kept
    | intro _
    | with_reducible refine kept_of_fst_eq (e := by with_reducible assumption) ?_
    | with_reducible refine kept_of_snd_eq (e := by with_reducible assumption) ?_
    | with_reducible refine kept_of_sndFst_eq (e := by with_reducible assumption) ?_
    | with_reducible refine kept_of_sndSnd_eq (e := by with_reducible assumption) ?_
    | with_reducible refine kept_ite (fun _ => ?_) (fun _ => ?_)
    | split
    | dsimp only

theorem execMulticastReplicate_kept {Q : List Instr} (link : Nat) (m : Msg) (s : State) (hs : s.Kept Q) {t : State} (e : execMulticastReplicate link m s = .next t) : t.Kept Q := by
  unfold execMulticastReplicate at e
  injection e with e
  subst e
  repeat' first
    | with_reducible assumption
    | with_reducible refine State.admit_kept (e := by with_reducible assumption) (hs := ?_) ..
    | with_reducible apply State.replicate_kept
    | intro _
    | with_reducible refine kept_of_fst_eq (e := by with_reducible assumption) ?_
    | with_reducible refine kept_of_snd_eq (e := by with_reducible assumption) ?_
    | with_reducible refine kept_of_sndFst_eq (e := by with_reducible assumption) ?_
    | with_reducible refine kept_of_sndSnd_eq (e := by with_reducible assumption) ?_
    | with_reducible refine kept_ite (fun _ => ?_) (fun _ => ?_)
    | split
    | dsimp only

theorem execBarUp_kept {Q : List Instr} (now : Nat) (link : Nat) (b : Bead) (s : State) (hs : s.Kept Q) {t : State} (e : execBarUp now link b s = .next t) : t.Kept Q := by
  unfold execBarUp at e
  injection e with e
  subst e
  repeat' first
    | with_reducible assumption
    | with_reducible apply State.advance_kept
    | with_reducible refine State.admit_kept (e := by with_reducible assumption) (hs := ?_) ..
    | with_reducible apply State.forward_kept
    | with_reducible apply State.collStep_kept
    | with_reducible apply State.setColl_kept
    | intro _
    | with_reducible refine kept_of_fst_eq (e := by with_reducible assumption) ?_
    | with_reducible refine kept_of_snd_eq (e := by with_reducible assumption) ?_
    | with_reducible refine kept_of_sndFst_eq (e := by with_reducible assumption) ?_
    | with_reducible refine kept_of_sndSnd_eq (e := by with_reducible assumption) ?_
    | with_reducible refine kept_ite (fun _ => ?_) (fun _ => ?_)
    | with_reducible refine keptVia_ite (fun _ => ?_) (fun _ => ?_)
    | split
    | simp only [↓keptVia_fst, ↓keptVia_snd, ↓keptVia_sndFst, ↓keptVia_sndSnd]
    | with_reducible refine KeptVia.of _ ?_
    | dsimp only

theorem execBarDown_kept {Q : List Instr} (now : Nat) (link : Nat) (b : Bead) (s : State) (hs : s.Kept Q) {t : State} (e : execBarDown now link b s = .next t) : t.Kept Q := by
  unfold execBarDown at e
  injection e with e
  subst e
  repeat' first
    | with_reducible assumption
    | with_reducible apply State.advance_kept
    | with_reducible refine State.admit_kept (e := by with_reducible assumption) (hs := ?_) ..
    | with_reducible apply State.replicate_kept
    | with_reducible apply State.collDone_kept
    | with_reducible apply State.releaseAt_kept
    | intro _
    | with_reducible refine kept_of_fst_eq (e := by with_reducible assumption) ?_
    | with_reducible refine kept_of_snd_eq (e := by with_reducible assumption) ?_
    | with_reducible refine kept_of_sndFst_eq (e := by with_reducible assumption) ?_
    | with_reducible refine kept_of_sndSnd_eq (e := by with_reducible assumption) ?_
    | with_reducible refine kept_ite (fun _ => ?_) (fun _ => ?_)
    | split
    | dsimp only

theorem execBarrierRelease_kept {Q : List Instr} (now : Nat) (entry : Nat) (s : State) (hs : s.Kept Q) {t : State} (e : execBarrierRelease now entry s = .next t) : t.Kept Q := by
  unfold execBarrierRelease at e
  injection e with e
  subst e
  repeat' first
    | with_reducible assumption
    | with_reducible apply State.advance_kept
    | with_reducible apply State.release_kept
    | intro _
    | with_reducible refine kept_of_fst_eq (e := by with_reducible assumption) ?_
    | with_reducible refine kept_of_snd_eq (e := by with_reducible assumption) ?_
    | with_reducible refine kept_of_sndFst_eq (e := by with_reducible assumption) ?_
    | with_reducible refine kept_of_sndSnd_eq (e := by with_reducible assumption) ?_
    | split
    | dsimp only

theorem execCollectiveTimeout_kept {Q : List Instr} (now : Nat) (ctx : Nat) (cseq : Nat) (s : State) (hs : s.Kept Q) {t : State} (e : execCollectiveTimeout now ctx cseq s = .next t) : t.Kept Q := by
  unfold execCollectiveTimeout at e
  injection e with e
  subst e
  repeat' first
    | with_reducible assumption
    | with_reducible apply State.advance_kept
    | with_reducible apply State.finish_kept
    | with_reducible apply State.drawNat_kept
    | with_reducible apply State.abortLocal_kept
    | intro _
    | with_reducible refine kept_of_fst_eq (e := by with_reducible assumption) ?_
    | with_reducible refine kept_of_snd_eq (e := by with_reducible assumption) ?_
    | with_reducible refine kept_of_sndFst_eq (e := by with_reducible assumption) ?_
    | with_reducible refine kept_of_sndSnd_eq (e := by with_reducible assumption) ?_
    | with_reducible refine kept_ite (fun _ => ?_) (fun _ => ?_)
    | with_reducible refine keptVia_ite (fun _ => ?_) (fun _ => ?_)
    | split
    | simp only [↓keptVia_fst, ↓keptVia_snd, ↓keptVia_sndFst, ↓keptVia_sndSnd]
    | with_reducible refine KeptVia.of _ ?_
    | dsimp only

theorem execTraySyncRise_kept {Q : List Instr} (now : Nat) (s : State) (hs : s.Kept Q) {t : State} (e : execTraySyncRise now s = .next t) : t.Kept Q := by
  unfold execTraySyncRise at e
  injection e with e
  subst e
  repeat' first
    | with_reducible assumption
    | with_reducible apply State.advance_kept
    | with_reducible apply State.syncLine_kept
    | with_reducible apply State.finish_kept
    | with_reducible apply State.setColl_kept
    | with_reducible apply foldl_kept
    | intro _
    | with_reducible refine kept_of_fst_eq (e := by with_reducible assumption) ?_
    | with_reducible refine kept_of_snd_eq (e := by with_reducible assumption) ?_
    | with_reducible refine kept_of_sndFst_eq (e := by with_reducible assumption) ?_
    | with_reducible refine kept_of_sndSnd_eq (e := by with_reducible assumption) ?_
    | with_reducible refine kept_ite (fun _ => ?_) (fun _ => ?_)
    | split
    | dsimp only

theorem execTraySyncRedrive_kept {Q : List Instr} (now : Nat) (s : State) (hs : s.Kept Q) {t : State} (e : execTraySyncRedrive now s = .next t) : t.Kept Q := by
  unfold execTraySyncRedrive at e
  injection e with e
  subst e
  repeat' first
    | with_reducible assumption
    | with_reducible apply State.advance_kept
    | with_reducible apply State.nextUp_kept
    | with_reducible apply State.driveSync_kept
    | intro _
    | with_reducible refine kept_of_fst_eq (e := by with_reducible assumption) ?_
    | with_reducible refine kept_of_snd_eq (e := by with_reducible assumption) ?_
    | with_reducible refine kept_of_sndFst_eq (e := by with_reducible assumption) ?_
    | with_reducible refine kept_of_sndSnd_eq (e := by with_reducible assumption) ?_
    | split
    | dsimp only

theorem execSliceAbort_kept {Q : List Instr} (now : Nat) (entry : Nat) (cause : Nat) (link : Nat) (s : State) (hs : s.Kept Q) {t : State} (e : execSliceAbort now entry cause link s = .next t) : t.Kept Q := by
  unfold execSliceAbort at e
  injection e with e
  subst e
  repeat' first
    | with_reducible assumption
    | with_reducible apply State.advance_kept
    | with_reducible apply State.abortLocal_kept
    | intro _
    | with_reducible refine kept_ite (fun _ => ?_) (fun _ => ?_)
    | split
    | dsimp only

end Sys2Proof.Machine
end

