-- ==== Sys2Proof/Laws/KeptUnits.lean ====
section
/-!
SUPPORT. What every operation of Machine/Units.lean keeps: the queue, and the canonical form of memory.
-/

set_option linter.unusedVariables false
set_option linter.unusedSimpArgs false

namespace Sys2Proof.Machine

theorem execMeDescriptorStart_kept {Q : List Instr} (tile : Nat) (me : Nat) (s : State) (hs : s.Kept Q) {t : State} (e : execMeDescriptorStart tile me s = .next t) : t.Kept Q := by
  unfold execMeDescriptorStart at e
  injection e with e
  subst e
  repeat' first
    | with_reducible assumption
    | with_reducible apply State.progress_kept
    | with_reducible apply State.setMe_kept
    | intro _
    | with_reducible refine kept_of_fst_eq (e := by with_reducible assumption) ?_
    | with_reducible refine kept_of_snd_eq (e := by with_reducible assumption) ?_
    | with_reducible refine kept_of_sndFst_eq (e := by with_reducible assumption) ?_
    | with_reducible refine kept_of_sndSnd_eq (e := by with_reducible assumption) ?_
    | with_reducible refine kept_ite (fun _ => ?_) (fun _ => ?_)
    | split
    | dsimp only

theorem State.meStop_kept {Q : List Instr} (s : State) (t : Nat) (m : Nat) (code : Nat) (d : List Byte) (hs : s.Kept Q) : (State.meStop s t m code d).Kept Q := by
  unfold State.meStop
  repeat' first
    | with_reducible assumption
    | with_reducible apply State.landMe_kept
    | with_reducible apply State.progress_kept
    | with_reducible apply State.meFault_kept
    | with_reducible apply State.setMe_kept
    | intro _
    | split
    | dsimp only

theorem State.meGood_kept {Q : List Instr} (s : State) (t : Nat) (m : Nat) (d : List Byte) (hs : s.Kept Q) : (State.meGood s t m d).Kept Q := by
  unfold State.meGood
  repeat' first
    | with_reducible assumption
    | with_reducible apply State.dscSig_kept
    | with_reducible apply State.progress_kept
    | with_reducible apply State.addWrap_kept
    | with_reducible apply State.landMe_kept
    | with_reducible apply State.raise_kept
    | intro _
    | with_reducible refine kept_ite (fun _ => ?_) (fun _ => ?_)
    | split
    | dsimp only

theorem execMeDescriptorComplete_kept {Q : List Instr} (tile : Nat) (me : Nat) (s : State) (hs : s.Kept Q) {t : State} (e : execMeDescriptorComplete tile me s = .next t) : t.Kept Q := by
  unfold execMeDescriptorComplete at e
  injection e with e
  subst e
  repeat' first
    | with_reducible assumption
    | with_reducible apply State.meStop_kept
    | with_reducible apply State.meOpen_kept
    | with_reducible apply State.meStream_kept
    | with_reducible apply State.markCorr_kept
    | with_reducible apply State.meCounts_kept
    | with_reducible apply State.meWrite_kept
    | with_reducible apply State.meGood_kept
    | with_reducible apply State.setMe_kept
    | intro _
    | with_reducible refine kept_of_fst_eq (e := by with_reducible assumption) ?_
    | with_reducible refine kept_of_snd_eq (e := by with_reducible assumption) ?_
    | with_reducible refine kept_of_sndFst_eq (e := by with_reducible assumption) ?_
    | with_reducible refine kept_of_sndSnd_eq (e := by with_reducible assumption) ?_
    | with_reducible refine kept_ite (fun _ => ?_) (fun _ => ?_)
    | with_reducible refine keptVia_ite (fun _ => ?_) (fun _ => ?_)
    | split
    | simp only [↓keptVia_fst, ↓keptVia_snd, ↓keptVia_sndFst, ↓keptVia_sndSnd, ↓keptVia_AccOut]
    | with_reducible refine KeptVia.of _ ?_
    | dsimp only

theorem execMeOwnerChangeLand_kept {Q : List Instr} (tile : Nat) (me : Nat) (s : State) (hs : s.Kept Q) {t : State} (e : execMeOwnerChangeLand tile me s = .next t) : t.Kept Q := by
  unfold execMeOwnerChangeLand at e
  injection e with e
  subst e
  repeat' first
    | with_reducible assumption
    | with_reducible apply State.landMe_kept
    | intro _
    | with_reducible refine kept_ite (fun _ => ?_) (fun _ => ?_)
    | split
    | dsimp only

theorem State.mvStop_kept {Q : List Instr} (s : State) (t : Nat) (j : Nat) (code : Nat) (d : List Byte) (hs : s.Kept Q) : (State.mvStop s t j code d).Kept Q := by
  unfold State.mvStop
  repeat' first
    | with_reducible assumption
    | with_reducible apply State.landMv_kept
    | with_reducible apply State.progress_kept
    | with_reducible apply State.mvEnd_kept
    | with_reducible apply State.setMover_kept
    | intro _
    | split
    | dsimp only

theorem execMoverDescriptorStart_kept {Q : List Instr} (tile : Nat) (mv : Nat) (s : State) (hs : s.Kept Q) {t : State} (e : execMoverDescriptorStart tile mv s = .next t) : t.Kept Q := by
  unfold execMoverDescriptorStart at e
  injection e with e
  subst e
  repeat' first
    | with_reducible assumption
    | with_reducible apply State.progress_kept
    | with_reducible apply State.setMover_kept
    | with_reducible apply State.mvStop_kept
    | with_reducible apply State.readMem_kept
    | intro _
    | with_reducible refine kept_of_fst_eq (e := by with_reducible assumption) ?_
    | with_reducible refine kept_of_snd_eq (e := by with_reducible assumption) ?_
    | with_reducible refine kept_of_sndFst_eq (e := by with_reducible assumption) ?_
    | with_reducible refine kept_of_sndSnd_eq (e := by with_reducible assumption) ?_
    | with_reducible refine kept_ite (fun _ => ?_) (fun _ => ?_)
    | with_reducible refine keptVia_ite (fun _ => ?_) (fun _ => ?_)
    | split
    | simp only [↓keptVia_fst, ↓keptVia_snd, ↓keptVia_sndFst, ↓keptVia_sndSnd]
    | with_reducible refine KeptVia.of _ ?_
    | dsimp only

theorem execMoverChunk_kept {Q : List Instr} (now : Nat) (tile : Nat) (mv : Nat) (s : State) (hs : s.Kept Q) {t : State} (e : execMoverChunk now tile mv s = .next t) : t.Kept Q := by
  unfold execMoverChunk at e
  injection e with e
  subst e
  repeat' first
    | with_reducible assumption
    | with_reducible apply State.advance_kept
    | with_reducible apply State.setMover_kept
    | with_reducible apply State.mvStop_kept
    | with_reducible apply State.chunkRead_kept
    | with_reducible apply State.markCorr_kept
    | with_reducible apply State.progress_kept
    | with_reducible apply State.sendChunk_kept
    | with_reducible apply State.chunkWrite_kept
    | intro _
    | with_reducible refine kept_of_fst_eq (e := by with_reducible assumption) ?_
    | with_reducible refine kept_of_snd_eq (e := by with_reducible assumption) ?_
    | with_reducible refine kept_of_sndFst_eq (e := by with_reducible assumption) ?_
    | with_reducible refine kept_of_sndSnd_eq (e := by with_reducible assumption) ?_
    | with_reducible refine kept_ite (fun _ => ?_) (fun _ => ?_)
    | with_reducible refine keptVia_ite (fun _ => ?_) (fun _ => ?_)
    | split
    | simp only [↓keptVia_fst, ↓keptVia_snd, ↓keptVia_sndFst, ↓keptVia_sndSnd]
    | with_reducible refine KeptVia.of _ ?_
    | dsimp only

theorem execMoverDescriptorComplete_kept {Q : List Instr} (tile : Nat) (mv : Nat) (s : State) (hs : s.Kept Q) {t : State} (e : execMoverDescriptorComplete tile mv s = .next t) : t.Kept Q := by
  unfold execMoverDescriptorComplete at e
  injection e with e
  subst e
  repeat' first
    | with_reducible assumption
    | with_reducible apply State.mvStop_kept
    | with_reducible apply State.setMover_kept
    | with_reducible apply State.landMv_kept
    | with_reducible apply State.dscSig_kept
    | with_reducible apply State.mvEnd_kept
    | intro _
    | with_reducible refine kept_of_fst_eq (e := by with_reducible assumption) ?_
    | with_reducible refine kept_of_snd_eq (e := by with_reducible assumption) ?_
    | with_reducible refine kept_of_sndFst_eq (e := by with_reducible assumption) ?_
    | with_reducible refine kept_of_sndSnd_eq (e := by with_reducible assumption) ?_
    | with_reducible refine kept_ite (fun _ => ?_) (fun _ => ?_)
    | split
    | dsimp only

theorem State.ackMover_kept {Q : List Instr} (s : State) (t : Nat) (j : Nat) (seq : Nat) (result : Nat) (hs : s.Kept Q) : (State.ackMover s t j seq result).Kept Q := by
  unfold State.ackMover
  repeat' first
    | with_reducible assumption
    | with_reducible apply State.progress_kept
    | with_reducible apply State.setMover_kept
    | with_reducible apply State.modCmd_kept
    | with_reducible apply State.decMvEnd_kept
    | with_reducible apply State.remoteDone_kept
    | intro _
    | with_reducible refine kept_of_fst_eq (e := by with_reducible assumption) ?_
    | with_reducible refine kept_of_snd_eq (e := by with_reducible assumption) ?_
    | with_reducible refine kept_of_sndFst_eq (e := by with_reducible assumption) ?_
    | with_reducible refine kept_of_sndSnd_eq (e := by with_reducible assumption) ?_
    | with_reducible refine kept_ite (fun _ => ?_) (fun _ => ?_)
    | split
    | dsimp only

theorem execAckTimeout_kept {Q : List Instr} (now : Nat) (tile : Nat) (mv : Nat) (msgseq : Nat) (s : State) (hs : s.Kept Q) {t : State} (e : execAckTimeout now tile mv msgseq s = .next t) : t.Kept Q := by
  unfold execAckTimeout at e
  injection e with e
  subst e
  repeat' first
    | with_reducible assumption
    | with_reducible apply State.advance_kept
    | with_reducible apply State.setMover_kept
    | with_reducible apply State.mvStop_kept
    | with_reducible apply State.ackMover_kept
    | with_reducible apply State.mvEnd_kept
    | with_reducible apply State.finish_kept
    | with_reducible apply State.stopCmd_kept
    | intro _
    | with_reducible refine kept_of_fst_eq (e := by with_reducible assumption) ?_
    | with_reducible refine kept_of_snd_eq (e := by with_reducible assumption) ?_
    | with_reducible refine kept_of_sndFst_eq (e := by with_reducible assumption) ?_
    | with_reducible refine kept_of_sndSnd_eq (e := by with_reducible assumption) ?_
    | with_reducible refine kept_ite (fun _ => ?_) (fun _ => ?_)
    | split
    | dsimp only

end Sys2Proof.Machine
end

