-- ==== Sys2Proof/Laws/KeptXmei.lean ====
section
/-!
SUPPORT. What every operation of Machine/Xmei.lean keeps: the queue, and the canonical form of memory.
-/

set_option linter.unusedVariables false
set_option linter.unusedSimpArgs false

namespace Sys2Proof.Machine

theorem State.pipTrap_kept {Q : List Instr} (s : State) (t : Nat) (h : Nat) (cause : Nat) (bad : Bool) (hs : s.Kept Q) : (State.pipTrap s t h cause bad).Kept Q := by
  unfold State.pipTrap
  repeat' first
    | with_reducible assumption
    | with_reducible apply State.setHart_kept
    | intro _
    | split
    | dsimp only

theorem State.pipPut_kept {Q : List Instr} (s : State) (t : Nat) (h : Nat) (rd : Nat) (v : Nat) (hs : s.Kept Q) : (State.pipPut s t h rd v).Kept Q := by
  unfold State.pipPut
  repeat' first
    | with_reducible assumption
    | with_reducible apply State.setHart_kept
    | intro _
    | split
    | dsimp only

theorem State.xmei_kept {Q : List Instr} (s : State) (t : Nat) (h : Nat) (f : Nat → State) (hs : s.Kept Q)
    (hf : ∀ c, (f c).Kept Q) : (State.xmei s t h f).Kept Q := by
  unfold State.xmei
  split
  · exact hs
  · split
    · exact State.pipTrap_kept _ _ _ _ _ hs
    · exact hf _

theorem State.pushRead_kept {Q : List Instr} (s : State) (t : Nat) (h : Nat) (c : Nat) (a : Nat) (f : State → List Byte → State)
    (hs : s.Kept Q) (hf : ∀ s d, s.Kept Q → (f s d).Kept Q) : (State.pushRead s t h c a f).Kept Q := by
  have hr : (s.readMem 0 a 128).st.Kept Q := State.readMem_kept _ _ _ _ hs
  unfold State.pushRead
  split
  · exact State.pipTrap_kept _ _ _ _ _ hs
  · split
    · exact State.pipTrap_kept _ _ _ _ _ hs
    · split
      · exact State.pipTrap_kept _ _ _ _ _ hs
      · dsimp only
        split
        · exact State.pipTrap_kept _ _ _ _ _ hr
        · exact hf _ _ hr

theorem execMeqPush_kept {Q : List Instr} (tile : Nat) (hart : Nat) (rd : Nat) (rs1 : Nat) (rs2 : Nat) (s : State) (hs : s.Kept Q) {t : State} (e : execMeqPush tile hart rd rs1 rs2 s = .next t) : t.Kept Q := by
  unfold execMeqPush at e
  injection e with e
  subst e
  repeat' first
    | with_reducible assumption
    | with_reducible apply State.xmei_kept
    | with_reducible apply State.pushRead_kept
    | with_reducible apply State.pipPut_kept
    | with_reducible apply State.setMe_kept
    | intro _
    | with_reducible refine kept_ite (fun _ => ?_) (fun _ => ?_)
    | split
    | dsimp only

theorem execMvqPush_kept {Q : List Instr} (tile : Nat) (hart : Nat) (rd : Nat) (rs1 : Nat) (rs2 : Nat) (s : State) (hs : s.Kept Q) {t : State} (e : execMvqPush tile hart rd rs1 rs2 s = .next t) : t.Kept Q := by
  unfold execMvqPush at e
  injection e with e
  subst e
  repeat' first
    | with_reducible assumption
    | with_reducible apply State.xmei_kept
    | with_reducible apply State.pushRead_kept
    | with_reducible apply State.pipPut_kept
    | with_reducible apply State.setMover_kept
    | intro _
    | with_reducible refine kept_ite (fun _ => ?_) (fun _ => ?_)
    | split
    | dsimp only

theorem State.pipObserve_kept {Q : List Instr} (s : State) (t : Nat) (h : Nat) (c : Nat) (i : Nat) (hs : s.Kept Q) : (State.pipObserve s t h c i).Kept Q := by
  unfold State.pipObserve
  repeat' first
    | with_reducible assumption
    | with_reducible apply State.observe_kept
    | intro _
    | with_reducible refine kept_of_fst_eq (e := by with_reducible assumption) ?_
    | with_reducible refine kept_of_snd_eq (e := by with_reducible assumption) ?_
    | with_reducible refine kept_of_sndFst_eq (e := by with_reducible assumption) ?_
    | with_reducible refine kept_of_sndSnd_eq (e := by with_reducible assumption) ?_
    | split
    | dsimp only

theorem execClaspWait_kept {Q : List Instr} (now : Nat) (tile : Nat) (hart : Nat) (rd : Nat) (rs1 : Nat) (rs2 : Nat) (irq : Bool) (s : State) (hs : s.Kept Q) {t : State} (e : execClaspWait now tile hart rd rs1 rs2 irq s = .next t) : t.Kept Q := by
  unfold execClaspWait at e
  injection e with e
  subst e
  repeat' first
    | with_reducible assumption
    | with_reducible apply State.advance_kept
    | with_reducible apply State.setHart_kept
    | with_reducible apply State.xmei_kept
    | with_reducible apply State.pipTrap_kept
    | with_reducible apply State.pipObserve_kept
    | with_reducible apply State.pipPut_kept
    | intro _
    | with_reducible refine kept_ite (fun _ => ?_) (fun _ => ?_)
    | split
    | dsimp only

theorem execClaspWaitTimeout_kept {Q : List Instr} (now : Nat) (tile : Nat) (hart : Nat) (s : State) (hs : s.Kept Q) {t : State} (e : execClaspWaitTimeout now tile hart s = .next t) : t.Kept Q := by
  unfold execClaspWaitTimeout at e
  injection e with e
  subst e
  repeat' first
    | with_reducible assumption
    | with_reducible apply State.advance_kept
    | with_reducible apply State.setHart_kept
    | intro _
    | with_reducible refine kept_of_fst_eq (e := by with_reducible assumption) ?_
    | with_reducible refine kept_of_snd_eq (e := by with_reducible assumption) ?_
    | with_reducible refine kept_of_sndFst_eq (e := by with_reducible assumption) ?_
    | with_reducible refine kept_of_sndSnd_eq (e := by with_reducible assumption) ?_
    | with_reducible refine kept_ite (fun _ => ?_) (fun _ => ?_)
    | split
    | dsimp only

theorem execClaspAdd_kept {Q : List Instr} (tile : Nat) (hart : Nat) (rd : Nat) (rs1 : Nat) (rs2 : Nat) (s : State) (hs : s.Kept Q) {t : State} (e : execClaspAdd tile hart rd rs1 rs2 s = .next t) : t.Kept Q := by
  unfold execClaspAdd at e
  injection e with e
  subst e
  repeat' first
    | with_reducible assumption
    | with_reducible apply State.xmei_kept
    | with_reducible apply State.pipTrap_kept
    | with_reducible apply State.pipPut_kept
    | with_reducible apply State.addClaspFor_kept
    | with_reducible apply State.pipObserve_kept
    | intro _
    | with_reducible refine kept_ite (fun _ => ?_) (fun _ => ?_)
    | split
    | dsimp only

theorem execEvtRaise_kept {Q : List Instr} (tile : Nat) (hart : Nat) (rs1 : Nat) (s : State) (hs : s.Kept Q) {t : State} (e : execEvtRaise tile hart rs1 s = .next t) : t.Kept Q := by
  unfold execEvtRaise at e
  injection e with e
  subst e
  repeat' first
    | with_reducible assumption
    | with_reducible apply State.xmei_kept
    | with_reducible apply State.pipTrap_kept
    | with_reducible apply State.raiseInfo_kept
    | intro _
    | with_reducible refine kept_ite (fun _ => ?_) (fun _ => ?_)
    | split
    | dsimp only

theorem execCntSnap_kept {Q : List Instr} (tile : Nat) (hart : Nat) (rd : Nat) (rs1 : Nat) (s : State) (hs : s.Kept Q) {t : State} (e : execCntSnap tile hart rd rs1 s = .next t) : t.Kept Q := by
  unfold execCntSnap at e
  injection e with e
  subst e
  repeat' first
    | with_reducible assumption
    | with_reducible apply State.xmei_kept
    | with_reducible apply State.pipPut_kept
    | with_reducible apply State.pipTrap_kept
    | with_reducible apply State.cntLatchCtx_kept
    | with_reducible apply State.storeBy_kept
    | intro _
    | with_reducible refine kept_ite (fun _ => ?_) (fun _ => ?_)
    | with_reducible refine keptVia_ite (fun _ => ?_) (fun _ => ?_)
    | split
    | simp only [↓keptVia_fst, ↓keptVia_snd, ↓keptVia_sndFst, ↓keptVia_sndSnd]
    | with_reducible refine KeptVia.of _ ?_
    | dsimp only

theorem State.pipTime_kept {Q : List Instr} (s : State) (t : Nat) (h : Nat) (hs : s.Kept Q) : (State.pipTime s t h).Kept Q := by
  unfold State.pipTime
  repeat' first
    | with_reducible assumption
    | with_reducible apply State.setRecorder_kept
    | with_reducible apply State.answer_kept
    | with_reducible apply State.diverge_kept
    | with_reducible apply State.recPut_kept
    | intro _
    | with_reducible refine kept_of_fst_eq (e := by with_reducible assumption) ?_
    | with_reducible refine kept_of_snd_eq (e := by with_reducible assumption) ?_
    | with_reducible refine kept_of_sndFst_eq (e := by with_reducible assumption) ?_
    | with_reducible refine kept_of_sndSnd_eq (e := by with_reducible assumption) ?_
    | with_reducible refine kept_ite (fun _ => ?_) (fun _ => ?_)
    | split
    | dsimp only

theorem State.pipStore_kept {Q : List Instr} (s : State) (t : Nat) (h : Nat) (c : Nat) (a : Nat) (bs : List Byte) (hs : s.Kept Q) : (State.pipStore s t h c a bs).Kept Q := by
  unfold State.pipStore
  repeat' first
    | with_reducible assumption
    | with_reducible apply State.setHart_kept
    | with_reducible apply State.storeBy_kept
    | with_reducible apply State.pipTrap_kept
    | intro _
    | with_reducible refine kept_ite (fun _ => ?_) (fun _ => ?_)
    | with_reducible refine keptVia_ite (fun _ => ?_) (fun _ => ?_)
    | split
    | simp only [↓keptVia_fst, ↓keptVia_snd, ↓keptVia_sndFst, ↓keptVia_sndSnd]
    | with_reducible refine KeptVia.of _ ?_
    | dsimp only

theorem execPipAccess_kept {Q : List Instr} (tile : Nat) (hart : Nat) (kind : PipOp) (addr : Nat) (len : Nat) (data : List Byte) (s : State) (hs : s.Kept Q) {t : State} (e : execPipAccess tile hart kind addr len data s = .next t) : t.Kept Q := by
  unfold execPipAccess at e
  injection e with e
  subst e
  repeat' first
    | with_reducible assumption
    | with_reducible apply State.pipTime_kept
    | with_reducible apply State.answer_kept
    | with_reducible apply State.pipTrap_kept
    | with_reducible apply State.readMem_kept
    | with_reducible apply State.pipStore_kept
    | intro _
    | with_reducible refine kept_of_fst_eq (e := by with_reducible assumption) ?_
    | with_reducible refine kept_of_snd_eq (e := by with_reducible assumption) ?_
    | with_reducible refine kept_of_sndFst_eq (e := by with_reducible assumption) ?_
    | with_reducible refine kept_of_sndSnd_eq (e := by with_reducible assumption) ?_
    | with_reducible refine kept_ite (fun _ => ?_) (fun _ => ?_)
    | split
    | dsimp only

end Sys2Proof.Machine
end

