-- ==== Sys2Proof/Laws/KeptTileReset.lean ====
section
/-!
SUPPORT. What every operation of Machine/TileReset.lean keeps: the queue, and the canonical form of memory.
-/

set_option linter.unusedVariables false
set_option linter.unusedSimpArgs false

namespace Sys2Proof.Machine

theorem execPipReset_kept {Q : List Instr} (now : Nat) (tile : Nat) (hart : Nat) (by_ : Writer) (s : State) (hs : s.Kept Q) {t : State} (e : execPipReset now tile hart by_ s = .next t) : t.Kept Q := by
  unfold execPipReset at e
  injection e with e
  subst e
  repeat' first
    | with_reducible assumption
    | with_reducible apply State.advance_kept
    | with_reducible apply State.hartReset_kept
    | intro _
    | with_reducible refine kept_ite (fun _ => ?_) (fun _ => ?_)
    | split
    | dsimp only

theorem execPipResetDrainExpire_kept {Q : List Instr} (now : Nat) (tile : Nat) (hart : Nat) (s : State) (hs : s.Kept Q) {t : State} (e : execPipResetDrainExpire now tile hart s = .next t) : t.Kept Q := by
  unfold execPipResetDrainExpire at e
  injection e with e
  subst e
  repeat' first
    | with_reducible assumption
    | with_reducible apply State.advance_kept
    | with_reducible apply State.hartFlush_kept
    | with_reducible apply State.setHart_kept
    | with_reducible apply State.setFld_kept
    | intro _
    | with_reducible refine kept_of_fst_eq (e := by with_reducible assumption) ?_
    | with_reducible refine kept_of_snd_eq (e := by with_reducible assumption) ?_
    | with_reducible refine kept_of_sndFst_eq (e := by with_reducible assumption) ?_
    | with_reducible refine kept_of_sndSnd_eq (e := by with_reducible assumption) ?_
    | with_reducible refine kept_ite (fun _ => ?_) (fun _ => ?_)
    | split
    | dsimp only

theorem execMeGroupReset_kept {Q : List Instr} (now : Nat) (tile : Nat) (grp : Nat) (by_ : Writer) (completes : Bool) (s : State) (hs : s.Kept Q) {t : State} (e : execMeGroupReset now tile grp by_ completes s = .next t) : t.Kept Q := by
  unfold execMeGroupReset at e
  injection e with e
  subst e
  repeat' first
    | with_reducible assumption
    | with_reducible apply State.advance_kept
    | with_reducible apply State.grpFlush_kept
    | with_reducible apply State.setFld_kept
    | with_reducible apply State.setMe_kept
    | with_reducible apply foldl_kept
    | intro _
    | with_reducible refine kept_ite (fun _ => ?_) (fun _ => ?_)
    | split
    | dsimp only

theorem execMeGroupPowerCycle_kept {Q : List Instr} (now : Nat) (tile : Nat) (grp : Nat) (s : State) (hs : s.Kept Q) {t : State} (e : execMeGroupPowerCycle now tile grp s = .next t) : t.Kept Q := by
  unfold execMeGroupPowerCycle at e
  injection e with e
  subst e
  repeat' first
    | with_reducible assumption
    | with_reducible apply State.advance_kept
    | with_reducible apply State.setFld_kept
    | with_reducible apply State.grpFlush_kept
    | intro _
    | with_reducible refine kept_of_fst_eq (e := by with_reducible assumption) ?_
    | with_reducible refine kept_of_snd_eq (e := by with_reducible assumption) ?_
    | with_reducible refine kept_of_sndFst_eq (e := by with_reducible assumption) ?_
    | with_reducible refine kept_of_sndSnd_eq (e := by with_reducible assumption) ?_
    | with_reducible refine kept_ite (fun _ => ?_) (fun _ => ?_)
    | split
    | dsimp only

theorem execMoverAbort_kept {Q : List Instr} (tile : Nat) (mv : Nat) (by_ : Writer) (s : State) (hs : s.Kept Q) {t : State} (e : execMoverAbort tile mv by_ s = .next t) : t.Kept Q := by
  unfold execMoverAbort at e
  injection e with e
  subst e
  repeat' first
    | with_reducible assumption
    | with_reducible apply State.mvFlush_kept
    | intro _
    | with_reducible refine kept_ite (fun _ => ?_) (fun _ => ?_)
    | split
    | dsimp only

theorem execUnitFaultPop_kept {Q : List Instr} (tile : Nat) (mover : Bool) (unit : Nat) (by_ : Writer) (s : State) (hs : s.Kept Q) {t : State} (e : execUnitFaultPop tile mover unit by_ s = .next t) : t.Kept Q := by
  unfold execUnitFaultPop at e
  injection e with e
  subst e
  repeat' first
    | with_reducible assumption
    | with_reducible apply State.setMover_kept
    | with_reducible apply State.setMe_kept
    | intro _
    | with_reducible refine kept_ite (fun _ => ?_) (fun _ => ?_)
    | split
    | dsimp only

theorem execTsEccClear_kept {Q : List Instr} (tile : Nat) (by_ : Writer) (s : State) (hs : s.Kept Q) {t : State} (e : execTsEccClear tile by_ s = .next t) : t.Kept Q := by
  unfold execTsEccClear at e
  injection e with e
  subst e
  repeat' first
    | with_reducible assumption
    | with_reducible apply State.setFld_kept
    | intro _
    | with_reducible refine kept_ite (fun _ => ?_) (fun _ => ?_)
    | split
    | dsimp only

theorem execTsScrubRow_kept {Q : List Instr} (tile : Nat) (bank : Nat) (upsets : List (Nat × Bool)) (s : State) (hs : s.Kept Q) {t : State} (e : execTsScrubRow tile bank upsets s = .next t) : t.Kept Q := by
  unfold execTsScrubRow at e
  injection e with e
  subst e
  repeat' first
    | with_reducible assumption
    | with_reducible apply State.setMarks_kept
    | with_reducible apply State.tsCheck_kept
    | with_reducible apply foldl_kept
    | intro _
    | with_reducible apply State.Kept.both
    | with_reducible apply State.Kept.split_
    | with_reducible refine State.Kept.wf (q := Q) ?_
    | with_reducible refine kept_ite (fun _ => ?_) (fun _ => ?_)
    | split
    | simp only [↓State.kept_mk]
    | dsimp only

end Sys2Proof.Machine
end

