-- ==== Sys2Proof/Laws/KeptMemUnit.lean ====
section
/-!
SUPPORT. What every operation of Machine/MemUnit.lean keeps: the queue, and the canonical form of memory.
-/

set_option linter.unusedVariables false
set_option linter.unusedSimpArgs false

namespace Sys2Proof.Machine

theorem State.upset_kept {Q : List Instr} (s : State) (cw : Nat) (ups : List (Nat × Nat)) (hs : s.Kept Q) : (State.upset s cw ups).Kept Q := by
  unfold State.upset
  repeat' first
    | with_reducible assumption
    | intro _
    | with_reducible apply State.Kept.both
    | with_reducible apply State.Kept.split_
    | with_reducible refine State.Kept.wf (q := Q) ?_
    | split
    | simp only [↓State.kept_mk]
    | dsimp only

theorem execMemoryRead_kept {Q : List Instr} (addr : Nat) (upsets : List (Nat × Nat)) (s : State) (hs : s.Kept Q) {t : State} (e : execMemoryRead addr upsets s = .next t) : t.Kept Q := by
  unfold execMemoryRead at e
  injection e with e
  subst e
  repeat' first
    | with_reducible assumption
    | with_reducible apply State.readCw_kept
    | with_reducible apply State.upset_kept
    | with_reducible apply State.answer_kept
    | intro _
    | with_reducible refine kept_ite (fun _ => ?_) (fun _ => ?_)
    | split
    | dsimp only

theorem execMemoryWrite_kept {Q : List Instr} (addr : Nat) (data : List Byte) (s : State) (hs : s.Kept Q) {t : State} (e : execMemoryWrite addr data s = .next t) : t.Kept Q := by
  unfold execMemoryWrite at e
  injection e with e
  subst e
  repeat' first
    | with_reducible assumption
    | with_reducible apply State.storeBy_kept
    | with_reducible apply State.answer_kept
    | intro _
    | with_reducible refine kept_ite (fun _ => ?_) (fun _ => ?_)
    | split
    | dsimp only

theorem execMemoryScrub_kept {Q : List Instr} (addr : Nat) (upsets : List (Nat × Nat)) (s : State) (hs : s.Kept Q) {t : State} (e : execMemoryScrub addr upsets s = .next t) : t.Kept Q := by
  unfold execMemoryScrub at e
  injection e with e
  subst e
  repeat' first
    | with_reducible assumption
    | with_reducible apply State.readCw_kept
    | with_reducible apply State.upset_kept
    | intro _
    | with_reducible refine kept_ite (fun _ => ?_) (fun _ => ?_)
    | split
    | dsimp only

theorem execMemoryRefresh_kept {Q : List Instr} (_die : Nat) (_unit : Nat) (s : State) (hs : s.Kept Q) {t : State} (e : execMemoryRefresh _die _unit s = .next t) : t.Kept Q := by
  unfold execMemoryRefresh at e
  injection e with e
  subst e
  repeat' first
    | with_reducible assumption
    | intro _
    | split
    | dsimp only

theorem State.setActive_kept {Q : List Instr} (s : State) (die : Nat) (unit : Nat) (v : Bool) (hs : s.Kept Q) : (State.setActive s die unit v).Kept Q := by
  unfold State.setActive
  repeat' first
    | with_reducible assumption
    | with_reducible apply State.setFld_kept
    | intro _
    | split
    | dsimp only

theorem State.flushHeld_kept {Q : List Instr} (s : State) (hs : s.Kept Q) : (State.flushHeld s).Kept Q := by
  unfold State.flushHeld
  repeat' first
    | with_reducible assumption
    | with_reducible apply State.hartFlush_kept
    | with_reducible apply State.setHart_kept
    | with_reducible apply foldl_kept
    | intro _
    | with_reducible refine kept_ite (fun _ => ?_) (fun _ => ?_)
    | split
    | dsimp only

theorem execMemoryCalibration_kept {Q : List Instr} (die : Nat) (unit : Nat) (active : Bool) (s : State) (hs : s.Kept Q) {t : State} (e : execMemoryCalibration die unit active s = .next t) : t.Kept Q := by
  unfold execMemoryCalibration at e
  injection e with e
  subst e
  repeat' first
    | with_reducible assumption
    | with_reducible apply State.setActive_kept
    | with_reducible apply State.flushHeld_kept
    | intro _
    | with_reducible refine kept_ite (fun _ => ?_) (fun _ => ?_)
    | split
    | dsimp only

theorem execChannelRetrain_kept {Q : List Instr} (now : Nat) (die : Nat) (unit : Nat) (cause : Nat) (s : State) (hs : s.Kept Q) {t : State} (e : execChannelRetrain now die unit cause s = .next t) : t.Kept Q := by
  unfold execChannelRetrain at e
  injection e with e
  subst e
  repeat' first
    | with_reducible assumption
    | with_reducible apply State.advance_kept
    | with_reducible apply State.raise_kept
    | with_reducible apply State.setActive_kept
    | with_reducible apply foldl_kept
    | intro _
    | with_reducible apply State.Kept.both
    | with_reducible apply State.Kept.split_
    | with_reducible refine State.Kept.wf (q := Q) ?_
    | with_reducible refine kept_ite (fun _ => ?_) (fun _ => ?_)
    | split
    | simp only [↓State.kept_mk]
    | dsimp only

theorem execChannelRetrainEnd_kept {Q : List Instr} (die : Nat) (unit : Nat) (ok : Bool) (s : State) (hs : s.Kept Q) {t : State} (e : execChannelRetrainEnd die unit ok s = .next t) : t.Kept Q := by
  unfold execChannelRetrainEnd at e
  injection e with e
  subst e
  repeat' first
    | with_reducible assumption
    | with_reducible apply State.setActive_kept
    | with_reducible apply State.setFld_kept
    | with_reducible apply State.flushHeld_kept
    | with_reducible apply State.raise_kept
    | with_reducible apply foldl_kept
    | intro _
    | with_reducible apply State.Kept.both
    | with_reducible apply State.Kept.split_
    | with_reducible refine State.Kept.wf (q := Q) ?_
    | with_reducible refine kept_ite (fun _ => ?_) (fun _ => ?_)
    | split
    | simp only [↓State.kept_mk]
    | dsimp only

theorem execEccstatClear_kept {Q : List Instr} (die : Nat) (by_ : Writer) (s : State) (hs : s.Kept Q) {t : State} (e : execEccstatClear die by_ s = .next t) : t.Kept Q := by
  unfold execEccstatClear at e
  injection e with e
  subst e
  repeat' first
    | with_reducible assumption
    | with_reducible apply State.setFld_kept
    | intro _
    | with_reducible refine kept_ite (fun _ => ?_) (fun _ => ?_)
    | split
    | dsimp only

theorem execUelogPop_kept {Q : List Instr} (die : Nat) (by_ : Writer) (s : State) (hs : s.Kept Q) {t : State} (e : execUelogPop die by_ s = .next t) : t.Kept Q := by
  unfold execUelogPop at e
  injection e with e
  subst e
  repeat' first
    | with_reducible assumption
    | intro _
    | with_reducible apply State.Kept.both
    | with_reducible apply State.Kept.split_
    | with_reducible refine State.Kept.wf (q := Q) ?_
    | with_reducible refine kept_ite (fun _ => ?_) (fun _ => ?_)
    | split
    | simp only [↓State.kept_mk]
    | dsimp only

theorem State.segFilled_kept {Q : List Instr} (s : State) (seg : Nat) (hs : s.Kept Q) : (State.segFilled s seg).Kept Q := by
  unfold State.segFilled
  repeat' first
    | with_reducible assumption
    | with_reducible apply State.setFld_kept
    | with_reducible apply State.zeroFill_kept
    | intro _
    | with_reducible apply State.Kept.both
    | with_reducible apply State.Kept.split_
    | with_reducible refine State.Kept.wf (q := Q) ?_
    | split
    | simp only [↓State.kept_mk]
    | dsimp only

theorem execSegmentFillComplete_kept {Q : List Instr} (now : Nat) (seg : Nat) (s : State) (hs : s.Kept Q) {t : State} (e : execSegmentFillComplete now seg s = .next t) : t.Kept Q := by
  unfold execSegmentFillComplete at e
  injection e with e
  subst e
  repeat' first
    | with_reducible assumption
    | with_reducible apply State.advance_kept
    | with_reducible apply State.raise_kept
    | with_reducible apply State.segFilled_kept
    | intro _
    | with_reducible refine kept_ite (fun _ => ?_) (fun _ => ?_)
    | split
    | dsimp only

theorem State.fillDone_kept {Q : List Instr} (s : State) (p : Nat) (hs : s.Kept Q) : (State.fillDone s p).Kept Q := by
  unfold State.fillDone
  repeat' first
    | with_reducible assumption
    | with_reducible apply State.modCmd_kept
    | with_reducible apply State.finish_kept
    | with_reducible apply foldl_kept
    | intro _
    | with_reducible refine kept_ite (fun _ => ?_) (fun _ => ?_)
    | split
    | dsimp only

theorem execXtsFillComplete_kept {Q : List Instr} (now : Nat) (p : Nat) (s : State) (hs : s.Kept Q) {t : State} (e : execXtsFillComplete now p s = .next t) : t.Kept Q := by
  unfold execXtsFillComplete at e
  injection e with e
  subst e
  repeat' first
    | with_reducible assumption
    | with_reducible apply State.advance_kept
    | with_reducible apply State.zeroFill_kept
    | with_reducible apply State.segFilled_kept
    | with_reducible apply State.raise_kept
    | with_reducible apply State.setFld_kept
    | with_reducible apply State.fillDone_kept
    | with_reducible apply foldl_kept
    | intro _
    | with_reducible apply State.Kept.both
    | with_reducible apply State.Kept.split_
    | with_reducible refine State.Kept.wf (q := Q) ?_
    | with_reducible refine kept_ite (fun _ => ?_) (fun _ => ?_)
    | split
    | simp only [↓State.kept_mk]
    | dsimp only

end Sys2Proof.Machine
end

