-- ==== Sys2Proof/Laws/KeptLink.lean ====
section
/-!
SUPPORT. What every operation of Machine/Link.lean keeps: the queue, and the canonical form of memory.
-/

set_option linter.unusedVariables false
set_option linter.unusedSimpArgs false

namespace Sys2Proof.Machine

theorem State.linkFail_kept {Q : List Instr} (s : State) (n : Nat) (cause : Nat) (st : Nat) (hs : s.Kept Q) : (State.linkFail s n cause st).Kept Q := by
  unfold State.linkFail
  repeat' first
    | with_reducible assumption
    | with_reducible apply State.setLink_kept
    | with_reducible apply State.setFld_kept
    | with_reducible apply State.level_kept
    | with_reducible apply State.abortLocal_kept
    | with_reducible apply foldl_kept
    | with_reducible apply foldl_kept_fst
    | with_reducible apply foldl_kept_snd
    | intro _
    | with_reducible apply State.Kept.both
    | with_reducible apply State.Kept.split_
    | with_reducible refine State.Kept.wf (q := Q) ?_
    | with_reducible refine kept_ite (fun _ => ?_) (fun _ => ?_)
    | with_reducible refine keptVia_ite (fun _ => ?_) (fun _ => ?_)
    | split
    | simp only [↓State.kept_mk, ↓keptVia_fst, ↓keptVia_snd, ↓keptVia_sndFst, ↓keptVia_sndSnd]
    | with_reducible refine KeptVia.of _ ?_
    | dsimp only

theorem execLinkDown_kept {Q : List Instr} (now : Nat) (link : Nat) (cause : Nat) (s : State) (hs : s.Kept Q) {t : State} (e : execLinkDown now link cause s = .next t) : t.Kept Q := by
  unfold execLinkDown at e
  injection e with e
  subst e
  repeat' first
    | with_reducible assumption
    | with_reducible apply State.advance_kept
    | with_reducible apply State.linkFail_kept
    | intro _
    | with_reducible refine kept_ite (fun _ => ?_) (fun _ => ?_)
    | split
    | dsimp only

theorem execLaserFault_kept {Q : List Instr} (now : Nat) (src : Nat) (s : State) (hs : s.Kept Q) {t : State} (e : execLaserFault now src s = .next t) : t.Kept Q := by
  unfold execLaserFault at e
  injection e with e
  subst e
  repeat' first
    | with_reducible assumption
    | with_reducible apply State.advance_kept
    | with_reducible apply State.linkFail_kept
    | with_reducible apply foldl_kept
    | intro _
    | with_reducible refine kept_ite (fun _ => ?_) (fun _ => ?_)
    | split
    | dsimp only

theorem execStop_kept {Q : List Instr} (now : Nat) (link : Nat) (b : Bead) (s : State) (hs : s.Kept Q) {t : State} (e : execStop now link b s = .next t) : t.Kept Q := by
  unfold execStop at e
  injection e with e
  subst e
  repeat' first
    | with_reducible assumption
    | with_reducible apply State.advance_kept
    | with_reducible refine State.takeBead_kept (e := by with_reducible assumption) (hs := ?_) ..
    | with_reducible apply State.linkFail_kept
    | intro _
    | with_reducible refine kept_of_fst_eq (e := by with_reducible assumption) ?_
    | with_reducible refine kept_of_snd_eq (e := by with_reducible assumption) ?_
    | with_reducible refine kept_of_sndFst_eq (e := by with_reducible assumption) ?_
    | with_reducible refine kept_of_sndSnd_eq (e := by with_reducible assumption) ?_
    | with_reducible refine kept_ite (fun _ => ?_) (fun _ => ?_)
    | split
    | dsimp only

theorem execLinkEnableWrite_kept {Q : List Instr} (now : Nat) (link : Nat) (v : Bool) (by_ : Writer) (s : State) (hs : s.Kept Q) {t : State} (e : execLinkEnableWrite now link v by_ s = .next t) : t.Kept Q := by
  unfold execLinkEnableWrite at e
  injection e with e
  subst e
  repeat' first
    | with_reducible assumption
    | with_reducible apply State.advance_kept
    | with_reducible apply State.setFld_kept
    | with_reducible apply State.linkFail_kept
    | intro _
    | with_reducible refine kept_ite (fun _ => ?_) (fun _ => ?_)
    | split
    | dsimp only

theorem State.retrainStart_kept {Q : List Instr} (s : State) (n : Nat) (hs : s.Kept Q) : (State.retrainStart s n).Kept Q := by
  unfold State.retrainStart
  repeat' first
    | with_reducible assumption
    | with_reducible apply State.raise_kept
    | with_reducible apply State.addSat_kept
    | with_reducible apply State.setFld_kept
    | with_reducible apply State.setLink_kept
    | intro _
    | split
    | dsimp only

theorem State.resendAll_kept {Q : List Instr} (s : State) (n : Nat) (hs : s.Kept Q) : (State.resendAll s n).Kept Q := by
  unfold State.resendAll
  repeat' first
    | with_reducible assumption
    | with_reducible apply State.setLink_kept
    | intro _
    | split
    | simp only [↓keptVia_fst, ↓keptVia_snd, ↓keptVia_sndFst, ↓keptVia_sndSnd]
    | with_reducible refine KeptVia.of _ ?_
    | dsimp only

theorem State.resend_kept {Q : List Instr} (s : State) (n : Nat) (hs : s.Kept Q) : (State.resend s n).Kept Q := by
  unfold State.resend
  repeat' first
    | with_reducible assumption
    | with_reducible apply State.count_kept
    | with_reducible apply State.addSat_kept
    | with_reducible apply State.resendAll_kept
    | with_reducible apply State.setLink_kept
    | with_reducible apply State.retrainStart_kept
    | intro _
    | with_reducible refine kept_ite (fun _ => ?_) (fun _ => ?_)
    | with_reducible refine keptVia_ite (fun _ => ?_) (fun _ => ?_)
    | split
    | simp only [↓keptVia_fst, ↓keptVia_snd, ↓keptVia_sndFst, ↓keptVia_sndSnd]
    | with_reducible refine KeptVia.of _ ?_
    | dsimp only

theorem execRetryTimeout_kept {Q : List Instr} (now : Nat) (link : Nat) (s : State) (hs : s.Kept Q) {t : State} (e : execRetryTimeout now link s = .next t) : t.Kept Q := by
  unfold execRetryTimeout at e
  injection e with e
  subst e
  repeat' first
    | with_reducible assumption
    | with_reducible apply State.advance_kept
    | with_reducible apply State.resend_kept
    | intro _
    | with_reducible refine kept_ite (fun _ => ?_) (fun _ => ?_)
    | split
    | dsimp only

theorem execLinkRetrainOrder_kept {Q : List Instr} (now : Nat) (link : Nat) (by_ : Writer) (s : State) (hs : s.Kept Q) {t : State} (e : execLinkRetrainOrder now link by_ s = .next t) : t.Kept Q := by
  unfold execLinkRetrainOrder at e
  injection e with e
  subst e
  repeat' first
    | with_reducible assumption
    | with_reducible apply State.advance_kept
    | with_reducible apply State.retrainStart_kept
    | intro _
    | with_reducible refine kept_ite (fun _ => ?_) (fun _ => ?_)
    | split
    | dsimp only

theorem State.installKey_kept {Q : List Instr} (s : State) (n : Nat) (hs : s.Kept Q) : (State.installKey s n).Kept Q := by
  unfold State.installKey
  repeat' first
    | with_reducible assumption
    | with_reducible apply State.addWrap_kept
    | with_reducible apply State.setFld_kept
    | with_reducible apply State.setLink_kept
    | intro _
    | with_reducible refine kept_ite (fun _ => ?_) (fun _ => ?_)
    | with_reducible refine keptVia_ite (fun _ => ?_) (fun _ => ?_)
    | split
    | simp only [↓keptVia_fst, ↓keptVia_snd, ↓keptVia_sndFst, ↓keptVia_sndSnd]
    | with_reducible refine KeptVia.of _ ?_
    | dsimp only

theorem State.setRtt_kept {Q : List Instr} (s : State) (n : Nat) (rtt : Nat) (hs : s.Kept Q) : (State.setRtt s n rtt).Kept Q := by
  unfold State.setRtt
  repeat' first
    | with_reducible assumption
    | with_reducible apply State.setFld_kept
    | intro _
    | split
    | dsimp only

theorem execLinkFullRetrain_kept {Q : List Instr} (now : Nat) (link : Nat) (rttNs : Nat) (placed : Bool) (s : State) (hs : s.Kept Q) {t : State} (e : execLinkFullRetrain now link rttNs placed s = .next t) : t.Kept Q := by
  unfold execLinkFullRetrain at e
  injection e with e
  subst e
  repeat' first
    | with_reducible assumption
    | with_reducible apply State.advance_kept
    | with_reducible apply State.retrainStart_kept
    | with_reducible apply State.linkFail_kept
    | with_reducible apply State.setRtt_kept
    | with_reducible apply State.installKey_kept
    | with_reducible apply State.setFld_kept
    | with_reducible apply State.setLink_kept
    | with_reducible apply State.pumpAll_kept
    | with_reducible apply State.resendAll_kept
    | intro _
    | with_reducible refine kept_ite (fun _ => ?_) (fun _ => ?_)
    | with_reducible refine keptVia_ite (fun _ => ?_) (fun _ => ?_)
    | split
    | simp only [↓keptVia_fst, ↓keptVia_snd, ↓keptVia_sndFst, ↓keptVia_sndSnd]
    | with_reducible refine KeptVia.of _ ?_
    | dsimp only

theorem execLinkRetrainTimeout_kept {Q : List Instr} (now : Nat) (link : Nat) (s : State) (hs : s.Kept Q) {t : State} (e : execLinkRetrainTimeout now link s = .next t) : t.Kept Q := by
  unfold execLinkRetrainTimeout at e
  injection e with e
  subst e
  repeat' first
    | with_reducible assumption
    | with_reducible apply State.advance_kept
    | with_reducible apply State.linkFail_kept
    | intro _
    | with_reducible refine kept_of_fst_eq (e := by with_reducible assumption) ?_
    | with_reducible refine kept_of_snd_eq (e := by with_reducible assumption) ?_
    | with_reducible refine kept_of_sndFst_eq (e := by with_reducible assumption) ?_
    | with_reducible refine kept_of_sndSnd_eq (e := by with_reducible assumption) ?_
    | with_reducible refine kept_ite (fun _ => ?_) (fun _ => ?_)
    | split
    | dsimp only

theorem State.swapLane_kept {Q : List Instr} (s : State) (n : Nat) (lo : Nat) (old : Nat) (new : Nat) (hs : s.Kept Q) : (State.swapLane s n lo old new).Kept Q := by
  unfold State.swapLane
  repeat' first
    | with_reducible assumption
    | with_reducible apply State.raise_kept
    | with_reducible apply State.setFld_kept
    | intro _
    | with_reducible refine kept_ite (fun _ => ?_) (fun _ => ?_)
    | split
    | dsimp only

theorem execLaneSwap_kept {Q : List Instr} (link : Nat) (rx : Bool) (lane : Nat) (s : State) (hs : s.Kept Q) {t : State} (e : execLaneSwap link rx lane s = .next t) : t.Kept Q := by
  unfold execLaneSwap at e
  injection e with e
  subst e
  repeat' first
    | with_reducible assumption
    | with_reducible apply State.retrainStart_kept
    | with_reducible apply State.drawNat_kept
    | with_reducible apply State.sendHop_kept
    | with_reducible apply State.swapLane_kept
    | with_reducible refine State.takeBead_kept (e := by with_reducible assumption) (hs := ?_) ..
    | intro _
    | with_reducible refine kept_of_fst_eq (e := by with_reducible assumption) ?_
    | with_reducible refine kept_of_snd_eq (e := by with_reducible assumption) ?_
    | with_reducible refine kept_of_sndFst_eq (e := by with_reducible assumption) ?_
    | with_reducible refine kept_of_sndSnd_eq (e := by with_reducible assumption) ?_
    | with_reducible refine kept_ite (fun _ => ?_) (fun _ => ?_)
    | split
    | dsimp only

theorem State.linkComesUp_kept {Q : List Instr} (s : State) (n : Nat) (hs : s.Kept Q) : (State.linkComesUp s n).Kept Q := by
  unfold State.linkComesUp
  repeat' first
    | with_reducible assumption
    | with_reducible apply State.raise_kept
    | with_reducible apply State.level_kept
    | with_reducible apply State.setFld_kept
    | with_reducible apply State.setLink_kept
    | intro _
    | split
    | simp only [↓keptVia_fst, ↓keptVia_snd, ↓keptVia_sndFst, ↓keptVia_sndSnd]
    | with_reducible refine KeptVia.of _ ?_
    | dsimp only

theorem execLinkTraining_kept {Q : List Instr} (now : Nat) (link : Nat) (screenOk : Bool) (s : State) (hs : s.Kept Q) {t : State} (e : execLinkTraining now link screenOk s = .next t) : t.Kept Q := by
  unfold execLinkTraining at e
  injection e with e
  subst e
  repeat' first
    | with_reducible assumption
    | with_reducible apply State.advance_kept
    | with_reducible apply State.setFld_kept
    | with_reducible apply State.setLink_kept
    | with_reducible apply State.raise_kept
    | with_reducible apply State.linkFail_kept
    | with_reducible apply State.linkComesUp_kept
    | intro _
    | with_reducible refine kept_of_fst_eq (e := by with_reducible assumption) ?_
    | with_reducible refine kept_of_snd_eq (e := by with_reducible assumption) ?_
    | with_reducible refine kept_of_sndFst_eq (e := by with_reducible assumption) ?_
    | with_reducible refine kept_of_sndSnd_eq (e := by with_reducible assumption) ?_
    | with_reducible refine kept_ite (fun _ => ?_) (fun _ => ?_)
    | split
    | dsimp only

theorem execTrain_kept {Q : List Instr} (now : Nat) (link : Nat) (b : Bead) (s : State) (hs : s.Kept Q) {t : State} (e : execTrain now link b s = .next t) : t.Kept Q := by
  unfold execTrain at e
  injection e with e
  subst e
  repeat' first
    | with_reducible assumption
    | with_reducible apply State.advance_kept
    | with_reducible apply State.setFld_kept
    | with_reducible apply State.setLink_kept
    | with_reducible apply State.setRtt_kept
    | with_reducible apply State.raise_kept
    | with_reducible apply State.linkFail_kept
    | with_reducible apply State.answer_kept
    | intro _
    | with_reducible refine kept_ite (fun _ => ?_) (fun _ => ?_)
    | with_reducible refine keptVia_ite (fun _ => ?_) (fun _ => ?_)
    | split
    | simp only [↓keptVia_fst, ↓keptVia_snd, ↓keptVia_sndFst, ↓keptVia_sndSnd]
    | with_reducible refine KeptVia.of _ ?_
    | dsimp only

theorem State.takeAck_kept {Q : List Instr} (s : State) (n : Nat) (ack : Nat) (hs : s.Kept Q) : (State.takeAck s n ack).Kept Q := by
  unfold State.takeAck
  repeat' first
    | with_reducible assumption
    | with_reducible apply State.setLink_kept
    | intro _
    | with_reducible refine kept_of_fst_eq (e := by with_reducible assumption) ?_
    | with_reducible refine kept_of_snd_eq (e := by with_reducible assumption) ?_
    | with_reducible refine kept_of_sndFst_eq (e := by with_reducible assumption) ?_
    | with_reducible refine kept_of_sndSnd_eq (e := by with_reducible assumption) ?_
    | with_reducible refine kept_ite (fun _ => ?_) (fun _ => ?_)
    | split
    | dsimp only

theorem State.takeBeadIn_kept {Q : List Instr} (s : State) (n : Nat) (sealed_ : Bool) (b : Bead) (hs : s.Kept Q) : (State.takeBeadIn s n sealed_ b).Kept Q := by
  unfold State.takeBeadIn
  repeat' first
    | with_reducible assumption
    | with_reducible apply State.isodrop_kept
    | with_reducible apply State.setLink_kept
    | intro _
    | with_reducible refine kept_ite (fun _ => ?_) (fun _ => ?_)
    | with_reducible refine keptVia_ite (fun _ => ?_) (fun _ => ?_)
    | split
    | simp only [↓keptVia_fst, ↓keptVia_snd, ↓keptVia_sndFst, ↓keptVia_sndSnd]
    | with_reducible refine KeptVia.of _ ?_
    | dsimp only

theorem State.owe_kept {Q : List Instr} (s : State) (n : Nat) (hs : s.Kept Q) : (State.owe s n).Kept Q := by
  unfold State.owe
  repeat' first
    | with_reducible assumption
    | with_reducible apply State.setLink_kept
    | intro _
    | split
    | dsimp only

theorem execFrameReceive_kept {Q : List Instr} (now : Nat) (link : Nat) (frame : List Byte) (s : State) (hs : s.Kept Q) {t : State} (e : execFrameReceive now link frame s = .next t) : t.Kept Q := by
  unfold execFrameReceive at e
  injection e with e
  subst e
  repeat' first
    | with_reducible assumption
    | with_reducible apply State.advance_kept
    | with_reducible apply State.addSat_kept
    | with_reducible apply State.owe_kept
    | with_reducible apply State.takeAck_kept
    | with_reducible apply State.setLink_kept
    | with_reducible apply State.resend_kept
    | with_reducible apply State.takeBeadIn_kept
    | with_reducible apply State.pumpAll_kept
    | with_reducible apply foldl_kept
    | with_reducible apply foldl_kept_fst
    | with_reducible apply foldl_kept_snd
    | intro _
    | with_reducible refine kept_of_fst_eq (e := by with_reducible assumption) ?_
    | with_reducible refine kept_of_snd_eq (e := by with_reducible assumption) ?_
    | with_reducible refine kept_of_sndFst_eq (e := by with_reducible assumption) ?_
    | with_reducible refine kept_of_sndSnd_eq (e := by with_reducible assumption) ?_
    | with_reducible refine kept_ite (fun _ => ?_) (fun _ => ?_)
    | with_reducible refine keptVia_ite (fun _ => ?_) (fun _ => ?_)
    | split
    | simp only [↓keptVia_fst, ↓keptVia_snd, ↓keptVia_sndFst, ↓keptVia_sndSnd]
    | with_reducible refine KeptVia.of _ ?_
    | dsimp only

end Sys2Proof.Machine
end

