-- ==== Sys2Proof/Laws/KeptFabric.lean ====
section
/-!
SUPPORT. What every operation of Machine/Fabric.lean keeps: the queue, and the canonical form of memory.
-/

set_option linter.unusedVariables false
set_option linter.unusedSimpArgs false

namespace Sys2Proof.Machine

theorem State.sendAck_kept {Q : List Instr} (s : State) (i : Nat) (h : Bead) (result : Nat) (hs : s.Kept Q) : (State.sendAck s i h result).Kept Q := by
  unfold State.sendAck
  repeat' first
    | with_reducible assumption
    | with_reducible apply State.route_kept
    | intro _
    | split
    | dsimp only

theorem State.takeChunk_kept {Q : List Instr} (s : State) (i : Nat) (link : Nat) (m : Msg) (hs : s.Kept Q) : (State.takeChunk s i link m).Kept Q := by
  unfold State.takeChunk
  repeat' first
    | with_reducible assumption
    | with_reducible apply State.sendAck_kept
    | with_reducible apply State.bezelRefuse_kept
    | with_reducible apply State.isodrop_kept
    | with_reducible apply State.drawBytes_kept
    | with_reducible apply State.store_kept
    | with_reducible apply State.storeBy_kept
    | with_reducible apply State.count_kept
    | with_reducible apply State.recPut_kept
    | with_reducible apply foldl_kept
    | intro _
    | with_reducible refine kept_ite (fun _ => ?_) (fun _ => ?_)
    | split
    | dsimp only

theorem execMsgHead_kept {Q : List Instr} (now : Nat) (link : Nat) (m : Msg) (s : State) (hs : s.Kept Q) {t : State} (e : execMsgHead now link m s = .next t) : t.Kept Q := by
  unfold execMsgHead at e
  injection e with e
  subst e
  repeat' first
    | with_reducible assumption
    | with_reducible apply State.advance_kept
    | with_reducible refine State.admit_kept (e := by with_reducible assumption) (hs := ?_) ..
    | with_reducible apply State.takeChunk_kept
    | with_reducible apply State.forward_kept
    | intro _
    | with_reducible refine kept_of_fst_eq (e := by with_reducible assumption) ?_
    | with_reducible refine kept_of_snd_eq (e := by with_reducible assumption) ?_
    | with_reducible refine kept_of_sndFst_eq (e := by with_reducible assumption) ?_
    | with_reducible refine kept_of_sndSnd_eq (e := by with_reducible assumption) ?_
    | with_reducible refine kept_ite (fun _ => ?_) (fun _ => ?_)
    | split
    | dsimp only

theorem execAck_kept {Q : List Instr} (now : Nat) (link : Nat) (b : Bead) (s : State) (hs : s.Kept Q) {t : State} (e : execAck now link b s = .next t) : t.Kept Q := by
  unfold execAck at e
  injection e with e
  subst e
  repeat' first
    | with_reducible assumption
    | with_reducible apply State.advance_kept
    | with_reducible refine State.admit_kept (e := by with_reducible assumption) (hs := ?_) ..
    | with_reducible apply State.forward_kept
    | with_reducible apply State.addSat_kept
    | with_reducible apply State.ackMover_kept
    | intro _
    | with_reducible refine kept_of_fst_eq (e := by with_reducible assumption) ?_
    | with_reducible refine kept_of_snd_eq (e := by with_reducible assumption) ?_
    | with_reducible refine kept_of_sndFst_eq (e := by with_reducible assumption) ?_
    | with_reducible refine kept_of_sndSnd_eq (e := by with_reducible assumption) ?_
    | with_reducible refine kept_ite (fun _ => ?_) (fun _ => ?_)
    | split
    | dsimp only

theorem execClaspBead_kept {Q : List Instr} (link : Nat) (b : Bead) (s : State) (hs : s.Kept Q) {t : State} (e : execClaspBead link b s = .next t) : t.Kept Q := by
  unfold execClaspBead at e
  injection e with e
  subst e
  repeat' first
    | with_reducible assumption
    | with_reducible refine State.admit_kept (e := by with_reducible assumption) (hs := ?_) ..
    | with_reducible apply State.forward_kept
    | with_reducible apply State.isodrop_kept
    | with_reducible apply State.bezelRefuse_kept
    | with_reducible apply State.signal_kept
    | intro _
    | with_reducible refine kept_of_fst_eq (e := by with_reducible assumption) ?_
    | with_reducible refine kept_of_snd_eq (e := by with_reducible assumption) ?_
    | with_reducible refine kept_of_sndFst_eq (e := by with_reducible assumption) ?_
    | with_reducible refine kept_of_sndSnd_eq (e := by with_reducible assumption) ?_
    | with_reducible refine kept_ite (fun _ => ?_) (fun _ => ?_)
    | split
    | dsimp only

theorem execAbortBead_kept {Q : List Instr} (now : Nat) (link : Nat) (b : Bead) (s : State) (hs : s.Kept Q) {t : State} (e : execAbortBead now link b s = .next t) : t.Kept Q := by
  unfold execAbortBead at e
  injection e with e
  subst e
  repeat' first
    | with_reducible assumption
    | with_reducible apply State.advance_kept
    | with_reducible refine State.takeBead_kept (e := by with_reducible assumption) (hs := ?_) ..
    | with_reducible apply State.isodrop_kept
    | with_reducible apply State.abortEntry_kept
    | intro _
    | with_reducible refine kept_of_fst_eq (e := by with_reducible assumption) ?_
    | with_reducible refine kept_of_snd_eq (e := by with_reducible assumption) ?_
    | with_reducible refine kept_of_sndFst_eq (e := by with_reducible assumption) ?_
    | with_reducible refine kept_of_sndSnd_eq (e := by with_reducible assumption) ?_
    | with_reducible refine kept_ite (fun _ => ?_) (fun _ => ?_)
    | split
    | dsimp only

end Sys2Proof.Machine
end

