-- ==== Sys2Proof/Laws/KeptTimeSync.lean ====
section
/-!
SUPPORT. What every operation of Machine/TimeSync.lean keeps: the queue, and the canonical form of memory.
-/

set_option linter.unusedVariables false
set_option linter.unusedSimpArgs false

namespace Sys2Proof.Machine

theorem State.reportReady_kept {Q : List Instr} (s : State) (hs : s.Kept Q) : (State.reportReady s).Kept Q := by
  unfold State.reportReady
  repeat' first
    | with_reducible assumption
    | with_reducible apply State.drawNat_kept
    | with_reducible apply State.setReg_kept
    | with_reducible apply State.trayRec_kept
    | intro _
    | with_reducible apply State.Kept.both
    | with_reducible apply State.Kept.split_
    | with_reducible refine State.Kept.wf (q := Q) ?_
    | with_reducible refine kept_ite (fun _ => ?_) (fun _ => ?_)
    | split
    | simp only [↓State.kept_mk]
    | dsimp only

theorem State.tryReady_kept {Q : List Instr} (s : State) (hs : s.Kept Q) : (State.tryReady s).Kept Q := by
  unfold State.tryReady
  repeat' first
    | with_reducible assumption
    | with_reducible apply State.reportReady_kept
    | intro _
    | with_reducible refine kept_ite (fun _ => ?_) (fun _ => ?_)
    | split
    | dsimp only

theorem State.setErr_kept {Q : List Instr} (s : State) (e : Nat) (hs : s.Kept Q) : (State.setErr s e).Kept Q := by
  unfold State.setErr
  repeat' first
    | with_reducible assumption
    | with_reducible apply State.setFld_kept
    | with_reducible apply State.raise_kept
    | intro _
    | with_reducible refine kept_ite (fun _ => ?_) (fun _ => ?_)
    | split
    | dsimp only

theorem State.freshErr_kept {Q : List Instr} (s : State) (depth : Nat) (hs : s.Kept Q) : (State.freshErr s depth).Kept Q := by
  unfold State.freshErr
  repeat' first
    | with_reducible assumption
    | with_reducible apply State.drawNat_kept
    | with_reducible apply State.setErr_kept
    | intro _
    | split
    | dsimp only

theorem State.chooseParent_kept {Q : List Instr} (s : State) (hs : s.Kept Q) : (State.chooseParent s).Kept Q := by
  unfold State.chooseParent
  repeat' first
    | with_reducible assumption
    | with_reducible apply State.setFld_kept
    | with_reducible apply State.addSat_kept
    | intro _
    | with_reducible refine kept_of_fst_eq (e := by with_reducible assumption) ?_
    | with_reducible refine kept_of_snd_eq (e := by with_reducible assumption) ?_
    | with_reducible refine kept_of_sndFst_eq (e := by with_reducible assumption) ?_
    | with_reducible refine kept_of_sndSnd_eq (e := by with_reducible assumption) ?_
    | with_reducible refine kept_ite (fun _ => ?_) (fun _ => ?_)
    | split
    | dsimp only

theorem execTimeBeadSend_kept {Q : List Instr} (now : Nat) (link : Nat) (s : State) (hs : s.Kept Q) {t : State} (e : execTimeBeadSend now link s = .next t) : t.Kept Q := by
  unfold execTimeBeadSend at e
  injection e with e
  subst e
  repeat' first
    | with_reducible assumption
    | with_reducible apply State.advance_kept
    | with_reducible apply State.sendHop_kept
    | with_reducible apply State.setLink_kept
    | intro _
    | with_reducible refine kept_of_fst_eq (e := by with_reducible assumption) ?_
    | with_reducible refine kept_of_snd_eq (e := by with_reducible assumption) ?_
    | with_reducible refine kept_of_sndFst_eq (e := by with_reducible assumption) ?_
    | with_reducible refine kept_of_sndSnd_eq (e := by with_reducible assumption) ?_
    | with_reducible refine kept_ite (fun _ => ?_) (fun _ => ?_)
    | with_reducible refine keptVia_ite (fun _ => ?_) (fun _ => ?_)
    | split
    | simp only [↓keptVia_fst, ↓keptVia_snd, ↓keptVia_sndFst, ↓keptVia_sndSnd]
    | with_reducible refine KeptVia.of _ ?_
    | dsimp only

theorem State.slew_kept {Q : List Instr} (s : State) (theta : Int) (hs : s.Kept Q) : (State.slew s theta).Kept Q := by
  unfold State.slew
  repeat' first
    | with_reducible assumption
    | with_reducible apply State.drawNat_kept
    | with_reducible apply State.setFld_kept
    | intro _
    | with_reducible refine kept_ite (fun _ => ?_) (fun _ => ?_)
    | split
    | dsimp only

theorem execTimeBead_kept {Q : List Instr} (now : Nat) (link : Nat) (b : Bead) (s : State) (hs : s.Kept Q) {t : State} (e : execTimeBead now link b s = .next t) : t.Kept Q := by
  unfold execTimeBead at e
  injection e with e
  subst e
  repeat' first
    | with_reducible assumption
    | with_reducible apply State.advance_kept
    | with_reducible refine State.takeBead_kept (e := by with_reducible assumption) (hs := ?_) ..
    | with_reducible apply State.chooseParent_kept
    | with_reducible apply State.setLink_kept
    | with_reducible apply State.tryReady_kept
    | with_reducible apply State.freshErr_kept
    | with_reducible apply State.setFld_kept
    | with_reducible apply State.slew_kept
    | intro _
    | with_reducible refine kept_of_fst_eq (e := by with_reducible assumption) ?_
    | with_reducible refine kept_of_snd_eq (e := by with_reducible assumption) ?_
    | with_reducible refine kept_of_sndFst_eq (e := by with_reducible assumption) ?_
    | with_reducible refine kept_of_sndSnd_eq (e := by with_reducible assumption) ?_
    | with_reducible apply State.Kept.both
    | with_reducible apply State.Kept.split_
    | with_reducible refine State.Kept.wf (q := Q) ?_
    | with_reducible refine kept_ite (fun _ => ?_) (fun _ => ?_)
    | with_reducible refine keptVia_ite (fun _ => ?_) (fun _ => ?_)
    | split
    | simp only [↓State.kept_mk, ↓keptVia_fst, ↓keptVia_snd, ↓keptVia_sndFst, ↓keptVia_sndSnd]
    | with_reducible refine KeptVia.of _ ?_
    | dsimp only

theorem execTimeParentLoss_kept {Q : List Instr} (now : Nat) (s : State) (hs : s.Kept Q) {t : State} (e : execTimeParentLoss now s = .next t) : t.Kept Q := by
  unfold execTimeParentLoss at e
  injection e with e
  subst e
  repeat' first
    | with_reducible assumption
    | with_reducible apply State.advance_kept
    | with_reducible apply State.setErr_kept
    | with_reducible apply State.chooseParent_kept
    | with_reducible apply State.setLink_kept
    | intro _
    | with_reducible refine kept_of_fst_eq (e := by with_reducible assumption) ?_
    | with_reducible refine kept_of_snd_eq (e := by with_reducible assumption) ?_
    | with_reducible refine kept_of_sndFst_eq (e := by with_reducible assumption) ?_
    | with_reducible refine kept_of_sndSnd_eq (e := by with_reducible assumption) ?_
    | with_reducible refine kept_ite (fun _ => ?_) (fun _ => ?_)
    | split
    | dsimp only

theorem execMasterTimeTimeout_kept {Q : List Instr} (now : Nat) (s : State) (hs : s.Kept Q) {t : State} (e : execMasterTimeTimeout now s = .next t) : t.Kept Q := by
  unfold execMasterTimeTimeout at e
  injection e with e
  subst e
  repeat' first
    | with_reducible assumption
    | with_reducible apply State.advance_kept
    | with_reducible apply State.tryReady_kept
    | with_reducible apply State.freshErr_kept
    | with_reducible apply State.chooseParent_kept
    | with_reducible apply State.setFld_kept
    | intro _
    | with_reducible refine kept_ite (fun _ => ?_) (fun _ => ?_)
    | split
    | dsimp only

theorem execReferenceLoss_kept {Q : List Instr} (s : State) (hs : s.Kept Q) {t : State} (e : execReferenceLoss s = .next t) : t.Kept Q := by
  unfold execReferenceLoss at e
  injection e with e
  subst e
  repeat' first
    | with_reducible assumption
    | with_reducible apply State.level_kept
    | with_reducible apply State.raise_kept
    | with_reducible apply State.addSat_kept
    | with_reducible apply State.setFld_kept
    | intro _
    | with_reducible refine kept_ite (fun _ => ?_) (fun _ => ?_)
    | split
    | dsimp only

theorem execReferenceReturn_kept {Q : List Instr} (now : Nat) (s : State) (hs : s.Kept Q) {t : State} (e : execReferenceReturn now s = .next t) : t.Kept Q := by
  unfold execReferenceReturn at e
  injection e with e
  subst e
  repeat' first
    | with_reducible assumption
    | with_reducible apply State.advance_kept
    | with_reducible apply State.level_kept
    | with_reducible apply State.setFld_kept
    | intro _
    | with_reducible refine kept_ite (fun _ => ?_) (fun _ => ?_)
    | split
    | dsimp only

theorem execSpeedMonitorUpdate_kept {Q : List Instr} (die : Nat) (rate : Nat) (junc : Nat) (opReached : Bool) (s : State) (hs : s.Kept Q) {t : State} (e : execSpeedMonitorUpdate die rate junc opReached s = .next t) : t.Kept Q := by
  unfold execSpeedMonitorUpdate at e
  injection e with e
  subst e
  repeat' first
    | with_reducible assumption
    | with_reducible apply State.setFld_kept
    | intro _
    | with_reducible refine kept_ite (fun _ => ?_) (fun _ => ?_)
    | split
    | dsimp only

end Sys2Proof.Machine
end

