-- ==== Sys2Proof/Laws/KeptManage.lean ====
section
/-!
SUPPORT. What every operation of Machine/Manage.lean keeps: the queue, and the canonical form of memory.
-/

set_option linter.unusedVariables false
set_option linter.unusedSimpArgs false

namespace Sys2Proof.Machine

theorem State.setPin_kept {Q : List Instr} (s : State) (bit : Nat) (v : Bool) (hs : s.Kept Q) : (State.setPin s bit v).Kept Q := by
  unfold State.setPin
  repeat' first
    | with_reducible assumption
    | with_reducible apply State.setLevel_kept
    | intro _
    | split
    | dsimp only

theorem State.ibi_kept {Q : List Instr} (s : State) (n : Nat) (hs : s.Kept Q) : (State.ibi s n).Kept Q := by
  unfold State.ibi
  repeat' first
    | with_reducible assumption
    | intro _
    | with_reducible apply State.Kept.both
    | with_reducible apply State.Kept.split_
    | with_reducible refine State.Kept.wf (q := Q) ?_
    | split
    | simp only [↓State.kept_mk]
    | dsimp only

theorem State.alertLine_kept {Q : List Instr} (s : State) (hs : s.Kept Q) : (State.alertLine s).Kept Q := by
  unfold State.alertLine
  repeat' first
    | with_reducible assumption
    | with_reducible apply State.setPin_kept
    | with_reducible apply State.setFld_kept
    | intro _
    | with_reducible apply State.Kept.both
    | with_reducible apply State.Kept.split_
    | with_reducible refine State.Kept.wf (q := Q) ?_
    | split
    | simp only [↓State.kept_mk]
    | dsimp only

theorem State.queueNote_kept {Q : List Instr} (s : State) (b : List Byte) (hs : s.Kept Q) : (State.queueNote s b).Kept Q := by
  unfold State.queueNote
  repeat' first
    | with_reducible assumption
    | with_reducible apply State.addSat_kept
    | with_reducible apply State.alertLine_kept
    | with_reducible apply State.ibi_kept
    | intro _
    | with_reducible apply State.Kept.both
    | with_reducible apply State.Kept.split_
    | with_reducible refine State.Kept.wf (q := Q) ?_
    | with_reducible refine kept_ite (fun _ => ?_) (fun _ => ?_)
    | split
    | simp only [↓State.kept_mk]
    | dsimp only

theorem State.queueReply_kept {Q : List Instr} (s : State) (rseq : Nat) (b : List Byte) (hs : s.Kept Q) : (State.queueReply s rseq b).Kept Q := by
  unfold State.queueReply
  repeat' first
    | with_reducible assumption
    | with_reducible apply State.ibi_kept
    | intro _
    | with_reducible apply State.Kept.both
    | with_reducible apply State.Kept.split_
    | with_reducible refine State.Kept.wf (q := Q) ?_
    | split
    | simp only [↓State.kept_mk, ↓keptVia_fst, ↓keptVia_snd, ↓keptVia_sndFst, ↓keptVia_sndSnd]
    | with_reducible refine KeptVia.of _ ?_
    | dsimp only

theorem State.setSafe_kept {Q : List Instr} (s : State) (p : Nat) (hs : s.Kept Q) : (State.setSafe s p).Kept Q := by
  unfold State.setSafe
  repeat' first
    | with_reducible assumption
    | with_reducible apply State.setFld_kept
    | intro _
    | split
    | dsimp only

theorem State.keepalive_kept {Q : List Instr} (s : State) (p : Nat) (hs : s.Kept Q) : (State.keepalive s p).Kept Q := by
  unfold State.keepalive
  repeat' first
    | with_reducible assumption
    | with_reducible apply State.setSafe_kept
    | with_reducible apply State.setPwr_kept
    | intro _
    | split
    | dsimp only

theorem State.releaseOne_kept {Q : List Instr} (s : State) (h : HeldOut) (hs : s.Kept Q) : (State.releaseOne s h).Kept Q := by
  unfold State.releaseOne
  repeat' first
    | with_reducible assumption
    | with_reducible apply State.setFld_kept
    | with_reducible apply State.keepalive_kept
    | with_reducible apply State.queueNote_kept
    | with_reducible apply State.queueReply_kept
    | with_reducible apply State.finish_kept
    | intro _
    | with_reducible refine kept_of_fst_eq (e := by with_reducible assumption) ?_
    | with_reducible refine kept_of_snd_eq (e := by with_reducible assumption) ?_
    | with_reducible refine kept_of_sndFst_eq (e := by with_reducible assumption) ?_
    | with_reducible refine kept_of_sndSnd_eq (e := by with_reducible assumption) ?_
    | split
    | dsimp only

theorem State.releaseFirst_kept {Q : List Instr} (s : State) (n : Nat) (hs : s.Kept Q) : (State.releaseFirst s n).Kept Q := by
  unfold State.releaseFirst
  repeat' first
    | with_reducible assumption
    | with_reducible apply State.releaseOne_kept
    | with_reducible apply foldl_kept
    | intro _
    | with_reducible apply State.Kept.both
    | with_reducible apply State.Kept.split_
    | with_reducible refine State.Kept.wf (q := Q) ?_
    | with_reducible refine kept_ite (fun _ => ?_) (fun _ => ?_)
    | split
    | simp only [↓State.kept_mk]
    | dsimp only

theorem State.releaseHeld_kept {Q : List Instr} (s : State) (hs : s.Kept Q) : (State.releaseHeld s).Kept Q := by
  unfold State.releaseHeld
  repeat' first
    | with_reducible assumption
    | with_reducible apply State.releaseFirst_kept
    | intro _
    | split
    | dsimp only

theorem State.releaseSent_kept {Q : List Instr} (s : State) (hs : s.Kept Q) : (State.releaseSent s).Kept Q := by
  unfold State.releaseSent
  repeat' first
    | with_reducible assumption
    | with_reducible apply State.releaseFirst_kept
    | intro _
    | with_reducible refine kept_of_fst_eq (e := by with_reducible assumption) ?_
    | with_reducible refine kept_of_snd_eq (e := by with_reducible assumption) ?_
    | with_reducible refine kept_of_sndFst_eq (e := by with_reducible assumption) ?_
    | with_reducible refine kept_of_sndSnd_eq (e := by with_reducible assumption) ?_
    | split
    | dsimp only

theorem State.foreign_kept {Q : List Instr} (s : State) (hs : s.Kept Q) : (State.foreign s).Kept Q := by
  unfold State.foreign
  repeat' first
    | with_reducible assumption
    | with_reducible apply State.addSat_kept
    | intro _
    | split
    | dsimp only

theorem State.byOwner_kept {Q : List Instr} (s : State) (w : Writer) (f : State → State) (hs : s.Kept Q)
    (hf : ∀ s, s.Kept Q → (f s).Kept Q) : (State.byOwner s w f).Kept Q := by
  unfold State.byOwner
  split
  · split
    · exact hf _ hs
    · exact State.foreign_kept _ hs
  · exact hs

end Sys2Proof.Machine
end

