-- ==== Sys2Proof/Laws/KeptPower.lean ====
section
/-!
SUPPORT. What every operation of Machine/Power.lean keeps: the queue, and the canonical form of memory.
-/

set_option linter.unusedVariables false
set_option linter.unusedSimpArgs false

namespace Sys2Proof.Machine

theorem State.rampShort_kept {Q : List Instr} (s : State) (p : Nat) (hs : s.Kept Q) : (State.rampShort s p).Kept Q := by
  unfold State.rampShort
  repeat' first
    | with_reducible assumption
    | with_reducible apply State.raise_kept
    | with_reducible apply State.setFld_kept
    | intro _
    | split
    | dsimp only

theorem State.flushTiles_kept {Q : List Instr} (s : State) (p : Nat) (hs : s.Kept Q) : (State.flushTiles s p).Kept Q := by
  unfold State.flushTiles
  repeat' first
    | with_reducible assumption
    | with_reducible apply State.grpFlush_kept
    | with_reducible apply State.mvFlush_kept
    | with_reducible apply State.hartReset_kept
    | with_reducible apply foldl_kept
    | intro _
    | split
    | dsimp only

theorem State.loseTile_kept {Q : List Instr} (s : State) (t : Nat) (hs : s.Kept Q) : (State.loseTile s t).Kept Q := by
  unfold State.loseTile
  repeat' first
    | with_reducible assumption
    | intro _
    | with_reducible apply State.Kept.both
    | with_reducible apply State.Kept.split_
    | with_reducible apply memWf_clear
    | with_reducible refine State.Kept.wf (q := Q) ?_
    | split
    | simp only [↓State.kept_mk]
    | dsimp only

theorem State.tilesOff_kept {Q : List Instr} (s : State) (p : Nat) (hs : s.Kept Q) : (State.tilesOff s p).Kept Q := by
  unfold State.tilesOff
  repeat' first
    | with_reducible assumption
    | with_reducible apply State.flushTiles_kept
    | with_reducible apply State.loseTile_kept
    | with_reducible apply State.setPwr_kept
    | with_reducible apply State.setFld_kept
    | with_reducible apply foldl_kept
    | intro _
    | with_reducible apply State.Kept.both
    | with_reducible apply State.Kept.split_
    | with_reducible refine State.Kept.wf (q := Q) ?_
    | split
    | simp only [↓State.kept_mk]
    | dsimp only

theorem execEstimateStep_kept {Q : List Instr} (now : Nat) (p : Nat) (act : Activity) (s : State) (hs : s.Kept Q) {t : State} (e : execEstimateStep now p act s = .next t) : t.Kept Q := by
  unfold execEstimateStep at e
  injection e with e
  subst e
  repeat' first
    | with_reducible assumption
    | with_reducible apply State.advance_kept
    | with_reducible apply State.setFld_kept
    | with_reducible apply State.setPwr_kept
    | with_reducible apply State.setReg_kept
    | with_reducible apply State.rampShort_kept
    | with_reducible apply State.tilesOff_kept
    | intro _
    | with_reducible refine kept_ite (fun _ => ?_) (fun _ => ?_)
    | with_reducible refine keptVia_ite (fun _ => ?_) (fun _ => ?_)
    | split
    | simp only [↓keptVia_fst, ↓keptVia_snd, ↓keptVia_sndFst, ↓keptVia_sndSnd]
    | with_reducible refine KeptVia.of _ ?_
    | dsimp only

theorem State.allocate_kept {Q : List Instr} (s : State) (hs : s.Kept Q) : (State.allocate s).Kept Q := by
  unfold State.allocate
  repeat' first
    | with_reducible assumption
    | with_reducible apply State.setPwr_kept
    | with_reducible apply foldl_kept
    | intro _
    | split
    | dsimp only

theorem State.writeEmerg_kept {Q : List Instr} (s : State) (hs : s.Kept Q) : (State.writeEmerg s).Kept Q := by
  unfold State.writeEmerg
  repeat' first
    | with_reducible assumption
    | with_reducible apply State.setFld_kept
    | with_reducible apply foldl_kept
    | intro _
    | split
    | dsimp only

theorem State.writeLimit_kept {Q : List Instr} (s : State) (p : Nat) (hs : s.Kept Q) : (State.writeLimit s p).Kept Q := by
  unfold State.writeLimit
  repeat' first
    | with_reducible assumption
    | with_reducible apply State.setFld_kept
    | intro _
    | split
    | dsimp only

theorem State.takeRail_kept {Q : List Instr} (s : State) (smp : Telemetry) (c : Nat) (hs : s.Kept Q) : (State.takeRail s smp c).Kept Q := by
  unfold State.takeRail
  repeat' first
    | with_reducible assumption
    | with_reducible apply State.setFld_kept
    | with_reducible apply State.addWrap_kept
    | intro _
    | with_reducible refine kept_of_fst_eq (e := by with_reducible assumption) ?_
    | with_reducible refine kept_of_snd_eq (e := by with_reducible assumption) ?_
    | with_reducible refine kept_of_sndFst_eq (e := by with_reducible assumption) ?_
    | with_reducible refine kept_of_sndSnd_eq (e := by with_reducible assumption) ?_
    | with_reducible apply State.Kept.both
    | with_reducible apply State.Kept.split_
    | with_reducible refine State.Kept.wf (q := Q) ?_
    | split
    | simp only [↓State.kept_mk]
    | dsimp only

theorem State.setDivergent_kept {Q : List Instr} (s : State) (p : Nat) (v : Bool) (hs : s.Kept Q) : (State.setDivergent s p v).Kept Q := by
  unfold State.setDivergent
  repeat' first
    | with_reducible assumption
    | with_reducible apply State.setFld_kept
    | with_reducible apply State.raise_kept
    | intro _
    | with_reducible refine kept_ite (fun _ => ?_) (fun _ => ?_)
    | split
    | dsimp only

theorem State.drawBubble_kept {Q : List Instr} (s : State) (p : Nat) (hs : s.Kept Q) : (State.drawBubble s p).Kept Q := by
  unfold State.drawBubble
  repeat' first
    | with_reducible assumption
    | with_reducible apply State.setFld_kept
    | with_reducible apply State.drawNat_kept
    | intro _
    | split
    | dsimp only

theorem State.samplePart_kept {Q : List Instr} (s : State) (p : Nat) (hs : s.Kept Q) : (State.samplePart s p).Kept Q := by
  unfold State.samplePart
  repeat' first
    | with_reducible assumption
    | with_reducible apply State.setPwr_kept
    | with_reducible apply State.setDivergent_kept
    | with_reducible apply State.drawBubble_kept
    | intro _
    | with_reducible refine kept_ite (fun _ => ?_) (fun _ => ?_)
    | with_reducible refine keptVia_ite (fun _ => ?_) (fun _ => ?_)
    | split
    | simp only [↓keptVia_fst, ↓keptVia_snd, ↓keptVia_sndFst, ↓keptVia_sndSnd]
    | with_reducible refine KeptVia.of _ ?_
    | dsimp only

theorem execTelemetrySample_kept {Q : List Instr} (now : Nat) (smp : Telemetry) (s : State) (hs : s.Kept Q) {t : State} (e : execTelemetrySample now smp s = .next t) : t.Kept Q := by
  unfold execTelemetrySample at e
  injection e with e
  subst e
  repeat' first
    | with_reducible assumption
    | with_reducible apply State.advance_kept
    | with_reducible apply State.takeRail_kept
    | with_reducible apply State.setFld_kept
    | with_reducible apply State.level_kept
    | with_reducible apply State.samplePart_kept
    | with_reducible apply State.allocate_kept
    | with_reducible apply State.setPwr_kept
    | with_reducible apply State.writeLimit_kept
    | with_reducible apply foldl_kept
    | with_reducible apply foldl_kept_fst
    | with_reducible apply foldl_kept_snd
    | intro _
    | with_reducible apply State.Kept.both
    | with_reducible apply State.Kept.split_
    | with_reducible refine State.Kept.wf (q := Q) ?_
    | with_reducible refine kept_ite (fun _ => ?_) (fun _ => ?_)
    | with_reducible refine keptVia_ite (fun _ => ?_) (fun _ => ?_)
    | split
    | simp only [↓State.kept_mk, ↓keptVia_fst, ↓keptVia_snd, ↓keptVia_sndFst, ↓keptVia_sndSnd]
    | with_reducible refine KeptVia.of _ ?_
    | dsimp only

theorem State.thermalStep_kept {Q : List Instr} (s : State) (p : Nat) (hs : s.Kept Q) : (State.thermalStep s p).Kept Q := by
  unfold State.thermalStep
  repeat' first
    | with_reducible assumption
    | with_reducible apply State.setPwr_kept
    | with_reducible apply State.raise_kept
    | intro _
    | with_reducible refine kept_of_fst_eq (e := by with_reducible assumption) ?_
    | with_reducible refine kept_of_snd_eq (e := by with_reducible assumption) ?_
    | with_reducible refine kept_of_sndFst_eq (e := by with_reducible assumption) ?_
    | with_reducible refine kept_of_sndSnd_eq (e := by with_reducible assumption) ?_
    | with_reducible refine kept_ite (fun _ => ?_) (fun _ => ?_)
    | split
    | dsimp only

theorem State.inletCheck_kept {Q : List Instr} (s : State) (hs : s.Kept Q) : (State.inletCheck s).Kept Q := by
  unfold State.inletCheck
  repeat' first
    | with_reducible assumption
    | with_reducible apply State.level_kept
    | with_reducible apply State.setFld_kept
    | intro _
    | split
    | dsimp only

theorem State.heatMark_kept {Q : List Instr} (s : State) (hs : s.Kept Q) : (State.heatMark s).Kept Q := by
  unfold State.heatMark
  repeat' first
    | with_reducible assumption
    | intro _
    | with_reducible apply State.Kept.both
    | with_reducible apply State.Kept.split_
    | with_reducible refine State.Kept.wf (q := Q) ?_
    | with_reducible refine kept_ite (fun _ => ?_) (fun _ => ?_)
    | split
    | simp only [↓State.kept_mk]
    | dsimp only

theorem State.setShed_kept {Q : List Instr} (s : State) (p : Nat) (v : Bool) (hs : s.Kept Q) : (State.setShed s p v).Kept Q := by
  unfold State.setShed
  repeat' first
    | with_reducible assumption
    | with_reducible apply State.setFld_kept
    | intro _
    | split
    | dsimp only

theorem execShedStep_kept {Q : List Instr} (now : Nat) (s : State) (hs : s.Kept Q) {t : State} (e : execShedStep now s = .next t) : t.Kept Q := by
  unfold execShedStep at e
  injection e with e
  subst e
  repeat' first
    | with_reducible assumption
    | with_reducible apply State.heatMark_kept
    | with_reducible apply State.advance_kept
    | with_reducible apply State.raise_kept
    | with_reducible apply State.setShed_kept
    | intro _
    | with_reducible refine kept_of_fst_eq (e := by with_reducible assumption) ?_
    | with_reducible refine kept_of_snd_eq (e := by with_reducible assumption) ?_
    | with_reducible refine kept_of_sndFst_eq (e := by with_reducible assumption) ?_
    | with_reducible refine kept_of_sndSnd_eq (e := by with_reducible assumption) ?_
    | with_reducible apply State.Kept.both
    | with_reducible apply State.Kept.split_
    | with_reducible refine State.Kept.wf (q := Q) ?_
    | with_reducible refine kept_ite (fun _ => ?_) (fun _ => ?_)
    | split
    | simp only [↓State.kept_mk]
    | dsimp only

theorem State.emergLine_kept {Q : List Instr} (s : State) (hs : s.Kept Q) : (State.emergLine s).Kept Q := by
  unfold State.emergLine
  repeat' first
    | with_reducible assumption
    | with_reducible apply State.setFld_kept
    | with_reducible apply State.level_kept
    | with_reducible apply foldl_kept
    | intro _
    | split
    | dsimp only

theorem execOverPowerTrip_kept {Q : List Instr} (now : Nat) (s : State) (hs : s.Kept Q) {t : State} (e : execOverPowerTrip now s = .next t) : t.Kept Q := by
  unfold execOverPowerTrip at e
  injection e with e
  subst e
  repeat' first
    | with_reducible assumption
    | with_reducible apply State.advance_kept
    | with_reducible apply State.emergLine_kept
    | with_reducible apply State.raise_kept
    | with_reducible apply State.setFld_kept
    | intro _
    | with_reducible apply State.Kept.both
    | with_reducible apply State.Kept.split_
    | with_reducible refine State.Kept.wf (q := Q) ?_
    | split
    | simp only [↓State.kept_mk]
    | dsimp only

theorem execOverPowerRelease_kept {Q : List Instr} (now : Nat) (s : State) (hs : s.Kept Q) {t : State} (e : execOverPowerRelease now s = .next t) : t.Kept Q := by
  unfold execOverPowerRelease at e
  injection e with e
  subst e
  repeat' first
    | with_reducible assumption
    | with_reducible apply State.advance_kept
    | with_reducible apply State.emergLine_kept
    | intro _
    | with_reducible apply State.Kept.both
    | with_reducible apply State.Kept.split_
    | with_reducible refine State.Kept.wf (q := Q) ?_
    | with_reducible refine kept_ite (fun _ => ?_) (fun _ => ?_)
    | split
    | simp only [↓State.kept_mk]
    | dsimp only

theorem State.pwrlimPin_kept {Q : List Instr} (s : State) (high : Bool) (hs : s.Kept Q) : (State.pwrlimPin s high).Kept Q := by
  unfold State.pwrlimPin
  repeat' first
    | with_reducible assumption
    | with_reducible apply State.setPin_kept
    | with_reducible apply State.setFld_kept
    | intro _
    | split
    | dsimp only

theorem execPwrlimAssert_kept {Q : List Instr} (now : Nat) (s : State) (hs : s.Kept Q) {t : State} (e : execPwrlimAssert now s = .next t) : t.Kept Q := by
  unfold execPwrlimAssert at e
  injection e with e
  subst e
  repeat' first
    | with_reducible assumption
    | with_reducible apply State.advance_kept
    | with_reducible apply State.emergLine_kept
    | with_reducible apply State.pwrlimPin_kept
    | with_reducible apply State.setFld_kept
    | intro _
    | with_reducible apply State.Kept.both
    | with_reducible apply State.Kept.split_
    | with_reducible refine State.Kept.wf (q := Q) ?_
    | with_reducible refine kept_ite (fun _ => ?_) (fun _ => ?_)
    | split
    | simp only [↓State.kept_mk]
    | dsimp only

theorem execPwrlimRelease_kept {Q : List Instr} (now : Nat) (s : State) (hs : s.Kept Q) {t : State} (e : execPwrlimRelease now s = .next t) : t.Kept Q := by
  unfold execPwrlimRelease at e
  injection e with e
  subst e
  repeat' first
    | with_reducible assumption
    | with_reducible apply State.advance_kept
    | with_reducible apply State.emergLine_kept
    | with_reducible apply State.pwrlimPin_kept
    | intro _
    | with_reducible apply State.Kept.both
    | with_reducible apply State.Kept.split_
    | with_reducible refine State.Kept.wf (q := Q) ?_
    | with_reducible refine kept_ite (fun _ => ?_) (fun _ => ?_)
    | split
    | simp only [↓State.kept_mk]
    | dsimp only

theorem State.coolFlag_kept {Q : List Instr} (s : State) (hs : s.Kept Q) : (State.coolFlag s).Kept Q := by
  unfold State.coolFlag
  repeat' first
    | with_reducible assumption
    | with_reducible apply State.setFld_kept
    | intro _
    | split
    | dsimp only

theorem execEmergencyCauseTimeout_kept {Q : List Instr} (now : Nat) (s : State) (hs : s.Kept Q) {t : State} (e : execEmergencyCauseTimeout now s = .next t) : t.Kept Q := by
  unfold execEmergencyCauseTimeout at e
  injection e with e
  subst e
  repeat' first
    | with_reducible assumption
    | with_reducible apply State.advance_kept
    | with_reducible apply State.writeEmerg_kept
    | with_reducible apply State.allocate_kept
    | with_reducible apply State.coolFlag_kept
    | intro _
    | with_reducible apply State.Kept.both
    | with_reducible apply State.Kept.split_
    | with_reducible refine State.Kept.wf (q := Q) ?_
    | with_reducible refine kept_ite (fun _ => ?_) (fun _ => ?_)
    | split
    | simp only [↓State.kept_mk]
    | dsimp only

theorem execEmergencyEnd_kept {Q : List Instr} (now : Nat) (s : State) (hs : s.Kept Q) {t : State} (e : execEmergencyEnd now s = .next t) : t.Kept Q := by
  unfold execEmergencyEnd at e
  injection e with e
  subst e
  repeat' first
    | with_reducible assumption
    | with_reducible apply State.advance_kept
    | with_reducible apply State.coolFlag_kept
    | with_reducible apply State.setFld_kept
    | intro _
    | with_reducible apply State.Kept.both
    | with_reducible apply State.Kept.split_
    | with_reducible refine State.Kept.wf (q := Q) ?_
    | with_reducible refine kept_ite (fun _ => ?_) (fun _ => ?_)
    | split
    | simp only [↓State.kept_mk]
    | dsimp only

theorem State.trayCause_kept {Q : List Instr} (s : State) (shelf : Bool) (cool : Bool) (hs : s.Kept Q) : (State.trayCause s shelf cool).Kept Q := by
  unfold State.trayCause
  repeat' first
    | with_reducible assumption
    | with_reducible apply State.coolFlag_kept
    | with_reducible apply State.setFld_kept
    | with_reducible apply State.writeEmerg_kept
    | with_reducible apply State.allocate_kept
    | intro _
    | split
    | dsimp only

theorem execTrayCauseReport_kept {Q : List Instr} (shelf : Bool) (cool : Bool) (by_ : Writer) (s : State) (hs : s.Kept Q) {t : State} (e : execTrayCauseReport shelf cool by_ s = .next t) : t.Kept Q := by
  unfold execTrayCauseReport at e
  injection e with e
  subst e
  repeat' first
    | with_reducible assumption
    | with_reducible apply State.trayCause_kept
    | intro _
    | with_reducible refine kept_ite (fun _ => ?_) (fun _ => ?_)
    | split
    | dsimp only

theorem execKeepalive_kept {Q : List Instr} (now : Nat) (p : Nat) (by_ : Writer) (s : State) (hs : s.Kept Q) {t : State} (e : execKeepalive now p by_ s = .next t) : t.Kept Q := by
  unfold execKeepalive at e
  injection e with e
  subst e
  repeat' first
    | with_reducible assumption
    | with_reducible apply State.advance_kept
    | with_reducible apply State.byOwner_kept
    | with_reducible apply State.keepalive_kept
    | intro _
    | with_reducible refine kept_ite (fun _ => ?_) (fun _ => ?_)
    | split
    | dsimp only

theorem execKeepaliveTimeout_kept {Q : List Instr} (now : Nat) (p : Nat) (s : State) (hs : s.Kept Q) {t : State} (e : execKeepaliveTimeout now p s = .next t) : t.Kept Q := by
  unfold execKeepaliveTimeout at e
  injection e with e
  subst e
  repeat' first
    | with_reducible assumption
    | with_reducible apply State.advance_kept
    | with_reducible apply State.setSafe_kept
    | with_reducible apply State.setPwr_kept
    | intro _
    | with_reducible refine kept_ite (fun _ => ?_) (fun _ => ?_)
    | split
    | dsimp only

theorem State.trayBeat_kept {Q : List Instr} (s : State) (v : Nat) (hs : s.Kept Q) : (State.trayBeat s v).Kept Q := by
  unfold State.trayBeat
  repeat' first
    | with_reducible assumption
    | with_reducible apply State.setFld_kept
    | intro _
    | with_reducible apply State.Kept.both
    | with_reducible apply State.Kept.split_
    | with_reducible refine State.Kept.wf (q := Q) ?_
    | split
    | simp only [↓State.kept_mk]
    | dsimp only

theorem execTrayHeartbeat_kept {Q : List Instr} (now : Nat) (v : Nat) (by_ : Writer) (s : State) (hs : s.Kept Q) {t : State} (e : execTrayHeartbeat now v by_ s = .next t) : t.Kept Q := by
  unfold execTrayHeartbeat at e
  injection e with e
  subst e
  repeat' first
    | with_reducible assumption
    | with_reducible apply State.advance_kept
    | with_reducible apply State.trayBeat_kept
    | intro _
    | with_reducible refine kept_ite (fun _ => ?_) (fun _ => ?_)
    | split
    | dsimp only

theorem execTrayHeartbeatLoss_kept {Q : List Instr} (now : Nat) (s : State) (hs : s.Kept Q) {t : State} (e : execTrayHeartbeatLoss now s = .next t) : t.Kept Q := by
  unfold execTrayHeartbeatLoss at e
  injection e with e
  subst e
  repeat' first
    | with_reducible assumption
    | with_reducible apply State.advance_kept
    | with_reducible apply State.setFld_kept
    | intro _
    | with_reducible refine kept_ite (fun _ => ?_) (fun _ => ?_)
    | split
    | dsimp only

theorem execOpChange_kept {Q : List Instr} (op : Nat) (s : State) (hs : s.Kept Q) {t : State} (e : execOpChange op s = .next t) : t.Kept Q := by
  unfold execOpChange at e
  injection e with e
  subst e
  repeat' first
    | with_reducible assumption
    | intro _
    | with_reducible apply State.Kept.both
    | with_reducible apply State.Kept.split_
    | with_reducible refine State.Kept.wf (q := Q) ?_
    | with_reducible refine kept_ite (fun _ => ?_) (fun _ => ?_)
    | split
    | simp only [↓State.kept_mk]
    | dsimp only

theorem execTarnishEval_kept {Q : List Instr} (die : Nat) (drift : Nat) (s : State) (hs : s.Kept Q) {t : State} (e : execTarnishEval die drift s = .next t) : t.Kept Q := by
  unfold execTarnishEval at e
  injection e with e
  subst e
  repeat' first
    | with_reducible assumption
    | with_reducible apply State.setFld_kept
    | with_reducible apply State.raise_kept
    | intro _
    | with_reducible refine kept_ite (fun _ => ?_) (fun _ => ?_)
    | split
    | dsimp only

end Sys2Proof.Machine
end

