-- ==== Sys2Proof/Laws/KeptPowerCmd.lean ====
section
/-!
SUPPORT. What every operation of Machine/PowerCmd.lean keeps: the queue, and the canonical form of memory.
-/

set_option linter.unusedVariables false
set_option linter.unusedSimpArgs false

namespace Sys2Proof.Machine

theorem State.holdPower_kept {Q : List Instr} (s : State) (p : Nat) (hs : s.Kept Q) : (State.holdPower s p).Kept Q := by
  unfold State.holdPower
  repeat' first
    | with_reducible assumption
    | with_reducible apply State.hold_kept
    | with_reducible apply foldl_kept
    | intro _
    | with_reducible refine kept_ite (fun _ => ?_) (fun _ => ?_)
    | split
    | dsimp only

theorem State.dropRequest_kept {Q : List Instr} (s : State) (ctx : Nat) (cseq : Nat) (hs : s.Kept Q) : (State.dropRequest s ctx cseq).Kept Q := by
  unfold State.dropRequest
  repeat' first
    | with_reducible assumption
    | intro _
    | with_reducible apply State.Kept.both
    | with_reducible apply State.Kept.split_
    | with_reducible refine State.Kept.wf (q := Q) ?_
    | split
    | simp only [↓State.kept_mk, ↓keptVia_fst, ↓keptVia_snd, ↓keptVia_sndFst, ↓keptVia_sndSnd]
    | with_reducible refine KeptVia.of _ ?_
    | dsimp only

theorem State.decideCap_kept {Q : List Instr} (s0 : State) (ctx : Nat) (c : Cmd) (hs0 : s0.Kept Q) : (State.decideCap s0 ctx c).Kept Q := by
  unfold State.decideCap
  repeat' first
    | with_reducible assumption
    | with_reducible apply State.dropRequest_kept
    | with_reducible apply State.holdPower_kept
    | with_reducible apply State.allocate_kept
    | with_reducible apply State.hold_kept
    | with_reducible apply State.modCmd_kept
    | with_reducible apply State.setPwr_kept
    | with_reducible apply State.fail_kept
    | intro _
    | with_reducible refine kept_of_fst_eq (e := by with_reducible assumption) ?_
    | with_reducible refine kept_of_snd_eq (e := by with_reducible assumption) ?_
    | with_reducible refine kept_of_sndFst_eq (e := by with_reducible assumption) ?_
    | with_reducible refine kept_of_sndSnd_eq (e := by with_reducible assumption) ?_
    | with_reducible refine kept_ite (fun _ => ?_) (fun _ => ?_)
    | split
    | dsimp only

theorem execCapRequest_kept {Q : List Instr} (now : Nat) (ctx : Nat) (cseq : Nat) (s : State) (hs : s.Kept Q) {t : State} (e : execCapRequest now ctx cseq s = .next t) : t.Kept Q := by
  unfold execCapRequest at e
  injection e with e
  subst e
  repeat' first
    | with_reducible assumption
    | with_reducible apply State.advance_kept
    | with_reducible apply State.withBody_kept
    | with_reducible apply State.decideCap_kept
    | with_reducible apply State.modCmd_kept
    | intro _
    | with_reducible apply State.Kept.both
    | with_reducible apply State.Kept.split_
    | with_reducible refine State.Kept.wf (q := Q) ?_
    | with_reducible refine kept_ite (fun _ => ?_) (fun _ => ?_)
    | with_reducible refine keptVia_ite (fun _ => ?_) (fun _ => ?_)
    | split
    | simp only [↓State.kept_mk, ↓keptVia_fst, ↓keptVia_snd, ↓keptVia_sndFst, ↓keptVia_sndSnd]
    | with_reducible refine KeptVia.of _ ?_
    | dsimp only

theorem execCapRequestTimeout_kept {Q : List Instr} (now : Nat) (ctx : Nat) (cseq : Nat) (s : State) (hs : s.Kept Q) {t : State} (e : execCapRequestTimeout now ctx cseq s = .next t) : t.Kept Q := by
  unfold execCapRequestTimeout at e
  injection e with e
  subst e
  repeat' first
    | with_reducible assumption
    | with_reducible apply State.advance_kept
    | with_reducible apply State.withBody_kept
    | with_reducible apply State.fail_kept
    | with_reducible apply State.dropRequest_kept
    | intro _
    | with_reducible refine kept_ite (fun _ => ?_) (fun _ => ?_)
    | split
    | dsimp only

theorem execCapQuery_kept {Q : List Instr} (ctx : Nat) (cseq : Nat) (s : State) (hs : s.Kept Q) {t : State} (e : execCapQuery ctx cseq s = .next t) : t.Kept Q := by
  unfold execCapQuery at e
  injection e with e
  subst e
  repeat' first
    | with_reducible assumption
    | with_reducible apply State.withBody_kept
    | with_reducible apply State.finish_kept
    | intro _
    | split
    | dsimp only

theorem execHintPhase_kept {Q : List Instr} (now : Nat) (ctx : Nat) (cseq : Nat) (s : State) (hs : s.Kept Q) {t : State} (e : execHintPhase now ctx cseq s = .next t) : t.Kept Q := by
  unfold execHintPhase at e
  injection e with e
  subst e
  repeat' first
    | with_reducible assumption
    | with_reducible apply State.advance_kept
    | with_reducible apply State.withBody_kept
    | with_reducible apply State.setPwr_kept
    | with_reducible apply State.setFld_kept
    | with_reducible apply State.finish_kept
    | intro _
    | with_reducible refine kept_ite (fun _ => ?_) (fun _ => ?_)
    | split
    | dsimp only

theorem State.landLive_kept {Q : List Instr} (s : State) (hs : s.Kept Q) : (State.landLive s).Kept Q := by
  unfold State.landLive
  repeat' first
    | with_reducible assumption
    | with_reducible apply State.setReg_kept
    | with_reducible apply foldl_kept
    | intro _
    | with_reducible refine kept_of_fst_eq (e := by with_reducible assumption) ?_
    | with_reducible refine kept_of_snd_eq (e := by with_reducible assumption) ?_
    | with_reducible refine kept_of_sndFst_eq (e := by with_reducible assumption) ?_
    | with_reducible refine kept_of_sndSnd_eq (e := by with_reducible assumption) ?_
    | with_reducible apply State.Kept.both
    | with_reducible apply State.Kept.split_
    | with_reducible refine State.Kept.wf (q := Q) ?_
    | split
    | simp only [↓State.kept_mk]
    | dsimp only

theorem State.serveRequests_kept {Q : List Instr} (s : State) (hs : s.Kept Q) : (State.serveRequests s).Kept Q := by
  unfold State.serveRequests
  repeat' first
    | with_reducible assumption
    | with_reducible apply State.decideCap_kept
    | with_reducible apply State.dropRequest_kept
    | with_reducible apply foldl_kept
    | intro _
    | with_reducible refine kept_of_fst_eq (e := by with_reducible assumption) ?_
    | with_reducible refine kept_of_snd_eq (e := by with_reducible assumption) ?_
    | with_reducible refine kept_of_sndFst_eq (e := by with_reducible assumption) ?_
    | with_reducible refine kept_of_sndSnd_eq (e := by with_reducible assumption) ?_
    | with_reducible refine kept_ite (fun _ => ?_) (fun _ => ?_)
    | split
    | dsimp only

theorem State.endCycle_kept {Q : List Instr} (s : State) (n : Nat) (hs : s.Kept Q) : (State.endCycle s n).Kept Q := by
  unfold State.endCycle
  repeat' first
    | with_reducible assumption
    | with_reducible apply State.setFld_kept
    | with_reducible apply State.releaseHeld_kept
    | intro _
    | with_reducible apply State.Kept.both
    | with_reducible apply State.Kept.split_
    | with_reducible refine State.Kept.wf (q := Q) ?_
    | with_reducible refine kept_ite (fun _ => ?_) (fun _ => ?_)
    | with_reducible refine keptVia_ite (fun _ => ?_) (fun _ => ?_)
    | split
    | simp only [↓State.kept_mk, ↓keptVia_fst, ↓keptVia_snd, ↓keptVia_sndFst, ↓keptVia_sndSnd]
    | with_reducible refine KeptVia.of _ ?_
    | dsimp only

theorem execManagementCycle_kept {Q : List Instr} (now : Nat) (s : State) (hs : s.Kept Q) {t : State} (e : execManagementCycle now s = .next t) : t.Kept Q := by
  unfold execManagementCycle at e
  injection e with e
  subst e
  repeat' first
    | with_reducible assumption
    | with_reducible apply State.advance_kept
    | with_reducible apply State.releaseSent_kept
    | with_reducible apply State.heatMark_kept
    | with_reducible apply State.inletCheck_kept
    | with_reducible apply State.landLive_kept
    | with_reducible apply State.allocate_kept
    | with_reducible apply State.thermalStep_kept
    | with_reducible apply State.setFld_kept
    | with_reducible apply State.serveRequests_kept
    | with_reducible apply State.holdPower_kept
    | with_reducible apply State.endCycle_kept
    | with_reducible apply foldl_kept
    | intro _
    | with_reducible apply State.Kept.both
    | with_reducible apply State.Kept.split_
    | with_reducible refine State.Kept.wf (q := Q) ?_
    | with_reducible refine kept_ite (fun _ => ?_) (fun _ => ?_)
    | split
    | simp only [↓State.kept_mk]
    | dsimp only

end Sys2Proof.Machine
end

