-- ==== Sys2Proof/Laws/KeptObserve.lean ====
section
/-!
SUPPORT. What every operation of Machine/Observe.lean keeps: the queue, and the canonical form of memory.
-/

set_option linter.unusedVariables false
set_option linter.unusedSimpArgs false

namespace Sys2Proof.Machine

theorem State.cntSetBank_kept {Q : List Instr} (s : State) (b : Nat) (on : Bool) (sels : List Nat) (hs : s.Kept Q) : (State.cntSetBank s b on sels).Kept Q := by
  unfold State.cntSetBank
  repeat' first
    | with_reducible assumption
    | with_reducible apply State.addWrap_kept
    | with_reducible apply State.setFld_kept
    | with_reducible apply State.setReg_kept
    | with_reducible apply foldl_kept
    | intro _
    | with_reducible refine kept_ite (fun _ => ?_) (fun _ => ?_)
    | split
    | dsimp only

theorem execCntEnable_kept {Q : List Instr} (ctx : Nat) (cseq : Nat) (s : State) (hs : s.Kept Q) {t : State} (e : execCntEnable ctx cseq s = .next t) : t.Kept Q := by
  unfold execCntEnable at e
  injection e with e
  subst e
  repeat' first
    | with_reducible assumption
    | with_reducible apply State.withBody_kept
    | with_reducible apply State.finish_kept
    | with_reducible apply State.fail_kept
    | with_reducible apply State.modCtx_kept
    | with_reducible apply State.cntSetBank_kept
    | intro _
    | with_reducible refine kept_of_fst_eq (e := by with_reducible assumption) ?_
    | with_reducible refine kept_of_snd_eq (e := by with_reducible assumption) ?_
    | with_reducible refine kept_of_sndFst_eq (e := by with_reducible assumption) ?_
    | with_reducible refine kept_of_sndSnd_eq (e := by with_reducible assumption) ?_
    | with_reducible refine kept_ite (fun _ => ?_) (fun _ => ?_)
    | split
    | dsimp only

theorem execCntRead_kept {Q : List Instr} (ctx : Nat) (cseq : Nat) (s : State) (hs : s.Kept Q) {t : State} (e : execCntRead ctx cseq s = .next t) : t.Kept Q := by
  unfold execCntRead at e
  injection e with e
  subst e
  repeat' first
    | with_reducible assumption
    | with_reducible apply State.withBody_kept
    | with_reducible apply State.fail_kept
    | with_reducible apply State.cntLatchCtx_kept
    | with_reducible apply State.cntLatch_kept
    | with_reducible apply State.storeBy_kept
    | with_reducible apply State.finish_kept
    | intro _
    | with_reducible refine kept_ite (fun _ => ?_) (fun _ => ?_)
    | with_reducible refine keptVia_ite (fun _ => ?_) (fun _ => ?_)
    | split
    | simp only [↓keptVia_fst, ↓keptVia_snd, ↓keptVia_sndFst, ↓keptVia_sndSnd]
    | with_reducible refine KeptVia.of _ ?_
    | dsimp only

theorem execCameo_kept {Q : List Instr} (ctx : Nat) (cseq : Nat) (s : State) (hs : s.Kept Q) {t : State} (e : execCameo ctx cseq s = .next t) : t.Kept Q := by
  unfold execCameo at e
  injection e with e
  subst e
  repeat' first
    | with_reducible assumption
    | with_reducible apply State.withBody_kept
    | with_reducible apply State.finish_kept
    | intro _
    | split
    | dsimp only

theorem execCameoCancel_kept {Q : List Instr} (ctx : Nat) (cseq : Nat) (s : State) (hs : s.Kept Q) {t : State} (e : execCameoCancel ctx cseq s = .next t) : t.Kept Q := by
  unfold execCameoCancel at e
  injection e with e
  subst e
  repeat' first
    | with_reducible assumption
    | with_reducible apply State.withBody_kept
    | with_reducible apply State.finish_kept
    | with_reducible apply State.setCtx_kept
    | intro _
    | with_reducible refine kept_of_fst_eq (e := by with_reducible assumption) ?_
    | with_reducible refine kept_of_snd_eq (e := by with_reducible assumption) ?_
    | with_reducible refine kept_of_sndFst_eq (e := by with_reducible assumption) ?_
    | with_reducible refine kept_of_sndSnd_eq (e := by with_reducible assumption) ?_
    | with_reducible refine kept_ite (fun _ => ?_) (fun _ => ?_)
    | split
    | dsimp only

theorem State.cameoEnd_kept {Q : List Instr} (s : State) (p : Nat) (ctx : Nat) (k : Cameo) (ok : Bool) (hs : s.Kept Q) : (State.cameoEnd s p ctx k ok).Kept Q := by
  unfold State.cameoEnd
  repeat' first
    | with_reducible assumption
    | with_reducible apply State.modCtx_kept
    | with_reducible apply State.addWrap_kept
    | with_reducible apply State.addSat_kept
    | with_reducible apply State.signalCtx_kept
    | intro _
    | with_reducible apply State.Kept.both
    | with_reducible apply State.Kept.split_
    | with_reducible refine State.Kept.wf (q := Q) ?_
    | with_reducible refine kept_ite (fun _ => ?_) (fun _ => ?_)
    | split
    | simp only [↓State.kept_mk]
    | dsimp only

theorem execCameoDump_kept {Q : List Instr} (now : Nat) (p : Nat) (s : State) (hs : s.Kept Q) {t : State} (e : execCameoDump now p s = .next t) : t.Kept Q := by
  unfold execCameoDump at e
  injection e with e
  subst e
  repeat' first
    | with_reducible assumption
    | with_reducible apply State.advance_kept
    | with_reducible apply State.cameoEnd_kept
    | with_reducible apply State.store_kept
    | with_reducible apply State.readMem_kept
    | with_reducible apply State.storeBy_kept
    | intro _
    | with_reducible refine kept_of_fst_eq (e := by with_reducible assumption) ?_
    | with_reducible refine kept_of_snd_eq (e := by with_reducible assumption) ?_
    | with_reducible refine kept_of_sndFst_eq (e := by with_reducible assumption) ?_
    | with_reducible refine kept_of_sndSnd_eq (e := by with_reducible assumption) ?_
    | with_reducible apply State.Kept.both
    | with_reducible apply State.Kept.split_
    | with_reducible refine State.Kept.wf (q := Q) ?_
    | with_reducible refine kept_ite (fun _ => ?_) (fun _ => ?_)
    | split
    | simp only [↓State.kept_mk]
    | dsimp only

end Sys2Proof.Machine
end

