-- ==== Sys2Proof/Laws/KeptRecordCmd.lean ====
section
/-!
SUPPORT. What every operation of Machine/RecordCmd.lean keeps: the queue, and the canonical form of memory.
-/

set_option linter.unusedVariables false
set_option linter.unusedSimpArgs false

namespace Sys2Proof.Machine

theorem execRecordStart_kept {Q : List Instr} (ctx : Nat) (cseq : Nat) (s : State) (hs : s.Kept Q) {t : State} (e : execRecordStart ctx cseq s = .next t) : t.Kept Q := by
  unfold execRecordStart at e
  injection e with e
  subst e
  repeat' first
    | with_reducible assumption
    | with_reducible apply State.withBody_kept
    | with_reducible apply State.fail_kept
    | with_reducible apply State.store_kept
    | with_reducible apply State.setRecorder_kept
    | with_reducible apply State.setFld_kept
    | with_reducible apply State.recPut_kept
    | with_reducible apply State.finish_kept
    | intro _
    | with_reducible refine kept_ite (fun _ => ?_) (fun _ => ?_)
    | split
    | dsimp only

theorem execRecordStop_kept {Q : List Instr} (ctx : Nat) (cseq : Nat) (s : State) (hs : s.Kept Q) {t : State} (e : execRecordStop ctx cseq s = .next t) : t.Kept Q := by
  unfold execRecordStop at e
  injection e with e
  subst e
  repeat' first
    | with_reducible assumption
    | with_reducible apply State.withBody_kept
    | with_reducible apply State.finish_kept
    | with_reducible apply State.setRecorder_kept
    | with_reducible apply State.recPut_kept
    | with_reducible apply State.recEnd_kept
    | intro _
    | with_reducible refine kept_ite (fun _ => ?_) (fun _ => ?_)
    | split
    | dsimp only

theorem execReplayStart_kept {Q : List Instr} (ctx : Nat) (cseq : Nat) (s : State) (hs : s.Kept Q) {t : State} (e : execReplayStart ctx cseq s = .next t) : t.Kept Q := by
  unfold execReplayStart at e
  injection e with e
  subst e
  repeat' first
    | with_reducible assumption
    | with_reducible apply State.withBody_kept
    | with_reducible apply State.fail_kept
    | with_reducible apply State.setRecorder_kept
    | with_reducible apply State.setReg_kept
    | with_reducible apply State.replayApply_kept
    | with_reducible apply State.issue_kept
    | with_reducible apply foldl_kept
    | with_reducible apply foldl_kept_fst
    | with_reducible apply foldl_kept_snd
    | intro _
    | with_reducible refine kept_of_fst_eq (e := by with_reducible assumption) ?_
    | with_reducible refine kept_of_snd_eq (e := by with_reducible assumption) ?_
    | with_reducible refine kept_of_sndFst_eq (e := by with_reducible assumption) ?_
    | with_reducible refine kept_of_sndSnd_eq (e := by with_reducible assumption) ?_
    | split
    | simp only [↓keptVia_fst, ↓keptVia_snd, ↓keptVia_sndFst, ↓keptVia_sndSnd]
    | with_reducible refine KeptVia.of _ ?_
    | dsimp only

theorem execReplayFeed_kept {Q : List Instr} (p : Nat) (s : State) (hs : s.Kept Q) {t : State} (e : execReplayFeed p s = .next t) : t.Kept Q := by
  unfold execReplayFeed at e
  injection e with e
  subst e
  repeat' first
    | with_reducible assumption
    | with_reducible apply State.finish_kept
    | with_reducible apply State.setRecorder_kept
    | with_reducible apply State.modCtx_kept
    | intro _
    | with_reducible refine kept_of_fst_eq (e := by with_reducible assumption) ?_
    | with_reducible refine kept_of_snd_eq (e := by with_reducible assumption) ?_
    | with_reducible refine kept_of_sndFst_eq (e := by with_reducible assumption) ?_
    | with_reducible refine kept_of_sndSnd_eq (e := by with_reducible assumption) ?_
    | with_reducible refine kept_ite (fun _ => ?_) (fun _ => ?_)
    | split
    | dsimp only

theorem execReplayEnd_kept {Q : List Instr} (p : Nat) (s : State) (hs : s.Kept Q) {t : State} (e : execReplayEnd p s = .next t) : t.Kept Q := by
  unfold execReplayEnd at e
  injection e with e
  subst e
  repeat' first
    | with_reducible assumption
    | with_reducible apply State.replayStop_kept
    | with_reducible apply State.modCtx_kept
    | intro _
    | with_reducible refine kept_ite (fun _ => ?_) (fun _ => ?_)
    | split
    | dsimp only

end Sys2Proof.Machine
end

