-- ==== Sys2Proof/Laws/KeptSecure.lean ====
section
/-!
SUPPORT. What every operation of Machine/Secure.lean keeps: the queue, and the canonical form of memory.
-/

set_option linter.unusedVariables false
set_option linter.unusedSimpArgs false

namespace Sys2Proof.Machine

theorem State.setHallmark_kept {Q : List Instr} (s : State) (i : Nat) (m : List Byte) (hs : s.Kept Q) : (State.setHallmark s i m).Kept Q := by
  unfold State.setHallmark
  repeat' first
    | with_reducible assumption
    | with_reducible apply State.setReg_kept
    | with_reducible apply foldl_kept
    | intro _
    | split
    | dsimp only

theorem State.extendHallmark_kept {Q : List Instr} (s : State) (i : Nat) (m : List Byte) (hs : s.Kept Q) : (State.extendHallmark s i m).Kept Q := by
  unfold State.extendHallmark
  repeat' first
    | with_reducible assumption
    | with_reducible apply State.setHallmark_kept
    | intro _
    | split
    | dsimp only

theorem State.measurePart_kept {Q : List Instr} (s : State) (p : Nat) (hs : s.Kept Q) : (State.measurePart s p).Kept Q := by
  unfold State.measurePart
  repeat' first
    | with_reducible assumption
    | with_reducible apply State.setHallmark_kept
    | intro _
    | split
    | dsimp only

theorem State.spendLeaf_kept {Q : List Instr} (s : State) (n : Nat) (first : Bool) (newTree : Bool) (hs : s.Kept Q) : (State.spendLeaf s n first newTree).Kept Q := by
  unfold State.spendLeaf
  repeat' first
    | with_reducible assumption
    | with_reducible apply State.addWrap_kept
    | with_reducible apply State.setFld_kept
    | with_reducible apply State.raise_kept
    | intro _
    | with_reducible refine kept_ite (fun _ => ?_) (fun _ => ?_)
    | split
    | dsimp only

/-- Taking a leaf keeps the queue and the form of memory. -/
theorem State.useLeaf_kept {Q : List Instr} (s : State) (hs : s.Kept Q) :
    (∀ t, s.useLeaf = .busy t → t.Kept Q) ∧ ∀ n t, s.useLeaf = .leaf n t → t.Kept Q := by
  unfold State.useLeaf
  dsimp only
  constructor
  · intro t e
    repeat' split at e
    all_goals cases e
    · exact hs
    · exact State.raise_kept _ _ hs
  · intro n t e
    repeat' split at e
    all_goals cases e
    exact State.spendLeaf_kept _ _ _ _ hs

theorem State.useLeaf_kept_busy {Q : List Instr} {s t : State} (e : s.useLeaf = .busy t) (hs : s.Kept Q) : t.Kept Q :=
  (State.useLeaf_kept s hs).1 t e

theorem State.useLeaf_kept_leaf {Q : List Instr} {s t : State} {n : Nat} (e : s.useLeaf = .leaf n t) (hs : s.Kept Q) : t.Kept Q :=
  (State.useLeaf_kept s hs).2 n t e

theorem execQuote_kept {Q : List Instr} (now : Nat) (ctx : Nat) (cseq : Nat) (s : State) (hs : s.Kept Q) {t : State} (e : execQuote now ctx cseq s = .next t) : t.Kept Q := by
  unfold execQuote at e
  injection e with e
  subst e
  repeat' first
    | with_reducible assumption
    | with_reducible apply State.advance_kept
    | with_reducible apply State.withBody_kept
    | with_reducible apply State.fail_kept
    | with_reducible apply State.storeBy_kept
    | with_reducible apply State.finish_kept
    | with_reducible refine State.useLeaf_kept_leaf (e := by with_reducible assumption) ?_
    | with_reducible refine State.useLeaf_kept_busy (e := by with_reducible assumption) ?_
    | intro _
    | with_reducible refine kept_of_fst_eq (e := by with_reducible assumption) ?_
    | with_reducible refine kept_of_snd_eq (e := by with_reducible assumption) ?_
    | with_reducible refine kept_of_sndFst_eq (e := by with_reducible assumption) ?_
    | with_reducible refine kept_of_sndSnd_eq (e := by with_reducible assumption) ?_
    | with_reducible refine kept_ite (fun _ => ?_) (fun _ => ?_)
    | with_reducible refine keptVia_ite (fun _ => ?_) (fun _ => ?_)
    | split
    | simp only [↓keptVia_fst, ↓keptVia_snd, ↓keptVia_sndFst, ↓keptVia_sndSnd]
    | with_reducible refine KeptVia.of _ ?_
    | dsimp only

theorem State.startFill_kept {Q : List Instr} (s : State) (p : Nat) (hs : s.Kept Q) : (State.startFill s p).Kept Q := by
  unfold State.startFill
  repeat' first
    | with_reducible assumption
    | with_reducible apply State.setFld_kept
    | with_reducible apply foldl_kept
    | intro _
    | with_reducible apply State.Kept.both
    | with_reducible apply State.Kept.split_
    | with_reducible refine State.Kept.wf (q := Q) ?_
    | split
    | simp only [↓State.kept_mk]
    | dsimp only

theorem State.lkCounts_kept {Q : List Instr} (s : State) (hs : s.Kept Q) : (State.lkCounts s).Kept Q := by
  unfold State.lkCounts
  repeat' first
    | with_reducible assumption
    | with_reducible apply State.setFld_kept
    | intro _
    | split
    | dsimp only

theorem State.sealEntries_kept {Q : List Instr} (s : State) (hs : s.Kept Q) : (State.sealEntries s).Kept Q := by
  unfold State.sealEntries
  repeat' first
    | with_reducible assumption
    | with_reducible apply State.setFld_kept
    | with_reducible apply foldl_kept
    | intro _
    | split
    | dsimp only

theorem State.enterConf_kept {Q : List Instr} (s : State) (p : Nat) (hs : s.Kept Q) : (State.enterConf s p).Kept Q := by
  unfold State.enterConf
  repeat' first
    | with_reducible assumption
    | with_reducible apply State.drawRandom_kept
    | with_reducible apply State.startFill_kept
    | with_reducible apply State.addWrap_kept
    | with_reducible apply State.setFld_kept
    | intro _
    | with_reducible apply State.Kept.both
    | with_reducible apply State.Kept.split_
    | with_reducible refine State.Kept.wf (q := Q) ?_
    | split
    | simp only [↓State.kept_mk]
    | dsimp only

theorem State.leaveConf_kept {Q : List Instr} (s : State) (p : Nat) (hs : s.Kept Q) : (State.leaveConf s p).Kept Q := by
  unfold State.leaveConf
  repeat' first
    | with_reducible assumption
    | with_reducible apply State.startFill_kept
    | with_reducible apply State.setFld_kept
    | intro _
    | with_reducible apply State.Kept.both
    | with_reducible apply State.Kept.split_
    | with_reducible refine State.Kept.wf (q := Q) ?_
    | split
    | simp only [↓State.kept_mk]
    | dsimp only

theorem execSessionOpen_kept {Q : List Instr} (now : Nat) (ctx : Nat) (cseq : Nat) (s : State) (hs : s.Kept Q) {t : State} (e : execSessionOpen now ctx cseq s = .next t) : t.Kept Q := by
  unfold execSessionOpen at e
  injection e with e
  subst e
  repeat' first
    | with_reducible assumption
    | with_reducible apply State.advance_kept
    | with_reducible apply State.withBody_kept
    | with_reducible apply State.fail_kept
    | with_reducible apply State.storeBy_kept
    | with_reducible apply State.finish_kept
    | with_reducible apply State.modCtx_kept
    | with_reducible apply State.enterConf_kept
    | with_reducible apply State.measurePart_kept
    | with_reducible apply State.sealEntries_kept
    | with_reducible apply State.lkCounts_kept
    | with_reducible apply State.modCmd_kept
    | with_reducible apply foldl_kept
    | with_reducible apply foldl_kept_fst
    | with_reducible apply foldl_kept_snd
    | intro _
    | with_reducible apply State.Kept.both
    | with_reducible apply State.Kept.split_
    | with_reducible refine State.Kept.wf (q := Q) ?_
    | with_reducible refine kept_ite (fun _ => ?_) (fun _ => ?_)
    | with_reducible refine keptVia_ite (fun _ => ?_) (fun _ => ?_)
    | split
    | simp only [↓State.kept_mk, ↓keptVia_fst, ↓keptVia_snd, ↓keptVia_sndFst, ↓keptVia_sndSnd]
    | with_reducible refine KeptVia.of _ ?_
    | dsimp only

theorem State.closeSession_kept {Q : List Instr} (s : State) (x : Session) (hs : s.Kept Q) : (State.closeSession s x).Kept Q := by
  unfold State.closeSession
  repeat' first
    | with_reducible assumption
    | with_reducible apply State.modCtx_kept
    | with_reducible apply State.leaveConf_kept
    | with_reducible apply State.measurePart_kept
    | with_reducible apply State.sealEntries_kept
    | with_reducible apply State.lkCounts_kept
    | with_reducible apply foldl_kept
    | intro _
    | with_reducible apply State.Kept.both
    | with_reducible apply State.Kept.split_
    | with_reducible refine State.Kept.wf (q := Q) ?_
    | split
    | simp only [↓State.kept_mk]
    | dsimp only

theorem execSessionClose_kept {Q : List Instr} (now : Nat) (ctx : Nat) (cseq : Nat) (s : State) (hs : s.Kept Q) {t : State} (e : execSessionClose now ctx cseq s = .next t) : t.Kept Q := by
  unfold execSessionClose at e
  injection e with e
  subst e
  repeat' first
    | with_reducible assumption
    | with_reducible apply State.advance_kept
    | with_reducible apply State.withBody_kept
    | with_reducible apply State.fail_kept
    | with_reducible apply State.modCmd_kept
    | with_reducible apply State.closeSession_kept
    | intro _
    | with_reducible refine kept_of_fst_eq (e := by with_reducible assumption) ?_
    | with_reducible refine kept_of_snd_eq (e := by with_reducible assumption) ?_
    | with_reducible refine kept_of_sndFst_eq (e := by with_reducible assumption) ?_
    | with_reducible refine kept_of_sndSnd_eq (e := by with_reducible assumption) ?_
    | with_reducible refine kept_ite (fun _ => ?_) (fun _ => ?_)
    | split
    | dsimp only

theorem execKeyRotate_kept {Q : List Instr} (now : Nat) (ctx : Nat) (cseq : Nat) (s : State) (hs : s.Kept Q) {t : State} (e : execKeyRotate now ctx cseq s = .next t) : t.Kept Q := by
  unfold execKeyRotate at e
  injection e with e
  subst e
  repeat' first
    | with_reducible assumption
    | with_reducible apply State.advance_kept
    | with_reducible apply State.withBody_kept
    | with_reducible apply State.fail_kept
    | with_reducible apply State.finish_kept
    | with_reducible apply State.measurePart_kept
    | with_reducible apply foldl_kept
    | intro _
    | with_reducible refine kept_of_fst_eq (e := by with_reducible assumption) ?_
    | with_reducible refine kept_of_snd_eq (e := by with_reducible assumption) ?_
    | with_reducible refine kept_of_sndFst_eq (e := by with_reducible assumption) ?_
    | with_reducible refine kept_of_sndSnd_eq (e := by with_reducible assumption) ?_
    | with_reducible apply State.Kept.both
    | with_reducible apply State.Kept.split_
    | with_reducible refine State.Kept.wf (q := Q) ?_
    | with_reducible refine kept_ite (fun _ => ?_) (fun _ => ?_)
    | split
    | simp only [↓State.kept_mk]
    | dsimp only

theorem execManagementWaitTimeout_kept {Q : List Instr} (now : Nat) (ctx : Nat) (cseq : Nat) (s : State) (hs : s.Kept Q) {t : State} (e : execManagementWaitTimeout now ctx cseq s = .next t) : t.Kept Q := by
  unfold execManagementWaitTimeout at e
  injection e with e
  subst e
  repeat' first
    | with_reducible assumption
    | with_reducible apply State.advance_kept
    | with_reducible apply State.fail_kept
    | with_reducible apply State.stopCmd_kept
    | intro _
    | with_reducible refine kept_of_fst_eq (e := by with_reducible assumption) ?_
    | with_reducible refine kept_of_snd_eq (e := by with_reducible assumption) ?_
    | with_reducible refine kept_of_sndFst_eq (e := by with_reducible assumption) ?_
    | with_reducible refine kept_of_sndSnd_eq (e := by with_reducible assumption) ?_
    | with_reducible refine kept_ite (fun _ => ?_) (fun _ => ?_)
    | split
    | dsimp only

end Sys2Proof.Machine
end

