-- ==== Sys2Proof/Laws/KeptLocket.lean ====
section
/-!
SUPPORT. What every operation of Machine/Locket.lean keeps: the queue, and the canonical form of memory.
-/

set_option linter.unusedVariables false
set_option linter.unusedSimpArgs false

namespace Sys2Proof.Machine

theorem execSvnCommit_kept {Q : List Instr} (by_ : Writer) (s : State) (hs : s.Kept Q) {t : State} (e : execSvnCommit by_ s = .next t) : t.Kept Q := by
  unfold execSvnCommit at e
  injection e with e
  subst e
  repeat' first
    | with_reducible assumption
    | with_reducible apply State.byOwner_kept
    | with_reducible apply State.setFld_kept
    | with_reducible apply foldl_kept
    | intro _
    | split
    | dsimp only

theorem execLmsTreeGenerate_kept {Q : List Instr} (s : State) (hs : s.Kept Q) {t : State} (e : execLmsTreeGenerate s = .next t) : t.Kept Q := by
  unfold execLmsTreeGenerate at e
  injection e with e
  subst e
  repeat' first
    | with_reducible assumption
    | with_reducible apply State.setFld_kept
    | intro _
    | split
    | dsimp only

theorem State.setLinkWin_kept {Q : List Instr} (s : State) (n : Nat) (off : Nat) (bs : List Byte) (hs : s.Kept Q) : (State.setLinkWin s n off bs).Kept Q := by
  unfold State.setLinkWin
  repeat' first
    | with_reducible assumption
    | intro _
    | with_reducible apply State.Kept.both
    | with_reducible apply State.Kept.split_
    | with_reducible refine State.Kept.wf (q := Q) ?_
    | split
    | simp only [↓State.kept_mk]
    | dsimp only

theorem State.linkState_kept {Q : List Instr} (s : State) (n : Nat) (v : Nat) (hs : s.Kept Q) : (State.linkState s n v).Kept Q := by
  unfold State.linkState
  repeat' first
    | with_reducible assumption
    | with_reducible apply State.setFld_kept
    | intro _
    | split
    | dsimp only

theorem State.keyRefused_kept {Q : List Instr} (s : State) (n : Nat) (hs : s.Kept Q) : (State.keyRefused s n).Kept Q := by
  unfold State.keyRefused
  repeat' first
    | with_reducible assumption
    | with_reducible apply State.raise_kept
    | with_reducible apply State.linkState_kept
    | intro _
    | with_reducible apply State.Kept.both
    | with_reducible apply State.Kept.split_
    | with_reducible refine State.Kept.wf (q := Q) ?_
    | split
    | simp only [↓State.kept_mk]
    | dsimp only

theorem State.keyStep1_kept {Q : List Instr} (s : State) (n : Nat) (hs : s.Kept Q) : (State.keyStep1 s n).Kept Q := by
  unfold State.keyStep1
  repeat' first
    | with_reducible assumption
    | with_reducible apply State.keyRefused_kept
    | with_reducible apply State.drawRandom_kept
    | with_reducible apply State.linkState_kept
    | with_reducible apply State.setLinkWin_kept
    | intro _
    | with_reducible apply State.Kept.both
    | with_reducible apply State.Kept.split_
    | with_reducible refine State.Kept.wf (q := Q) ?_
    | with_reducible refine kept_ite (fun _ => ?_) (fun _ => ?_)
    | split
    | simp only [↓State.kept_mk]
    | dsimp only

theorem State.keyStep2_kept {Q : List Instr} (s : State) (n : Nat) (hs : s.Kept Q) : (State.keyStep2 s n).Kept Q := by
  unfold State.keyStep2
  repeat' first
    | with_reducible assumption
    | with_reducible apply State.linkState_kept
    | with_reducible apply State.setLinkWin_kept
    | with_reducible apply State.setLink_kept
    | intro _
    | with_reducible apply State.Kept.both
    | with_reducible apply State.Kept.split_
    | with_reducible refine State.Kept.wf (q := Q) ?_
    | with_reducible refine kept_ite (fun _ => ?_) (fun _ => ?_)
    | split
    | simp only [↓State.kept_mk]
    | dsimp only

theorem State.keyStep3_kept {Q : List Instr} (s : State) (n : Nat) (hs : s.Kept Q) : (State.keyStep3 s n).Kept Q := by
  unfold State.keyStep3
  repeat' first
    | with_reducible assumption
    | with_reducible apply State.linkState_kept
    | with_reducible apply State.keyRefused_kept
    | intro _
    | with_reducible refine kept_ite (fun _ => ?_) (fun _ => ?_)
    | split
    | dsimp only

theorem execLinkKeyingSubmit_kept {Q : List Instr} (n : Nat) (by_ : Writer) (s : State) (hs : s.Kept Q) {t : State} (e : execLinkKeyingSubmit n by_ s = .next t) : t.Kept Q := by
  unfold execLinkKeyingSubmit at e
  injection e with e
  subst e
  repeat' first
    | with_reducible assumption
    | with_reducible apply State.keyStep2_kept
    | with_reducible apply State.keyStep3_kept
    | with_reducible apply State.keyStep1_kept
    | intro _
    | with_reducible refine kept_of_fst_eq (e := by with_reducible assumption) ?_
    | with_reducible refine kept_of_snd_eq (e := by with_reducible assumption) ?_
    | with_reducible refine kept_of_sndFst_eq (e := by with_reducible assumption) ?_
    | with_reducible refine kept_of_sndSnd_eq (e := by with_reducible assumption) ?_
    | with_reducible refine kept_ite (fun _ => ?_) (fun _ => ?_)
    | split
    | dsimp only

theorem State.dropKey_kept {Q : List Instr} (s : State) (n : Nat) (hs : s.Kept Q) : (State.dropKey s n).Kept Q := by
  unfold State.dropKey
  repeat' first
    | with_reducible assumption
    | with_reducible apply State.linkState_kept
    | intro _
    | with_reducible apply State.Kept.both
    | with_reducible apply State.Kept.split_
    | with_reducible refine State.Kept.wf (q := Q) ?_
    | split
    | simp only [↓State.kept_mk]
    | dsimp only

theorem execLinkKeyDrop_kept {Q : List Instr} (n : Nat) (by_ : Writer) (s : State) (hs : s.Kept Q) {t : State} (e : execLinkKeyDrop n by_ s = .next t) : t.Kept Q := by
  unfold execLinkKeyDrop at e
  injection e with e
  subst e
  repeat' first
    | with_reducible assumption
    | with_reducible apply State.dropKey_kept
    | intro _
    | with_reducible refine kept_ite (fun _ => ?_) (fun _ => ?_)
    | split
    | dsimp only

theorem execDebugNonceReq_kept {Q : List Instr} (by_ : Writer) (s : State) (hs : s.Kept Q) {t : State} (e : execDebugNonceReq by_ s = .next t) : t.Kept Q := by
  unfold execDebugNonceReq at e
  injection e with e
  subst e
  repeat' first
    | with_reducible assumption
    | with_reducible apply State.byOwner_kept
    | with_reducible apply State.drawRandom_kept
    | with_reducible apply State.setReg_kept
    | with_reducible apply foldl_kept
    | intro _
    | with_reducible apply State.Kept.both
    | with_reducible apply State.Kept.split_
    | with_reducible refine State.Kept.wf (q := Q) ?_
    | split
    | simp only [↓State.kept_mk]
    | dsimp only

theorem execDebugUnlockSubmit_kept {Q : List Instr} (now : Nat) (by_ : Writer) (s : State) (hs : s.Kept Q) {t : State} (e : execDebugUnlockSubmit now by_ s = .next t) : t.Kept Q := by
  unfold execDebugUnlockSubmit at e
  injection e with e
  subst e
  repeat' first
    | with_reducible assumption
    | with_reducible apply State.advance_kept
    | with_reducible apply State.setFld_kept
    | with_reducible apply State.closeSession_kept
    | with_reducible apply State.dropKey_kept
    | with_reducible apply State.extendHallmark_kept
    | with_reducible apply State.raise_kept
    | with_reducible apply foldl_kept
    | intro _
    | with_reducible apply State.Kept.both
    | with_reducible apply State.Kept.split_
    | with_reducible refine State.Kept.wf (q := Q) ?_
    | with_reducible refine kept_ite (fun _ => ?_) (fun _ => ?_)
    | split
    | simp only [↓State.kept_mk]
    | dsimp only

end Sys2Proof.Machine
end

