-- ==== Sys2Proof/Laws/KeptFailover.lean ====
section
/-!
SUPPORT. What every operation of Machine/Failover.lean keeps: the queue, and the canonical form of memory.
-/

set_option linter.unusedVariables false
set_option linter.unusedSimpArgs false

namespace Sys2Proof.Machine

theorem State.setHasia_kept {Q : List Instr} (s : State) (d : Nat) (x : Hasia) (hs : s.Kept Q) : (State.setHasia s d x).Kept Q := by
  unfold State.setHasia
  repeat' first
    | with_reducible assumption
    | with_reducible apply State.setFld_kept
    | intro _
    | with_reducible apply State.Kept.both
    | with_reducible apply State.Kept.split_
    | with_reducible refine State.Kept.wf (q := Q) ?_
    | with_reducible refine kept_ite (fun _ => ?_) (fun _ => ?_)
    | split
    | simp only [↓State.kept_mk]
    | dsimp only

theorem State.newOwner_kept {Q : List Instr} (s : State) (old : Nat) (d : Nat) (hs : s.Kept Q) : (State.newOwner s old d).Kept Q := by
  unfold State.newOwner
  repeat' first
    | with_reducible assumption
    | with_reducible apply State.addWrap_kept
    | with_reducible apply State.setFld_kept
    | with_reducible apply State.evOwnerChange_kept
    | with_reducible apply State.ibi_kept
    | with_reducible apply State.raise_kept
    | intro _
    | with_reducible apply State.Kept.both
    | with_reducible apply State.Kept.split_
    | with_reducible refine State.Kept.wf (q := Q) ?_
    | split
    | simp only [↓State.kept_mk]
    | dsimp only

theorem State.gapFrom_kept {Q : List Instr} (s : State) (old : Nat) (hs : s.Kept Q) : (State.gapFrom s old).Kept Q := by
  unfold State.gapFrom
  repeat' first
    | with_reducible assumption
    | with_reducible apply State.setFld_kept
    | intro _
    | split
    | dsimp only

theorem State.handover_kept {Q : List Instr} (s : State) (hs : s.Kept Q) : (State.handover s).Kept Q := by
  unfold State.handover
  repeat' first
    | with_reducible assumption
    | with_reducible apply State.setHasia_kept
    | with_reducible apply State.setFld_kept
    | with_reducible apply State.newOwner_kept
    | intro _
    | with_reducible refine kept_of_fst_eq (e := by with_reducible assumption) ?_
    | with_reducible refine kept_of_snd_eq (e := by with_reducible assumption) ?_
    | with_reducible refine kept_of_sndFst_eq (e := by with_reducible assumption) ?_
    | with_reducible refine kept_of_sndSnd_eq (e := by with_reducible assumption) ?_
    | with_reducible apply State.Kept.both
    | with_reducible apply State.Kept.split_
    | with_reducible refine State.Kept.wf (q := Q) ?_
    | split
    | simp only [↓State.kept_mk]
    | dsimp only

theorem State.standbyLost_kept {Q : List Instr} (s : State) (hs : s.Kept Q) : (State.standbyLost s).Kept Q := by
  unfold State.standbyLost
  repeat' first
    | with_reducible assumption
    | with_reducible apply State.raise_kept
    | with_reducible apply State.setFld_kept
    | intro _
    | with_reducible refine kept_ite (fun _ => ?_) (fun _ => ?_)
    | split
    | dsimp only

theorem execStateImage_kept {Q : List Instr} (now : Nat) (seq : Nat) (crcOk : Bool) (s : State) (hs : s.Kept Q) {t : State} (e : execStateImage now seq crcOk s = .next t) : t.Kept Q := by
  unfold execStateImage at e
  injection e with e
  subst e
  repeat' first
    | with_reducible assumption
    | with_reducible apply State.advance_kept
    | with_reducible apply State.setFld_kept
    | with_reducible apply State.releaseSent_kept
    | with_reducible apply State.handover_kept
    | with_reducible apply State.addSat_kept
    | with_reducible apply State.standbyLost_kept
    | intro _
    | with_reducible refine kept_of_fst_eq (e := by with_reducible assumption) ?_
    | with_reducible refine kept_of_snd_eq (e := by with_reducible assumption) ?_
    | with_reducible refine kept_of_sndFst_eq (e := by with_reducible assumption) ?_
    | with_reducible refine kept_of_sndSnd_eq (e := by with_reducible assumption) ?_
    | with_reducible apply State.Kept.both
    | with_reducible apply State.Kept.split_
    | with_reducible refine State.Kept.wf (q := Q) ?_
    | with_reducible refine kept_ite (fun _ => ?_) (fun _ => ?_)
    | split
    | simp only [↓State.kept_mk]
    | dsimp only

theorem execImageAckTimeout_kept {Q : List Instr} (now : Nat) (s : State) (hs : s.Kept Q) {t : State} (e : execImageAckTimeout now s = .next t) : t.Kept Q := by
  unfold execImageAckTimeout at e
  injection e with e
  subst e
  repeat' first
    | with_reducible assumption
    | with_reducible apply State.advance_kept
    | with_reducible apply State.releaseSent_kept
    | intro _
    | with_reducible refine kept_of_fst_eq (e := by with_reducible assumption) ?_
    | with_reducible refine kept_of_snd_eq (e := by with_reducible assumption) ?_
    | with_reducible refine kept_of_sndFst_eq (e := by with_reducible assumption) ?_
    | with_reducible refine kept_of_sndSnd_eq (e := by with_reducible assumption) ?_
    | with_reducible refine kept_ite (fun _ => ?_) (fun _ => ?_)
    | split
    | dsimp only

theorem execHeartbeatSilence_kept {Q : List Instr} (now : Nat) (s : State) (hs : s.Kept Q) {t : State} (e : execHeartbeatSilence now s = .next t) : t.Kept Q := by
  unfold execHeartbeatSilence at e
  injection e with e
  subst e
  repeat' first
    | with_reducible assumption
    | with_reducible apply State.advance_kept
    | with_reducible apply State.setFld_kept
    | with_reducible apply State.setHasia_kept
    | intro _
    | with_reducible refine kept_of_fst_eq (e := by with_reducible assumption) ?_
    | with_reducible refine kept_of_snd_eq (e := by with_reducible assumption) ?_
    | with_reducible refine kept_of_sndFst_eq (e := by with_reducible assumption) ?_
    | with_reducible refine kept_of_sndSnd_eq (e := by with_reducible assumption) ?_
    | with_reducible refine kept_ite (fun _ => ?_) (fun _ => ?_)
    | split
    | dsimp only

theorem State.loadImage_kept {Q : List Instr} (s : State) (i : Image) (hs : s.Kept Q) : (State.loadImage s i).Kept Q := by
  unfold State.loadImage
  repeat' first
    | with_reducible assumption
    | with_reducible apply State.setReg_kept
    | with_reducible apply State.setPwr_kept
    | with_reducible apply foldl_kept
    | intro _
    | with_reducible apply State.Kept.both
    | with_reducible apply State.Kept.split_
    | with_reducible refine State.Kept.wf (q := Q) ?_
    | split
    | simp only [↓State.kept_mk]
    | dsimp only

theorem execTakeover_kept {Q : List Instr} (now : Nat) (fails : List Nat) (s : State) (hs : s.Kept Q) {t : State} (e : execTakeover now fails s = .next t) : t.Kept Q := by
  unfold execTakeover at e
  injection e with e
  subst e
  repeat' first
    | with_reducible assumption
    | with_reducible apply State.advance_kept
    | with_reducible apply State.raise_kept
    | with_reducible apply State.setFld_kept
    | with_reducible apply State.loadImage_kept
    | with_reducible apply State.setHasia_kept
    | with_reducible apply State.addSat_kept
    | with_reducible apply State.newOwner_kept
    | with_reducible apply State.gapFrom_kept
    | with_reducible apply State.hold_kept
    | with_reducible apply State.releaseHeld_kept
    | with_reducible apply foldl_kept
    | intro _
    | with_reducible refine kept_of_fst_eq (e := by with_reducible assumption) ?_
    | with_reducible refine kept_of_snd_eq (e := by with_reducible assumption) ?_
    | with_reducible refine kept_of_sndFst_eq (e := by with_reducible assumption) ?_
    | with_reducible refine kept_of_sndSnd_eq (e := by with_reducible assumption) ?_
    | with_reducible apply State.Kept.both
    | with_reducible apply State.Kept.split_
    | with_reducible refine State.Kept.wf (q := Q) ?_
    | with_reducible refine kept_ite (fun _ => ?_) (fun _ => ?_)
    | split
    | simp only [↓State.kept_mk]
    | dsimp only

theorem execHasiaRestart_kept {Q : List Instr} (now : Nat) (s : State) (hs : s.Kept Q) {t : State} (e : execHasiaRestart now s = .next t) : t.Kept Q := by
  unfold execHasiaRestart at e
  injection e with e
  subst e
  repeat' first
    | with_reducible assumption
    | with_reducible apply State.advance_kept
    | with_reducible apply State.raise_kept
    | with_reducible apply State.setFld_kept
    | with_reducible apply State.setHasia_kept
    | with_reducible apply State.addWrap_kept
    | intro _
    | with_reducible refine kept_of_fst_eq (e := by with_reducible assumption) ?_
    | with_reducible refine kept_of_snd_eq (e := by with_reducible assumption) ?_
    | with_reducible refine kept_of_sndFst_eq (e := by with_reducible assumption) ?_
    | with_reducible refine kept_of_sndSnd_eq (e := by with_reducible assumption) ?_
    | with_reducible apply State.Kept.both
    | with_reducible apply State.Kept.split_
    | with_reducible refine State.Kept.wf (q := Q) ?_
    | with_reducible refine kept_ite (fun _ => ?_) (fun _ => ?_)
    | split
    | simp only [↓State.kept_mk]
    | dsimp only

theorem State.orderSwap_kept {Q : List Instr} (s : State) (hs : s.Kept Q) : (State.orderSwap s).Kept Q := by
  unfold State.orderSwap
  repeat' first
    | with_reducible assumption
    | with_reducible apply State.foreign_kept
    | intro _
    | with_reducible apply State.Kept.both
    | with_reducible apply State.Kept.split_
    | with_reducible refine State.Kept.wf (q := Q) ?_
    | with_reducible refine kept_ite (fun _ => ?_) (fun _ => ?_)
    | split
    | simp only [↓State.kept_mk]
    | dsimp only

theorem execSwap_kept {Q : List Instr} (now : Nat) (by_ : Writer) (s : State) (hs : s.Kept Q) {t : State} (e : execSwap now by_ s = .next t) : t.Kept Q := by
  unfold execSwap at e
  injection e with e
  subst e
  repeat' first
    | with_reducible assumption
    | with_reducible apply State.advance_kept
    | with_reducible apply State.orderSwap_kept
    | intro _
    | with_reducible refine kept_ite (fun _ => ?_) (fun _ => ?_)
    | split
    | dsimp only

theorem execTakeBack_kept {Q : List Instr} (now : Nat) (s : State) (hs : s.Kept Q) {t : State} (e : execTakeBack now s = .next t) : t.Kept Q := by
  unfold execTakeBack at e
  injection e with e
  subst e
  repeat' first
    | with_reducible assumption
    | with_reducible apply State.advance_kept
    | with_reducible apply State.setHasia_kept
    | intro _
    | with_reducible refine kept_of_fst_eq (e := by with_reducible assumption) ?_
    | with_reducible refine kept_of_snd_eq (e := by with_reducible assumption) ?_
    | with_reducible refine kept_of_sndFst_eq (e := by with_reducible assumption) ?_
    | with_reducible refine kept_of_sndSnd_eq (e := by with_reducible assumption) ?_
    | with_reducible apply State.Kept.both
    | with_reducible apply State.Kept.split_
    | with_reducible refine State.Kept.wf (q := Q) ?_
    | with_reducible refine kept_ite (fun _ => ?_) (fun _ => ?_)
    | split
    | simp only [↓State.kept_mk]
    | dsimp only

theorem State.hasiaStart_kept {Q : List Instr} (s : State) (okA : Bool) (okB : Bool) (hs : s.Kept Q) : (State.hasiaStart s okA okB).Kept Q := by
  unfold State.hasiaStart
  repeat' first
    | with_reducible assumption
    | with_reducible apply State.addWrap_kept
    | with_reducible apply State.setHasia_kept
    | with_reducible apply State.setFld_kept
    | with_reducible apply State.raise_kept
    | intro _
    | with_reducible apply State.Kept.both
    | with_reducible apply State.Kept.split_
    | with_reducible refine State.Kept.wf (q := Q) ?_
    | with_reducible refine kept_ite (fun _ => ?_) (fun _ => ?_)
    | split
    | simp only [↓State.kept_mk]
    | dsimp only

theorem execAoWakeCycle_kept {Q : List Instr} (now : Nat) (s : State) (hs : s.Kept Q) {t : State} (e : execAoWakeCycle now s = .next t) : t.Kept Q := by
  unfold execAoWakeCycle at e
  injection e with e
  subst e
  repeat' first
    | with_reducible assumption
    | with_reducible apply State.advance_kept
    | with_reducible apply State.hasiaStart_kept
    | intro _
    | with_reducible apply State.Kept.both
    | with_reducible apply State.Kept.split_
    | with_reducible refine State.Kept.wf (q := Q) ?_
    | with_reducible refine kept_ite (fun _ => ?_) (fun _ => ?_)
    | split
    | simp only [↓State.kept_mk]
    | dsimp only

theorem State.wearEvent_kept {Q : List Instr} (s : State) (i : Nat) (bitNo : Nat) (f : Fld) (hs : s.Kept Q) : (State.wearEvent s i bitNo f).Kept Q := by
  unfold State.wearEvent
  repeat' first
    | with_reducible assumption
    | with_reducible apply State.drawNat_kept
    | with_reducible apply State.trayRec_kept
    | with_reducible apply State.raise_kept
    | with_reducible apply State.setFld_kept
    | intro _
    | split
    | dsimp only

theorem State.wearEvents_kept {Q : List Instr} (s : State) (i : Nat) (lo : Nat) (hs : s.Kept Q) : (State.wearEvents s i lo).Kept Q := by
  unfold State.wearEvents
  repeat' first
    | with_reducible assumption
    | with_reducible apply State.setFld_kept
    | with_reducible apply State.wearEvent_kept
    | intro _
    | with_reducible refine kept_ite (fun _ => ?_) (fun _ => ?_)
    | split
    | dsimp only

theorem State.wearItem_kept {Q : List Instr} (s : State) (day : Nat) (i : Nat) (w : Nat) (hs : s.Kept Q) : (State.wearItem s day i w).Kept Q := by
  unfold State.wearItem
  repeat' first
    | with_reducible assumption
    | with_reducible apply State.setFld_kept
    | with_reducible apply State.wearEvents_kept
    | intro _
    | with_reducible apply State.Kept.both
    | with_reducible apply State.Kept.split_
    | with_reducible refine State.Kept.wf (q := Q) ?_
    | with_reducible refine kept_ite (fun _ => ?_) (fun _ => ?_)
    | with_reducible refine keptVia_ite (fun _ => ?_) (fun _ => ?_)
    | split
    | simp only [↓State.kept_mk, ↓keptVia_fst, ↓keptVia_snd, ↓keptVia_sndFst, ↓keptVia_sndSnd]
    | with_reducible refine KeptVia.of _ ?_
    | dsimp only

theorem execWearDaily_kept {Q : List Instr} (now : Nat) (samples : List Nat) (s : State) (hs : s.Kept Q) {t : State} (e : execWearDaily now samples s = .next t) : t.Kept Q := by
  unfold execWearDaily at e
  injection e with e
  subst e
  repeat' first
    | with_reducible assumption
    | with_reducible apply State.advance_kept
    | with_reducible apply State.wearItem_kept
    | with_reducible apply foldl_kept
    | intro _
    | with_reducible apply State.Kept.both
    | with_reducible apply State.Kept.split_
    | with_reducible refine State.Kept.wf (q := Q) ?_
    | with_reducible refine kept_ite (fun _ => ?_) (fun _ => ?_)
    | split
    | simp only [↓State.kept_mk]
    | dsimp only

end Sys2Proof.Machine
end

