-- ==== Sys2Proof/Laws/KeptMcb.lean ====
section
/-!
SUPPORT. What every operation of Machine/Mcb.lean keeps: the queue, and the canonical form of memory.
-/

set_option linter.unusedVariables false
set_option linter.unusedSimpArgs false

namespace Sys2Proof.Machine

theorem State.setOverlay_kept {Q : List Instr} (s : State) (es : List Word) (hs : s.Kept Q) : (State.setOverlay s es).Kept Q := by
  unfold State.setOverlay
  repeat' first
    | with_reducible assumption
    | with_reducible apply State.setReg_kept
    | with_reducible apply State.setFld_kept
    | with_reducible apply foldl_kept
    | intro _
    | split
    | dsimp only

theorem State.overlayAdd_kept {Q : List Instr} (s : State) (e : Nat) (hs : s.Kept Q) : (State.overlayAdd s e).Kept Q := by
  unfold State.overlayAdd
  repeat' first
    | with_reducible assumption
    | with_reducible apply State.trayRec_kept
    | with_reducible apply State.setReg_kept
    | with_reducible apply State.setFld_kept
    | intro _
    | with_reducible apply State.Kept.both
    | with_reducible apply State.Kept.split_
    | with_reducible refine State.Kept.wf (q := Q) ?_
    | with_reducible refine kept_ite (fun _ => ?_) (fun _ => ?_)
    | split
    | simp only [↓State.kept_mk]
    | dsimp only

theorem State.applyRecs_kept {Q : List Instr} (s : State) (pick : Nat → Bool) (hs : s.Kept Q) : (State.applyRecs s pick).Kept Q := by
  unfold State.applyRecs
  repeat' first
    | with_reducible assumption
    | with_reducible apply State.setFld_kept
    | with_reducible apply foldl_kept
    | intro _
    | with_reducible refine kept_ite (fun _ => ?_) (fun _ => ?_)
    | split
    | dsimp only

theorem State.loadMcb_kept {Q : List Instr} (s : State) (m : McbImage) (hs : s.Kept Q) : (State.loadMcb s m).Kept Q := by
  unfold State.loadMcb
  repeat' first
    | with_reducible assumption
    | with_reducible apply State.setFld_kept
    | with_reducible apply State.setReg_kept
    | with_reducible apply State.applyRecs_kept
    | with_reducible apply State.setOverlay_kept
    | with_reducible apply foldl_kept
    | with_reducible apply foldl_kept_fst
    | with_reducible apply foldl_kept_snd
    | intro _
    | with_reducible apply State.Kept.both
    | with_reducible apply State.Kept.split_
    | with_reducible refine State.Kept.wf (q := Q) ?_
    | split
    | simp only [↓State.kept_mk, ↓keptVia_fst, ↓keptVia_snd, ↓keptVia_sndFst, ↓keptVia_sndSnd]
    | with_reducible refine KeptVia.of _ ?_
    | dsimp only

theorem State.mergeSlots_kept {Q : List Instr} (s : State) (hs : s.Kept Q) : (State.mergeSlots s).Kept Q := by
  unfold State.mergeSlots
  repeat' first
    | with_reducible assumption
    | with_reducible apply State.setFld_kept
    | intro _
    | with_reducible refine kept_of_fst_eq (e := by with_reducible assumption) ?_
    | with_reducible refine kept_of_snd_eq (e := by with_reducible assumption) ?_
    | with_reducible refine kept_of_sndFst_eq (e := by with_reducible assumption) ?_
    | with_reducible refine kept_of_sndSnd_eq (e := by with_reducible assumption) ?_
    | with_reducible apply State.Kept.both
    | with_reducible apply State.Kept.split_
    | with_reducible refine State.Kept.wf (q := Q) ?_
    | split
    | simp only [↓State.kept_mk]
    | dsimp only

theorem State.readMcb_kept {Q : List Instr} (s : State) (hs : s.Kept Q) : (State.readMcb s).Kept Q := by
  unfold State.readMcb
  repeat' first
    | with_reducible assumption
    | with_reducible apply State.setFld_kept
    | with_reducible apply State.addSat_kept
    | with_reducible apply State.raise_kept
    | with_reducible apply State.extendHallmark_kept
    | with_reducible apply State.loadMcb_kept
    | with_reducible apply State.mergeSlots_kept
    | intro _
    | with_reducible refine kept_of_fst_eq (e := by with_reducible assumption) ?_
    | with_reducible refine kept_of_snd_eq (e := by with_reducible assumption) ?_
    | with_reducible refine kept_of_sndFst_eq (e := by with_reducible assumption) ?_
    | with_reducible refine kept_of_sndSnd_eq (e := by with_reducible assumption) ?_
    | with_reducible refine kept_ite (fun _ => ?_) (fun _ => ?_)
    | split
    | dsimp only

theorem State.writeMcb_kept {Q : List Instr} (s : State) (okA : Bool) (okB : Bool) (hs : s.Kept Q) : (State.writeMcb s okA okB).Kept Q := by
  unfold State.writeMcb
  repeat' first
    | with_reducible assumption
    | with_reducible apply State.setFld_kept
    | with_reducible apply State.extendHallmark_kept
    | with_reducible apply State.addWrap_kept
    | intro _
    | with_reducible apply State.Kept.both
    | with_reducible apply State.Kept.split_
    | with_reducible refine State.Kept.wf (q := Q) ?_
    | with_reducible refine kept_ite (fun _ => ?_) (fun _ => ?_)
    | split
    | simp only [↓State.kept_mk]
    | dsimp only

theorem State.oweMcb_kept {Q : List Instr} (s : State) (hs : s.Kept Q) : (State.oweMcb s).Kept Q := by
  unfold State.oweMcb
  repeat' first
    | with_reducible assumption
    | intro _
    | with_reducible apply State.Kept.both
    | with_reducible apply State.Kept.split_
    | with_reducible refine State.Kept.wf (q := Q) ?_
    | split
    | simp only [↓State.kept_mk]
    | dsimp only

theorem State.repairMcb_kept {Q : List Instr} (s : State) (hs : s.Kept Q) : (State.repairMcb s).Kept Q := by
  unfold State.repairMcb
  repeat' first
    | with_reducible assumption
    | with_reducible apply State.writeMcb_kept
    | intro _
    | with_reducible refine kept_of_fst_eq (e := by with_reducible assumption) ?_
    | with_reducible refine kept_of_snd_eq (e := by with_reducible assumption) ?_
    | with_reducible refine kept_of_sndFst_eq (e := by with_reducible assumption) ?_
    | with_reducible refine kept_of_sndSnd_eq (e := by with_reducible assumption) ?_
    | with_reducible apply State.Kept.both
    | with_reducible apply State.Kept.split_
    | with_reducible refine State.Kept.wf (q := Q) ?_
    | with_reducible refine kept_ite (fun _ => ?_) (fun _ => ?_)
    | split
    | simp only [↓State.kept_mk]
    | dsimp only

theorem execMcbWrite_kept {Q : List Instr} (okA : Bool) (okB : Bool) (s : State) (hs : s.Kept Q) {t : State} (e : execMcbWrite okA okB s = .next t) : t.Kept Q := by
  unfold execMcbWrite at e
  injection e with e
  subst e
  repeat' first
    | with_reducible assumption
    | with_reducible apply State.writeMcb_kept
    | intro _
    | with_reducible refine kept_ite (fun _ => ?_) (fun _ => ?_)
    | split
    | dsimp only

theorem execOverlayAppend_kept {Q : List Instr} (entry : Word) (s : State) (hs : s.Kept Q) {t : State} (e : execOverlayAppend entry s = .next t) : t.Kept Q := by
  unfold execOverlayAppend at e
  injection e with e
  subst e
  repeat' first
    | with_reducible assumption
    | with_reducible apply State.overlayAdd_kept
    | with_reducible apply State.writeMcb_kept
    | intro _
    | with_reducible refine kept_ite (fun _ => ?_) (fun _ => ?_)
    | split
    | dsimp only

theorem execOverlayClear_kept {Q : List Instr} (by_ : Writer) (s : State) (hs : s.Kept Q) {t : State} (e : execOverlayClear by_ s = .next t) : t.Kept Q := by
  unfold execOverlayClear at e
  injection e with e
  subst e
  repeat' first
    | with_reducible assumption
    | with_reducible apply State.oweMcb_kept
    | with_reducible apply State.setOverlay_kept
    | with_reducible apply State.raise_kept
    | with_reducible apply State.addSat_kept
    | intro _
    | with_reducible refine kept_ite (fun _ => ?_) (fun _ => ?_)
    | split
    | dsimp only

end Sys2Proof.Machine
end

