-- ==== Sys2Proof/Laws/KeptRegView.lean ====
section
/-!
SUPPORT. What every operation of Machine/RegView.lean keeps: the queue, and the canonical form of memory.
-/

set_option linter.unusedVariables false
set_option linter.unusedSimpArgs false

namespace Sys2Proof.Machine

theorem State.regLoad_kept {Q : List Instr} (s : State) (a : Nat) (hs : s.Kept Q) : (State.regLoad s a).2.Kept Q := by
  unfold State.regLoad
  refine KeptVia.out Prod.snd ?_
  repeat' first
    | with_reducible assumption
    | with_reducible apply State.claimRead_kept
    | intro _
    | with_reducible refine kept_of_fst_eq (e := by with_reducible assumption) ?_
    | with_reducible refine kept_of_snd_eq (e := by with_reducible assumption) ?_
    | with_reducible refine kept_of_sndFst_eq (e := by with_reducible assumption) ?_
    | with_reducible refine kept_of_sndSnd_eq (e := by with_reducible assumption) ?_
    | with_reducible refine kept_ite (fun _ => ?_) (fun _ => ?_)
    | with_reducible refine keptVia_ite (fun _ => ?_) (fun _ => ?_)
    | split
    | simp only [↓keptVia_fst, ↓keptVia_snd, ↓keptVia_sndFst, ↓keptVia_sndSnd]
    | with_reducible refine KeptVia.of _ ?_
    | dsimp only

end Sys2Proof.Machine
end

