-- ==== Sys2Proof/Laws/KeptFaults.lean ====
section
/-!
SUPPORT. What every operation of Machine/Faults.lean keeps: the queue, and the canonical form of memory.
-/

set_option linter.unusedVariables false
set_option linter.unusedSimpArgs false

namespace Sys2Proof.Machine

theorem State.escFld_kept {Q : List Instr} (s : State) (d : Nat) (f : Fld) (v : Nat) (hs : s.Kept Q) : (State.escFld s d f v).Kept Q := by
  unfold State.escFld
  repeat' first
    | with_reducible assumption
    | with_reducible apply State.setFld_kept
    | intro _
    | with_reducible refine kept_ite (fun _ => ?_) (fun _ => ?_)
    | split
    | dsimp only

theorem State.escCount_kept {Q : List Instr} (s : State) (d : Nat) (f : Fld) (hs : s.Kept Q) : (State.escCount s d f).Kept Q := by
  unfold State.escCount
  repeat' first
    | with_reducible assumption
    | with_reducible apply State.escFld_kept
    | intro _
    | split
    | dsimp only

theorem State.startLevel_kept {Q : List Instr} (s : State) (d : Nat) (lvl : Nat) (r : ErrRec) (raised : Bool) (hs : s.Kept Q) : (State.startLevel s d lvl r raised).Kept Q := by
  unfold State.startLevel
  repeat' first
    | with_reducible assumption
    | with_reducible apply State.escFld_kept
    | with_reducible apply State.setDom_kept
    | with_reducible apply State.addSat_kept
    | intro _
    | with_reducible apply State.Kept.both
    | with_reducible apply State.Kept.split_
    | with_reducible refine State.Kept.wf (q := Q) ?_
    | with_reducible refine kept_ite (fun _ => ?_) (fun _ => ?_)
    | split
    | simp only [↓State.kept_mk]
    | dsimp only

theorem State.queueRec_kept {Q : List Instr} (s : State) (d : Nat) (r : ErrRec) (hs : s.Kept Q) : (State.queueRec s d r).1.Kept Q := by
  unfold State.queueRec
  refine KeptVia.out Prod.fst ?_
  repeat' first
    | with_reducible assumption
    | with_reducible apply State.setDom_kept
    | with_reducible apply State.setFld_kept
    | intro _
    | with_reducible refine kept_ite (fun _ => ?_) (fun _ => ?_)
    | with_reducible refine keptVia_ite (fun _ => ?_) (fun _ => ?_)
    | split
    | simp only [↓keptVia_fst, ↓keptVia_snd, ↓keptVia_sndFst, ↓keptVia_sndSnd]
    | with_reducible refine KeptVia.of _ ?_
    | dsimp only

theorem State.loseAdmin_kept {Q : List Instr} (s : State) (hs : s.Kept Q) : (State.loseAdmin s).Kept Q := by
  unfold State.loseAdmin
  repeat' first
    | with_reducible assumption
    | with_reducible apply State.trayRec_kept
    | with_reducible apply State.setFld_kept
    | intro _
    | with_reducible apply State.Kept.both
    | with_reducible apply State.Kept.split_
    | with_reducible refine State.Kept.wf (q := Q) ?_
    | with_reducible refine kept_ite (fun _ => ?_) (fun _ => ?_)
    | split
    | simp only [↓State.kept_mk]
    | dsimp only

theorem State.hostDieOff_kept {Q : List Instr} (s : State) (hs : s.Kept Q) : (State.hostDieOff s).Kept Q := by
  unfold State.hostDieOff
  repeat' first
    | with_reducible assumption
    | intro _
    | with_reducible apply State.Kept.both
    | with_reducible apply State.Kept.split_
    | with_reducible refine State.Kept.wf (q := Q) ?_
    | split
    | simp only [↓State.kept_mk]
    | dsimp only

theorem State.recMarks_kept {Q : List Instr} (s : State) (d : Nat) (r : ErrRec) (hs : s.Kept Q) : (State.recMarks s d r).Kept Q := by
  unfold State.recMarks
  repeat' first
    | with_reducible assumption
    | with_reducible apply State.drawNat_kept
    | with_reducible apply State.hostDieOff_kept
    | with_reducible apply State.trayRec_kept
    | with_reducible apply State.loseAdmin_kept
    | intro _
    | with_reducible apply State.Kept.both
    | with_reducible apply State.Kept.split_
    | with_reducible refine State.Kept.wf (q := Q) ?_
    | with_reducible refine kept_ite (fun _ => ?_) (fun _ => ?_)
    | with_reducible refine keptVia_ite (fun _ => ?_) (fun _ => ?_)
    | split
    | simp only [↓State.kept_mk, ↓keptVia_fst, ↓keptVia_snd, ↓keptVia_sndFst, ↓keptVia_sndSnd]
    | with_reducible refine KeptVia.of _ ?_
    | dsimp only

theorem State.addRecord_kept {Q : List Instr} (s : State) (d : Nat) (r : ErrRec) (hs : s.Kept Q) : (State.addRecord s d r).Kept Q := by
  unfold State.addRecord
  repeat' first
    | with_reducible assumption
    | with_reducible apply State.queueRec_kept
    | with_reducible apply State.recMarks_kept
    | with_reducible apply State.startLevel_kept
    | intro _
    | with_reducible refine kept_of_fst_eq (e := by with_reducible assumption) ?_
    | with_reducible refine kept_of_snd_eq (e := by with_reducible assumption) ?_
    | with_reducible refine kept_of_sndFst_eq (e := by with_reducible assumption) ?_
    | with_reducible refine kept_of_sndSnd_eq (e := by with_reducible assumption) ?_
    | with_reducible refine kept_ite (fun _ => ?_) (fun _ => ?_)
    | split
    | dsimp only

theorem execErrorRecord_kept {Q : List Instr} (now : Nat) (dom : Nat) (rec_ : ErrRec) (s : State) (hs : s.Kept Q) {t : State} (e : execErrorRecord now dom rec_ s = .next t) : t.Kept Q := by
  unfold execErrorRecord at e
  injection e with e
  subst e
  repeat' first
    | with_reducible assumption
    | with_reducible apply State.advance_kept
    | with_reducible apply State.addRecord_kept
    | intro _
    | with_reducible refine kept_ite (fun _ => ?_) (fun _ => ?_)
    | split
    | dsimp only

theorem execErrqPop_kept {Q : List Instr} (p : Nat) (by_ : Writer) (s : State) (hs : s.Kept Q) {t : State} (e : execErrqPop p by_ s = .next t) : t.Kept Q := by
  unfold execErrqPop at e
  injection e with e
  subst e
  repeat' first
    | with_reducible assumption
    | with_reducible apply State.setDom_kept
    | intro _
    | with_reducible refine kept_ite (fun _ => ?_) (fun _ => ?_)
    | split
    | dsimp only

theorem execAbortlogPop_kept {Q : List Instr} (f : Nat) (by_ : Writer) (s : State) (hs : s.Kept Q) {t : State} (e : execAbortlogPop f by_ s = .next t) : t.Kept Q := by
  unfold execAbortlogPop at e
  injection e with e
  subst e
  repeat' first
    | with_reducible assumption
    | intro _
    | with_reducible apply State.Kept.both
    | with_reducible apply State.Kept.split_
    | with_reducible refine State.Kept.wf (q := Q) ?_
    | with_reducible refine kept_ite (fun _ => ?_) (fun _ => ?_)
    | split
    | simp only [↓State.kept_mk]
    | dsimp only

theorem execHangWindowExpire_kept {Q : List Instr} (now : Nat) (unit : Nat) (s : State) (hs : s.Kept Q) {t : State} (e : execHangWindowExpire now unit s = .next t) : t.Kept Q := by
  unfold execHangWindowExpire at e
  injection e with e
  subst e
  repeat' first
    | with_reducible assumption
    | with_reducible apply State.advance_kept
    | with_reducible apply State.setFld_kept
    | with_reducible apply State.addSat_kept
    | with_reducible apply State.raise_kept
    | with_reducible apply State.addRecord_kept
    | with_reducible apply State.progress_kept
    | intro _
    | with_reducible refine kept_ite (fun _ => ?_) (fun _ => ?_)
    | with_reducible refine keptVia_ite (fun _ => ?_) (fun _ => ?_)
    | split
    | simp only [↓keptVia_fst, ↓keptVia_snd, ↓keptVia_sndFst, ↓keptVia_sndSnd]
    | with_reducible refine KeptVia.of _ ?_
    | dsimp only

theorem execWdogKick_kept {Q : List Instr} (now : Nat) (p : Nat) (bits : Nat) (by_ : Writer) (s : State) (hs : s.Kept Q) {t : State} (e : execWdogKick now p bits by_ s = .next t) : t.Kept Q := by
  unfold execWdogKick at e
  injection e with e
  subst e
  repeat' first
    | with_reducible assumption
    | with_reducible apply State.advance_kept
    | with_reducible apply foldl_kept
    | intro _
    | with_reducible apply State.Kept.both
    | with_reducible apply State.Kept.split_
    | with_reducible refine State.Kept.wf (q := Q) ?_
    | with_reducible refine kept_ite (fun _ => ?_) (fun _ => ?_)
    | split
    | simp only [↓State.kept_mk]
    | dsimp only

theorem execWatchdogMiss_kept {Q : List Instr} (now : Nat) (p : Nat) (core : Nat) (s : State) (hs : s.Kept Q) {t : State} (e : execWatchdogMiss now p core s = .next t) : t.Kept Q := by
  unfold execWatchdogMiss at e
  injection e with e
  subst e
  repeat' first
    | with_reducible assumption
    | with_reducible apply State.advance_kept
    | with_reducible apply State.addRecord_kept
    | with_reducible apply State.setFld_kept
    | intro _
    | with_reducible apply State.Kept.both
    | with_reducible apply State.Kept.split_
    | with_reducible refine State.Kept.wf (q := Q) ?_
    | with_reducible refine kept_ite (fun _ => ?_) (fun _ => ?_)
    | split
    | simp only [↓State.kept_mk]
    | dsimp only

theorem State.addDump_kept {Q : List Instr} (s : State) (d : Nat) (lvl : Nat) (code : Nat) (trunc : Bool) (raised : Bool) (since : Nat) (bad : List Nat) (ps : List DumpPart) (hs : s.Kept Q) : (State.addDump s d lvl code trunc raised since bad ps).Kept Q := by
  unfold State.addDump
  repeat' first
    | with_reducible assumption
    | with_reducible apply State.addSat_kept
    | with_reducible apply State.setFld_kept
    | with_reducible apply State.trayRec_kept
    | intro _
    | with_reducible apply State.Kept.both
    | with_reducible apply State.Kept.split_
    | with_reducible refine State.Kept.wf (q := Q) ?_
    | with_reducible refine kept_ite (fun _ => ?_) (fun _ => ?_)
    | split
    | simp only [↓State.kept_mk]
    | dsimp only

theorem State.endCapture_kept {Q : List Instr} (s : State) (d : Nat) (bad : List Nat) (trunc : Bool) (hs : s.Kept Q) : (State.endCapture s d bad trunc).Kept Q := by
  unfold State.endCapture
  repeat' first
    | with_reducible assumption
    | with_reducible apply State.addDump_kept
    | with_reducible apply State.setDom_kept
    | intro _
    | with_reducible apply State.Kept.both
    | with_reducible apply State.Kept.split_
    | with_reducible refine State.Kept.wf (q := Q) ?_
    | with_reducible refine kept_ite (fun _ => ?_) (fun _ => ?_)
    | split
    | simp only [↓State.kept_mk]
    | dsimp only

theorem execCapture_kept {Q : List Instr} (now : Nat) (dom : Nat) (unreadable : List Nat) (s : State) (hs : s.Kept Q) {t : State} (e : execCapture now dom unreadable s = .next t) : t.Kept Q := by
  unfold execCapture at e
  injection e with e
  subst e
  repeat' first
    | with_reducible assumption
    | with_reducible apply State.advance_kept
    | with_reducible apply State.endCapture_kept
    | intro _
    | with_reducible refine kept_ite (fun _ => ?_) (fun _ => ?_)
    | split
    | dsimp only

theorem execCaptureBoundExpire_kept {Q : List Instr} (now : Nat) (s : State) (hs : s.Kept Q) {t : State} (e : execCaptureBoundExpire now s = .next t) : t.Kept Q := by
  unfold execCaptureBoundExpire at e
  injection e with e
  subst e
  repeat' first
    | with_reducible assumption
    | with_reducible apply State.advance_kept
    | with_reducible apply State.endCapture_kept
    | with_reducible apply foldl_kept
    | intro _
    | split
    | dsimp only

theorem execSpineAccessTimeout_kept {Q : List Instr} (die : Nat) (s : State) (hs : s.Kept Q) {t : State} (e : execSpineAccessTimeout die s = .next t) : t.Kept Q := by
  unfold execSpineAccessTimeout at e
  injection e with e
  subst e
  repeat' first
    | with_reducible assumption
    | intro _
    | with_reducible refine kept_of_fst_eq (e := by with_reducible assumption) ?_
    | with_reducible refine kept_of_snd_eq (e := by with_reducible assumption) ?_
    | with_reducible refine kept_of_sndFst_eq (e := by with_reducible assumption) ?_
    | with_reducible refine kept_of_sndSnd_eq (e := by with_reducible assumption) ?_
    | with_reducible apply State.Kept.both
    | with_reducible apply State.Kept.split_
    | with_reducible refine State.Kept.wf (q := Q) ?_
    | with_reducible refine kept_ite (fun _ => ?_) (fun _ => ?_)
    | split
    | simp only [↓State.kept_mk]
    | dsimp only

theorem execPowerCycleRequest_kept {Q : List Instr} (now : Nat) (dom : Nat) (s : State) (hs : s.Kept Q) {t : State} (e : execPowerCycleRequest now dom s = .next t) : t.Kept Q := by
  unfold execPowerCycleRequest at e
  injection e with e
  subst e
  repeat' first
    | with_reducible assumption
    | with_reducible apply State.advance_kept
    | with_reducible apply State.setDom_kept
    | with_reducible apply State.trayRec_kept
    | with_reducible apply State.setFld_kept
    | intro _
    | with_reducible refine kept_ite (fun _ => ?_) (fun _ => ?_)
    | split
    | dsimp only

theorem State.bezelOrder_kept {Q : List Instr} (s : State) (p : Nat) (w : Writer) (f : State → Nat → State) (hs : s.Kept Q)
    (hf : ∀ s n, s.Kept Q → (f s n).Kept Q) : (State.bezelOrder s p w f).Kept Q := by
  unfold State.bezelOrder
  split
  · exact hs
  · split
    · split
      · exact hf _ _ hs
      · exact hs
    · split
      · exact hf _ _ hs
      · exact State.foreign_kept _ hs
    · exact hs

theorem execBezelFence_kept {Q : List Instr} (p : Nat) (by_ : Writer) (s : State) (hs : s.Kept Q) {t : State} (e : execBezelFence p by_ s = .next t) : t.Kept Q := by
  unfold execBezelFence at e
  injection e with e
  subst e
  repeat' first
    | with_reducible assumption
    | with_reducible apply State.bezelOrder_kept
    | with_reducible apply State.fenceBezel_kept
    | intro _
    | split
    | dsimp only

theorem execBezelOpen_kept {Q : List Instr} (p : Nat) (by_ : Writer) (s : State) (hs : s.Kept Q) {t : State} (e : execBezelOpen p by_ s = .next t) : t.Kept Q := by
  unfold execBezelOpen at e
  injection e with e
  subst e
  repeat' first
    | with_reducible assumption
    | with_reducible apply State.bezelOrder_kept
    | with_reducible apply State.openBezel_kept
    | intro _
    | split
    | dsimp only

end Sys2Proof.Machine
end

