-- ==== Sys2Proof/Laws/KeptResets.lean ====
section
/-!
SUPPORT. What every operation of Machine/Resets.lean keeps: the queue, and the canonical form of memory.
-/

set_option linter.unusedVariables false
set_option linter.unusedSimpArgs false

namespace Sys2Proof.Machine

theorem State.resetRegs_kept {Q : List Instr} (s : State) (pick : Nat → Bool) (keep : RegField → Bool) (hs : s.Kept Q) : (State.resetRegs s pick keep).Kept Q := by
  unfold State.resetRegs
  repeat' first
    | with_reducible assumption
    | with_reducible apply foldl_kept
    | with_reducible apply foldl_kept_fst
    | with_reducible apply foldl_kept_snd
    | intro _
    | with_reducible refine kept_of_fst_eq (e := by with_reducible assumption) ?_
    | with_reducible refine kept_of_snd_eq (e := by with_reducible assumption) ?_
    | with_reducible refine kept_of_sndFst_eq (e := by with_reducible assumption) ?_
    | with_reducible refine kept_of_sndSnd_eq (e := by with_reducible assumption) ?_
    | with_reducible apply State.Kept.both
    | with_reducible apply State.Kept.split_
    | with_reducible refine State.Kept.wf (q := Q) ?_
    | with_reducible refine kept_ite (fun _ => ?_) (fun _ => ?_)
    | with_reducible refine keptVia_ite (fun _ => ?_) (fun _ => ?_)
    | split
    | simp only [↓State.kept_mk, ↓keptVia_fst, ↓keptVia_snd, ↓keptVia_sndFst, ↓keptVia_sndSnd]
    | with_reducible refine KeptVia.of _ ?_
    | dsimp only

theorem State.mapTile_kept {Q : List Instr} (s : State) (t : Nat) (hs : s.Kept Q) : (State.mapTile s t).Kept Q := by
  unfold State.mapTile
  repeat' first
    | with_reducible assumption
    | with_reducible apply State.setFld_kept
    | with_reducible apply State.level_kept
    | with_reducible apply foldl_kept
    | intro _
    | with_reducible apply State.Kept.both
    | with_reducible apply State.Kept.split_
    | with_reducible refine State.Kept.wf (q := Q) ?_
    | split
    | simp only [↓State.kept_mk]
    | dsimp only

theorem State.cancelCmd_kept {Q : List Instr} (s : State) (st : Status) (q : Nat × Nat) (hs : s.Kept Q) : (State.cancelCmd s st q).Kept Q := by
  unfold State.cancelCmd
  repeat' first
    | with_reducible assumption
    | with_reducible apply State.finish_kept
    | with_reducible apply State.stopCmd_kept
    | intro _
    | with_reducible refine kept_of_fst_eq (e := by with_reducible assumption) ?_
    | with_reducible refine kept_of_snd_eq (e := by with_reducible assumption) ?_
    | with_reducible refine kept_of_sndFst_eq (e := by with_reducible assumption) ?_
    | with_reducible refine kept_of_sndSnd_eq (e := by with_reducible assumption) ?_
    | with_reducible refine kept_ite (fun _ => ?_) (fun _ => ?_)
    | split
    | dsimp only

theorem State.unitReset_kept {Q : List Instr} (s : State) (key : Nat) (hs : s.Kept Q) : (State.unitReset s key).Kept Q := by
  unfold State.unitReset
  repeat' first
    | with_reducible assumption
    | with_reducible apply State.grpFlush_kept
    | with_reducible apply State.mvFlush_kept
    | with_reducible apply State.hartReset_kept
    | with_reducible apply State.pressRequeue_kept
    | intro _
    | with_reducible apply State.Kept.both
    | with_reducible apply State.Kept.split_
    | with_reducible refine State.Kept.wf (q := Q) ?_
    | with_reducible refine kept_ite (fun _ => ?_) (fun _ => ?_)
    | split
    | simp only [↓State.kept_mk]
    | dsimp only

theorem State.levelOne_kept {Q : List Instr} (s : State) (d : Nat) (key : Nat) (st : Status) (hs : s.Kept Q) : (State.levelOne s d key st).Kept Q := by
  unfold State.levelOne
  repeat' first
    | with_reducible assumption
    | with_reducible apply State.escCount_kept
    | with_reducible apply State.cancelCmd_kept
    | with_reducible apply State.unitReset_kept
    | with_reducible apply State.progress_kept
    | with_reducible apply State.setDom_kept
    | with_reducible apply foldl_kept
    | intro _
    | split
    | dsimp only

theorem State.actDone_kept {Q : List Instr} (s : State) (d : Nat) (hs : s.Kept Q) : (State.actDone s d).Kept Q := by
  unfold State.actDone
  repeat' first
    | with_reducible assumption
    | with_reducible apply State.setDom_kept
    | intro _
    | split
    | dsimp only

theorem State.stopCtxUnits_kept {Q : List Instr} (s : State) (ctx : Nat) (hs : s.Kept Q) : (State.stopCtxUnits s ctx).Kept Q := by
  unfold State.stopCtxUnits
  repeat' first
    | with_reducible assumption
    | with_reducible apply State.landMe_kept
    | with_reducible apply State.setMe_kept
    | with_reducible apply State.landMv_kept
    | with_reducible apply State.setMover_kept
    | with_reducible apply State.hartReset_kept
    | with_reducible apply foldl_kept
    | intro _
    | with_reducible refine kept_ite (fun _ => ?_) (fun _ => ?_)
    | split
    | dsimp only

theorem execContextRecoveryReset_kept {Q : List Instr} (now : Nat) (ctx : Nat) (cause : Nat) (s : State) (hs : s.Kept Q) {t : State} (e : execContextRecoveryReset now ctx cause s = .next t) : t.Kept Q := by
  unfold execContextRecoveryReset at e
  injection e with e
  subst e
  repeat' first
    | with_reducible assumption
    | with_reducible apply State.advance_kept
    | with_reducible apply State.stopCtxUnits_kept
    | with_reducible apply State.actDone_kept
    | with_reducible apply State.discard_kept
    | intro _
    | with_reducible refine kept_ite (fun _ => ?_) (fun _ => ?_)
    | split
    | dsimp only

theorem execEngineReset_kept {Q : List Instr} (now : Nat) (dom : Nat) (unit : Nat) (cause : Nat) (s : State) (hs : s.Kept Q) {t : State} (e : execEngineReset now dom unit cause s = .next t) : t.Kept Q := by
  unfold execEngineReset at e
  injection e with e
  subst e
  repeat' first
    | with_reducible assumption
    | with_reducible apply State.advance_kept
    | with_reducible apply State.levelOne_kept
    | with_reducible apply State.actDone_kept
    | with_reducible apply State.discard_kept
    | intro _
    | with_reducible refine kept_ite (fun _ => ?_) (fun _ => ?_)
    | split
    | dsimp only

theorem State.resetTiles_kept {Q : List Instr} (s : State) (p : Nat) (hs : s.Kept Q) : (State.resetTiles s p).Kept Q := by
  unfold State.resetTiles
  repeat' first
    | with_reducible assumption
    | with_reducible apply State.resetRegs_kept
    | with_reducible apply State.setHart_kept
    | with_reducible apply State.setMe_kept
    | with_reducible apply State.setMover_kept
    | with_reducible apply foldl_kept
    | intro _
    | with_reducible apply State.Kept.both
    | with_reducible apply State.Kept.split_
    | with_reducible refine State.Kept.wf (q := Q) ?_
    | with_reducible refine kept_ite (fun _ => ?_) (fun _ => ?_)
    | split
    | simp only [↓State.kept_mk]
    | dsimp only

theorem State.dropGroups_kept {Q : List Instr} (s : State) (p : Nat) (hs : s.Kept Q) : (State.dropGroups s p).Kept Q := by
  unfold State.dropGroups
  repeat' first
    | with_reducible assumption
    | intro _
    | with_reducible apply State.Kept.both
    | with_reducible apply State.Kept.split_
    | with_reducible refine State.Kept.wf (q := Q) ?_
    | with_reducible refine kept_ite (fun _ => ?_) (fun _ => ?_)
    | with_reducible refine keptVia_ite (fun _ => ?_) (fun _ => ?_)
    | split
    | simp only [↓State.kept_mk, ↓keptVia_fst, ↓keptVia_snd, ↓keptVia_sndFst, ↓keptVia_sndSnd]
    | with_reducible refine KeptVia.of _ ?_
    | dsimp only

theorem State.cycleTile_kept {Q : List Instr} (s : State) (p : Nat) (t : Nat) (hs : s.Kept Q) : (State.cycleTile s p t).Kept Q := by
  unfold State.cycleTile
  repeat' first
    | with_reducible assumption
    | with_reducible apply State.trayRec_kept
    | with_reducible apply State.setFld_kept
    | with_reducible apply State.loseTile_kept
    | intro _
    | split
    | dsimp only

theorem State.serviceCheck_kept {Q : List Instr} (s : State) (p : Nat) (hs : s.Kept Q) : (State.serviceCheck s p).Kept Q := by
  unfold State.serviceCheck
  repeat' first
    | with_reducible assumption
    | with_reducible apply State.setFld_kept
    | with_reducible apply State.trayRec_kept
    | with_reducible apply State.tilesOff_kept
    | intro _
    | with_reducible refine kept_ite (fun _ => ?_) (fun _ => ?_)
    | split
    | dsimp only

theorem State.partCore_kept {Q : List Instr} (s : State) (p : Nat) (st : Status) (hs : s.Kept Q) : (State.partCore s p st).Kept Q := by
  unfold State.partCore
  repeat' first
    | with_reducible assumption
    | with_reducible apply State.resetTiles_kept
    | with_reducible apply State.dropGroups_kept
    | with_reducible apply State.flushTiles_kept
    | with_reducible apply State.addWrap_kept
    | with_reducible apply State.mapTile_kept
    | with_reducible apply State.discard_kept
    | with_reducible apply State.evPartReset_kept
    | with_reducible apply State.jStart_kept
    | with_reducible apply foldl_kept
    | intro _
    | with_reducible apply State.Kept.both
    | with_reducible apply State.Kept.split_
    | with_reducible refine State.Kept.wf (q := Q) ?_
    | with_reducible refine kept_ite (fun _ => ?_) (fun _ => ?_)
    | split
    | simp only [↓State.kept_mk]
    | dsimp only

theorem State.partReset_kept {Q : List Instr} (s : State) (p : Nat) (st : Status) (cycle : Option Nat) (hs : s.Kept Q) : (State.partReset s p st cycle).Kept Q := by
  unfold State.partReset
  repeat' first
    | with_reducible assumption
    | with_reducible apply State.fenceBezel_kept
    | with_reducible apply State.abortLocal_kept
    | with_reducible apply State.cycleTile_kept
    | with_reducible apply State.serviceCheck_kept
    | with_reducible apply State.partCore_kept
    | with_reducible apply State.drawNat_kept
    | with_reducible apply State.escCount_kept
    | with_reducible apply State.addSat_kept
    | with_reducible apply State.setFld_kept
    | with_reducible apply State.trayRec_kept
    | with_reducible apply State.openBezel_kept
    | with_reducible apply foldl_kept
    | intro _
    | with_reducible refine kept_of_fst_eq (e := by with_reducible assumption) ?_
    | with_reducible refine kept_of_snd_eq (e := by with_reducible assumption) ?_
    | with_reducible refine kept_of_sndFst_eq (e := by with_reducible assumption) ?_
    | with_reducible refine kept_of_sndSnd_eq (e := by with_reducible assumption) ?_
    | with_reducible refine kept_ite (fun _ => ?_) (fun _ => ?_)
    | split
    | dsimp only

theorem execPartitionReset_kept {Q : List Instr} (now : Nat) (p : Nat) (cause : Nat) (s : State) (hs : s.Kept Q) {t : State} (e : execPartitionReset now p cause s = .next t) : t.Kept Q := by
  unfold execPartitionReset at e
  injection e with e
  subst e
  repeat' first
    | with_reducible assumption
    | with_reducible apply State.advance_kept
    | with_reducible apply State.addDump_kept
    | with_reducible apply State.addSat_kept
    | with_reducible apply State.partReset_kept
    | with_reducible apply State.actDone_kept
    | intro _
    | with_reducible refine kept_ite (fun _ => ?_) (fun _ => ?_)
    | split
    | dsimp only

theorem State.pressFence_kept {Q : List Instr} (s : State) (die : Nat) (e : Nat) (hs : s.Kept Q) : (State.pressFence s die e).Kept Q := by
  unfold State.pressFence
  repeat' first
    | with_reducible assumption
    | with_reducible apply State.pressRequeue_kept
    | with_reducible apply State.setFld_kept
    | with_reducible apply State.raise_kept
    | with_reducible apply State.setPress_kept
    | intro _
    | split
    | dsimp only

theorem State.unitOverrun_kept {Q : List Instr} (s : State) (d : Nat) (key : Nat) (hs : s.Kept Q) : (State.unitOverrun s d key).Kept Q := by
  unfold State.unitOverrun
  repeat' first
    | with_reducible assumption
    | with_reducible apply State.levelOne_kept
    | with_reducible apply State.overlayAdd_kept
    | with_reducible apply State.setFld_kept
    | with_reducible apply State.pressFence_kept
    | with_reducible apply State.abortLocal_kept
    | with_reducible apply foldl_kept
    | intro _
    | with_reducible refine kept_ite (fun _ => ?_) (fun _ => ?_)
    | split
    | dsimp only

theorem execActionOverrun_kept {Q : List Instr} (now : Nat) (dom : Nat) (s : State) (hs : s.Kept Q) {t : State} (e : execActionOverrun now dom s = .next t) : t.Kept Q := by
  unfold execActionOverrun at e
  injection e with e
  subst e
  repeat' first
    | with_reducible assumption
    | with_reducible apply State.advance_kept
    | with_reducible apply State.addRecord_kept
    | with_reducible apply State.actDone_kept
    | with_reducible apply State.unitOverrun_kept
    | with_reducible apply State.queueRec_kept
    | intro _
    | with_reducible refine kept_of_fst_eq (e := by with_reducible assumption) ?_
    | with_reducible refine kept_of_snd_eq (e := by with_reducible assumption) ?_
    | with_reducible refine kept_of_sndFst_eq (e := by with_reducible assumption) ?_
    | with_reducible refine kept_of_sndSnd_eq (e := by with_reducible assumption) ?_
    | with_reducible refine kept_ite (fun _ => ?_) (fun _ => ?_)
    | split
    | dsimp only

theorem State.switchOff_kept {Q : List Instr} (s : State) (d : Nat) (hs : s.Kept Q) : (State.switchOff s d).Kept Q := by
  unfold State.switchOff
  repeat' first
    | with_reducible assumption
    | intro _
    | with_reducible apply State.Kept.both
    | with_reducible apply State.Kept.split_
    | with_reducible refine State.Kept.wf (q := Q) ?_
    | split
    | simp only [↓State.kept_mk]
    | dsimp only

theorem State.memInvalid_kept {Q : List Instr} (s : State) (hs : s.Kept Q) : (State.memInvalid s).Kept Q := by
  unfold State.memInvalid
  repeat' first
    | with_reducible assumption
    | with_reducible apply State.setFld_kept
    | intro _
    | with_reducible apply State.Kept.both
    | with_reducible apply State.Kept.split_
    | with_reducible refine State.Kept.wf (q := Q) ?_
    | split
    | simp only [↓State.kept_mk]
    | dsimp only

theorem execPowerDomainFault_kept {Q : List Instr} (now : Nat) (dom : Nat) (s : State) (hs : s.Kept Q) {t : State} (e : execPowerDomainFault now dom s = .next t) : t.Kept Q := by
  unfold execPowerDomainFault at e
  injection e with e
  subst e
  repeat' first
    | with_reducible assumption
    | with_reducible apply State.advance_kept
    | with_reducible apply State.switchOff_kept
    | with_reducible apply State.grpFlush_kept
    | with_reducible apply State.cycleTile_kept
    | with_reducible apply State.flushTiles_kept
    | with_reducible apply State.addRecord_kept
    | with_reducible apply State.memInvalid_kept
    | with_reducible apply State.linkFail_kept
    | with_reducible apply State.setHasia_kept
    | intro _
    | with_reducible apply State.Kept.both
    | with_reducible apply State.Kept.split_
    | with_reducible apply memWf_clear
    | with_reducible refine State.Kept.wf (q := Q) ?_
    | with_reducible refine kept_ite (fun _ => ?_) (fun _ => ?_)
    | split
    | simp only [↓State.kept_mk]
    | dsimp only

theorem execUcieLaneRepair_kept {Q : List Instr} (die : Nat) (port : Nat) (ok : Bool) (s : State) (hs : s.Kept Q) {t : State} (e : execUcieLaneRepair die port ok s = .next t) : t.Kept Q := by
  unfold execUcieLaneRepair at e
  injection e with e
  subst e
  repeat' first
    | with_reducible assumption
    | with_reducible apply State.addRecord_kept
    | with_reducible apply State.abortLocal_kept
    | with_reducible apply State.linkFail_kept
    | with_reducible apply State.setHasia_kept
    | with_reducible apply foldl_kept
    | intro _
    | with_reducible refine kept_of_fst_eq (e := by with_reducible assumption) ?_
    | with_reducible refine kept_of_snd_eq (e := by with_reducible assumption) ?_
    | with_reducible refine kept_of_sndFst_eq (e := by with_reducible assumption) ?_
    | with_reducible refine kept_of_sndSnd_eq (e := by with_reducible assumption) ?_
    | with_reducible refine kept_ite (fun _ => ?_) (fun _ => ?_)
    | split
    | dsimp only

end Sys2Proof.Machine
end

