-- ==== Sys2Proof/Laws/KeptBoot.lean ====
section
/-!
SUPPORT. What every operation of Machine/Boot.lean keeps: the queue, and the canonical form of memory.
-/

set_option linter.unusedVariables false
set_option linter.unusedSimpArgs false

namespace Sys2Proof.Machine

theorem State.offState_kept {Q : List Instr} (s : State) (hs : s.Kept Q) : (State.offState s).Kept Q := by
  unfold State.offState
  refine foldl_kept _ (fun s x h => State.setFld_kept _ _ _ _ h) _ _ ?_
  refine State.setFld_kept _ _ _ _ (State.setFld_kept _ _ _ _ (State.setReg_kept _ _ _ ?_))
  exact ⟨hs.1, rfl⟩

theorem State.verifyImage_kept {Q : List Instr} (s : State) (ty : Nat) (hs : s.Kept Q) : (State.verifyImage s ty).Kept Q := by
  unfold State.verifyImage
  repeat' first
    | with_reducible assumption
    | with_reducible apply State.raise_kept
    | with_reducible apply State.trayRec_kept
    | with_reducible apply State.extendHallmark_kept
    | intro _
    | with_reducible refine kept_ite (fun _ => ?_) (fun _ => ?_)
    | split
    | dsimp only

theorem State.tilesUp_kept {Q : List Instr} (s : State) (p : Nat) (hs : s.Kept Q) : (State.tilesUp s p).Kept Q := by
  unfold State.tilesUp
  repeat' first
    | with_reducible assumption
    | with_reducible apply State.setFld_kept
    | with_reducible apply State.setPwr_kept
    | with_reducible apply foldl_kept
    | intro _
    | with_reducible apply State.Kept.both
    | with_reducible apply State.Kept.split_
    | with_reducible refine State.Kept.wf (q := Q) ?_
    | split
    | simp only [↓State.kept_mk]
    | dsimp only

theorem State.hostDieOn_kept {Q : List Instr} (s : State) (hs : s.Kept Q) : (State.hostDieOn s).Kept Q := by
  unfold State.hostDieOn
  repeat' first
    | with_reducible assumption
    | intro _
    | with_reducible apply State.Kept.both
    | with_reducible apply State.Kept.split_
    | with_reducible refine State.Kept.wf (q := Q) ?_
    | split
    | simp only [↓State.kept_mk]
    | dsimp only

theorem State.bootPower_kept {Q : List Instr} (s : State) (warm : Bool) (hs : s.Kept Q) : (State.bootPower s warm).Kept Q := by
  unfold State.bootPower
  repeat' first
    | with_reducible assumption
    | with_reducible apply State.tilesUp_kept
    | with_reducible apply State.setPwr_kept
    | with_reducible apply State.emergLine_kept
    | with_reducible apply State.hostDieOn_kept
    | with_reducible apply foldl_kept
    | intro _
    | with_reducible apply State.Kept.both
    | with_reducible apply State.Kept.split_
    | with_reducible refine State.Kept.wf (q := Q) ?_
    | with_reducible refine kept_ite (fun _ => ?_) (fun _ => ?_)
    | split
    | simp only [↓State.kept_mk]
    | dsimp only

theorem State.notReady_kept {Q : List Instr} (s : State) (cause : Nat) (hs : s.Kept Q) : (State.notReady s cause).Kept Q := by
  unfold State.notReady
  repeat' first
    | with_reducible assumption
    | intro _
    | with_reducible apply State.Kept.both
    | with_reducible apply State.Kept.split_
    | with_reducible refine State.Kept.wf (q := Q) ?_
    | with_reducible refine kept_ite (fun _ => ?_) (fun _ => ?_)
    | with_reducible refine keptVia_ite (fun _ => ?_) (fun _ => ?_)
    | split
    | simp only [↓State.kept_mk, ↓keptVia_fst, ↓keptVia_snd, ↓keptVia_sndFst, ↓keptVia_sndSnd]
    | with_reducible refine KeptVia.of _ ?_
    | dsimp only

theorem State.noAdmin_kept {Q : List Instr} (s : State) (hs : s.Kept Q) : (State.noAdmin s).Kept Q := by
  unfold State.noAdmin
  repeat' first
    | with_reducible assumption
    | with_reducible apply State.notReady_kept
    | intro _
    | with_reducible apply State.Kept.both
    | with_reducible apply State.Kept.split_
    | with_reducible refine State.Kept.wf (q := Q) ?_
    | split
    | simp only [↓State.kept_mk]
    | dsimp only

theorem State.bootLinks_kept {Q : List Instr} (s : State) (hs : s.Kept Q) : (State.bootLinks s).Kept Q := by
  unfold State.bootLinks
  repeat' first
    | with_reducible assumption
    | with_reducible apply State.noAdmin_kept
    | with_reducible apply State.notReady_kept
    | with_reducible apply State.handover_kept
    | with_reducible apply State.setHasia_kept
    | with_reducible apply State.linkFail_kept
    | with_reducible apply foldl_kept
    | with_reducible apply foldl_kept_fst
    | with_reducible apply foldl_kept_snd
    | intro _
    | with_reducible apply State.Kept.both
    | with_reducible apply State.Kept.split_
    | with_reducible refine State.Kept.wf (q := Q) ?_
    | with_reducible refine kept_ite (fun _ => ?_) (fun _ => ?_)
    | with_reducible refine keptVia_ite (fun _ => ?_) (fun _ => ?_)
    | split
    | simp only [↓State.kept_mk, ↓keptVia_fst, ↓keptVia_snd, ↓keptVia_sndFst, ↓keptVia_sndSnd]
    | with_reducible refine KeptVia.of _ ?_
    | dsimp only

theorem State.bootImages_kept {Q : List Instr} (s : State) (hs : s.Kept Q) : (State.bootImages s).Kept Q := by
  unfold State.bootImages
  repeat' first
    | with_reducible assumption
    | with_reducible apply State.verifyImage_kept
    | with_reducible apply State.noAdmin_kept
    | with_reducible apply State.tilesOff_kept
    | with_reducible apply foldl_kept
    | intro _
    | with_reducible apply State.Kept.both
    | with_reducible apply State.Kept.split_
    | with_reducible refine State.Kept.wf (q := Q) ?_
    | with_reducible refine kept_ite (fun _ => ?_) (fun _ => ?_)
    | split
    | simp only [↓State.kept_mk]
    | dsimp only

theorem State.bootUnits_kept {Q : List Instr} (s : State) (hs : s.Kept Q) : (State.bootUnits s).Kept Q := by
  unfold State.bootUnits
  repeat' first
    | with_reducible assumption
    | with_reducible apply State.setFld_kept
    | with_reducible apply State.notReady_kept
    | with_reducible apply foldl_kept
    | intro _
    | with_reducible refine kept_ite (fun _ => ?_) (fun _ => ?_)
    | split
    | dsimp only

theorem State.memTest_kept {Q : List Instr} (s : State) (hs : s.Kept Q) : (State.memTest s).Kept Q := by
  unfold State.memTest
  repeat' first
    | with_reducible assumption
    | with_reducible apply State.setFld_kept
    | with_reducible apply State.writeMcb_kept
    | with_reducible apply State.oweMcb_kept
    | intro _
    | with_reducible apply State.Kept.both
    | with_reducible apply State.Kept.split_
    | with_reducible refine State.Kept.wf (q := Q) ?_
    | with_reducible refine kept_ite (fun _ => ?_) (fun _ => ?_)
    | split
    | simp only [↓State.kept_mk]
    | dsimp only

theorem State.memInit_kept {Q : List Instr} (s : State) (hs : s.Kept Q) : (State.memInit s).Kept Q := by
  unfold State.memInit
  repeat' first
    | with_reducible assumption
    | with_reducible apply State.writeMcb_kept
    | with_reducible apply State.oweMcb_kept
    | with_reducible apply State.setFld_kept
    | with_reducible apply State.notReady_kept
    | intro _
    | with_reducible apply State.Kept.both
    | with_reducible apply State.Kept.split_
    | with_reducible apply memWf_clear
    | with_reducible refine State.Kept.wf (q := Q) ?_
    | with_reducible refine kept_ite (fun _ => ?_) (fun _ => ?_)
    | split
    | simp only [↓State.kept_mk]
    | dsimp only

theorem State.newSupers_kept {Q : List Instr} (s : State) (hs : s.Kept Q) : (State.newSupers s).Kept Q := by
  unfold State.newSupers
  repeat' first
    | with_reducible assumption
    | with_reducible apply State.put_kept
    | with_reducible apply foldl_kept
    | intro _
    | with_reducible apply State.Kept.both
    | with_reducible apply State.Kept.split_
    | with_reducible refine State.Kept.wf (q := Q) ?_
    | split
    | simp only [↓State.kept_mk]
    | dsimp only

theorem State.bootMemory_kept {Q : List Instr} (s : State) (warm : Bool) (hs : s.Kept Q) : (State.bootMemory s warm).Kept Q := by
  unfold State.bootMemory
  repeat' first
    | with_reducible assumption
    | with_reducible apply State.memInit_kept
    | with_reducible apply State.memTest_kept
    | with_reducible apply State.newSupers_kept
    | intro _
    | with_reducible refine kept_ite (fun _ => ?_) (fun _ => ?_)
    | split
    | dsimp only

theorem State.bootHost_kept {Q : List Instr} (s : State) (hs : s.Kept Q) : (State.bootHost s).Kept Q := by
  unfold State.bootHost
  repeat' first
    | with_reducible assumption
    | with_reducible apply State.verifyImage_kept
    | with_reducible apply State.hostDieOff_kept
    | intro _
    | with_reducible refine kept_ite (fun _ => ?_) (fun _ => ?_)
    | split
    | dsimp only

theorem State.assayUnits_kept {Q : List Instr} (s : State) (die : Nat) (kind : Nat) (n : Nat) (hs : s.Kept Q) : (State.assayUnits s die kind n).Kept Q := by
  unfold State.assayUnits
  repeat' first
    | with_reducible assumption
    | with_reducible apply State.overlayAdd_kept
    | with_reducible apply foldl_kept
    | intro _
    | with_reducible refine kept_ite (fun _ => ?_) (fun _ => ?_)
    | split
    | dsimp only

theorem State.assayPart_kept {Q : List Instr} (s : State) (p : Nat) (hs : s.Kept Q) : (State.assayPart s p).Kept Q := by
  unfold State.assayPart
  repeat' first
    | with_reducible assumption
    | with_reducible apply State.assayUnits_kept
    | with_reducible apply foldl_kept
    | intro _
    | split
    | dsimp only

theorem State.clearStores_kept {Q : List Instr} (s : State) (p : Nat) (hs : s.Kept Q) : (State.clearStores s p).Kept Q := by
  unfold State.clearStores
  repeat' first
    | with_reducible assumption
    | with_reducible apply foldl_kept
    | intro _
    | with_reducible apply State.Kept.both
    | with_reducible apply State.Kept.split_
    | with_reducible apply memWf_clear
    | with_reducible refine State.Kept.wf (q := Q) ?_
    | split
    | simp only [↓State.kept_mk]
    | dsimp only

theorem State.pendAssay_kept {Q : List Instr} (s : State) (m : Nat) (hs : s.Kept Q) : (State.pendAssay s m).Kept Q := by
  unfold State.pendAssay
  repeat' first
    | with_reducible assumption
    | with_reducible apply State.setFld_kept
    | intro _
    | with_reducible apply State.Kept.both
    | with_reducible apply State.Kept.split_
    | with_reducible refine State.Kept.wf (q := Q) ?_
    | split
    | simp only [↓State.kept_mk]
    | dsimp only

theorem State.bootAssay_kept {Q : List Instr} (s : State) (warm : Bool) (hs : s.Kept Q) : (State.bootAssay s warm).Kept Q := by
  unfold State.bootAssay
  repeat' first
    | with_reducible assumption
    | with_reducible apply State.assayPart_kept
    | with_reducible apply State.clearStores_kept
    | with_reducible apply State.pendAssay_kept
    | with_reducible apply State.assayUnits_kept
    | with_reducible apply State.notReady_kept
    | with_reducible apply foldl_kept
    | intro _
    | with_reducible refine kept_ite (fun _ => ?_) (fun _ => ?_)
    | split
    | dsimp only

theorem State.mapPress_kept {Q : List Instr} (s : State) (hs : s.Kept Q) : (State.mapPress s).Kept Q := by
  unfold State.mapPress
  repeat' first
    | with_reducible assumption
    | with_reducible apply State.setFld_kept
    | with_reducible apply foldl_kept
    | intro _
    | split
    | dsimp only

theorem State.sense_kept {Q : List Instr} (s : State) (src : Nat) (v : Bool) (hs : s.Kept Q) : (State.sense s src v).Kept Q := by
  unfold State.sense
  repeat' first
    | with_reducible assumption
    | with_reducible apply State.level_kept
    | with_reducible apply State.countSource_kept
    | intro _
    | with_reducible refine kept_ite (fun _ => ?_) (fun _ => ?_)
    | split
    | dsimp only

theorem State.senseAll_kept {Q : List Instr} (s : State) (hs : s.Kept Q) : (State.senseAll s).Kept Q := by
  unfold State.senseAll
  repeat' first
    | with_reducible assumption
    | with_reducible apply State.sense_kept
    | with_reducible apply State.setEvSrc_kept
    | with_reducible apply foldl_kept
    | with_reducible apply foldl_kept_fst
    | with_reducible apply foldl_kept_snd
    | intro _
    | split
    | simp only [↓keptVia_fst, ↓keptVia_snd, ↓keptVia_sndFst, ↓keptVia_sndSnd]
    | with_reducible refine KeptVia.of _ ?_
    | dsimp only

theorem State.bringUpPart_kept {Q : List Instr} (s : State) (p : Nat) (hs : s.Kept Q) : (State.bringUpPart s p).Kept Q := by
  unfold State.bringUpPart
  repeat' first
    | with_reducible assumption
    | with_reducible apply State.fenceBezel_kept
    | with_reducible apply State.mapTile_kept
    | with_reducible apply State.serviceCheck_kept
    | with_reducible apply State.jStart_kept
    | with_reducible apply State.openBezel_kept
    | with_reducible apply foldl_kept
    | intro _
    | with_reducible apply State.Kept.both
    | with_reducible apply State.Kept.split_
    | with_reducible refine State.Kept.wf (q := Q) ?_
    | with_reducible refine kept_ite (fun _ => ?_) (fun _ => ?_)
    | split
    | simp only [↓State.kept_mk]
    | dsimp only

theorem State.bringUp_kept {Q : List Instr} (s : State) (hs : s.Kept Q) : (State.bringUp s).Kept Q := by
  unfold State.bringUp
  repeat' first
    | with_reducible assumption
    | with_reducible apply State.writeMcb_kept
    | with_reducible apply State.setFld_kept
    | with_reducible apply State.applyRecs_kept
    | with_reducible apply State.mapPress_kept
    | with_reducible apply State.bringUpPart_kept
    | with_reducible apply State.deriveTrees_kept
    | with_reducible apply State.evSettle_kept
    | with_reducible apply State.repairMcb_kept
    | with_reducible apply State.senseAll_kept
    | with_reducible apply foldl_kept
    | intro _
    | with_reducible refine kept_ite (fun _ => ?_) (fun _ => ?_)
    | split
    | dsimp only

theorem State.bootEnd_kept {Q : List Instr} (s : State) (hs : s.Kept Q) : (State.bootEnd s).Kept Q := by
  unfold State.bootEnd
  repeat' first
    | with_reducible assumption
    | with_reducible apply State.reportReady_kept
    | with_reducible apply State.setFld_kept
    | intro _
    | with_reducible apply State.Kept.both
    | with_reducible apply State.Kept.split_
    | with_reducible refine State.Kept.wf (q := Q) ?_
    | with_reducible refine kept_ite (fun _ => ?_) (fun _ => ?_)
    | with_reducible refine keptVia_ite (fun _ => ?_) (fun _ => ?_)
    | split
    | simp only [↓State.kept_mk, ↓keptVia_fst, ↓keptVia_snd, ↓keptVia_sndFst, ↓keptVia_sndSnd]
    | with_reducible refine KeptVia.of _ ?_
    | dsimp only

theorem State.continueStart_kept {Q : List Instr} (s : State) (warm : Bool) (hs : s.Kept Q) : (State.continueStart s warm).Kept Q := by
  unfold State.continueStart
  repeat' first
    | with_reducible assumption
    | with_reducible apply State.bootPower_kept
    | with_reducible apply State.setFld_kept
    | with_reducible apply State.bootMemory_kept
    | with_reducible apply State.bootUnits_kept
    | with_reducible apply State.bootImages_kept
    | with_reducible apply State.bootLinks_kept
    | with_reducible apply State.bootAssay_kept
    | with_reducible apply State.bootHost_kept
    | with_reducible apply State.bootEnd_kept
    | with_reducible apply State.bringUp_kept
    | intro _
    | with_reducible apply State.Kept.both
    | with_reducible apply State.Kept.split_
    | with_reducible refine State.Kept.wf (q := Q) ?_
    | with_reducible refine kept_ite (fun _ => ?_) (fun _ => ?_)
    | split
    | simp only [↓State.kept_mk]
    | dsimp only

theorem State.holdStart_kept {Q : List Instr} (s : State) (step : Nat) (hs : s.Kept Q) : (State.holdStart s step).Kept Q := by
  unfold State.holdStart
  repeat' first
    | with_reducible assumption
    | with_reducible apply State.setFld_kept
    | intro _
    | with_reducible apply State.Kept.both
    | with_reducible apply State.Kept.split_
    | with_reducible refine State.Kept.wf (q := Q) ?_
    | split
    | simp only [↓State.kept_mk]
    | dsimp only

theorem State.afterStep2_kept {Q : List Instr} (s : State) (hs : s.Kept Q) : (State.afterStep2 s).Kept Q := by
  unfold State.afterStep2
  repeat' first
    | with_reducible assumption
    | with_reducible apply State.holdStart_kept
    | with_reducible apply State.continueStart_kept
    | intro _
    | with_reducible refine kept_ite (fun _ => ?_) (fun _ => ?_)
    | split
    | dsimp only

theorem State.bootFailed_kept {Q : List Instr} (s : State) (hs : s.Kept Q) : (State.bootFailed s).Kept Q := by
  unfold State.bootFailed
  repeat' first
    | with_reducible assumption
    | with_reducible apply State.offState_kept
    | intro _
    | with_reducible apply State.Kept.both
    | with_reducible apply State.Kept.split_
    | with_reducible refine State.Kept.wf (q := Q) ?_
    | split
    | simp only [↓State.kept_mk]
    | dsimp only

theorem State.treeReady_kept {Q : List Instr} (s : State) (hs : s.Kept Q) : (State.treeReady s).Kept Q := by
  unfold State.treeReady
  repeat' first
    | with_reducible assumption
    | with_reducible apply State.setFld_kept
    | with_reducible refine State.useLeaf_kept_leaf (e := by with_reducible assumption) ?_
    | with_reducible refine State.useLeaf_kept_busy (e := by with_reducible assumption) ?_
    | intro _
    | with_reducible refine kept_of_fst_eq (e := by with_reducible assumption) ?_
    | with_reducible refine kept_of_snd_eq (e := by with_reducible assumption) ?_
    | with_reducible refine kept_of_sndFst_eq (e := by with_reducible assumption) ?_
    | with_reducible refine kept_of_sndSnd_eq (e := by with_reducible assumption) ?_
    | split
    | dsimp only

theorem State.signBoot_kept {Q : List Instr} (s : State) (hs : s.Kept Q) : (State.signBoot s).Kept Q := by
  unfold State.signBoot
  repeat' first
    | with_reducible assumption
    | with_reducible refine State.useLeaf_kept_leaf (e := by with_reducible assumption) ?_
    | with_reducible refine State.useLeaf_kept_busy (e := by with_reducible assumption) ?_
    | intro _
    | with_reducible refine kept_of_fst_eq (e := by with_reducible assumption) ?_
    | with_reducible refine kept_of_snd_eq (e := by with_reducible assumption) ?_
    | with_reducible refine kept_of_sndFst_eq (e := by with_reducible assumption) ?_
    | with_reducible refine kept_of_sndSnd_eq (e := by with_reducible assumption) ?_
    | with_reducible apply State.Kept.both
    | with_reducible apply State.Kept.split_
    | with_reducible refine State.Kept.wf (q := Q) ?_
    | split
    | simp only [↓State.kept_mk]
    | dsimp only

theorem State.locketBoot_kept {Q : List Instr} (s : State) (bank : Nat) (hs : s.Kept Q) : (State.locketBoot s bank).Kept Q := by
  unfold State.locketBoot
  repeat' first
    | with_reducible assumption
    | with_reducible apply State.setFld_kept
    | with_reducible apply State.raise_kept
    | with_reducible apply State.extendHallmark_kept
    | with_reducible apply State.drawRandom_kept
    | with_reducible apply State.signBoot_kept
    | with_reducible apply State.treeReady_kept
    | with_reducible apply foldl_kept
    | intro _
    | with_reducible apply State.Kept.both
    | with_reducible apply State.Kept.split_
    | with_reducible refine State.Kept.wf (q := Q) ?_
    | with_reducible refine kept_ite (fun _ => ?_) (fun _ => ?_)
    | split
    | simp only [↓State.kept_mk]
    | dsimp only

theorem State.coldStart_kept {Q : List Instr} (s : State) (fails : List Nat) (hs : s.Kept Q) : (State.coldStart s fails).Kept Q := by
  unfold State.coldStart
  repeat' first
    | with_reducible assumption
    | with_reducible apply State.offState_kept
    | with_reducible apply State.addWrap_kept
    | with_reducible apply State.setFld_kept
    | with_reducible apply State.bootFailed_kept
    | with_reducible apply State.hasiaStart_kept
    | with_reducible apply State.readMcb_kept
    | with_reducible apply State.locketBoot_kept
    | with_reducible apply State.trayRec_kept
    | with_reducible apply State.afterStep2_kept
    | intro _
    | with_reducible refine kept_of_fst_eq (e := by with_reducible assumption) ?_
    | with_reducible refine kept_of_snd_eq (e := by with_reducible assumption) ?_
    | with_reducible refine kept_of_sndFst_eq (e := by with_reducible assumption) ?_
    | with_reducible refine kept_of_sndSnd_eq (e := by with_reducible assumption) ?_
    | with_reducible apply State.Kept.both
    | with_reducible apply State.Kept.split_
    | with_reducible refine State.Kept.wf (q := Q) ?_
    | with_reducible refine kept_ite (fun _ => ?_) (fun _ => ?_)
    | split
    | simp only [↓State.kept_mk]
    | dsimp only

theorem execColdStart_kept {Q : List Instr} (now : Nat) (env : BootEnv) (s : State) (hs : s.Kept Q) {t : State} (e : execColdStart now env s = .next t) : t.Kept Q := by
  unfold execColdStart at e
  injection e with e
  subst e
  repeat' first
    | with_reducible assumption
    | with_reducible apply State.advance_kept
    | with_reducible apply State.coldStart_kept
    | intro _
    | with_reducible refine kept_ite (fun _ => ?_) (fun _ => ?_)
    | split
    | dsimp only

theorem State.sendStops_kept {Q : List Instr} (s : State) (reason : Nat) (hs : s.Kept Q) : (State.sendStops s reason).Kept Q := by
  unfold State.sendStops
  repeat' first
    | with_reducible assumption
    | with_reducible apply State.sendHop_kept
    | with_reducible apply foldl_kept
    | intro _
    | with_reducible refine kept_ite (fun _ => ?_) (fun _ => ?_)
    | split
    | dsimp only

theorem State.abortAll_kept {Q : List Instr} (s : State) (cause : Nat) (hs : s.Kept Q) : (State.abortAll s cause).Kept Q := by
  unfold State.abortAll
  repeat' first
    | with_reducible assumption
    | with_reducible apply State.abortLocal_kept
    | with_reducible apply foldl_kept
    | intro _
    | split
    | dsimp only

theorem State.fenceAll_kept {Q : List Instr} (s : State) (by_ : Nat) (hs : s.Kept Q) : (State.fenceAll s by_).Kept Q := by
  unfold State.fenceAll
  repeat' first
    | with_reducible assumption
    | with_reducible apply State.fenceBezel_kept
    | with_reducible apply foldl_kept
    | intro _
    | with_reducible refine kept_ite (fun _ => ?_) (fun _ => ?_)
    | split
    | dsimp only

theorem State.resetDies_kept {Q : List Instr} (s : State) (hs : s.Kept Q) : (State.resetDies s).Kept Q := by
  unfold State.resetDies
  repeat' first
    | with_reducible assumption
    | with_reducible apply State.evModuleReset_kept
    | with_reducible apply State.resetTiles_kept
    | with_reducible apply State.resetRegs_kept
    | with_reducible apply foldl_kept
    | intro _
    | split
    | dsimp only

theorem State.closeHandlings_kept {Q : List Instr} (s : State) (hs : s.Kept Q) : (State.closeHandlings s).Kept Q := by
  unfold State.closeHandlings
  repeat' first
    | with_reducible assumption
    | intro _
    | with_reducible apply State.Kept.both
    | with_reducible apply State.Kept.split_
    | with_reducible refine State.Kept.wf (q := Q) ?_
    | with_reducible refine kept_ite (fun _ => ?_) (fun _ => ?_)
    | with_reducible refine keptVia_ite (fun _ => ?_) (fun _ => ?_)
    | split
    | simp only [↓State.kept_mk, ↓keptVia_fst, ↓keptVia_snd, ↓keptVia_sndFst, ↓keptVia_sndSnd]
    | with_reducible refine KeptVia.of _ ?_
    | dsimp only

theorem State.resetCore_kept {Q : List Instr} (s : State) (st : Status) (hs : s.Kept Q) : (State.resetCore s st).Kept Q := by
  unfold State.resetCore
  repeat' first
    | with_reducible assumption
    | with_reducible apply State.setReg_kept
    | with_reducible apply State.dropGroups_kept
    | with_reducible apply State.flushTiles_kept
    | with_reducible apply State.discard_kept
    | with_reducible apply State.resetDies_kept
    | with_reducible apply State.setFld_kept
    | with_reducible apply State.setPwr_kept
    | with_reducible apply State.closeHandlings_kept
    | with_reducible apply State.sense_kept
    | with_reducible apply foldl_kept
    | intro _
    | with_reducible apply State.Kept.both
    | with_reducible apply State.Kept.split_
    | with_reducible refine State.Kept.wf (q := Q) ?_
    | with_reducible refine kept_ite (fun _ => ?_) (fun _ => ?_)
    | split
    | simp only [↓State.kept_mk]
    | dsimp only

theorem State.beginWarm_kept {Q : List Instr} (s : State) (fails : List Nat) (hs : s.Kept Q) : (State.beginWarm s fails).Kept Q := by
  unfold State.beginWarm
  repeat' first
    | with_reducible assumption
    | with_reducible apply State.setFld_kept
    | with_reducible apply State.setReg_kept
    | intro _
    | with_reducible apply State.Kept.both
    | with_reducible apply State.Kept.split_
    | with_reducible refine State.Kept.wf (q := Q) ?_
    | split
    | simp only [↓State.kept_mk, ↓keptVia_fst, ↓keptVia_snd, ↓keptVia_sndFst, ↓keptVia_sndSnd]
    | with_reducible refine KeptVia.of _ ?_
    | dsimp only

theorem State.moduleReset_kept {Q : List Instr} (s : State) (d : Nat) (cause : Nat) (fails : List Nat) (hs : s.Kept Q) : (State.moduleReset s d cause fails).Kept Q := by
  unfold State.moduleReset
  repeat' first
    | with_reducible assumption
    | with_reducible apply State.addDump_kept
    | with_reducible apply State.trayRec_kept
    | with_reducible apply State.addSat_kept
    | with_reducible apply State.fenceAll_kept
    | with_reducible apply State.sendStops_kept
    | with_reducible apply State.abortAll_kept
    | with_reducible apply State.resetCore_kept
    | with_reducible apply State.startLevel_kept
    | with_reducible apply State.beginWarm_kept
    | with_reducible apply State.continueStart_kept
    | with_reducible apply State.holdStart_kept
    | intro _
    | with_reducible apply State.Kept.both
    | with_reducible apply State.Kept.split_
    | with_reducible refine State.Kept.wf (q := Q) ?_
    | with_reducible refine kept_ite (fun _ => ?_) (fun _ => ?_)
    | split
    | simp only [↓State.kept_mk]
    | dsimp only

theorem execModuleReset_kept {Q : List Instr} (now : Nat) (cause : Nat) (env : BootEnv) (s : State) (hs : s.Kept Q) {t : State} (e : execModuleReset now cause env s = .next t) : t.Kept Q := by
  unfold execModuleReset at e
  injection e with e
  subst e
  repeat' first
    | with_reducible assumption
    | with_reducible apply State.advance_kept
    | with_reducible apply State.moduleReset_kept
    | intro _
    | with_reducible refine kept_of_fst_eq (e := by with_reducible assumption) ?_
    | with_reducible refine kept_of_snd_eq (e := by with_reducible assumption) ?_
    | with_reducible refine kept_of_sndFst_eq (e := by with_reducible assumption) ?_
    | with_reducible refine kept_of_sndSnd_eq (e := by with_reducible assumption) ?_
    | with_reducible refine kept_ite (fun _ => ?_) (fun _ => ?_)
    | split
    | dsimp only

theorem execTimeWaitExpire_kept {Q : List Instr} (now : Nat) (s : State) (hs : s.Kept Q) {t : State} (e : execTimeWaitExpire now s = .next t) : t.Kept Q := by
  unfold execTimeWaitExpire at e
  injection e with e
  subst e
  repeat' first
    | with_reducible assumption
    | with_reducible apply State.advance_kept
    | with_reducible apply State.reportReady_kept
    | intro _
    | with_reducible refine kept_ite (fun _ => ?_) (fun _ => ?_)
    | split
    | dsimp only

theorem execHold3Write_kept {Q : List Instr} (now : Nat) (v : Bool) (by_ : Writer) (s : State) (hs : s.Kept Q) {t : State} (e : execHold3Write now v by_ s = .next t) : t.Kept Q := by
  unfold execHold3Write at e
  injection e with e
  subst e
  repeat' first
    | with_reducible assumption
    | with_reducible apply State.advance_kept
    | with_reducible apply State.setFld_kept
    | with_reducible apply State.afterStep2_kept
    | intro _
    | with_reducible refine kept_ite (fun _ => ?_) (fun _ => ?_)
    | split
    | dsimp only

theorem State.setNode_kept {Q : List Instr} (s : State) (f : Fld) (v : Nat) (hs : s.Kept Q) : (State.setNode s f v).Kept Q := by
  unfold State.setNode
  repeat' first
    | with_reducible assumption
    | with_reducible apply State.setFld_kept
    | with_reducible apply foldl_kept
    | intro _
    | split
    | dsimp only

theorem State.retrainAll_kept {Q : List Instr} (s : State) (hs : s.Kept Q) : (State.retrainAll s).Kept Q := by
  unfold State.retrainAll
  repeat' first
    | with_reducible assumption
    | with_reducible apply State.setLink_kept
    | with_reducible apply foldl_kept
    | intro _
    | with_reducible refine kept_ite (fun _ => ?_) (fun _ => ?_)
    | split
    | dsimp only

theorem State.writeNode_kept {Q : List Instr} (s : State) (node : Nat) (zsize : Nat) (master : Nat) (hs : s.Kept Q) : (State.writeNode s node zsize master).Kept Q := by
  unfold State.writeNode
  repeat' first
    | with_reducible assumption
    | with_reducible apply State.addSat_kept
    | with_reducible apply State.setFld_kept
    | with_reducible apply State.trayRec_kept
    | with_reducible apply State.setNode_kept
    | with_reducible apply State.tryReady_kept
    | with_reducible apply State.retrainAll_kept
    | intro _
    | with_reducible refine kept_ite (fun _ => ?_) (fun _ => ?_)
    | split
    | dsimp only

theorem execNodeIdWrite_kept {Q : List Instr} (now : Nat) (node : Nat) (zsize : Nat) (master : Nat) (s : State) (hs : s.Kept Q) {t : State} (e : execNodeIdWrite now node zsize master s = .next t) : t.Kept Q := by
  unfold execNodeIdWrite at e
  injection e with e
  subst e
  repeat' first
    | with_reducible assumption
    | with_reducible apply State.advance_kept
    | with_reducible apply State.writeNode_kept
    | intro _
    | with_reducible refine kept_ite (fun _ => ?_) (fun _ => ?_)
    | split
    | dsimp only

end Sys2Proof.Machine
end

