-- ==== Sys2Proof/Laws/KeptConnector.lean ====
section
/-!
SUPPORT. What every operation of Machine/Connector.lean keeps: the queue, and the canonical form of memory.
-/

set_option linter.unusedVariables false
set_option linter.unusedSimpArgs false

namespace Sys2Proof.Machine

theorem State.inPin_kept {Q : List Instr} (s : State) (f : Fld) (src : Nat) (v : Bool) (hs : s.Kept Q) : (State.inPin s f src v).Kept Q := by
  unfold State.inPin
  repeat' first
    | with_reducible assumption
    | with_reducible apply State.setPin_kept
    | with_reducible apply State.setFld_kept
    | intro _
    | split
    | dsimp only

theorem State.stopRecord_kept {Q : List Instr} (s : State) (cause : Nat) (hs : s.Kept Q) : (State.stopRecord s cause).Kept Q := by
  unfold State.stopRecord
  repeat' first
    | with_reducible assumption
    | with_reducible apply State.drawBytes_kept
    | intro _
    | with_reducible apply State.Kept.both
    | with_reducible apply State.Kept.split_
    | with_reducible refine State.Kept.wf (q := Q) ?_
    | with_reducible refine kept_ite (fun _ => ?_) (fun _ => ?_)
    | split
    | simp only [↓State.kept_mk]
    | dsimp only

theorem State.fastStop_kept {Q : List Instr} (s : State) (cause : Nat) (hs : s.Kept Q) : (State.fastStop s cause).Kept Q := by
  unfold State.fastStop
  repeat' first
    | with_reducible assumption
    | with_reducible apply State.offState_kept
    | with_reducible apply State.stopRecord_kept
    | with_reducible apply State.sendStops_kept
    | intro _
    | with_reducible apply State.Kept.both
    | with_reducible apply State.Kept.split_
    | with_reducible refine State.Kept.wf (q := Q) ?_
    | with_reducible refine kept_ite (fun _ => ?_) (fun _ => ?_)
    | split
    | simp only [↓State.kept_mk]
    | dsimp only

theorem execFastStop_kept {Q : List Instr} (now : Nat) (cause : Nat) (s : State) (hs : s.Kept Q) {t : State} (e : execFastStop now cause s = .next t) : t.Kept Q := by
  unfold execFastStop at e
  injection e with e
  subst e
  repeat' first
    | with_reducible assumption
    | with_reducible apply State.advance_kept
    | with_reducible apply State.inPin_kept
    | with_reducible apply State.setFld_kept
    | with_reducible apply State.fastStop_kept
    | intro _
    | with_reducible apply State.Kept.both
    | with_reducible apply State.Kept.split_
    | with_reducible refine State.Kept.wf (q := Q) ?_
    | with_reducible refine kept_ite (fun _ => ?_) (fun _ => ?_)
    | split
    | simp only [↓State.kept_mk]
    | dsimp only

theorem execInputVoltageEvent_kept {Q : List Instr} (now : Nat) (mv : Nat) (durUs : Nat) (s : State) (hs : s.Kept Q) {t : State} (e : execInputVoltageEvent now mv durUs s = .next t) : t.Kept Q := by
  unfold execInputVoltageEvent at e
  injection e with e
  subst e
  repeat' first
    | with_reducible assumption
    | with_reducible apply State.advance_kept
    | with_reducible apply State.fastStop_kept
    | intro _
    | with_reducible refine kept_of_fst_eq (e := by with_reducible assumption) ?_
    | with_reducible refine kept_of_snd_eq (e := by with_reducible assumption) ?_
    | with_reducible refine kept_of_sndFst_eq (e := by with_reducible assumption) ?_
    | with_reducible refine kept_of_sndSnd_eq (e := by with_reducible assumption) ?_
    | with_reducible apply State.Kept.both
    | with_reducible apply State.Kept.split_
    | with_reducible refine State.Kept.wf (q := Q) ?_
    | with_reducible refine kept_ite (fun _ => ?_) (fun _ => ?_)
    | split
    | simp only [↓State.kept_mk]
    | dsimp only

theorem execInputPowerApplied_kept {Q : List Instr} (mv : Nat) (s : State) (hs : s.Kept Q) {t : State} (e : execInputPowerApplied mv s = .next t) : t.Kept Q := by
  unfold execInputPowerApplied at e
  injection e with e
  subst e
  repeat' first
    | with_reducible assumption
    | with_reducible apply State.setFld_kept
    | with_reducible apply State.inPin_kept
    | intro _
    | with_reducible apply State.Kept.both
    | with_reducible apply State.Kept.split_
    | with_reducible refine State.Kept.wf (q := Q) ?_
    | with_reducible refine kept_ite (fun _ => ?_) (fun _ => ?_)
    | split
    | simp only [↓State.kept_mk]
    | dsimp only

theorem execPowerUp_kept {Q : List Instr} (now : Nat) (env : BootEnv) (s : State) (hs : s.Kept Q) {t : State} (e : execPowerUp now env s = .next t) : t.Kept Q := by
  unfold execPowerUp at e
  injection e with e
  subst e
  repeat' first
    | with_reducible assumption
    | with_reducible apply State.advance_kept
    | with_reducible apply State.inPin_kept
    | with_reducible apply State.coldStart_kept
    | intro _
    | with_reducible apply State.Kept.both
    | with_reducible apply State.Kept.split_
    | with_reducible refine State.Kept.wf (q := Q) ?_
    | with_reducible refine kept_ite (fun _ => ?_) (fun _ => ?_)
    | split
    | simp only [↓State.kept_mk]
    | dsimp only

theorem execOrderedShutdown_kept {Q : List Instr} (now : Nat) (s : State) (hs : s.Kept Q) {t : State} (e : execOrderedShutdown now s = .next t) : t.Kept Q := by
  unfold execOrderedShutdown at e
  injection e with e
  subst e
  repeat' first
    | with_reducible assumption
    | with_reducible apply State.advance_kept
    | with_reducible apply State.inPin_kept
    | with_reducible apply State.offState_kept
    | with_reducible apply State.writeMcb_kept
    | with_reducible apply State.oweMcb_kept
    | with_reducible apply State.fenceAll_kept
    | with_reducible apply State.abortAll_kept
    | with_reducible apply State.sendStops_kept
    | intro _
    | with_reducible apply State.Kept.both
    | with_reducible apply State.Kept.split_
    | with_reducible refine State.Kept.wf (q := Q) ?_
    | with_reducible refine kept_ite (fun _ => ?_) (fun _ => ?_)
    | split
    | simp only [↓State.kept_mk]
    | dsimp only

theorem execResetNAssert_kept {Q : List Instr} (now : Nat) (s : State) (hs : s.Kept Q) {t : State} (e : execResetNAssert now s = .next t) : t.Kept Q := by
  unfold execResetNAssert at e
  injection e with e
  subst e
  repeat' first
    | with_reducible assumption
    | with_reducible apply State.advance_kept
    | with_reducible apply State.inPin_kept
    | with_reducible apply State.moduleReset_kept
    | intro _
    | with_reducible apply State.Kept.both
    | with_reducible apply State.Kept.split_
    | with_reducible refine State.Kept.wf (q := Q) ?_
    | with_reducible refine kept_ite (fun _ => ?_) (fun _ => ?_)
    | split
    | simp only [↓State.kept_mk]
    | dsimp only

theorem execResetNRelease_kept {Q : List Instr} (now : Nat) (env : BootEnv) (s : State) (hs : s.Kept Q) {t : State} (e : execResetNRelease now env s = .next t) : t.Kept Q := by
  unfold execResetNRelease at e
  injection e with e
  subst e
  repeat' first
    | with_reducible assumption
    | with_reducible apply State.advance_kept
    | with_reducible apply State.inPin_kept
    | with_reducible apply State.continueStart_kept
    | with_reducible apply State.afterStep2_kept
    | intro _
    | with_reducible apply State.Kept.both
    | with_reducible apply State.Kept.split_
    | with_reducible refine State.Kept.wf (q := Q) ?_
    | with_reducible refine kept_ite (fun _ => ?_) (fun _ => ?_)
    | split
    | simp only [↓State.kept_mk]
    | dsimp only

theorem execForceOff_kept {Q : List Instr} (s : State) (hs : s.Kept Q) {t : State} (e : execForceOff s = .next t) : t.Kept Q := by
  unfold execForceOff at e
  injection e with e
  subst e
  repeat' first
    | with_reducible assumption
    | with_reducible apply State.offState_kept
    | with_reducible apply State.inPin_kept
    | intro _
    | with_reducible apply State.Kept.both
    | with_reducible apply State.Kept.split_
    | with_reducible refine State.Kept.wf (q := Q) ?_
    | split
    | simp only [↓State.kept_mk]
    | dsimp only

theorem execForceOffRelease_kept {Q : List Instr} (now : Nat) (env : BootEnv) (s : State) (hs : s.Kept Q) {t : State} (e : execForceOffRelease now env s = .next t) : t.Kept Q := by
  unfold execForceOffRelease at e
  injection e with e
  subst e
  repeat' first
    | with_reducible assumption
    | with_reducible apply State.advance_kept
    | with_reducible apply State.inPin_kept
    | with_reducible apply State.coldStart_kept
    | intro _
    | with_reducible apply State.Kept.both
    | with_reducible apply State.Kept.split_
    | with_reducible refine State.Kept.wf (q := Q) ?_
    | with_reducible refine kept_ite (fun _ => ?_) (fun _ => ?_)
    | split
    | simp only [↓State.kept_mk]
    | dsimp only

theorem execThermalTrip_kept {Q : List Instr} (die : Nat) (s : State) (hs : s.Kept Q) {t : State} (e : execThermalTrip die s = .next t) : t.Kept Q := by
  unfold execThermalTrip at e
  injection e with e
  subst e
  repeat' first
    | with_reducible assumption
    | with_reducible apply State.offState_kept
    | intro _
    | with_reducible apply State.Kept.both
    | with_reducible apply State.Kept.split_
    | with_reducible refine State.Kept.wf (q := Q) ?_
    | with_reducible refine kept_ite (fun _ => ?_) (fun _ => ?_)
    | split
    | simp only [↓State.kept_mk]
    | dsimp only

theorem execFlashRecovery_kept {Q : List Instr} (banks : List Nat) (s : State) (hs : s.Kept Q) {t : State} (e : execFlashRecovery banks s = .next t) : t.Kept Q := by
  unfold execFlashRecovery at e
  injection e with e
  subst e
  repeat' first
    | with_reducible assumption
    | intro _
    | with_reducible refine kept_of_fst_eq (e := by with_reducible assumption) ?_
    | with_reducible refine kept_of_snd_eq (e := by with_reducible assumption) ?_
    | with_reducible refine kept_of_sndFst_eq (e := by with_reducible assumption) ?_
    | with_reducible refine kept_of_sndSnd_eq (e := by with_reducible assumption) ?_
    | with_reducible apply State.Kept.both
    | with_reducible apply State.Kept.split_
    | with_reducible refine State.Kept.wf (q := Q) ?_
    | with_reducible refine kept_ite (fun _ => ?_) (fun _ => ?_)
    | with_reducible refine keptVia_ite (fun _ => ?_) (fun _ => ?_)
    | split
    | simp only [↓State.kept_mk, ↓keptVia_fst, ↓keptVia_snd, ↓keptVia_sndFst, ↓keptVia_sndSnd]
    | with_reducible refine KeptVia.of _ ?_
    | dsimp only

theorem execDomainOffOrder_kept {Q : List Instr} (now : Nat) (p : Nat) (s : State) (hs : s.Kept Q) {t : State} (e : execDomainOffOrder now p s = .next t) : t.Kept Q := by
  unfold execDomainOffOrder at e
  injection e with e
  subst e
  repeat' first
    | with_reducible assumption
    | with_reducible apply State.advance_kept
    | with_reducible apply State.fencePart_kept
    | with_reducible apply State.fenceBezel_kept
    | with_reducible apply State.abortLocal_kept
    | with_reducible apply State.tilesOff_kept
    | with_reducible apply State.setPwr_kept
    | with_reducible apply foldl_kept
    | intro _
    | with_reducible refine kept_ite (fun _ => ?_) (fun _ => ?_)
    | split
    | dsimp only

theorem State.readyDegraded_kept {Q : List Instr} (s : State) (hs : s.Kept Q) : (State.readyDegraded s).Kept Q := by
  unfold State.readyDegraded
  repeat' first
    | with_reducible assumption
    | with_reducible apply State.trayRec_kept
    | with_reducible apply State.setFld_kept
    | intro _
    | with_reducible refine kept_ite (fun _ => ?_) (fun _ => ?_)
    | split
    | dsimp only

theorem State.lateAssay_kept {Q : List Instr} (s : State) (p : Nat) (hs : s.Kept Q) : (State.lateAssay s p).Kept Q := by
  unfold State.lateAssay
  repeat' first
    | with_reducible assumption
    | with_reducible apply State.pendAssay_kept
    | with_reducible apply State.assayPart_kept
    | with_reducible apply State.writeMcb_kept
    | with_reducible apply State.serviceCheck_kept
    | with_reducible apply State.mapTile_kept
    | with_reducible apply foldl_kept
    | intro _
    | with_reducible refine kept_ite (fun _ => ?_) (fun _ => ?_)
    | split
    | dsimp only

theorem execDomainOn_kept {Q : List Instr} (now : Nat) (p : Nat) (s : State) (hs : s.Kept Q) {t : State} (e : execDomainOn now p s = .next t) : t.Kept Q := by
  unfold execDomainOn at e
  injection e with e
  subst e
  repeat' first
    | with_reducible assumption
    | with_reducible apply State.advance_kept
    | with_reducible apply State.lateAssay_kept
    | with_reducible apply State.tilesUp_kept
    | with_reducible apply State.openBezel_kept
    | with_reducible apply State.readyDegraded_kept
    | intro _
    | with_reducible refine kept_ite (fun _ => ?_) (fun _ => ?_)
    | split
    | dsimp only

theorem State.rackOrder_kept {Q : List Instr} (s : State) (v : Nat) (hs : s.Kept Q) : (State.rackOrder s v).Kept Q := by
  unfold State.rackOrder
  repeat' first
    | with_reducible assumption
    | with_reducible apply State.setFld_kept
    | with_reducible apply State.bootHost_kept
    | with_reducible apply State.hostDieOn_kept
    | with_reducible apply State.hostDieOff_kept
    | intro _
    | with_reducible refine kept_ite (fun _ => ?_) (fun _ => ?_)
    | split
    | dsimp only

theorem execRackOrderWrite_kept {Q : List Instr} (now : Nat) (v : Nat) (by_ : Writer) (s : State) (hs : s.Kept Q) {t : State} (e : execRackOrderWrite now v by_ s = .next t) : t.Kept Q := by
  unfold execRackOrderWrite at e
  injection e with e
  subst e
  repeat' first
    | with_reducible assumption
    | with_reducible apply State.advance_kept
    | with_reducible apply State.rackOrder_kept
    | intro _
    | with_reducible refine kept_ite (fun _ => ?_) (fun _ => ?_)
    | split
    | dsimp only

end Sys2Proof.Machine
end

