-- ==== Sys2Proof/Laws/KeptRegWrite.lean ====
section
/-!
SUPPORT. What every operation of Machine/RegWrite.lean keeps: the queue, and the canonical form of memory.
-/

set_option linter.unusedVariables false
set_option linter.unusedSimpArgs false

namespace Sys2Proof.Machine

theorem leaves_kept {Q : List Instr} (s : State) (f : State → Host.Outcome State Fault Refusal) (hs : s.Kept Q)
    (hf : ∀ t, f s = .next t → t.Kept Q) : (leaves s f).Kept Q := by
  unfold leaves
  split
  · exact hf _ ‹_›
  · exact hs

theorem State.guarded_kept {Q : List Instr} (s : State) (a : Nat) (d : RegDef) (is : List Nat) (v : Word) (hs : s.Kept Q) : (State.guarded s a d is v).Kept Q := by
  unfold State.guarded
  repeat' first
    | with_reducible assumption
    | with_reducible apply State.raise_kept
    | with_reducible apply State.addSat_kept
    | with_reducible apply State.writeNode_kept
    | with_reducible apply State.setFld_kept
    | with_reducible apply foldl_kept
    | intro _
    | with_reducible refine kept_ite (fun _ => ?_) (fun _ => ?_)
    | split
    | dsimp only

theorem State.plain_kept {Q : List Instr} (s : State) (a : Nat) (d : RegDef) (v : Word) (hs : s.Kept Q) : (State.plain s a d v).Kept Q := by
  unfold State.plain
  repeat' first
    | with_reducible assumption
    | with_reducible apply State.setReg_kept
    | intro _
    | split
    | dsimp only

theorem State.evcStore_kept {Q : List Instr} (s : State) (a : Nat) (d : RegDef) (is : List Nat) (v : Word) (w : Writer) (hs : s.Kept Q) : (State.evcStore s a d is v w).Kept Q := by
  unfold State.evcStore
  repeat' first
    | with_reducible assumption
    | with_reducible apply leaves_kept
    | with_reducible refine execGlobalDisableWrite_kept (e := by with_reducible assumption) (hs := ?_) ..
    | with_reducible apply State.lockRefused_kept
    | with_reducible refine execSourceMaskWrite_kept (e := by with_reducible assumption) (hs := ?_) ..
    | with_reducible refine execRouteWrite_kept (e := by with_reducible assumption) (hs := ?_) ..
    | with_reducible refine execSourceModeWrite_kept (e := by with_reducible assumption) (hs := ?_) ..
    | with_reducible apply State.evSettle_kept
    | with_reducible apply State.setFld_kept
    | with_reducible apply State.plain_kept
    | with_reducible refine execComplete_kept (e := by with_reducible assumption) (hs := ?_) ..
    | with_reducible refine execStrandConsWrite_kept (e := by with_reducible assumption) (hs := ?_) ..
    | intro _
    | with_reducible refine kept_of_fst_eq (e := by with_reducible assumption) ?_
    | with_reducible refine kept_of_snd_eq (e := by with_reducible assumption) ?_
    | with_reducible refine kept_of_sndFst_eq (e := by with_reducible assumption) ?_
    | with_reducible refine kept_of_sndSnd_eq (e := by with_reducible assumption) ?_
    | with_reducible refine kept_ite (fun _ => ?_) (fun _ => ?_)
    | split
    | dsimp only

theorem State.dieStore_kept {Q : List Instr} (s : State) (a : Nat) (d : RegDef) (is : List Nat) (v : Word) (w : Writer) (hs : s.Kept Q) : (State.dieStore s a d is v w).Kept Q := by
  unfold State.dieStore
  repeat' first
    | with_reducible assumption
    | with_reducible apply State.plain_kept
    | with_reducible apply State.ownMe_kept
    | with_reducible apply State.ownMv_kept
    | with_reducible apply leaves_kept
    | with_reducible refine execMeGroupReset_kept (e := by with_reducible assumption) (hs := ?_) ..
    | with_reducible refine execUnitFaultPop_kept (e := by with_reducible assumption) (hs := ?_) ..
    | with_reducible refine execMoverAbort_kept (e := by with_reducible assumption) (hs := ?_) ..
    | with_reducible refine execPipReset_kept (e := by with_reducible assumption) (hs := ?_) ..
    | with_reducible refine execTsEccClear_kept (e := by with_reducible assumption) (hs := ?_) ..
    | with_reducible refine execEccstatClear_kept (e := by with_reducible assumption) (hs := ?_) ..
    | with_reducible refine execUelogPop_kept (e := by with_reducible assumption) (hs := ?_) ..
    | with_reducible refine execPressEngineReset_kept (e := by with_reducible assumption) (hs := ?_) ..
    | with_reducible apply State.setFld_kept
    | with_reducible refine execLinkEnableWrite_kept (e := by with_reducible assumption) (hs := ?_) ..
    | with_reducible refine execLinkRetrainOrder_kept (e := by with_reducible assumption) (hs := ?_) ..
    | with_reducible refine execAbortlogPop_kept (e := by with_reducible assumption) (hs := ?_) ..
    | with_reducible apply State.byOwner_kept
    | with_reducible apply State.keepalive_kept
    | with_reducible refine execWdogKick_kept (e := by with_reducible assumption) (hs := ?_) ..
    | with_reducible refine execErrqPop_kept (e := by with_reducible assumption) (hs := ?_) ..
    | with_reducible refine execBezelFence_kept (e := by with_reducible assumption) (hs := ?_) ..
    | with_reducible refine execBezelOpen_kept (e := by with_reducible assumption) (hs := ?_) ..
    | with_reducible refine execPartitionReset_kept (e := by with_reducible assumption) (hs := ?_) ..
    | with_reducible apply foldl_kept
    | intro _
    | with_reducible refine kept_of_fst_eq (e := by with_reducible assumption) ?_
    | with_reducible refine kept_of_snd_eq (e := by with_reducible assumption) ?_
    | with_reducible refine kept_of_sndFst_eq (e := by with_reducible assumption) ?_
    | with_reducible refine kept_of_sndSnd_eq (e := by with_reducible assumption) ?_
    | with_reducible refine kept_ite (fun _ => ?_) (fun _ => ?_)
    | split
    | dsimp only

theorem State.mgmtStore_kept {Q : List Instr} (s : State) (a : Nat) (d : RegDef) (is : List Nat) (v : Word) (w : Writer) (hs : s.Kept Q) : (State.mgmtStore s a d is v w).Kept Q := by
  unfold State.mgmtStore
  repeat' first
    | with_reducible assumption
    | with_reducible apply State.setReg_kept
    | with_reducible apply State.rackOrder_kept
    | with_reducible apply State.trayBeat_kept
    | with_reducible apply State.trayCause_kept
    | with_reducible apply leaves_kept
    | with_reducible refine execHold3Write_kept (e := by with_reducible assumption) (hs := ?_) ..
    | with_reducible refine execOverlayClear_kept (e := by with_reducible assumption) (hs := ?_) ..
    | with_reducible apply State.orderSwap_kept
    | with_reducible apply State.setFld_kept
    | with_reducible refine execErrqPop_kept (e := by with_reducible assumption) (hs := ?_) ..
    | with_reducible refine execSvnCommit_kept (e := by with_reducible assumption) (hs := ?_) ..
    | with_reducible refine execLinkKeyingSubmit_kept (e := by with_reducible assumption) (hs := ?_) ..
    | with_reducible refine execLinkKeyDrop_kept (e := by with_reducible assumption) (hs := ?_) ..
    | with_reducible refine execDebugNonceReq_kept (e := by with_reducible assumption) (hs := ?_) ..
    | with_reducible refine execDebugUnlockSubmit_kept (e := by with_reducible assumption) (hs := ?_) ..
    | intro _
    | with_reducible refine kept_of_fst_eq (e := by with_reducible assumption) ?_
    | with_reducible refine kept_of_snd_eq (e := by with_reducible assumption) ?_
    | with_reducible refine kept_of_sndFst_eq (e := by with_reducible assumption) ?_
    | with_reducible refine kept_of_sndSnd_eq (e := by with_reducible assumption) ?_
    | with_reducible apply State.Kept.both
    | with_reducible apply State.Kept.split_
    | with_reducible refine State.Kept.wf (q := Q) ?_
    | with_reducible refine kept_ite (fun _ => ?_) (fun _ => ?_)
    | with_reducible refine keptVia_ite (fun _ => ?_) (fun _ => ?_)
    | split
    | simp only [↓State.kept_mk, ↓keptVia_fst, ↓keptVia_snd, ↓keptVia_sndFst, ↓keptVia_sndSnd]
    | with_reducible refine KeptVia.of _ ?_
    | dsimp only

theorem State.lkStore_kept {Q : List Instr} (s : State) (a : Nat) (v : Word) (hs : s.Kept Q) : (State.lkStore s a v).Kept Q := by
  unfold State.lkStore
  repeat' first
    | with_reducible assumption
    | with_reducible apply State.setLinkWin_kept
    | intro _
    | with_reducible apply State.Kept.both
    | with_reducible apply State.Kept.split_
    | with_reducible refine State.Kept.wf (q := Q) ?_
    | with_reducible refine kept_ite (fun _ => ?_) (fun _ => ?_)
    | split
    | simp only [↓State.kept_mk]
    | dsimp only

theorem State.regStore_kept {Q : List Instr} (s : State) (a : Nat) (v : Word) (w : Writer) (hs : s.Kept Q) : (State.regStore s a v w).Kept Q := by
  unfold State.regStore
  repeat' first
    | with_reducible assumption
    | with_reducible apply State.foreign_kept
    | with_reducible apply State.lkStore_kept
    | with_reducible apply State.guarded_kept
    | with_reducible apply State.mgmtStore_kept
    | with_reducible apply State.evcStore_kept
    | with_reducible apply State.dieStore_kept
    | intro _
    | with_reducible refine kept_of_fst_eq (e := by with_reducible assumption) ?_
    | with_reducible refine kept_of_snd_eq (e := by with_reducible assumption) ?_
    | with_reducible refine kept_of_sndFst_eq (e := by with_reducible assumption) ?_
    | with_reducible refine kept_of_sndSnd_eq (e := by with_reducible assumption) ?_
    | with_reducible refine kept_ite (fun _ => ?_) (fun _ => ?_)
    | split
    | dsimp only

theorem execRegisterWrite_kept {Q : List Instr} (now : Nat) (addr : Nat) (v : Word) (by_ : Writer) (s : State) (hs : s.Kept Q) {t : State} (e : execRegisterWrite now addr v by_ s = .next t) : t.Kept Q := by
  unfold execRegisterWrite at e
  injection e with e
  subst e
  repeat' first
    | with_reducible assumption
    | with_reducible apply State.advance_kept
    | with_reducible apply State.regStore_kept
    | intro _
    | split
    | dsimp only

theorem State.hostRefused_kept {Q : List Instr} (s : State) (p : Nat) (hs : s.Kept Q) : (State.hostRefused s p).Kept Q := by
  unfold State.hostRefused
  repeat' first
    | with_reducible assumption
    | with_reducible apply State.raise_kept
    | with_reducible apply State.setFld_kept
    | with_reducible apply State.addSat_kept
    | intro _
    | split
    | dsimp only

theorem State.hostReg_kept {Q : List Instr} (s : State) (write : Bool) (a : Nat) (n : Nat) (data : List Byte) (hs : s.Kept Q) : (State.hostReg s write a n data).Kept Q := by
  unfold State.hostReg
  repeat' first
    | with_reducible assumption
    | with_reducible apply State.answer_kept
    | with_reducible apply State.hostRefused_kept
    | with_reducible apply State.regStore_kept
    | with_reducible apply State.regLoad_kept
    | with_reducible apply State.evSettle_kept
    | intro _
    | with_reducible refine kept_of_fst_eq (e := by with_reducible assumption) ?_
    | with_reducible refine kept_of_snd_eq (e := by with_reducible assumption) ?_
    | with_reducible refine kept_of_sndFst_eq (e := by with_reducible assumption) ?_
    | with_reducible refine kept_of_sndSnd_eq (e := by with_reducible assumption) ?_
    | with_reducible refine kept_ite (fun _ => ?_) (fun _ => ?_)
    | split
    | dsimp only

theorem execHostAccess_kept {Q : List Instr} (write : Bool) (addr : Nat) (len : Nat) (data : List Byte) (s : State) (hs : s.Kept Q) {t : State} (e : execHostAccess write addr len data s = .next t) : t.Kept Q := by
  unfold execHostAccess at e
  injection e with e
  subst e
  repeat' first
    | with_reducible assumption
    | with_reducible apply leaves_kept
    | with_reducible refine execIntakeStore_kept (e := by with_reducible assumption) (hs := ?_) ..
    | with_reducible refine execCsbRead_kept (e := by with_reducible assumption) (hs := ?_) ..
    | with_reducible apply State.hostReg_kept
    | with_reducible apply State.answer_kept
    | with_reducible apply State.hostRefused_kept
    | with_reducible apply State.store_kept
    | with_reducible apply State.readMem_kept
    | intro _
    | with_reducible refine kept_of_fst_eq (e := by with_reducible assumption) ?_
    | with_reducible refine kept_of_snd_eq (e := by with_reducible assumption) ?_
    | with_reducible refine kept_of_sndFst_eq (e := by with_reducible assumption) ?_
    | with_reducible refine kept_of_sndSnd_eq (e := by with_reducible assumption) ?_
    | with_reducible refine kept_ite (fun _ => ?_) (fun _ => ?_)
    | split
    | dsimp only

end Sys2Proof.Machine
end

