-- ==== Sys2Proof/Laws/KeptPort.lean ====
section
/-!
SUPPORT. What every operation of Machine/Port.lean keeps: the queue, and the canonical form of memory.
-/

set_option linter.unusedVariables false
set_option linter.unusedSimpArgs false

namespace Sys2Proof.Machine

theorem State.i3cAnswer_kept {Q : List Instr} (s : State) (code : Nat) (bs : List Byte) (hs : s.Kept Q) : (State.i3cAnswer s code bs).Kept Q := by
  unfold State.i3cAnswer
  repeat' first
    | with_reducible assumption
    | with_reducible apply State.answer_kept
    | intro _
    | split
    | dsimp only

theorem execRegRead_kept {Q : List Instr} (addr : Nat) (count : Nat) (s : State) (hs : s.Kept Q) {t : State} (e : execRegRead addr count s = .next t) : t.Kept Q := by
  unfold execRegRead at e
  injection e with e
  subst e
  repeat' first
    | with_reducible assumption
    | with_reducible apply State.i3cAnswer_kept
    | intro _
    | with_reducible refine kept_ite (fun _ => ?_) (fun _ => ?_)
    | split
    | dsimp only

theorem State.trayWords_kept {Q : List Instr} (s : State) (addr : Nat) (words : List Word) (hs : s.Kept Q) : (State.trayWords s addr words).1.Kept Q := by
  unfold State.trayWords
  refine KeptVia.out Prod.fst ?_
  repeat' first
    | with_reducible assumption
    | with_reducible apply State.regStore_kept
    | with_reducible apply foldl_kept
    | with_reducible apply foldl_kept_fst
    | with_reducible apply foldl_kept_snd
    | intro _
    | split
    | simp only [↓keptVia_fst, ↓keptVia_snd, ↓keptVia_sndFst, ↓keptVia_sndSnd]
    | with_reducible refine KeptVia.of _ ?_
    | dsimp only

theorem execRegWrite_kept {Q : List Instr} (now : Nat) (addr : Nat) (words : List Word) (s : State) (hs : s.Kept Q) {t : State} (e : execRegWrite now addr words s = .next t) : t.Kept Q := by
  unfold execRegWrite at e
  injection e with e
  subst e
  repeat' first
    | with_reducible assumption
    | with_reducible apply State.advance_kept
    | with_reducible apply State.i3cAnswer_kept
    | with_reducible apply State.trayWords_kept
    | intro _
    | with_reducible refine kept_ite (fun _ => ?_) (fun _ => ?_)
    | split
    | dsimp only

theorem execPkt_kept {Q : List Instr} (now : Nat) (bytes : List Byte) (s : State) (hs : s.Kept Q) {t : State} (e : execPkt now bytes s = .next t) : t.Kept Q := by
  unfold execPkt at e
  injection e with e
  subst e
  repeat' first
    | with_reducible assumption
    | with_reducible apply State.advance_kept
    | with_reducible apply State.i3cAnswer_kept
    | with_reducible apply State.setCtx_kept
    | intro _
    | with_reducible refine kept_ite (fun _ => ?_) (fun _ => ?_)
    | split
    | dsimp only

theorem execReply_kept {Q : List Instr} (rseq : Option Nat) (s : State) (hs : s.Kept Q) {t : State} (e : execReply rseq s = .next t) : t.Kept Q := by
  unfold execReply at e
  injection e with e
  subst e
  repeat' first
    | with_reducible assumption
    | with_reducible apply State.i3cAnswer_kept
    | intro _
    | with_reducible refine kept_of_fst_eq (e := by with_reducible assumption) ?_
    | with_reducible refine kept_of_snd_eq (e := by with_reducible assumption) ?_
    | with_reducible refine kept_of_sndFst_eq (e := by with_reducible assumption) ?_
    | with_reducible refine kept_of_sndSnd_eq (e := by with_reducible assumption) ?_
    | with_reducible apply State.Kept.both
    | with_reducible apply State.Kept.split_
    | with_reducible refine State.Kept.wf (q := Q) ?_
    | with_reducible refine kept_ite (fun _ => ?_) (fun _ => ?_)
    | split
    | simp only [↓State.kept_mk]
    | dsimp only

theorem execCsb_kept {Q : List Instr} (s : State) (hs : s.Kept Q) {t : State} (e : execCsb s = .next t) : t.Kept Q := by
  unfold execCsb at e
  injection e with e
  subst e
  repeat' first
    | with_reducible assumption
    | with_reducible apply State.i3cAnswer_kept
    | intro _
    | with_reducible refine kept_ite (fun _ => ?_) (fun _ => ?_)
    | split
    | dsimp only

theorem execTelem_kept {Q : List Instr} (s : State) (hs : s.Kept Q) {t : State} (e : execTelem s = .next t) : t.Kept Q := by
  unfold execTelem at e
  injection e with e
  subst e
  repeat' first
    | with_reducible assumption
    | with_reducible apply State.i3cAnswer_kept
    | intro _
    | with_reducible refine kept_ite (fun _ => ?_) (fun _ => ?_)
    | split
    | dsimp only

theorem execEvents_kept {Q : List Instr} (s : State) (hs : s.Kept Q) {t : State} (e : execEvents s = .next t) : t.Kept Q := by
  unfold execEvents at e
  injection e with e
  subst e
  repeat' first
    | with_reducible assumption
    | with_reducible apply State.i3cAnswer_kept
    | with_reducible apply State.alertLine_kept
    | intro _
    | with_reducible apply State.Kept.both
    | with_reducible apply State.Kept.split_
    | with_reducible refine State.Kept.wf (q := Q) ?_
    | with_reducible refine kept_ite (fun _ => ?_) (fun _ => ?_)
    | split
    | simp only [↓State.kept_mk]
    | dsimp only

theorem execI3cDynamicAddress_kept {Q : List Instr} (addr : Nat) (s : State) (hs : s.Kept Q) {t : State} (e : execI3cDynamicAddress addr s = .next t) : t.Kept Q := by
  unfold execI3cDynamicAddress at e
  injection e with e
  subst e
  repeat' first
    | with_reducible assumption
    | intro _
    | with_reducible apply State.Kept.both
    | with_reducible apply State.Kept.split_
    | with_reducible refine State.Kept.wf (q := Q) ?_
    | with_reducible refine kept_ite (fun _ => ?_) (fun _ => ?_)
    | split
    | simp only [↓State.kept_mk]
    | dsimp only

theorem execFwStage_kept {Q : List Instr} (now : Nat) (bundle : List Byte) (s : State) (hs : s.Kept Q) {t : State} (e : execFwStage now bundle s = .next t) : t.Kept Q := by
  unfold execFwStage at e
  injection e with e
  subst e
  repeat' first
    | with_reducible assumption
    | with_reducible apply State.advance_kept
    | with_reducible apply State.setFld_kept
    | intro _
    | with_reducible apply State.Kept.both
    | with_reducible apply State.Kept.split_
    | with_reducible refine State.Kept.wf (q := Q) ?_
    | with_reducible refine kept_ite (fun _ => ?_) (fun _ => ?_)
    | with_reducible refine keptVia_ite (fun _ => ?_) (fun _ => ?_)
    | split
    | simp only [↓State.kept_mk, ↓keptVia_fst, ↓keptVia_snd, ↓keptVia_sndFst, ↓keptVia_sndSnd]
    | with_reducible refine KeptVia.of _ ?_
    | dsimp only

theorem execDumpRead_kept {Q : List Instr} (n : Nat) (s : State) (hs : s.Kept Q) {t : State} (e : execDumpRead n s = .next t) : t.Kept Q := by
  unfold execDumpRead at e
  injection e with e
  subst e
  repeat' first
    | with_reducible assumption
    | with_reducible apply State.answer_kept
    | intro _
    | with_reducible refine kept_of_fst_eq (e := by with_reducible assumption) ?_
    | with_reducible refine kept_of_snd_eq (e := by with_reducible assumption) ?_
    | with_reducible refine kept_of_sndFst_eq (e := by with_reducible assumption) ?_
    | with_reducible refine kept_of_sndSnd_eq (e := by with_reducible assumption) ?_
    | with_reducible refine kept_ite (fun _ => ?_) (fun _ => ?_)
    | split
    | dsimp only

theorem execLogRead_kept {Q : List Instr} (which : Nat) (s : State) (hs : s.Kept Q) {t : State} (e : execLogRead which s = .next t) : t.Kept Q := by
  unfold execLogRead at e
  injection e with e
  subst e
  repeat' first
    | with_reducible assumption
    | with_reducible apply State.answer_kept
    | intro _
    | with_reducible refine kept_ite (fun _ => ?_) (fun _ => ?_)
    | split
    | dsimp only

end Sys2Proof.Machine
end

