-- ==== Sys2Proof/Laws/KeptConfigure.lean ====
section
/-!
SUPPORT. What every operation of Machine/Configure.lean keeps: the queue, and the canonical form of memory.
-/

set_option linter.unusedVariables false
set_option linter.unusedSimpArgs false

namespace Sys2Proof.Machine

theorem State.setTxn_kept {Q : List Instr} (s : State) (t : Txn) (hs : s.Kept Q) : (State.setTxn s t).Kept Q := by
  unfold State.setTxn
  repeat' first
    | with_reducible assumption
    | intro _
    | with_reducible apply State.Kept.both
    | with_reducible apply State.Kept.split_
    | with_reducible refine State.Kept.wf (q := Q) ?_
    | with_reducible refine kept_ite (fun _ => ?_) (fun _ => ?_)
    | split
    | simp only [↓State.kept_mk]
    | dsimp only

theorem State.closeTxn_kept {Q : List Instr} (s : State) (t : Txn) (hs : s.Kept Q) : (State.closeTxn s t).Kept Q := by
  unfold State.closeTxn
  repeat' first
    | with_reducible assumption
    | with_reducible apply State.setFld_kept
    | intro _
    | with_reducible apply State.Kept.both
    | with_reducible apply State.Kept.split_
    | with_reducible refine State.Kept.wf (q := Q) ?_
    | split
    | simp only [↓State.kept_mk]
    | dsimp only

theorem execCfgBegin_kept {Q : List Instr} (now : Nat) (ctx : Nat) (cseq : Nat) (s : State) (hs : s.Kept Q) {t : State} (e : execCfgBegin now ctx cseq s = .next t) : t.Kept Q := by
  unfold execCfgBegin at e
  injection e with e
  subst e
  repeat' first
    | with_reducible assumption
    | with_reducible apply State.advance_kept
    | with_reducible apply State.withBody_kept
    | with_reducible apply State.fail_kept
    | with_reducible apply State.finish_kept
    | with_reducible apply State.setFld_kept
    | intro _
    | with_reducible apply State.Kept.both
    | with_reducible apply State.Kept.split_
    | with_reducible refine State.Kept.wf (q := Q) ?_
    | with_reducible refine kept_ite (fun _ => ?_) (fun _ => ?_)
    | split
    | simp only [↓State.kept_mk]
    | dsimp only

theorem execCfgSet_kept {Q : List Instr} (now : Nat) (ctx : Nat) (cseq : Nat) (s : State) (hs : s.Kept Q) {t : State} (e : execCfgSet now ctx cseq s = .next t) : t.Kept Q := by
  unfold execCfgSet at e
  injection e with e
  subst e
  repeat' first
    | with_reducible assumption
    | with_reducible apply State.advance_kept
    | with_reducible apply State.withBody_kept
    | with_reducible apply State.fail_kept
    | with_reducible apply State.setTxn_kept
    | with_reducible apply State.finish_kept
    | intro _
    | with_reducible refine kept_of_fst_eq (e := by with_reducible assumption) ?_
    | with_reducible refine kept_of_snd_eq (e := by with_reducible assumption) ?_
    | with_reducible refine kept_of_sndFst_eq (e := by with_reducible assumption) ?_
    | with_reducible refine kept_of_sndSnd_eq (e := by with_reducible assumption) ?_
    | with_reducible refine kept_ite (fun _ => ?_) (fun _ => ?_)
    | split
    | dsimp only

theorem execCfgGet_kept {Q : List Instr} (ctx : Nat) (cseq : Nat) (s : State) (hs : s.Kept Q) {t : State} (e : execCfgGet ctx cseq s = .next t) : t.Kept Q := by
  unfold execCfgGet at e
  injection e with e
  subst e
  repeat' first
    | with_reducible assumption
    | with_reducible apply State.withBody_kept
    | with_reducible apply State.finish_kept
    | intro _
    | split
    | dsimp only

theorem execCfgRollback_kept {Q : List Instr} (now : Nat) (ctx : Nat) (cseq : Nat) (s : State) (hs : s.Kept Q) {t : State} (e : execCfgRollback now ctx cseq s = .next t) : t.Kept Q := by
  unfold execCfgRollback at e
  injection e with e
  subst e
  repeat' first
    | with_reducible assumption
    | with_reducible apply State.advance_kept
    | with_reducible apply State.withBody_kept
    | with_reducible apply State.fail_kept
    | with_reducible apply State.finish_kept
    | with_reducible apply State.closeTxn_kept
    | intro _
    | with_reducible refine kept_of_fst_eq (e := by with_reducible assumption) ?_
    | with_reducible refine kept_of_snd_eq (e := by with_reducible assumption) ?_
    | with_reducible refine kept_of_sndFst_eq (e := by with_reducible assumption) ?_
    | with_reducible refine kept_of_sndSnd_eq (e := by with_reducible assumption) ?_
    | split
    | dsimp only

theorem State.withStaged_kept {Q : List Instr} (s : State) (staged : List (Nat × Nat × Nat × Nat)) (hs : s.Kept Q) : (State.withStaged s staged).Kept Q := by
  unfold State.withStaged
  repeat' first
    | with_reducible assumption
    | with_reducible apply State.setFld_kept
    | with_reducible apply foldl_kept
    | intro _
    | split
    | dsimp only

theorem execCfgCommit_kept {Q : List Instr} (now : Nat) (ctx : Nat) (cseq : Nat) (s : State) (hs : s.Kept Q) {t : State} (e : execCfgCommit now ctx cseq s = .next t) : t.Kept Q := by
  unfold execCfgCommit at e
  injection e with e
  subst e
  repeat' first
    | with_reducible assumption
    | with_reducible apply State.advance_kept
    | with_reducible apply State.withBody_kept
    | with_reducible apply State.fail_kept
    | with_reducible apply State.closeTxn_kept
    | with_reducible apply State.issue_kept
    | with_reducible apply State.setTxn_kept
    | intro _
    | with_reducible refine kept_of_fst_eq (e := by with_reducible assumption) ?_
    | with_reducible refine kept_of_snd_eq (e := by with_reducible assumption) ?_
    | with_reducible refine kept_of_sndFst_eq (e := by with_reducible assumption) ?_
    | with_reducible refine kept_of_sndSnd_eq (e := by with_reducible assumption) ?_
    | with_reducible refine kept_ite (fun _ => ?_) (fun _ => ?_)
    | with_reducible refine keptVia_ite (fun _ => ?_) (fun _ => ?_)
    | split
    | simp only [↓keptVia_fst, ↓keptVia_snd, ↓keptVia_sndFst, ↓keptVia_sndSnd]
    | with_reducible refine KeptVia.of _ ?_
    | dsimp only

theorem State.fillSeg_kept {Q : List Instr} (s : State) (g : Nat) (hs : s.Kept Q) : (State.fillSeg s g).Kept Q := by
  unfold State.fillSeg
  repeat' first
    | with_reducible assumption
    | with_reducible apply State.setFld_kept
    | intro _
    | with_reducible apply State.Kept.both
    | with_reducible apply State.Kept.split_
    | with_reducible refine State.Kept.wf (q := Q) ?_
    | split
    | simp only [↓State.kept_mk]
    | dsimp only

theorem State.land_kept {Q : List Instr} (s : State) (t : Txn) (hs : s.Kept Q) : (State.land s t).Kept Q := by
  unfold State.land
  repeat' first
    | with_reducible assumption
    | with_reducible apply State.withStaged_kept
    | with_reducible apply State.measurePart_kept
    | with_reducible apply State.recPut_kept
    | with_reducible apply State.fillSeg_kept
    | with_reducible apply State.setFld_kept
    | with_reducible apply State.sealEntries_kept
    | with_reducible apply State.deriveTrees_kept
    | with_reducible apply State.oweMcb_kept
    | with_reducible apply foldl_kept
    | intro _
    | with_reducible refine kept_of_fst_eq (e := by with_reducible assumption) ?_
    | with_reducible refine kept_of_snd_eq (e := by with_reducible assumption) ?_
    | with_reducible refine kept_of_sndFst_eq (e := by with_reducible assumption) ?_
    | with_reducible refine kept_of_sndSnd_eq (e := by with_reducible assumption) ?_
    | with_reducible refine kept_ite (fun _ => ?_) (fun _ => ?_)
    | split
    | dsimp only

theorem execCommitSafePoint_kept {Q : List Instr} (now : Nat) (txn : Nat) (s : State) (hs : s.Kept Q) {t : State} (e : execCommitSafePoint now txn s = .next t) : t.Kept Q := by
  unfold execCommitSafePoint at e
  injection e with e
  subst e
  repeat' first
    | with_reducible assumption
    | with_reducible apply State.advance_kept
    | with_reducible apply State.finish_kept
    | with_reducible apply State.closeTxn_kept
    | with_reducible apply State.land_kept
    | intro _
    | with_reducible refine kept_of_fst_eq (e := by with_reducible assumption) ?_
    | with_reducible refine kept_of_snd_eq (e := by with_reducible assumption) ?_
    | with_reducible refine kept_of_sndFst_eq (e := by with_reducible assumption) ?_
    | with_reducible refine kept_of_sndSnd_eq (e := by with_reducible assumption) ?_
    | with_reducible refine kept_ite (fun _ => ?_) (fun _ => ?_)
    | split
    | dsimp only

theorem execCommitBusyExpire_kept {Q : List Instr} (now : Nat) (txn : Nat) (s : State) (hs : s.Kept Q) {t : State} (e : execCommitBusyExpire now txn s = .next t) : t.Kept Q := by
  unfold execCommitBusyExpire at e
  injection e with e
  subst e
  repeat' first
    | with_reducible assumption
    | with_reducible apply State.advance_kept
    | with_reducible apply State.fail_kept
    | with_reducible apply State.setTxn_kept
    | intro _
    | with_reducible refine kept_of_fst_eq (e := by with_reducible assumption) ?_
    | with_reducible refine kept_of_snd_eq (e := by with_reducible assumption) ?_
    | with_reducible refine kept_of_sndFst_eq (e := by with_reducible assumption) ?_
    | with_reducible refine kept_of_sndSnd_eq (e := by with_reducible assumption) ?_
    | with_reducible refine kept_ite (fun _ => ?_) (fun _ => ?_)
    | split
    | dsimp only

theorem execTransactionAbandon_kept {Q : List Instr} (now : Nat) (txn : Nat) (s : State) (hs : s.Kept Q) {t : State} (e : execTransactionAbandon now txn s = .next t) : t.Kept Q := by
  unfold execTransactionAbandon at e
  injection e with e
  subst e
  repeat' first
    | with_reducible assumption
    | with_reducible apply State.advance_kept
    | with_reducible apply State.raise_kept
    | with_reducible apply State.addSat_kept
    | with_reducible apply State.closeTxn_kept
    | intro _
    | with_reducible refine kept_of_fst_eq (e := by with_reducible assumption) ?_
    | with_reducible refine kept_of_snd_eq (e := by with_reducible assumption) ?_
    | with_reducible refine kept_of_sndFst_eq (e := by with_reducible assumption) ?_
    | with_reducible refine kept_of_sndSnd_eq (e := by with_reducible assumption) ?_
    | with_reducible refine kept_ite (fun _ => ?_) (fun _ => ?_)
    | split
    | dsimp only

end Sys2Proof.Machine
end

