-- ==== Sys2Proof/Laws/KeptExec.lean ====
section
/-!
SUPPORT. Every command keeps the queue and the canonical form of memory.
-/

namespace Sys2Proof.Machine

/-- What a command answers keeps the queue of the state it starts from, and the canonical form of memory. -/
theorem exec_kept {Q : List Instr} (i : Instr) (s : State) (hs : s.Kept Q) {t : State} (e : exec i s = .next t) : t.Kept Q := by
  cases i with
  | intakeStore now ctx off data => exact execIntakeStore_kept (hs := hs) (e := e) ..
  | intakeAbandon now ctx => exact execIntakeAbandon_kept (hs := hs) (e := e) ..
  | packetCheck ctx => exact execPacketCheck_kept (hs := hs) (e := e) ..
  | csbRead ctx off len => exact execCsbRead_kept (hs := hs) (e := e) ..
  | commandStart now ctx => exact execCommandStart_kept (hs := hs) (e := e) ..
  | commandRetire now ctx => exact execCommandRetire_kept (hs := hs) (e := e) ..
  | waitLimitExpire now ctx => exact execWaitLimitExpire_kept (hs := hs) (e := e) ..
  | move ctx cseq => exact execMove_kept (hs := hs) (e := e) ..
  | fill ctx cseq => exact execFill_kept (hs := hs) (e := e) ..
  | gather ctx cseq => exact execGather_kept (hs := hs) (e := e) ..
  | scatter ctx cseq => exact execScatter_kept (hs := hs) (e := e) ..
  | matmul ctx cseq => exact execMatmul_kept (hs := hs) (e := e) ..
  | matmulAcc ctx cseq => exact execMatmulAcc_kept (hs := hs) (e := e) ..
  | convert ctx cseq => exact execConvert_kept (hs := hs) (e := e) ..
  | run ctx cseq => exact execRun_kept (hs := hs) (e := e) ..
  | runWait ctx cseq => exact execRunWait_kept (hs := hs) (e := e) ..
  | attnPages ctx cseq => exact execAttnPages_kept (hs := hs) (e := e) ..
  | kvAppend ctx cseq => exact execKvAppend_kept (hs := hs) (e := e) ..
  | kvEvict ctx cseq => exact execKvEvict_kept (hs := hs) (e := e) ..
  | allreduce ctx cseq => exact execAllreduce_kept (hs := hs) (e := e) ..
  | reduce ctx cseq => exact execReduce_kept (hs := hs) (e := e) ..
  | bcast ctx cseq => exact execBcast_kept (hs := hs) (e := e) ..
  | allgather ctx cseq => exact execAllgather_kept (hs := hs) (e := e) ..
  | barrier ctx cseq => exact execBarrier_kept (hs := hs) (e := e) ..
  | wait ctx cseq => exact execWait_kept (hs := hs) (e := e) ..
  | signal ctx cseq => exact execSignal_kept (hs := hs) (e := e) ..
  | signalRemote ctx cseq => exact execSignalRemote_kept (hs := hs) (e := e) ..
  | cfgBegin now ctx cseq => exact execCfgBegin_kept (hs := hs) (e := e) ..
  | cfgSet now ctx cseq => exact execCfgSet_kept (hs := hs) (e := e) ..
  | cfgGet ctx cseq => exact execCfgGet_kept (hs := hs) (e := e) ..
  | cfgCommit now ctx cseq => exact execCfgCommit_kept (hs := hs) (e := e) ..
  | commitSafePoint now txn => exact execCommitSafePoint_kept (hs := hs) (e := e) ..
  | commitBusyExpire now txn => exact execCommitBusyExpire_kept (hs := hs) (e := e) ..
  | cfgRollback now ctx cseq => exact execCfgRollback_kept (hs := hs) (e := e) ..
  | transactionAbandon now txn => exact execTransactionAbandon_kept (hs := hs) (e := e) ..
  | hintPhase now ctx cseq => exact execHintPhase_kept (hs := hs) (e := e) ..
  | capRequest now ctx cseq => exact execCapRequest_kept (hs := hs) (e := e) ..
  | capRequestTimeout now ctx cseq => exact execCapRequestTimeout_kept (hs := hs) (e := e) ..
  | managementWaitTimeout now ctx cseq => exact execManagementWaitTimeout_kept (hs := hs) (e := e) ..
  | capQuery ctx cseq => exact execCapQuery_kept (hs := hs) (e := e) ..
  | cntEnable ctx cseq => exact execCntEnable_kept (hs := hs) (e := e) ..
  | cntRead ctx cseq => exact execCntRead_kept (hs := hs) (e := e) ..
  | cameo ctx cseq => exact execCameo_kept (hs := hs) (e := e) ..
  | cameoDump now p => exact execCameoDump_kept (hs := hs) (e := e) ..
  | cameoCancel ctx cseq => exact execCameoCancel_kept (hs := hs) (e := e) ..
  | sessionOpen now ctx cseq => exact execSessionOpen_kept (hs := hs) (e := e) ..
  | sessionClose now ctx cseq => exact execSessionClose_kept (hs := hs) (e := e) ..
  | quote now ctx cseq => exact execQuote_kept (hs := hs) (e := e) ..
  | keyRotate now ctx cseq => exact execKeyRotate_kept (hs := hs) (e := e) ..
  | fence ctx cseq => exact execFence_kept (hs := hs) (e := e) ..
  | resume ctx cseq => exact execResume_kept (hs := hs) (e := e) ..
  | ctxReset ctx cseq => exact execCtxReset_kept (hs := hs) (e := e) ..
  | statusQuery ctx cseq => exact execStatusQuery_kept (hs := hs) (e := e) ..
  | recordStart ctx cseq => exact execRecordStart_kept (hs := hs) (e := e) ..
  | recordStop ctx cseq => exact execRecordStop_kept (hs := hs) (e := e) ..
  | replayStart ctx cseq => exact execReplayStart_kept (hs := hs) (e := e) ..
  | replayFeed p => exact execReplayFeed_kept (hs := hs) (e := e) ..
  | replayEnd p => exact execReplayEnd_kept (hs := hs) (e := e) ..
  | meqPush tile hart rd rs1 rs2 => exact execMeqPush_kept (hs := hs) (e := e) ..
  | mvqPush tile hart rd rs1 rs2 => exact execMvqPush_kept (hs := hs) (e := e) ..
  | claspWait now tile hart rd rs1 rs2 irq => exact execClaspWait_kept (hs := hs) (e := e) ..
  | claspWaitTimeout now tile hart => exact execClaspWaitTimeout_kept (hs := hs) (e := e) ..
  | claspAdd tile hart rd rs1 rs2 => exact execClaspAdd_kept (hs := hs) (e := e) ..
  | evtRaise tile hart rs1 => exact execEvtRaise_kept (hs := hs) (e := e) ..
  | cntSnap tile hart rd rs1 => exact execCntSnap_kept (hs := hs) (e := e) ..
  | pipAccess tile hart kind addr len data => exact execPipAccess_kept (hs := hs) (e := e) ..
  | pipTrapUnhandled tile hart cause => exact execPipTrapUnhandled_kept (hs := hs) (e := e) ..
  | pipExit tile hart code => exact execPipExit_kept (hs := hs) (e := e) ..
  | cameoName tile hart n addr len fmt => exact execCameoName_kept (hs := hs) (e := e) ..
  | hostAccess write addr len data => exact execHostAccess_kept (hs := hs) (e := e) ..
  | meDescriptorStart tile me => exact execMeDescriptorStart_kept (hs := hs) (e := e) ..
  | meDescriptorComplete tile me => exact execMeDescriptorComplete_kept (hs := hs) (e := e) ..
  | meOwnerChangeLand tile me => exact execMeOwnerChangeLand_kept (hs := hs) (e := e) ..
  | moverDescriptorStart tile mv => exact execMoverDescriptorStart_kept (hs := hs) (e := e) ..
  | moverChunk now tile mv => exact execMoverChunk_kept (hs := hs) (e := e) ..
  | moverDescriptorComplete tile mv => exact execMoverDescriptorComplete_kept (hs := hs) (e := e) ..
  | ackTimeout now tile mv msgseq => exact execAckTimeout_kept (hs := hs) (e := e) ..
  | pipReset now tile hart by_ => exact execPipReset_kept (hs := hs) (e := e) ..
  | pipResetDrainExpire now tile hart => exact execPipResetDrainExpire_kept (hs := hs) (e := e) ..
  | meGroupReset now tile grp by_ completes => exact execMeGroupReset_kept (hs := hs) (e := e) ..
  | meGroupPowerCycle now tile grp => exact execMeGroupPowerCycle_kept (hs := hs) (e := e) ..
  | moverAbort tile mv by_ => exact execMoverAbort_kept (hs := hs) (e := e) ..
  | unitFaultPop tile mover unit by_ => exact execUnitFaultPop_kept (hs := hs) (e := e) ..
  | tsEccClear tile by_ => exact execTsEccClear_kept (hs := hs) (e := e) ..
  | tsScrubRow tile bank upsets => exact execTsScrubRow_kept (hs := hs) (e := e) ..
  | memoryRead addr upsets => exact execMemoryRead_kept (hs := hs) (e := e) ..
  | memoryWrite addr data => exact execMemoryWrite_kept (hs := hs) (e := e) ..
  | memoryScrub addr upsets => exact execMemoryScrub_kept (hs := hs) (e := e) ..
  | memoryRefresh die unit => exact execMemoryRefresh_kept die unit s hs e
  | memoryCalibration die unit active => exact execMemoryCalibration_kept (hs := hs) (e := e) ..
  | channelRetrain now die unit cause => exact execChannelRetrain_kept (hs := hs) (e := e) ..
  | channelRetrainEnd die unit ok => exact execChannelRetrainEnd_kept (hs := hs) (e := e) ..
  | eccstatClear die by_ => exact execEccstatClear_kept (hs := hs) (e := e) ..
  | uelogPop die by_ => exact execUelogPop_kept (hs := hs) (e := e) ..
  | segmentFillComplete now seg => exact execSegmentFillComplete_kept (hs := hs) (e := e) ..
  | xtsFillComplete now p => exact execXtsFillComplete_kept (hs := hs) (e := e) ..
  | pressGroupDispatch die => exact execPressGroupDispatch_kept (hs := hs) (e := e) ..
  | pressGroupComplete die engine => exact execPressGroupComplete_kept (hs := hs) (e := e) ..
  | pressEngineReset now die engine by_ completes => exact execPressEngineReset_kept (hs := hs) (e := e) ..
  | pressResetTimeout now die engine => exact execPressResetTimeout_kept (hs := hs) (e := e) ..
  | frameReceive now link frame => exact execFrameReceive_kept (hs := hs) (e := e) ..
  | retryTimeout now link => exact execRetryTimeout_kept (hs := hs) (e := e) ..
  | laneSwap link rx lane => exact execLaneSwap_kept (hs := hs) (e := e) ..
  | linkFullRetrain now link rttNs placed => exact execLinkFullRetrain_kept (hs := hs) (e := e) ..
  | linkRetrainTimeout now link => exact execLinkRetrainTimeout_kept (hs := hs) (e := e) ..
  | linkDown now link cause => exact execLinkDown_kept (hs := hs) (e := e) ..
  | linkTraining now link screenOk => exact execLinkTraining_kept (hs := hs) (e := e) ..
  | laserFault now src => exact execLaserFault_kept (hs := hs) (e := e) ..
  | linkRetrainOrder now link by_ => exact execLinkRetrainOrder_kept (hs := hs) (e := e) ..
  | linkEnableWrite now link v by_ => exact execLinkEnableWrite_kept (hs := hs) (e := e) ..
  | msgHead now link m => exact execMsgHead_kept (hs := hs) (e := e) ..
  | ack now link b => exact execAck_kept (hs := hs) (e := e) ..
  | claspBead link b => exact execClaspBead_kept (hs := hs) (e := e) ..
  | abortBead now link b => exact execAbortBead_kept (hs := hs) (e := e) ..
  | sliceAbort now entry cause link => exact execSliceAbort_kept (hs := hs) (e := e) ..
  | multicastReplicate link m => exact execMulticastReplicate_kept (hs := hs) (e := e) ..
  | redHead now link m => exact execRedHead_kept (hs := hs) (e := e) ..
  | chunkFold now entry coll chunk => exact execChunkFold_kept (hs := hs) (e := e) ..
  | mcHead now link m => exact execMcHead_kept (hs := hs) (e := e) ..
  | barUp now link b => exact execBarUp_kept (hs := hs) (e := e) ..
  | barDown now link b => exact execBarDown_kept (hs := hs) (e := e) ..
  | barrierRelease now entry => exact execBarrierRelease_kept (hs := hs) (e := e) ..
  | collectiveTimeout now ctx cseq => exact execCollectiveTimeout_kept (hs := hs) (e := e) ..
  | traySyncRise now => exact execTraySyncRise_kept (hs := hs) (e := e) ..
  | traySyncRedrive now => exact execTraySyncRedrive_kept (hs := hs) (e := e) ..
  | timeBeadSend now link => exact execTimeBeadSend_kept (hs := hs) (e := e) ..
  | timeBead now link b => exact execTimeBead_kept (hs := hs) (e := e) ..
  | timeParentLoss now => exact execTimeParentLoss_kept (hs := hs) (e := e) ..
  | masterTimeTimeout now => exact execMasterTimeTimeout_kept (hs := hs) (e := e) ..
  | train now link b => exact execTrain_kept (hs := hs) (e := e) ..
  | stop now link b => exact execStop_kept (hs := hs) (e := e) ..
  | referenceLoss => exact execReferenceLoss_kept (hs := hs) (e := e) ..
  | referenceReturn now => exact execReferenceReturn_kept (hs := hs) (e := e) ..
  | estimateStep now p act => exact execEstimateStep_kept (hs := hs) (e := e) ..
  | telemetrySample now smp => exact execTelemetrySample_kept (hs := hs) (e := e) ..
  | managementCycle now => exact execManagementCycle_kept (hs := hs) (e := e) ..
  | overPowerTrip now => exact execOverPowerTrip_kept (hs := hs) (e := e) ..
  | overPowerRelease now => exact execOverPowerRelease_kept (hs := hs) (e := e) ..
  | pwrlimAssert now => exact execPwrlimAssert_kept (hs := hs) (e := e) ..
  | emergencyCauseTimeout now => exact execEmergencyCauseTimeout_kept (hs := hs) (e := e) ..
  | emergencyEnd now => exact execEmergencyEnd_kept (hs := hs) (e := e) ..
  | trayCauseReport shelf cool by_ => exact execTrayCauseReport_kept (hs := hs) (e := e) ..
  | inputVoltageEvent now mv durUs => exact execInputVoltageEvent_kept (hs := hs) (e := e) ..
  | shedStep now => exact execShedStep_kept (hs := hs) (e := e) ..
  | thermalTrip die => exact execThermalTrip_kept (hs := hs) (e := e) ..
  | domainOffOrder now p => exact execDomainOffOrder_kept (hs := hs) (e := e) ..
  | domainOn now p => exact execDomainOn_kept (hs := hs) (e := e) ..
  | keepalive now p by_ => exact execKeepalive_kept (hs := hs) (e := e) ..
  | keepaliveTimeout now p => exact execKeepaliveTimeout_kept (hs := hs) (e := e) ..
  | trayHeartbeat now v by_ => exact execTrayHeartbeat_kept (hs := hs) (e := e) ..
  | trayHeartbeatLoss now => exact execTrayHeartbeatLoss_kept (hs := hs) (e := e) ..
  | opChange op => exact execOpChange_kept (hs := hs) (e := e) ..
  | tarnishEval die drift => exact execTarnishEval_kept (hs := hs) (e := e) ..
  | wearDaily now samples => exact execWearDaily_kept (hs := hs) (e := e) ..
  | rackOrderWrite now v by_ => exact execRackOrderWrite_kept (hs := hs) (e := e) ..
  | stateImage now seq crcOk => exact execStateImage_kept (hs := hs) (e := e) ..
  | heartbeatSilence now => exact execHeartbeatSilence_kept (hs := hs) (e := e) ..
  | takeover now fails => exact execTakeover_kept (hs := hs) (e := e) ..
  | hasiaRestart now => exact execHasiaRestart_kept (hs := hs) (e := e) ..
  | swap now by_ => exact execSwap_kept (hs := hs) (e := e) ..
  | takeBack now => exact execTakeBack_kept (hs := hs) (e := e) ..
  | aoWakeCycle now => exact execAoWakeCycle_kept (hs := hs) (e := e) ..
  | regRead addr count => exact execRegRead_kept (hs := hs) (e := e) ..
  | regWrite now addr words => exact execRegWrite_kept (hs := hs) (e := e) ..
  | pkt now bytes => exact execPkt_kept (hs := hs) (e := e) ..
  | reply rseq => exact execReply_kept (hs := hs) (e := e) ..
  | csb => exact execCsb_kept (hs := hs) (e := e) ..
  | telem => exact execTelem_kept (hs := hs) (e := e) ..
  | events => exact execEvents_kept (hs := hs) (e := e) ..
  | i3cDynamicAddress addr => exact execI3cDynamicAddress_kept (hs := hs) (e := e) ..
  | fwStage now bundle => exact execFwStage_kept (hs := hs) (e := e) ..
  | dumpRead n => exact execDumpRead_kept (hs := hs) (e := e) ..
  | logRead which => exact execLogRead_kept (hs := hs) (e := e) ..
  | svnCommit by_ => exact execSvnCommit_kept (hs := hs) (e := e) ..
  | lmsTreeGenerate => exact execLmsTreeGenerate_kept (hs := hs) (e := e) ..
  | linkKeyingSubmit n by_ => exact execLinkKeyingSubmit_kept (hs := hs) (e := e) ..
  | linkKeyDrop n by_ => exact execLinkKeyDrop_kept (hs := hs) (e := e) ..
  | debugNonceReq by_ => exact execDebugNonceReq_kept (hs := hs) (e := e) ..
  | debugUnlockSubmit now by_ => exact execDebugUnlockSubmit_kept (hs := hs) (e := e) ..
  | eventOccurrence src => exact execEventOccurrence_kept (hs := hs) (e := e) ..
  | levelChange now src level => exact execLevelChange_kept (hs := hs) (e := e) ..
  | claim now k => exact execClaim_kept (hs := hs) (e := e) ..
  | complete k src => exact execComplete_kept (hs := hs) (e := e) ..
  | strandRecord now k => exact execStrandRecord_kept (hs := hs) (e := e) ..
  | strandConsWrite k v => exact execStrandConsWrite_kept (hs := hs) (e := e) ..
  | holdoffExpire now g => exact execHoldoffExpire_kept (hs := hs) (e := e) ..
  | globalDisableWrite v by_ => exact execGlobalDisableWrite_kept (hs := hs) (e := e) ..
  | sourceMaskWrite now src v by_ => exact execSourceMaskWrite_kept (hs := hs) (e := e) ..
  | sourceModeWrite src mode filt by_ => exact execSourceModeWrite_kept (hs := hs) (e := e) ..
  | routeWrite src r by_ => exact execRouteWrite_kept (hs := hs) (e := e) ..
  | coldStart now env => exact execColdStart_kept (hs := hs) (e := e) ..
  | moduleReset now cause env => exact execModuleReset_kept (hs := hs) (e := e) ..
  | timeWaitExpire now => exact execTimeWaitExpire_kept (hs := hs) (e := e) ..
  | hold3Write now v by_ => exact execHold3Write_kept (hs := hs) (e := e) ..
  | nodeIdWrite now node zsize master => exact execNodeIdWrite_kept (hs := hs) (e := e) ..
  | overlayAppend entry => exact execOverlayAppend_kept (hs := hs) (e := e) ..
  | overlayClear by_ => exact execOverlayClear_kept (hs := hs) (e := e) ..
  | mcbWrite okA okB => exact execMcbWrite_kept (hs := hs) (e := e) ..
  | registerWrite now addr v by_ => exact execRegisterWrite_kept (hs := hs) (e := e) ..
  | errorRecord now dom rec_ => exact execErrorRecord_kept (hs := hs) (e := e) ..
  | hangWindowExpire now unit => exact execHangWindowExpire_kept (hs := hs) (e := e) ..
  | watchdogMiss now p core => exact execWatchdogMiss_kept (hs := hs) (e := e) ..
  | wdogKick now p bits by_ => exact execWdogKick_kept (hs := hs) (e := e) ..
  | contextRecoveryReset now ctx cause => exact execContextRecoveryReset_kept (hs := hs) (e := e) ..
  | engineReset now dom unit cause => exact execEngineReset_kept (hs := hs) (e := e) ..
  | actionOverrun now dom => exact execActionOverrun_kept (hs := hs) (e := e) ..
  | partitionReset now p cause => exact execPartitionReset_kept (hs := hs) (e := e) ..
  | powerCycleRequest now dom => exact execPowerCycleRequest_kept (hs := hs) (e := e) ..
  | capture now dom unreadable => exact execCapture_kept (hs := hs) (e := e) ..
  | captureBoundExpire now => exact execCaptureBoundExpire_kept (hs := hs) (e := e) ..
  | spineAccessTimeout die => exact execSpineAccessTimeout_kept (hs := hs) (e := e) ..
  | bezelFence p by_ => exact execBezelFence_kept (hs := hs) (e := e) ..
  | bezelOpen p by_ => exact execBezelOpen_kept (hs := hs) (e := e) ..
  | errqPop p by_ => exact execErrqPop_kept (hs := hs) (e := e) ..
  | abortlogPop f by_ => exact execAbortlogPop_kept (hs := hs) (e := e) ..
  | powerUp now env => exact execPowerUp_kept (hs := hs) (e := e) ..
  | orderedShutdown now => exact execOrderedShutdown_kept (hs := hs) (e := e) ..
  | resetNAssert now => exact execResetNAssert_kept (hs := hs) (e := e) ..
  | resetNRelease now env => exact execResetNRelease_kept (hs := hs) (e := e) ..
  | forceOff => exact execForceOff_kept (hs := hs) (e := e) ..
  | forceOffRelease now env => exact execForceOffRelease_kept (hs := hs) (e := e) ..
  | fastStop now cause => exact execFastStop_kept (hs := hs) (e := e) ..
  | flashRecovery banks => exact execFlashRecovery_kept (hs := hs) (e := e) ..
  | ucieLaneRepair die port ok => exact execUcieLaneRepair_kept (hs := hs) (e := e) ..
  | powerDomainFault now dom => exact execPowerDomainFault_kept (hs := hs) (e := e) ..
  | pwrlimRelease now => exact execPwrlimRelease_kept (hs := hs) (e := e) ..
  | imageAckTimeout now => exact execImageAckTimeout_kept (hs := hs) (e := e) ..
  | inputPowerApplied mv => exact execInputPowerApplied_kept (hs := hs) (e := e) ..
  | speedMonitorUpdate die rate junc opReached => exact execSpeedMonitorUpdate_kept (hs := hs) (e := e) ..

end Sys2Proof.Machine
end

