-- ==== Sys2Proof/Laws/State.lean ====
section
/-!
SUPPORT. What each update of the state does to each of its fields.
-/

namespace Sys2Proof.Machine

/-! ### `State.setReg` -/

@[simp] theorem State.setReg_gtime (s : State) (a : Nat) (w : Word) : (s.setReg a w).gtime = s.gtime := rfl
@[simp] theorem State.setReg_regs (s : State) (a : Nat) (w : Word) : (s.setReg a w).regs = kvSet (regReset a) s.regs a w := rfl
@[simp] theorem State.setReg_mem (s : State) (a : Nat) (w : Word) : (s.setReg a w).mem = s.mem := rfl
@[simp] theorem State.setReg_cwErr (s : State) (a : Nat) (w : Word) : (s.setReg a w).cwErr = s.cwErr := rfl
@[simp] theorem State.setReg_tsBad (s : State) (a : Nat) (w : Word) : (s.setReg a w).tsBad = s.tsBad := rfl
@[simp] theorem State.setReg_tsLost (s : State) (a : Nat) (w : Word) : (s.setReg a w).tsLost = s.tsLost := rfl
@[simp] theorem State.setReg_ctxs (s : State) (a : Nat) (w : Word) : (s.setReg a w).ctxs = s.ctxs := rfl
@[simp] theorem State.setReg_undo (s : State) (a : Nat) (w : Word) : (s.setReg a w).undo = s.undo := rfl
@[simp] theorem State.setReg_holds (s : State) (a : Nat) (w : Word) : (s.setReg a w).holds = s.holds := rfl
@[simp] theorem State.setReg_jgen (s : State) (a : Nat) (w : Word) : (s.setReg a w).jgen = s.jgen := rfl
@[simp] theorem State.setReg_uelog (s : State) (a : Nat) (w : Word) : (s.setReg a w).uelog = s.uelog := rfl
@[simp] theorem State.setReg_ceSec (s : State) (a : Nat) (w : Word) : (s.setReg a w).ceSec = s.ceSec := rfl
@[simp] theorem State.setReg_retrain (s : State) (a : Nat) (w : Word) : (s.setReg a w).retrain = s.retrain := rfl
@[simp] theorem State.setReg_fills (s : State) (a : Nat) (w : Word) : (s.setReg a w).fills = s.fills := rfl
@[simp] theorem State.setReg_mes (s : State) (a : Nat) (w : Word) : (s.setReg a w).mes = s.mes := rfl
@[simp] theorem State.setReg_movers (s : State) (a : Nat) (w : Word) : (s.setReg a w).movers = s.movers := rfl
@[simp] theorem State.setReg_harts (s : State) (a : Nat) (w : Word) : (s.setReg a w).harts = s.harts := rfl
@[simp] theorem State.setReg_tsScrub (s : State) (a : Nat) (w : Word) : (s.setReg a w).tsScrub = s.tsScrub := rfl
@[simp] theorem State.setReg_pressQ (s : State) (a : Nat) (w : Word) : (s.setReg a w).pressQ = s.pressQ := rfl
@[simp] theorem State.setReg_pressRr (s : State) (a : Nat) (w : Word) : (s.setReg a w).pressRr = s.pressRr := rfl
@[simp] theorem State.setReg_presses (s : State) (a : Nat) (w : Word) : (s.setReg a w).presses = s.presses := rfl
@[simp] theorem State.setReg_links (s : State) (a : Nat) (w : Word) : (s.setReg a w).links = s.links := rfl
@[simp] theorem State.setReg_aborts (s : State) (a : Nat) (w : Word) : (s.setReg a w).aborts = s.aborts := rfl
@[simp] theorem State.setReg_folds (s : State) (a : Nat) (w : Word) : (s.setReg a w).folds = s.folds := rfl
@[simp] theorem State.setReg_colls (s : State) (a : Nat) (w : Word) : (s.setReg a w).colls = s.colls := rfl
@[simp] theorem State.setReg_txns (s : State) (a : Nat) (w : Word) : (s.setReg a w).txns = s.txns := rfl
@[simp] theorem State.setReg_nextTxn (s : State) (a : Nat) (w : Word) : (s.setReg a w).nextTxn = s.nextTxn := rfl
@[simp] theorem State.setReg_recorders (s : State) (a : Nat) (w : Word) : (s.setReg a w).recorders = s.recorders := rfl
@[simp] theorem State.setReg_power (s : State) (a : Nat) (w : Word) : (s.setReg a w).power = s.power := rfl
@[simp] theorem State.setReg_modPower (s : State) (a : Nat) (w : Word) : (s.setReg a w).modPower = s.modPower := rfl
@[simp] theorem State.setReg_mgmt (s : State) (a : Nat) (w : Word) : (s.setReg a w).mgmt = s.mgmt := rfl
@[simp] theorem State.setReg_wear (s : State) (a : Nat) (w : Word) : (s.setReg a w).wear = s.wear := rfl
@[simp] theorem State.setReg_locket (s : State) (a : Nat) (w : Word) : (s.setReg a w).locket = s.locket := rfl
@[simp] theorem State.setReg_evc (s : State) (a : Nat) (w : Word) : (s.setReg a w).evc = s.evc := rfl
@[simp] theorem State.setReg_evcHold (s : State) (a : Nat) (w : Word) : (s.setReg a w).evcHold = s.evcHold := rfl
@[simp] theorem State.setReg_evcSeq (s : State) (a : Nat) (w : Word) : (s.setReg a w).evcSeq = s.evcSeq := rfl
@[simp] theorem State.setReg_domains (s : State) (a : Nat) (w : Word) : (s.setReg a w).domains = s.domains := rfl
@[simp] theorem State.setReg_boot (s : State) (a : Nat) (w : Word) : (s.setReg a w).boot = s.boot := rfl
@[simp] theorem State.setReg_flash (s : State) (a : Nat) (w : Word) : (s.setReg a w).flash = s.flash := rfl
@[simp] theorem State.setReg_errs (s : State) (a : Nat) (w : Word) : (s.setReg a w).errs = s.errs := rfl
@[simp] theorem State.setReg_dumps (s : State) (a : Nat) (w : Word) : (s.setReg a w).dumps = s.dumps := rfl
@[simp] theorem State.setReg_captures (s : State) (a : Nat) (w : Word) : (s.setReg a w).captures = s.captures := rfl
@[simp] theorem State.setReg_dumpQ (s : State) (a : Nat) (w : Word) : (s.setReg a w).dumpQ = s.dumpQ := rfl
@[simp] theorem State.setReg_meAbsent (s : State) (a : Nat) (w : Word) : (s.setReg a w).meAbsent = s.meAbsent := rfl
@[simp] theorem State.setReg_pipAbsent (s : State) (a : Nat) (w : Word) : (s.setReg a w).pipAbsent = s.pipAbsent := rfl
@[simp] theorem State.setReg_mvOwnPend (s : State) (a : Nat) (w : Word) : (s.setReg a w).mvOwnPend = s.mvOwnPend := rfl
@[simp] theorem State.setReg_bezels (s : State) (a : Nat) (w : Word) : (s.setReg a w).bezels = s.bezels := rfl
@[simp] theorem State.setReg_windows (s : State) (a : Nat) (w : Word) : (s.setReg a w).windows = s.windows := rfl
@[simp] theorem State.setReg_wdog (s : State) (a : Nat) (w : Word) : (s.setReg a w).wdog = s.wdog := rfl
@[simp] theorem State.setReg_pins (s : State) (a : Nat) (w : Word) : (s.setReg a w).pins = s.pins := rfl
@[simp] theorem State.setReg_free (s : State) (a : Nat) (w : Word) : (s.setReg a w).free = s.free := rfl
@[simp] theorem State.setReg_resp (s : State) (a : Nat) (w : Word) : (s.setReg a w).resp = s.resp := rfl
@[simp] theorem State.setReg_pending (s : State) (a : Nat) (w : Word) : (s.setReg a w).pending = s.pending := rfl

/-! ### `State.setFld` -/

@[simp] theorem State.setFld_gtime (s : State) (a : Nat) (f : Fld) (v : Nat) : (s.setFld a f v).gtime = s.gtime := rfl
@[simp] theorem State.setFld_regs (s : State) (a : Nat) (f : Fld) (v : Nat) : (s.setFld a f v).regs = kvSet (regReset a) s.regs a (fset (s.reg a) f v) := rfl
@[simp] theorem State.setFld_mem (s : State) (a : Nat) (f : Fld) (v : Nat) : (s.setFld a f v).mem = s.mem := rfl
@[simp] theorem State.setFld_cwErr (s : State) (a : Nat) (f : Fld) (v : Nat) : (s.setFld a f v).cwErr = s.cwErr := rfl
@[simp] theorem State.setFld_tsBad (s : State) (a : Nat) (f : Fld) (v : Nat) : (s.setFld a f v).tsBad = s.tsBad := rfl
@[simp] theorem State.setFld_tsLost (s : State) (a : Nat) (f : Fld) (v : Nat) : (s.setFld a f v).tsLost = s.tsLost := rfl
@[simp] theorem State.setFld_ctxs (s : State) (a : Nat) (f : Fld) (v : Nat) : (s.setFld a f v).ctxs = s.ctxs := rfl
@[simp] theorem State.setFld_undo (s : State) (a : Nat) (f : Fld) (v : Nat) : (s.setFld a f v).undo = s.undo := rfl
@[simp] theorem State.setFld_holds (s : State) (a : Nat) (f : Fld) (v : Nat) : (s.setFld a f v).holds = s.holds := rfl
@[simp] theorem State.setFld_jgen (s : State) (a : Nat) (f : Fld) (v : Nat) : (s.setFld a f v).jgen = s.jgen := rfl
@[simp] theorem State.setFld_uelog (s : State) (a : Nat) (f : Fld) (v : Nat) : (s.setFld a f v).uelog = s.uelog := rfl
@[simp] theorem State.setFld_ceSec (s : State) (a : Nat) (f : Fld) (v : Nat) : (s.setFld a f v).ceSec = s.ceSec := rfl
@[simp] theorem State.setFld_retrain (s : State) (a : Nat) (f : Fld) (v : Nat) : (s.setFld a f v).retrain = s.retrain := rfl
@[simp] theorem State.setFld_fills (s : State) (a : Nat) (f : Fld) (v : Nat) : (s.setFld a f v).fills = s.fills := rfl
@[simp] theorem State.setFld_mes (s : State) (a : Nat) (f : Fld) (v : Nat) : (s.setFld a f v).mes = s.mes := rfl
@[simp] theorem State.setFld_movers (s : State) (a : Nat) (f : Fld) (v : Nat) : (s.setFld a f v).movers = s.movers := rfl
@[simp] theorem State.setFld_harts (s : State) (a : Nat) (f : Fld) (v : Nat) : (s.setFld a f v).harts = s.harts := rfl
@[simp] theorem State.setFld_tsScrub (s : State) (a : Nat) (f : Fld) (v : Nat) : (s.setFld a f v).tsScrub = s.tsScrub := rfl
@[simp] theorem State.setFld_pressQ (s : State) (a : Nat) (f : Fld) (v : Nat) : (s.setFld a f v).pressQ = s.pressQ := rfl
@[simp] theorem State.setFld_pressRr (s : State) (a : Nat) (f : Fld) (v : Nat) : (s.setFld a f v).pressRr = s.pressRr := rfl
@[simp] theorem State.setFld_presses (s : State) (a : Nat) (f : Fld) (v : Nat) : (s.setFld a f v).presses = s.presses := rfl
@[simp] theorem State.setFld_links (s : State) (a : Nat) (f : Fld) (v : Nat) : (s.setFld a f v).links = s.links := rfl
@[simp] theorem State.setFld_aborts (s : State) (a : Nat) (f : Fld) (v : Nat) : (s.setFld a f v).aborts = s.aborts := rfl
@[simp] theorem State.setFld_folds (s : State) (a : Nat) (f : Fld) (v : Nat) : (s.setFld a f v).folds = s.folds := rfl
@[simp] theorem State.setFld_colls (s : State) (a : Nat) (f : Fld) (v : Nat) : (s.setFld a f v).colls = s.colls := rfl
@[simp] theorem State.setFld_txns (s : State) (a : Nat) (f : Fld) (v : Nat) : (s.setFld a f v).txns = s.txns := rfl
@[simp] theorem State.setFld_nextTxn (s : State) (a : Nat) (f : Fld) (v : Nat) : (s.setFld a f v).nextTxn = s.nextTxn := rfl
@[simp] theorem State.setFld_recorders (s : State) (a : Nat) (f : Fld) (v : Nat) : (s.setFld a f v).recorders = s.recorders := rfl
@[simp] theorem State.setFld_power (s : State) (a : Nat) (f : Fld) (v : Nat) : (s.setFld a f v).power = s.power := rfl
@[simp] theorem State.setFld_modPower (s : State) (a : Nat) (f : Fld) (v : Nat) : (s.setFld a f v).modPower = s.modPower := rfl
@[simp] theorem State.setFld_mgmt (s : State) (a : Nat) (f : Fld) (v : Nat) : (s.setFld a f v).mgmt = s.mgmt := rfl
@[simp] theorem State.setFld_wear (s : State) (a : Nat) (f : Fld) (v : Nat) : (s.setFld a f v).wear = s.wear := rfl
@[simp] theorem State.setFld_locket (s : State) (a : Nat) (f : Fld) (v : Nat) : (s.setFld a f v).locket = s.locket := rfl
@[simp] theorem State.setFld_evc (s : State) (a : Nat) (f : Fld) (v : Nat) : (s.setFld a f v).evc = s.evc := rfl
@[simp] theorem State.setFld_evcHold (s : State) (a : Nat) (f : Fld) (v : Nat) : (s.setFld a f v).evcHold = s.evcHold := rfl
@[simp] theorem State.setFld_evcSeq (s : State) (a : Nat) (f : Fld) (v : Nat) : (s.setFld a f v).evcSeq = s.evcSeq := rfl
@[simp] theorem State.setFld_domains (s : State) (a : Nat) (f : Fld) (v : Nat) : (s.setFld a f v).domains = s.domains := rfl
@[simp] theorem State.setFld_boot (s : State) (a : Nat) (f : Fld) (v : Nat) : (s.setFld a f v).boot = s.boot := rfl
@[simp] theorem State.setFld_flash (s : State) (a : Nat) (f : Fld) (v : Nat) : (s.setFld a f v).flash = s.flash := rfl
@[simp] theorem State.setFld_errs (s : State) (a : Nat) (f : Fld) (v : Nat) : (s.setFld a f v).errs = s.errs := rfl
@[simp] theorem State.setFld_dumps (s : State) (a : Nat) (f : Fld) (v : Nat) : (s.setFld a f v).dumps = s.dumps := rfl
@[simp] theorem State.setFld_captures (s : State) (a : Nat) (f : Fld) (v : Nat) : (s.setFld a f v).captures = s.captures := rfl
@[simp] theorem State.setFld_dumpQ (s : State) (a : Nat) (f : Fld) (v : Nat) : (s.setFld a f v).dumpQ = s.dumpQ := rfl
@[simp] theorem State.setFld_meAbsent (s : State) (a : Nat) (f : Fld) (v : Nat) : (s.setFld a f v).meAbsent = s.meAbsent := rfl
@[simp] theorem State.setFld_pipAbsent (s : State) (a : Nat) (f : Fld) (v : Nat) : (s.setFld a f v).pipAbsent = s.pipAbsent := rfl
@[simp] theorem State.setFld_mvOwnPend (s : State) (a : Nat) (f : Fld) (v : Nat) : (s.setFld a f v).mvOwnPend = s.mvOwnPend := rfl
@[simp] theorem State.setFld_bezels (s : State) (a : Nat) (f : Fld) (v : Nat) : (s.setFld a f v).bezels = s.bezels := rfl
@[simp] theorem State.setFld_windows (s : State) (a : Nat) (f : Fld) (v : Nat) : (s.setFld a f v).windows = s.windows := rfl
@[simp] theorem State.setFld_wdog (s : State) (a : Nat) (f : Fld) (v : Nat) : (s.setFld a f v).wdog = s.wdog := rfl
@[simp] theorem State.setFld_pins (s : State) (a : Nat) (f : Fld) (v : Nat) : (s.setFld a f v).pins = s.pins := rfl
@[simp] theorem State.setFld_free (s : State) (a : Nat) (f : Fld) (v : Nat) : (s.setFld a f v).free = s.free := rfl
@[simp] theorem State.setFld_resp (s : State) (a : Nat) (f : Fld) (v : Nat) : (s.setFld a f v).resp = s.resp := rfl
@[simp] theorem State.setFld_pending (s : State) (a : Nat) (f : Fld) (v : Nat) : (s.setFld a f v).pending = s.pending := rfl

/-! ### `State.setCtx` -/

@[simp] theorem State.setCtx_gtime (s : State) (c : Nat) (x : Ctx) : (s.setCtx c x).gtime = s.gtime := rfl
@[simp] theorem State.setCtx_regs (s : State) (c : Nat) (x : Ctx) : (s.setCtx c x).regs = s.regs := rfl
@[simp] theorem State.setCtx_mem (s : State) (c : Nat) (x : Ctx) : (s.setCtx c x).mem = s.mem := rfl
@[simp] theorem State.setCtx_cwErr (s : State) (c : Nat) (x : Ctx) : (s.setCtx c x).cwErr = s.cwErr := rfl
@[simp] theorem State.setCtx_tsBad (s : State) (c : Nat) (x : Ctx) : (s.setCtx c x).tsBad = s.tsBad := rfl
@[simp] theorem State.setCtx_tsLost (s : State) (c : Nat) (x : Ctx) : (s.setCtx c x).tsLost = s.tsLost := rfl
@[simp] theorem State.setCtx_ctxs (s : State) (c : Nat) (x : Ctx) : (s.setCtx c x).ctxs = kvSet Ctx.init s.ctxs c x := rfl
@[simp] theorem State.setCtx_undo (s : State) (c : Nat) (x : Ctx) : (s.setCtx c x).undo = s.undo := rfl
@[simp] theorem State.setCtx_holds (s : State) (c : Nat) (x : Ctx) : (s.setCtx c x).holds = s.holds := rfl
@[simp] theorem State.setCtx_jgen (s : State) (c : Nat) (x : Ctx) : (s.setCtx c x).jgen = s.jgen := rfl
@[simp] theorem State.setCtx_uelog (s : State) (c : Nat) (x : Ctx) : (s.setCtx c x).uelog = s.uelog := rfl
@[simp] theorem State.setCtx_ceSec (s : State) (c : Nat) (x : Ctx) : (s.setCtx c x).ceSec = s.ceSec := rfl
@[simp] theorem State.setCtx_retrain (s : State) (c : Nat) (x : Ctx) : (s.setCtx c x).retrain = s.retrain := rfl
@[simp] theorem State.setCtx_fills (s : State) (c : Nat) (x : Ctx) : (s.setCtx c x).fills = s.fills := rfl
@[simp] theorem State.setCtx_mes (s : State) (c : Nat) (x : Ctx) : (s.setCtx c x).mes = s.mes := rfl
@[simp] theorem State.setCtx_movers (s : State) (c : Nat) (x : Ctx) : (s.setCtx c x).movers = s.movers := rfl
@[simp] theorem State.setCtx_harts (s : State) (c : Nat) (x : Ctx) : (s.setCtx c x).harts = s.harts := rfl
@[simp] theorem State.setCtx_tsScrub (s : State) (c : Nat) (x : Ctx) : (s.setCtx c x).tsScrub = s.tsScrub := rfl
@[simp] theorem State.setCtx_pressQ (s : State) (c : Nat) (x : Ctx) : (s.setCtx c x).pressQ = s.pressQ := rfl
@[simp] theorem State.setCtx_pressRr (s : State) (c : Nat) (x : Ctx) : (s.setCtx c x).pressRr = s.pressRr := rfl
@[simp] theorem State.setCtx_presses (s : State) (c : Nat) (x : Ctx) : (s.setCtx c x).presses = s.presses := rfl
@[simp] theorem State.setCtx_links (s : State) (c : Nat) (x : Ctx) : (s.setCtx c x).links = s.links := rfl
@[simp] theorem State.setCtx_aborts (s : State) (c : Nat) (x : Ctx) : (s.setCtx c x).aborts = s.aborts := rfl
@[simp] theorem State.setCtx_folds (s : State) (c : Nat) (x : Ctx) : (s.setCtx c x).folds = s.folds := rfl
@[simp] theorem State.setCtx_colls (s : State) (c : Nat) (x : Ctx) : (s.setCtx c x).colls = s.colls := rfl
@[simp] theorem State.setCtx_txns (s : State) (c : Nat) (x : Ctx) : (s.setCtx c x).txns = s.txns := rfl
@[simp] theorem State.setCtx_nextTxn (s : State) (c : Nat) (x : Ctx) : (s.setCtx c x).nextTxn = s.nextTxn := rfl
@[simp] theorem State.setCtx_recorders (s : State) (c : Nat) (x : Ctx) : (s.setCtx c x).recorders = s.recorders := rfl
@[simp] theorem State.setCtx_power (s : State) (c : Nat) (x : Ctx) : (s.setCtx c x).power = s.power := rfl
@[simp] theorem State.setCtx_modPower (s : State) (c : Nat) (x : Ctx) : (s.setCtx c x).modPower = s.modPower := rfl
@[simp] theorem State.setCtx_mgmt (s : State) (c : Nat) (x : Ctx) : (s.setCtx c x).mgmt = s.mgmt := rfl
@[simp] theorem State.setCtx_wear (s : State) (c : Nat) (x : Ctx) : (s.setCtx c x).wear = s.wear := rfl
@[simp] theorem State.setCtx_locket (s : State) (c : Nat) (x : Ctx) : (s.setCtx c x).locket = s.locket := rfl
@[simp] theorem State.setCtx_evc (s : State) (c : Nat) (x : Ctx) : (s.setCtx c x).evc = s.evc := rfl
@[simp] theorem State.setCtx_evcHold (s : State) (c : Nat) (x : Ctx) : (s.setCtx c x).evcHold = s.evcHold := rfl
@[simp] theorem State.setCtx_evcSeq (s : State) (c : Nat) (x : Ctx) : (s.setCtx c x).evcSeq = s.evcSeq := rfl
@[simp] theorem State.setCtx_domains (s : State) (c : Nat) (x : Ctx) : (s.setCtx c x).domains = s.domains := rfl
@[simp] theorem State.setCtx_boot (s : State) (c : Nat) (x : Ctx) : (s.setCtx c x).boot = s.boot := rfl
@[simp] theorem State.setCtx_flash (s : State) (c : Nat) (x : Ctx) : (s.setCtx c x).flash = s.flash := rfl
@[simp] theorem State.setCtx_errs (s : State) (c : Nat) (x : Ctx) : (s.setCtx c x).errs = s.errs := rfl
@[simp] theorem State.setCtx_dumps (s : State) (c : Nat) (x : Ctx) : (s.setCtx c x).dumps = s.dumps := rfl
@[simp] theorem State.setCtx_captures (s : State) (c : Nat) (x : Ctx) : (s.setCtx c x).captures = s.captures := rfl
@[simp] theorem State.setCtx_dumpQ (s : State) (c : Nat) (x : Ctx) : (s.setCtx c x).dumpQ = s.dumpQ := rfl
@[simp] theorem State.setCtx_meAbsent (s : State) (c : Nat) (x : Ctx) : (s.setCtx c x).meAbsent = s.meAbsent := rfl
@[simp] theorem State.setCtx_pipAbsent (s : State) (c : Nat) (x : Ctx) : (s.setCtx c x).pipAbsent = s.pipAbsent := rfl
@[simp] theorem State.setCtx_mvOwnPend (s : State) (c : Nat) (x : Ctx) : (s.setCtx c x).mvOwnPend = s.mvOwnPend := rfl
@[simp] theorem State.setCtx_bezels (s : State) (c : Nat) (x : Ctx) : (s.setCtx c x).bezels = s.bezels := rfl
@[simp] theorem State.setCtx_windows (s : State) (c : Nat) (x : Ctx) : (s.setCtx c x).windows = s.windows := rfl
@[simp] theorem State.setCtx_wdog (s : State) (c : Nat) (x : Ctx) : (s.setCtx c x).wdog = s.wdog := rfl
@[simp] theorem State.setCtx_pins (s : State) (c : Nat) (x : Ctx) : (s.setCtx c x).pins = s.pins := rfl
@[simp] theorem State.setCtx_free (s : State) (c : Nat) (x : Ctx) : (s.setCtx c x).free = s.free := rfl
@[simp] theorem State.setCtx_resp (s : State) (c : Nat) (x : Ctx) : (s.setCtx c x).resp = s.resp := rfl
@[simp] theorem State.setCtx_pending (s : State) (c : Nat) (x : Ctx) : (s.setCtx c x).pending = s.pending := rfl

/-! ### `State.setMe` -/

@[simp] theorem State.setMe_gtime (s : State) (t m : Nat) (x : Me) : (s.setMe t m x).gtime = s.gtime := rfl
@[simp] theorem State.setMe_regs (s : State) (t m : Nat) (x : Me) : (s.setMe t m x).regs = s.regs := rfl
@[simp] theorem State.setMe_mem (s : State) (t m : Nat) (x : Me) : (s.setMe t m x).mem = s.mem := rfl
@[simp] theorem State.setMe_cwErr (s : State) (t m : Nat) (x : Me) : (s.setMe t m x).cwErr = s.cwErr := rfl
@[simp] theorem State.setMe_tsBad (s : State) (t m : Nat) (x : Me) : (s.setMe t m x).tsBad = s.tsBad := rfl
@[simp] theorem State.setMe_tsLost (s : State) (t m : Nat) (x : Me) : (s.setMe t m x).tsLost = s.tsLost := rfl
@[simp] theorem State.setMe_ctxs (s : State) (t m : Nat) (x : Me) : (s.setMe t m x).ctxs = s.ctxs := rfl
@[simp] theorem State.setMe_undo (s : State) (t m : Nat) (x : Me) : (s.setMe t m x).undo = s.undo := rfl
@[simp] theorem State.setMe_holds (s : State) (t m : Nat) (x : Me) : (s.setMe t m x).holds = s.holds := rfl
@[simp] theorem State.setMe_jgen (s : State) (t m : Nat) (x : Me) : (s.setMe t m x).jgen = s.jgen := rfl
@[simp] theorem State.setMe_uelog (s : State) (t m : Nat) (x : Me) : (s.setMe t m x).uelog = s.uelog := rfl
@[simp] theorem State.setMe_ceSec (s : State) (t m : Nat) (x : Me) : (s.setMe t m x).ceSec = s.ceSec := rfl
@[simp] theorem State.setMe_retrain (s : State) (t m : Nat) (x : Me) : (s.setMe t m x).retrain = s.retrain := rfl
@[simp] theorem State.setMe_fills (s : State) (t m : Nat) (x : Me) : (s.setMe t m x).fills = s.fills := rfl
@[simp] theorem State.setMe_mes (s : State) (t m : Nat) (x : Me) : (s.setMe t m x).mes = kvSet Me.init s.mes (8 * t + m) x := rfl
@[simp] theorem State.setMe_movers (s : State) (t m : Nat) (x : Me) : (s.setMe t m x).movers = s.movers := rfl
@[simp] theorem State.setMe_harts (s : State) (t m : Nat) (x : Me) : (s.setMe t m x).harts = s.harts := rfl
@[simp] theorem State.setMe_tsScrub (s : State) (t m : Nat) (x : Me) : (s.setMe t m x).tsScrub = s.tsScrub := rfl
@[simp] theorem State.setMe_pressQ (s : State) (t m : Nat) (x : Me) : (s.setMe t m x).pressQ = s.pressQ := rfl
@[simp] theorem State.setMe_pressRr (s : State) (t m : Nat) (x : Me) : (s.setMe t m x).pressRr = s.pressRr := rfl
@[simp] theorem State.setMe_presses (s : State) (t m : Nat) (x : Me) : (s.setMe t m x).presses = s.presses := rfl
@[simp] theorem State.setMe_links (s : State) (t m : Nat) (x : Me) : (s.setMe t m x).links = s.links := rfl
@[simp] theorem State.setMe_aborts (s : State) (t m : Nat) (x : Me) : (s.setMe t m x).aborts = s.aborts := rfl
@[simp] theorem State.setMe_folds (s : State) (t m : Nat) (x : Me) : (s.setMe t m x).folds = s.folds := rfl
@[simp] theorem State.setMe_colls (s : State) (t m : Nat) (x : Me) : (s.setMe t m x).colls = s.colls := rfl
@[simp] theorem State.setMe_txns (s : State) (t m : Nat) (x : Me) : (s.setMe t m x).txns = s.txns := rfl
@[simp] theorem State.setMe_nextTxn (s : State) (t m : Nat) (x : Me) : (s.setMe t m x).nextTxn = s.nextTxn := rfl
@[simp] theorem State.setMe_recorders (s : State) (t m : Nat) (x : Me) : (s.setMe t m x).recorders = s.recorders := rfl
@[simp] theorem State.setMe_power (s : State) (t m : Nat) (x : Me) : (s.setMe t m x).power = s.power := rfl
@[simp] theorem State.setMe_modPower (s : State) (t m : Nat) (x : Me) : (s.setMe t m x).modPower = s.modPower := rfl
@[simp] theorem State.setMe_mgmt (s : State) (t m : Nat) (x : Me) : (s.setMe t m x).mgmt = s.mgmt := rfl
@[simp] theorem State.setMe_wear (s : State) (t m : Nat) (x : Me) : (s.setMe t m x).wear = s.wear := rfl
@[simp] theorem State.setMe_locket (s : State) (t m : Nat) (x : Me) : (s.setMe t m x).locket = s.locket := rfl
@[simp] theorem State.setMe_evc (s : State) (t m : Nat) (x : Me) : (s.setMe t m x).evc = s.evc := rfl
@[simp] theorem State.setMe_evcHold (s : State) (t m : Nat) (x : Me) : (s.setMe t m x).evcHold = s.evcHold := rfl
@[simp] theorem State.setMe_evcSeq (s : State) (t m : Nat) (x : Me) : (s.setMe t m x).evcSeq = s.evcSeq := rfl
@[simp] theorem State.setMe_domains (s : State) (t m : Nat) (x : Me) : (s.setMe t m x).domains = s.domains := rfl
@[simp] theorem State.setMe_boot (s : State) (t m : Nat) (x : Me) : (s.setMe t m x).boot = s.boot := rfl
@[simp] theorem State.setMe_flash (s : State) (t m : Nat) (x : Me) : (s.setMe t m x).flash = s.flash := rfl
@[simp] theorem State.setMe_errs (s : State) (t m : Nat) (x : Me) : (s.setMe t m x).errs = s.errs := rfl
@[simp] theorem State.setMe_dumps (s : State) (t m : Nat) (x : Me) : (s.setMe t m x).dumps = s.dumps := rfl
@[simp] theorem State.setMe_captures (s : State) (t m : Nat) (x : Me) : (s.setMe t m x).captures = s.captures := rfl
@[simp] theorem State.setMe_dumpQ (s : State) (t m : Nat) (x : Me) : (s.setMe t m x).dumpQ = s.dumpQ := rfl
@[simp] theorem State.setMe_meAbsent (s : State) (t m : Nat) (x : Me) : (s.setMe t m x).meAbsent = s.meAbsent := rfl
@[simp] theorem State.setMe_pipAbsent (s : State) (t m : Nat) (x : Me) : (s.setMe t m x).pipAbsent = s.pipAbsent := rfl
@[simp] theorem State.setMe_mvOwnPend (s : State) (t m : Nat) (x : Me) : (s.setMe t m x).mvOwnPend = s.mvOwnPend := rfl
@[simp] theorem State.setMe_bezels (s : State) (t m : Nat) (x : Me) : (s.setMe t m x).bezels = s.bezels := rfl
@[simp] theorem State.setMe_windows (s : State) (t m : Nat) (x : Me) : (s.setMe t m x).windows = s.windows := rfl
@[simp] theorem State.setMe_wdog (s : State) (t m : Nat) (x : Me) : (s.setMe t m x).wdog = s.wdog := rfl
@[simp] theorem State.setMe_pins (s : State) (t m : Nat) (x : Me) : (s.setMe t m x).pins = s.pins := rfl
@[simp] theorem State.setMe_free (s : State) (t m : Nat) (x : Me) : (s.setMe t m x).free = s.free := rfl
@[simp] theorem State.setMe_resp (s : State) (t m : Nat) (x : Me) : (s.setMe t m x).resp = s.resp := rfl
@[simp] theorem State.setMe_pending (s : State) (t m : Nat) (x : Me) : (s.setMe t m x).pending = s.pending := rfl

/-! ### `State.setMover` -/

@[simp] theorem State.setMover_gtime (s : State) (t m : Nat) (x : Mover) : (s.setMover t m x).gtime = s.gtime := rfl
@[simp] theorem State.setMover_regs (s : State) (t m : Nat) (x : Mover) : (s.setMover t m x).regs = s.regs := rfl
@[simp] theorem State.setMover_mem (s : State) (t m : Nat) (x : Mover) : (s.setMover t m x).mem = s.mem := rfl
@[simp] theorem State.setMover_cwErr (s : State) (t m : Nat) (x : Mover) : (s.setMover t m x).cwErr = s.cwErr := rfl
@[simp] theorem State.setMover_tsBad (s : State) (t m : Nat) (x : Mover) : (s.setMover t m x).tsBad = s.tsBad := rfl
@[simp] theorem State.setMover_tsLost (s : State) (t m : Nat) (x : Mover) : (s.setMover t m x).tsLost = s.tsLost := rfl
@[simp] theorem State.setMover_ctxs (s : State) (t m : Nat) (x : Mover) : (s.setMover t m x).ctxs = s.ctxs := rfl
@[simp] theorem State.setMover_undo (s : State) (t m : Nat) (x : Mover) : (s.setMover t m x).undo = s.undo := rfl
@[simp] theorem State.setMover_holds (s : State) (t m : Nat) (x : Mover) : (s.setMover t m x).holds = s.holds := rfl
@[simp] theorem State.setMover_jgen (s : State) (t m : Nat) (x : Mover) : (s.setMover t m x).jgen = s.jgen := rfl
@[simp] theorem State.setMover_uelog (s : State) (t m : Nat) (x : Mover) : (s.setMover t m x).uelog = s.uelog := rfl
@[simp] theorem State.setMover_ceSec (s : State) (t m : Nat) (x : Mover) : (s.setMover t m x).ceSec = s.ceSec := rfl
@[simp] theorem State.setMover_retrain (s : State) (t m : Nat) (x : Mover) : (s.setMover t m x).retrain = s.retrain := rfl
@[simp] theorem State.setMover_fills (s : State) (t m : Nat) (x : Mover) : (s.setMover t m x).fills = s.fills := rfl
@[simp] theorem State.setMover_mes (s : State) (t m : Nat) (x : Mover) : (s.setMover t m x).mes = s.mes := rfl
@[simp] theorem State.setMover_movers (s : State) (t m : Nat) (x : Mover) : (s.setMover t m x).movers = kvSet Mover.init s.movers (8 * t + m) x := rfl
@[simp] theorem State.setMover_harts (s : State) (t m : Nat) (x : Mover) : (s.setMover t m x).harts = s.harts := rfl
@[simp] theorem State.setMover_tsScrub (s : State) (t m : Nat) (x : Mover) : (s.setMover t m x).tsScrub = s.tsScrub := rfl
@[simp] theorem State.setMover_pressQ (s : State) (t m : Nat) (x : Mover) : (s.setMover t m x).pressQ = s.pressQ := rfl
@[simp] theorem State.setMover_pressRr (s : State) (t m : Nat) (x : Mover) : (s.setMover t m x).pressRr = s.pressRr := rfl
@[simp] theorem State.setMover_presses (s : State) (t m : Nat) (x : Mover) : (s.setMover t m x).presses = s.presses := rfl
@[simp] theorem State.setMover_links (s : State) (t m : Nat) (x : Mover) : (s.setMover t m x).links = s.links := rfl
@[simp] theorem State.setMover_aborts (s : State) (t m : Nat) (x : Mover) : (s.setMover t m x).aborts = s.aborts := rfl
@[simp] theorem State.setMover_folds (s : State) (t m : Nat) (x : Mover) : (s.setMover t m x).folds = s.folds := rfl
@[simp] theorem State.setMover_colls (s : State) (t m : Nat) (x : Mover) : (s.setMover t m x).colls = s.colls := rfl
@[simp] theorem State.setMover_txns (s : State) (t m : Nat) (x : Mover) : (s.setMover t m x).txns = s.txns := rfl
@[simp] theorem State.setMover_nextTxn (s : State) (t m : Nat) (x : Mover) : (s.setMover t m x).nextTxn = s.nextTxn := rfl
@[simp] theorem State.setMover_recorders (s : State) (t m : Nat) (x : Mover) : (s.setMover t m x).recorders = s.recorders := rfl
@[simp] theorem State.setMover_power (s : State) (t m : Nat) (x : Mover) : (s.setMover t m x).power = s.power := rfl
@[simp] theorem State.setMover_modPower (s : State) (t m : Nat) (x : Mover) : (s.setMover t m x).modPower = s.modPower := rfl
@[simp] theorem State.setMover_mgmt (s : State) (t m : Nat) (x : Mover) : (s.setMover t m x).mgmt = s.mgmt := rfl
@[simp] theorem State.setMover_wear (s : State) (t m : Nat) (x : Mover) : (s.setMover t m x).wear = s.wear := rfl
@[simp] theorem State.setMover_locket (s : State) (t m : Nat) (x : Mover) : (s.setMover t m x).locket = s.locket := rfl
@[simp] theorem State.setMover_evc (s : State) (t m : Nat) (x : Mover) : (s.setMover t m x).evc = s.evc := rfl
@[simp] theorem State.setMover_evcHold (s : State) (t m : Nat) (x : Mover) : (s.setMover t m x).evcHold = s.evcHold := rfl
@[simp] theorem State.setMover_evcSeq (s : State) (t m : Nat) (x : Mover) : (s.setMover t m x).evcSeq = s.evcSeq := rfl
@[simp] theorem State.setMover_domains (s : State) (t m : Nat) (x : Mover) : (s.setMover t m x).domains = s.domains := rfl
@[simp] theorem State.setMover_boot (s : State) (t m : Nat) (x : Mover) : (s.setMover t m x).boot = s.boot := rfl
@[simp] theorem State.setMover_flash (s : State) (t m : Nat) (x : Mover) : (s.setMover t m x).flash = s.flash := rfl
@[simp] theorem State.setMover_errs (s : State) (t m : Nat) (x : Mover) : (s.setMover t m x).errs = s.errs := rfl
@[simp] theorem State.setMover_dumps (s : State) (t m : Nat) (x : Mover) : (s.setMover t m x).dumps = s.dumps := rfl
@[simp] theorem State.setMover_captures (s : State) (t m : Nat) (x : Mover) : (s.setMover t m x).captures = s.captures := rfl
@[simp] theorem State.setMover_dumpQ (s : State) (t m : Nat) (x : Mover) : (s.setMover t m x).dumpQ = s.dumpQ := rfl
@[simp] theorem State.setMover_meAbsent (s : State) (t m : Nat) (x : Mover) : (s.setMover t m x).meAbsent = s.meAbsent := rfl
@[simp] theorem State.setMover_pipAbsent (s : State) (t m : Nat) (x : Mover) : (s.setMover t m x).pipAbsent = s.pipAbsent := rfl
@[simp] theorem State.setMover_mvOwnPend (s : State) (t m : Nat) (x : Mover) : (s.setMover t m x).mvOwnPend = s.mvOwnPend := rfl
@[simp] theorem State.setMover_bezels (s : State) (t m : Nat) (x : Mover) : (s.setMover t m x).bezels = s.bezels := rfl
@[simp] theorem State.setMover_windows (s : State) (t m : Nat) (x : Mover) : (s.setMover t m x).windows = s.windows := rfl
@[simp] theorem State.setMover_wdog (s : State) (t m : Nat) (x : Mover) : (s.setMover t m x).wdog = s.wdog := rfl
@[simp] theorem State.setMover_pins (s : State) (t m : Nat) (x : Mover) : (s.setMover t m x).pins = s.pins := rfl
@[simp] theorem State.setMover_free (s : State) (t m : Nat) (x : Mover) : (s.setMover t m x).free = s.free := rfl
@[simp] theorem State.setMover_resp (s : State) (t m : Nat) (x : Mover) : (s.setMover t m x).resp = s.resp := rfl
@[simp] theorem State.setMover_pending (s : State) (t m : Nat) (x : Mover) : (s.setMover t m x).pending = s.pending := rfl

/-! ### `State.setHart` -/

@[simp] theorem State.setHart_gtime (s : State) (t h : Nat) (x : Hart) : (s.setHart t h x).gtime = s.gtime := rfl
@[simp] theorem State.setHart_regs (s : State) (t h : Nat) (x : Hart) : (s.setHart t h x).regs = s.regs := rfl
@[simp] theorem State.setHart_mem (s : State) (t h : Nat) (x : Hart) : (s.setHart t h x).mem = s.mem := rfl
@[simp] theorem State.setHart_cwErr (s : State) (t h : Nat) (x : Hart) : (s.setHart t h x).cwErr = s.cwErr := rfl
@[simp] theorem State.setHart_tsBad (s : State) (t h : Nat) (x : Hart) : (s.setHart t h x).tsBad = s.tsBad := rfl
@[simp] theorem State.setHart_tsLost (s : State) (t h : Nat) (x : Hart) : (s.setHart t h x).tsLost = s.tsLost := rfl
@[simp] theorem State.setHart_ctxs (s : State) (t h : Nat) (x : Hart) : (s.setHart t h x).ctxs = s.ctxs := rfl
@[simp] theorem State.setHart_undo (s : State) (t h : Nat) (x : Hart) : (s.setHart t h x).undo = s.undo := rfl
@[simp] theorem State.setHart_holds (s : State) (t h : Nat) (x : Hart) : (s.setHart t h x).holds = s.holds := rfl
@[simp] theorem State.setHart_jgen (s : State) (t h : Nat) (x : Hart) : (s.setHart t h x).jgen = s.jgen := rfl
@[simp] theorem State.setHart_uelog (s : State) (t h : Nat) (x : Hart) : (s.setHart t h x).uelog = s.uelog := rfl
@[simp] theorem State.setHart_ceSec (s : State) (t h : Nat) (x : Hart) : (s.setHart t h x).ceSec = s.ceSec := rfl
@[simp] theorem State.setHart_retrain (s : State) (t h : Nat) (x : Hart) : (s.setHart t h x).retrain = s.retrain := rfl
@[simp] theorem State.setHart_fills (s : State) (t h : Nat) (x : Hart) : (s.setHart t h x).fills = s.fills := rfl
@[simp] theorem State.setHart_mes (s : State) (t h : Nat) (x : Hart) : (s.setHart t h x).mes = s.mes := rfl
@[simp] theorem State.setHart_movers (s : State) (t h : Nat) (x : Hart) : (s.setHart t h x).movers = s.movers := rfl
@[simp] theorem State.setHart_harts (s : State) (t h : Nat) (x : Hart) : (s.setHart t h x).harts = kvSet Hart.init s.harts (32 * t + h) x := rfl
@[simp] theorem State.setHart_tsScrub (s : State) (t h : Nat) (x : Hart) : (s.setHart t h x).tsScrub = s.tsScrub := rfl
@[simp] theorem State.setHart_pressQ (s : State) (t h : Nat) (x : Hart) : (s.setHart t h x).pressQ = s.pressQ := rfl
@[simp] theorem State.setHart_pressRr (s : State) (t h : Nat) (x : Hart) : (s.setHart t h x).pressRr = s.pressRr := rfl
@[simp] theorem State.setHart_presses (s : State) (t h : Nat) (x : Hart) : (s.setHart t h x).presses = s.presses := rfl
@[simp] theorem State.setHart_links (s : State) (t h : Nat) (x : Hart) : (s.setHart t h x).links = s.links := rfl
@[simp] theorem State.setHart_aborts (s : State) (t h : Nat) (x : Hart) : (s.setHart t h x).aborts = s.aborts := rfl
@[simp] theorem State.setHart_folds (s : State) (t h : Nat) (x : Hart) : (s.setHart t h x).folds = s.folds := rfl
@[simp] theorem State.setHart_colls (s : State) (t h : Nat) (x : Hart) : (s.setHart t h x).colls = s.colls := rfl
@[simp] theorem State.setHart_txns (s : State) (t h : Nat) (x : Hart) : (s.setHart t h x).txns = s.txns := rfl
@[simp] theorem State.setHart_nextTxn (s : State) (t h : Nat) (x : Hart) : (s.setHart t h x).nextTxn = s.nextTxn := rfl
@[simp] theorem State.setHart_recorders (s : State) (t h : Nat) (x : Hart) : (s.setHart t h x).recorders = s.recorders := rfl
@[simp] theorem State.setHart_power (s : State) (t h : Nat) (x : Hart) : (s.setHart t h x).power = s.power := rfl
@[simp] theorem State.setHart_modPower (s : State) (t h : Nat) (x : Hart) : (s.setHart t h x).modPower = s.modPower := rfl
@[simp] theorem State.setHart_mgmt (s : State) (t h : Nat) (x : Hart) : (s.setHart t h x).mgmt = s.mgmt := rfl
@[simp] theorem State.setHart_wear (s : State) (t h : Nat) (x : Hart) : (s.setHart t h x).wear = s.wear := rfl
@[simp] theorem State.setHart_locket (s : State) (t h : Nat) (x : Hart) : (s.setHart t h x).locket = s.locket := rfl
@[simp] theorem State.setHart_evc (s : State) (t h : Nat) (x : Hart) : (s.setHart t h x).evc = s.evc := rfl
@[simp] theorem State.setHart_evcHold (s : State) (t h : Nat) (x : Hart) : (s.setHart t h x).evcHold = s.evcHold := rfl
@[simp] theorem State.setHart_evcSeq (s : State) (t h : Nat) (x : Hart) : (s.setHart t h x).evcSeq = s.evcSeq := rfl
@[simp] theorem State.setHart_domains (s : State) (t h : Nat) (x : Hart) : (s.setHart t h x).domains = s.domains := rfl
@[simp] theorem State.setHart_boot (s : State) (t h : Nat) (x : Hart) : (s.setHart t h x).boot = s.boot := rfl
@[simp] theorem State.setHart_flash (s : State) (t h : Nat) (x : Hart) : (s.setHart t h x).flash = s.flash := rfl
@[simp] theorem State.setHart_errs (s : State) (t h : Nat) (x : Hart) : (s.setHart t h x).errs = s.errs := rfl
@[simp] theorem State.setHart_dumps (s : State) (t h : Nat) (x : Hart) : (s.setHart t h x).dumps = s.dumps := rfl
@[simp] theorem State.setHart_captures (s : State) (t h : Nat) (x : Hart) : (s.setHart t h x).captures = s.captures := rfl
@[simp] theorem State.setHart_dumpQ (s : State) (t h : Nat) (x : Hart) : (s.setHart t h x).dumpQ = s.dumpQ := rfl
@[simp] theorem State.setHart_meAbsent (s : State) (t h : Nat) (x : Hart) : (s.setHart t h x).meAbsent = s.meAbsent := rfl
@[simp] theorem State.setHart_pipAbsent (s : State) (t h : Nat) (x : Hart) : (s.setHart t h x).pipAbsent = s.pipAbsent := rfl
@[simp] theorem State.setHart_mvOwnPend (s : State) (t h : Nat) (x : Hart) : (s.setHart t h x).mvOwnPend = s.mvOwnPend := rfl
@[simp] theorem State.setHart_bezels (s : State) (t h : Nat) (x : Hart) : (s.setHart t h x).bezels = s.bezels := rfl
@[simp] theorem State.setHart_windows (s : State) (t h : Nat) (x : Hart) : (s.setHart t h x).windows = s.windows := rfl
@[simp] theorem State.setHart_wdog (s : State) (t h : Nat) (x : Hart) : (s.setHart t h x).wdog = s.wdog := rfl
@[simp] theorem State.setHart_pins (s : State) (t h : Nat) (x : Hart) : (s.setHart t h x).pins = s.pins := rfl
@[simp] theorem State.setHart_free (s : State) (t h : Nat) (x : Hart) : (s.setHart t h x).free = s.free := rfl
@[simp] theorem State.setHart_resp (s : State) (t h : Nat) (x : Hart) : (s.setHart t h x).resp = s.resp := rfl
@[simp] theorem State.setHart_pending (s : State) (t h : Nat) (x : Hart) : (s.setHart t h x).pending = s.pending := rfl

/-! ### `State.setLink` -/

@[simp] theorem State.setLink_gtime (s : State) (n : Nat) (x : Link) : (s.setLink n x).gtime = s.gtime := rfl
@[simp] theorem State.setLink_regs (s : State) (n : Nat) (x : Link) : (s.setLink n x).regs = s.regs := rfl
@[simp] theorem State.setLink_mem (s : State) (n : Nat) (x : Link) : (s.setLink n x).mem = s.mem := rfl
@[simp] theorem State.setLink_cwErr (s : State) (n : Nat) (x : Link) : (s.setLink n x).cwErr = s.cwErr := rfl
@[simp] theorem State.setLink_tsBad (s : State) (n : Nat) (x : Link) : (s.setLink n x).tsBad = s.tsBad := rfl
@[simp] theorem State.setLink_tsLost (s : State) (n : Nat) (x : Link) : (s.setLink n x).tsLost = s.tsLost := rfl
@[simp] theorem State.setLink_ctxs (s : State) (n : Nat) (x : Link) : (s.setLink n x).ctxs = s.ctxs := rfl
@[simp] theorem State.setLink_undo (s : State) (n : Nat) (x : Link) : (s.setLink n x).undo = s.undo := rfl
@[simp] theorem State.setLink_holds (s : State) (n : Nat) (x : Link) : (s.setLink n x).holds = s.holds := rfl
@[simp] theorem State.setLink_jgen (s : State) (n : Nat) (x : Link) : (s.setLink n x).jgen = s.jgen := rfl
@[simp] theorem State.setLink_uelog (s : State) (n : Nat) (x : Link) : (s.setLink n x).uelog = s.uelog := rfl
@[simp] theorem State.setLink_ceSec (s : State) (n : Nat) (x : Link) : (s.setLink n x).ceSec = s.ceSec := rfl
@[simp] theorem State.setLink_retrain (s : State) (n : Nat) (x : Link) : (s.setLink n x).retrain = s.retrain := rfl
@[simp] theorem State.setLink_fills (s : State) (n : Nat) (x : Link) : (s.setLink n x).fills = s.fills := rfl
@[simp] theorem State.setLink_mes (s : State) (n : Nat) (x : Link) : (s.setLink n x).mes = s.mes := rfl
@[simp] theorem State.setLink_movers (s : State) (n : Nat) (x : Link) : (s.setLink n x).movers = s.movers := rfl
@[simp] theorem State.setLink_harts (s : State) (n : Nat) (x : Link) : (s.setLink n x).harts = s.harts := rfl
@[simp] theorem State.setLink_tsScrub (s : State) (n : Nat) (x : Link) : (s.setLink n x).tsScrub = s.tsScrub := rfl
@[simp] theorem State.setLink_pressQ (s : State) (n : Nat) (x : Link) : (s.setLink n x).pressQ = s.pressQ := rfl
@[simp] theorem State.setLink_pressRr (s : State) (n : Nat) (x : Link) : (s.setLink n x).pressRr = s.pressRr := rfl
@[simp] theorem State.setLink_presses (s : State) (n : Nat) (x : Link) : (s.setLink n x).presses = s.presses := rfl
@[simp] theorem State.setLink_links (s : State) (n : Nat) (x : Link) : (s.setLink n x).links = kvSet Link.init s.links n x := rfl
@[simp] theorem State.setLink_aborts (s : State) (n : Nat) (x : Link) : (s.setLink n x).aborts = s.aborts := rfl
@[simp] theorem State.setLink_folds (s : State) (n : Nat) (x : Link) : (s.setLink n x).folds = s.folds := rfl
@[simp] theorem State.setLink_colls (s : State) (n : Nat) (x : Link) : (s.setLink n x).colls = s.colls := rfl
@[simp] theorem State.setLink_txns (s : State) (n : Nat) (x : Link) : (s.setLink n x).txns = s.txns := rfl
@[simp] theorem State.setLink_nextTxn (s : State) (n : Nat) (x : Link) : (s.setLink n x).nextTxn = s.nextTxn := rfl
@[simp] theorem State.setLink_recorders (s : State) (n : Nat) (x : Link) : (s.setLink n x).recorders = s.recorders := rfl
@[simp] theorem State.setLink_power (s : State) (n : Nat) (x : Link) : (s.setLink n x).power = s.power := rfl
@[simp] theorem State.setLink_modPower (s : State) (n : Nat) (x : Link) : (s.setLink n x).modPower = s.modPower := rfl
@[simp] theorem State.setLink_mgmt (s : State) (n : Nat) (x : Link) : (s.setLink n x).mgmt = s.mgmt := rfl
@[simp] theorem State.setLink_wear (s : State) (n : Nat) (x : Link) : (s.setLink n x).wear = s.wear := rfl
@[simp] theorem State.setLink_locket (s : State) (n : Nat) (x : Link) : (s.setLink n x).locket = s.locket := rfl
@[simp] theorem State.setLink_evc (s : State) (n : Nat) (x : Link) : (s.setLink n x).evc = s.evc := rfl
@[simp] theorem State.setLink_evcHold (s : State) (n : Nat) (x : Link) : (s.setLink n x).evcHold = s.evcHold := rfl
@[simp] theorem State.setLink_evcSeq (s : State) (n : Nat) (x : Link) : (s.setLink n x).evcSeq = s.evcSeq := rfl
@[simp] theorem State.setLink_domains (s : State) (n : Nat) (x : Link) : (s.setLink n x).domains = s.domains := rfl
@[simp] theorem State.setLink_boot (s : State) (n : Nat) (x : Link) : (s.setLink n x).boot = s.boot := rfl
@[simp] theorem State.setLink_flash (s : State) (n : Nat) (x : Link) : (s.setLink n x).flash = s.flash := rfl
@[simp] theorem State.setLink_errs (s : State) (n : Nat) (x : Link) : (s.setLink n x).errs = s.errs := rfl
@[simp] theorem State.setLink_dumps (s : State) (n : Nat) (x : Link) : (s.setLink n x).dumps = s.dumps := rfl
@[simp] theorem State.setLink_captures (s : State) (n : Nat) (x : Link) : (s.setLink n x).captures = s.captures := rfl
@[simp] theorem State.setLink_dumpQ (s : State) (n : Nat) (x : Link) : (s.setLink n x).dumpQ = s.dumpQ := rfl
@[simp] theorem State.setLink_meAbsent (s : State) (n : Nat) (x : Link) : (s.setLink n x).meAbsent = s.meAbsent := rfl
@[simp] theorem State.setLink_pipAbsent (s : State) (n : Nat) (x : Link) : (s.setLink n x).pipAbsent = s.pipAbsent := rfl
@[simp] theorem State.setLink_mvOwnPend (s : State) (n : Nat) (x : Link) : (s.setLink n x).mvOwnPend = s.mvOwnPend := rfl
@[simp] theorem State.setLink_bezels (s : State) (n : Nat) (x : Link) : (s.setLink n x).bezels = s.bezels := rfl
@[simp] theorem State.setLink_windows (s : State) (n : Nat) (x : Link) : (s.setLink n x).windows = s.windows := rfl
@[simp] theorem State.setLink_wdog (s : State) (n : Nat) (x : Link) : (s.setLink n x).wdog = s.wdog := rfl
@[simp] theorem State.setLink_pins (s : State) (n : Nat) (x : Link) : (s.setLink n x).pins = s.pins := rfl
@[simp] theorem State.setLink_free (s : State) (n : Nat) (x : Link) : (s.setLink n x).free = s.free := rfl
@[simp] theorem State.setLink_resp (s : State) (n : Nat) (x : Link) : (s.setLink n x).resp = s.resp := rfl
@[simp] theorem State.setLink_pending (s : State) (n : Nat) (x : Link) : (s.setLink n x).pending = s.pending := rfl

/-! ### `State.setPress` -/

@[simp] theorem State.setPress_gtime (s : State) (d e : Nat) (x : Press) : (s.setPress d e x).gtime = s.gtime := rfl
@[simp] theorem State.setPress_regs (s : State) (d e : Nat) (x : Press) : (s.setPress d e x).regs = s.regs := rfl
@[simp] theorem State.setPress_mem (s : State) (d e : Nat) (x : Press) : (s.setPress d e x).mem = s.mem := rfl
@[simp] theorem State.setPress_cwErr (s : State) (d e : Nat) (x : Press) : (s.setPress d e x).cwErr = s.cwErr := rfl
@[simp] theorem State.setPress_tsBad (s : State) (d e : Nat) (x : Press) : (s.setPress d e x).tsBad = s.tsBad := rfl
@[simp] theorem State.setPress_tsLost (s : State) (d e : Nat) (x : Press) : (s.setPress d e x).tsLost = s.tsLost := rfl
@[simp] theorem State.setPress_ctxs (s : State) (d e : Nat) (x : Press) : (s.setPress d e x).ctxs = s.ctxs := rfl
@[simp] theorem State.setPress_undo (s : State) (d e : Nat) (x : Press) : (s.setPress d e x).undo = s.undo := rfl
@[simp] theorem State.setPress_holds (s : State) (d e : Nat) (x : Press) : (s.setPress d e x).holds = s.holds := rfl
@[simp] theorem State.setPress_jgen (s : State) (d e : Nat) (x : Press) : (s.setPress d e x).jgen = s.jgen := rfl
@[simp] theorem State.setPress_uelog (s : State) (d e : Nat) (x : Press) : (s.setPress d e x).uelog = s.uelog := rfl
@[simp] theorem State.setPress_ceSec (s : State) (d e : Nat) (x : Press) : (s.setPress d e x).ceSec = s.ceSec := rfl
@[simp] theorem State.setPress_retrain (s : State) (d e : Nat) (x : Press) : (s.setPress d e x).retrain = s.retrain := rfl
@[simp] theorem State.setPress_fills (s : State) (d e : Nat) (x : Press) : (s.setPress d e x).fills = s.fills := rfl
@[simp] theorem State.setPress_mes (s : State) (d e : Nat) (x : Press) : (s.setPress d e x).mes = s.mes := rfl
@[simp] theorem State.setPress_movers (s : State) (d e : Nat) (x : Press) : (s.setPress d e x).movers = s.movers := rfl
@[simp] theorem State.setPress_harts (s : State) (d e : Nat) (x : Press) : (s.setPress d e x).harts = s.harts := rfl
@[simp] theorem State.setPress_tsScrub (s : State) (d e : Nat) (x : Press) : (s.setPress d e x).tsScrub = s.tsScrub := rfl
@[simp] theorem State.setPress_pressQ (s : State) (d e : Nat) (x : Press) : (s.setPress d e x).pressQ = s.pressQ := rfl
@[simp] theorem State.setPress_pressRr (s : State) (d e : Nat) (x : Press) : (s.setPress d e x).pressRr = s.pressRr := rfl
@[simp] theorem State.setPress_presses (s : State) (d e : Nat) (x : Press) : (s.setPress d e x).presses = kvSet Press.init s.presses (16 * d + e) x := rfl
@[simp] theorem State.setPress_links (s : State) (d e : Nat) (x : Press) : (s.setPress d e x).links = s.links := rfl
@[simp] theorem State.setPress_aborts (s : State) (d e : Nat) (x : Press) : (s.setPress d e x).aborts = s.aborts := rfl
@[simp] theorem State.setPress_folds (s : State) (d e : Nat) (x : Press) : (s.setPress d e x).folds = s.folds := rfl
@[simp] theorem State.setPress_colls (s : State) (d e : Nat) (x : Press) : (s.setPress d e x).colls = s.colls := rfl
@[simp] theorem State.setPress_txns (s : State) (d e : Nat) (x : Press) : (s.setPress d e x).txns = s.txns := rfl
@[simp] theorem State.setPress_nextTxn (s : State) (d e : Nat) (x : Press) : (s.setPress d e x).nextTxn = s.nextTxn := rfl
@[simp] theorem State.setPress_recorders (s : State) (d e : Nat) (x : Press) : (s.setPress d e x).recorders = s.recorders := rfl
@[simp] theorem State.setPress_power (s : State) (d e : Nat) (x : Press) : (s.setPress d e x).power = s.power := rfl
@[simp] theorem State.setPress_modPower (s : State) (d e : Nat) (x : Press) : (s.setPress d e x).modPower = s.modPower := rfl
@[simp] theorem State.setPress_mgmt (s : State) (d e : Nat) (x : Press) : (s.setPress d e x).mgmt = s.mgmt := rfl
@[simp] theorem State.setPress_wear (s : State) (d e : Nat) (x : Press) : (s.setPress d e x).wear = s.wear := rfl
@[simp] theorem State.setPress_locket (s : State) (d e : Nat) (x : Press) : (s.setPress d e x).locket = s.locket := rfl
@[simp] theorem State.setPress_evc (s : State) (d e : Nat) (x : Press) : (s.setPress d e x).evc = s.evc := rfl
@[simp] theorem State.setPress_evcHold (s : State) (d e : Nat) (x : Press) : (s.setPress d e x).evcHold = s.evcHold := rfl
@[simp] theorem State.setPress_evcSeq (s : State) (d e : Nat) (x : Press) : (s.setPress d e x).evcSeq = s.evcSeq := rfl
@[simp] theorem State.setPress_domains (s : State) (d e : Nat) (x : Press) : (s.setPress d e x).domains = s.domains := rfl
@[simp] theorem State.setPress_boot (s : State) (d e : Nat) (x : Press) : (s.setPress d e x).boot = s.boot := rfl
@[simp] theorem State.setPress_flash (s : State) (d e : Nat) (x : Press) : (s.setPress d e x).flash = s.flash := rfl
@[simp] theorem State.setPress_errs (s : State) (d e : Nat) (x : Press) : (s.setPress d e x).errs = s.errs := rfl
@[simp] theorem State.setPress_dumps (s : State) (d e : Nat) (x : Press) : (s.setPress d e x).dumps = s.dumps := rfl
@[simp] theorem State.setPress_captures (s : State) (d e : Nat) (x : Press) : (s.setPress d e x).captures = s.captures := rfl
@[simp] theorem State.setPress_dumpQ (s : State) (d e : Nat) (x : Press) : (s.setPress d e x).dumpQ = s.dumpQ := rfl
@[simp] theorem State.setPress_meAbsent (s : State) (d e : Nat) (x : Press) : (s.setPress d e x).meAbsent = s.meAbsent := rfl
@[simp] theorem State.setPress_pipAbsent (s : State) (d e : Nat) (x : Press) : (s.setPress d e x).pipAbsent = s.pipAbsent := rfl
@[simp] theorem State.setPress_mvOwnPend (s : State) (d e : Nat) (x : Press) : (s.setPress d e x).mvOwnPend = s.mvOwnPend := rfl
@[simp] theorem State.setPress_bezels (s : State) (d e : Nat) (x : Press) : (s.setPress d e x).bezels = s.bezels := rfl
@[simp] theorem State.setPress_windows (s : State) (d e : Nat) (x : Press) : (s.setPress d e x).windows = s.windows := rfl
@[simp] theorem State.setPress_wdog (s : State) (d e : Nat) (x : Press) : (s.setPress d e x).wdog = s.wdog := rfl
@[simp] theorem State.setPress_pins (s : State) (d e : Nat) (x : Press) : (s.setPress d e x).pins = s.pins := rfl
@[simp] theorem State.setPress_free (s : State) (d e : Nat) (x : Press) : (s.setPress d e x).free = s.free := rfl
@[simp] theorem State.setPress_resp (s : State) (d e : Nat) (x : Press) : (s.setPress d e x).resp = s.resp := rfl
@[simp] theorem State.setPress_pending (s : State) (d e : Nat) (x : Press) : (s.setPress d e x).pending = s.pending := rfl

/-! ### `State.setPwr` -/

@[simp] theorem State.setPwr_gtime (s : State) (p : Nat) (x : Power) : (s.setPwr p x).gtime = s.gtime := rfl
@[simp] theorem State.setPwr_regs (s : State) (p : Nat) (x : Power) : (s.setPwr p x).regs = s.regs := rfl
@[simp] theorem State.setPwr_mem (s : State) (p : Nat) (x : Power) : (s.setPwr p x).mem = s.mem := rfl
@[simp] theorem State.setPwr_cwErr (s : State) (p : Nat) (x : Power) : (s.setPwr p x).cwErr = s.cwErr := rfl
@[simp] theorem State.setPwr_tsBad (s : State) (p : Nat) (x : Power) : (s.setPwr p x).tsBad = s.tsBad := rfl
@[simp] theorem State.setPwr_tsLost (s : State) (p : Nat) (x : Power) : (s.setPwr p x).tsLost = s.tsLost := rfl
@[simp] theorem State.setPwr_ctxs (s : State) (p : Nat) (x : Power) : (s.setPwr p x).ctxs = s.ctxs := rfl
@[simp] theorem State.setPwr_undo (s : State) (p : Nat) (x : Power) : (s.setPwr p x).undo = s.undo := rfl
@[simp] theorem State.setPwr_holds (s : State) (p : Nat) (x : Power) : (s.setPwr p x).holds = s.holds := rfl
@[simp] theorem State.setPwr_jgen (s : State) (p : Nat) (x : Power) : (s.setPwr p x).jgen = s.jgen := rfl
@[simp] theorem State.setPwr_uelog (s : State) (p : Nat) (x : Power) : (s.setPwr p x).uelog = s.uelog := rfl
@[simp] theorem State.setPwr_ceSec (s : State) (p : Nat) (x : Power) : (s.setPwr p x).ceSec = s.ceSec := rfl
@[simp] theorem State.setPwr_retrain (s : State) (p : Nat) (x : Power) : (s.setPwr p x).retrain = s.retrain := rfl
@[simp] theorem State.setPwr_fills (s : State) (p : Nat) (x : Power) : (s.setPwr p x).fills = s.fills := rfl
@[simp] theorem State.setPwr_mes (s : State) (p : Nat) (x : Power) : (s.setPwr p x).mes = s.mes := rfl
@[simp] theorem State.setPwr_movers (s : State) (p : Nat) (x : Power) : (s.setPwr p x).movers = s.movers := rfl
@[simp] theorem State.setPwr_harts (s : State) (p : Nat) (x : Power) : (s.setPwr p x).harts = s.harts := rfl
@[simp] theorem State.setPwr_tsScrub (s : State) (p : Nat) (x : Power) : (s.setPwr p x).tsScrub = s.tsScrub := rfl
@[simp] theorem State.setPwr_pressQ (s : State) (p : Nat) (x : Power) : (s.setPwr p x).pressQ = s.pressQ := rfl
@[simp] theorem State.setPwr_pressRr (s : State) (p : Nat) (x : Power) : (s.setPwr p x).pressRr = s.pressRr := rfl
@[simp] theorem State.setPwr_presses (s : State) (p : Nat) (x : Power) : (s.setPwr p x).presses = s.presses := rfl
@[simp] theorem State.setPwr_links (s : State) (p : Nat) (x : Power) : (s.setPwr p x).links = s.links := rfl
@[simp] theorem State.setPwr_aborts (s : State) (p : Nat) (x : Power) : (s.setPwr p x).aborts = s.aborts := rfl
@[simp] theorem State.setPwr_folds (s : State) (p : Nat) (x : Power) : (s.setPwr p x).folds = s.folds := rfl
@[simp] theorem State.setPwr_colls (s : State) (p : Nat) (x : Power) : (s.setPwr p x).colls = s.colls := rfl
@[simp] theorem State.setPwr_txns (s : State) (p : Nat) (x : Power) : (s.setPwr p x).txns = s.txns := rfl
@[simp] theorem State.setPwr_nextTxn (s : State) (p : Nat) (x : Power) : (s.setPwr p x).nextTxn = s.nextTxn := rfl
@[simp] theorem State.setPwr_recorders (s : State) (p : Nat) (x : Power) : (s.setPwr p x).recorders = s.recorders := rfl
@[simp] theorem State.setPwr_power (s : State) (p : Nat) (x : Power) : (s.setPwr p x).power = kvSet Power.init s.power p x := rfl
@[simp] theorem State.setPwr_modPower (s : State) (p : Nat) (x : Power) : (s.setPwr p x).modPower = s.modPower := rfl
@[simp] theorem State.setPwr_mgmt (s : State) (p : Nat) (x : Power) : (s.setPwr p x).mgmt = s.mgmt := rfl
@[simp] theorem State.setPwr_wear (s : State) (p : Nat) (x : Power) : (s.setPwr p x).wear = s.wear := rfl
@[simp] theorem State.setPwr_locket (s : State) (p : Nat) (x : Power) : (s.setPwr p x).locket = s.locket := rfl
@[simp] theorem State.setPwr_evc (s : State) (p : Nat) (x : Power) : (s.setPwr p x).evc = s.evc := rfl
@[simp] theorem State.setPwr_evcHold (s : State) (p : Nat) (x : Power) : (s.setPwr p x).evcHold = s.evcHold := rfl
@[simp] theorem State.setPwr_evcSeq (s : State) (p : Nat) (x : Power) : (s.setPwr p x).evcSeq = s.evcSeq := rfl
@[simp] theorem State.setPwr_domains (s : State) (p : Nat) (x : Power) : (s.setPwr p x).domains = s.domains := rfl
@[simp] theorem State.setPwr_boot (s : State) (p : Nat) (x : Power) : (s.setPwr p x).boot = s.boot := rfl
@[simp] theorem State.setPwr_flash (s : State) (p : Nat) (x : Power) : (s.setPwr p x).flash = s.flash := rfl
@[simp] theorem State.setPwr_errs (s : State) (p : Nat) (x : Power) : (s.setPwr p x).errs = s.errs := rfl
@[simp] theorem State.setPwr_dumps (s : State) (p : Nat) (x : Power) : (s.setPwr p x).dumps = s.dumps := rfl
@[simp] theorem State.setPwr_captures (s : State) (p : Nat) (x : Power) : (s.setPwr p x).captures = s.captures := rfl
@[simp] theorem State.setPwr_dumpQ (s : State) (p : Nat) (x : Power) : (s.setPwr p x).dumpQ = s.dumpQ := rfl
@[simp] theorem State.setPwr_meAbsent (s : State) (p : Nat) (x : Power) : (s.setPwr p x).meAbsent = s.meAbsent := rfl
@[simp] theorem State.setPwr_pipAbsent (s : State) (p : Nat) (x : Power) : (s.setPwr p x).pipAbsent = s.pipAbsent := rfl
@[simp] theorem State.setPwr_mvOwnPend (s : State) (p : Nat) (x : Power) : (s.setPwr p x).mvOwnPend = s.mvOwnPend := rfl
@[simp] theorem State.setPwr_bezels (s : State) (p : Nat) (x : Power) : (s.setPwr p x).bezels = s.bezels := rfl
@[simp] theorem State.setPwr_windows (s : State) (p : Nat) (x : Power) : (s.setPwr p x).windows = s.windows := rfl
@[simp] theorem State.setPwr_wdog (s : State) (p : Nat) (x : Power) : (s.setPwr p x).wdog = s.wdog := rfl
@[simp] theorem State.setPwr_pins (s : State) (p : Nat) (x : Power) : (s.setPwr p x).pins = s.pins := rfl
@[simp] theorem State.setPwr_free (s : State) (p : Nat) (x : Power) : (s.setPwr p x).free = s.free := rfl
@[simp] theorem State.setPwr_resp (s : State) (p : Nat) (x : Power) : (s.setPwr p x).resp = s.resp := rfl
@[simp] theorem State.setPwr_pending (s : State) (p : Nat) (x : Power) : (s.setPwr p x).pending = s.pending := rfl

/-! ### `State.setRecorder` -/

@[simp] theorem State.setRecorder_gtime (s : State) (p : Nat) (x : Recorder) : (s.setRecorder p x).gtime = s.gtime := rfl
@[simp] theorem State.setRecorder_regs (s : State) (p : Nat) (x : Recorder) : (s.setRecorder p x).regs = s.regs := rfl
@[simp] theorem State.setRecorder_mem (s : State) (p : Nat) (x : Recorder) : (s.setRecorder p x).mem = s.mem := rfl
@[simp] theorem State.setRecorder_cwErr (s : State) (p : Nat) (x : Recorder) : (s.setRecorder p x).cwErr = s.cwErr := rfl
@[simp] theorem State.setRecorder_tsBad (s : State) (p : Nat) (x : Recorder) : (s.setRecorder p x).tsBad = s.tsBad := rfl
@[simp] theorem State.setRecorder_tsLost (s : State) (p : Nat) (x : Recorder) : (s.setRecorder p x).tsLost = s.tsLost := rfl
@[simp] theorem State.setRecorder_ctxs (s : State) (p : Nat) (x : Recorder) : (s.setRecorder p x).ctxs = s.ctxs := rfl
@[simp] theorem State.setRecorder_undo (s : State) (p : Nat) (x : Recorder) : (s.setRecorder p x).undo = s.undo := rfl
@[simp] theorem State.setRecorder_holds (s : State) (p : Nat) (x : Recorder) : (s.setRecorder p x).holds = s.holds := rfl
@[simp] theorem State.setRecorder_jgen (s : State) (p : Nat) (x : Recorder) : (s.setRecorder p x).jgen = s.jgen := rfl
@[simp] theorem State.setRecorder_uelog (s : State) (p : Nat) (x : Recorder) : (s.setRecorder p x).uelog = s.uelog := rfl
@[simp] theorem State.setRecorder_ceSec (s : State) (p : Nat) (x : Recorder) : (s.setRecorder p x).ceSec = s.ceSec := rfl
@[simp] theorem State.setRecorder_retrain (s : State) (p : Nat) (x : Recorder) : (s.setRecorder p x).retrain = s.retrain := rfl
@[simp] theorem State.setRecorder_fills (s : State) (p : Nat) (x : Recorder) : (s.setRecorder p x).fills = s.fills := rfl
@[simp] theorem State.setRecorder_mes (s : State) (p : Nat) (x : Recorder) : (s.setRecorder p x).mes = s.mes := rfl
@[simp] theorem State.setRecorder_movers (s : State) (p : Nat) (x : Recorder) : (s.setRecorder p x).movers = s.movers := rfl
@[simp] theorem State.setRecorder_harts (s : State) (p : Nat) (x : Recorder) : (s.setRecorder p x).harts = s.harts := rfl
@[simp] theorem State.setRecorder_tsScrub (s : State) (p : Nat) (x : Recorder) : (s.setRecorder p x).tsScrub = s.tsScrub := rfl
@[simp] theorem State.setRecorder_pressQ (s : State) (p : Nat) (x : Recorder) : (s.setRecorder p x).pressQ = s.pressQ := rfl
@[simp] theorem State.setRecorder_pressRr (s : State) (p : Nat) (x : Recorder) : (s.setRecorder p x).pressRr = s.pressRr := rfl
@[simp] theorem State.setRecorder_presses (s : State) (p : Nat) (x : Recorder) : (s.setRecorder p x).presses = s.presses := rfl
@[simp] theorem State.setRecorder_links (s : State) (p : Nat) (x : Recorder) : (s.setRecorder p x).links = s.links := rfl
@[simp] theorem State.setRecorder_aborts (s : State) (p : Nat) (x : Recorder) : (s.setRecorder p x).aborts = s.aborts := rfl
@[simp] theorem State.setRecorder_folds (s : State) (p : Nat) (x : Recorder) : (s.setRecorder p x).folds = s.folds := rfl
@[simp] theorem State.setRecorder_colls (s : State) (p : Nat) (x : Recorder) : (s.setRecorder p x).colls = s.colls := rfl
@[simp] theorem State.setRecorder_txns (s : State) (p : Nat) (x : Recorder) : (s.setRecorder p x).txns = s.txns := rfl
@[simp] theorem State.setRecorder_nextTxn (s : State) (p : Nat) (x : Recorder) : (s.setRecorder p x).nextTxn = s.nextTxn := rfl
@[simp] theorem State.setRecorder_recorders (s : State) (p : Nat) (x : Recorder) : (s.setRecorder p x).recorders = kvSet Recorder.init s.recorders p x := rfl
@[simp] theorem State.setRecorder_power (s : State) (p : Nat) (x : Recorder) : (s.setRecorder p x).power = s.power := rfl
@[simp] theorem State.setRecorder_modPower (s : State) (p : Nat) (x : Recorder) : (s.setRecorder p x).modPower = s.modPower := rfl
@[simp] theorem State.setRecorder_mgmt (s : State) (p : Nat) (x : Recorder) : (s.setRecorder p x).mgmt = s.mgmt := rfl
@[simp] theorem State.setRecorder_wear (s : State) (p : Nat) (x : Recorder) : (s.setRecorder p x).wear = s.wear := rfl
@[simp] theorem State.setRecorder_locket (s : State) (p : Nat) (x : Recorder) : (s.setRecorder p x).locket = s.locket := rfl
@[simp] theorem State.setRecorder_evc (s : State) (p : Nat) (x : Recorder) : (s.setRecorder p x).evc = s.evc := rfl
@[simp] theorem State.setRecorder_evcHold (s : State) (p : Nat) (x : Recorder) : (s.setRecorder p x).evcHold = s.evcHold := rfl
@[simp] theorem State.setRecorder_evcSeq (s : State) (p : Nat) (x : Recorder) : (s.setRecorder p x).evcSeq = s.evcSeq := rfl
@[simp] theorem State.setRecorder_domains (s : State) (p : Nat) (x : Recorder) : (s.setRecorder p x).domains = s.domains := rfl
@[simp] theorem State.setRecorder_boot (s : State) (p : Nat) (x : Recorder) : (s.setRecorder p x).boot = s.boot := rfl
@[simp] theorem State.setRecorder_flash (s : State) (p : Nat) (x : Recorder) : (s.setRecorder p x).flash = s.flash := rfl
@[simp] theorem State.setRecorder_errs (s : State) (p : Nat) (x : Recorder) : (s.setRecorder p x).errs = s.errs := rfl
@[simp] theorem State.setRecorder_dumps (s : State) (p : Nat) (x : Recorder) : (s.setRecorder p x).dumps = s.dumps := rfl
@[simp] theorem State.setRecorder_captures (s : State) (p : Nat) (x : Recorder) : (s.setRecorder p x).captures = s.captures := rfl
@[simp] theorem State.setRecorder_dumpQ (s : State) (p : Nat) (x : Recorder) : (s.setRecorder p x).dumpQ = s.dumpQ := rfl
@[simp] theorem State.setRecorder_meAbsent (s : State) (p : Nat) (x : Recorder) : (s.setRecorder p x).meAbsent = s.meAbsent := rfl
@[simp] theorem State.setRecorder_pipAbsent (s : State) (p : Nat) (x : Recorder) : (s.setRecorder p x).pipAbsent = s.pipAbsent := rfl
@[simp] theorem State.setRecorder_mvOwnPend (s : State) (p : Nat) (x : Recorder) : (s.setRecorder p x).mvOwnPend = s.mvOwnPend := rfl
@[simp] theorem State.setRecorder_bezels (s : State) (p : Nat) (x : Recorder) : (s.setRecorder p x).bezels = s.bezels := rfl
@[simp] theorem State.setRecorder_windows (s : State) (p : Nat) (x : Recorder) : (s.setRecorder p x).windows = s.windows := rfl
@[simp] theorem State.setRecorder_wdog (s : State) (p : Nat) (x : Recorder) : (s.setRecorder p x).wdog = s.wdog := rfl
@[simp] theorem State.setRecorder_pins (s : State) (p : Nat) (x : Recorder) : (s.setRecorder p x).pins = s.pins := rfl
@[simp] theorem State.setRecorder_free (s : State) (p : Nat) (x : Recorder) : (s.setRecorder p x).free = s.free := rfl
@[simp] theorem State.setRecorder_resp (s : State) (p : Nat) (x : Recorder) : (s.setRecorder p x).resp = s.resp := rfl
@[simp] theorem State.setRecorder_pending (s : State) (p : Nat) (x : Recorder) : (s.setRecorder p x).pending = s.pending := rfl

/-! ### `State.setDom` -/

@[simp] theorem State.setDom_gtime (s : State) (d : Nat) (x : Domain) : (s.setDom d x).gtime = s.gtime := rfl
@[simp] theorem State.setDom_regs (s : State) (d : Nat) (x : Domain) : (s.setDom d x).regs = s.regs := rfl
@[simp] theorem State.setDom_mem (s : State) (d : Nat) (x : Domain) : (s.setDom d x).mem = s.mem := rfl
@[simp] theorem State.setDom_cwErr (s : State) (d : Nat) (x : Domain) : (s.setDom d x).cwErr = s.cwErr := rfl
@[simp] theorem State.setDom_tsBad (s : State) (d : Nat) (x : Domain) : (s.setDom d x).tsBad = s.tsBad := rfl
@[simp] theorem State.setDom_tsLost (s : State) (d : Nat) (x : Domain) : (s.setDom d x).tsLost = s.tsLost := rfl
@[simp] theorem State.setDom_ctxs (s : State) (d : Nat) (x : Domain) : (s.setDom d x).ctxs = s.ctxs := rfl
@[simp] theorem State.setDom_undo (s : State) (d : Nat) (x : Domain) : (s.setDom d x).undo = s.undo := rfl
@[simp] theorem State.setDom_holds (s : State) (d : Nat) (x : Domain) : (s.setDom d x).holds = s.holds := rfl
@[simp] theorem State.setDom_jgen (s : State) (d : Nat) (x : Domain) : (s.setDom d x).jgen = s.jgen := rfl
@[simp] theorem State.setDom_uelog (s : State) (d : Nat) (x : Domain) : (s.setDom d x).uelog = s.uelog := rfl
@[simp] theorem State.setDom_ceSec (s : State) (d : Nat) (x : Domain) : (s.setDom d x).ceSec = s.ceSec := rfl
@[simp] theorem State.setDom_retrain (s : State) (d : Nat) (x : Domain) : (s.setDom d x).retrain = s.retrain := rfl
@[simp] theorem State.setDom_fills (s : State) (d : Nat) (x : Domain) : (s.setDom d x).fills = s.fills := rfl
@[simp] theorem State.setDom_mes (s : State) (d : Nat) (x : Domain) : (s.setDom d x).mes = s.mes := rfl
@[simp] theorem State.setDom_movers (s : State) (d : Nat) (x : Domain) : (s.setDom d x).movers = s.movers := rfl
@[simp] theorem State.setDom_harts (s : State) (d : Nat) (x : Domain) : (s.setDom d x).harts = s.harts := rfl
@[simp] theorem State.setDom_tsScrub (s : State) (d : Nat) (x : Domain) : (s.setDom d x).tsScrub = s.tsScrub := rfl
@[simp] theorem State.setDom_pressQ (s : State) (d : Nat) (x : Domain) : (s.setDom d x).pressQ = s.pressQ := rfl
@[simp] theorem State.setDom_pressRr (s : State) (d : Nat) (x : Domain) : (s.setDom d x).pressRr = s.pressRr := rfl
@[simp] theorem State.setDom_presses (s : State) (d : Nat) (x : Domain) : (s.setDom d x).presses = s.presses := rfl
@[simp] theorem State.setDom_links (s : State) (d : Nat) (x : Domain) : (s.setDom d x).links = s.links := rfl
@[simp] theorem State.setDom_aborts (s : State) (d : Nat) (x : Domain) : (s.setDom d x).aborts = s.aborts := rfl
@[simp] theorem State.setDom_folds (s : State) (d : Nat) (x : Domain) : (s.setDom d x).folds = s.folds := rfl
@[simp] theorem State.setDom_colls (s : State) (d : Nat) (x : Domain) : (s.setDom d x).colls = s.colls := rfl
@[simp] theorem State.setDom_txns (s : State) (d : Nat) (x : Domain) : (s.setDom d x).txns = s.txns := rfl
@[simp] theorem State.setDom_nextTxn (s : State) (d : Nat) (x : Domain) : (s.setDom d x).nextTxn = s.nextTxn := rfl
@[simp] theorem State.setDom_recorders (s : State) (d : Nat) (x : Domain) : (s.setDom d x).recorders = s.recorders := rfl
@[simp] theorem State.setDom_power (s : State) (d : Nat) (x : Domain) : (s.setDom d x).power = s.power := rfl
@[simp] theorem State.setDom_modPower (s : State) (d : Nat) (x : Domain) : (s.setDom d x).modPower = s.modPower := rfl
@[simp] theorem State.setDom_mgmt (s : State) (d : Nat) (x : Domain) : (s.setDom d x).mgmt = s.mgmt := rfl
@[simp] theorem State.setDom_wear (s : State) (d : Nat) (x : Domain) : (s.setDom d x).wear = s.wear := rfl
@[simp] theorem State.setDom_locket (s : State) (d : Nat) (x : Domain) : (s.setDom d x).locket = s.locket := rfl
@[simp] theorem State.setDom_evc (s : State) (d : Nat) (x : Domain) : (s.setDom d x).evc = s.evc := rfl
@[simp] theorem State.setDom_evcHold (s : State) (d : Nat) (x : Domain) : (s.setDom d x).evcHold = s.evcHold := rfl
@[simp] theorem State.setDom_evcSeq (s : State) (d : Nat) (x : Domain) : (s.setDom d x).evcSeq = s.evcSeq := rfl
@[simp] theorem State.setDom_domains (s : State) (d : Nat) (x : Domain) : (s.setDom d x).domains = s.domains := rfl
@[simp] theorem State.setDom_boot (s : State) (d : Nat) (x : Domain) : (s.setDom d x).boot = s.boot := rfl
@[simp] theorem State.setDom_flash (s : State) (d : Nat) (x : Domain) : (s.setDom d x).flash = s.flash := rfl
@[simp] theorem State.setDom_errs (s : State) (d : Nat) (x : Domain) : (s.setDom d x).errs = kvSet Domain.init s.errs d x := rfl
@[simp] theorem State.setDom_dumps (s : State) (d : Nat) (x : Domain) : (s.setDom d x).dumps = s.dumps := rfl
@[simp] theorem State.setDom_captures (s : State) (d : Nat) (x : Domain) : (s.setDom d x).captures = s.captures := rfl
@[simp] theorem State.setDom_dumpQ (s : State) (d : Nat) (x : Domain) : (s.setDom d x).dumpQ = s.dumpQ := rfl
@[simp] theorem State.setDom_meAbsent (s : State) (d : Nat) (x : Domain) : (s.setDom d x).meAbsent = s.meAbsent := rfl
@[simp] theorem State.setDom_pipAbsent (s : State) (d : Nat) (x : Domain) : (s.setDom d x).pipAbsent = s.pipAbsent := rfl
@[simp] theorem State.setDom_mvOwnPend (s : State) (d : Nat) (x : Domain) : (s.setDom d x).mvOwnPend = s.mvOwnPend := rfl
@[simp] theorem State.setDom_bezels (s : State) (d : Nat) (x : Domain) : (s.setDom d x).bezels = s.bezels := rfl
@[simp] theorem State.setDom_windows (s : State) (d : Nat) (x : Domain) : (s.setDom d x).windows = s.windows := rfl
@[simp] theorem State.setDom_wdog (s : State) (d : Nat) (x : Domain) : (s.setDom d x).wdog = s.wdog := rfl
@[simp] theorem State.setDom_pins (s : State) (d : Nat) (x : Domain) : (s.setDom d x).pins = s.pins := rfl
@[simp] theorem State.setDom_free (s : State) (d : Nat) (x : Domain) : (s.setDom d x).free = s.free := rfl
@[simp] theorem State.setDom_resp (s : State) (d : Nat) (x : Domain) : (s.setDom d x).resp = s.resp := rfl
@[simp] theorem State.setDom_pending (s : State) (d : Nat) (x : Domain) : (s.setDom d x).pending = s.pending := rfl

/-! ### `State.setBezel` -/

@[simp] theorem State.setBezel_gtime (s : State) (p : Nat) (x : Bezel) : (s.setBezel p x).gtime = s.gtime := rfl
@[simp] theorem State.setBezel_regs (s : State) (p : Nat) (x : Bezel) : (s.setBezel p x).regs = s.regs := rfl
@[simp] theorem State.setBezel_mem (s : State) (p : Nat) (x : Bezel) : (s.setBezel p x).mem = s.mem := rfl
@[simp] theorem State.setBezel_cwErr (s : State) (p : Nat) (x : Bezel) : (s.setBezel p x).cwErr = s.cwErr := rfl
@[simp] theorem State.setBezel_tsBad (s : State) (p : Nat) (x : Bezel) : (s.setBezel p x).tsBad = s.tsBad := rfl
@[simp] theorem State.setBezel_tsLost (s : State) (p : Nat) (x : Bezel) : (s.setBezel p x).tsLost = s.tsLost := rfl
@[simp] theorem State.setBezel_ctxs (s : State) (p : Nat) (x : Bezel) : (s.setBezel p x).ctxs = s.ctxs := rfl
@[simp] theorem State.setBezel_undo (s : State) (p : Nat) (x : Bezel) : (s.setBezel p x).undo = s.undo := rfl
@[simp] theorem State.setBezel_holds (s : State) (p : Nat) (x : Bezel) : (s.setBezel p x).holds = s.holds := rfl
@[simp] theorem State.setBezel_jgen (s : State) (p : Nat) (x : Bezel) : (s.setBezel p x).jgen = s.jgen := rfl
@[simp] theorem State.setBezel_uelog (s : State) (p : Nat) (x : Bezel) : (s.setBezel p x).uelog = s.uelog := rfl
@[simp] theorem State.setBezel_ceSec (s : State) (p : Nat) (x : Bezel) : (s.setBezel p x).ceSec = s.ceSec := rfl
@[simp] theorem State.setBezel_retrain (s : State) (p : Nat) (x : Bezel) : (s.setBezel p x).retrain = s.retrain := rfl
@[simp] theorem State.setBezel_fills (s : State) (p : Nat) (x : Bezel) : (s.setBezel p x).fills = s.fills := rfl
@[simp] theorem State.setBezel_mes (s : State) (p : Nat) (x : Bezel) : (s.setBezel p x).mes = s.mes := rfl
@[simp] theorem State.setBezel_movers (s : State) (p : Nat) (x : Bezel) : (s.setBezel p x).movers = s.movers := rfl
@[simp] theorem State.setBezel_harts (s : State) (p : Nat) (x : Bezel) : (s.setBezel p x).harts = s.harts := rfl
@[simp] theorem State.setBezel_tsScrub (s : State) (p : Nat) (x : Bezel) : (s.setBezel p x).tsScrub = s.tsScrub := rfl
@[simp] theorem State.setBezel_pressQ (s : State) (p : Nat) (x : Bezel) : (s.setBezel p x).pressQ = s.pressQ := rfl
@[simp] theorem State.setBezel_pressRr (s : State) (p : Nat) (x : Bezel) : (s.setBezel p x).pressRr = s.pressRr := rfl
@[simp] theorem State.setBezel_presses (s : State) (p : Nat) (x : Bezel) : (s.setBezel p x).presses = s.presses := rfl
@[simp] theorem State.setBezel_links (s : State) (p : Nat) (x : Bezel) : (s.setBezel p x).links = s.links := rfl
@[simp] theorem State.setBezel_aborts (s : State) (p : Nat) (x : Bezel) : (s.setBezel p x).aborts = s.aborts := rfl
@[simp] theorem State.setBezel_folds (s : State) (p : Nat) (x : Bezel) : (s.setBezel p x).folds = s.folds := rfl
@[simp] theorem State.setBezel_colls (s : State) (p : Nat) (x : Bezel) : (s.setBezel p x).colls = s.colls := rfl
@[simp] theorem State.setBezel_txns (s : State) (p : Nat) (x : Bezel) : (s.setBezel p x).txns = s.txns := rfl
@[simp] theorem State.setBezel_nextTxn (s : State) (p : Nat) (x : Bezel) : (s.setBezel p x).nextTxn = s.nextTxn := rfl
@[simp] theorem State.setBezel_recorders (s : State) (p : Nat) (x : Bezel) : (s.setBezel p x).recorders = s.recorders := rfl
@[simp] theorem State.setBezel_power (s : State) (p : Nat) (x : Bezel) : (s.setBezel p x).power = s.power := rfl
@[simp] theorem State.setBezel_modPower (s : State) (p : Nat) (x : Bezel) : (s.setBezel p x).modPower = s.modPower := rfl
@[simp] theorem State.setBezel_mgmt (s : State) (p : Nat) (x : Bezel) : (s.setBezel p x).mgmt = s.mgmt := rfl
@[simp] theorem State.setBezel_wear (s : State) (p : Nat) (x : Bezel) : (s.setBezel p x).wear = s.wear := rfl
@[simp] theorem State.setBezel_locket (s : State) (p : Nat) (x : Bezel) : (s.setBezel p x).locket = s.locket := rfl
@[simp] theorem State.setBezel_evc (s : State) (p : Nat) (x : Bezel) : (s.setBezel p x).evc = s.evc := rfl
@[simp] theorem State.setBezel_evcHold (s : State) (p : Nat) (x : Bezel) : (s.setBezel p x).evcHold = s.evcHold := rfl
@[simp] theorem State.setBezel_evcSeq (s : State) (p : Nat) (x : Bezel) : (s.setBezel p x).evcSeq = s.evcSeq := rfl
@[simp] theorem State.setBezel_domains (s : State) (p : Nat) (x : Bezel) : (s.setBezel p x).domains = s.domains := rfl
@[simp] theorem State.setBezel_boot (s : State) (p : Nat) (x : Bezel) : (s.setBezel p x).boot = s.boot := rfl
@[simp] theorem State.setBezel_flash (s : State) (p : Nat) (x : Bezel) : (s.setBezel p x).flash = s.flash := rfl
@[simp] theorem State.setBezel_errs (s : State) (p : Nat) (x : Bezel) : (s.setBezel p x).errs = s.errs := rfl
@[simp] theorem State.setBezel_dumps (s : State) (p : Nat) (x : Bezel) : (s.setBezel p x).dumps = s.dumps := rfl
@[simp] theorem State.setBezel_captures (s : State) (p : Nat) (x : Bezel) : (s.setBezel p x).captures = s.captures := rfl
@[simp] theorem State.setBezel_dumpQ (s : State) (p : Nat) (x : Bezel) : (s.setBezel p x).dumpQ = s.dumpQ := rfl
@[simp] theorem State.setBezel_meAbsent (s : State) (p : Nat) (x : Bezel) : (s.setBezel p x).meAbsent = s.meAbsent := rfl
@[simp] theorem State.setBezel_pipAbsent (s : State) (p : Nat) (x : Bezel) : (s.setBezel p x).pipAbsent = s.pipAbsent := rfl
@[simp] theorem State.setBezel_mvOwnPend (s : State) (p : Nat) (x : Bezel) : (s.setBezel p x).mvOwnPend = s.mvOwnPend := rfl
@[simp] theorem State.setBezel_bezels (s : State) (p : Nat) (x : Bezel) : (s.setBezel p x).bezels = kvSet ⟨false, false⟩ s.bezels p x := rfl
@[simp] theorem State.setBezel_windows (s : State) (p : Nat) (x : Bezel) : (s.setBezel p x).windows = s.windows := rfl
@[simp] theorem State.setBezel_wdog (s : State) (p : Nat) (x : Bezel) : (s.setBezel p x).wdog = s.wdog := rfl
@[simp] theorem State.setBezel_pins (s : State) (p : Nat) (x : Bezel) : (s.setBezel p x).pins = s.pins := rfl
@[simp] theorem State.setBezel_free (s : State) (p : Nat) (x : Bezel) : (s.setBezel p x).free = s.free := rfl
@[simp] theorem State.setBezel_resp (s : State) (p : Nat) (x : Bezel) : (s.setBezel p x).resp = s.resp := rfl
@[simp] theorem State.setBezel_pending (s : State) (p : Nat) (x : Bezel) : (s.setBezel p x).pending = s.pending := rfl

/-! ### `State.setEvSrc` -/

@[simp] theorem State.setEvSrc_gtime (s : State) (n : Nat) (x : EvcSrc) : (s.setEvSrc n x).gtime = s.gtime := rfl
@[simp] theorem State.setEvSrc_regs (s : State) (n : Nat) (x : EvcSrc) : (s.setEvSrc n x).regs = s.regs := rfl
@[simp] theorem State.setEvSrc_mem (s : State) (n : Nat) (x : EvcSrc) : (s.setEvSrc n x).mem = s.mem := rfl
@[simp] theorem State.setEvSrc_cwErr (s : State) (n : Nat) (x : EvcSrc) : (s.setEvSrc n x).cwErr = s.cwErr := rfl
@[simp] theorem State.setEvSrc_tsBad (s : State) (n : Nat) (x : EvcSrc) : (s.setEvSrc n x).tsBad = s.tsBad := rfl
@[simp] theorem State.setEvSrc_tsLost (s : State) (n : Nat) (x : EvcSrc) : (s.setEvSrc n x).tsLost = s.tsLost := rfl
@[simp] theorem State.setEvSrc_ctxs (s : State) (n : Nat) (x : EvcSrc) : (s.setEvSrc n x).ctxs = s.ctxs := rfl
@[simp] theorem State.setEvSrc_undo (s : State) (n : Nat) (x : EvcSrc) : (s.setEvSrc n x).undo = s.undo := rfl
@[simp] theorem State.setEvSrc_holds (s : State) (n : Nat) (x : EvcSrc) : (s.setEvSrc n x).holds = s.holds := rfl
@[simp] theorem State.setEvSrc_jgen (s : State) (n : Nat) (x : EvcSrc) : (s.setEvSrc n x).jgen = s.jgen := rfl
@[simp] theorem State.setEvSrc_uelog (s : State) (n : Nat) (x : EvcSrc) : (s.setEvSrc n x).uelog = s.uelog := rfl
@[simp] theorem State.setEvSrc_ceSec (s : State) (n : Nat) (x : EvcSrc) : (s.setEvSrc n x).ceSec = s.ceSec := rfl
@[simp] theorem State.setEvSrc_retrain (s : State) (n : Nat) (x : EvcSrc) : (s.setEvSrc n x).retrain = s.retrain := rfl
@[simp] theorem State.setEvSrc_fills (s : State) (n : Nat) (x : EvcSrc) : (s.setEvSrc n x).fills = s.fills := rfl
@[simp] theorem State.setEvSrc_mes (s : State) (n : Nat) (x : EvcSrc) : (s.setEvSrc n x).mes = s.mes := rfl
@[simp] theorem State.setEvSrc_movers (s : State) (n : Nat) (x : EvcSrc) : (s.setEvSrc n x).movers = s.movers := rfl
@[simp] theorem State.setEvSrc_harts (s : State) (n : Nat) (x : EvcSrc) : (s.setEvSrc n x).harts = s.harts := rfl
@[simp] theorem State.setEvSrc_tsScrub (s : State) (n : Nat) (x : EvcSrc) : (s.setEvSrc n x).tsScrub = s.tsScrub := rfl
@[simp] theorem State.setEvSrc_pressQ (s : State) (n : Nat) (x : EvcSrc) : (s.setEvSrc n x).pressQ = s.pressQ := rfl
@[simp] theorem State.setEvSrc_pressRr (s : State) (n : Nat) (x : EvcSrc) : (s.setEvSrc n x).pressRr = s.pressRr := rfl
@[simp] theorem State.setEvSrc_presses (s : State) (n : Nat) (x : EvcSrc) : (s.setEvSrc n x).presses = s.presses := rfl
@[simp] theorem State.setEvSrc_links (s : State) (n : Nat) (x : EvcSrc) : (s.setEvSrc n x).links = s.links := rfl
@[simp] theorem State.setEvSrc_aborts (s : State) (n : Nat) (x : EvcSrc) : (s.setEvSrc n x).aborts = s.aborts := rfl
@[simp] theorem State.setEvSrc_folds (s : State) (n : Nat) (x : EvcSrc) : (s.setEvSrc n x).folds = s.folds := rfl
@[simp] theorem State.setEvSrc_colls (s : State) (n : Nat) (x : EvcSrc) : (s.setEvSrc n x).colls = s.colls := rfl
@[simp] theorem State.setEvSrc_txns (s : State) (n : Nat) (x : EvcSrc) : (s.setEvSrc n x).txns = s.txns := rfl
@[simp] theorem State.setEvSrc_nextTxn (s : State) (n : Nat) (x : EvcSrc) : (s.setEvSrc n x).nextTxn = s.nextTxn := rfl
@[simp] theorem State.setEvSrc_recorders (s : State) (n : Nat) (x : EvcSrc) : (s.setEvSrc n x).recorders = s.recorders := rfl
@[simp] theorem State.setEvSrc_power (s : State) (n : Nat) (x : EvcSrc) : (s.setEvSrc n x).power = s.power := rfl
@[simp] theorem State.setEvSrc_modPower (s : State) (n : Nat) (x : EvcSrc) : (s.setEvSrc n x).modPower = s.modPower := rfl
@[simp] theorem State.setEvSrc_mgmt (s : State) (n : Nat) (x : EvcSrc) : (s.setEvSrc n x).mgmt = s.mgmt := rfl
@[simp] theorem State.setEvSrc_wear (s : State) (n : Nat) (x : EvcSrc) : (s.setEvSrc n x).wear = s.wear := rfl
@[simp] theorem State.setEvSrc_locket (s : State) (n : Nat) (x : EvcSrc) : (s.setEvSrc n x).locket = s.locket := rfl
@[simp] theorem State.setEvSrc_evc (s : State) (n : Nat) (x : EvcSrc) : (s.setEvSrc n x).evc = kvSet EvcSrc.init s.evc n x := rfl
@[simp] theorem State.setEvSrc_evcHold (s : State) (n : Nat) (x : EvcSrc) : (s.setEvSrc n x).evcHold = s.evcHold := rfl
@[simp] theorem State.setEvSrc_evcSeq (s : State) (n : Nat) (x : EvcSrc) : (s.setEvSrc n x).evcSeq = s.evcSeq := rfl
@[simp] theorem State.setEvSrc_domains (s : State) (n : Nat) (x : EvcSrc) : (s.setEvSrc n x).domains = s.domains := rfl
@[simp] theorem State.setEvSrc_boot (s : State) (n : Nat) (x : EvcSrc) : (s.setEvSrc n x).boot = s.boot := rfl
@[simp] theorem State.setEvSrc_flash (s : State) (n : Nat) (x : EvcSrc) : (s.setEvSrc n x).flash = s.flash := rfl
@[simp] theorem State.setEvSrc_errs (s : State) (n : Nat) (x : EvcSrc) : (s.setEvSrc n x).errs = s.errs := rfl
@[simp] theorem State.setEvSrc_dumps (s : State) (n : Nat) (x : EvcSrc) : (s.setEvSrc n x).dumps = s.dumps := rfl
@[simp] theorem State.setEvSrc_captures (s : State) (n : Nat) (x : EvcSrc) : (s.setEvSrc n x).captures = s.captures := rfl
@[simp] theorem State.setEvSrc_dumpQ (s : State) (n : Nat) (x : EvcSrc) : (s.setEvSrc n x).dumpQ = s.dumpQ := rfl
@[simp] theorem State.setEvSrc_meAbsent (s : State) (n : Nat) (x : EvcSrc) : (s.setEvSrc n x).meAbsent = s.meAbsent := rfl
@[simp] theorem State.setEvSrc_pipAbsent (s : State) (n : Nat) (x : EvcSrc) : (s.setEvSrc n x).pipAbsent = s.pipAbsent := rfl
@[simp] theorem State.setEvSrc_mvOwnPend (s : State) (n : Nat) (x : EvcSrc) : (s.setEvSrc n x).mvOwnPend = s.mvOwnPend := rfl
@[simp] theorem State.setEvSrc_bezels (s : State) (n : Nat) (x : EvcSrc) : (s.setEvSrc n x).bezels = s.bezels := rfl
@[simp] theorem State.setEvSrc_windows (s : State) (n : Nat) (x : EvcSrc) : (s.setEvSrc n x).windows = s.windows := rfl
@[simp] theorem State.setEvSrc_wdog (s : State) (n : Nat) (x : EvcSrc) : (s.setEvSrc n x).wdog = s.wdog := rfl
@[simp] theorem State.setEvSrc_pins (s : State) (n : Nat) (x : EvcSrc) : (s.setEvSrc n x).pins = s.pins := rfl
@[simp] theorem State.setEvSrc_free (s : State) (n : Nat) (x : EvcSrc) : (s.setEvSrc n x).free = s.free := rfl
@[simp] theorem State.setEvSrc_resp (s : State) (n : Nat) (x : EvcSrc) : (s.setEvSrc n x).resp = s.resp := rfl
@[simp] theorem State.setEvSrc_pending (s : State) (n : Nat) (x : EvcSrc) : (s.setEvSrc n x).pending = s.pending := rfl

/-! ### `State.answer` -/

@[simp] theorem State.answer_gtime (s : State) (r : Resp) : (s.answer r).gtime = s.gtime := rfl
@[simp] theorem State.answer_regs (s : State) (r : Resp) : (s.answer r).regs = s.regs := rfl
@[simp] theorem State.answer_mem (s : State) (r : Resp) : (s.answer r).mem = s.mem := rfl
@[simp] theorem State.answer_cwErr (s : State) (r : Resp) : (s.answer r).cwErr = s.cwErr := rfl
@[simp] theorem State.answer_tsBad (s : State) (r : Resp) : (s.answer r).tsBad = s.tsBad := rfl
@[simp] theorem State.answer_tsLost (s : State) (r : Resp) : (s.answer r).tsLost = s.tsLost := rfl
@[simp] theorem State.answer_ctxs (s : State) (r : Resp) : (s.answer r).ctxs = s.ctxs := rfl
@[simp] theorem State.answer_undo (s : State) (r : Resp) : (s.answer r).undo = s.undo := rfl
@[simp] theorem State.answer_holds (s : State) (r : Resp) : (s.answer r).holds = s.holds := rfl
@[simp] theorem State.answer_jgen (s : State) (r : Resp) : (s.answer r).jgen = s.jgen := rfl
@[simp] theorem State.answer_uelog (s : State) (r : Resp) : (s.answer r).uelog = s.uelog := rfl
@[simp] theorem State.answer_ceSec (s : State) (r : Resp) : (s.answer r).ceSec = s.ceSec := rfl
@[simp] theorem State.answer_retrain (s : State) (r : Resp) : (s.answer r).retrain = s.retrain := rfl
@[simp] theorem State.answer_fills (s : State) (r : Resp) : (s.answer r).fills = s.fills := rfl
@[simp] theorem State.answer_mes (s : State) (r : Resp) : (s.answer r).mes = s.mes := rfl
@[simp] theorem State.answer_movers (s : State) (r : Resp) : (s.answer r).movers = s.movers := rfl
@[simp] theorem State.answer_harts (s : State) (r : Resp) : (s.answer r).harts = s.harts := rfl
@[simp] theorem State.answer_tsScrub (s : State) (r : Resp) : (s.answer r).tsScrub = s.tsScrub := rfl
@[simp] theorem State.answer_pressQ (s : State) (r : Resp) : (s.answer r).pressQ = s.pressQ := rfl
@[simp] theorem State.answer_pressRr (s : State) (r : Resp) : (s.answer r).pressRr = s.pressRr := rfl
@[simp] theorem State.answer_presses (s : State) (r : Resp) : (s.answer r).presses = s.presses := rfl
@[simp] theorem State.answer_links (s : State) (r : Resp) : (s.answer r).links = s.links := rfl
@[simp] theorem State.answer_aborts (s : State) (r : Resp) : (s.answer r).aborts = s.aborts := rfl
@[simp] theorem State.answer_folds (s : State) (r : Resp) : (s.answer r).folds = s.folds := rfl
@[simp] theorem State.answer_colls (s : State) (r : Resp) : (s.answer r).colls = s.colls := rfl
@[simp] theorem State.answer_txns (s : State) (r : Resp) : (s.answer r).txns = s.txns := rfl
@[simp] theorem State.answer_nextTxn (s : State) (r : Resp) : (s.answer r).nextTxn = s.nextTxn := rfl
@[simp] theorem State.answer_recorders (s : State) (r : Resp) : (s.answer r).recorders = s.recorders := rfl
@[simp] theorem State.answer_power (s : State) (r : Resp) : (s.answer r).power = s.power := rfl
@[simp] theorem State.answer_modPower (s : State) (r : Resp) : (s.answer r).modPower = s.modPower := rfl
@[simp] theorem State.answer_mgmt (s : State) (r : Resp) : (s.answer r).mgmt = s.mgmt := rfl
@[simp] theorem State.answer_wear (s : State) (r : Resp) : (s.answer r).wear = s.wear := rfl
@[simp] theorem State.answer_locket (s : State) (r : Resp) : (s.answer r).locket = s.locket := rfl
@[simp] theorem State.answer_evc (s : State) (r : Resp) : (s.answer r).evc = s.evc := rfl
@[simp] theorem State.answer_evcHold (s : State) (r : Resp) : (s.answer r).evcHold = s.evcHold := rfl
@[simp] theorem State.answer_evcSeq (s : State) (r : Resp) : (s.answer r).evcSeq = s.evcSeq := rfl
@[simp] theorem State.answer_domains (s : State) (r : Resp) : (s.answer r).domains = s.domains := rfl
@[simp] theorem State.answer_boot (s : State) (r : Resp) : (s.answer r).boot = s.boot := rfl
@[simp] theorem State.answer_flash (s : State) (r : Resp) : (s.answer r).flash = s.flash := rfl
@[simp] theorem State.answer_errs (s : State) (r : Resp) : (s.answer r).errs = s.errs := rfl
@[simp] theorem State.answer_dumps (s : State) (r : Resp) : (s.answer r).dumps = s.dumps := rfl
@[simp] theorem State.answer_captures (s : State) (r : Resp) : (s.answer r).captures = s.captures := rfl
@[simp] theorem State.answer_dumpQ (s : State) (r : Resp) : (s.answer r).dumpQ = s.dumpQ := rfl
@[simp] theorem State.answer_meAbsent (s : State) (r : Resp) : (s.answer r).meAbsent = s.meAbsent := rfl
@[simp] theorem State.answer_pipAbsent (s : State) (r : Resp) : (s.answer r).pipAbsent = s.pipAbsent := rfl
@[simp] theorem State.answer_mvOwnPend (s : State) (r : Resp) : (s.answer r).mvOwnPend = s.mvOwnPend := rfl
@[simp] theorem State.answer_bezels (s : State) (r : Resp) : (s.answer r).bezels = s.bezels := rfl
@[simp] theorem State.answer_windows (s : State) (r : Resp) : (s.answer r).windows = s.windows := rfl
@[simp] theorem State.answer_wdog (s : State) (r : Resp) : (s.answer r).wdog = s.wdog := rfl
@[simp] theorem State.answer_pins (s : State) (r : Resp) : (s.answer r).pins = s.pins := rfl
@[simp] theorem State.answer_free (s : State) (r : Resp) : (s.answer r).free = s.free := rfl
@[simp] theorem State.answer_resp (s : State) (r : Resp) : (s.answer r).resp = r := rfl
@[simp] theorem State.answer_pending (s : State) (r : Resp) : (s.answer r).pending = s.pending := rfl

/-! ### `State.hold` -/

@[simp] theorem State.hold_gtime (s : State) (h : HeldOut) : (s.hold h).gtime = s.gtime := rfl
@[simp] theorem State.hold_regs (s : State) (h : HeldOut) : (s.hold h).regs = s.regs := rfl
@[simp] theorem State.hold_mem (s : State) (h : HeldOut) : (s.hold h).mem = s.mem := rfl
@[simp] theorem State.hold_cwErr (s : State) (h : HeldOut) : (s.hold h).cwErr = s.cwErr := rfl
@[simp] theorem State.hold_tsBad (s : State) (h : HeldOut) : (s.hold h).tsBad = s.tsBad := rfl
@[simp] theorem State.hold_tsLost (s : State) (h : HeldOut) : (s.hold h).tsLost = s.tsLost := rfl
@[simp] theorem State.hold_ctxs (s : State) (h : HeldOut) : (s.hold h).ctxs = s.ctxs := rfl
@[simp] theorem State.hold_undo (s : State) (h : HeldOut) : (s.hold h).undo = s.undo := rfl
@[simp] theorem State.hold_holds (s : State) (h : HeldOut) : (s.hold h).holds = s.holds := rfl
@[simp] theorem State.hold_jgen (s : State) (h : HeldOut) : (s.hold h).jgen = s.jgen := rfl
@[simp] theorem State.hold_uelog (s : State) (h : HeldOut) : (s.hold h).uelog = s.uelog := rfl
@[simp] theorem State.hold_ceSec (s : State) (h : HeldOut) : (s.hold h).ceSec = s.ceSec := rfl
@[simp] theorem State.hold_retrain (s : State) (h : HeldOut) : (s.hold h).retrain = s.retrain := rfl
@[simp] theorem State.hold_fills (s : State) (h : HeldOut) : (s.hold h).fills = s.fills := rfl
@[simp] theorem State.hold_mes (s : State) (h : HeldOut) : (s.hold h).mes = s.mes := rfl
@[simp] theorem State.hold_movers (s : State) (h : HeldOut) : (s.hold h).movers = s.movers := rfl
@[simp] theorem State.hold_harts (s : State) (h : HeldOut) : (s.hold h).harts = s.harts := rfl
@[simp] theorem State.hold_tsScrub (s : State) (h : HeldOut) : (s.hold h).tsScrub = s.tsScrub := rfl
@[simp] theorem State.hold_pressQ (s : State) (h : HeldOut) : (s.hold h).pressQ = s.pressQ := rfl
@[simp] theorem State.hold_pressRr (s : State) (h : HeldOut) : (s.hold h).pressRr = s.pressRr := rfl
@[simp] theorem State.hold_presses (s : State) (h : HeldOut) : (s.hold h).presses = s.presses := rfl
@[simp] theorem State.hold_links (s : State) (h : HeldOut) : (s.hold h).links = s.links := rfl
@[simp] theorem State.hold_aborts (s : State) (h : HeldOut) : (s.hold h).aborts = s.aborts := rfl
@[simp] theorem State.hold_folds (s : State) (h : HeldOut) : (s.hold h).folds = s.folds := rfl
@[simp] theorem State.hold_colls (s : State) (h : HeldOut) : (s.hold h).colls = s.colls := rfl
@[simp] theorem State.hold_txns (s : State) (h : HeldOut) : (s.hold h).txns = s.txns := rfl
@[simp] theorem State.hold_nextTxn (s : State) (h : HeldOut) : (s.hold h).nextTxn = s.nextTxn := rfl
@[simp] theorem State.hold_recorders (s : State) (h : HeldOut) : (s.hold h).recorders = s.recorders := rfl
@[simp] theorem State.hold_power (s : State) (h : HeldOut) : (s.hold h).power = s.power := rfl
@[simp] theorem State.hold_modPower (s : State) (h : HeldOut) : (s.hold h).modPower = s.modPower := rfl
@[simp] theorem State.hold_mgmt (s : State) (h : HeldOut) : (s.hold h).mgmt = { s.mgmt with held := s.mgmt.held ++ [h] } := rfl
@[simp] theorem State.hold_wear (s : State) (h : HeldOut) : (s.hold h).wear = s.wear := rfl
@[simp] theorem State.hold_locket (s : State) (h : HeldOut) : (s.hold h).locket = s.locket := rfl
@[simp] theorem State.hold_evc (s : State) (h : HeldOut) : (s.hold h).evc = s.evc := rfl
@[simp] theorem State.hold_evcHold (s : State) (h : HeldOut) : (s.hold h).evcHold = s.evcHold := rfl
@[simp] theorem State.hold_evcSeq (s : State) (h : HeldOut) : (s.hold h).evcSeq = s.evcSeq := rfl
@[simp] theorem State.hold_domains (s : State) (h : HeldOut) : (s.hold h).domains = s.domains := rfl
@[simp] theorem State.hold_boot (s : State) (h : HeldOut) : (s.hold h).boot = s.boot := rfl
@[simp] theorem State.hold_flash (s : State) (h : HeldOut) : (s.hold h).flash = s.flash := rfl
@[simp] theorem State.hold_errs (s : State) (h : HeldOut) : (s.hold h).errs = s.errs := rfl
@[simp] theorem State.hold_dumps (s : State) (h : HeldOut) : (s.hold h).dumps = s.dumps := rfl
@[simp] theorem State.hold_captures (s : State) (h : HeldOut) : (s.hold h).captures = s.captures := rfl
@[simp] theorem State.hold_dumpQ (s : State) (h : HeldOut) : (s.hold h).dumpQ = s.dumpQ := rfl
@[simp] theorem State.hold_meAbsent (s : State) (h : HeldOut) : (s.hold h).meAbsent = s.meAbsent := rfl
@[simp] theorem State.hold_pipAbsent (s : State) (h : HeldOut) : (s.hold h).pipAbsent = s.pipAbsent := rfl
@[simp] theorem State.hold_mvOwnPend (s : State) (h : HeldOut) : (s.hold h).mvOwnPend = s.mvOwnPend := rfl
@[simp] theorem State.hold_bezels (s : State) (h : HeldOut) : (s.hold h).bezels = s.bezels := rfl
@[simp] theorem State.hold_windows (s : State) (h : HeldOut) : (s.hold h).windows = s.windows := rfl
@[simp] theorem State.hold_wdog (s : State) (h : HeldOut) : (s.hold h).wdog = s.wdog := rfl
@[simp] theorem State.hold_pins (s : State) (h : HeldOut) : (s.hold h).pins = s.pins := rfl
@[simp] theorem State.hold_free (s : State) (h : HeldOut) : (s.hold h).free = s.free := rfl
@[simp] theorem State.hold_resp (s : State) (h : HeldOut) : (s.hold h).resp = s.resp := rfl
@[simp] theorem State.hold_pending (s : State) (h : HeldOut) : (s.hold h).pending = s.pending := rfl

end Sys2Proof.Machine
end

