-- ==== Sys2Proof/WellFormed.lean ====
section
/-!
DEFINITION. Well-formed commands: every operand in the range that its row's rules give it. The machine does not lean on it: a command
outside these ranges changes nothing (log entry 5).
-/

namespace Sys2Proof

/-- A number below a bound. -/
def below (n x : Nat) : Bool := decide (x < n)

/-- A number within a range, both ends included. -/
def within (lo hi x : Nat) : Bool := decide (lo ≤ x) && decide (x ≤ hi)

/-- A value of GTIME (R58). -/
def timeOk (now : Nat) : Bool := decide (now < two64)

/-- A CSEQ (R223). -/
def cseqOk (c : Nat) : Bool := decide (c < two32)

/-- A context number: 0 to 799, or 800 for the management context (R207). -/
def ctxOk (c : Nat) : Bool := decide (c < 801)

/-- A device physical address (R31). -/
def addrOk (a : Nat) : Bool := decide (a < 0x40000000000)

/-- A writer that exists (R37). -/
def Writer.wf : Writer → Bool
  | .host => true
  | .steward p => decide (p < 12)
  | .hasia d => decide (d < 2)
  | .tray => true
  | .context c => ctxOk c

/-- A bead of 72 bytes (R312). -/
def Bead.wf (b : Bead) : Bool := decide (b.pay.length = 64)

/-- A message of a head and at most 64 data beads (R314, R315). -/
def Msg.wf (m : Msg) : Bool := m.head.wf && decide (m.data.length ≤ 4096)

/-- An upset of a stored byte, or of an address symbol, of a codeword (R151, R154). -/
def upsetOk (u : Nat × Nat) : Bool := decide (u.1 < 77) && decide (u.2 < 256)

/-- A count for each of the six format classes (R401). -/
def Activity.wf (x : Activity) : Bool := decide (x.steps.length = 6)

/-- A sample of each of the 24 channels (R398). -/
def Telemetry.wf (x : Telemetry) : Bool := decide (x.rails.length = 24) && decide (x.inletC < 256)

/-- A record whose parts fit the layout of R588. -/
def ErrRec.wf (r : ErrRec) : Bool :=
  decide (r.code < 256) && decide (r.level ≤ 4) && decide (r.die < 256) && decide (r.unit < 256) && decide (r.ctx < 1024) &&
    cseqOk r.cseq && addrOk r.addr

/-- Whether a command's operands all lie in their ranges. -/
def Instr.wf : Instr → Bool
  | .intakeStore now ctx off data => timeOk now && below 800 ctx && below 65536 off && within 1 64 data.length
  | .intakeAbandon now ctx => timeOk now && ctxOk ctx
  | .packetCheck ctx => ctxOk ctx
  | .csbRead ctx off len => below 800 ctx && below 65536 off && within 1 64 len
  | .commandStart now ctx => timeOk now && ctxOk ctx
  | .commandRetire now ctx => timeOk now && ctxOk ctx
  | .waitLimitExpire now ctx => timeOk now && ctxOk ctx
  | .move ctx cseq => ctxOk ctx && cseqOk cseq
  | .fill ctx cseq => ctxOk ctx && cseqOk cseq
  | .gather ctx cseq => ctxOk ctx && cseqOk cseq
  | .scatter ctx cseq => ctxOk ctx && cseqOk cseq
  | .matmul ctx cseq => ctxOk ctx && cseqOk cseq
  | .matmulAcc ctx cseq => ctxOk ctx && cseqOk cseq
  | .convert ctx cseq => ctxOk ctx && cseqOk cseq
  | .run ctx cseq => ctxOk ctx && cseqOk cseq
  | .runWait ctx cseq => ctxOk ctx && cseqOk cseq
  | .attnPages ctx cseq => ctxOk ctx && cseqOk cseq
  | .kvAppend ctx cseq => ctxOk ctx && cseqOk cseq
  | .kvEvict ctx cseq => ctxOk ctx && cseqOk cseq
  | .allreduce ctx cseq => ctxOk ctx && cseqOk cseq
  | .reduce ctx cseq => ctxOk ctx && cseqOk cseq
  | .bcast ctx cseq => ctxOk ctx && cseqOk cseq
  | .allgather ctx cseq => ctxOk ctx && cseqOk cseq
  | .barrier ctx cseq => ctxOk ctx && cseqOk cseq
  | .wait ctx cseq => ctxOk ctx && cseqOk cseq
  | .signal ctx cseq => ctxOk ctx && cseqOk cseq
  | .signalRemote ctx cseq => ctxOk ctx && cseqOk cseq
  | .cfgBegin now ctx cseq => timeOk now && ctxOk ctx && cseqOk cseq
  | .cfgSet now ctx cseq => timeOk now && ctxOk ctx && cseqOk cseq
  | .cfgGet ctx cseq => ctxOk ctx && cseqOk cseq
  | .cfgCommit now ctx cseq => timeOk now && ctxOk ctx && cseqOk cseq
  | .commitSafePoint now txn => timeOk now && below 65536 txn
  | .commitBusyExpire now txn => timeOk now && below 65536 txn
  | .cfgRollback now ctx cseq => timeOk now && ctxOk ctx && cseqOk cseq
  | .transactionAbandon now txn => timeOk now && below 65536 txn
  | .hintPhase now ctx cseq => timeOk now && ctxOk ctx && cseqOk cseq
  | .capRequest now ctx cseq => timeOk now && ctxOk ctx && cseqOk cseq
  | .capRequestTimeout now ctx cseq => timeOk now && ctxOk ctx && cseqOk cseq
  | .managementWaitTimeout now ctx cseq => timeOk now && ctxOk ctx && cseqOk cseq
  | .capQuery ctx cseq => ctxOk ctx && cseqOk cseq
  | .cntEnable ctx cseq => ctxOk ctx && cseqOk cseq
  | .cntRead ctx cseq => ctxOk ctx && cseqOk cseq
  | .cameo ctx cseq => ctxOk ctx && cseqOk cseq
  | .cameoDump now p => timeOk now && below 12 p
  | .cameoCancel ctx cseq => ctxOk ctx && cseqOk cseq
  | .sessionOpen now ctx cseq => timeOk now && ctxOk ctx && cseqOk cseq
  | .sessionClose now ctx cseq => timeOk now && ctxOk ctx && cseqOk cseq
  | .quote now ctx cseq => timeOk now && ctxOk ctx && cseqOk cseq
  | .keyRotate now ctx cseq => timeOk now && ctxOk ctx && cseqOk cseq
  | .fence ctx cseq => ctxOk ctx && cseqOk cseq
  | .resume ctx cseq => ctxOk ctx && cseqOk cseq
  | .ctxReset ctx cseq => ctxOk ctx && cseqOk cseq
  | .statusQuery ctx cseq => ctxOk ctx && cseqOk cseq
  | .recordStart ctx cseq => ctxOk ctx && cseqOk cseq
  | .recordStop ctx cseq => ctxOk ctx && cseqOk cseq
  | .replayStart ctx cseq => ctxOk ctx && cseqOk cseq
  | .replayFeed p => below 12 p
  | .replayEnd p => below 12 p
  | .meqPush tile hart rd rs1 rs2 => below 24 tile && below 32 hart && below 32 rd && below 32 rs1 && below 32 rs2
  | .mvqPush tile hart rd rs1 rs2 => below 24 tile && below 32 hart && below 32 rd && below 32 rs1 && below 32 rs2
  | .claspWait now tile hart rd rs1 rs2 _ => timeOk now && below 24 tile && below 32 hart && below 32 rd && below 32 rs1 && below 32 rs2
  | .claspWaitTimeout now tile hart => timeOk now && below 24 tile && below 32 hart
  | .claspAdd tile hart rd rs1 rs2 => below 24 tile && below 32 hart && below 32 rd && below 32 rs1 && below 32 rs2
  | .evtRaise tile hart rs1 => below 24 tile && below 32 hart && below 32 rs1
  | .cntSnap tile hart rd rs1 => below 24 tile && below 32 hart && below 32 rd && below 32 rs1
  | .pipAccess tile hart _ addr len data => below 24 tile && below 32 hart && below two64 addr && below 65 len && below 65 data.length
  | .pipTrapUnhandled tile hart cause => below 24 tile && below 32 hart && below 256 cause
  | .pipExit tile hart code => below 24 tile && below 32 hart && below two64 code
  | .cameoName tile hart n addr len fmt => below 24 tile && below 32 hart && below two64 n && below two64 addr && below two64 len && below 256 fmt
  | .hostAccess _ addr len data => addrOk addr && within 1 64 len && below 65 data.length
  | .meDescriptorStart tile me => below 24 tile && below 8 me
  | .meDescriptorComplete tile me => below 24 tile && below 8 me
  | .meOwnerChangeLand tile me => below 24 tile && below 8 me
  | .moverDescriptorStart tile mv => below 24 tile && below 8 mv
  | .moverChunk now tile mv => timeOk now && below 24 tile && below 8 mv
  | .moverDescriptorComplete tile mv => below 24 tile && below 8 mv
  | .ackTimeout now tile mv msgseq => timeOk now && below 24 tile && below 8 mv && below two32 msgseq
  | .pipReset now tile hart by_ => timeOk now && below 24 tile && below 32 hart && by_.wf
  | .pipResetDrainExpire now tile hart => timeOk now && below 24 tile && below 32 hart
  | .meGroupReset now tile grp by_ _ => timeOk now && below 24 tile && below 2 grp && by_.wf
  | .meGroupPowerCycle now tile grp => timeOk now && below 24 tile && below 2 grp
  | .moverAbort tile mv by_ => below 24 tile && below 8 mv && by_.wf
  | .unitFaultPop tile _ unit by_ => below 24 tile && below 8 unit && by_.wf
  | .tsEccClear tile by_ => below 24 tile && by_.wf
  | .tsScrubRow tile bank upsets => below 24 tile && below 40 bank && upsets.all (fun u => below 32 u.1)
  | .memoryRead addr upsets => addrOk addr && upsets.all upsetOk
  | .memoryWrite addr data => addrOk addr && within 1 64 data.length
  | .memoryScrub addr upsets => addrOk addr && upsets.all upsetOk
  | .memoryRefresh die unit => below 14 die && below 32 unit
  | .memoryCalibration die unit _ => below 14 die && below 32 unit
  | .channelRetrain now die unit cause => timeOk now && below 14 die && below 32 unit && below 256 cause
  | .channelRetrainEnd die unit _ => below 14 die && below 32 unit
  | .eccstatClear die by_ => below 14 die && by_.wf
  | .uelogPop die by_ => below 14 die && by_.wf
  | .segmentFillComplete now seg => timeOk now && below 896 seg
  | .xtsFillComplete now p => timeOk now && below 12 p
  | .pressGroupDispatch die => below 2 die
  | .pressGroupComplete die engine => below 2 die && below 16 engine
  | .pressEngineReset now die engine by_ _ => timeOk now && below 2 die && below 16 engine && by_.wf
  | .pressResetTimeout now die engine => timeOk now && below 2 die && below 16 engine
  | .frameReceive now link frame => timeOk now && below 6 link && decide (frame.length = 584)
  | .retryTimeout now link => timeOk now && below 6 link
  | .laneSwap link _ lane => below 6 link && below 72 lane
  | .linkFullRetrain now link rttNs _ => timeOk now && below 6 link && below 65536 rttNs
  | .linkRetrainTimeout now link => timeOk now && below 6 link
  | .linkDown now link cause => timeOk now && below 6 link && below 256 cause
  | .linkTraining now link _ => timeOk now && below 6 link
  | .laserFault now src => timeOk now && below 2 src
  | .linkRetrainOrder now link by_ => timeOk now && below 6 link && by_.wf
  | .linkEnableWrite now link _ by_ => timeOk now && below 6 link && by_.wf
  | .msgHead now link m => timeOk now && below 6 link && m.wf
  | .ack now link b => timeOk now && below 6 link && b.wf
  | .claspBead link b => below 6 link && b.wf
  | .abortBead now link b => timeOk now && below 6 link && b.wf
  | .sliceAbort now entry cause link => timeOk now && below 64 entry && below 256 cause && below 6 link
  | .multicastReplicate link m => below 6 link && m.wf
  | .redHead now link m => timeOk now && below 6 link && m.wf
  | .chunkFold now entry coll chunk => timeOk now && below 64 entry && below two32 coll && below two32 chunk
  | .mcHead now link m => timeOk now && below 6 link && m.wf
  | .barUp now link b => timeOk now && below 6 link && b.wf
  | .barDown now link b => timeOk now && below 6 link && b.wf
  | .barrierRelease now entry => timeOk now && below 64 entry
  | .collectiveTimeout now ctx cseq => timeOk now && ctxOk ctx && cseqOk cseq
  | .traySyncRise now => timeOk now
  | .traySyncRedrive now => timeOk now
  | .timeBeadSend now link => timeOk now && below 6 link
  | .timeBead now link b => timeOk now && below 6 link && b.wf
  | .timeParentLoss now => timeOk now
  | .masterTimeTimeout now => timeOk now
  | .train now link b => timeOk now && below 6 link && b.wf
  | .stop now link b => timeOk now && below 6 link && b.wf
  | .referenceLoss => true
  | .referenceReturn now => timeOk now
  | .estimateStep now p act => timeOk now && below 12 p && act.wf
  | .telemetrySample now smp => timeOk now && smp.wf
  | .managementCycle now => timeOk now
  | .overPowerTrip now => timeOk now
  | .overPowerRelease now => timeOk now
  | .pwrlimAssert now => timeOk now
  | .emergencyCauseTimeout now => timeOk now
  | .emergencyEnd now => timeOk now
  | .trayCauseReport _ _ by_ => by_.wf
  | .inputVoltageEvent now mv durUs => timeOk now && below 65536 mv && below two32 durUs
  | .shedStep now => timeOk now
  | .thermalTrip die => below 52 die
  | .domainOffOrder now p => timeOk now && below 12 p
  | .domainOn now p => timeOk now && below 12 p
  | .keepalive now p by_ => timeOk now && below 12 p && by_.wf
  | .keepaliveTimeout now p => timeOk now && below 12 p
  | .trayHeartbeat now v by_ => timeOk now && below two64 v && by_.wf
  | .trayHeartbeatLoss now => timeOk now
  | .opChange op => below 8 op
  | .tarnishEval die drift => below 52 die && below 65536 drift
  | .wearDaily now samples => timeOk now && decide (samples.length = 114)
  | .rackOrderWrite now v by_ => timeOk now && below two64 v && by_.wf
  | .stateImage now seq _ => timeOk now && below two32 seq
  | .heartbeatSilence now => timeOk now
  | .takeover now fails => timeOk now && fails.all (below 8)
  | .hasiaRestart now => timeOk now
  | .swap now by_ => timeOk now && by_.wf
  | .takeBack now => timeOk now
  | .aoWakeCycle now => timeOk now
  | .regRead addr count => addrOk addr && within 1 32 count
  | .regWrite now addr words => timeOk now && addrOk addr && within 1 32 words.length
  | .pkt now bytes => timeOk now && within 64 2048 bytes.length
  | .reply rseq => rseq.all (below two32)
  | .csb => true
  | .telem => true
  | .events => true
  | .i3cDynamicAddress addr => below 128 addr
  | .fwStage now bundle => timeOk now && below 0x1800001 bundle.length
  | .dumpRead n => below 65536 n
  | .logRead which => below 3 which
  | .svnCommit by_ => by_.wf
  | .lmsTreeGenerate => true
  | .linkKeyingSubmit n by_ => below 6 n && by_.wf
  | .linkKeyDrop n by_ => below 6 n && by_.wf
  | .debugNonceReq by_ => by_.wf
  | .debugUnlockSubmit now by_ => timeOk now && by_.wf
  | .eventOccurrence src => below 4096 src
  | .levelChange now src _ => timeOk now && below 4096 src
  | .claim now k => timeOk now && below 78 k
  | .complete k src => below 78 k && below 4096 src
  | .strandRecord now k => timeOk now && below 78 k
  | .strandConsWrite k v => below 78 k && below two32 v
  | .holdoffExpire now g => timeOk now && below 128 g
  | .globalDisableWrite _ by_ => by_.wf
  | .sourceMaskWrite now src _ by_ => timeOk now && below 4096 src && by_.wf
  | .sourceModeWrite src mode filt by_ => below 4096 src && below 8 mode && below 256 filt && by_.wf
  | .routeWrite src r by_ => below 4096 src && below 128 r && by_.wf
  | .coldStart now _ => timeOk now
  | .moduleReset now cause _ => timeOk now && below 256 cause
  | .timeWaitExpire now => timeOk now
  | .hold3Write now _ by_ => timeOk now && by_.wf
  | .nodeIdWrite now node zsize master => timeOk now && below 4096 node && below 128 zsize && below 4096 master
  | .overlayAppend _ => true
  | .overlayClear by_ => by_.wf
  | .mcbWrite _ _ => true
  | .registerWrite now addr _ by_ => timeOk now && addrOk addr && by_.wf
  | .errorRecord now dom rec_ => timeOk now && below 26 dom && rec_.wf
  | .hangWindowExpire now unit => timeOk now && below 4896 unit
  | .watchdogMiss now p core => timeOk now && below 12 p && below 2 core
  | .wdogKick now p bits by_ => timeOk now && below 12 p && below 4 bits && by_.wf
  | .contextRecoveryReset now ctx cause => timeOk now && below 800 ctx && below 256 cause
  | .engineReset now dom unit cause => timeOk now && below 26 dom && below 4896 unit && below 256 cause
  | .actionOverrun now dom => timeOk now && below 26 dom
  | .partitionReset now p cause => timeOk now && below 12 p && below 256 cause
  | .powerCycleRequest now dom => timeOk now && below 26 dom
  | .capture now dom unreadable => timeOk now && below 26 dom && unreadable.all (below 52)
  | .captureBoundExpire now => timeOk now
  | .spineAccessTimeout die => below 52 die
  | .bezelFence p by_ => below 12 p && by_.wf
  | .bezelOpen p by_ => below 12 p && by_.wf
  | .errqPop p by_ => below 26 p && by_.wf
  | .abortlogPop f by_ => below 4 f && by_.wf
  | .powerUp now _ => timeOk now
  | .orderedShutdown now => timeOk now
  | .resetNAssert now => timeOk now
  | .resetNRelease now _ => timeOk now
  | .forceOff => true
  | .forceOffRelease now _ => timeOk now
  | .fastStop now cause => timeOk now && below 256 cause
  | .flashRecovery banks => below 3 banks.length
  | .ucieLaneRepair die port _ => below 52 die && below 11 port
  | .powerDomainFault now dom => timeOk now && below 100 dom
  | .pwrlimRelease now => timeOk now
  | .imageAckTimeout now => timeOk now
  | .inputPowerApplied mv => below 65536 mv
  | .speedMonitorUpdate die rate junc _ => below 52 die && below 65536 rate && below 256 junc

end Sys2Proof
end

