-- ==== Sys2Proof/Tests/Slice0.lean ====
section
/-!
SUPPORT. Tests: for each statement a state and operands that meet its hypotheses, ill-formed commands that Instr.wf refuses, and effects
of single commands beside the values that the spec gives.
-/

namespace Sys2Proof.Tests

set_option maxRecDepth 4000
set_option Elab.async false

open Sys2Proof.Machine

/-- The witness base: every domain on, HM-A active and HM-B standing by, the pins of a running module, 100,000 s gone by. -/
def w0 : State :=
  { State.reset with
    gtime := 100000000000000
    domains := (List.range 100).map (fun d => (d, true))
    mgmt := { Mgmt.init with a := ⟨4, 0, [], false, 0⟩, b := ⟨3, 0, [], false, 0⟩, latch := some 0 }
    pins := ⟨true, true, true, true, true, true, false, false, false, true⟩
    boot := { Boot.init with everReady := true, open_ := true } }

/-- A packet: opcode, length in units, context, CSEQ, and parameters by offset, width and value (R219, R252). -/
def tPk (op len ctx cseq : Nat) (ps : List (Nat × Nat × Nat)) : List Byte :=
  ps.foldl (fun b q => putBytes b (64 + q.1) (natLe q.2.1 q.2.2))
    (natLe 2 op ++ natLe 2 len ++ natLe 4 ctx ++ natLe 4 cseq ++ zeros (64 * len - 12))

/-- An accepted command of a packet. -/
def tAcc (p : List Byte) : Cmd :=
  { packet := p, cseq := pCseq p, isSealed := false, stage := .accepted, issued := false, status := .ok, detail := 0, aux := 0,
    tStart := 0, tEnd := 0, waited := 0, seed := 0, units := [], slots := 0, corrected := false, undoOvf := false,
    cnt0 := CntLatch.init, cnt1 := CntLatch.init, left := 0, fault := 0, tReq := 0, ran := false, gen := 0, pairs := none,
    unitWait := 0, moved := 0, outDigest := none, held := false, fencers := [] }

/-- A started command of a packet. -/
def tCmd (p : List Byte) : Cmd := { tAcc p with stage := .started, ran := true }

/-- A state with one command in a context. -/
def tS (ctx : Nat) (c : Cmd) : State := w0.setCtx ctx { Ctx.init with cmds := [c] }

/-- A bead with a payload given by offset, width and value. -/
def tBead (kind slice dnode dport group : Nat) (ps : List (Nat × Nat × Nat)) : Bead :=
  ⟨mkHead kind 4 dnode dport slice group 0, ps.foldl (fun b q => putBytes b q.1 (natLe q.2.1 q.2.2)) (zeros 64)⟩
/-! ### Witnesses: a state and operands that meet the hypotheses of each clause of a statement -/

/-- Hypotheses of StepRunsFrontCommand, EveryCommandCompletes and StepKeepsInvariant. -/
theorem test_hyps_StepRunsFrontCommand :
    { w0 with pending := [.csb, .forceOff] }.pending = .csb :: [.forceOff] ∧ w0.pending = [] := by decide +kernel

theorem test_hyps_EveryCommandCompletes : Memory.wf { w0 with mem := [(64, 1), (65, 7)] }.mem = true := by decide +kernel

theorem test_hyps_StepKeepsInvariant :
    Memory.wf { w0 with mem := [(64, 1)] }.mem = true ∧
      ∃ t, step { w0 with mem := [(64, 1)], pending := [.memoryRefresh 13 31, .csb] } = .next t :=
  ⟨by decide +kernel, _, rfl⟩

/-- A context that waits for `n` more units. -/
def tRx (n : Nat) : State := w0.setCtx 799 { Ctx.init with rxLeft := n, stall := 1 }

theorem test_hyps_IntakeStoreFillsUnit :
    let m := fun (s : State) off (d : List Byte) => (s.ctx 799).unitMask ||| ((2 ^ d.length - 1) <<< (off % 64))
    799 < 800 ∧ 65535 < 65536 ∧ 64 < 65535 % 64 + (zeros 2).length ∧
      (65535 % 64 + (zeros 1).length ≤ 64 ∧ m w0 65535 (zeros 1) ≠ 2 ^ 64 - 1) ∧
      (0 % 64 + (zeros 64).length ≤ 64 ∧ m (tRx 1) 0 (zeros 64) = 2 ^ 64 - 1 ∧ ((tRx 1).ctx 799).dropLeft = 0 ∧
        ((tRx 1).ctx 799).rxLeft = 1) ∧
      (m (tRx 2) 0 (zeros 64) = 2 ^ 64 - 1 ∧ ((tRx 2).ctx 799).rxLeft = 2) := by decide +kernel

theorem test_hyps_IntakeAbandonDropsPacket :
    (((tRx 1).advance 0).ctx 799).rxLeft ≠ 0 ∧ (((tRx 1).advance 0).ctx 799).lastUnit + (((tRx 1).advance 0).ctx 799).stall * 1000000 ≤
      ((tRx 1).advance 0).gtime := by decide +kernel

/-- A context whose oldest complete packet is given. -/
def tReady (p : List Byte) : State := w0.setCtx 800 { Ctx.init with ready := [p, p] }

theorem test_hyps_PacketCheckDecides :
    let held := fun p => ((tReady p).ctx 800).ready = p :: [p] ∧ (tReady p).checkHeld 800 = false ∧ ((tReady p).ctx 800).session = 0
    let sl := putBytes (tPk 0x0601 1 800 1 []) 3 [1]
    (held sl ∧ pSealed sl = true) ∧ (held (tPk 0x0601 1 800 2 []) ∧ pCseq (tPk 0x0601 1 800 2 []) ≠ ((tReady (tPk 0x0601 1 800 2 [])).ctx 800).expCseq.toNat) ∧
      (held (tPk 0x0601 1 800 1 []) ∧ pSealed (tPk 0x0601 1 800 1 []) = false ∧
        pCseq (tPk 0x0601 1 800 1 []) = ((tReady (tPk 0x0601 1 800 1 [])).ctx 800).expCseq.toNat) := by decide +kernel

theorem test_hyps_CsbReadLatches : 799 < 800 ∧ 1 ≠ 0 := by decide +kernel

/-- A WAIT of the last administration context, not yet started. -/
def tWait : Cmd := tAcc (tPk 0x0601 1 799 1 [])

theorem test_hyps_CommandStartStarts :
    let s1 := (tS 799 tWait).advance 0
    (s1.ctx 799).oldest = some tWait ∧ (s1.ctx 799).fenced = false ∧ pWait tWait.packet 0 = 0 ∧ pWait tWait.packet 1 = 0 ∧
      s1.contentCheck 799 tWait.isSealed tWait.packet = none ∧ tWait.opc = some .wait ∧ (pFlags tWait.packet).testBit 2 = false ∧
      (s1.ctx 799).running.length < s1.maxflight 799 ∧ s1.conflicts 799 tWait = false ∧ s1.cmdRegions 799 tWait = [] ∧
      s1.heldByCommit 799 tWait = false := by decide +kernel

/-- A command that waits for a clasp, in a context with the longest WAIT_LIMIT reached. -/
def tLate : Cmd := { tAcc (putBytes (tPk 0x0601 1 799 1 []) 16 (natLe 8 (2 ^ 20))) with waited := 3600000000000 }

/-- Its state: WAIT_LIMIT 1 ms. -/
def tLimit : State := (tS 799 tLate).setFld (phCtxcfg2A (w0.hubOf 799) (localIdx 799)) phCtxcfg2WaitLimit 1

theorem test_hyps_FencedCommandEnds :
    (let s1 := (w0.setCtx 799 { Ctx.init with cmds := [tWait], fenced := true }).advance 0
     (s1.ctx 799).oldest = some tWait ∧ (s1.ctx 799).fenced = true ∧ tWait.opc ≠ some .resume) ∧
    (let s1 := tLimit.advance 0
     s1.waitLimit 799 ≠ 0 ∧ (s1.ctx 799).cmds.find? (fun k => s1.doneWait 799 k && decide (s1.waitLimit 799 ≤ k.waited)) = none ∧
      (s1.ctx 799).oldest = some tLate ∧ s1.waitLimit 799 ≤ tLate.waited ∧ s1.waitsSat 799 tLate.packet = false) := by decide +kernel

/-- A finished WAIT. -/
def tDone : Cmd := { tCmd (tPk 0x0601 1 799 1 []) with stage := .finished }

theorem test_hyps_CommandRetireRetires :
    let s1 := (w0.setCtx 799 { Ctx.init with cmds := [tDone, tAcc (tPk 0x0601 1 799 2 [])] }).advance 0
    (s1.ctx 799).cmds = tDone :: [tAcc (tPk 0x0601 1 799 2 [])] ∧ tDone.stage = .finished ∧ tDone.status = .ok ∧ s1.ringSpace 799 = true ∧
      (s1.ctx 799).due = [] ∧ tDone.opc = some .wait ∧ clVal (pSig tDone.packet) = 0 ∧ tDone.fencers = [] ∧ tDone.slots = 0 ∧
      s1.holds = [] ∧ (s1.ctx 799).cameos = [] ∧ ∀ k ∈ [tAcc (tPk 0x0601 1 799 2 [])], k.cseq ≠ tDone.cseq := by decide +kernel

/-- A started command with an opcode, of the last context of the last partition, with CSEQ 7. -/
def tK (op len : Nat) (ps : List (Nat × Nat × Nat)) : Cmd := tCmd (tPk op len 767 7 ps)

/-- Whether a state's context holds the command as one whose body may run. -/
def bodyOk (c : Cmd) (o : Opc) : Bool := decide ((tS 767 c).body 767 c.cseq o = some c)

/-- The opcodes of the four transfers, with their lengths. -/
def tMoves : List (Nat × Opc) := [(0x0101, .move), (0x0102, .fill), (0x0103, .gather), (0x0104, .scatter)]

theorem test_hyps_LocalMoveStores :
    (tS 767 (tK 0x0101 3 [])).Plain ∧
      ∀ q ∈ tMoves, bodyOk (tK q.1 3 []) q.2 = true ∧ (par (tK q.1 3 []).packet 1 1).testBit 2 = false := by
  unfold State.Plain; decide +kernel

theorem test_hyps_RemoteMoveStoresNothing :
    ∀ q ∈ tMoves, bodyOk (tK q.1 3 [(1, 1, 4)]) q.2 = true ∧ (par (tK q.1 3 [(1, 1, 4)]).packet 1 1).testBit 2 = true := by decide +kernel

/-- A collective of the partition, under way. -/
def tBusyColl (c : Cmd) : State := w0.setCtx 767 { Ctx.init with cmds := [{ tK 0x0501 2 [] with cseq := 6 }, c] }

/-- Every hart of the partition of context 767 running. -/
def tNoHart (c : Cmd) : State :=
  { tS 767 c with harts := (List.range 64).map (fun i => (32 * 22 + i, { Hart.init with running := true, job := some (767, 6) })) }

theorem test_hyps_MatmulConvertEnd :
    (∀ q ∈ [(0x0201, Opc.matmul), (0x0202, .matmulAcc)], bodyOk (tK q.1 4 []) q.2 = true ∧
      (tS 767 (tK q.1 4 [])).collRunning (partOf 767) = false ∧ (tBusyColl (tK q.1 4 [])).collRunning (partOf 767) = true ∧
      (tBusyColl (tK q.1 4 [])).body 767 7 q.2 = some (tK q.1 4 [])) ∧
    (let c := tK 0x0203 3 []
     bodyOk c .convert = true ∧ mvFmts (par c.packet 0 1) ≠ none ∧ (tS 767 c).freeHart (partOf 767) = true ∧
      (tNoHart c).body 767 7 .convert = some c ∧ (tNoHart c).freeHart (partOf 767) = false) ∧
    bodyOk (tK 0x0402 2 []) .kvAppend = true := by decide +kernel

theorem test_hyps_KvEvictStores : (tS 767 (tK 0x0403 2 [(1, 1, 1)])).Plain ∧ bodyOk (tK 0x0403 2 [(1, 1, 1)]) .kvEvict = true := by
  unfold State.Plain; decide +kernel

theorem test_hyps_RunStartsHarts : bodyOk (tK 0x0301 5 []) .run = true ∧ bodyOk (tK 0x0302 5 []) .runWait = true := by decide +kernel

/-- A hart that runs the kernel of a command. -/
def tJob : State := (tS 767 (tK 0x0301 5 [])).setHart 23 31 { Hart.init with running := true, job := some (767, 7) }

/-- The last hart with a valid context. -/
def tPipCtx (s : State) : State := s.setFld (pipCtlA 23 31) pipCtlCtx 767

theorem test_hyps_HartEnds :
    (23 < 24 ∧ 31 < 32 ∧ (tJob.hart 23 31).running = true ∧ (tJob.hart 23 31).job = some (767, 7)) ∧
    (tJob.ctx 767).cmd 7 = some (tK 0x0301 5 []) ∧ (tPipCtx w0).fld (pipCtlA 23 31) pipCtlCtx < 800 ∧
    1023 < 1024 ∧ 2 ^ 32 % two32 = 0 ∧ (1023 ≤ 1023 ∧ 16 % two32 ≠ 0 ∧ Fmt.ofCode 0 ≠ none ∧
      (tPipCtx w0).mayReach 767 (hbmBase 11) (16 % two32) = true) := by decide +kernel

/-- The last page of the tier. -/
def tPage : Nat := tierBase + 0x40000000 * 896 - 65536

/-- A started ATTN_PAGES with a list of one page. -/
def tPages : Cmd := tK 0x0401 2 [(4, 1, 1), (12, 4, 1), (16, 8, hbmBase 11)]

/-- Its state: the list in memory, the page's segment owned by the partition. -/
def tPagesS : State :=
  { tS 767 tPages with mem := (kvWrite 0 [] (hbmBase 11) (natLe 8 (tPage + 16 * 2 ^ 44))) }.setFld (tdSegA 895) tdSegOwner 11

theorem test_hyps_PressGroupsMove :
    let r := tPagesS.readMem 0 (par tPages.packet 16 8) (8 * par tPages.packet 12 4)
    let l := natLe 8 (tPage + 16 * 2 ^ 44)
    tPagesS.Plain ∧ tPagesS.body 767 7 .attnPages = some tPages ∧ r.data = some l ∧
      (r.st.markCorr 767 tPages.cseq r.corr).pagesCheck 767 tPages.packet (pageList l (par tPages.packet 12 4)) = none := by
  unfold State.Plain; decide +kernel

/-- A press group at the front of a queue. -/
def tGroup : PressGroup := ⟨11, 767, 7, 0, [(hbmBase 11, 16)], 0, 0⟩

theorem test_hyps_PressGroupsMove_dispatch :
    let s := { w0 with pressQ := [(16 + 11, [tGroup])] }.setFld (tdPecapA 1) tdPecapEnabled 0xFFFF
    1 < 2 ∧ s.pressTurn 1 14 (kvGet (0, 0) s.pressRr 1) = some (11, 0) ∧ kvGet [] s.pressQ (16 * 1 + 11) = tGroup :: [] ∧
      (List.range 16).find? (fun e => s.pressFree 1 e && decide (tGroup.avoid ≠ e + 1)) = some 0 := by decide +kernel

theorem test_hyps_PressGroupsMove_engine :
    let s := (w0.setPress 1 15 ⟨some tGroup, none⟩).setFld (tdPecapA 1) tdPecapEnabled 0xFFFF
    1 < 2 ∧ 15 < 16 ∧ (s.press 1 15).group = some tGroup ∧ (s.ctx tGroup.ctx).cmd tGroup.cseq = none ∧
      mayReachReg .host (tdPectlA 1) = true ∧ ((s.advance 0).press 1 15).rstAt = none ∧
      ((s.advance 0).fld (tdPecapA 1) tdPecapFailed).testBit 15 = false ∧ ((s.advance 0).fld (tdPecapA 1) tdPecapEnabled).testBit 15 = true ∧
      ((w0.setPress 1 15 ⟨some tGroup, some 5⟩).press 1 15).rstAt = some 5 ∧ 5 + 500000 ≤ (w0.advance 0).gtime := by decide +kernel

theorem test_hyps_ContextsBeginInitialised :
    let c := tCmd (tPk 0x0B02 2 799 7 [(0, 1, 1), (2, 2, 0)])
    (tS 799 c).body 799 7 .ctxReset = some c ∧ par c.packet 0 1 = 1 ∧ par c.packet 2 2 ≠ 799 ∧
      ((tS 799 c).ctx (par c.packet 2 2)).cmds = [] ∧ ((tS 799 c).ctx (par c.packet 2 2)).session = 0 := by decide +kernel

/-- A started command of the last administration context, with CSEQ 7. -/
def tA (op len : Nat) (ps : List (Nat × Nat × Nat)) : Cmd := tCmd (tPk op len 799 7 ps)

/-- Whether a state's administration context holds the command as one whose body may run. -/
def bodyA (s : State) (c : Cmd) (o : Opc) : Bool := decide (s.body 799 c.cseq o = some c)

theorem test_hyps_SynchronisationCommandsEnd :
    bodyOk (tK 0x0601 1 []) .wait = true ∧ bodyOk (tK 0x0603 2 []) .signalRemote = true ∧
      (let c := tK 0x0602 2 [(4, 4, 4095), (8, 8, 1)]
       bodyOk c .signal = true ∧ clIdx (par c.packet 4 4) < claspCount (claspTab 767) ∧ ((tS 767 c).recorder (partOf 767)).recActive = false ∧
        par c.packet 0 1 = 0) ∧
      (let c := tA 0x0602 2 [(0, 1, 1), (4, 4, 255), (8, 8, 1)]
       bodyA (tS 799 c) c .signal = true ∧ clIdx (par c.packet 4 4) < claspCount (claspTab 799) ∧
        ((tS 799 c).recorder (partOf 799)).recActive = false ∧ par c.packet 0 1 ≠ 0 ∧ 768 ≤ 799) := by decide +kernel

/-- A state with an earlier WAIT before the command in context 799. -/
def tTwo (c : Cmd) : State := w0.setCtx 799 { Ctx.init with cmds := [tCmd (tPk 0x0601 1 799 6 []), c] }

theorem test_hyps_FenceAborts :
    let f := fun k tg => tA 0x0B01 2 [(0, 1, k), (2, 2, tg)]
    (bodyA (tTwo (f 0 0)) (f 0 0) .fence = true ∧ par (f 0 0).packet 0 1 = 0 ∧ ∀ k ∈ ((tTwo (f 0 0)).ctx 799).cmds, k.is Opc.isRun = false) ∧
      (bodyA (tTwo (f 1 799)) (f 1 799) .fence = true ∧ par (f 1 799).packet 0 1 = 1 ∧ par (f 1 799).packet 2 2 = 799) ∧
      (bodyA (tTwo (f 1 767)) (f 1 767) .fence = true ∧ par (f 1 767).packet 2 2 ≠ 799 ∧ ((tTwo (f 1 767)).ctx 767).cmds = []) ∧
      (let s := (tS 767 (tK 0x0601 1 [])).setCtx 799 { Ctx.init with cmds := [f 1 767] }
       bodyA s (f 1 767) .fence = true ∧ (s.ctx 767).cmds ≠ []) ∧
      (bodyA (tTwo (f 2 11)) (f 2 11) .fence = true ∧ 2 ≤ par (f 2 11).packet 0 1 ∧ par (f 2 11).packet 2 2 < 12 ∧
        ((tTwo (f 2 11)).bezel 11).resetHold = false) := by decide +kernel

theorem test_hyps_ResumeResetQueryEnd :
    (∀ k ∈ [0, 1, 2], bodyA (tS 799 (tA 0x0B04 2 [(0, 1, k), (2, 2, 11)])) (tA 0x0B04 2 [(0, 1, k), (2, 2, 11)]) .resume = true) ∧
      (w0.bezel 11).resetHold = false ∧ w0.outOfService 11 = false ∧
      (let c := tA 0x0B02 2 [(2, 2, 767)]
       bodyA (tS 799 c) c .ctxReset = true ∧ par c.packet 2 2 ≠ 799 ∧ par c.packet 0 1 = 0) ∧
      (let c := tA 0x0B02 2 [(0, 1, 1), (2, 2, 767)]
       let s := (tS 767 (tK 0x0601 1 [])).setCtx 799 { Ctx.init with cmds := [c] }
       bodyA s c .ctxReset = true ∧ par c.packet 2 2 ≠ 799 ∧ par c.packet 0 1 ≠ 0 ∧ (s.ctx 767).session = 0 ∧ (s.ctx 767).cmds ≠ []) ∧
      (let c := tA 0x0B03 2 [(2, 2, 0xFFFF)]
       bodyA (tS 799 c) c .statusQuery = true ∧ par c.packet 2 2 = 0xFFFF) ∧
      (let c := tA 0x0B03 2 [(2, 2, 767)]
       bodyA (tS 799 c) c .statusQuery = true ∧ par c.packet 2 2 ≠ 0xFFFF ∧ par c.packet 2 2 ≠ 799) := by decide +kernel

theorem test_hyps_ResumeResetQueryEnd_plain : (tS 799 (tA 0x0B03 2 [(2, 2, 767)])).Plain := by unfold State.Plain; decide +kernel

/-- An open transaction of context 800 over the configuration of the last administration context, with WAIT_LIMIT staged. -/
def tTxn : Txn := ⟨1, 1 + 65536 * 799, 800, [(phCtxcfg2A (w0.hubOf 799) (localIdx 799), phCtxcfg2WaitLimit.lo, phCtxcfg2WaitLimit.width, 5)], 0, none⟩

/-- A started command of the management context, with CSEQ 7. -/
def tM (op len : Nat) (ps : List (Nat × Nat × Nat)) : Cmd := tCmd (tPk op len 800 7 ps)

/-- Its state, with open transactions. -/
def tMS (c : Cmd) (ts : List Txn) : State := { tS 800 c with txns := ts, nextTxn := 2 }

theorem test_hyps_TransactionsOpenAndStage :
    (let c := tM 0x0701 2 [(0, 4, 1 + 65536 * 767)]
     let w := par c.packet 0 4
     let s := tMS c []
     ((s.setCtx 767 { Ctx.init with session := 1 }).advance 0).body 800 7 .cfgBegin = some c ∧ bits w 0 16 = 1 ∧
      (((s.setCtx 767 { Ctx.init with session := 1 }).advance 0).ctx (bits w 16 16)).session ≠ 0 ∧ bits w 16 16 ≠ 800 ∧
      ((s.advance 0).body 800 7 .cfgBegin = some c ∧ ((s.advance 0).ctx (bits w 16 16)).session = 0 ∧ ∀ u ∈ (s.advance 0).txns, u.scope ≠ w) ∧
      (∃ u ∈ ((tMS c [{ tTxn with scope := w }]).advance 0).txns, u.scope = w)) ∧
    (let c := tM 0x0702 2 [(0, 4, 1), (8, 8, phCtxcfg2A (w0.hubOf 799) (localIdx 799)), (16, 1, phCtxcfg2WaitLimit.lo), (17, 1, phCtxcfg2WaitLimit.width), (24, 8, 5)]
     ((tMS c []).advance 0).body 800 7 .cfgSet = some c ∧ ((tMS c []).advance 0).txnFor 800 (par c.packet 0 4) = .inr .rejectedFormat ∧
      (let s := (tMS c [{ tTxn with staged := [] }]).advance 0
       s.body 800 7 .cfgSet = some c ∧ s.txnFor 800 (par c.packet 0 4) = .inl { tTxn with staged := [] } ∧
        ∃ d f q, s.stField tTxn.scope (par c.packet 8 8) (par c.packet 16 1) (par c.packet 17 1) (par c.packet 24 8) = some (d, f) ∧
          s.sealedRights { tTxn with staged := [] } d f = false ∧
          stagePut [] (par c.packet 8 8) (par c.packet 16 1) (par c.packet 17 1) (par c.packet 24 8) = some q)) ∧
    (let c := tM 0x0703 2 [(8, 8, hmBootA), (17, 1, 8)]
     (tS 800 c).body 800 7 .cfgGet = some c) ∧
    (let c := tM 0x0705 2 [(0, 4, 1)]
     ((tMS c [tTxn]).advance 0).body 800 7 .cfgRollback = some c ∧ ((tMS c [tTxn]).advance 0).txnFor 800 1 = .inl tTxn) := by
  refine ⟨by decide +kernel, ⟨by decide +kernel, by decide +kernel, by decide +kernel, by decide +kernel, ?_⟩, by decide +kernel, by decide +kernel⟩
  exact ⟨_, _, _, rfl, by decide +kernel, rfl⟩

/-- A started CFG_COMMIT of transaction 1, and the transaction as it commits. -/
def tCommit : Cmd := { tM 0x0704 2 [(0, 4, 1)] with tStart := 5 }

/-- The state of transaction 1 committing. -/
def tCommitting (u : Txn) : State := tMS { tCommit with issued := true } [{ u with commit := some (7, 5) }]

theorem test_hyps_CommitsLandWhole :
    let ring := (phCtxcfg1A (w0.hubOf 799) (localIdx 799), phCtxcfg1RingBase.lo, phCtxcfg1RingBase.width, 4)
    (let s := (tMS tCommit [{ tTxn with staged := [ring] }]).advance 0
     s.body 800 7 .cfgCommit = some tCommit ∧ s.txnFor 800 1 = .inl { tTxn with staged := [ring] } ∧ bits tTxn.scope 0 16 < 5 ∧
      s.commitCheck { tTxn with staged := [ring] } = some .rejectedFormat) ∧
    (let base := (ring.1, ring.2.1, ring.2.2.1, tierBase + 0x40000000 * 895)
     let u := { tTxn with staged := [base] }
     let s := ((tMS tCommit [u]).setFld (tdSegA 895) tdSegOwner 12).advance 0
     s.body 800 7 .cfgCommit = some tCommit ∧ s.txnFor 800 1 = .inl u ∧ s.commitCheck u = none) ∧
    (let u := { tTxn with scope := 5 }
     let s := ({ tMS tCommit [u] with mgmt := Mgmt.init }).advance 0
     s.body 800 7 .cfgCommit = some tCommit ∧ s.txnFor 800 1 = .inl u ∧ 5 ≤ bits u.scope 0 16 ∧ s.hasiaUp = false) ∧
    (let u := { tTxn with commit := some (7, 5) }
     let s := (tCommitting tTxn).advance 0
     s.committing 1 = some (u, 7, 5) ∧ s.quiet u 7 5 = true ∧ u.staged = [(tTxn.staged.getD 0 (0, 0, 0, 0))] ∧ bits u.scope 0 16 = 1 ∧
      768 ≤ bits u.scope 16 16 ∧ u.opener = 800 ∧ (tTxn.staged.getD 0 (0, 0, 0, 0)).1 ≠ hmCfgstatA ∧
      phCtxcfg2WaitLimit.lo + phCtxcfg2WaitLimit.width ≤ 64) ∧
    (let u := { tTxn with commit := some (7, 5) }
     let s := ((tCommitting tTxn).setCtx 799 { Ctx.init with cmds := [tDone, tCmd (tPk 0x0601 1 799 2 [])] }).advance 0
     s.committing 1 = some (u, 7, 5) ∧ s.quiet u 7 5 = false ∧ 5 + 50000000 ≤ s.gtime ∧ bits u.scope 0 16 < 5) ∧
    (let s := (tMS tCommit [tTxn]).advance 0
     s.txns.find? (fun v => decide (v.num = 1)) = some tTxn ∧ tTxn.commit = none ∧ tTxn.used + 10000000000 ≤ s.gtime) := by decide +kernel

/-- A started CAP_REQUEST of kind `k` for partition 11. -/
def tCap (k w tReq : Nat) : Cmd := { tM 0x0802 2 [(0, 1, k), (2, 2, 11), (4, 4, w)] with tReq := tReq }

theorem test_hyps_PowerCommandsEnd :
    ((tS 767 (tK 0x0801 2 [(4, 4, 400)])).advance 0).body 767 7 .hintPhase = some (tK 0x0801 2 [(4, 4, 400)]) ∧
    (let s := ({ tS 800 (tCap 0 69 0) with mgmt := Mgmt.init }).advance 0
     s.body 800 7 .capRequest = some (tCap 0 69 0) ∧ s.hasiaUp = false ∧ (tCap 0 69 0).tReq = 0) ∧
    (let s := (tS 800 (tCap 0 69 0)).advance 0
     s.body 800 7 .capRequest = some (tCap 0 69 0) ∧ s.hasiaUp = true ∧ par (tCap 0 69 0).packet 0 1 = 0) ∧
    (let s := (tS 800 (tCap 1 0 0)).advance 0
     s.body 800 7 .capRequest = some (tCap 1 0 0) ∧ s.hasiaUp = true ∧ par (tCap 1 0 0).packet 0 1 = 1 ∧ s.partCtxs 11 = []) ∧
    (let s := ((tS 800 (tCap 1 0 0)).setCtx 767 { Ctx.init with cmds := [tK 0x0601 1 []] }).advance 0
     s.body 800 7 .capRequest = some (tCap 1 0 0) ∧ ∃ e ∈ s.partCtxs 11, ∃ k ∈ e.2.cmds, ¬(e.1 = 800 ∧ k.cseq = 7)) ∧
    (let s := (tS 800 (tCap 2 0 0)).advance 0
     s.body 800 7 .capRequest = some (tCap 2 0 0) ∧ s.hasiaUp = true ∧ 2 ≤ par (tCap 2 0 0).packet 0 1) ∧
    (let s := (tS 800 (tCap 0 69 1)).advance 0
     s.body 800 7 .capRequest = some (tCap 0 69 1) ∧ (tCap 0 69 1).tReq ≠ 0 ∧ (tCap 0 69 1).tReq + 2000000000 ≤ s.gtime + 1) ∧
    (let s := (tS 800 (tCap 0 69 1)).advance 0
     (s.ctx 800).cmd 7 = some (tCap 0 69 1) ∧ s.mgmtBound (tCap 0 69 1) = some 3000000 ∧
      (tCap 0 69 1).tStart + 3000000 + 2000000000 < s.gtime) ∧
    (tS 800 (tM 0x0803 2 [(2, 2, 11)])).body 800 7 .capQuery = some (tM 0x0803 2 [(2, 2, 11)]) := by decide +kernel

/-- A CNT_ENABLE of a scope with one selector of partition 11. -/
def tCnt (scope sel : Nat) : Cmd := tM 0x0901 2 [(0, 1, scope), (1, 1, 1), (8, 2, sel)]

theorem test_hyps_CountersEnableAndRead :
    let on := fun (c : Cmd) => (tS 800 c).body 800 7 .cntEnable = some c ∧ decide (par c.packet 1 1 = 1) = true
    (on (tCnt 0 0xFFF) ∧ cntSelOk 0 ((cntSels (tCnt 0 0xFFF).packet).getD 0 0) = false) ∧
      (on (tCnt 1 (11 * 4096)) ∧ (∀ j, j < 8 → cntSelOk 1 ((cntSels (tCnt 1 (11 * 4096)).packet).getD j 0) = true) ∧
        ∃ q ∈ cntSels (tCnt 1 (11 * 4096)).packet, ((tS 800 (tCnt 1 (11 * 4096))).setFld (phXtsA 11) phXtsEnabled 1).confidential (bits q 12 4) = true) ∧
      (on (tCnt 0 0) ∧ ∀ j, j < 8 → cntSelOk 0 ((cntSels (tCnt 0 0).packet).getD j 0) = true) ∧
      (on (tCnt 1 (11 * 4096)) ∧ ∀ q ∈ cntSels (tCnt 1 (11 * 4096)).packet, w0.confidential (bits q 12 4) = false) ∧
      (let c := tM 0x0902 2 [(0, 1, 1)]
       let s := ((tS 800 c).setFld (phXtsA 11) phXtsEnabled 1).setReg (hmCntselA 0 1) (0xB001 * 2 ^ 48)
       s.body 800 7 .cntRead = some c ∧ par c.packet 0 1 = 1 ∧ s.cntSelOf 0 7 % 4096 ≠ 0 ∧ s.confidential (bits (s.cntSelOf 0 7) 12 4) = true) ∧
      (let c := tM 0x0902 2 []
       (tS 800 c).body 800 7 .cntRead = some c ∧ ¬(par c.packet 0 1 = 1)) := by decide +kernel

/-- A cameo at a stage. -/
def tCam (st : CameoStage) : Cameo := ⟨65535, 0, 0, 0, hbmBase 11, 64, 0, st, 6, 0, none, false⟩

/-- A state whose context 767 has a cameo and a command. -/
def tCamS (c : Cmd) (st : CameoStage) : State :=
  { w0.setCtx 767 { Ctx.init with cmds := [c], cameos := [tCam st] } with dumpQ := [(11, [(767, 65535)])] }

theorem test_hyps_CameosRun :
    bodyOk (tK 0x0903 2 []) .cameo = true ∧
      (let c := tK 0x0904 2 [(0, 2, 65535)]
       (tS 767 c).body 767 7 .cameoCancel = some c ∧ ((tS 767 c).ctx 767).cameos.find? (fun k => decide (k.id = 65535)) = none ∧
        (tCamS c .armed).body 767 7 .cameoCancel = some c ∧
        ((tCamS c .armed).ctx 767).cameos.find? (fun k => decide (k.id = par c.packet 0 2)) = some (tCam .armed) ∧
        ((tCamS c .queued).ctx 767).cameos.find? (fun k => decide (k.id = par c.packet 0 2)) = some (tCam .queued)) ∧
      (let s := (tCamS (tK 0x0601 1 []) .queued).advance 0
       kvGet [] s.dumpQ 11 = (767, 65535) :: [] ∧ (s.ctx 767).cameos.find? (fun k => decide (k.id = 65535)) = some (tCam .queued) ∧
        (s.bezel 11).resetHold = false) := by decide +kernel

/-- Locket as it may open sessions: lifecycle 1, no debug. -/
def tLk (s : State) : State := (s.setFld lkStateA lkStateLifecycle 1).setFld lkStateA lkStateDebugEn 0

/-- A started SESSION_OPEN of partition 11 with context 767. -/
def tOpen : Cmd := tM 0x0A01 27 [(0, 4, 2048), (4, 2, 1), (8, 8, tierBase + 0x40000000 * 895), (16, 2, 767)]

/-- A session that holds context 767. -/
def tSess : Session := ⟨1, [11], [767], [zeros 32], zeros 32⟩

/-- A state with the session. -/
def tSessS (c : Cmd) (x : Ctx) : State := { (tS 800 c).setCtx 767 { x with session := 1 } with locket := { Locket.init with sessions := [tSess] } }

theorem test_hyps_SessionsOpenAndClose_open :
    let s := (tLk (tS 800 tOpen)).advance 0
    (s.body 800 7 .sessionOpen = some tOpen ∧ s.hasiaUp = true) ∧
      ¬((s.setFld lkStateA lkStateLifecycle 2).fld lkStateA lkStateLifecycle = 1 ∧ s.flag lkStateA lkStateDebugEn = false) ∧
      (s.fld lkStateA lkStateLifecycle = 1 ∧ s.flag lkStateA lkStateDebugEn = false) ∧
      (s.setFld lkStateA lkStateSigOut 1).flag lkStateA lkStateSigOut = true ∧
      ¬(s.flag lkStateA lkStateSigOut = true ∨ ∃ p ∈ maskParts (par tOpen.packet 0 4), s.partHeld p = true ∨ s.partBusy p = true) := by
  decide +kernel

theorem test_hyps_SessionsOpenAndClose :
    (let c := tM 0x0A02 2 [(0, 4, 1)]
     (((tS 800 c).advance 0).body 800 7 .sessionClose = some c ∧ ((tS 800 c).advance 0).locket.sessions.find? (fun x => decide (x.id = par c.packet 0 4)) = none) ∧
      (let s := (tSessS c { Ctx.init with cmds := [tK 0x0601 1 []] }).advance 0
       s.body 800 7 .sessionClose = some c ∧ s.hasiaUp = true ∧ s.locket.sessions.find? (fun x => decide (x.id = par c.packet 0 4)) = some tSess ∧
        ∃ k ∈ tSess.ctxs, ∃ q ∈ (s.ctx k).cmds, ¬(k = 800 ∧ q.cseq = 7)) ∧
      (let s := (tSessS c Ctx.init).advance 0
       s.body 800 7 .sessionClose = some c ∧ s.locket.sessions.find? (fun x => decide (x.id = par c.packet 0 4)) = some tSess ∧
        ∀ k ∈ tSess.ctxs, ∀ q ∈ (s.ctx k).cmds, k = 800 ∧ q.cseq = 7)) ∧
    (let c := tK 0x0A04 2 []
     let s := (tSessS (tM 0x0601 1 []) { Ctx.init with cmds := [c] }).advance 0
     s.body 767 7 .keyRotate = some c ∧ s.hasiaUp = true ∧ s.sessionOf 767 = some tSess) := by decide +kernel

theorem test_hyps_QuoteStoresItsRecord :
    let c := tM 0x0A03 2 [(32, 8, tierBase + 0x40000000 * 895)]
    let s := (tLk (tS 800 c)).advance 0
    (s.body 800 7 .quote = some c ∧ s.hasiaUp = true ∧ ({ s with mgmt := Mgmt.init }).hasiaUp = false ∧
      ({ s with mgmt := Mgmt.init }).body 800 7 .quote = some c) ∧
      (let s2 := s.setFld lkSigstateA lkSigstateNextLeaf (2 ^ 20)
       s2.body 800 7 .quote = some c ∧ ∃ r, s2.useLeaf = r ∧ r = .wait) ∧
      (let s2 := s.setFld lkStateA lkStateSigOut 1
       s2.body 800 7 .quote = some c ∧ s2.useLeaf = .busy s2) ∧
      ∃ n s2, (s.setFld lkSigstateA lkSigstateNextLeaf 1).useLeaf = .leaf n s2 := by
  refine ⟨by decide +kernel, ⟨by decide +kernel, _, rfl, rfl⟩, ⟨by decide +kernel, rfl⟩, _, _, rfl⟩

/-- A replay of the ring for context 766. -/
def tReplay (drained : Bool) (prod : Nat) : State :=
  { w0 with mem := kvWrite 0 (kvWrite 0 [] (hbmBase 11 + 40) (natLe 8 prod)) (hbmBase 11 + 65536) (natLe 8 0x20003) ++ [] }.setRecorder 11
    { Recorder.init with repActive := true, repCtx := 766, src := (hbmBase 11, 131072), drained := drained, owner := (767, 7) }

theorem test_hyps_RecordingsAndReplays :
    (let c := tK 0x0C01 2 [(0, 8, hbmBase 11), (8, 4, 1), (12, 4, 1)]
     bodyOk c .recordStart = true ∧ ((tS 767 c).recorder (partOf 767)).recActive = false ∧ ¬(((tS 767 c).ctx 767).session ≠ 0) ∧
      (((tS 767 c).setRecorder 11 { Recorder.init with recActive := true }).recorder (partOf 767)).recActive = true ∧
      (((w0.setCtx 767 { Ctx.init with cmds := [c], session := 1 }).ctx 767).session ≠ 0 ∧
        (w0.setCtx 767 { Ctx.init with cmds := [c], session := 1 }).inOwnSegs (partOf 767) (par c.packet 0 8) (65536 * par c.packet 8 4) = false)) ∧
    (let c := tK 0x0C02 1 []
     bodyOk c .recordStop = true ∧ ((tS 767 c).recorder (partOf 767)).recCtx ≠ 767 ∧
      (((tS 767 c).setRecorder 11 { Recorder.init with recCtx := 767 }).recorder (partOf 767)).recCtx = 767) ∧
    (let s := tReplay false 0
     let r := s.recorder 11
     r.repActive = true ∧ r.drained = false ∧ s.flag (phReplayA 11) phReplayStopped = false ∧ s.nextPacket 11 r.cursor = none) ∧
    (let s := tReplay false 64
     let r := s.recorder 11
     (s.nextPacket 11 r.cursor).map (fun x => (x.kind, x.units)) = some (3, 2) ∧ (s.ctx r.repCtx).ready = [] ∧
      ∀ x ∈ s.nextPacket 11 r.cursor, (s.ctx r.repCtx).unitsHeld + frameLen (s.repPacket 11 x) ≤ 1024) ∧
    (let s := (tReplay true 0).setFld (phReplayA 11) phReplayStopped 1
     let r := s.recorder 11
     r.repActive = true ∧ r.drained = true ∧ s.flag (phReplayA 11) phReplayStopped = true ∧ (s.ctx r.repCtx).ready = [] ∧ (s.ctx r.repCtx).cmds = []) := by
  decide +kernel

/-- A started REPLAY_START of the ring at the partition's first HBM byte for context 766. -/
def tRep : Cmd := tK 0x0C03 2 [(0, 8, hbmBase 11), (16, 2, 766)]

/-- A state with a ring header that R388 takes, its CRC given, and the target enabled for recording. -/
def tRepS : State :=
  { ((tS 767 tRep).setFld (phCtxcfg0A 11 62) phCtxcfg0Enabled 1).setFld (phCtxcfg0A 11 62) phCtxcfg0RecordOk 1 with
    mem := kvWrite 0 (kvWrite 0 (kvWrite 0 [] (hbmBase 11) [1, 0, 0, 0, 0, 0, 11]) (hbmBase 11 + 4092) (natLe 4 0xc2e68e1d)) (hbmBase 11 + 65536) [1] }

/-- A function of a number that is reduced first. -/
def forced (x : Nat) (f : Nat → Nat) : Nat :=
  match x with
  | 0 => f 0
  | n + 1 => f (n + 1)

theorem forced_eq (x : Nat) (f : Nat → Nat) : forced x f = f x := by cases x <;> rfl

/-- The CRC with every intermediate value reduced. -/
def crcAcc : List Byte → Nat → Nat
  | [], c => c
  | b :: bs, c => forced (crcByte c b) (crcAcc bs)

theorem crcAcc_eq (bs : List Byte) : ∀ c, crcAcc bs c = bs.foldl crcByte c := by
  induction bs with
  | nil => exact fun _ => rfl
  | cons b bs ih => exact fun c => (forced_eq _ _).trans (ih _)

theorem crc_of (bs : List Byte) (v : Nat) (h : crcAcc bs 0xFFFFFFFF ^^^ 0xFFFFFFFF = v) : crc32c bs = v := by
  rw [crc32c, ← crcAcc_eq, h]

theorem replayCheck_version (s : State) (ctx : Nat) (c : Cmd) (h : leAt (s.peek (par c.packet 0 8) 4096) 0 4 ≠ 1) :
    s.replayCheck ctx c = some .rejectedFormat := by
  unfold State.replayCheck
  simp only [h, ne_eq, not_false_eq_true, true_or, or_true, if_true]

theorem replayCheck_taken (s : State) (ctx : Nat) (c : Cmd) (hd : List Byte) (e : s.peek (par c.packet 0 8) 4096 = hd)
    (h : crc32c (hd.take 4092) = leAt hd 4092 4)
    (k : ¬(leAt hd 0 4 ≠ 1 ∨ leAt hd 7 1 % 8 ≠ 0 ∨ leAt hd 6 1 ≠ partOf ctx ∨ (s.ringAt (par c.packet 0 8) 0).kind ≠ 1))
    (g : ¬((leAt hd 7 1).testBit 4 ∨ 768 ≤ par c.packet 16 2 ∨ partOf (par c.packet 16 2) ≠ partOf ctx ∨ par c.packet 16 2 = ctx ∨
      s.cfg0 (par c.packet 16 2) phCtxcfg0Enabled = 0 ∨ s.cfg0 (par c.packet 16 2) phCtxcfg0RecordOk = 0 ∨
      (s.ctx (par c.packet 16 2)).session ≠ 0 ∨ s.confidential (partOf ctx)))
    (f : ¬((s.recorder (partOf ctx)).recActive ∨ (s.recorder (partOf ctx)).repActive ∨ s.hasCmds (par c.packet 16 2))) :
    s.replayCheck ctx c = none := by
  unfold State.replayCheck
  simp only [e]
  rw [if_neg (fun q => q.elim (fun n => n h) k), if_neg g, if_neg f]

theorem test_hyps_RecordingsAndReplays_refused :
    (tS 767 tRep).body 767 7 .replayStart = some tRep ∧ ∃ st, (tS 767 tRep).replayCheck 767 tRep = some st :=
  ⟨by decide +kernel, .rejectedFormat, replayCheck_version _ _ _ (by decide +kernel)⟩

theorem test_hyps_RecordingsAndReplays_taken : tRepS.body 767 7 .replayStart = some tRep ∧ tRepS.replayCheck 767 tRep = none :=
  ⟨by decide +kernel, replayCheck_taken _ _ _ _ rfl (crc_of _ _ (by decide +kernel)) (by decide +kernel) (by decide +kernel)
    (by decide +kernel)⟩

/-- A slice 9 configured in entry 63, with context 767 in it. -/
def tSlice (s : State) (aborted : Nat) : State :=
  ((s.setFld (fdSlicedirA 63) fdSlicedirSlice 9).setFld (fdSlicedirA 63) fdSlicedirAborted aborted).setFld (phCtxcfg0A 11 63) phCtxcfg0Slice 9

theorem test_hyps_CollectivesStart :
    (∀ q ∈ [(0x0501, Opc.allreduce), (0x0502, .reduce), (0x0503, .bcast), (0x0504, .allgather), (0x0505, .barrier)],
      let c := tK q.1 2 []
      let s := tS 767 c
      s.body 767 7 q.2 = some c ∧ s.replayOf 767 = none ∧ s.sliceEntry (s.ctxSlice 767) = none ∧
        (∀ a, a < 2 → (tSlice s a).body 767 7 q.2 = some c ∧ (tSlice s a).sliceEntry ((tSlice s a).ctxSlice 767) = some 63 ∧
          (tSlice s a).flag (fdSlicedirA 63) fdSlicedirAborted = decide (a = 1))) ∧
    (let c := tK 0x0501 2 []
     let m : CollMember := ⟨767, 7, 1, 0, 1⟩
     let s := { tS 767 c with colls := [⟨63, 0, 0, none, false, [m], [], false, false, none, []⟩] }.advance 0
     (s.ctx 767).cmd 7 = some c ∧ c.is Opc.isColl = true ∧ c.stage = .started ∧ s.replayOf 767 = none ∧
      (s.colls.flatMap (fun q => q.members)).find? (fun m => decide (m.ctx = 767 ∧ m.cseq = 7)) = some m ∧ m.limit ≠ 0 ∧
      c.tStart + m.limit * 1000000 ≤ s.gtime) := by decide +kernel

/-- Whether no codeword is in error and no unit has failed. -/
def Sound (s : State) : Prop := s.cwErr = [] ∧ ∀ d, d < 14 → s.fld (retrainA d) phRetrainPcFailed = 0

theorem Sound.unit {s : State} (h : Sound s) (a : Nat) : s.unitFailed a = false := by
  unfold State.unitFailed
  rw [h.2 (memDie a) (by unfold memDie tierBase; split <;> omega), Nat.zero_testBit]

theorem Sound.like {s t : State} (h : Sound s) (e : t.regs = s.regs) (c : t.cwErr = []) : Sound t :=
  ⟨c, fun d k => by rw [← h.2 d k]; unfold State.fld State.reg; rw [e]⟩

theorem decode_clean (lim : Nat) : (rsDecode lim 0 []).1 = .clean := by unfold rsDecode; rfl

theorem readCw_sound (s : State) (cw src : Nat) (h : Sound s) : s.readCw cw src [] = (s, .clean) := by
  unfold State.readCw
  simp only [h.unit, h.1, kvGet, Bool.false_eq_true, if_false, decode_clean]

theorem writeCw_sound (s : State) (a : Nat) (bs : List Byte) (h : Sound s) : (s.writeCw a bs).bad = false ∧ Sound (s.writeCw a bs).st := by
  unfold State.writeCw
  simp only [h.unit, readCw_sound s _ _ h, Bool.false_eq_true, if_false]
  split
  · exact ⟨rfl, h⟩
  · split
    · exact ⟨rfl, h.like rfl (by simp [h.1, kvSet, kvBelow, kvFrom])⟩
    · exact ⟨rfl, h.like rfl h.1⟩

theorem writeMem_sound (s : State) (a : Nat) (bs : List Byte) (h : Sound s) (p : regionOf a = .tier)
    (r : (List.range 14).any (fun d => decide (s.fld (retrainA d) phRetrainPcFailed ≠ 0)) = false) : (s.writeMem a bs).bad = false := by
  unfold State.writeMem
  simp only [p, r]
  unfold State.writeSplit
  have h1 := writeCw_sound s a (bs.take (min ((64 - a % 64) % 64) bs.length)) h
  refine Bool.or_eq_false_iff.mpr ⟨h1.1, (writeCw_sound _ _ _ ?_).1⟩
  split
  · exact h1.2
  · exact h1.2.like rfl (by simp only [h1.2.1]; rfl)

theorem storeBy_sound (s : State) (o : Option (Nat × Nat)) (a : Nat) (bs : List Byte) (h : Sound s) (q : s.holds = [])
    (p : regionOf a = .tier) (r : (List.range 14).any (fun d => decide (s.fld (retrainA d) phRetrainPcFailed ≠ 0)) = false) :
    (s.storeBy o a bs).bad = false := by
  unfold State.storeBy State.heldIn
  simp only [q, List.flatMap_nil, List.filter_nil, List.foldl_nil, List.isEmpty_nil, if_true]
  exact writeMem_sound s a bs h p r

theorem test_hyps_SessionsOpenAndClose_stored :
    let s := (tLk (tS 800 tOpen)).advance 0
    (s.storeBy (some (800, 7)) (par tOpen.packet 8 8) (s.newSession tOpen.packet).2).bad = false :=
  storeBy_sound _ _ _ _ ⟨by decide +kernel, by decide +kernel⟩ (by decide +kernel) (by decide +kernel) (by decide +kernel)

/-- A module with slice 9 in entry 63: destination 4,095 is this module, 4,094 another; group 255 has every partition as member. -/
def tNet : State :=
  ((((w0.setFld (fdSlicedirA 63) fdSlicedirSlice 9).setFld (fdSlicedirA 63) fdSlicedirPartmask 0xFFF).setFld (fdSlicedirA 63) fdSlicedirInstance 3).setReg
    (fdRouteA 63 511) (BitVec.ofNat 64 (0x46 * 2 ^ 56 + 0x40 * 2 ^ 48))).setFld (fdMcastA 63 127) ⟨32, 32⟩ (2 ^ 19 + 0xFFF * 64)

/-- A state whose last link holds a message to take. -/
def tIn (s : State) (m : Msg) : State := s.setLink 5 { Link.init with inbox := (msgBeads m.head m.data).map (fun b => (b, false)) }

/-- Whether taking a message ends at entry 63 with a state that has a property. -/
def tGot (s : State) (m : Msg) (p : State → Bool) : Bool :=
  match s.screened 5 m with
  | some (s2, some 63, _) => p s2
  | _ => false

/-- Whether taking a message drops it. -/
def tDrop (s : State) (m : Msg) : Bool :=
  match s.screened 5 m with
  | some (_, none, _) => true
  | _ => false

/-- A bead of a kind for partition 11, or for the module (port 15) where the kind asks for it. -/
def tB (kind slice dnode : Nat) (ps : List (Nat × Nat × Nat)) : Bead :=
  tBead kind slice dnode (if kind = 1 ∨ kind = 7 ∨ kind = 8 then 11 else 15) (if kind = 7 then 16 * 11 + 8 + 7 else 255) ps

theorem test_hyps_ScreenedMessages :
    (∀ k ∈ [1, 3, 5, 7, 8, 9, 10], tDrop ((tIn tNet ⟨tB k 8 4095 [], []⟩).advance 0) ⟨tB k 8 4095 [], []⟩ = true ∧ (tB k 8 4095 []).kind = k) ∧
      (∀ k ∈ [1, 3, 7, 8, 9], tGot ((tIn tNet ⟨tB k 9 4094 [], []⟩).advance 0) ⟨tB k 9 4094 [], []⟩ (fun s2 => !s2.forHere 63 (tB k 9 4094 [])) = true) ∧
      (∀ k ∈ [5, 10], tGot (tIn tNet ⟨tB k 9 4095 [], []⟩) ⟨tB k 9 4095 [], []⟩
        (fun s2 => decide (s2.fld (fdTreedefA 63 (255 % 256)) fdTreedefMode = 0)) = true) ∧
      ¬((tNet.sliceEntry 9).any (fun i => tNet.forHere i (tB 1 9 4094 [])) = true) := by decide +kernel

/-- A chunk of 64 bytes for an address of partition 11. -/
def tChunk (a : Nat) : Msg := ⟨tB 1 9 4095 [(8, 8, a), (16, 2, 64)], zeros 64⟩

/-- An acknowledgement of message 4 for mover 7 of tile 23. -/
def tAck : Bead := tB 7 9 4095 [(0, 4, 4)]

/-- A clasp signal for the last clasp. -/
def tSignal : Bead := tB 8 9 4095 [(0, 4, 4095), (8, 8, 1), (16, 1, 1)]

/-- An ABORT bead of an instance. -/
def tAbort (n : Nat) : Bead := tB 12 9 4095 [(2, 1, n)]

theorem test_hyps_RemoteMessagesArrive_chunk :
    let m := tChunk (hbmBase 11 + 0xBC0000000 - 64)
    let bad := tChunk (hbmBase 11 + 0xBC0000000)
    m.head.kind = 1 ∧ (tIn tNet m).filling 11 (bits (leAt m.head.pay 8 8) 0 44) (leAt m.head.pay 16 2) = false ∧
      tGot ((tIn tNet m).advance 0) m (fun s2 => s2.forHere 63 m.head && s2.bezelOpen m.head.dport) = true ∧
      (∀ q, q < 12 → ((tIn tNet m).recorder q).recActive = false) ∧
      tGot ((tIn tNet bad).advance 0) bad (fun s2 => s2.forHere 63 bad.head &&
        !s2.chunkPlace bad.head.dport (bits (leAt bad.head.pay 8 8) 0 44) (leAt bad.head.pay 16 2)) = true ∧
      tGot (tIn (tNet.setFld (phBezelA 11) phBezelState 2) m) m (fun s2 => s2.forHere 63 m.head && !s2.bezelOpen m.head.dport) = true := by
  decide +kernel

theorem test_hyps_RemoteMessagesArrive_recorders (m : Msg) (q : Nat) : (((tIn tNet m).advance 0).recorder q).recActive = false := rfl

theorem test_hyps_RemoteMessagesArrive_ack :
    let s := tNet.setMover 23 7 { Mover.init with sent := [⟨4, 0, 64, 1⟩] }
    tAck.kind = 7 ∧ tAck.group / 16 < 12 ∧ tAck.group / 16 = tAck.dport ∧
      tGot (tIn s ⟨tAck, []⟩) ⟨tAck, []⟩ (fun s2 => s2.forHere 63 tAck && s2.bezelOpen 11 && decide ((s2.mover 23 7).owner.2 = 0) &&
        decide ((s2.mover 23 7).sent.find? (fun q => decide (q.seq = leAt tAck.pay 0 4)) = some ⟨4, 0, 64, 1⟩)) = true ∧
      tGot (tIn (s.setFld (phBezelA 11) phBezelState 2) ⟨tAck, []⟩) ⟨tAck, []⟩ (fun s2 => s2.forHere 63 tAck && !s2.bezelOpen 11) = true := by
  decide +kernel

theorem test_hyps_RemoteMessagesArrive_clasp :
    let s := (((tNet.setFld (phCtxcfg0A 11 63) phCtxcfg0Slice 9).setFld (phCtxcfg0A 11 63) phCtxcfg0Remote 1).setFld (phCtxcfg0A 11 63)
      phCtxcfg0ClaspLo 4095).setFld (phCtxcfg0A 11 63) phCtxcfg0ClaspHi 4095
    tSignal.kind = 8 ∧ tSignal.dport = 11 ∧ leAt tSignal.pay 0 4 % 2 ^ 20 = 4095 ∧
      tGot (tIn s ⟨tSignal, []⟩) ⟨tSignal, []⟩ (fun s2 => s2.forHere 63 tSignal && s2.bezelOpen 11 && s2.claspFrom 11 9 4095 &&
        !(s2.recorder 11).recActive) = true ∧
      tGot (tIn tNet ⟨tSignal, []⟩) ⟨tSignal, []⟩ (fun s2 => s2.forHere 63 tSignal && !s2.claspFrom 11 9 4095) = true := by decide +kernel

theorem test_hyps_RemoteMessagesArrive_abort :
    (∀ n ∈ [2, 3], (tAbort n).kind = 12 ∧ ((tIn tNet ⟨tAbort n, []⟩).advance 0).takeBead 5 (tAbort n) ≠ none) ∧ (tAbort 2).dport = 15 ∧
      (∀ q ∈ ((tIn tNet ⟨tAbort 2, []⟩).advance 0).takeBead 5 (tAbort 2), q.1.sliceEntry (tAbort 2).slice = some 63 ∧
        leAt (tAbort 2).pay 2 1 ≠ q.1.fld (fdSlicedirA 63) fdSlicedirInstance) ∧
      (∀ q ∈ ((tIn (tNet.setFld (fdSlicedirA 63) fdSlicedirAborted 1) ⟨tAbort 3, []⟩).advance 0).takeBead 5 (tAbort 3),
        q.1.sliceEntry (tAbort 3).slice = some 63 ∧ leAt (tAbort 3).pay 2 1 = q.1.fld (fdSlicedirA 63) fdSlicedirInstance ∧
        q.1.flag (fdSlicedirA 63) fdSlicedirAborted = true) := by decide +kernel

/-- A link at a state. -/
def tLink (st : Nat) (l : Link) : State := (w0.setLink 5 l).setFld (lxStatA 5) lxStatState st

/-- A frame with a sequence number and a seal flag, its FCRC not yet set. -/
def tFrame (tail : Nat) (crc : Nat) : List Byte := zeros 576 ++ natLe 4 tail ++ natLe 4 crc

theorem test_hyps_LinkFramesArrive :
    (let s1 := (tLink 2 { Link.init with retry := [(4095, [], 0)], timer := 0 }).advance 0
     s1.linkUp 5 = true ∧ (s1.link 5).retry ≠ [] ∧ (s1.link 5).timer + 1000 * s1.fld (lxCtlA 5) lxCtlRetryUs ≤ s1.gtime) ∧
    (let s1 := (tLink 2 Link.init).advance 0
     s1.linkUp 5 = true ∧ mayReachReg (.hasia 1) (lxCtlA 5) = true ∧ (tFrame 0 1).length = 584) ∧
    ((tLink 3 Link.init).advance 0).fld (lxStatA 5) lxStatState = 3 := by decide +kernel

theorem test_hyps_LinkFramesArrive_bad : crc32c ((tFrame 0 1).take 580) ≠ leAt (tFrame 0 1) 580 4 := by
  rw [crc_of ((tFrame 0 1).take 580) 0xa69c690c (by decide +kernel)]
  decide +kernel

theorem test_hyps_LinkFramesArrive_good :
    crc32c ((tFrame 0 0xa69c690c).take 580) = leAt (tFrame 0 0xa69c690c) 580 4 ∧
      (let s1 := (tLink 2 Link.init).advance 0
       bits (leAt (tFrame 0 0xa69c690c) 576 4) 0 12 = (s1.link 5).rxSeq ∧
        ∀ q ∈ s1.openFrame 5 (tFrame 0 0xa69c690c), s1.hasRoom 5 q.1 = true) ∧
      ((tLink 2 Link.init).advance 0).openFrame 5 (tFrame 0 0xa69c690c) ≠ none :=
  ⟨crc_of _ _ (by decide +kernel), by decide +kernel, by decide +kernel⟩

theorem test_hyps_LinkFramesArrive_sealed :
    crc32c ((tFrame 0x2000001 0x9ae2b343).take 580) = leAt (tFrame 0x2000001 0x9ae2b343) 580 4 ∧
      ((tLink 2 Link.init).advance 0).openFrame 5 (tFrame 0x2000001 0x9ae2b343) = none ∧
      bits (leAt (tFrame 0x2000001 0x9ae2b343) 576 4) 0 12 ≠ (((tLink 2 Link.init).advance 0).link 5).rxSeq :=
  ⟨crc_of _ _ (by decide +kernel), by decide +kernel, by decide +kernel⟩

theorem test_hyps_LinksGoDown :
    (∀ i, i < 64 → (w0.advance 0).fld (fdSlicedirA i) fdSlicedirSlice = 0) ∧
      (∀ st ∈ [1, 2, 3], ((tLink st Link.init).advance 0).fld (lxStatA 5) lxStatState = st) ∧
      (let b := tB 11 0 0 [(0, 1, 3)]
       let s := (tIn w0 ⟨b, []⟩).setFld (lxStatA 5) lxStatState 2
       b.kind = 11 ∧ leAt b.pay 0 1 = 3 ∧ (s.advance 0).takeBead 5 b ≠ none ∧ ∀ q ∈ (s.advance 0).takeBead 5 b, q.1.linkHolds 5 = true) ∧
      ((tLink 2 Link.init).advance 0).domOn (88 + 5) = true ∧ mayReachReg (.hasia 0) (lxCtlA 5) = true ∧ 1240 < 1241 ∧
      (let s1 := (tLink 3 { Link.init with retrainAt := some 5 }).advance 0
       (s1.link 5).retrainAt = some 5 ∧ 5 + 50000000 ≤ s1.gtime) := by decide +kernel

theorem test_hyps_SliceAborts :
    ((tSlice (tS 767 (tK 0x0501 2 [])) 0).advance 0).fld (fdSlicedirA 63) fdSlicedirSlice ≠ 0 ∧
      ((tSlice w0 0).advance 0).flag (fdSlicedirA 63) fdSlicedirAborted = false ∧ ((tSlice w0 1).advance 0).flag (fdSlicedirA 63) fdSlicedirAborted = true ∧
      ((tSlice w0 0).advance 0).ctxSlice 767 = 9 := by decide +kernel

theorem test_hyps_SliceAborts_noKernel (c : Nat) : ∀ k ∈ (((tSlice w0 0).advance 0).ctx c).cmds, k.is Opc.isRun = false := by
  have e : ((tSlice w0 0).advance 0).ctx c = Ctx.init := rfl
  rw [e]
  exact fun k h => nomatch h

/-- A link that may train, with its node number and neighbours, at a state of LX.STAT. -/
def tTrain (st : Nat) (l : Link) : State := ((tLink st l).setFld (lxCtlA 5) lxCtlEnable 1).setFld (fdNodeA 0) fdNodeNodeId 0x111

theorem test_hyps_LinksTrain :
    (let s := (tLink 2 Link.init).setFld (lxLaneA 5 (72 + 71)) lxLaneRole 0
     s.linkUp 5 = true ∧ s.fld (lxLaneA 5 (72 + 71)) lxLaneRole = 0 ∧ (s.setFld (lxLaneA 5 (72 + 70)) lxLaneRole 1).spareLane 5 72 ≠ none ∧
      ((List.range 72).foldl (fun s i => s.setFld (lxLaneA 5 (72 + i)) lxLaneRole 0) s).spareLane 5 72 = none) ∧
    (let s1 := (tTrain 4 Link.init).advance 0
     s1.mayTrain 5 = true ∧ s1.fld (lxStatA 5) lxStatState = 4 ∧ (s1.link 5).tried = 0) ∧
    (let s1 := (tTrain 1 { Link.init with peer := some ((tTrain 1 Link.init).neighbour 0x111 5, 4) }).advance 0
     s1.mayTrain 5 = true ∧ s1.fld (lxStatA 5) lxStatState = 1 ∧ (s1.link 5).peer = some (s1.neighbour 0x111 5, 4) ∧
      s1.peerOk 5 (s1.neighbour 0x111 5, 4) = true ∧ s1.fld (lxStatA 5) lxStatRttNs ≤ 1240) ∧
    (let b := tB 11 0 0 [(0, 1, 1)]
     b.kind = 11 ∧ leAt b.pay 0 1 = 1 ∧ leAt b.pay 9 1 ≠ 2) := by decide +kernel

/-- The last hart of the last tile with a context and registers x1 and x2. -/
def tHart (x1 x2 : Nat) (h : Hart) : State :=
  tPipCtx (((w0.setHart 23 31 { h with x := [(1, x1), (2, x2)] }).setFld (ctOwnA 23) ctOwnMePip 0x3F).setFld (ctOwnA 23) ctOwnMvPip 0xFF)

/-- The last 128 bytes of the last tile store. -/
def tDsc : Nat := tileBase 23 + 0x9FFFF80

/-- That state with the bytes of a descriptor there. -/
def tPush (j : Nat) (ps : List (Nat × Nat × Nat)) : State :=
  { tHart tDsc j Hart.init with mem := kvWrite 0 [] tDsc (ps.foldl (fun b q => putBytes b q.1 (natLe q.2.1 q.2.2)) (zeros 128)) }

/-- A descriptor of an INT8 product of one row, one column and eight terms. -/
def tMeDsc : List (Nat × Nat × Nat) :=
  [(0, 1, 1), (1, 1, 0xBB), (2, 1, 8), (4, 2, 1), (6, 2, 1), (8, 4, 8), (16, 8, tileBase 23), (32, 8, tileBase 23 + 8), (48, 8, tileBase 23 + 16)]

/-- A descriptor of a local move of 64 bytes. -/
def tMvDsc : List (Nat × Nat × Nat) :=
  [(0, 1, 1), (8, 8, tileBase 23), (16, 8, tileBase 23 + 64), (24, 4, 64), (28, 4, 1), (32, 4, 1), (36, 4, 1)]

/-- What the clauses of QueuePushes share of their hypotheses. -/
def tPushOk (s : State) : Bool :=
  s.pipRuns 23 31 && decide (s.pipCtx 23 31 < 800) && aligned 128 ((s.hart 23 31).get 1) && (s.hart 23 31).translates ((s.hart 23 31).get 1) 128 &&
    s.pipReaches 23 (s.pipCtx 23 31) ((s.hart 23 31).get 1) 128 && (s.readMem 0 ((s.hart 23 31).get 1) 128).data.isSome

/-- A descriptor as the state holds it. -/
def tRead (s : State) : List Byte := ((s.readMem 0 tDsc 128).data).getD []

theorem test_hyps_QueuePushes :
    (let s := tHart (tDsc + 1) 0 Hart.init
     s.pipRuns 23 31 = true ∧ s.pipCtx 23 31 < 800 ∧ aligned 128 ((s.hart 23 31).get 1) = false) ∧
    tPushOk (tPush 5 tMeDsc) = true ∧
      (let s := tPush 5 tMeDsc
       let u := (s.readMem 0 tDsc 128).st
       u.mePresent 23 5 = true ∧ u.mePip 23 5 = true ∧ u.meUp 23 5 = true ∧ u.meCheck 23 767 (tRead s) = 0 ∧ (u.me 23 5).queue.length < 16 ∧
        (let full := u.setMe 23 5 { Me.init with queue := List.replicate 16 (zeros 134) }
         full.meCheck 23 767 (tRead s) = 0 ∧ 16 ≤ (full.me 23 5).queue.length)) ∧
      (let s := tPush 5 []
       tPushOk s = true ∧ (s.readMem 0 tDsc 128).st.meCheck 23 767 (tRead s) = 1) ∧
      (tPushOk (tPush 6 []) = true ∧ 6 ≤ ((tPush 6 []).hart 23 31).get 2) ∧
      (let s := (tPush 5 tMeDsc).setFld (ctOwnA 23) ctOwnMePip 0
       tPushOk s = true ∧ (s.readMem 0 tDsc 128).st.mePresent 23 5 = true ∧ (s.readMem 0 tDsc 128).st.mePip 23 5 = false) ∧
      (let s := tPush 7 tMvDsc
       let u := (s.readMem 0 tDsc 128).st
       tPushOk s = true ∧ u.mvPip 23 7 = true ∧ u.mvCheck 23 767 (tRead s) = 0 ∧ (u.mover 23 7).queue.length < 32 ∧
        (let full := u.setMover 23 7 { Mover.init with queue := List.replicate 32 (zeros 134) }
         full.mvCheck 23 767 (tRead s) = 0 ∧ 32 ≤ (full.mover 23 7).queue.length)) ∧
      (let s := tPush 7 []
       tPushOk s = true ∧ (s.readMem 0 tDsc 128).st.mvCheck 23 767 (tRead s) = 1) ∧
      8 ≤ ((tPush 8 []).hart 23 31).get 2 ∧ ((tPush 7 tMvDsc).setFld (ctOwnA 23) ctOwnMvPip 0).mvPip 23 7 = false := by decide +kernel

theorem test_hyps_QueuePushes_plain (j : Nat) (ps : List (Nat × Nat × Nat)) : (tPush j ps).Plain := ⟨rfl, rfl⟩

/-- The state with a context that may use the last clasp. -/
def tClasp (x1 x2 : Nat) (h : Hart) : State :=
  ((tHart x1 x2 h).setFld (phCtxcfg0A 11 63) phCtxcfg0ClaspLo 4095).setFld (phCtxcfg0A 11 63) phCtxcfg0ClaspHi 4095

theorem test_hyps_ClaspInstructions :
    (let s1 := (tClasp 4094 0 Hart.init).advance 0
     s1.pipRuns 23 31 = true ∧ s1.pipCtx 23 31 < 800 ∧ s1.pipClasp 23 (s1.pipCtx 23 31) (bits ((s1.hart 23 31).get 1) 0 20) = false) ∧
    (let s1 := (tClasp 4095 0 Hart.init).advance 0
     s1.pipClasp 23 767 (bits ((s1.hart 23 31).get 1) 0 20) = true ∧ bits ((s1.hart 23 31).get 2) 0 44 ≤ s1.ctxClasp 767 4095 ∧
      (s1.recorder (partOf 767)).recActive = false ∧ (s1.recorder (partOf 767)).repActive = false) ∧
    (let s1 := (tClasp 4095 1 Hart.init).advance 0
     s1.pipRuns 23 31 = true ∧ s1.pipClasp 23 767 (bits ((s1.hart 23 31).get 1) 0 20) = true ∧
      s1.ctxClasp 767 4095 < bits ((s1.hart 23 31).get 2) 0 44) ∧
    (let s1 := (tClasp 0 0 { Hart.init with wait := some ⟨1, 4095, 1, 0, 1⟩ }).advance 0
     (s1.hart 23 31).wait = some ⟨1, 4095, 1, 0, 1⟩ ∧ 0 + 1000 * 1 ≤ s1.gtime) := by decide +kernel

/-- A state whose context 767 counts. -/
def tCounts (x1 : Nat) : State := (tHart x1 0 Hart.init).setCtx 767 { Ctx.init with cntOn := true }

theorem test_hyps_PipEventsAndAccesses :
    ((tHart 32 0 Hart.init).pipRuns 23 31 = true ∧ 31 < ((tHart 32 0 Hart.init).hart 23 31).get 1 ∧ ((tHart 31 0 Hart.init).hart 23 31).get 1 ≤ 31 ∧
      evcAssigned (32 * 23 + 31) = true ∧ evcIsLevel (32 * 23 + 31) = false) ∧
    ((tHart 0 0 Hart.init).ctx 767).cntOn = false ∧
    (((tCounts (tDsc + 8)).ctx 767).cntOn = true ∧ (tCounts (tDsc + 8)).pipCtx 23 31 = 767 ∧ aligned 128 (((tCounts (tDsc + 8)).hart 23 31).get 1) = false) ∧
    (let s := tCounts tDsc
     aligned 128 ((s.hart 23 31).get 1) = true ∧ (s.hart 23 31).translates tDsc 128 = true ∧ inTileStore tDsc = true ∧ s.pipReaches 23 767 tDsc 128 = true) ∧
    (let s := (tHart 0 0 Hart.init).setHart 23 31 { Hart.init with job := some (767, 7), args := zeros 8, x := [(11, 4096)] }
     s.pipRuns 23 31 = true ∧ (s.hart 23 31).job.isSome = true ∧ (s.hart 23 31).get 11 ≤ 4096 ∧ 4096 + 8 ≤ (s.hart 23 31).get 11 + (s.hart 23 31).args.length) ∧
    ((tHart 0 0 Hart.init).hart 23 31).job = none ∧ (tHart 0 0 Hart.init).pipReaches 23 767 (tileBase 22 + 0xA000000 - 4) 8 = false ∧
    (w0.domOn 96 = true ∧ 64 ≠ 0 ∧ 64 ≤ 64 ∧ (zeros 64).length = 64 ∧ regionOf 0x3F000000000 = .mgmt ∧
      hbmBase 11 < 0x30000000000 ∧ w0.memWay (hbmBase 11) 64 = .go ∧ w0.memWay (0x1E000000000 - 63) 64 = .fault none) := by decide +kernel

theorem test_hyps_PipEventsAndAccesses_plain : (tCounts tDsc).Plain ∧ (tHart 0 0 Hart.init).Plain ∧ w0.Plain := ⟨⟨rfl, rfl⟩, ⟨rfl, rfl⟩, ⟨rfl, rfl⟩⟩

/-- The last engine with a state. -/
def tMe (x : Me) : State := w0.setMe 23 5 x

/-- A queue entry: a descriptor with its context and CSEQ. -/
def tEntry (ps : List (Nat × Nat × Nat)) : List Byte := ps.foldl (fun b q => putBytes b q.1 (natLe q.2.1 q.2.2)) (entryOf (zeros 128) 767 7)

theorem test_hyps_EngineDescriptors :
    (let s := tMe { Me.init with queue := [tEntry tMeDsc] }
     (s.me 23 5).queue = tEntry tMeDsc :: [] ∧ s.mePresent 23 5 = true ∧ (s.me 23 5).cur = none ∧ (s.me 23 5).rstAt = none ∧ s.meUp 23 5 = true ∧
      s.collRunning (23 / 2) = false ∧ ((tBusyColl (tK 0x0601 1 [])).setMe 23 5 { Me.init with queue := [tEntry tMeDsc] }).collRunning (23 / 2) = true) ∧
    (let s := tMe { Me.init with cur := some (tEntry tMeDsc) }
     (s.me 23 5).cur = some (tEntry tMeDsc) ∧ (s.me 23 5).rstAt = none ∧ s.meUp 23 5 = true ∧ dscFlag (tEntry tMeDsc) 0 = false ∧
      (s.me 23 5).chain.any (fun c => chainSame c (tEntry tMeDsc)) = false) ∧
    (let d := tEntry (tMeDsc ++ [(3, 1, 3)])
     let s := tMe { Me.init with cur := some d }
     (s.me 23 5).cur = some d ∧ dscFlag d 0 = true ∧ dscFlag d 1 = true) ∧
    (let s := w0.setFld (ctOwnA 23) ctOwnPend 32
     (s.fld (ctOwnA 23) ctOwnPend).testBit 5 = true ∧ s.meEmpty 23 5 = true ∧
      (s.setMe 23 5 { Me.init with queue := [tEntry []] }).meEmpty 23 5 = false) := by decide +kernel

/-- The last mover with a state. -/
def tMv (x : Mover) : State := w0.setMover 23 7 x

theorem test_hyps_MoverDescriptors :
    (let d := tEntry tMvDsc
     let s := tMv { Mover.init with queue := [d] }
     (s.mover 23 7).queue = d :: [] ∧ (s.mover 23 7).cur = none ∧ (s.mover 23 7).owner = (0, 0) ∧ s.domOn (3 * 23 + 2) = true ∧
      dsc d 0 1 ≠ 3 ∧ dsc d 0 1 ≠ 4 ∧ (dsc d 1 1).testBit 2 = false) ∧
    (let d := tEntry tMvDsc
     let s1 := (tMv { Mover.init with cur := some d }).advance 0
     (s1.mover 23 7).cur = some d ∧ (s1.mover 23 7).cut = false ∧ (s1.mover 23 7).pos < (dscXfer d).rows * (dscXfer d).dlen ∧
      (dsc d 1 1).testBit 2 = false ∧ ((tMv { Mover.init with cur := some d, cut := true }).mover 23 7).cut = true ∧
      (dsc (tEntry (tMvDsc ++ [(1, 1, 4)])) 1 1).testBit 2 = true ∧
      (dscXfer d).rows * (dscXfer d).dlen ≤ ((tMv { Mover.init with cur := some d, pos := 64 }).mover 23 7).pos ∧
      ((tMv { Mover.init with cur := some d, sent := [⟨0, 0, 64, 1⟩] }).mover 23 7).sent ≠ []) ∧
    (let k : Sent := ⟨4, 0, 64, 1⟩
     let s1 := (tMv { Mover.init with cur := some (tEntry tMvDsc), sent := [k] }).advance 0
     (s1.mover 23 7).sent.find? (fun q => decide (q.seq = 4 ∧ q.time + 1000 * q.limit ≤ s1.gtime)) = some k ∧ (s1.mover 23 7).cut = false ∧
      (s1.mover 23 7).owner.2 = 0 ∧ (s1.mover 23 7).cur = some (tEntry tMvDsc)) ∧
    (let k : Sent := ⟨4, 0, 64, 1⟩
     let s1 := ((tS 767 (tK 0x0101 3 [])).setMover 23 7 { Mover.init with sent := [k], owner := (767, 8) }).advance 0
     (s1.mover 23 7).sent.find? (fun q => decide (q.seq = 4 ∧ q.time + 1000 * q.limit ≤ s1.gtime)) = some k ∧ (s1.mover 23 7).owner.2 ≠ 0 ∧
      (s1.ctx (s1.mover 23 7).owner.1).cmd ((s1.mover 23 7).owner.2 - 1) = some (tK 0x0101 3 []) ∧ (tK 0x0101 3 []).fault ≠ 5) := by decide +kernel

theorem test_hyps_MoverDescriptors_plain (x : Mover) : (tMv x).Plain := ⟨rfl, rfl⟩

theorem test_hyps_TileUnitResets :
    (∀ a ∈ [pipCtlA 23 31, ctRstA 23, mvCtlA 23 7, mvFaultA 23 7, meFaultA 23 5], (w0.advance 0).tileReg 23 (.steward 11) a = true) ∧
      (w0.advance 0).hartPresent 23 31 = true ∧ ((w0.advance 0).hart 23 31).rstAt = none ∧ ((w0.advance 0).hart 23 31).dirty = [] ∧
      (let s1 := (w0.setHart 23 31 { Hart.init with rstAt := some 5, dirty := [(hbmBase 11, zeros 64)] }).setFld (retrainA 11) phRetrainPcActive (2 ^ 32 - 1)
       ((s1.advance 0).hart 23 31).rstAt = some 5 ∧ 5 + 50000 ≤ (s1.advance 0).gtime ∧
        (((s1.advance 0).hart 23 31).dirty.any (fun d => (s1.advance 0).unitHeld d.1)) = true ∧
        ((s1.advance 0).hart 23 31).dirty.all (fun d => (s1.advance 0).unitHeld d.1) = true) ∧
      (w0.advance 0).flag (ctRstA 23) (grpBusy 1) = false ∧
      (let s1 := ((tMe { Me.init with rstAt := some 5 }).setFld (ctRstA 23) (grpBusy 1) 1).advance 0
       s1.flag (ctRstA 23) (grpBusy 1) = true ∧ 5 ∈ s1.grpMes 23 1 ∧
        ∀ m ∈ s1.grpMes 23 1, ∀ t0 ∈ (s1.me 23 m).rstAt, t0 + 2000000 ≤ s1.gtime) ∧
      (let s1 := ((tMe { Me.init with rstAt := some 100000000000000 }).setFld (ctRstA 23) (grpBusy 1) 1).advance 0
       s1.flag (ctRstA 23) (grpBusy 1) = true ∧ ∃ m ∈ s1.grpMes 23 1, ∃ t0 ∈ (s1.me 23 m).rstAt, ¬(t0 + 2000000 ≤ s1.gtime)) := by decide +kernel

theorem test_hyps_TileStoreKeepsItsCode :
    w0.tileReg 23 (.hasia 0) (tsEccA 23) = true ∧ 23 < 24 ∧ 39 < 40 ∧ w0.domOn (3 * 23 + 2) = true ∧
      kvGet 0 ({ w0 with tsScrub := [(40 * 23 + 39, 16383)] }).tsScrub (40 * 23 + 39) = 16383 := by decide +kernel

theorem test_hyps_MainMemoryAccesses :
    (let a := hbmBase 11 + 0xBC0000000 - 1
     inMain a = true ∧ w0.memOn (memDie a) = true ∧ w0.unitFailed (64 * (a / 64)) = false ∧
      (w0.setFld (memcfgA (memDie a)) phMemcfgScrubEn 1).flag (memcfgA (memDie a)) phMemcfgScrubEn = true ∧ a % 64 + (zeros 1).length ≤ 64) ∧
      ∀ d, d < 14 → w0.fld (retrainA d) phRetrainPcFailed = 0 := by decide +kernel

theorem test_hyps_MemoryUnitsHoldAndRetrain :
    (w0.memOn 13 = true ∧ w0.retraining 13 31 = false ∧ ((w0.advance 0).memOn 13 = true ∧ (w0.advance 0).retraining 13 31 = false) ∧
      (∀ u, u < 32 → (w0.fld (retrainA 13) phRetrainPcActive).testBit u = true → w0.retraining 13 u = true)) ∧
      ({ w0 with retrain := [(32 * 13 + 31, 6)] }).retraining 13 31 = true ∧
      mayReachReg .host (eccstatA 13) = true ∧ mayReachReg (.steward 11) (uelogA 11) = true := by decide +kernel

theorem test_hyps_MemoryUnitsHoldAndRetrain_harts (h : Nat) :
    (w0.hart (h / 32) (h % 32)).dirty = [] ∧ (({ w0 with retrain := [(32 * 13 + 31, 6)] } : State).hart (h / 32) (h % 32)).dirty = [] := ⟨rfl, rfl⟩

theorem test_hyps_ZeroFillsComplete :
    kvGet none (({ w0 with fills := [(895, some 5), (1024 + 11, some 5)] } : State).advance 0).fills 895 ≠ none ∧
      kvGet none (({ w0 with fills := [(895, some 5), (1024 + 11, some 5)] } : State).advance 0).fills (1024 + 11) ≠ none := by decide +kernel

/-- A reduction chunk on its way up, of one chunk of collective 0. -/
def tRed (flags : Nat) : Msg := ⟨tB 3 9 4095 [(35, 1, flags)], []⟩

theorem test_hyps_ReductionsArrive :
    (tRed 0).head.kind = 3 ∧ leAt (tRed 0).head.pay 32 1 ≠ 4 ∧ (leAt (tRed 0).head.pay 35 1).testBit 1 = false ∧
      tGot ((tIn tNet (tRed 0)).advance 0) (tRed 0) (fun s2 => s2.forHere 63 (tRed 0).head &&
        !((s2.coll 63 (s2.collNum 63)).meet (payRef (tRed 0).head.pay)).1.mism) = true ∧
      (let f : FoldIn := ⟨63, 0, 0, 0, zeros 64, []⟩
       let s1 := ({ tNet with folds := [f] } : State).advance 0
       (s1.folds.filter (fun f => decide (f.entry = 63 ∧ f.coll = 0 ∧ f.chunk = 0))).length = 1 ∧ s1.foldNeed 63 (s1.coll 63 0).group = 0 ∧
        (tNet.folds.filter (fun f => decide (f.entry = 63 ∧ f.coll = 0 ∧ f.chunk = 0))).length = 0 ∧
        (let s2 := ({ tNet with folds := [f], colls := [⟨63, 0, 255, none, false, [], [], false, false, none, []⟩] } : State).advance 0
         1 < s2.foldNeed 63 (s2.coll 63 0).group)) ∧
      (let m : Msg := ⟨tB 5 9 4095 [], []⟩
       m.head.kind = 5 ∧ tGot ((tIn tNet m).advance 0) m (fun s2 => (s2.groupEntry 63 (m.head.group % 256)).testBit (6 + 11) &&
        (s2.coll 63 (s2.nextOf 63)).members.isEmpty && (s2.coll 63 (s2.nextOf 63)).ref.isNone) = true) := by decide +kernel

/-- A collective of entry 63 with a member. -/
def tColl (tray : Bool) (rel : Option Nat) : Coll := ⟨63, 0, 255, none, false, [⟨767, 7, 1, 0, 1⟩], [], false, tray, rel, []⟩

theorem test_hyps_BarriersReportAndRelease :
    (let b := tB 9 9 4095 [(2, 1, 255)]
     b.kind = 9 ∧ tGot ((tIn tNet ⟨b, []⟩).advance 0) ⟨b, []⟩ (fun s2 => s2.forHere 63 b && (s2.coll 63 (s2.collNum 63)).ref.isNone &&
      (s2.groupEntry 63 (leAt b.pay 2 1)).testBit (6 + 11) && (s2.coll 63 (s2.collNum 63)).members.all (fun k => decide (partOf k.ctx ≠ 11))) = true) ∧
    (let b := tB 10 9 4095 [(3, 1, 1)]
     b.kind = 10 ∧ leAt b.pay 3 1 = 1 ∧ tGot ((tIn tNet ⟨b, []⟩).advance 0) ⟨b, []⟩ (fun _ => true) = true) ∧
    (let b := tB 10 9 4095 [(8, 8, 100000000000000)]
     let s := (tIn tNet ⟨b, []⟩).setFld gtDiscstatA gtDiscstatDisciplined 1
     leAt b.pay 3 1 ≠ 1 ∧ (s.advance 0).gtime ≤ leAt b.pay 8 8 ∧
      tGot (s.advance 0) ⟨b, []⟩ (fun s2 => (s2.replicate 63 5 ⟨b, []⟩ false).disciplined) = true ∧ leAt (tB 10 9 4095 []).pay 8 8 < (s.advance 0).gtime) ∧
    (let s1 := ({ tNet with colls := [tColl false (some 5)] } : State).advance 0
     s1.colls.find? (fun k => decide (k.entry = 63) && !k.tray && k.release.any (fun t => decide (t ≤ s1.gtime))) = some (tColl false (some 5))) ∧
    (let s1 := ({ tNet with colls := [tColl true none] } : State).advance 0
     s1.pins.traySync = false ∧ s1.colls.find? (fun k => k.tray && k.release.isNone) = some (tColl true none)) ∧
    (let s1 := ({ tNet with colls := [tColl true (some 5)] } : State).advance 0
     s1.colls.find? (fun k => k.tray && k.release.any (fun t => decide (t + 200 ≤ s1.gtime))) = some (tColl true (some 5))) := by decide +kernel

/-- A TIME bead with DEPTH 62, LOADED and an echo. -/
def tTime : Bead := tB 11 0 0 [(0, 1, 4), (8, 8, 1000), (16, 8, 400), (24, 8, 600), (32, 1, 62), (33, 1, 1)]

/-- A module that has not been ready since its start, with its last link up. -/
def tCold (m : Msg) : State :=
  (({ tIn w0 m with boot := Boot.init }.setFld (lxStatA 5) lxStatState 2).setFld (fdNodeA 0) fdNodeNodeId 5).setFld gtDisccfgA gtDisccfgMaster 4

theorem test_hyps_TimeBeadsAndReference :
    (((tLink 2 Link.init).advance 0).linkUp 5 = true ∧ (((tLink 2 Link.init).advance 0).link 5).stamps = []) ∧
      (tTime.kind = 11 ∧ leAt tTime.pay 0 1 = 4 ∧ ((tCold ⟨tTime, []⟩).advance 0).takeBead 5 tTime ≠ none) ∧
      ((tIn w0 ⟨tTime, []⟩).advance 0).boot.everReady = true ∧
      (let s1 := (tCold ⟨tTime, []⟩).advance 0
       s1.timeLoaded = false ∧ s1.boot.everReady = false ∧ s1.isMaster = false ∧ s1.linkUp 5 = true ∧
        (∀ n, n < 6 → n ≠ 5 → (s1.link n).timeAd = none) ∧ leAt tTime.pay 32 1 < 63 ∧ b2n ((leAt tTime.pay 33 1).testBit 0) = 1 ∧
        leAt tTime.pay 16 8 ≠ 0) ∧
      (let s1 := ((tLink 2 { Link.init with timeAd := some (0, 1, 0, 99999999900000) }).setFld gtDiscsrcA gtDiscsrcParent 5).advance 0
       s1.fld gtDiscsrcA gtDiscsrcParent = 5 ∧ (s1.link 5).timeAd = some (0, 1, 0, 99999999900000) ∧ 99999999900000 + 100000 ≤ s1.gtime) ∧
      (let s1 := ((tLink 2 { Link.init with timeAd := some (0, 1, 0, 99999999900001) }).setFld gtDiscsrcA gtDiscsrcParent 5).advance 0
       s1.gtime < 99999999900001 + 100000) ∧
      (let s1 := (({ tLink 1 { Link.init with tried := 5 } with boot := Boot.init }.setFld (fdNodeA 0) fdNodeNodeId 5).setFld gtDisccfgA gtDisccfgMaster 5).advance 0
       s1.isMaster = true ∧ s1.timeLoaded = false ∧ (s1.link 5).tried ≠ 0 ∧ (s1.link 5).tried + 1000000000 ≤ s1.gtime ∧
        ∀ n, n < 6 → (s1.link n).timeAd = none) ∧
      (w0.setFld gtRefstatA gtRefstatHoldover 0).flag gtRefstatA gtRefstatHoldover = false ∧
      ((w0.setFld gtRefstatA gtRefstatHoldover 1).advance 0).flag gtRefstatA gtRefstatHoldover = true := by decide +kernel

/-- The witness base without the tile domains. -/
def tDark : State := { w0 with domains := (List.range 28).map (fun i => (72 + i, true)) }

theorem test_hyps_PowerLoops :
    ((tDark.advance 0).domOn (72 + 11) = true ∧ (tDark.advance 0).tilesOn 11 = false ∧ (w0.advance 0).tilesOn 11 = true ∧
      ((w0.advance 0).pwr 11).descend = false ∧ (w0.advance 0).hasiaUp = true) ∧
    (let s1 := ({ w0 with mgmt := { w0.mgmt with cycleAt := 99999999000001 } } : State).advance 0
     s1.hasiaUp = true ∧ s1.gtime < s1.mgmt.cycleAt + 1000000) ∧
    (let s1 := (({ w0 with mgmt := { w0.mgmt with cycleAt := 99999999000000 } } : State).setFld hmRoleA hmRoleStandbyOk 1).advance 0
     s1.hasiaUp = true ∧ s1.mgmt.cycleAt + 1000000 ≤ s1.gtime ∧ s1.mgmt.live = [] ∧ s1.mgmt.requests = [] ∧ s1.mgmt.sent = none ∧
      s1.standbyUp = true ∧ s1.flag hmRoleA hmRoleStandbyOk = true) ∧
    (w0.setFld hmPwrcfgA hmPwrcfgOp 4).fld hmPwrcfgA hmPwrcfgOp = 4 ∧
    ((w0.advance 0).mgmt.wearAt + 86400000000000 ≤ (w0.advance 0).gtime) ∧
    (let s1 := (((w0.setFld hmPwrstatA hmPwrstatEmergCool 1).setFld (gtSpeedA 51) gtSpeedJunc 150).setFld (gtSpeedA 51) gtSpeedValid 1).advance 0
     s1.flag hmPwrstatA hmPwrstatEmergCool = true ∧ s1.anyDie (s1.fld hmPwrcfgA hmPwrcfgShedC) = true ∧ s1.modPower.shed = [] ∧
      bits (s1.fld hmShedordA hmShedordOrder) 0 4 < 12 ∧ s1.isShed (bits (s1.fld hmShedordA hmShedordOrder) 0 4) = false) ∧
    (let s1 := ({ w0 with modPower := { w0.modPower with shed := [3, 11] } } : State).advance 0
     s1.flag hmPwrstatA hmPwrstatEmergCool = false ∧ s1.anyDie 100 = false ∧ s1.modPower.hotAt + 1000000000 ≤ s1.gtime ∧
      s1.modPower.shedAt + 100000000 ≤ s1.gtime ∧ s1.modPower.shed = [3] ++ [11]) := by decide +kernel

/-- The witness base with a module power state. -/
def tPw (f : ModPower → ModPower) : State := { w0 with modPower := f w0.modPower }

theorem test_hyps_EmergencyInput :
    (let s1 := (tPw (fun m => { m with overPower := true, overAt := 99999990000001 })).advance 0
     s1.modPower.overPower = true ∧ s1.gtime < s1.modPower.overAt + 10000000) ∧
    (let s1 := (tPw (fun m => { m with overPower := true, overAt := 99999990000000 })).advance 0
     s1.modPower.overPower = true ∧ s1.modPower.overAt + 10000000 ≤ s1.gtime) ∧
    (w0.advance 0).modPower.pwrlim = false ∧
    (let s1 := (tPw (fun m => { m with pwrlim := true, pwrlimAt := 99999980000001 })).advance 0
     s1.hasiaUp = true ∧ s1.modPower.pwrlim = true ∧ s1.modPower.assumed = false ∧ s1.flag hmTrayrptA hmTrayrptShelfLoss = false ∧
      s1.flag hmTrayrptA hmTrayrptCoolLoss = false ∧ s1.gtime < s1.modPower.pwrlimAt + 20000000) ∧
    (let s1 := (tPw (fun m => { m with pwrlim := true, pwrlimAt := 99999980000000 })).advance 0
     s1.hasiaUp = true ∧ s1.modPower.pwrlim = true ∧ s1.modPower.assumed = false ∧ s1.modPower.pwrlimAt + 20000000 ≤ s1.gtime) ∧
    (let s1 := (tPw (fun m => { m with emerg := true, pwrlim := true })).advance 0
     s1.modPower.emerg = true ∧ s1.modPower.overPower = false ∧ s1.modPower.pwrlim = true) ∧
    (let s1 := (tPw (fun m => { m with emerg := true, pwrlimAt := 99999990000000 })).advance 0
     s1.modPower.emerg = true ∧ s1.modPower.overPower = false ∧ s1.modPower.pwrlim = false ∧ s1.modPower.pwrlimAt + 10000000 ≤ s1.gtime) ∧
    w0.mgmtWriter .host = false ∧ w0.mgmtWriter .tray = true := by decide +kernel

theorem test_hyps_KeepalivesAndHeartbeats :
    ((w0.advance 0).domOn (72 + 11) = true ∧ (w0.advance 0).activeDie = some 0 ∧ (w0.advance 0).activeDie ≠ some 1 ∧
      ((w0.advance 0).pwr 11).keep + 2000000000 ≤ (w0.advance 0).gtime ∧ (w0.advance 0).modPower.trayHb + 5000000000 ≤ (w0.advance 0).gtime ∧
      (w0.advance 0).mgmtWriter (.hasia 0) = true ∧ (w0.advance 0).hasiaUp = true) ∧
    (let s1 := (w0.setPwr 11 { Power.init with keep := 99998000000001 }).advance 0
     s1.gtime < (s1.pwr 11).keep + 2000000000) ∧
    (let s1 := (tPw (fun m => { m with trayHb := 99995000000001 })).advance 0
     s1.gtime < s1.modPower.trayHb + 5000000000) := by decide +kernel

/-- The witness base with pins. -/
def tPin (f : Pins → Pins) : State := { w0 with pins := f w0.pins }

theorem test_hyps_SupplyAndSideband :
    (w0.running = true ∧ (w0.advance 0).pins.pwrGood = true ∧ 59500 < 59501 ∧ 36000 ≤ 39999 ∧ (tPin (fun p => { p with v48 := false })).pins.v48 = false ∧
      (w0.advance 0).pins.pwrEn = true ∧ (w0.advance 0).mayStart = false ∧ ((tPin (fun p => { p with pwrGood := false })).advance 0).mayStart = true) ∧
    (let s1 := (tPin (fun p => { p with pwrGood := false })).advance 0
     s1.pins.v48 = true ∧ s1.pins.present = true ∧ s1.modPower.trip = none ∧ s1.boot.stopped = false ∧ s1.pins.pwrGood = false ∧
      s1.pins.forceOffN = true ∧ s1.boot.lowAt = 0) ∧
    (let s1 := (tPin (fun p => { p with pwrGood := false, forceOffN := false })).advance 0
     s1.pins.forceOffN = false ∧ s1.pins.pwrEn = true ∧ s1.pins.pwrGood = false) ∧
    (let s1 := ({ w0 with boot := { w0.boot with held := 2 } } : State).advance 0
     s1.pins.resetN = true ∧ s1.boot.held ≠ 0) ∧
    (let s1 := (tPin (fun p => { p with resetN := false })).advance 0
     s1.pins.resetN = false ∧ s1.boot.held = 0 ∧ s1.hasiaUp = true) ∧
    ((w0.advance 0).hasiaUp = true ∧ (w0.advance 0).boot.held = 0 ∧ (w0.advance 0).running = true ∧ (w0.advance 0).pins.resetN = true) ∧
    (let s1 := (w0.setPwr 11 { Power.init with hostOn := false }).advance 0
     s1.tilesOn 11 = true ∧ s1.onRule 11 = false ∧ (s1.pwr 11).descend = false ∧
      ((w0.setPwr 11 { Power.init with hostOn := false }).setFld hmPwrstatA hmPwrstatShed 2048).isShed 11 = true) ∧
    (let s1 := (tDark.setFld hmRackordA hmRackordRackOn 2048).advance 0
     s1.hasiaUp = true ∧ (List.range 12).find? (fun q => s1.tilesWanted q) = some 11 ∧ s1.modPower.lastOn = 0 ∧
      s1.boot.assayPend.testBit 11 = false) ∧
    ((w0.advance 0).mgmtWriter .host = false ∧ (w0.advance 0).mgmtWriter .tray = true ∧
      bits (65536 * (w0.advance 0).fld hmRackordA hmRackordHdOn + 4095) 16 1 = (w0.advance 0).fld hmRackordA hmRackordHdOn) ∧
    (let s1 := ({ w0 with boot := { w0.boot with timeWait := 5 } } : State).advance 0
     s1.boot.timeWait ≠ 0 ∧ s1.boot.timeWait + 1000000000 * s1.fld hmBootcfgA hmBootcfgTimeWaitS ≤ s1.gtime + 1) ∧
    (let s1 := ({ w0 with boot := { w0.boot with timeWait := 100000000000001 } } : State).advance 0
     s1.gtime + 1 < s1.boot.timeWait + 1000000000 * (s1.setFld hmBootcfgA hmBootcfgTimeWaitS 1).fld hmBootcfgA hmBootcfgTimeWaitS) ∧
    (w0.advance 0).boot.held ≠ 2 ∧ w0.boot.failed = false ∧ ({ w0 with boot := { w0.boot with failed := true } } : State).boot.failed = true := by
  decide +kernel

/-- The witness base with a management state. -/
def tMg (f : Mgmt → Mgmt) : State := { w0 with mgmt := f w0.mgmt }

/-- A state image. -/
def tImage (seq : Nat) : Image := ⟨seq, [], [], ModPower.init, []⟩

theorem test_hyps_HasiaPair :
    (let s1 := (tMg (fun m => { m with sent := some (tImage 7, 5), accepted := 7 })).advance 0
     s1.mgmt.sent = some (tImage 7, 5) ∧ s1.standbyUp = true ∧ (tImage 7).held = [] ∧ s1.mgmt.swapReq = false ∧ 7 = s1.mgmt.accepted) ∧
    (let s1 := ((tMg (fun m => { m with sent := some (tImage 7, 5), swapReq := true })).setFld hmRoleA hmRoleStandbyOk 1).advance 0
     s1.mgmt.accepted = 0 ∧ s1.mgmt.swapReq = true ∧ s1.flag hmRoleA hmRoleStandbyOk = true ∧ s1.mgmt.latch = some 0 ∧ s1.standbyUp = true ∧
      5 + 200000 ≤ s1.gtime) ∧
    (let s1 := ((tMg (fun m => { m with sent := some (tImage 7, 99999999800001) })).setFld hmRoleA hmRoleStandbyOk 1).advance 0
     s1.mgmt.sent = some (tImage 7, 99999999800001) ∧ s1.gtime < 99999999800001 + 200000) ∧
    ((w0.advance 0).activeDie = some 0 ∧ (w0.advance 0).standbyUp = true ∧ ((w0.advance 0).hasia 0).hb + 2020000 ≤ (w0.advance 0).gtime) ∧
    (let s1 := (tMg (fun m => { m with a := ⟨4, 99999997980001, [], false, 0⟩ })).advance 0
     s1.activeDie = some 0 ∧ s1.gtime < (s1.hasia 0).hb + 2020000) ∧
    (let s1 := (tMg (fun m => { m with a := ⟨6, 99999998000001, [], false, 0⟩ })).advance 0
     s1.mgmt.latch = some 0 ∧ (s1.hasia 0).st = 6 ∧ (s1.hasia (1 - 0)).st = 3 ∧ s1.gtime < (s1.hasia 0).hb + 2000000) ∧
    (let s1 := (tMg (fun m => { m with a := ⟨6, 99999998000000, [], false, 0⟩ })).advance 0
     (s1.hasia 0).hb + 2000000 ≤ s1.gtime ∧ s1.mgmt.image = none ∧ s1.mgmt.held = []) ∧
    (let t0 := 13600000000001
     let s1 := (tMg (fun m => { m with b := ⟨6, 0, [t0, t0, t0], false, 0⟩ })).advance 0
     s1.activeDie = some 0 ∧ (s1.hasia (1 - 0)).st = 6 ∧ s1.flag (hmDiestatA (1 - 0)) hmDiestatHeldOff = false ∧
      3 ≤ ((s1.hasia (1 - 0)).restarts.filter (fun t => decide (s1.gtime < t + 86400000000000))).length) ∧
    (let s1 := (tMg (fun m => { m with b := ⟨6, 0, [13600000000000, 13600000000001, 13600000000001], false, 0⟩ })).advance 0
     ((s1.hasia (1 - 0)).restarts.filter (fun t => decide (s1.gtime < t + 86400000000000))).length < 3) ∧
    ((w0.advance 0).mgmtWriter (.hasia 1) = false ∧ (w0.advance 0).mgmtWriter (.hasia 0) = true ∧ (w0.advance 0).flag hmRoleA hmRoleStandbyOk = false ∧
      ((w0.setFld hmRolectlA hmRolectlTakebackEn 0).advance 0).flag hmRolectlA hmRolectlTakebackEn = false) ∧
    (let s1 := (((tMg (fun m => { m with b := ⟨3, 0, [], true, 0⟩, ackRun := 65535 })).setFld hmRolectlA hmRolectlTakebackEn 1).setFld hmRoleA hmRoleStandbyOk 1).advance 0
     s1.activeDie = some 0 ∧ (s1.hasia (1 - 0)).st = 3 ∧ (s1.hasia (1 - 0)).mayReturn = true ∧ s1.flag hmRolectlA hmRolectlTakebackEn = true ∧
      s1.flag hmRoleA hmRoleStandbyOk = true ∧ s1.fld hmRolectlA hmRolectlTakebackCycles ≤ s1.mgmt.ackRun) ∧
    (let s1 := (tMg (fun m => { m with a := ⟨6, 0, [], false, 0⟩, b := ⟨6, 0, [], false, 0⟩ })).advance 0
     s1.mgmt.aoUsed = false ∧ s1.pins.v48 = true ∧ s1.mgmt.a.st ≠ 3 ∧ s1.mgmt.a.st ≠ 4 ∧ s1.mgmt.b.st ≠ 3 ∧ s1.mgmt.b.st ≠ 4 ∧
      max s1.mgmt.a.hb s1.mgmt.b.hb + 10000000000 ≤ s1.gtime) := by decide +kernel

/-- The witness base with a Locket state. -/
def tLo (f : Locket → Locket) : State := { w0 with locket := f w0.locket }

theorem test_hyps_ManagementPort :
    (w0.portUp 3 = true ∧ (w0.advance 0).portUp 3 = true ∧ w0.portUp 4 = true ∧ 0x3F000000000 + 8 * 32 ≤ 0x40000000000 ∧ 0x3F000000000 % 8 = 0) ∧
    ((tMg (fun m => { m with replies := [(4294967295, zeros 64)] })).mgmt.replies.find? (fun q => decide (q.1 = 4294967295 % two32)) =
        some (4294967295, zeros 64) ∧ w0.mgmt.replies.find? (fun q => decide (q.1 = 0 % two32)) = none) ∧
    (w0.advance 0).trayIgnored hmPwrcfgA ((w0.advance 0).reg hmPwrcfgA) = false ∧
    (let p := tPk 0x0B01 32 800 1 []
     64 ≤ p.length ∧ p.length ≤ 2048 ∧ p.length = 64 * frameLen p ∧ frameLen p ≤ (w0.advance 0).free_ 800 ∧
      ((w0.setCtx 800 { Ctx.init with ready := List.replicate 32 p }).advance 0).free_ 800 < frameLen p) ∧
    ({ w0 with dumps := [⟨65535, 25, zeros 8⟩] } : State).dumps.find? (fun d => decide (d.num = 65535)) = some ⟨65535, 25, zeros 8⟩ ∧
    (w0.activeDie = some 0 ∧ w0.activeDie ≠ some 1 ∧ w0.mgmtWriter .tray = true ∧ (w0.advance 0).mgmtWriter .tray = true ∧
      (w0.advance 0).locket.sessions = []) ∧
    (∀ st ∈ [0, 1, 2], (w0.setFld (lkLinkstatA 5) lkLinkstatState st).fld (lkLinkstatA 5) lkLinkstatState = st) := by decide +kernel

theorem test_hyps_ManagementPort_confirmed (key : List Byte) :
    (sha256 key).take 16 = (sha256 key).take 16 ∧ ((tLo (fun l => { l with linkKeys := [(5, key)] })).linkWin 5 15440 16 = zeros 16) := ⟨rfl, by
  have e : (tLo (fun l => { l with linkKeys := [(5, key)] })).linkWin 5 15440 16 = w0.linkWin 5 15440 16 := rfl
  rw [e]; decide +kernel⟩

/-- A state with a source pending at a target, of the given priority; source 4000 is not assigned. -/
def tSrc (src k active : Nat) : State :=
  { ((((w0.setFld (evcSrcstatA src) evcSrcstatPending 1).setFld (evcSrcstatA src) evcSrcstatCount 1).setFld (evcSrccfgA src) evcSrccfgRoute k).setFld
      (evcSrccfgA src) evcSrccfgPrio 15).setFld (evcSrcstatA src) evcSrcstatActive active with evc := [(src, { EvcSrc.init with activeAt := k })] }.setFld
    evcGctlA evcGctlDis 0

/-- A state in which target `k` has a strand of the least size with the given producer index. -/
def tStrand (src k prod ovf : Nat) : State :=
  (((((tSrc src k 0).setFld (evcTgtCfgA k) evcTgtCfgStrandEn 1).setFld (evcTgtCfgA k) evcTgtCfgStrandOvf ovf).setFld (evcTgtProdA k) evcTgtProdProd prod).setFld
    (evcTgtBaseA k) evcTgtBaseBase (hbmBase 11 / 4096))

theorem test_hyps_EventController_calm (s : State) (src k active : Nat) (h : s = tSrc src k active) :
    ∀ e ∈ s.evc, e.2.pendRoute = none ∧ e.2.pendMode = none := by
  subst h
  intro e he
  rcases List.mem_singleton.mp he with rfl
  exact ⟨rfl, rfl⟩

theorem test_hyps_EventController :
    (evcAssigned (32 * 97 + 2) = true ∧ evcIsLevel (32 * 97 + 2) = false ∧ (w0.setFld (evcSrcstatA (32 * 97 + 2)) evcSrcstatCount 255).fld (evcSrcstatA (32 * 97 + 2)) evcSrcstatCount = 255 ∧
      evcAssigned 4095 = false ∧ (tSrc 3104 69 1).flag (evcSrcstatA 3104) evcSrcstatActive = true ∧ ((tSrc 3104 69 1).evSrc 3104).activeAt = 69 ∧
      w0.flag (evcSrcstatA 0) evcSrcstatActive = false) ∧
    (let src := 32 * 96 + 1
     evcIsLevel src = true ∧ src / 32 ≠ 95 ∧ ((w0.setFld (evcSrccfgA src) evcSrccfgMode 0).advance 0).fld (evcSrccfgA src) evcSrccfgMode = 0 ∧
      ((w0.setFld (evcSrccfgA src) evcSrccfgMode 0).advance 0).flag (evcSrcstatA src) evcSrcstatLevel = false) ∧
    ((w0.advance 0).flag (evcTgtCfgA 77) evcTgtCfgStrandEn = false ∧ (w0.advance 0).winner 77 = none) ∧
    (let s1 := (tSrc 3106 69 0).advance 0
     s1.flag (evcTgtCfgA 69) evcTgtCfgStrandEn = false ∧ s1.winner 69 = some 3106 ∧ s1.fld (evcGrpcfgA (3106 / 32)) evcGrpcfgHoldoffUs = 0) ∧
    (let s1 := (tStrand 3106 69 0 0).advance 0
     s1.flag (evcTgtCfgA 69) evcTgtCfgStrandEn = true ∧ s1.winner 69 = some 3106 ∧ s1.fld (evcGrpcfgA (3106 / 32)) evcGrpcfgHoldoffUs = 0 ∧
      s1.flag (evcTgtCfgA 69) evcTgtCfgStrandOvf = false ∧ s1.occupancy 69 + 2 ≤ s1.strandSize 69 ∧
      ∀ d, d < 14 → s1.fld (retrainA d) phRetrainPcFailed = 0) ∧
    (let s1 := (tStrand 3106 69 127 0).advance 0
     s1.winner 69 = some 3106 ∧ s1.flag (evcTgtCfgA 69) evcTgtCfgStrandOvf = false ∧ s1.occupancy 69 + 1 = s1.strandSize 69) ∧
    (let s1 := (tStrand 3106 69 0 1).advance 0
     s1.winner 69 = some 3106 ∧ s1.flag (evcTgtCfgA 69) evcTgtCfgStrandOvf = true) ∧
    (let s1 := ({ w0 with evcHold := [(127, 100000000000002)] } : State).advance 0
     kvGet 0 s1.evcHold 127 ≠ 0 ∧ s1.gtime + 1 < kvGet 0 s1.evcHold 127) ∧
    (let s1 := ({ w0 with evcHold := [(127, 100000000000001)] } : State).advance 0
     kvGet 0 s1.evcHold 127 ≠ 0 ∧ kvGet 0 s1.evcHold 127 ≤ s1.gtime + 1) ∧
    ((w0.advance 0).evcMayWrite (4095 / 32) .host = true ∧ ((w0.setFld (evcGrpcfgA 127) evcGrpcfgLock 1).advance 0).evcMayWrite 127 .host = false) ∧
    (w0.isOwner (.hasia 0) = true ∧ w0.isOwner .tray = false) ∧
    (let src := 32 * 96 + 1
     evcIsLevel src = true ∧ w0.evcMayWrite (src / 32) .host = true ∧ (w0.setFld (evcSrccfgA src) evcSrccfgMode 0).fld (evcSrccfgA src) evcSrccfgMode ≠ 4 ∧
      w0.selected src = false ∧ w0.flag (evcSrcstatA src) evcSrcstatActive = false ∧
      (w0.setFld (evcSrcstatA src) evcSrcstatActive 1).flag (evcSrcstatA src) evcSrcstatActive = true ∧
      127 ≠ (w0.setFld (evcSrccfgA src) evcSrccfgRoute 69).fld (evcSrccfgA src) evcSrccfgRoute ∧
      (w0.setFld (evcSrccfgA src) evcSrccfgRoute 69).selected src = false) := by decide +kernel

theorem test_hyps_EventController_plain : ((tStrand 3106 69 0 0).advance 0).Plain := ⟨rfl, rfl⟩

theorem test_hyps_ConfigurationAndQueues :
    ((w0.advance 0).hasiaUp = true ∧ 4095 < 4096 ∧ 64 % 4 = 0 ∧ (w0.advance 0).fld hmBootA hmBootReady = 0 ∧
      ((w0.setFld hmBootA hmBootReady 3).advance 0).fld hmBootA hmBootReady ≠ 0 ∧ 5 ≠ (w0.advance 0).node) ∧
    ((w0.advance 0).arrives (.steward 11) (phWdogA 10) = false ∧ (∀ p, (w0.advance 0).arrives (.steward p) 0x3F000000000 = false) ∧
      (w0.advance 0).activeDie ≠ some 1 ∧ (w0.advance 0).domOn 84 = true) ∧
    (w0.hasiaUp = true ∧ 1 ≤ ((8 : Word)).toNat % 256 ∧ ((8 : Word)).toNat % 256 ≤ 8 ∧ w0.mcbHeld = false ∧ w0.overlay = []) ∧
    (w0.mgmtWriter .tray = true ∧ (w0.setFld lkStateA lkStateLifecycle 2).fld lkStateA lkStateLifecycle = 2 ∧
      (w0.setFld lkStateA lkStateLifecycle 1).fld lkStateA lkStateLifecycle ≠ 2 ∧ w0.flash.due = false ∧
      ({ w0 with flash := { w0.flash with due := true } } : State).flash.due = true ∧ ({ w0 with flash := { w0.flash with due := true } } : State).mcbHeld = false) ∧
    (w0.domOn (84 + 3) = true ∧ (w0.advance 0).domOn (72 + 11) = true ∧ (w0.bezel 11).resetHold = false ∧ w0.activeDie = some 0 ∧
      (w0.dom 11).level = none ∧ (w0.dom 11).queue.length < 256 ∧ w0.slicesOf 11 = []) := by
  refine ⟨by decide +kernel, ⟨by decide +kernel, fun _ => rfl, by decide +kernel, by decide +kernel⟩, by decide +kernel, by decide +kernel, by decide +kernel⟩

/-- A domain with an open handling. -/
def tDom (d l : Nat) (r : ErrRec) (acting : Bool) (since : Nat) : State :=
  w0.setDom d { Domain.init with level := some l, cause := r, acting := acting, since := since }

theorem test_hyps_FaultsAndTheirHandling :
    (let r : ErrRec := ⟨0x13, 1, 23, 13, 767, 7, 0⟩
     codeKnown r.code = true ∧ (w0.advance 0).domOn (72 + 11) = true ∧ (w0.advance 0).hasiaUp = true ∧ ((w0.advance 0).dom 11).queue.length < 256 ∧
      recLevel r = some 1 ∧ (w0.advance 0).domOpen 11 = false ∧ (∃ q : ErrRec, recLevel q = none ∧ codeKnown q.code = true) ∧
      ((tDom 11 1 r false 0).advance 0).domOpen 11 = true ∧ (((tDom 11 1 r false 0).advance 0).dom 11).level = some 1) ∧
    (let s1 := (tMe { Me.init with cur := some (tEntry []) }).setFld (ctOwnA 23) ctOwnMePip 63
     keyValid (32 * 23 + 5) = true ∧ (s1.advance 0).windowRuns (32 * 23 + 5) = true ∧ (s1.advance 0).keyDomain (32 * 23 + 5) = 11 ∧
      kvGet 0 (s1.advance 0).windows (32 * 23 + 5) + (s1.advance 0).windowOf (32 * 23 + 5) ≤ (s1.advance 0).gtime ∧
      (({ s1 with windows := [(32 * 23 + 5, 100000000000000)] } : State).setFld (phHangA 11) phHangWindowMs 1).gtime <
        100000000000000 + (({ s1 with windows := [(32 * 23 + 5, 100000000000000)] } : State).setFld (phHangA 11) phHangWindowMs 1).windowOf (32 * 23 + 5)) ∧
    (kvGet 0 (w0.advance 0).wdog (2 * 11 + 1) + (w0.advance 0).fld (phWdogA 11) phWdogLimitMs * 1000000 ≤ (w0.advance 0).gtime ∧
      (let s1 := (({ w0 with wdog := [(2 * 11 + 1, 100000000000000)] } : State).setFld (phWdogA 11) phWdogLimitMs 1).advance 0
       s1.gtime < kvGet 0 s1.wdog (2 * 11 + 1) + s1.fld (phWdogA 11) phWdogLimitMs * 1000000)) ∧
    (let s1 := (tDom 25 3 ⟨0x21, 3, 49, 0, 0x3FF, 0, 0⟩ false 0).advance 0
     s1.hasiaUp = true ∧ s1.domOpen 25 = true ∧ (s1.dom 25).acting = false ∧ (s1.dom 25).done = false ∧ (s1.dom 25).level = some 3) ∧
    (let s1 := ({ tDom 25 3 ⟨0x21, 3, 49, 0, 0x3FF, 0, 0⟩ false 0 with captures := [⟨25, 5, []⟩] } : State).advance 0
     s1.captures = [⟨25, 5, []⟩] ∧ (s1.dom 25).level = some 3 ∧ 5 + captureBound 3 ≤ s1.gtime ∧ s1.gtime < 100000000000000 + captureBound 3) ∧
    (let s1 := (tDom 11 0 ⟨0x15, 0, 0xFF, 0, 767, 7, 0⟩ true 5).advance 0
     s1.hubOf 767 = 11 ∧ s1.mayAct (s1.hubOf 767) 0 0x15 = true ∧ (s1.dom (s1.hubOf 767)).cause.ctx = 767 ∧
      (s1.stopCtxUnits 767).unitsWork 767 = false ∧ (s1.dom 11).since + 2000000 ≤ s1.gtime ∧ (s1.dom 11).done = false) ∧
    (let s1 := (tDom 11 0 ⟨0x15, 0, 0xFF, 0, 767, 7, 0⟩ true 99999998000001).advance 0
     s1.domOpen 11 = true ∧ s1.gtime < (s1.dom 11).since + 2000000) ∧
    (let s1 := (tDom 11 1 ⟨0x13, 1, 23, 15, 767, 7, 0⟩ true 5).advance 0
     keyValid (32 * 23 + 15) = true ∧ s1.keyDomain (32 * 23 + 15) = 11 ∧ s1.mayAct 11 1 0x13 = true ∧
      dieKey (s1.dom 11).cause.die (s1.dom 11).cause.unit = some (32 * 23 + 15) ∧ s1.unitCmds (32 * 23 + 15) = []) ∧
    (let s1 := (tDom 25 4 ⟨0x23, 4, 49, 0, 0x3FF, 0, 0⟩ true 5).advance 0
     s1.hasiaUp = true ∧ (s1.dom 25).level = some 4 ∧ (s1.dom 25).acting = true) ∧ (w0.advance 0).domOn 99 = true := by
  refine ⟨⟨by decide +kernel, by decide +kernel, by decide +kernel, by decide +kernel, by decide +kernel, by decide +kernel, ⟨⟨0x25, 0, 0, 0, 0, 0, 0⟩, by decide +kernel⟩, by decide +kernel⟩, by decide +kernel⟩

/-! ### Ill-formed commands: for each check of Instr.wf a command that passes it beside one that it refuses -/

theorem test_wf_1 : ∀ q ∈ ([(.intakeStore 0 0 0 (zeros 1), .intakeStore 18446744073709551616 0 0 (zeros 1)),
    (.intakeStore 0 0 0 (zeros 1), .intakeStore 0 800 0 (zeros 1)),
    (.intakeStore 0 0 0 (zeros 1), .intakeStore 0 0 65536 (zeros 1)),
    (.intakeStore 0 0 0 (zeros 1), .intakeStore 0 0 0 (zeros 0)),
    (.intakeStore 0 0 0 (zeros 1), .intakeStore 0 0 0 (zeros 65)),
    (.intakeAbandon 0 0, .intakeAbandon 0 801),
    (.csbRead 0 0 1, .csbRead 0 0 0),
    (.csbRead 0 0 1, .csbRead 0 0 65),
    (.move 0 0, .move 0 4294967296),
    (.commitSafePoint 0 0, .commitSafePoint 0 65536),
    (.cameoDump 0 0, .cameoDump 0 12),
    (.meqPush 0 0 0 0 0, .meqPush 24 0 0 0 0),
    (.meqPush 0 0 0 0 0, .meqPush 0 32 0 0 0),
    (.meqPush 0 0 0 0 0, .meqPush 0 0 32 0 0),
    (.meqPush 0 0 0 0 0, .meqPush 0 0 0 32 0),
    (.meqPush 0 0 0 0 0, .meqPush 0 0 0 0 32),
    (.pipAccess 0 0 .load 0 0 [], .pipAccess 0 0 .load 18446744073709551616 0 []),
    (.pipAccess 0 0 .load 0 0 [], .pipAccess 0 0 .load 0 65 []),
    (.pipAccess 0 0 .load 0 0 [], .pipAccess 0 0 .load 0 0 (zeros 65)),
    (.pipTrapUnhandled 0 0 0, .pipTrapUnhandled 0 0 256),
    (.pipExit 0 0 0, .pipExit 0 0 18446744073709551616)] : List (Instr × Instr)),
    q.1.wf = true ∧ q.2.wf = false := by decide +kernel

theorem test_wf_2 : ∀ q ∈ ([(.cameoName 0 0 0 0 0 0, .cameoName 0 0 18446744073709551616 0 0 0),
    (.cameoName 0 0 0 0 0 0, .cameoName 0 0 0 0 18446744073709551616 0),
    (.cameoName 0 0 0 0 0 0, .cameoName 0 0 0 0 0 256),
    (.hostAccess false 0 1 (zeros 1), .hostAccess false 0x40000000000 1 (zeros 1)),
    (.meDescriptorStart 0 0, .meDescriptorStart 0 8),
    (.moverDescriptorStart 0 0, .moverDescriptorStart 0 8),
    (.ackTimeout 0 0 0 0, .ackTimeout 0 0 0 4294967296),
    (.pipReset 0 0 0 .host, .pipReset 0 0 0 (.steward 12)),
    (.pipReset 0 0 0 .host, .pipReset 0 0 0 (.hasia 2)),
    (.pipReset 0 0 0 .host, .pipReset 0 0 0 (.context 801)),
    (.meGroupReset 0 0 0 .host false, .meGroupReset 0 0 2 .host false),
    (.unitFaultPop 0 false 0 .host, .unitFaultPop 0 false 8 .host),
    (.tsScrubRow 0 0 [], .tsScrubRow 0 40 []),
    (.tsScrubRow 0 0 [], .tsScrubRow 0 0 [(32, false)]),
    (.memoryRead 0 [], .memoryRead 0 [(77, 0)]),
    (.memoryRead 0 [], .memoryRead 0 [(0, 256)]),
    (.memoryRefresh 0 0, .memoryRefresh 14 0),
    (.memoryRefresh 0 0, .memoryRefresh 0 32),
    (.segmentFillComplete 0 0, .segmentFillComplete 0 896),
    (.pressGroupDispatch 0, .pressGroupDispatch 2),
    (.pressGroupComplete 0 0, .pressGroupComplete 0 16)] : List (Instr × Instr)),
    q.1.wf = true ∧ q.2.wf = false := by decide +kernel

theorem test_wf_3 : ∀ q ∈ ([(.frameReceive 0 0 (zeros 584), .frameReceive 0 6 (zeros 584)),
    (.frameReceive 0 0 (zeros 584), .frameReceive 0 0 (zeros 583)),
    (.frameReceive 0 0 (zeros 584), .frameReceive 0 0 (zeros 585)),
    (.laneSwap 0 false 0, .laneSwap 0 false 72),
    (.linkFullRetrain 0 0 0 false, .linkFullRetrain 0 0 65536 false),
    (.laserFault 0 0, .laserFault 0 2),
    (.msgHead 0 0 ⟨⟨0, zeros 64⟩, []⟩, .msgHead 0 0 ⟨⟨0, zeros 63⟩, []⟩),
    (.msgHead 0 0 ⟨⟨0, zeros 64⟩, []⟩, .msgHead 0 0 ⟨⟨0, zeros 64⟩, zeros 4097⟩),
    (.ack 0 0 ⟨0, zeros 64⟩, .ack 0 0 ⟨0, zeros 65⟩),
    (.sliceAbort 0 0 0 0, .sliceAbort 0 64 0 0),
    (.chunkFold 0 0 0 0, .chunkFold 0 0 4294967296 0),
    (.chunkFold 0 0 0 0, .chunkFold 0 0 0 4294967296),
    (.estimateStep 0 0 ⟨List.replicate 6 0, 0, 0, 0, 0, 0, 0⟩, .estimateStep 0 0 ⟨List.replicate 5 0, 0, 0, 0, 0, 0, 0⟩),
    (.telemetrySample 0 ⟨List.replicate 24 none, 0⟩, .telemetrySample 0 ⟨List.replicate 23 none, 0⟩),
    (.telemetrySample 0 ⟨List.replicate 24 none, 0⟩, .telemetrySample 0 ⟨List.replicate 24 none, 256⟩),
    (.inputVoltageEvent 0 0 0, .inputVoltageEvent 0 65536 0),
    (.inputVoltageEvent 0 0 0, .inputVoltageEvent 0 0 4294967296),
    (.thermalTrip 0, .thermalTrip 52),
    (.trayHeartbeat 0 0 .host, .trayHeartbeat 0 18446744073709551616 .host),
    (.opChange 0, .opChange 8),
    (.tarnishEval 0 0, .tarnishEval 0 65536)] : List (Instr × Instr)),
    q.1.wf = true ∧ q.2.wf = false := by decide +kernel

theorem test_wf_4 : ∀ q ∈ ([(.wearDaily 0 (List.replicate 114 0), .wearDaily 0 (List.replicate 113 0)),
    (.stateImage 0 0 false, .stateImage 0 4294967296 false),
    (.takeover 0 [], .takeover 0 [0, 8]),
    (.regRead 0 1, .regRead 0 0),
    (.regRead 0 1, .regRead 0 33),
    (.regWrite 0 0 [0], .regWrite 0 0 (List.replicate 0 0)),
    (.regWrite 0 0 [0], .regWrite 0 0 (List.replicate 33 0)),
    (.pkt 0 (zeros 64), .pkt 0 (zeros 63)),
    (.pkt 0 (zeros 64), .pkt 0 (zeros 2049)),
    (.reply none, .reply (some 4294967296)),
    (.i3cDynamicAddress 0, .i3cDynamicAddress 128),
    (.dumpRead 0, .dumpRead 65536),
    (.logRead 0, .logRead 3),
    (.linkKeyingSubmit 0 .host, .linkKeyingSubmit 6 .host),
    (.eventOccurrence 0, .eventOccurrence 4096),
    (.claim 0 0, .claim 0 78),
    (.strandConsWrite 0 0, .strandConsWrite 0 4294967296),
    (.holdoffExpire 0 0, .holdoffExpire 0 128),
    (.sourceModeWrite 0 0 0 .host, .sourceModeWrite 0 8 0 .host),
    (.sourceModeWrite 0 0 0 .host, .sourceModeWrite 0 0 256 .host),
    (.routeWrite 0 0 .host, .routeWrite 0 128 .host)] : List (Instr × Instr)),
    q.1.wf = true ∧ q.2.wf = false := by decide +kernel

theorem test_wf_5 : ∀ q ∈ ([(.nodeIdWrite 0 0 4 0, .nodeIdWrite 0 4096 4 0),
    (.nodeIdWrite 0 0 4 0, .nodeIdWrite 0 0 128 0),
    (.nodeIdWrite 0 0 4 0, .nodeIdWrite 0 0 4 4096),
    (.errorRecord 0 0 ⟨0x13, 0, 0, 0, 0, 0, 0⟩, .errorRecord 0 26 ⟨0x13, 0, 0, 0, 0, 0, 0⟩),
    (.errorRecord 0 0 ⟨0x13, 0, 0, 0, 0, 0, 0⟩, .errorRecord 0 0 ⟨256, 0, 0, 0, 0, 0, 0⟩),
    (.errorRecord 0 0 ⟨0x13, 0, 0, 0, 0, 0, 0⟩, .errorRecord 0 0 ⟨0, 5, 0, 0, 0, 0, 0⟩),
    (.errorRecord 0 0 ⟨0x13, 0, 0, 0, 0, 0, 0⟩, .errorRecord 0 0 ⟨0, 0, 256, 0, 0, 0, 0⟩),
    (.errorRecord 0 0 ⟨0x13, 0, 0, 0, 0, 0, 0⟩, .errorRecord 0 0 ⟨0, 0, 0, 256, 0, 0, 0⟩),
    (.errorRecord 0 0 ⟨0x13, 0, 0, 0, 0, 0, 0⟩, .errorRecord 0 0 ⟨0, 0, 0, 0, 1024, 0, 0⟩),
    (.errorRecord 0 0 ⟨0x13, 0, 0, 0, 0, 0, 0⟩, .errorRecord 0 0 ⟨0, 0, 0, 0, 0, 4294967296, 0⟩),
    (.errorRecord 0 0 ⟨0x13, 0, 0, 0, 0, 0, 0⟩, .errorRecord 0 0 ⟨0, 0, 0, 0, 0, 0, 0x40000000000⟩),
    (.hangWindowExpire 0 0, .hangWindowExpire 0 4896),
    (.watchdogMiss 0 0 0, .watchdogMiss 0 0 2),
    (.wdogKick 0 0 0 .host, .wdogKick 0 0 4 .host),
    (.capture 0 0 [], .capture 0 0 [51, 52]),
    (.errqPop 0 .host, .errqPop 26 .host),
    (.abortlogPop 0 .host, .abortlogPop 4 .host),
    (.flashRecovery [], .flashRecovery (List.replicate 3 0)),
    (.ucieLaneRepair 0 0 false, .ucieLaneRepair 0 11 false),
    (.powerDomainFault 0 0, .powerDomainFault 0 100),
    (.speedMonitorUpdate 0 0 0 false, .speedMonitorUpdate 0 65536 0 false)] : List (Instr × Instr)),
    q.1.wf = true ∧ q.2.wf = false := by decide +kernel

theorem test_wf_6 : ∀ q ∈ ([(.speedMonitorUpdate 0 0 0 false, .speedMonitorUpdate 0 0 256 false)] : List (Instr × Instr)),
    q.1.wf = true ∧ q.2.wf = false := by decide +kernel

theorem wf_bundle_of_length (bs : List Byte) (h : 0x1800001 ≤ bs.length) : (Instr.fwStage 0 bs).wf = false := by
  have : below 0x1800001 bs.length = false := by simp only [below, decide_eq_false_iff_not, Nat.not_lt]; exact h
  simp only [Instr.wf, this, Bool.and_false]

theorem test_wf_bundle : (Instr.fwStage 0 (List.replicate 0x1800001 0)).wf = false :=
  wf_bundle_of_length _ (Nat.le_of_eq (List.length_replicate ..).symm)

/-! ### Effects: one step each; the expected values are the spec's tables and worked examples, or worked by hand from its rules -/

/-- Whether a command answers a next state with a property. -/
def gives (i : Instr) (s : State) (p : State → Bool) : Bool :=
  match exec i s with
  | .next t => p t
  | _ => false

/-- A sum of BF16 values, each multiplied by 1. -/
def tSum (ks : List Nat) : Accu :=
  ks.foldl (fun a k => a.add ((decodeElem .bf16 k).mul (decodeElem .bf16 0x3F80))) Accu.zero

/-- spec/03_numerics.md, worked example "Cancellation": every order gives 1, FP32 0x3F80_0000, byte 37 of the partial 0x04. -/
theorem test_cancellation :
    (∀ ks ∈ [[0x4E80, 0x3F80, 0xCE80], [0x4E80, 0xCE80, 0x3F80], [0xCE80, 0x3F80, 0x4E80]],
      roundResult .fp32 ⟨.rne, false, 0⟩ (tSum ks).result = 0x3F800000) ∧
      (tSum [0x4E80, 0x3F80, 0xCE80]).bytes = putBytes (zeros 80) 37 [4] := by decide +kernel

/-- spec/03_numerics.md, worked example "An MXFP4 block product": 5.75, BF16 0x40B8, byte 37 of the partial 0x17. -/
theorem test_mxfp4_block :
    let a := [(0x7, 0x5), (0xB, 0x6), (0x1, 0x4), (0x5, 0x9)].foldl
      (fun a p => a.add ((decodeMx .e2m1 0x81 p.1).mul (decodeMx .e2m1 0x7C p.2))) Accu.zero
    roundResult .bf16 ⟨.rne, false, 0⟩ a.result = 0x40B8 ∧ a.bytes.getD 37 0 = 0x17 := by decide +kernel

/-- spec/03_numerics.md, worked example "Rounding modes on one value": 1 + 2^-8 + 2^-10 = 1029 × 2^-10 and its negative. -/
theorem test_rounding_modes :
    [RMode.rne, .rtz, .rup, .rdn].map (fun m => (roundResult .bf16 ⟨m, false, 0⟩ (.fin 1029 (-10)), roundResult .bf16 ⟨m, false, 0⟩ (.fin (-1029) (-10)))) =
      [(0x3F81, 0xBF81), (0x3F80, 0xBF80), (0x3F81, 0xBF80), (0x3F80, 0xBF81)] ∧
    roundResult .bf16 ⟨.sr, false, 0x9FFFFFFF00000000⟩ (.fin 1029 (-10)) = 0x3F81 ∧
    roundResult .bf16 ⟨.sr, false, 0xA000000000000000⟩ (.fin 1029 (-10)) = 0x3F80 := by decide +kernel

/-- spec/03_numerics.md, worked example "An MX output block": 5.75, −1.25 and 2^-20 to E4M3. -/
theorem test_mx_output :
    let xs := [Exact.fin 23 (-2), .fin (-5) (-2), .fin 1 (-20)] ++ List.replicate 29 (.fin 0 0)
    let go := fun m => roundMxBlock .e4m3 false xs (List.replicate 32 ⟨m, false, 0⟩)
    (go .rne).1 = 0x79 ∧ (go .rne).2.take 3 = [0x7C, 0xEA, 0x00] ∧ (go .rtz).2.take 1 = [0x7B] ∧ (go .rup).2.take 3 = [0x7C, 0xEA, 0x01] ∧
      (go .rup).1 = 0x79 := by decide +kernel

/-- spec/06_press_engines.md, worked example: M 3.0, L 1.75, O[0] 2.0, from dots 8, 24 and 16 at scale 0.125. -/
theorem test_press_group :
    let q := [Num.fin 8 0]
    let toks : List KvTok := [⟨[.fin 1 0], [.fin 4 0]⟩, ⟨[.fin 3 0], [.fin 2 0]⟩, ⟨[.fin 2 0], [.fin (-2) 0]⟩]
    pressGroup 1 q toks (decodeElem .fp32 0x3E000000) = ⟨0x40400000, 0x3FE00000, 0, [0x40000000]⟩ := by decide +kernel

/-- The check value of CRC-32C for the nine digits, and FIPS 180-4's digest of "abc" (first and last four bytes). -/
theorem test_digests :
    crc32c (ascii "123456789") = 0xE3069283 ∧ (sha256 (ascii "abc")).take 4 = [0xBA, 0x78, 0x16, 0xBF] ∧
      (sha256 (ascii "abc")).drop 28 = [0xF2, 0x00, 0x15, 0xAD] := by decide +kernel

/-- FIPS 197, appendix C.3. -/
theorem test_aes256 :
    aesEnc ((List.range 32).map (BitVec.ofNat 8)) ((List.range 16).map (fun i => BitVec.ofNat 8 (17 * i))) =
      [0x8E, 0xA2, 0xB7, 0xCA, 0x51, 0x67, 0x45, 0xBF, 0xEA, 0xFC, 0x49, 0x90, 0x4B, 0x49, 0x60, 0x89] := by decide +kernel

/-- R153, R154: four wrong bytes are corrected, five are not; R156: a poisoned codeword reads as Poison. -/
theorem test_codeword :
    (rsDecode 4 (errOfPairs [(0, 1), (13, 2), (63, 0xFF), (71, 7)]) []).1 = .corrected ∧
      (rsDecode 4 (errOfPairs [(0, 1), (13, 2), (40, 3), (63, 0xFF), (71, 7)]) []).1.bad = true ∧
      (rsDecode 4 poisonErr []).1 = .poison ∧ (rsDecode 4 0 []).1 = .clean := by decide +kernel

/-- R214: a store over a 64-byte boundary faults. R215: a full first unit of LEN 3 leaves two to come. -/
theorem test_intake_store :
    let on := w0.setFld (phCtxcfg0A 11 63) phCtxcfg0Enabled 1
    gives (.intakeStore 0 767 60 (zeros 8)) w0 (fun t => decide (t.resp = .fault)) = true ∧
      gives (.intakeStore 0 767 0 ((tPk 0x0101 3 767 1 []).take 64)) on (fun t => decide ((t.ctx 767).rxLeft = 2)) = true ∧
      gives (.intakeStore 0 767 0 ((tPk 0x0101 3 767 1 []).take 64)) w0 (fun t => decide ((t.ctx 767).dropPkts = 1)) = true := by decide +kernel

/-- R236, R212: the Context Status Block of an untouched context: EXP_CSEQ 1, NEXT_RSEQ 1. -/
theorem test_csb_read :
    gives (.csbRead 767 0 16) w0 (fun t => decide (t.resp = .bytes (natLe 4 1 ++ natLe 4 0 ++ natLe 4 1 ++ natLe 4 0))) = true := by decide +kernel

/-- R224, R225: a packet out of sequence counts one SEQ_REJ and suppresses. -/
theorem test_packet_check_sequence :
    gives (.packetCheck 800) (tReady (tPk 0x0601 1 800 2 [])) (fun t => decide ((t.ctx 800).seqRej = 1) && (t.ctx 800).suppress) = true := by
  decide +kernel

/-- R223: the comparison wraps. -/
theorem test_later : later 0 0xFFFFFFFF = true ∧ later 0xFFFFFFFF 0 = false ∧ later 0x80000000 0 = false := by decide +kernel

/-- A transfer of eight bytes within the HBM of partition 11, with one byte of the source set. -/
def tMoveS : State :=
  { tS 767 { tK 0x0101 3 [(0, 1, 1), (8, 8, hbmBase 11), (16, 8, hbmBase 11 + 64), (24, 4, 8), (28, 4, 1), (32, 4, 1), (36, 4, 1)] with
      units := [32 * 23 + 8 + 7] } with
    mem := [(hbmBase 11 + 7, 0xAB)] }

/-- R258, R260: MOVE copies its row. -/
theorem test_move : gives (.move 767 7) tMoveS (fun t => decide (t.byteAt (hbmBase 11 + 71) = 0xAB)) = true := by decide +kernel

/-- R284: SIGNAL MODE 0 adds and answers the prior VALUE; MODE 1 sets. -/
theorem test_signal :
    let c := tA 0x0602 2 [(4, 4, 255), (8, 8, 5)]
    let d := tA 0x0602 2 [(0, 1, 1), (4, 4, 255), (8, 8, 5)]
    gives (.signal 799 7) ((tS 799 c).putClasp (claspTab 799) 255 9) (fun t => decide (t.ctxClasp 799 255 = 14) &&
      (t.ctx 799).cmds.all (fun k => decide (k.aux = 9))) = true ∧
      gives (.signal 799 7) ((tS 799 d).putClasp (claspTab 799) 255 9) (fun t => decide (t.ctxClasp 799 255 = 5)) = true := by decide +kernel

/-- R299: a FENCE of kind 0 ends the earlier command with ABORTED_FENCE. -/
theorem test_fence :
    let f := tA 0x0B01 2 [(0, 1, 0)]
    gives (.fence 799 7) (tTwo f) (fun t => decide (((t.ctx 799).cmds.map (fun k => k.status)).take 1 = [.abortedFence])) = true := by decide +kernel

/-- R94 to R106: one INT8 chain of eight products, 1 × 1 + … + 8 × 1 = 36, written as BF16 0x4210. -/
theorem test_me_descriptor :
    let d := tEntry (tMeDsc ++ [(3, 1, 3)])
    let s := { tMe { Me.init with cur := some d } with
      mem := kvWrite 0 [] (tileBase 23) ([1, 2, 3, 4, 5, 6, 7, 8] ++ List.replicate 8 1) }
    gives (.meDescriptorComplete 23 5) s (fun t => decide (t.byteAt (tileBase 23 + 16) = 0x10) && decide (t.byteAt (tileBase 23 + 17) = 0x42)) = true := by
  decide +kernel

/-- R125 to R134: a local descriptor moves its row. -/
theorem test_mover_chunk :
    let s := { tMv { Mover.init with cur := some (tEntry tMvDsc) } with mem := [(tileBase 23 + 63, 0x5A)] }
    gives (.moverChunk 0 23 7) s (fun t => decide (t.byteAt (tileBase 23 + 127) = 0x5A)) = true := by decide +kernel

/-- R118: meq.push takes a good descriptor and answers 0; an unaligned address traps with cause 4. -/
theorem test_meq_push :
    gives (.meqPush 23 31 3 1 2) (tPush 5 tMeDsc) (fun t => decide ((t.me 23 5).queue.length = 1) && decide ((t.hart 23 31).get 3 = 0)) = true ∧
      gives (.meqPush 23 31 3 1 2) (tHart (tDsc + 4) 0 Hart.init) (fun t => decide ((t.hart 23 31).trap = 4 + 1)) = true := by decide +kernel

/-- R121: clasp.add answers the prior value. -/
theorem test_clasp_add :
    gives (.claspAdd 23 31 3 1 2) ((tClasp 4095 6 Hart.init).putClasp 11 4095 4) (fun t => decide (t.claspVal 11 4095 = 10) &&
      decide ((t.hart 23 31).get 3 = 4)) = true := by decide +kernel

/-- R151 to R153: a read with four wrong bytes answers the data and counts one corrected read; one with five is uncorrectable. -/
theorem test_memory_read :
    let s := { w0 with mem := [(hbmBase 11, 0x77)] }
    gives (.memoryRead (hbmBase 11) [(0, 1), (1, 1), (2, 1), (3, 1)]) s (fun t => decide (t.resp = .bytes (0x77 :: zeros 63)) &&
      decide (t.fld (eccstatA 11) phEccstatCeCount = 1)) = true ∧
      gives (.memoryRead (hbmBase 11) [(0, 1), (1, 1), (2, 1), (3, 1), (4, 9)]) s (fun t =>
        decide (t.fld (eccstatA 11) phEccstatUeCount = 1) && decide (t.fld (eccstatA 11) phEccstatCeCount = 0)) = true := by decide +kernel

/-- A write and the read of it. -/
theorem test_memory_write :
    gives (.memoryWrite (hbmBase 11 + 8) [1, 2]) w0 (fun t => decide (t.mem = [(hbmBase 11 + 8, 1), (hbmBase 11 + 9, 2)])) = true ∧
      gives (.memoryWrite (hbmBase 11 + 8) [0]) { w0 with mem := [(hbmBase 11 + 8, 1)] } (fun t => decide (t.mem = [])) = true := by decide +kernel

/-- R112: a scrub of the last row goes back to the first. -/
theorem test_scrub_row :
    gives (.tsScrubRow 23 39 []) { w0 with tsScrub := [(40 * 23 + 39, 16383)] } (fun t => decide (kvGet 0 t.tsScrub (40 * 23 + 39) = 0)) = true := by
  decide +kernel

/-- R321: a frame whose FCRC fails owes a NAK. -/
theorem test_frame_receive : gives (.frameReceive 0 5 (tFrame 0 1)) (tLink 2 Link.init) (fun t => (t.link 5).nakOwed) = true := by decide +kernel

/-- R133, R318: an acknowledgement takes its message off. -/
theorem test_ack :
    let s := tNet.setMover 23 7 { Mover.init with sent := [⟨4, 0, 64, 1⟩, ⟨5, 0, 64, 1⟩] }
    gives (.ack 0 5 tAck) (tIn s ⟨tAck, []⟩) (fun t => decide ((t.mover 23 7).sent.map (fun q => q.seq) = [5])) = true := by decide +kernel

/-- R492: an occurrence counts; at 255 it saturates. R501: a claim takes the winner and clears its count. -/
theorem test_events :
    gives (.eventOccurrence 3106) (w0.setFld (evcSrcstatA 3106) evcSrcstatCount 255) (fun t =>
      decide (t.fld (evcSrcstatA 3106) evcSrcstatCount = 255) && t.flag (evcSrcstatA 3106) evcSrcstatSat) = true ∧
      gives (.claim 0 69) (tSrc 3106 69 0) (fun t => decide (t.resp = .bytes (natLe 8 (3106 + 65536))) &&
        t.flag (evcSrcstatA 3106) evcSrcstatActive) = true := by decide +kernel

/-- R418: PWRLIM_N low sets EMERG in every hub. R424: a keepalive of the active die ends the safe fall-back. -/
theorem test_power_inputs :
    gives (.pwrlimAssert 0) w0 (fun t => (List.range 12).all (fun p => t.flag (phPwrcapA p) phPwrcapEmerg)) = true ∧
      gives (.keepalive 0 11 (.hasia 0)) (w0.setPwr 11 { Power.init with safe := true }) (fun t => !(t.pwr 11).safe) = true := by decide +kernel

/-- R372: GTIME is loaded as T_TX plus half of the round trip less the neighbour's hold: 1000 + 7 here, with the answer held 300 of 314. -/
theorem test_time_bead :
    let b := tB 11 0 0 [(0, 1, 4), (8, 8, 1000), (16, 8, 99999999999686), (24, 8, 700), (32, 1, 62), (33, 1, 1)]
    gives (.timeBead 0 5 b) (tCold ⟨b, []⟩) (fun t => decide (t.gtime = 1007)) = true := by decide +kernel

/-- R397: FORCE_OFF_N takes the module off; R437: the tenth image in a row sets STANDBY_OK. -/
theorem test_off_and_images :
    gives .forceOff w0 (fun t => !t.pins.pwrGood && !t.domOn 99) = true ∧
      gives (.stateImage 0 7 true) (tMg (fun m => { m with sent := some (tImage 7, 5), accepted := 7, ackRun := 9 })) (fun t =>
        t.flag hmRoleA hmRoleStandbyOk) = true := by decide +kernel

/-- R558: an engine hang opens a handling at level 1; R564: a missed kick one at level 2. -/
theorem test_handlings :
    gives (.errorRecord 0 11 ⟨0x13, 1, 23, 13, 767, 7, 0⟩) w0 (fun t => decide ((t.dom 11).level = some 1)) = true ∧
      gives (.watchdogMiss 0 11 1) w0 (fun t => decide ((t.dom 11).level = some 2)) = true := by decide +kernel

end Sys2Proof.Tests
end

section
/-!
SUPPORT. Which registers an operation may change: rules that extend a chain of register writes by one more write, and what the shared
operations over registers, event sources and tray records leave unchanged.
-/

namespace Sys2Proof.Machine

/-! ### Registers outside a list of addresses -/

/-- Every register outside the listed addresses reads in `t` as it does in `s`: the register part of `OnlyRegs`. -/
def RegsBut (s t : State) (as : List Nat) : Prop := ∀ a, a ∉ as → t.reg a = s.reg a

section Chains

variable {s t : State} {as : List Nat} {a : Nat} {f : Fld}

theorem RegsBut.refl (s : State) (as : List Nat) : RegsBut s s as := fun _ _ => rfl

theorem RegsBut.trans {u : State} (h : RegsBut s t as) (h' : RegsBut t u as) : RegsBut s u as :=
  fun b hb => (h' b hb).trans (h b hb)

theorem RegsBut.mono {bs : List Nat} (h : RegsBut s t as) (hs : as ⊆ bs) : RegsBut s t bs := fun b hb => h b (fun hm => hb (hs hm))

theorem RegsBut.of_regs (as : List Nat) (h : t.regs = s.regs) : RegsBut s t as := fun _ _ => by simp only [State.reg, h]

theorem RegsBut.fld (h : RegsBut s t as) (ha : a ∉ as) : t.fld a f = s.fld a f := by simp only [State.fld, h a ha]

theorem RegsBut.flag (h : RegsBut s t as) (ha : a ∉ as) : t.flag a f = s.flag a f := by simp only [State.flag, h.fld ha]

theorem RegsBut.setReg (h : RegsBut s t as) (ha : a ∈ as) (w : Word) : RegsBut s (t.setReg a w) as := fun b hb => by
  have hne : b ≠ a := fun e => hb (e ▸ ha)
  rw [State.reg_setReg_other _ _ _ _ hne, h b hb]

theorem RegsBut.setFld (h : RegsBut s t as) (ha : a ∈ as) (v : Nat) : RegsBut s (t.setFld a f v) as := h.setReg ha _

theorem RegsBut.addSat (h : RegsBut s t as) (ha : a ∈ as) (n : Nat) : RegsBut s (t.addSat a f n) as := h.setReg ha _

theorem OnlyRegs.refl (s : State) (as : List Nat) : OnlyRegs s s as := ⟨rfl, RegsBut.refl s as⟩

theorem OnlyRegs.regsBut (h : OnlyRegs s t as) : RegsBut s t as := h.2

theorem OnlyRegs.setReg (h : OnlyRegs s t as) (ha : a ∈ as) (w : Word) : OnlyRegs s (t.setReg a w) as := by
  obtain ⟨hframe, hregs⟩ := h
  refine ⟨?_, RegsBut.setReg hregs ha w⟩
  rw [hframe]
  rfl

theorem OnlyRegs.setFld (h : OnlyRegs s t as) (ha : a ∈ as) (v : Nat) : OnlyRegs s (t.setFld a f v) as := h.setReg ha _

theorem OnlyRegs.addSat (h : OnlyRegs s t as) (ha : a ∈ as) (n : Nat) : OnlyRegs s (t.addSat a f n) as := h.setReg ha _

/-- A fold whose every step writes only listed registers writes only listed registers. -/
theorem OnlyRegs.foldl {α : Type} (step : State → α → State) (l : List α) (h : OnlyRegs s t as)
    (hstep : ∀ u, OnlyRegs s u as → ∀ x ∈ l, OnlyRegs s (step u x) as) : OnlyRegs s (l.foldl step t) as :=
  List.foldlRecOn l step h hstep

theorem OnlyRegs.mem (h : OnlyRegs s t as) : t.mem = s.mem := by rw [h.1]

theorem OnlyRegs.ctxs (h : OnlyRegs s t as) : t.ctxs = s.ctxs := by rw [h.1]

end Chains

theorem SameMem.of_mem {s t : State} (h : t.mem = s.mem) : SameMem s t := fun a => by simp only [State.byteAt, h]

/-- A field within a 64-bit word, raised by a saturating count. -/
theorem State.fld_addSat_same (s : State) (a : Nat) (f : Fld) (n : Nat) (hf : f.lo + f.width ≤ 64) :
    (s.addSat a f n).fld a f = min (2 ^ f.width - 1) (s.fld a f + n) := by
  have hpos : 0 < 2 ^ f.width := Nat.two_pow_pos _
  unfold State.addSat satAdd
  rw [State.fld_setFld_same _ _ _ _ hf, Nat.mod_eq_of_lt (by omega)]

theorem State.fld_addSat_elsewhere (s : State) (a b : Nat) (f g : Fld) (n : Nat) (h : b ≠ a) :
    (s.addSat a f n).fld b g = s.fld b g := State.fld_setFld_elsewhere _ _ _ _ _ _ h

/-- After a fold that writes one field in copies of a register, a copy that it reached, or that held the value already, reads as it. -/
theorem State.fld_foldl_setFld (addr : Nat → Nat) (f : Fld) (v i : Nat) (hf : f.lo + f.width ≤ 64) (l : List Nat) :
    ∀ s : State, (i ∈ l ∨ s.fld (addr i) f = v % 2 ^ f.width) →
      (l.foldl (fun (s : State) j => s.setFld (addr j) f v) s).fld (addr i) f = v % 2 ^ f.width := by
  induction l with
  | nil => exact fun s h => h.resolve_left (by simp)
  | cons j l ih =>
    intro s h
    refine ih _ ?_
    by_cases ha : addr i = addr j
    · rw [ha]
      exact .inr (State.fld_setFld_same _ _ _ _ hf)
    · rw [State.fld_setFld_elsewhere _ _ _ _ _ _ ha]
      exact h.imp (fun hm => (List.mem_cons.mp hm).resolve_left (fun e => ha (congrArg addr e))) id

/-! ### Tray records and event sources -/

/-- A tray record changes nothing but management. -/
theorem State.trayRec_frame (s : State) (c u i : Nat) : s.trayRec c u i = { s with mgmt := (s.trayRec c u i).mgmt } := by
  unfold State.trayRec
  split <;> rfl

/-- Between `s` and `t` nothing differs but a source's status word and what the event controller holds of its sources. -/
def OnlySource (s t : State) (src : Nat) : Prop := t = { s with regs := t.regs, evc := t.evc } ∧ RegsBut s t [evcSrcstatA src]

theorem OnlySource.refl (s : State) (src : Nat) : OnlySource s s src := ⟨rfl, RegsBut.refl s _⟩

theorem OnlySource.setReg {s t : State} {src : Nat} (h : OnlySource s t src) (w : Word) :
    OnlySource s (t.setReg (evcSrcstatA src) w) src := by
  obtain ⟨hframe, hregs⟩ := h
  refine ⟨?_, hregs.setReg (by simp) w⟩
  rw [hframe]
  rfl

theorem OnlySource.setFld {s t : State} {src : Nat} (h : OnlySource s t src) (f : Fld) (v : Nat) :
    OnlySource s (t.setFld (evcSrcstatA src) f v) src := h.setReg _

theorem OnlySource.countSource {s t : State} {src : Nat} (h : OnlySource s t src) (info : Nat) :
    OnlySource s (t.countSource src info) src := by
  unfold State.countSource
  obtain ⟨hframe, hregs⟩ := h.setReg (fset (if fget (t.reg (evcSrcstatA src)) evcSrcstatCount = 255
    then fset (t.reg (evcSrcstatA src)) evcSrcstatSat 1
    else fset (t.reg (evcSrcstatA src)) evcSrcstatCount (fget (t.reg (evcSrcstatA src)) evcSrcstatCount + 1)) evcSrcstatPending 1)
  refine ⟨?_, hregs⟩
  dsimp only
  rw [hframe]
  rfl

theorem OnlySource.ite {s t u : State} {src : Nat} {p : Prop} [Decidable p] (ht : OnlySource s t src) (hu : OnlySource s u src) :
    OnlySource s (if p then t else u) src := by
  split
  · exact ht
  · exact hu

/-- An occurrence of a source changes nothing but that source. -/
theorem State.raise_onlySource (s : State) (src : Nat) : OnlySource s (s.raise src) src := by
  unfold State.raise State.raiseInfo
  exact .ite ((OnlySource.refl s src).countSource 0) (.refl s src)

/-- A change of a level source's condition changes nothing but that source. -/
theorem State.level_onlySource (s : State) (src : Nat) (v : Bool) : OnlySource s (s.level src v) src := by
  have sensed : OnlySource s (s.setFld (evcSrcstatA src) evcSrcstatLevel (b2n v)) src := (OnlySource.refl s src).setFld _ _
  have counted := sensed.countSource 0
  have cleared := sensed.setFld evcSrcstatPending 0
  unfold State.level State.senseLevel
  exact .ite (.ite (.ite (.ite sensed (.ite sensed counted)) cleared)
    (.ite (.ite counted sensed) (.ite (.ite counted sensed) (.ite counted sensed)))) (.refl s src)

end Sys2Proof.Machine
end

section
/-!
PROOF. O59, first part: NODE_ID_WRITE, and the register writes that are ignored in whole or in part.
-/

namespace Sys2Proof.Machine

/-! ### NODE_ID_WRITE (R13, R520, R613) -/

theorem execNodeIdWrite_up (now node z m : Nat) (s : State) (h : (s.advance now).hasiaUp = true) :
    exec (.nodeIdWrite now node z m) s = .next ((s.advance now).writeNode node z m) :=
  congrArg Host.Outcome.next (if_pos h)

/-- The node registers with a number, a zone size and a master written. -/
def State.nodePut (s : State) (node z m : Nat) : State :=
  ((s.setFld gtDisccfgA gtDisccfgMaster m).setNode fdNodeNodeId node).setNode fdNodeZsize z

/-- While bring-up is open, a node number of the module's position and a zone size in range are taken. -/
theorem State.writeNode_open (s : State) (node z m : Nat) (hopen : s.bringUpOpen = true) (hn : node < 4096)
    (hpos : node % 4 = s.fld hmSidebandA hmSidebandPosId % 4) (h4 : 4 ≤ z) (h64 : z ≤ 64) (hz : z % 4 = 0) :
    s.writeNode node z m = (s.nodePut node z m).tryReady ∨ s.writeNode node z m = (s.nodePut node z m).retrainAll.tryReady := by
  have hpos' : ¬ node % 4 ≠ s.fld hmSidebandA hmSidebandPosId % 4 := not_not_intro hpos
  unfold State.writeNode
  simp only [Nat.mod_eq_of_lt hn, hopen, Bool.not_true, Bool.false_eq_true, if_false, hpos', h4, h64, hz, and_self, if_true]
  split
  · exact .inr rfl
  · exact .inl rfl

/-- After bring-up a write of another node number is counted in FD0, and a write of another master in the management-only space. -/
theorem State.writeNode_closed (s : State) (node z m : Nat) (hclosed : s.bringUpOpen = false) (hn : node < 4096) (hne : node ≠ s.node) :
    s.writeNode node z m = (s.addSat (fdCfgstatA 0) fdCfgstatFxIgnored 1).addSat hmCfgstatA hmCfgstatFxIgnored
      (b2n (decide (m % 4096 ≠ s.fld gtDisccfgA gtDisccfgMaster))) := by
  unfold State.writeNode
  simp [Nat.mod_eq_of_lt hn, hclosed, hne, b2n]

theorem State.setNode_onlyRegs {s t : State} (f : Fld) (v : Nat) (as : List Nat) (h : OnlyRegs s t as)
    (has : ∀ i, i < 4 → fdNodeA i ∈ as) : OnlyRegs s (t.setNode f v) as :=
  OnlyRegs.foldl _ _ h (fun _ hu i hi => hu.setFld (has i (List.mem_range.mp hi)) v)

theorem fdNodeA_lt (i : Nat) (hi : i < 4) : fdNodeA i < gtDisccfgA := by unfold fdNodeA gtDisccfgA; omega

/-- The addresses of FD.NODE in the four fabric dies. -/
def nodeAddrs : List Nat := (List.range 4).map fdNodeA

theorem fdNodeA_mem (i : Nat) (hi : i < 4) : fdNodeA i ∈ nodeAddrs := List.mem_map.mpr ⟨i, List.mem_range.mpr hi, rfl⟩

theorem State.nodePut_onlyRegs (s : State) (node z m : Nat) : OnlyRegs s (s.nodePut node z m) (gtDisccfgA :: nodeAddrs) := by
  have hmem : ∀ i, i < 4 → fdNodeA i ∈ gtDisccfgA :: nodeAddrs := fun i hi => List.mem_cons_of_mem _ (fdNodeA_mem i hi)
  have hmaster := (OnlyRegs.refl s (gtDisccfgA :: nodeAddrs)).setFld (f := gtDisccfgMaster) (List.mem_cons_self ..) m
  exact State.setNode_onlyRegs _ _ _ (State.setNode_onlyRegs _ _ _ hmaster hmem) hmem

/-- Writing one field of every FD.NODE keeps the fields that do not overlap it. -/
theorem State.fld_setNode_other (s : State) (f g : Fld) (v i : Nat) (hf : f.lo + f.width ≤ 64)
    (h : g.lo + g.width ≤ f.lo ∨ f.lo + f.width ≤ g.lo) : (s.setNode f v).fld (fdNodeA i) g = s.fld (fdNodeA i) g := by
  unfold State.setNode
  refine List.foldlRecOn (motive := fun t : State => t.fld (fdNodeA i) g = s.fld (fdNodeA i) g) _ _ rfl (fun t ht j _ => ?_)
  by_cases hj : fdNodeA i = fdNodeA j
  · rw [hj, State.fld_setFld_other _ _ _ _ _ hf h, ← hj, ht]
  · rw [State.fld_setFld_elsewhere _ _ _ _ _ _ hj, ht]

theorem State.fld_setNode_same (s : State) (f : Fld) (v i : Nat) (hf : f.lo + f.width ≤ 64) (hi : i < 4) :
    (s.setNode f v).fld (fdNodeA i) f = v % 2 ^ f.width :=
  State.fld_foldl_setFld fdNodeA f v i hf (List.range 4) s (.inl (List.mem_range.mpr hi))

theorem State.nodePut_fields (s : State) (node z m : Nat) (hn : node < 4096) (hm : m < 4096) (hz : z ≤ 64) :
    (s.nodePut node z m).fld gtDisccfgA gtDisccfgMaster = m ∧ ∀ i, i < 4 →
      (s.nodePut node z m).fld (fdNodeA i) fdNodeNodeId = node ∧ (s.nodePut node z m).fld (fdNodeA i) fdNodeZsize = z := by
  have hout : gtDisccfgA ∉ nodeAddrs := by decide
  refine ⟨?_, fun i hi => ⟨?_, ?_⟩⟩
  · have h1 := State.setNode_onlyRegs fdNodeNodeId node _ (OnlyRegs.refl (s.setFld gtDisccfgA gtDisccfgMaster m) nodeAddrs) fdNodeA_mem
    have h2 := State.setNode_onlyRegs fdNodeZsize z _ h1 fdNodeA_mem
    refine (h2.regsBut.fld hout).trans ?_
    rw [State.fld_setFld_same _ _ _ _ (by decide)]
    exact Nat.mod_eq_of_lt hm
  · unfold State.nodePut
    rw [State.fld_setNode_other _ _ _ _ _ (by decide) (by decide), State.fld_setNode_same _ _ _ _ (by decide) hi]
    exact Nat.mod_eq_of_lt hn
  · unfold State.nodePut
    rw [State.fld_setNode_same _ _ _ _ (by decide) hi]
    exact Nat.mod_eq_of_lt (Nat.lt_of_le_of_lt hz (by decide))

/-- Restarting the training links changes nothing but the links. -/
theorem State.retrainAll_frame (s : State) : s.retrainAll = { s with links := s.retrainAll.links } := by
  unfold State.retrainAll
  refine List.foldlRecOn (motive := fun t : State => t = { s with links := t.links }) _ _ rfl (fun t ht n _ => ?_)
  split
  · rw [ht]
    rfl
  · exact ht

theorem State.retrainAll_mem (s : State) : s.retrainAll.mem = s.mem := by rw [s.retrainAll_frame]

theorem State.retrainAll_ctxs (s : State) : s.retrainAll.ctxs = s.ctxs := by rw [s.retrainAll_frame]

theorem State.retrainAll_regs (s : State) : s.retrainAll.regs = s.regs := by rw [s.retrainAll_frame]

/-- A report of readiness writes HM.BOOT alone of the registers, and leaves memory and the contexts as they are. -/
theorem State.reportReady_keeps (s : State) :
    s.reportReady.mem = s.mem ∧ s.reportReady.ctxs = s.ctxs ∧ RegsBut s s.reportReady [hmBootA] := by
  unfold State.reportReady
  dsimp only
  rw [State.trayRec_frame]
  split <;> exact ⟨rfl, rfl, RegsBut.setReg (RegsBut.of_regs _ rfl) (List.mem_singleton.mpr rfl) _⟩

theorem State.tryReady_keeps (s : State) : s.tryReady.mem = s.mem ∧ s.tryReady.ctxs = s.ctxs ∧ RegsBut s s.tryReady [hmBootA] := by
  unfold State.tryReady
  split
  · exact s.reportReady_keeps
  · exact ⟨rfl, rfl, RegsBut.refl s _⟩

/-- What stands of a write of the node registers once the links train again and a waiting start has gone on. -/
theorem State.nodePut_effect {s t : State} (node z m : Nat) (hn : node < 4096) (hm : m < 4096) (hz : z ≤ 64)
    (hmem : t.mem = (s.nodePut node z m).mem) (hctxs : t.ctxs = (s.nodePut node z m).ctxs)
    (hregs : RegsBut (s.nodePut node z m) t [hmBootA]) :
    t.fld gtDisccfgA gtDisccfgMaster = m ∧ SameMem s t ∧ t.ctxs = s.ctxs ∧
      ∀ i, i < 4 → t.fld (fdNodeA i) fdNodeNodeId = node ∧ t.fld (fdNodeA i) fdNodeZsize = z := by
  have hput := s.nodePut_onlyRegs node z m
  obtain ⟨hmaster, hnode⟩ := s.nodePut_fields node z m hn hm hz
  have hkeep : ∀ i, i < 4 → fdNodeA i ∉ [hmBootA] := fun i hi => by
    have := fdNodeA_lt i hi
    simp only [List.mem_singleton, gtDisccfgA, hmBootA] at *
    omega
  refine ⟨(hregs.fld (by decide)).trans hmaster, SameMem.of_mem (hmem.trans hput.mem), hctxs.trans hput.ctxs, fun i hi => ?_⟩
  exact ⟨(hregs.fld (hkeep i hi)).trans (hnode i hi).1, (hregs.fld (hkeep i hi)).trans (hnode i hi).2⟩

/-- NODE_ID_WRITE before step 13. -/
theorem nodeIdWrite_beforeReady (s : State) (now node z m : Nat) (hup : (s.advance now).hasiaUp = true) (hn : node < 4096) (hm : m < 4096)
    (h4 : 4 ≤ z) (h64 : z ≤ 64) (hz : z % 4 = 0) (hready : (s.advance now).fld hmBootA hmBootReady = 0)
    (hpos : node % 4 = (s.advance now).fld hmSidebandA hmSidebandPosId % 4) :
    ∃ t, exec (.nodeIdWrite now node z m) s = .next t ∧ t.fld gtDisccfgA gtDisccfgMaster = m ∧ SameMem (s.advance now) t ∧
      t.ctxs = (s.advance now).ctxs ∧ ∀ i, i < 4 → t.fld (fdNodeA i) fdNodeNodeId = node ∧ t.fld (fdNodeA i) fdNodeZsize = z := by
  have hopen : (s.advance now).bringUpOpen = true := by simp [State.bringUpOpen, hup, hready]
  refine ⟨_, execNodeIdWrite_up now node z m s hup, ?_⟩
  generalize s.advance now = s1 at *
  rcases s1.writeNode_open node z m hopen hn hpos h4 h64 hz with he | he
  · obtain ⟨hmem, hctxs, hregs⟩ := (s1.nodePut node z m).tryReady_keeps
    rw [he]
    exact State.nodePut_effect node z m hn hm h64 hmem hctxs hregs
  · obtain ⟨hmem, hctxs, hregs⟩ := (s1.nodePut node z m).retrainAll.tryReady_keeps
    have hlinks := RegsBut.of_regs [hmBootA] (s1.nodePut node z m).retrainAll_regs
    rw [he]
    exact State.nodePut_effect node z m hn hm h64 (hmem.trans (State.retrainAll_mem _)) (hctxs.trans (State.retrainAll_ctxs _))
      (hlinks.trans hregs)

/-- NODE_ID_WRITE after step 13: ignored, and counted once, in FD0 (log entry 165). -/
theorem nodeIdWrite_afterReady (s : State) (now node z m : Nat) (hup : (s.advance now).hasiaUp = true) (hn : node < 4096)
    (hready : (s.advance now).fld hmBootA hmBootReady ≠ 0) (hne : node ≠ (s.advance now).node) :
    ∃ t, exec (.nodeIdWrite now node z m) s = .next t ∧ OnlyRegs (s.advance now) t [fdCfgstatA 0, hmCfgstatA] ∧
      t.fld (fdCfgstatA 0) fdCfgstatFxIgnored = min 65535 ((s.advance now).fld (fdCfgstatA 0) fdCfgstatFxIgnored + 1) := by
  have hclosed : (s.advance now).bringUpOpen = false := by simp [State.bringUpOpen, hready]
  refine ⟨_, execNodeIdWrite_up now node z m s hup, ?_⟩
  rw [State.writeNode_closed _ _ _ _ hclosed hn hne]
  refine ⟨((OnlyRegs.refl _ _).addSat (by simp) _).addSat (by simp) _, ?_⟩
  rw [State.fld_addSat_elsewhere _ _ _ _ _ _ (by decide), State.fld_addSat_same _ _ _ _ (by decide)]
  rfl

/-! ### Register writes (R12 to R14, R36, R430, R547) -/

/-- A write that does not arrive changes nothing where no Hasia die made it. -/
theorem registerWrite_notArriving (s : State) (now a : Nat) (v : Word) (p : Nat) (h : (s.advance now).arrives (.steward p) a = false) :
    exec (.registerWrite now a v (.steward p)) s = .next (s.advance now) := by
  refine congrArg Host.Outcome.next ?_
  simp only [State.regStore, h, Bool.not_false, if_true]

/-- A write to the management-only space by the Hasia die that is not active is counted in FOREIGN and changes nothing else. -/
theorem registerWrite_foreign (s : State) (now a : Nat) (v : Word) (d : Nat) (hd : (s.advance now).activeDie ≠ some d)
    (ha : 0x3F000000000 ≤ a) : exec (.registerWrite now a v (.hasia d)) s = .next (s.advance now).foreign := by
  have harr : (s.advance now).arrives (.hasia d) a = false := by simp [State.arrives, ha, State.mgmtWriter, hd]
  refine congrArg Host.Outcome.next ?_
  simp only [State.regStore, harr, Bool.not_false, if_true, hd, if_false]

theorem State.foreign_onlyRegs (s : State) : OnlyRegs s s.foreign [hmHbstatA] := (OnlyRegs.refl s _).addSat (by simp) 1

theorem State.foreign_count (s : State) : s.foreign.fld hmHbstatA hmHbstatForeign = min 255 (s.fld hmHbstatA hmHbstatForeign + 1) :=
  State.fld_addSat_same _ _ _ _ (by decide)

theorem regAt_gtDisccfg : regAt gtDisccfgA = some (gtDisccfgDef, []) := by decide +kernel

theorem homeReg_gtDisccfg : homeReg gtDisccfgA = gtDisccfgA := by simp [homeReg, regAt_gtDisccfg]

/-- GT.DISCCFG has one field with FX, MASTER, and none with ST. -/
theorem differs_gtDisccfg (w v : Word) : differs gtDisccfgDef [] .st w v = false ∧
    differs gtDisccfgDef [] .fx w v = decide (fget w gtDisccfgMaster ≠ fget v gtDisccfgMaster) := by
  simp [differs, gtDisccfgDef, fieldAcc]

theorem plainWrite_gtDisccfg (w v : Word) :
    plainWrite gtDisccfgDef.fields w v = fset w gtDisccfgPeriodUs (fget v gtDisccfgPeriodUs) := by
  simp [plainWrite, takeFields, clearW1c, gtDisccfgDef]

/-- After bring-up a write of another MASTER is counted, and one of the same is not. -/
theorem State.guarded_gtDisccfg (s : State) (v : Word) (hclosed : s.bringUpOpen = false) :
    s.guarded gtDisccfgA gtDisccfgDef [] v = if fget v gtDisccfgMaster = s.fld gtDisccfgA gtDisccfgMaster then s
      else s.addSat hmCfgstatA hmCfgstatFxIgnored 1 := by
  have hq : (ignoredAt gtDisccfgA).1 = hmCfgstatA := by decide
  obtain ⟨hst, hfx⟩ := differs_gtDisccfg (s.reg gtDisccfgA) v
  unfold State.guarded
  by_cases hsame : fget v gtDisccfgMaster = s.fld gtDisccfgA gtDisccfgMaster
  · have hkeeps : differs gtDisccfgDef [] .fx (s.reg gtDisccfgA) v = false := hfx.trans (decide_eq_false (not_not_intro hsame.symm))
    rw [if_pos hsame]
    simp only [homeReg_gtDisccfg, hst, hkeeps, Bool.false_eq_true, if_false, Bool.not_false, if_true]
  · have hchanges : differs gtDisccfgDef [] .fx (s.reg gtDisccfgA) v = true := hfx.trans (decide_eq_true (Ne.symm hsame))
    rw [if_neg hsame]
    simp only [homeReg_gtDisccfg, hst, hchanges, hclosed, hq, Bool.false_eq_true, if_false, Bool.not_true, Bool.not_false, if_true]

theorem State.dieStore_gtDisccfg (s : State) (v : Word) (w : Writer) :
    s.dieStore gtDisccfgA gtDisccfgDef [] v w = s.setFld gtDisccfgA gtDisccfgPeriodUs (fget v gtDisccfgPeriodUs) := by
  change s.plain gtDisccfgA gtDisccfgDef v = _
  simp only [State.plain, homeReg_gtDisccfg, plainWrite_gtDisccfg]
  rfl

theorem registerWrite_gtDisccfg (s : State) (now : Nat) (v : Word) (hon : (s.advance now).domOn 84 = true) :
    exec (.registerWrite now gtDisccfgA v .host) s = .next (((s.advance now).guarded gtDisccfgA gtDisccfgDef [] v).setFld gtDisccfgA
      gtDisccfgPeriodUs (fget v gtDisccfgPeriodUs)) := by
  have hdom : blockDomain gtDisccfgA = 84 := by decide
  have hlow : ¬ 0x3F000000000 ≤ gtDisccfgA := by decide
  have hevc : ¬ (0x30600000000 ≤ gtDisccfgA ∧ gtDisccfgA < 0x30700000000) := by decide
  have harr : (s.advance now).arrives .host gtDisccfgA = true := by
    simp only [State.arrives, hlow, if_false, hdom, hon, mayReachReg, Bool.and_true, decide_eq_true_eq]
    decide
  refine congrArg Host.Outcome.next ?_
  simp only [State.regStore, harr, Bool.not_true, Bool.false_eq_true, if_false, homeReg_gtDisccfg, regAt_gtDisccfg, hlow, hevc,
    State.dieStore_gtDisccfg]

/-- A host write of GT.DISCCFG after bring-up: PERIOD_US lands, MASTER stays and a change of it is counted. -/
theorem registerWrite_gtDisccfg_afterReady (s : State) (now : Nat) (v : Word) (hon : (s.advance now).domOn 84 = true)
    (hready : (s.advance now).fld hmBootA hmBootReady ≠ 0) :
    ∃ t, exec (.registerWrite now gtDisccfgA v .host) s = .next t ∧ t.fld gtDisccfgA gtDisccfgPeriodUs = fget v gtDisccfgPeriodUs ∧
      t.fld gtDisccfgA gtDisccfgMaster = (s.advance now).fld gtDisccfgA gtDisccfgMaster ∧
      OnlyRegs (s.advance now) t [gtDisccfgA, hmCfgstatA] ∧ t.fld hmCfgstatA hmCfgstatFxIgnored =
        (if fget v gtDisccfgMaster = (s.advance now).fld gtDisccfgA gtDisccfgMaster then (s.advance now).fld hmCfgstatA hmCfgstatFxIgnored
         else min 65535 ((s.advance now).fld hmCfgstatA hmCfgstatFxIgnored + 1)) := by
  refine ⟨_, registerWrite_gtDisccfg s now v hon, ?_⟩
  generalize s.advance now = s1 at *
  have hclosed : s1.bringUpOpen = false := by simp [State.bringUpOpen, hready]
  have hne : hmCfgstatA ≠ gtDisccfgA := by decide
  have hg := s1.guarded_gtDisccfg v hclosed
  have honly : OnlyRegs s1 (s1.guarded gtDisccfgA gtDisccfgDef [] v) [hmCfgstatA] := by
    rw [hg]
    split
    · exact OnlyRegs.refl s1 _
    · exact (OnlyRegs.refl s1 _).addSat (by simp) 1
  have hwide : OnlyRegs s1 (s1.guarded gtDisccfgA gtDisccfgDef [] v) [gtDisccfgA, hmCfgstatA] :=
    ⟨honly.1, honly.regsBut.mono (by simp)⟩
  refine ⟨?_, ?_, hwide.setFld (by simp) _, ?_⟩
  · rw [State.fld_setFld_same _ _ _ _ (by decide)]
    exact Nat.mod_eq_of_lt (fget_lt _ _)
  · rw [State.fld_setFld_other _ _ _ _ _ (by decide) (by decide)]
    exact honly.regsBut.fld (by decide)
  · rw [State.fld_setFld_elsewhere _ _ _ _ _ _ hne, hg]
    split
    · rfl
    · exact State.fld_addSat_same _ _ _ _ (by decide)

end Sys2Proof.Machine
end

section
/-!
PROOF. O59, second part: the soft-fuse overlay and the MCB.
-/

namespace Sys2Proof.Machine

/-! ### The overlay (R534, R535, R538) -/

theorem bits_zero_lo (x w : Nat) : bits x 0 w = x % 2 ^ w := by simp [bits]

/-- The overlay is read from SFCTL.COUNT and the SOFTFUSE registers alone. -/
theorem State.overlay_congr {s t : State} {as : List Nat} (h : RegsBut s t as) (hctl : hmSfctlA ∉ as)
    (hfuse : ∀ i, i < 256 → hmSoftfuseA i ∉ as) : t.overlay = s.overlay := by
  have hcount : t.overlayCount = s.overlayCount := by simp only [State.overlayCount, h.fld hctl]
  unfold State.overlay
  rw [hcount]
  refine List.map_congr_left (fun i hi => h _ (hfuse i ?_))
  exact Nat.lt_of_lt_of_le (List.mem_range.mp hi) (Nat.min_le_left ..)

/-- The overlay registers with one more entry. -/
def State.overlayRegs (s : State) (w : Word) : State :=
  ((s.setReg (hmSoftfuseA s.overlayCount) w).setFld hmSfctlA hmSfctlCount (s.overlayCount + 1)).setFld hmSfctlA hmSfctlFull
    (b2n (decide (s.overlayCount + 1 = 256)))

/-- A cause for an MCB write touches no register. -/
theorem RegsBut.oweMcb {s t : State} {as : List Nat} (h : RegsBut s t as) : RegsBut s t.oweMcb as := h

theorem State.oweMcb_overlay (s : State) : s.oweMcb.overlay = s.overlay := rfl

/-- The overlay registers with one more entry, and a cause for an MCB write. -/
def State.overlayPut (s : State) (w : Word) : State := (s.overlayRegs w).oweMcb

/-- An entry with a KIND, DIE, UNIT and ROW of its own is put into a free place. -/
theorem State.overlayAdd_new (s : State) (e : Nat) (hnew : ∀ w ∈ s.overlay, bits w.toNat 0 48 ≠ bits e 0 48) (hroom : s.overlayCount < 256) :
    s.overlayAdd e = s.overlayPut (BitVec.ofNat 64 (setBits e 56 8 (s.fld lkBootcntA lkBootcntBoots))) := by
  have hany : ¬ s.overlay.any (fun w => decide (bits w.toNat 0 48 = bits e 0 48)) = true := by simpa using hnew
  unfold State.overlayAdd
  rw [if_neg hany, if_neg (Nat.not_le.mpr hroom)]
  rfl

theorem State.overlayRegs_regsBut (s : State) (w : Word) : RegsBut s (s.overlayRegs w) [hmSoftfuseA s.overlayCount, hmSfctlA] := by
  have hctl : hmSfctlA ∈ [hmSoftfuseA s.overlayCount, hmSfctlA] := List.mem_cons_of_mem _ (List.mem_cons_self ..)
  unfold State.overlayRegs
  exact (((RegsBut.refl s _).setReg (List.mem_cons_self ..) w).setFld hctl _).setFld hctl _

theorem State.overlayPut_regsBut (s : State) (w : Word) : RegsBut s (s.overlayPut w) [hmSoftfuseA s.overlayCount, hmSfctlA] :=
  (s.overlayRegs_regsBut w).oweMcb

theorem State.overlayRegs_count (s : State) (w : Word) (hroom : s.overlayCount < 256) :
    (s.overlayRegs w).overlayCount = s.overlayCount + 1 := by
  have hfld : (s.overlayRegs w).fld hmSfctlA hmSfctlCount = s.overlayCount + 1 := by
    unfold State.overlayRegs
    rw [State.fld_setFld_other _ _ _ _ _ (by decide) (by decide), State.fld_setFld_same _ _ _ _ (by decide)]
    exact Nat.mod_eq_of_lt (Nat.lt_of_le_of_lt hroom (by decide))
  rw [State.overlayCount, hfld]
  omega

theorem State.overlayRegs_last (s : State) (w : Word) : (s.overlayRegs w).reg (hmSoftfuseA s.overlayCount) = w := by
  have hne : hmSoftfuseA s.overlayCount ≠ hmSfctlA := by unfold hmSoftfuseA hmSfctlA; omega
  unfold State.overlayRegs State.setFld
  rw [State.reg_setReg_other _ _ _ _ hne, State.reg_setReg_other _ _ _ _ hne, State.reg_setReg_same]

/-- The new entry stands after the entries that the overlay held. -/
theorem State.overlay_overlayPut (s : State) (w : Word) (hroom : s.overlayCount < 256) : (s.overlayPut w).overlay = s.overlay ++ [w] := by
  rw [State.overlayPut, State.oweMcb_overlay]
  unfold State.overlay
  rw [s.overlayRegs_count w hroom, List.range_succ, List.map_append, List.map_singleton, s.overlayRegs_last w]
  refine congrArg (· ++ [w]) (List.map_congr_left (fun i hi => s.overlayRegs_regsBut w _ ?_))
  have hi' := List.mem_range.mp hi
  simp only [List.mem_cons, List.not_mem_nil, or_false, not_or, hmSoftfuseA, hmSfctlA]
  omega

theorem State.overlay_setOverlay_nil (s : State) : (s.setOverlay []).overlay = [] := by
  have hcount : (s.setOverlay []).overlayCount = 0 := by
    have hfld : (s.setOverlay []).fld hmSfctlA hmSfctlCount = 0 := by
      unfold State.setOverlay
      rw [State.fld_setFld_other _ _ _ _ _ (by decide) (by decide), State.fld_setFld_same _ _ _ _ (by decide)]
      rfl
    rw [State.overlayCount, hfld]
    rfl
  unfold State.overlay
  rw [hcount]
  rfl

/-! ### Writing the MCB (R543, R544) -/

/-- The registers other than MCB.HDR that a completed MCB write touches: MCBSTAT, FSTOP and hallmark 8. -/
def mcbMarks : List Nat := [hmMcbstatA, hmFstopA] ++ (List.range 4).map (lkHallmarkA 8)

theorem State.extendHallmark_onlyRegs {s t : State} {as : List Nat} (i : Nat) (m : List Byte) (h : OnlyRegs s t as)
    (has : ∀ w, w < 4 → lkHallmarkA i w ∈ as) : OnlyRegs s (t.extendHallmark i m) as :=
  OnlyRegs.foldl _ _ h (fun _ hu w hw => hu.setReg (has w (List.mem_range.mp hw)) _)

theorem State.writeMcb_both (s : State) (hup : s.hasiaUp = true) (hheld : s.mcbHeld = false) :
    ∃ slots, OnlyRegs
      { s.setFld mcbHdrA mcbHdrGen (s.fld mcbHdrA mcbHdrGen + 1) with flash := { s.flash with
          mcbA := s.mcbNow (s.fld mcbHdrA mcbHdrGen + 1), mcbB := s.mcbNow (s.fld mcbHdrA mcbHdrGen + 1), due := false, slots := slots } }
      (s.writeMcb true true) mcbMarks := by
  have hmark : ∀ w, w < 4 → lkHallmarkA 8 w ∈ mcbMarks := fun w hw =>
    List.mem_append_right _ (List.mem_map.mpr ⟨w, List.mem_range.mpr hw, rfl⟩)
  unfold State.writeMcb
  simp only [hup, hheld, Bool.not_true, Bool.false_eq_true, or_self, if_false]
  refine ⟨_, OnlyRegs.setFld (State.extendHallmark_onlyRegs _ _ (OnlyRegs.setReg (OnlyRegs.refl _ _) ?_ _) hmark) ?_ _⟩
  · simp [mcbMarks]
  · simp [mcbMarks]

theorem State.writeMcb_aOnly (s : State) (hup : s.hasiaUp = true) (hheld : s.mcbHeld = false) :
    (s.writeMcb true false).flash = { s.flash with
      mcbA := s.mcbNow (s.fld mcbHdrA mcbHdrGen + 1), mcbB := { s.mcbNow (s.fld mcbHdrA mcbHdrGen + 1) with valid := false } } := by
  simp [State.writeMcb, hup, hheld]

theorem State.writeMcb_none (s : State) (okB : Bool) (hup : s.hasiaUp = true) (hheld : s.mcbHeld = false) :
    (s.writeMcb false okB).flash = { s.flash with mcbA := { s.mcbNow (s.fld mcbHdrA mcbHdrGen + 1) with valid := false } } := by
  simp [State.writeMcb, hup, hheld]

/-- A completed MCB write: both copies hold the present image with the next GEN, and the overlay stands. -/
theorem State.writeMcb_both_effect (s : State) (hup : s.hasiaUp = true) (hheld : s.mcbHeld = false) :
    let t := s.writeMcb true true
    t.flash.mcbA = s.mcbNow (s.fld mcbHdrA mcbHdrGen + 1) ∧ t.flash.mcbB = t.flash.mcbA ∧ t.flash.due = false ∧
      t.fld mcbHdrA mcbHdrGen = (s.fld mcbHdrA mcbHdrGen + 1) % 2 ^ 48 ∧ t.overlay = s.overlay := by
  obtain ⟨slots, hframe, hregs⟩ := s.writeMcb_both hup hheld
  have hflash := congrArg State.flash hframe
  dsimp only at hflash ⊢
  have hbut : RegsBut s (s.writeMcb true true) (mcbHdrA :: mcbMarks) :=
    RegsBut.trans (((RegsBut.refl s _).setFld (List.mem_cons_self ..) _ : RegsBut s (s.setFld mcbHdrA mcbHdrGen _) _))
      (RegsBut.mono hregs (List.subset_cons_self ..))
  refine ⟨by rw [hflash], by rw [hflash], by rw [hflash], ?_, State.overlay_congr hbut (by decide) (fun i hi => ?_)⟩
  · exact (RegsBut.fld hregs (by decide)).trans (State.fld_setFld_same s _ _ _ (by decide))
  · simp only [mcbMarks, lkHallmarkA, hmMcbstatA, hmFstopA, mcbHdrA, hmSoftfuseA, List.mem_cons, List.cons_append, List.nil_append,
      List.mem_map, List.mem_range, not_or, not_exists]
    exact ⟨by omega, by omega, by omega, fun w => by omega⟩

/-! ### OVERLAY_APPEND, OVERLAY_CLEAR and MCB_WRITE -/

/-- A new entry of a known kind is appended and stands in both MCB copies. -/
theorem overlayAppend_new (s : State) (e : Word) (hup : s.hasiaUp = true) (hlo : 1 ≤ e.toNat % 256) (hhi : e.toNat % 256 ≤ 8)
    (hheld : s.mcbHeld = false) (hnew : ∀ w ∈ s.overlay, w.toNat % 2 ^ 48 ≠ e.toNat % 2 ^ 48) (hlen : s.overlay.length < 256) :
    ∃ t w, exec (.overlayAppend e) s = .next t ∧ t.overlay = s.overlay ++ [w] ∧ w.toNat % 2 ^ 56 = e.toNat % 2 ^ 56 ∧
      t.flash.mcbA.overlay = t.overlay ∧ t.flash.mcbB.overlay = t.overlay := by
  have hroom : s.overlayCount < 256 := by simpa [State.overlay] using hlen
  have hdiff : ∀ w ∈ s.overlay, bits w.toNat 0 48 ≠ bits (bits e.toNat 0 56) 0 48 := fun w hw => by
    rw [bits_zero_lo, bits_zero_lo, bits_zero_lo, Nat.mod_mod_of_dvd _ (by decide)]
    exact hnew w hw
  let w : Word := BitVec.ofNat 64 (setBits (bits e.toNat 0 56) 56 8 (s.fld lkBootcntA lkBootcntBoots))
  have hadd : s.overlayAdd (bits e.toNat 0 56) = s.overlayPut w := s.overlayAdd_new _ hdiff hroom
  have hput := s.overlayPut_regsBut w
  have hout : hmMcbstatA ∉ [hmSoftfuseA s.overlayCount, hmSfctlA] := by
    simp only [List.mem_cons, List.not_mem_nil, or_false, not_or, hmSoftfuseA, hmSfctlA, hmMcbstatA]
    omega
  have hheld' : (s.overlayPut w).mcbHeld = false := by
    rw [State.mcbHeld, hput.flag hout, hput.flag hout]
    exact hheld
  have hexec : exec (.overlayAppend e) s = .next ((s.overlayPut w).writeMcb true true) := by
    have hkind : ¬ ((!s.hasiaUp) = true ∨ bits e.toNat 0 8 = 0 ∨ 8 < bits e.toNat 0 8) := by
      rw [bits_zero_lo, hup]
      simp only [Bool.not_true, Bool.false_eq_true, false_or]
      omega
    refine congrArg Host.Outcome.next ((if_neg hkind).trans ?_)
    rw [hadd]
    exact if_pos rfl
  obtain ⟨hA, hBA, -, -, hover⟩ := (s.overlayPut w).writeMcb_both_effect hup hheld'
  have himg : ∀ g, ((s.overlayPut w).mcbNow g).overlay = (s.overlayPut w).overlay := fun _ => rfl
  refine ⟨_, w, hexec, hover.trans (s.overlay_overlayPut w hroom), ?_, ?_, ?_⟩
  · have hlt : bits e.toNat 0 56 < 2 ^ 64 := Nat.lt_of_lt_of_le (Nat.mod_lt _ (by decide)) (by decide : 2 ^ 56 ≤ 2 ^ 64)
    have htoNat : w.toNat = setBits (bits e.toNat 0 56) 56 8 (s.fld lkBootcntA lkBootcntBoots) := by
      rw [BitVec.toNat_ofNat, Nat.mod_eq_of_lt (setBits_lt _ _ _ _ hlt (by decide))]
    rw [htoNat, ← bits_zero_lo, bits_setBits_above _ _ _ _ _ _ (by decide), bits_zero_lo, bits_zero_lo, Nat.mod_mod]
  · rw [hA, hover, himg]
  · rw [hBA, hA, hover, himg]

/-- In RMA the overlay is cleared, and an MCB write is owed. -/
theorem overlayClear_rma (s : State) (w : Writer) (hw : s.mgmtWriter w = true) (hrma : s.fld lkStateA lkStateLifecycle = 2) :
    ∃ t, exec (.overlayClear w) s = .next t ∧ t.overlay = [] ∧ t.flash.due = true := by
  refine ⟨(s.setOverlay []).oweMcb, congrArg Host.Outcome.next ?_, ?_, rfl⟩
  · rw [if_neg (by simp [hw]), if_pos hrma]
  · rw [State.oweMcb_overlay, State.overlay_setOverlay_nil]

/-- Outside RMA a clear of the overlay is ignored and counted (log entry 146). -/
theorem overlayClear_ignored (s : State) (w : Writer) (hw : s.mgmtWriter w = true) (hrma : s.fld lkStateA lkStateLifecycle ≠ 2) :
    ∃ t, exec (.overlayClear w) s = .next t ∧ t.overlay = s.overlay ∧
      t.fld hmCfgstatA hmCfgstatStIgnored = min (two32 - 1) (s.fld hmCfgstatA hmCfgstatStIgnored + 1) := by
  obtain ⟨-, hraise⟩ := (s.addSat hmCfgstatA hmCfgstatStIgnored 1).raise_onlySource (32 * 94 + 2)
  refine ⟨(s.addSat hmCfgstatA hmCfgstatStIgnored 1).raise (32 * 94 + 2), congrArg Host.Outcome.next ?_, ?_, ?_⟩
  · rw [if_neg (by simp [hw]), if_neg hrma]
  · have hcount : RegsBut s (s.addSat hmCfgstatA hmCfgstatStIgnored 1) [hmCfgstatA, evcSrcstatA (32 * 94 + 2)] :=
      (RegsBut.refl s _).addSat (by simp) 1
    refine State.overlay_congr (hcount.trans (hraise.mono (by simp))) (by decide) (fun i hi => ?_)
    simp only [List.mem_cons, List.not_mem_nil, or_false, not_or, hmSoftfuseA, hmCfgstatA, evcSrcstatA]
    omega
  · rw [hraise.fld (by decide), State.fld_addSat_same _ _ _ _ (by decide)]
    rfl

theorem execMcbWrite_due (s : State) (okA okB : Bool) (h : s.flash.due = true) :
    exec (.mcbWrite okA okB) s = .next (s.writeMcb okA okB) := congrArg Host.Outcome.next (if_pos h)

theorem execMcbWrite_notDue (s : State) (okA okB : Bool) (h : s.flash.due = false) : exec (.mcbWrite okA okB) s = .next s :=
  congrArg Host.Outcome.next (if_neg (by simp [h]))

end Sys2Proof.Machine
end

section
/-!
PROOF. O59, third part: queue pops, kicks, bezel fences and lane repair, and the statement.
-/

namespace Sys2Proof.Machine

/-! ### Queue pops and kicks (R345, R564, R588) -/

theorem State.dom_setDom_other (s : State) (d e : Nat) (x : Domain) (h : e ≠ d) : (s.setDom d x).dom e = s.dom e :=
  kvGet_kvSet_other _ _ _ _ _ _ h

/-- ERRQ_POP takes the oldest record of its domain's queue and leaves the other domains as they are. -/
theorem errqPop_takesOldest (s : State) (p : Nat) (w : Writer) (hp : p < 26) (hw : s.mgmtWriter w = true) :
    ∃ t, exec (.errqPop p w) s = .next t ∧ t = { s with errs := t.errs } ∧
      t.dom p = { s.dom p with queue := (s.dom p).queue.drop 1 } ∧ ∀ d, d ≠ p → t.dom d = s.dom d := by
  refine ⟨s.setDom p { s.dom p with queue := (s.dom p).queue.drop 1 }, congrArg Host.Outcome.next (if_neg ?_), rfl,
    State.dom_setDom_same .., fun d hd => State.dom_setDom_other _ _ _ _ hd⟩
  simp [hw, hp]

/-- ABORTLOG_POP takes the oldest record of a fabric die's abort log. -/
theorem abortlogPop_takesOldest (s : State) (f : Nat) (hf : f < 4) (hon : s.domOn (84 + f) = true) :
    ∃ t, exec (.abortlogPop f .host) s = .next t ∧ t = { s with aborts := t.aborts } ∧
      kvGet [] t.aborts f = (kvGet [] s.aborts f).drop 1 := by
  have hreach : mayReachReg .host (fdAbortlogA f) = true :=
    decide_eq_true (by unfold fdAbortlogA; omega)
  refine ⟨{ s with aborts := kvSet [] s.aborts f ((kvGet [] s.aborts f).drop 1) }, congrArg Host.Outcome.next (if_neg ?_), rfl,
    kvGet_kvSet_same ..⟩
  simp [hf, hon, hreach]

/-- The watchdog table with the kicks of two bits, as WDOG_KICK folds it. -/
def State.kicked (s : State) (p bits : Nat) (l : List Nat) : State :=
  l.foldl (fun (s : State) k => if bits.testBit k then { s with wdog := kvSet 0 s.wdog (2 * p + k) s.gtime } else s) s

theorem State.kicked_frame (s : State) (p bits : Nat) (l : List Nat) : s.kicked p bits l = { s with wdog := (s.kicked p bits l).wdog } := by
  refine List.foldlRecOn (motive := fun t : State => t = { s with wdog := t.wdog }) l _ rfl (fun t ht k _ => ?_)
  split
  · rw [ht]
  · exact ht

/-- A kicked core has the present GTIME, and one that is not kicked keeps its own. -/
theorem State.kicked_wdog (p bits : Nat) (l : List Nat) : ∀ (s : State) (k : Nat),
    kvGet 0 (s.kicked p bits l).wdog (2 * p + k) = if k ∈ l ∧ bits.testBit k = true then s.gtime else kvGet 0 s.wdog (2 * p + k) := by
  induction l with
  | nil => exact fun s k => by simp [State.kicked]
  | cons j l ih =>
    intro s k
    have hstep : s.kicked p bits (j :: l) =
        (if bits.testBit j then { s with wdog := kvSet 0 s.wdog (2 * p + j) s.gtime } else s : State).kicked p bits l := rfl
    rw [hstep, ih]
    by_cases hj : bits.testBit j = true
    · by_cases hk : k = j
      · subst hk
        simp [hj]
      · have hne : 2 * p + k ≠ 2 * p + j := by omega
        simp [hj, hk, kvGet_kvSet_other _ _ _ _ _ _ hne]
    · have hk : bits.testBit k = true → k ≠ j := fun h e => hj (e ▸ h)
      by_cases hb : bits.testBit k = true
      · simp [hj, hb, hk hb]
      · simp [hj, hb]

theorem wdogKick_keepsTime (s : State) (now p bits : Nat) (hp : p < 12) (hon : (s.advance now).domOn (72 + p) = true) :
    ∃ t, exec (.wdogKick now p bits (.steward p)) s = .next t ∧ t = { s.advance now with wdog := t.wdog } ∧
      ∀ k, k < 2 → kvGet 0 t.wdog (2 * p + k) =
        if bits.testBit k then (s.advance now).gtime else kvGet 0 (s.advance now).wdog (2 * p + k) := by
  have hreach : mayReachReg (.steward p) (phWdogA p) = true := by
    have hlo : 0x30100000000 + 0x1000000 * p ≤ phWdogA p := by unfold phWdogA; omega
    have hhi : phWdogA p < 0x30100000000 + 0x1000000 * (p + 1) := by unfold phWdogA; omega
    simp [mayReachReg, hlo, hhi]
  refine ⟨(s.advance now).kicked p bits (List.range 2), congrArg Host.Outcome.next (if_neg ?_), State.kicked_frame .., fun k hk => ?_⟩
  · simp [hp, hon, hreach]
  · rw [State.kicked_wdog]
    simp [hk]

/-! ### Bezel fences (R430, R566, R567) -/

/-- A fence order that no reset holds back fences the bezel with its author. -/
theorem State.fenceBezel_effect (s : State) (p author : Nat) (hp : p < 12) (hb : author < 4) (hhold : (s.bezel p).resetHold = false) :
    let t := s.fenceBezel p author
    t.fld (phBezelA p) phBezelState = 2 ∧ t.fld (phBezelA p) phBezelBy = author ∧ t = { s with regs := t.regs, evc := t.evc } := by
  have hfence : s.fenceBezel p author =
      ((s.setFld (phBezelA p) phBezelState 2).setFld (phBezelA p) phBezelBy author).level (32 * (73 + p) + 7) true :=
    if_neg (by simp [hhold])
  obtain ⟨hframe, hregs⟩ :=
    ((s.setFld (phBezelA p) phBezelState 2).setFld (phBezelA p) phBezelBy author).level_onlySource (32 * (73 + p) + 7) true
  have hne : phBezelA p ∉ [evcSrcstatA (32 * (73 + p) + 7)] := by
    simp only [List.mem_singleton, phBezelA, evcSrcstatA]
    omega
  dsimp only
  rw [hfence]
  refine ⟨?_, ?_, ?_⟩
  · rw [hregs.fld hne, State.fld_setFld_other _ _ _ _ _ (by decide) (by decide), State.fld_setFld_same _ _ _ _ (by decide)]
    rfl
  · rw [hregs.fld hne, State.fld_setFld_same _ _ _ _ (by decide)]
    exact Nat.mod_eq_of_lt hb
  · rw [hframe]
    rfl

theorem State.bezelOrder_steward (s : State) (p : Nat) (f : State → Nat → State) (hp : p < 12) (hon : s.domOn (72 + p) = true) :
    s.bezelOrder p (.steward p) f = f s 0 := by
  have hgo : ¬ (12 ≤ p ∨ (!s.domOn (72 + p)) = true) := by simp [hp, hon]
  exact (if_neg hgo).trans (if_pos rfl)

theorem State.bezelOrder_owner (s : State) (p d : Nat) (f : State → Nat → State) (hp : p < 12) (hon : s.domOn (72 + p) = true)
    (hd : s.activeDie = some d) : s.bezelOrder p (.hasia d) f = f s 1 := by
  have hgo : ¬ (12 ≤ p ∨ (!s.domOn (72 + p)) = true) := by simp [hp, hon]
  exact (if_neg hgo).trans (if_pos hd)

theorem State.bezelOrder_foreign (s : State) (p d : Nat) (f : State → Nat → State) (hp : p < 12) (hon : s.domOn (72 + p) = true)
    (hd : s.activeDie ≠ some d) : s.bezelOrder p (.hasia d) f = s.foreign := by
  have hgo : ¬ (12 ≤ p ∨ (!s.domOn (72 + p)) = true) := by simp [hp, hon]
  exact (if_neg hgo).trans (if_neg hd)

theorem exec_bezelFence (s : State) (p : Nat) (w : Writer) :
    exec (.bezelFence p w) s = .next (s.bezelOrder p w (fun s b => s.fenceBezel p b)) := rfl

/-! ### Lane repair (R537, R565) -/

theorem State.loseAdmin_frame (s : State) :
    s.loseAdmin = { s with regs := s.loseAdmin.regs, boot := s.loseAdmin.boot, mgmt := s.loseAdmin.mgmt } := by
  unfold State.loseAdmin
  split
  · rfl
  · dsimp only
    rw [State.trayRec_frame]
    rfl

/-- What a record marks of its partition and of the host die leaves the error domains and every memory and context as they are. -/
theorem State.recMarks_frame (s : State) (d : Nat) (r : ErrRec) :
    s.recMarks d r = { s with
      regs := (s.recMarks d r).regs, boot := (s.recMarks d r).boot, mgmt := (s.recMarks d r).mgmt,
      domains := (s.recMarks d r).domains, free := (s.recMarks d r).free } := by
  unfold State.recMarks
  dsimp only
  rw [State.trayRec_frame, State.loseAdmin_frame]
  repeat' split
  all_goals rfl

@[simp] theorem State.recMarks_errs (s : State) (d : Nat) (r : ErrRec) : (s.recMarks d r).errs = s.errs := by rw [s.recMarks_frame]
@[simp] theorem State.recMarks_gtime (s : State) (d : Nat) (r : ErrRec) : (s.recMarks d r).gtime = s.gtime := by rw [s.recMarks_frame]
@[simp] theorem State.recMarks_mem (s : State) (d : Nat) (r : ErrRec) : (s.recMarks d r).mem = s.mem := by rw [s.recMarks_frame]
@[simp] theorem State.recMarks_ctxs (s : State) (d : Nat) (r : ErrRec) : (s.recMarks d r).ctxs = s.ctxs := by rw [s.recMarks_frame]

theorem State.escFld_frame (s : State) (d : Nat) (f : Fld) (v : Nat) : s.escFld d f v = { s with regs := (s.escFld d f v).regs } := by
  unfold State.escFld
  dsimp only
  split <;> rfl

@[simp] theorem State.escFld_mem (s : State) (d : Nat) (f : Fld) (v : Nat) : (s.escFld d f v).mem = s.mem := by rw [s.escFld_frame]
@[simp] theorem State.escFld_ctxs (s : State) (d : Nat) (f : Fld) (v : Nat) : (s.escFld d f v).ctxs = s.ctxs := by rw [s.escFld_frame]

@[simp] theorem State.addSat_mem (s : State) (a : Nat) (f : Fld) (n : Nat) : (s.addSat a f n).mem = s.mem := rfl
@[simp] theorem State.addSat_ctxs (s : State) (a : Nat) (f : Fld) (n : Nat) : (s.addSat a f n).ctxs = s.ctxs := rfl

/-- A level begins at its domain for a record: whether the action waits for a capture is the only thing that the module's state decides. -/
theorem State.startLevel_dom (s : State) (d lvl : Nat) (r : ErrRec) (raised : Bool) :
    ∃ acting, (s.startLevel d lvl r raised).dom d = { s.dom d with
      level := some lvl, cause := r, raised := raised, acting := acting, since := s.gtime, done := false,
      ends := if raised then (s.dom d).ends else [] } := by
  unfold State.startLevel
  dsimp only
  by_cases hfour : 4 ≤ lvl
  · rw [if_pos hfour]
    exact ⟨_, State.dom_setDom_same ..⟩
  · rw [if_neg hfour]
    by_cases hup : s.hasiaUp = true
    · rw [if_pos hup]
      exact ⟨_, State.dom_setDom_same ..⟩
    · rw [if_neg hup]
      exact ⟨_, State.dom_setDom_same ..⟩

theorem State.startLevel_mem (s : State) (d lvl : Nat) (r : ErrRec) (raised : Bool) : (s.startLevel d lvl r raised).mem = s.mem := by
  unfold State.startLevel
  simp only [apply_ite State.mem, State.setDom_mem, State.addSat_mem, State.escFld_mem, ite_self]

theorem State.startLevel_ctxs (s : State) (d lvl : Nat) (r : ErrRec) (raised : Bool) : (s.startLevel d lvl r raised).ctxs = s.ctxs := by
  unfold State.startLevel
  simp only [apply_ite State.ctxs, State.setDom_ctxs, State.addSat_ctxs, State.escFld_ctxs, ite_self]

/-- A record that starts an action in a domain without a handling, and finds room in its queue, opens one at its level. -/
theorem State.addRecord_opens (s : State) (d l : Nat) (r : ErrRec) (hl : recLevel r = some l) (hnone : (s.dom d).level = none)
    (hroom : (s.dom d).queue.length < 256) :
    let t := s.addRecord d r
    (t.dom d).level = some l ∧ (t.dom d).queue = (s.dom d).queue ++ [(r, s.gtime)] ∧ t.mem = s.mem ∧ t.ctxs = s.ctxs := by
  have hdom : (s.recMarks d r).dom d = s.dom d := by rw [State.dom, State.recMarks_errs, State.dom]
  let u := (s.recMarks d r).setDom d { s.dom d with queue := (s.dom d).queue ++ [(r, s.gtime)] }
  have hqueue : (s.recMarks d r).queueRec d r = (u, false) := by
    unfold State.queueRec
    dsimp only
    rw [hdom, if_pos hroom, State.recMarks_gtime]
  have hud : u.dom d = { s.dom d with queue := (s.dom d).queue ++ [(r, s.gtime)] } := State.dom_setDom_same ..
  have hclosed : u.domOpen d = false := by simp [State.domOpen, hud, hnone]
  have hadd : s.addRecord d r = u.startLevel d l r false := by
    unfold State.addRecord
    simp [hqueue, hl, hclosed]
  obtain ⟨acting, hopened⟩ := u.startLevel_dom d l r false
  dsimp only
  rw [hadd, hopened, hud, u.startLevel_mem, u.startLevel_ctxs]
  exact ⟨rfl, rfl, State.recMarks_mem .., State.recMarks_ctxs ..⟩

/-- A hub's link to its fabric die that cannot be repaired is a record at level 2 where no slice has to be aborted. -/
theorem ucieLaneRepair_hubFails (s : State) (p : Nat) (hp : p < 12) (hon : s.domOn (72 + p) = true) (hnone : (s.dom p).level = none)
    (hroom : (s.dom p).queue.length < 256) (hslices : s.slicesOf p = []) :
    ∃ t, exec (.ucieLaneRepair (24 + p) 2 false) s = .next t ∧ (t.dom p).level = some 2 ∧
      (t.dom p).queue = (s.dom p).queue ++ [(⟨0x20, 2, 24 + p, 2, 0x3FF, 0, 0⟩, s.gtime)] ∧ SameMem s t ∧ t.ctxs = s.ctxs := by
  have hlink : dieLink (24 + p) 2 = some (.part p (24 + p) 2) := by
    have h24 : ¬ 24 + p < 24 := by omega
    have h36 : 24 + p < 36 := by omega
    simp [dieLink, h24, h36]
  obtain ⟨hlevel, hqueue, hmem, hctxs⟩ := s.addRecord_opens p 2 ⟨0x20, 2, 24 + p, 2, 0x3FF, 0, 0⟩ rfl hnone hroom
  refine ⟨_, congrArg Host.Outcome.next ?_, hlevel, hqueue, SameMem.of_mem hmem, hctxs⟩
  simp [hlink, hon, hslices]

theorem execUcieLaneRepair_repaired (s : State) (die port : Nat) : exec (.ucieLaneRepair die port true) s = .next s := rfl

/-! ### The statement -/

/-- Settles O59, clause by clause from the effects of its commands. -/
theorem configurationAndQueues : Obligations.ConfigurationAndQueues := by
  unfold Obligations.ConfigurationAndQueues
  intro s now
  refine ⟨fun hup node z m hn hm h4 h64 hz => ⟨?_, ?_⟩, fun a v => ⟨?_, ?_⟩, ?_, ?_, fun w hw => ⟨?_, ?_⟩, ?_, fun hdue hup hheld => ?_,
    ?_, ?_, ?_, fun p hp hon => ⟨?_, ?_, ?_⟩, ?_, ?_⟩
  · exact fun hready hpos => nodeIdWrite_beforeReady s now node z m hup hn hm h4 h64 hz hready hpos
  · exact fun hready hne => nodeIdWrite_afterReady s now node z m hup hn hready hne
  · exact fun p h => registerWrite_notArriving s now a v p h
  · exact fun d hd ha => ⟨_, registerWrite_foreign s now a v d hd ha, State.foreign_onlyRegs _, State.foreign_count _⟩
  · exact fun hon hready v => registerWrite_gtDisccfg_afterReady s now v hon hready
  · exact fun hup e hlo hhi hheld hnew hlen => overlayAppend_new s e hup hlo hhi hheld hnew hlen
  · exact overlayClear_rma s w hw
  · exact overlayClear_ignored s w hw
  · exact fun h a b => execMcbWrite_notDue s a b h
  · obtain ⟨hA, hBA, hdone, hgen, -⟩ := s.writeMcb_both_effect hup hheld
    have hAonly := s.writeMcb_aOnly hup hheld
    have hnone := s.writeMcb_none true hup hheld
    refine ⟨⟨_, execMcbWrite_due s true true hdue, ?_, ?_, hBA, hdone, hgen⟩, ⟨_, execMcbWrite_due s true false hdue, ?_⟩,
      ⟨_, execMcbWrite_due s false true hdue, ?_⟩⟩
    · rw [hA]
      rfl
    · rw [hA]
      rfl
    · rw [hAonly]
      exact ⟨rfl, rfl, rfl⟩
    · rw [hnone]
      exact ⟨rfl, rfl⟩
  · exact errqPop_takesOldest s
  · exact abortlogPop_takesOldest s
  · exact fun p bits hp hon => wdogKick_keepsTime s now p bits hp hon
  · intro hhold
    exact ⟨_, (exec_bezelFence s p _).trans (congrArg _ (s.bezelOrder_steward p _ hp hon)), s.fenceBezel_effect p 0 hp (by decide) hhold⟩
  · intro hhold d hd
    exact ⟨_, (exec_bezelFence s p _).trans (congrArg _ (s.bezelOrder_owner p d _ hp hon hd)),
      s.fenceBezel_effect p 1 hp (by decide) hhold⟩
  · intro d hd
    exact ⟨_, (exec_bezelFence s p _).trans (congrArg _ (s.bezelOrder_foreign p d _ hp hon hd)), s.foreign_onlyRegs⟩
  · exact fun die port => execUcieLaneRepair_repaired s die port
  · exact fun p hp hon hnone hroom hslices => ucieLaneRepair_hubFails s p hp hon hnone hroom hslices

end Sys2Proof.Machine
end

section
/-!
PROOF. O2 and O3: every command and every step completes, takes nothing from the queue but the front command, and keeps memory canonical.
-/

namespace Sys2Proof.Machine

/-- No command faults or is refused: a row without its condition changes nothing and answers a next state (log entry 5). -/
theorem exec_completes (i : Instr) (s : State) : Completes i s := by
  unfold Completes
  cases i <;> exact ⟨_, rfl⟩

theorem step_pending_nil {s : State} (h : s.pending = []) : step s = .next (s.advance (s.gtime + 1)) := by
  unfold step
  rw [h]

theorem step_pending_cons {s : State} {c : Instr} {cs : List Instr} (h : s.pending = c :: cs) :
    step s = exec c { s with pending := cs } := by
  unfold step
  rw [h]

/-- A step keeps the rest of the queue, and the canonical form of memory. -/
theorem step_kept {s t : State} (hm : Memory.wf s.mem = true) (e : step s = .next t) : t.Kept s.pending.tail := by
  cases hp : s.pending with
  | nil =>
    rw [step_pending_nil hp] at e
    cases e
    exact s.advance_kept _ ⟨hp, hm⟩
  | cons c cs =>
    rw [step_pending_cons hp] at e
    exact exec_kept c { s with pending := cs } ⟨rfl, hm⟩ e

/-- Settles O2: a command completes, and what it answers keeps the queue and the canonical form of memory. -/
theorem everyCommandCompletes : Obligations.EveryCommandCompletes := by
  unfold Obligations.EveryCommandCompletes
  intro i s hm
  obtain ⟨t, ht⟩ := exec_completes i s
  obtain ⟨hqueue, hwf⟩ := exec_kept i s ⟨rfl, hm⟩ ht
  exact ⟨t, ht, hqueue, hwf⟩

/-- Settles O3, by whether a command waits: a tick of GTIME, or the front command on the rest of the queue. -/
theorem stepKeepsInvariant : Obligations.StepKeepsInvariant := by
  unfold Obligations.StepKeepsInvariant
  intro s t hm ht
  obtain ⟨hqueue, hwf⟩ := step_kept hm ht
  exact ⟨hwf, hqueue⟩

end Sys2Proof.Machine
end

section
/-!
SUPPORT. What reads and writes of memory may change: a read the registers that count and log, a write besides those the bytes of its
range and the marks of tile store. Codewords are taken in order, so that no read writes one back.
-/

namespace Sys2Proof.Machine

/-! ### Logs -/

/-- Between `s` and `t` nothing differs but registers, event sources and the logs of uncorrectable codewords. -/
def OnlyLogs (s t : State) : Prop := t = { s with regs := t.regs, evc := t.evc, uelog := t.uelog }

section Logs

variable {s t u : State}

theorem OnlyLogs.refl (s : State) : OnlyLogs s s := rfl

theorem OnlyLogs.trans (h : OnlyLogs s t) (h' : OnlyLogs t u) : OnlyLogs s u := by
  unfold OnlyLogs at h h' ⊢
  rw [h', h]

theorem OnlyLogs.mem (h : OnlyLogs s t) : t.mem = s.mem := by rw [h]

theorem OnlyLogs.cwErr (h : OnlyLogs s t) : t.cwErr = s.cwErr := by rw [h]

theorem OnlyLogs.ctxs (h : OnlyLogs s t) : t.ctxs = s.ctxs := by rw [h]

theorem OnlyLogs.setFld (h : OnlyLogs s t) (a : Nat) (f : Fld) (v : Nat) : OnlyLogs s (t.setFld a f v) := h.trans rfl

theorem OnlyLogs.addSat (h : OnlyLogs s t) (a : Nat) (f : Fld) (n : Nat) : OnlyLogs s (t.addSat a f n) := h.trans rfl

theorem OnlyLogs.raise (h : OnlyLogs s t) (src : Nat) : OnlyLogs s (t.raise src) := by
  obtain ⟨hframe, -⟩ := t.raise_onlySource src
  refine h.trans ?_
  unfold OnlyLogs
  rw [hframe]

theorem OnlyLogs.logUe (h : OnlyLogs s t) (die : Nat) (r : UeRec) : OnlyLogs s (t.logUe die r) := by
  refine OnlyLogs.raise ?_ _
  split
  · exact h.trans rfl
  · exact h.setFld _ _ _

/-- A fold whose every turn changes logs alone. -/
theorem OnlyLogs.foldl {α : Type} (step : State → α → State) (l : List α) (h : OnlyLogs s t)
    (hstep : ∀ u, OnlyLogs s u → ∀ x ∈ l, OnlyLogs s (step u x)) : OnlyLogs s (l.foldl step t) :=
  List.foldlRecOn l step h hstep

end Logs

/-! ### Reads -/

/-- A codeword without a difference from a valid one decodes as clean (R153). -/
theorem rsDecode_noError (limit : Nat) : rsDecode limit 0 [] = (.clean, 0) := by
  unfold rsDecode
  rfl

/-- A read of a codeword in order changes logs alone, and those only where its unit has failed (R158, R163). -/
theorem State.readCw_onlyLogs (s : State) (cw source : Nat) (h : s.cwErr = []) : OnlyLogs s (s.readCw cw source []).1 := by
  unfold State.readCw
  dsimp only
  split
  · exact ((OnlyLogs.refl s).addSat _ _ _).logUe _ _
  · have hclean : rsDecode (s.fld (memcfgA (memDie (64 * cw))) phMemcfgCorrLimit) (kvGet 0 s.cwErr cw) [] = (.clean, 0) := by
      rw [h]
      exact rsDecode_noError _
    rw [hclean]
    exact OnlyLogs.refl s

theorem State.readCws_onlyLogs (source : Nat) (l : List Nat) :
    ∀ s : State, s.cwErr = [] → OnlyLogs s (s.readCws source l).1 := by
  induction l with
  | nil => exact fun s _ => OnlyLogs.refl s
  | cons cw l ih =>
    intro s h
    have hone := s.readCw_onlyLogs cw source h
    exact hone.trans (ih _ (hone.cwErr.trans h))

/-- A read of tile store counts its errors and changes nothing else (R110, R111). -/
theorem State.tsCheck_onlyLogs (s : State) (t a n : Nat) : OnlyLogs s (s.tsCheck t a n).1 :=
  OnlyLogs.foldl _ _ ((OnlyLogs.refl s).addSat _ _ _) (fun _ hu _ _ => ((hu.addSat _ _ _).setFld _ _ _).raise _)

theorem State.readMem_onlyLogs (s : State) (source a n : Nat) (h : s.cwErr = []) : OnlyLogs s (s.readMem source a n).st := by
  unfold State.readMem
  split
  · exact s.tsCheck_onlyLogs _ _ _
  · exact State.readCws_onlyLogs _ _ _ h

/-! ### Writes -/

/-- Between `s` and `t` no byte outside the `n` bytes from `a` on differs, and besides memory nothing but the marks of tile store and
what `OnlyLogs` lists. -/
def StoresIn (s t : State) (a n : Nat) : Prop :=
  t = { s with mem := t.mem, tsBad := t.tsBad, regs := t.regs, evc := t.evc, uelog := t.uelog } ∧
  ∀ b, ¬(a ≤ b ∧ b < a + n) → t.byteAt b = s.byteAt b

section Stores

variable {s t u : State} {a n : Nat}

theorem StoresIn.frame (h : StoresIn s t a n) :
    t = { s with mem := t.mem, tsBad := t.tsBad, regs := t.regs, evc := t.evc, uelog := t.uelog } := h.1

theorem StoresIn.byteAt (h : StoresIn s t a n) {b : Nat} (hb : ¬(a ≤ b ∧ b < a + n)) : t.byteAt b = s.byteAt b := h.2 b hb

theorem StoresIn.cwErr (h : StoresIn s t a n) : t.cwErr = s.cwErr := by rw [h.frame]

theorem StoresIn.ctxs (h : StoresIn s t a n) : t.ctxs = s.ctxs := by rw [h.frame]

theorem OnlyLogs.storesIn (h : OnlyLogs s t) (a n : Nat) : StoresIn s t a n := by
  refine ⟨?_, fun b _ => by simp only [State.byteAt, h.mem]⟩
  unfold OnlyLogs at h
  rw [h]

theorem StoresIn.trans (h : StoresIn s t a n) (h' : StoresIn t u a n) : StoresIn s u a n := by
  refine ⟨?_, fun b hb => (h'.byteAt hb).trans (h.byteAt hb)⟩
  rw [h'.frame, h.frame]

/-- What changes bytes of a range alone changes bytes of a wider one alone. -/
theorem StoresIn.widen {a' n' : Nat} (h : StoresIn s t a' n') (hsub : ∀ b, a' ≤ b → b < a' + n' → a ≤ b ∧ b < a + n) :
    StoresIn s t a n :=
  ⟨h.frame, fun _ hb => h.byteAt (fun hin => hb (hsub _ hin.1 hin.2))⟩

end Stores

/-- Bytes written from an address on change memory in their range alone. -/
theorem State.storesIn_kvWrite (s : State) (a : Nat) (bs : List Byte) : StoresIn s { s with mem := kvWrite 0 s.mem a bs } a bs.length :=
  ⟨rfl, fun _ hb => kvGet_kvWrite_other _ _ _ _ _ _ (by omega)⟩

theorem State.setMarks_storesIn (s : State) (w n v a m : Nat) : StoresIn s (s.setMarks w n v) a m := by
  unfold State.setMarks
  dsimp only
  split <;> exact ⟨rfl, fun _ _ => rfl⟩

theorem State.writeWord_storesIn (s : State) (a : Nat) (bs : List Byte) : StoresIn s (s.writeWord a bs).st a bs.length := by
  have hput := s.storesIn_kvWrite a bs
  have hnone := (OnlyLogs.refl s).storesIn a bs.length
  unfold State.writeWord
  dsimp only
  split
  · exact hnone
  · split
    · exact hput.trans (State.setMarks_storesIn ..)
    · split
      · exact hnone
      · exact hput

theorem State.writeCw_storesIn (s : State) (a : Nat) (bs : List Byte) (h : s.cwErr = []) : StoresIn s (s.writeCw a bs).st a bs.length := by
  have hread := s.readCw_onlyLogs (a / 64) 0 h
  unfold State.writeCw
  dsimp only
  split
  · exact (OnlyLogs.refl s).storesIn _ _
  · split
    · exact hread.storesIn _ _
    · split
      · have herr : kvSet 0 s.cwErr (a / 64) 0 = s.cwErr := by
          rw [h]
          rfl
        rw [herr]
        exact s.storesIn_kvWrite a bs
      · split
        · exact hread.storesIn _ _
        · exact (hread.storesIn _ _).trans (State.storesIn_kvWrite ..)

/-- A write in a head, a middle and a tail stores in its range where each of its pieces stores in its own. -/
theorem State.writeSplit_storesIn (s : State) (g : Nat) (part : State → Nat → List Byte → WriteOut)
    (whole : State → Nat → List Byte → State) (a : Nat) (bs : List Byte) (h : s.cwErr = [])
    (hpart : ∀ u b cs, u.cwErr = [] → StoresIn u (part u b cs).st b cs.length)
    (hwhole : ∀ u b cs, u.cwErr = [] → StoresIn u (whole u b cs) b cs.length) :
    StoresIn s (s.writeSplit g part whole a bs).st a bs.length := by
  unfold State.writeSplit
  dsimp only
  generalize hhl : min ((g - a % g) % g) bs.length = hl
  have hle : hl ≤ bs.length := by omega
  generalize hml : (bs.drop hl).length / g * g = ml
  have hmle : ml ≤ bs.length - hl := by
    rw [← hml, List.length_drop]
    exact Nat.div_mul_le_self _ _
  have hhead : StoresIn s (part s a (bs.take hl)).st a bs.length :=
    (hpart _ _ _ h).widen (fun b => by rw [List.length_take]; omega)
  generalize (part s a (bs.take hl)).st = s1 at hhead
  have hmid : StoresIn s (if ml = 0 then s1 else whole s1 (a + hl) ((bs.drop hl).take ml)) a bs.length := by
    split
    · exact hhead
    · exact hhead.trans ((hwhole _ _ _ (hhead.cwErr.trans h)).widen (fun b => by
        rw [List.length_take, List.length_drop]
        omega))
  exact hmid.trans ((hpart _ _ _ (hmid.cwErr.trans h)).widen (fun b => by
    rw [List.length_drop, List.length_drop]
    omega))

/-- A unit's write changes no byte outside its range (R111, R157, R163). -/
theorem State.writeMem_storesIn (s : State) (a : Nat) (bs : List Byte) (h : s.cwErr = []) :
    StoresIn s (s.writeMem a bs).st a bs.length := by
  unfold State.writeMem
  split
  · refine s.writeSplit_storesIn 8 _ _ a bs h (fun u b cs _ => u.writeWord_storesIn b cs) (fun u b cs _ => ?_)
    exact (u.storesIn_kvWrite b cs).trans (State.setMarks_storesIn ..)
  · split
    · refine List.foldlRecOn (motive := fun r : WriteOut => StoresIn s r.st a bs.length) _ _
        ((OnlyLogs.refl s).storesIn _ _) (fun r hr i _ => ?_)
      refine hr.trans ((r.st.writeCw_storesIn _ _ (hr.cwErr.trans h)).widen (fun b => ?_))
      rw [List.length_take]
      omega
    · refine s.writeSplit_storesIn 64 _ _ a bs h (fun u b cs hu => u.writeCw_storesIn b cs hu) (fun u b cs hu => ?_)
      have herr : kvClear u.cwErr (b / 64) (cs.length / 64) = u.cwErr := by
        rw [hu]
        rfl
      rw [herr]
      exact u.storesIn_kvWrite b cs

/-- Where no command holds blocks, a write under the journal is the bare write (R177, R178). -/
theorem State.storeBy_noHolds (s : State) (owner : Option (Nat × Nat)) (a : Nat) (bs : List Byte) (h : s.holds = []) :
    s.storeBy owner a bs = ⟨(s.writeMem a bs).st, (s.writeMem a bs).bad, none⟩ := by
  have hheld : s.heldIn a bs.length = [] := by
    unfold State.heldIn
    rw [h]
    rfl
  unfold State.storeBy
  rw [hheld]
  rfl

theorem State.storeBy_storesIn (s : State) (owner : Option (Nat × Nat)) (a : Nat) (bs : List Byte) (h : s.Plain) :
    StoresIn s (s.storeBy owner a bs).st a bs.length := by
  obtain ⟨hholds, herr⟩ := h
  rw [s.storeBy_noHolds owner a bs hholds]
  exact s.writeMem_storesIn a bs herr

end Sys2Proof.Machine
end

section
/-!
PROOF. O41, first part: the instructions and accesses of a hart.
-/

namespace Sys2Proof.Machine

/-! ### One more count at an event source (R500, R511) -/

@[simp] theorem State.reg_setEvSrc (s : State) (n : Nat) (x : EvcSrc) (a : Nat) : (s.setEvSrc n x).reg a = s.reg a := rfl

theorem State.countSource_pending (s : State) (src info : Nat) :
    (s.countSource src info).fld (evcSrcstatA src) evcSrcstatPending = 1 := by
  unfold State.countSource State.fld
  dsimp only
  rw [State.reg_setEvSrc, State.reg_setReg_same, fget_fset_same _ _ _ (by decide)]
  rfl

theorem State.countSource_count (s : State) (src info : Nat) :
    (s.countSource src info).fld (evcSrcstatA src) evcSrcstatCount = min 255 (s.fld (evcSrcstatA src) evcSrcstatCount + 1) := by
  have hlt : s.fld (evcSrcstatA src) evcSrcstatCount < 256 := fget_lt _ _
  unfold State.countSource State.fld at *
  dsimp only
  rw [State.reg_setEvSrc, State.reg_setReg_same, fget_fset_other _ _ _ _ (by decide) (by decide)]
  split
  · rename_i hfull
    rw [fget_fset_other _ _ _ _ (by decide) (by decide)]
    omega
  · rw [fget_fset_same _ _ _ (by decide), Nat.mod_eq_of_lt (by show _ < 256; omega)]
    omega

theorem State.countSource_info (s : State) (src info : Nat) : ((s.countSource src info).evSrc src).info = info := by
  unfold State.countSource
  dsimp only
  rw [State.evSrc_setEvSrc_same]

/-! ### A hart that runs (R117, R273) -/

theorem State.xmei_runs (s : State) (t h : Nat) (f : Nat → State) (hruns : s.pipRuns t h = true) (hctx : s.pipCtx t h < 800) :
    s.xmei t h f = f (s.pipCtx t h) := by
  unfold State.xmei
  rw [if_neg (by simp [hruns]), if_neg (by omega)]

/-- A trap leaves everything but the harts as it is, and names its cause. -/
theorem State.pipTrap_frame (s : State) (t h cause : Nat) (bad : Bool) :
    s.pipTrap t h cause bad = { s with harts := (s.pipTrap t h cause bad).harts } := rfl

theorem State.pipTrap_trap (s : State) (t h cause : Nat) (bad : Bool) : ((s.pipTrap t h cause bad).hart t h).trap = cause + 1 := by
  unfold State.pipTrap
  rw [State.hart_setHart_same]

theorem State.pipPut_frame (s : State) (t h rd v : Nat) : s.pipPut t h rd v = { s with harts := (s.pipPut t h rd v).harts } := rfl

/-- A written register other than x0 reads as the low 64 bits of what was written. -/
theorem State.pipPut_get (s : State) (t h rd v : Nat) (hrd : rd ≠ 0) : ((s.pipPut t h rd v).hart t h).get rd = v % two64 := by
  unfold State.pipPut Hart.put Hart.get
  rw [State.hart_setHart_same, if_neg hrd, if_neg hrd, kvGet_kvSet_same]

/-- A hart without a kernel runs untranslated. -/
theorem Hart.translates_noJob (x : Hart) (a n : Nat) (h : x.job = none) : x.translates a n = true := by
  unfold Hart.translates
  rw [h]
  rfl

/-! ### The snapshot of a context's counters (R124, R595) -/

/-- Latching a bank draws free values and changes nothing else. -/
theorem State.cntLatch_frame (l : List (Nat × Nat)) : ∀ s : State, (s.cntLatch l).2 = { s with free := (s.cntLatch l).2.free } := by
  induction l with
  | nil => exact fun s => rfl
  | cons p l ih =>
    intro s
    unfold State.cntLatch
    dsimp only
    split
    · rw [ih]
      rfl
    · exact ih s

@[simp] theorem length_natLe : ∀ n k : Nat, (natLe n k).length = n
  | 0, _ => rfl
  | n + 1, k => congrArg (· + 1) (length_natLe n (k / 256))

theorem length_flatMap_natLe (n : Nat) (l : List Nat) : (l.flatMap (natLe n)).length = n * l.length := by
  induction l with
  | nil => rfl
  | cons k l ih => rw [List.flatMap_cons, List.length_append, length_natLe, ih, List.length_cons, Nat.mul_succ, Nat.add_comm]

/-- A snapshot fits in its 128 bytes. -/
theorem length_cntRecord_le (time ctx : Nat) (vals : List Nat) : (cntRecord time ctx vals).length ≤ 128 := by
  have hvals := length_flatMap_natLe 8 (vals.take 8)
  have htake : (vals.take 8).length ≤ 8 := List.length_take_le _ _
  unfold cntRecord zeros
  simp only [List.length_append, length_natLe, List.length_replicate, hvals]
  omega

/-- Latching a context's counters changes no memory. -/
theorem State.cntLatchCtx_plain (s : State) (c : Nat) (h : s.Plain) : (s.cntLatchCtx c).2.Plain ∧ SameMem s (s.cntLatchCtx c).2 := by
  unfold State.cntLatchCtx
  rw [State.cntLatch_frame]
  exact ⟨h, fun _ => rfl⟩

/-! ### EVT_RAISE (R123) -/

section Runs

variable {s : State} {tile hart : Nat} (hruns : s.pipRuns tile hart = true) (hctx : s.pipCtx tile hart < 800)
include hruns

/-- A running hart with a valid context executes an XMEI instruction. -/
theorem State.next_xmei (f : Nat → State) (hctx : s.pipCtx tile hart < 800) :
    (Host.Outcome.next (s.xmei tile hart f) : Host.Outcome State Fault Refusal) = .next (f (s.pipCtx tile hart)) :=
  congrArg _ (s.xmei_runs tile hart f hruns hctx)

include hctx

theorem evtRaise_illegal (rs1 : Nat) (hv : 31 < (s.hart tile hart).get rs1) :
    exec (.evtRaise tile hart rs1) s = .next (s.pipTrap tile hart 2 false) :=
  (State.next_xmei hruns _ hctx).trans (congrArg _ (if_pos hv))

/-- A number that R493 assigns counts at its occurrence source, with the hart's global number. -/
theorem evtRaise_counts (rs1 : Nat) (hv : (s.hart tile hart).get rs1 ≤ 31)
    (hassigned : evcAssigned (32 * tile + (s.hart tile hart).get rs1) = true)
    (hocc : evcIsLevel (32 * tile + (s.hart tile hart).get rs1) = false) :
    exec (.evtRaise tile hart rs1) s =
      .next (s.countSource (32 * tile + (s.hart tile hart).get rs1) (32 * (tile % 2) + hart)) := by
  refine (State.next_xmei hruns _ hctx).trans (congrArg _ ?_)
  rw [if_neg (by omega)]
  unfold State.raiseInfo
  rw [if_pos (by rw [hassigned, hocc]; rfl)]

/-! ### CNT_SNAP (R124) -/

theorem cntSnap_bankOff (rd rs1 : Nat) (hoff : (s.ctx (s.pipCtx tile hart)).cntOn = false) :
    exec (.cntSnap tile hart rd rs1) s = .next (s.pipPut tile hart rd 1) :=
  (State.next_xmei hruns _ hctx).trans (congrArg _ (if_pos (by rw [hoff]; rfl)))

/-- An address that is no multiple of 128 is misaligned (cause 6, log entry 104). -/
theorem cntSnap_misaligned (rd rs1 : Nat) (hon : (s.ctx (s.pipCtx tile hart)).cntOn = true)
    (hal : aligned 128 ((s.hart tile hart).get rs1) = false) :
    exec (.cntSnap tile hart rd rs1) s = .next (s.pipTrap tile hart 6 false) := by
  refine (State.next_xmei hruns _ hctx).trans (congrArg _ ?_)
  rw [if_neg (by simp [hon]), if_pos (by simp [hal])]

/-- A snapshot changes no byte outside its 128 bytes, whether or not bad data stops it. -/
theorem cntSnap_byteAt (rd rs1 : Nat) (hon : (s.ctx (s.pipCtx tile hart)).cntOn = true)
    (hal : aligned 128 ((s.hart tile hart).get rs1) = true) (htr : (s.hart tile hart).translates ((s.hart tile hart).get rs1) 128 = true)
    (hts : inTileStore ((s.hart tile hart).get rs1) = true)
    (hreach : s.pipReaches tile (s.pipCtx tile hart) ((s.hart tile hart).get rs1) 128 = true) (hplain : s.Plain) :
    ∃ t, exec (.cntSnap tile hart rd rs1) s = .next t ∧
      ∀ a, ¬((s.hart tile hart).get rs1 ≤ a ∧ a < (s.hart tile hart).get rs1 + 128) → t.byteAt a = s.byteAt a := by
  refine ⟨_, State.next_xmei hruns _ hctx, fun a ha => ?_⟩
  dsimp only
  rw [if_neg (by simp [hon]), if_neg (by simp [hal]), if_neg (by simp [htr]), if_neg (by simp [hts, hreach])]
  obtain ⟨hlatched, hsame⟩ := s.cntLatchCtx_plain (s.pipCtx tile hart) hplain
  generalize s.cntLatchCtx (s.pipCtx tile hart) = latch at hlatched hsame ⊢
  have hlen := length_cntRecord_le latch.2.gtime (s.pipCtx tile hart) latch.1
  generalize cntRecord latch.2.gtime (s.pipCtx tile hart) latch.1 = snap at hlen ⊢
  have hstore := latch.2.storeBy_storesIn (some (s.pipCtx tile hart, latch.2.pipCseq tile hart)) ((s.hart tile hart).get rs1) snap hlatched
  have hbyte := (hstore.widen (fun b _ _ => ⟨by omega, by omega⟩)).byteAt ha
  split
  · exact hbyte.trans (hsame a)
  · exact hbyte.trans (hsame a)

/-! ### PIP_ACCESS (R37, R111, R115, R116) -/

omit hctx

theorem pipAccess_load_args (addr len : Nat) (data : List Byte) (hjob : (s.hart tile hart).job.isSome = true)
    (hlo : (s.hart tile hart).get 11 ≤ addr) (hhi : addr + len ≤ (s.hart tile hart).get 11 + (s.hart tile hart).args.length) :
    exec (.pipAccess tile hart .load addr len data) s =
      .next (s.answer (.bytes (((s.hart tile hart).args.drop (addr - (s.hart tile hart).get 11)).take len))) := by
  refine congrArg Host.Outcome.next ((if_neg (by simp [hruns])).trans ?_)
  exact if_pos ⟨hjob, hlo, hhi⟩

theorem pipAccess_load_beyondRights (addr len : Nat) (data : List Byte) (hjob : (s.hart tile hart).job = none)
    (hreach : s.pipReaches tile (s.pipCtx tile hart) addr len = false) :
    exec (.pipAccess tile hart .load addr len data) s = .next ((s.pipTrap tile hart 5 false).answer .fault) := by
  refine congrArg Host.Outcome.next ((if_neg (by simp [hruns])).trans ?_)
  dsimp only
  rw [if_neg (by simp [hjob]), if_neg (by simp [Hart.translates_noJob _ _ _ hjob]), if_pos (by simp [hreach])]

theorem pipAccess_time_noKernel (addr len : Nat) (data : List Byte) (hjob : (s.hart tile hart).job = none) :
    exec (.pipAccess tile hart .timeRead addr len data) s = .next (s.answer (.bytes (natLe 8 s.gtime))) := by
  refine congrArg Host.Outcome.next ((if_neg (by simp [hruns])).trans ?_)
  dsimp only
  unfold State.pipTime
  simp [hjob]

omit hruns in
/-- A store of a pip changes no byte outside its range: it stands in the data cache or reaches memory (R114, R162). -/
theorem State.pipStore_byteAt (c addr : Nat) (data : List Byte) (hplain : s.Plain) {a : Nat}
    (ha : ¬(addr ≤ a ∧ a < addr + data.length)) : (s.pipStore tile hart c addr data).byteAt a = s.byteAt a := by
  have hstore := (s.storeBy_storesIn (some (c, s.pipCseq tile hart)) addr data hplain).byteAt ha
  unfold State.pipStore
  dsimp only
  split
  · rfl
  · split
    · exact hstore
    · exact hstore

theorem pipAccess_store (addr len : Nat) (data : List Byte) (hplain : s.Plain) :
    ∃ t, exec (.pipAccess tile hart .store addr len data) s = .next t ∧
      ∀ a, ¬(addr ≤ a ∧ a < addr + data.length) → t.byteAt a = s.byteAt a := by
  refine ⟨_, congrArg Host.Outcome.next (if_neg (by simp [hruns])), fun a ha => ?_⟩
  dsimp only
  split
  · rfl
  · split
    · rfl
    · exact State.pipStore_byteAt _ addr data hplain ha

end Runs

end Sys2Proof.Machine
end

section
/-!
PROOF. O41, second part: the host's accesses to memory, and the statement.
-/

namespace Sys2Proof.Machine

/-! ### HOST_ACCESS (R37 to R39) -/

/-- What an access of the host comes to where its address lies in memory, by the way that its partition or segment gives it. -/
def State.hostMemory (s : State) (write : Bool) (addr len : Nat) (data : List Byte) : HostWay → State
  | .wait => s
  | .fault none => s.answer .fault
  | .fault (some p) => (s.hostRefused p).answer .fault
  | .go =>
    if write then (s.store none addr data).answer .none
    else (s.readMem 0 addr len).st.answer ((s.readMem 0 addr len).data.elim .fault .bytes)

/-- Below the register region an address names memory or nothing. -/
theorem regionOf_below_regs {a : Nat} (h : a < 0x30000000000) :
    (∀ c, regionOf a ≠ .intake c) ∧ regionOf a ≠ .regs ∧ regionOf a ≠ .mgmt := by
  unfold regionOf
  simp only [if_pos h]
  repeat' split
  all_goals simp

section Host

variable {s : State} {w : Bool} {addr len : Nat} {data : List Byte} (hon : s.domOn 96 = true) (hpos : len ≠ 0) (hle : len ≤ 64)
  (hlen : w = true → data.length = len)
include hon hpos hle hlen

/-- The host die is on and the access well-formed: the row does not fall away. -/
theorem hostAccess_served : ¬((!s.domOn 96) = true ∨ len = 0 ∨ 64 < len ∨ (w = true ∧ data.length ≠ len)) := by
  rintro (hoff | hzero | hlong | ⟨hw, hne⟩)
  · simp [hon] at hoff
  · exact hpos hzero
  · omega
  · exact hne (hlen hw)

theorem hostAccess_mgmt (hmgmt : regionOf addr = .mgmt) : exec (.hostAccess w addr len data) s = .next (s.answer .fault) := by
  refine congrArg Host.Outcome.next ((if_neg (hostAccess_served hon hpos hle hlen)).trans ?_)
  rw [hmgmt]

theorem hostAccess_memory (hmem : addr < 0x30000000000) :
    exec (.hostAccess w addr len data) s = .next (s.hostMemory w addr len data (s.memWay addr len)) := by
  obtain ⟨hintake, hregs, hmgmt⟩ := regionOf_below_regs hmem
  refine congrArg Host.Outcome.next ((if_neg (hostAccess_served hon hpos hle hlen)).trans ?_)
  split
  · exact absurd ‹_› (hintake _)
  · exact absurd ‹_› hregs
  · exact absurd ‹_› hmgmt
  · cases s.memWay addr len with
    | wait => rfl
    | fault conf => cases conf <;> rfl
    | go =>
      unfold State.hostMemory
      dsimp only
      cases (s.readMem 0 addr len).data <;> rfl

end Host

/-- An access that memory takes leaves the contexts as they are; a store changes no byte outside its range, a load none. -/
theorem State.hostMemory_go (s : State) (w : Bool) (addr len : Nat) (data : List Byte) (hplain : s.Plain) :
    let t := s.hostMemory w addr len data .go
    t.ctxs = s.ctxs ∧ ∀ a, (w = true → ¬(addr ≤ a ∧ a < addr + data.length)) → t.byteAt a = s.byteAt a := by
  have hstore := s.storeBy_storesIn none addr data hplain
  obtain ⟨-, herr⟩ := hplain
  have hread := s.readMem_onlyLogs 0 addr len herr
  cases w with
  | true => exact ⟨hstore.ctxs, fun a ha => hstore.byteAt (ha rfl)⟩
  | false => exact ⟨hread.ctxs, fun a _ => SameMem.of_mem hread.mem a⟩

/-! ### The statement -/

/-- Settles O41, clause by clause from what each instruction and access answers. -/
theorem pipEventsAndAccesses : Obligations.PipEventsAndAccesses := by
  unfold Obligations.PipEventsAndAccesses
  refine ⟨fun s tile hart rd rs1 hruns hctx => ⟨fun hv => ?_, fun hv hassigned hocc => ?_, fun hoff => ?_, fun hon hal => ?_, ?_⟩,
    fun s tile hart addr len data hruns => ⟨fun hjob hlo hhi => ?_, fun hjob hreach => ?_, fun hplain => ?_, fun hjob => ?_⟩,
    fun s w addr len data hon hpos hle hlen => ?_⟩
  · exact ⟨_, evtRaise_illegal hruns hctx rs1 hv, State.pipTrap_frame .., State.pipTrap_trap ..⟩
  · obtain ⟨hframe, hregs⟩ := (OnlySource.refl s (32 * tile + (s.hart tile hart).get rs1)).countSource (32 * (tile % 2) + hart)
    exact ⟨_, evtRaise_counts hruns hctx rs1 hv hassigned hocc, State.countSource_pending .., State.countSource_count ..,
      State.countSource_info .., hframe, hregs⟩
  · exact ⟨_, cntSnap_bankOff hruns hctx rd rs1 hoff, State.pipPut_frame .., fun hrd => State.pipPut_get _ _ _ _ _ hrd⟩
  · exact ⟨_, cntSnap_misaligned hruns hctx rd rs1 hon hal, State.pipTrap_frame .., State.pipTrap_trap ..⟩
  · exact cntSnap_byteAt hruns hctx rd rs1
  · exact ⟨_, pipAccess_load_args hruns addr len data hjob hlo hhi, rfl⟩
  · exact ⟨_, pipAccess_load_beyondRights hruns addr len data hjob hreach, rfl, State.pipTrap_trap .., rfl⟩
  · exact pipAccess_store hruns addr len data hplain
  · exact pipAccess_time_noKernel hruns addr len data hjob
  · refine ⟨hostAccess_mgmt hon hpos hle hlen, fun hmem hway hplain => ?_, fun hmem hway => ?_⟩
    · obtain ⟨hctxs, hbytes⟩ := s.hostMemory_go w addr len data hplain
      refine ⟨_, (hostAccess_memory hon hpos hle hlen hmem).trans (by rw [hway]), hctxs, fun a ha => hbytes a (fun hw => ?_)⟩
      rw [hlen hw]
      exact ha hw
    · rw [hostAccess_memory hon hpos hle hlen hmem, hway]
      rfl

end Sys2Proof.Machine
end

section
/-!
PROOF. O46: accesses to main memory whose codewords are in order.
-/

namespace Sys2Proof.Machine

/-! ### Reads and scrubs of a codeword in order (R153, R160) -/

theorem memDie_lt (a : Nat) : memDie a < 14 := by
  unfold memDie
  split <;> omega

/-- A read of a codeword in order, in a unit that has not failed, is clean and changes nothing (R153). -/
theorem State.readCw_inOrder (s : State) (cw source : Nat) (h : s.cwErr = []) (hunit : s.unitFailed (64 * cw) = false) :
    s.readCw cw source [] = (s, .clean) := by
  have hclean : rsDecode (s.fld (memcfgA (memDie (64 * cw))) phMemcfgCorrLimit) (kvGet 0 s.cwErr cw) [] = (.clean, 0) := by
    rw [h]
    exact rsDecode_noError _
  unfold State.readCw
  dsimp only
  rw [if_neg (by simp [hunit]), hclean]

/-- Without upsets a read finds the codeword as it was. -/
theorem State.upset_nil (s : State) (cw : Nat) (h : s.cwErr = []) : s.upset cw [] = s := by
  have hset : kvSet 0 s.cwErr cw (kvGet 0 s.cwErr cw ^^^ errOfPairs []) = s.cwErr := by
    rw [h, show kvGet 0 [] cw ^^^ errOfPairs [] = 0 from Nat.xor_self 0]
    rfl
  unfold State.upset
  rw [hset]

theorem State.readCw_upset_nil (s : State) (cw source : Nat) (h : s.cwErr = []) (hunit : s.unitFailed (64 * cw) = false) :
    (s.upset cw []).readCw cw source (virtOf []) = (s, .clean) := by
  rw [s.upset_nil cw h]
  exact s.readCw_inOrder cw source h hunit

/-- Where no failed unit is marked, no address lies in one (R163). -/
theorem State.unitFailed_of_noneFailed {s : State} (h : ∀ d, d < 14 → s.fld (retrainA d) phRetrainPcFailed = 0) (a : Nat) :
    s.unitFailed a = false := by
  unfold State.unitFailed
  rw [h _ (memDie_lt a), Nat.zero_testBit]

/-! ### Writes within a codeword (R157) -/

/-- `s` with the bytes `bs` stored from address `a` on; without bytes it stays as it is. -/
def State.withBytes (s : State) (a : Nat) (bs : List Byte) : State :=
  if bs.isEmpty then s else { s with mem := kvWrite 0 s.mem a bs }

theorem State.withBytes_frame (s : State) (a : Nat) (bs : List Byte) : s.withBytes a bs = { s with mem := (s.withBytes a bs).mem } := by
  unfold State.withBytes
  split <;> rfl

/-- A stored byte reads as it was written. -/
theorem State.byteAt_withBytes (s : State) (a j : Nat) (bs : List Byte) (hj : j < bs.length) :
    (s.withBytes a bs).byteAt (a + j) = bs.getD j 0 := by
  have hne : ¬bs.isEmpty = true := fun h => by simp [List.isEmpty_iff.mp h] at hj
  unfold State.withBytes State.byteAt
  rw [if_neg hne, kvGet_kvWrite_same _ _ _ _ _ (by omega) (by omega), Nat.add_sub_cancel_left]

/-- Every other byte reads as before. -/
theorem State.byteAt_withBytes_other (s : State) (a b : Nat) (bs : List Byte) (hb : ¬(a ≤ b ∧ b < a + bs.length)) :
    (s.withBytes a bs).byteAt b = s.byteAt b := by
  unfold State.withBytes
  split
  · rfl
  · exact (s.storesIn_kvWrite a bs).byteAt hb

/-- A write that stays within one unit of `g` bytes is one piece: a whole unit, or a part of one. -/
theorem State.writeSplit_within (s : State) (g : Nat) (part : State → Nat → List Byte → WriteOut)
    (whole : State → Nat → List Byte → State) (a : Nat) (bs : List Byte) (hg : 0 < g) (hfit : a % g + bs.length ≤ g)
    (hnil : ∀ u b, part u b [] = ⟨u, false⟩) :
    s.writeSplit g part whole a bs = if bs.length = g then ⟨whole s a bs, false⟩ else part s a bs := by
  unfold State.writeSplit
  dsimp only
  by_cases hal : a % g = 0
  · have hhead : min ((g - a % g) % g) bs.length = 0 := by simp [hal]
    rw [hhead, List.take_zero, List.drop_zero, hnil]
    by_cases hlen : bs.length = g
    · have hmid : bs.length / g * g = bs.length := by rw [hlen, Nat.div_self hg, Nat.one_mul]
      rw [hmid, if_neg (by omega), if_pos hlen, List.take_length, List.drop_length, hnil]
      rfl
    · have hmid : bs.length / g * g = 0 := by rw [Nat.div_eq_of_lt (by omega), Nat.zero_mul]
      rw [hmid, if_pos rfl, if_neg hlen]
      simp
  · have hhead : min ((g - a % g) % g) bs.length = bs.length := by
      rw [Nat.mod_eq_of_lt (by omega)]
      omega
    rw [hhead, List.take_length, List.drop_length, if_neg (by omega : ¬bs.length = g)]
    simp [hnil]

section InOrder

variable {s : State} (herr : s.cwErr = []) (hunits : ∀ d, d < 14 → s.fld (retrainA d) phRetrainPcFailed = 0)
include herr hunits

/-- A write within a codeword in order stores its bytes and nothing else (R157). -/
theorem State.writeCw_inOrder (a : Nat) (bs : List Byte) : s.writeCw a bs = ⟨s.withBytes a bs, false⟩ := by
  unfold State.writeCw State.withBytes
  dsimp only
  split
  · rfl
  · rw [if_neg (by simp [State.unitFailed_of_noneFailed hunits])]
    split
    · rw [show kvSet 0 s.cwErr (a / 64) 0 = s.cwErr by rw [herr]; rfl]
    · rw [s.readCw_inOrder _ 0 herr (State.unitFailed_of_noneFailed hunits _)]
      rfl

theorem State.writeMem_withinCodeword (a : Nat) (bs : List Byte) (hmain : inMain a = true) (hfit : a % 64 + bs.length ≤ 64) :
    s.writeMem a bs = ⟨s.withBytes a bs, false⟩ := by
  have hnone : ¬(List.range 14).any (fun d => decide (s.fld (retrainA d) phRetrainPcFailed ≠ 0)) = true := by
    simpa using hunits
  have hnil : ∀ (u : State) (b : Nat), u.writeCw b [] = ⟨u, false⟩ := fun _ _ => rfl
  unfold State.writeMem
  split
  · rename_i htile
    simp [inMain, htile] at hmain
  · rw [if_neg hnone, s.writeSplit_within 64 _ _ a bs (by omega) hfit hnil]
    split
    · rename_i hlen
      have hne : ¬bs.isEmpty = true := fun h => by simp [List.isEmpty_iff.mp h] at hlen
      rw [show kvClear s.cwErr (a / 64) (bs.length / 64) = s.cwErr by rw [herr]; rfl]
      unfold State.withBytes
      rw [if_neg hne]
    · exact State.writeCw_inOrder herr hunits a bs

end InOrder

/-! ### The commands -/

section Commands

variable {s : State} {a : Nat} (hmain : inMain a = true) (hon : s.memOn (memDie a) = true) (hplain : s.Plain)
include hmain hon hplain

theorem memoryRead_inOrder (hunit : s.unitFailed (64 * (a / 64)) = false) :
    exec (.memoryRead a []) s = .next (s.answer (.bytes (s.peek (64 * (a / 64)) 64))) := by
  obtain ⟨-, herr⟩ := hplain
  refine congrArg Host.Outcome.next ((if_neg (by simp [hmain, hon])).trans ?_)
  dsimp only
  rw [s.readCw_upset_nil _ 0 herr hunit]
  rfl

theorem memoryScrub_inOrder (hunit : s.unitFailed (64 * (a / 64)) = false)
    (hscrub : s.flag (memcfgA (memDie a)) phMemcfgScrubEn = true) : exec (.memoryScrub a []) s = .next s := by
  obtain ⟨-, herr⟩ := hplain
  refine congrArg Host.Outcome.next ((if_neg (by simp [hmain, hon, hscrub])).trans ?_)
  rw [s.readCw_upset_nil _ 1 herr hunit]

theorem memoryWrite_inOrder (bs : List Byte) (hfit : a % 64 + bs.length ≤ 64)
    (hunits : ∀ d, d < 14 → s.fld (retrainA d) phRetrainPcFailed = 0) :
    exec (.memoryWrite a bs) s = .next ((s.withBytes a bs).answer .none) := by
  obtain ⟨hholds, herr⟩ := hplain
  refine congrArg Host.Outcome.next ((if_neg (by simp [hmain, hon, hfit])).trans ?_)
  rw [s.storeBy_noHolds none a bs hholds, State.writeMem_withinCodeword herr hunits a bs hmain hfit]
  rfl

end Commands

/-- Settles O46: a codeword in order decodes as clean, and a write within one is a single piece. -/
theorem mainMemoryAccesses : Obligations.MainMemoryAccesses := by
  unfold Obligations.MainMemoryAccesses
  refine ⟨fun s a hmain hon hunit hplain =>
      ⟨memoryRead_inOrder hmain hon hplain hunit, memoryScrub_inOrder hmain hon hplain hunit⟩,
    fun s a bs hmain hon hfit hplain hunits => ?_, fun s die unit => rfl⟩
  refine ⟨_, memoryWrite_inOrder hmain hon hplain bs hfit hunits, rfl, ?_,
    fun j hj => s.byteAt_withBytes a j bs hj, fun b hb => s.byteAt_withBytes_other a b bs hb⟩
  rw [s.withBytes_frame]
  rfl

end Sys2Proof.Machine
end

section
/-!
PROOF. O47: units of the memory dies held for calibration and retrain, their error counts and logs.
-/

namespace Sys2Proof.Machine

/-! ### One bit of a field (R183) -/

/-- A bit of a number that a register field holds is the flag of one bit in that place. -/
theorem State.testBit_fld (s : State) (a : Nat) (f : Fld) (u : Nat) (hu : u < f.width) :
    (s.fld a f).testBit u = s.flag a ⟨f.lo + u, 1⟩ := by
  unfold State.flag State.fld fget bits
  rw [Nat.testBit_mod_two_pow, Nat.testBit_shiftRight, Nat.testBit_eq_decide_div_mod_eq, Nat.shiftRight_eq_div_pow]
  simp only [hu, decide_true, Bool.true_and, decide_eq_decide]
  omega

/-- After a write of one bit of a register each of its bits reads as written or as before. -/
theorem State.flag_setFld_bit (s : State) (a u v : Nat) (b : Bool) (hu : u < 64) :
    (s.setFld a ⟨u, 1⟩ (b2n b)).flag a ⟨v, 1⟩ = if v = u then b else s.flag a ⟨v, 1⟩ := by
  unfold State.flag
  split
  · rename_i h
    rw [h, State.fld_setFld_same _ _ _ _ (show u + 1 ≤ 64 by omega)]
    cases b <;> rfl
  · rw [State.fld_setFld_other _ _ _ _ _ (show u + 1 ≤ 64 by omega) (show v + 1 ≤ u ∨ u + 1 ≤ v by omega)]

/-- Whether PC_ACTIVE or CH_ACTIVE marks a unit. -/
def State.unitActive (s : State) (die u : Nat) : Bool := s.flag (retrainA die) ⟨u, 1⟩

/-- Whether PC_FAILED or CH_FAILED marks a unit. -/
def State.unitMarkedFailed (s : State) (die u : Nat) : Bool := s.flag (retrainA die) ⟨32 + u, 1⟩

theorem State.testBit_active (s : State) (die : Nat) {u : Nat} (hu : u < 32) :
    (s.fld (retrainA die) phRetrainPcActive).testBit u = s.unitActive die u := by
  rw [State.testBit_fld _ _ _ _ hu, Nat.zero_add]
  rfl

theorem State.testBit_failed (s : State) (die : Nat) {u : Nat} (hu : u < 32) :
    (s.fld (retrainA die) phRetrainPcFailed).testBit u = s.unitMarkedFailed die u :=
  State.testBit_fld _ _ phRetrainPcFailed u hu

theorem State.unitActive_setActive (s : State) (die u v : Nat) (b : Bool) (hu : u < 32) :
    (s.setActive die u b).unitActive die v = if v = u then b else s.unitActive die v :=
  s.flag_setFld_bit _ _ _ _ (by omega)

/-- The retrain register of a die is no source's status word. -/
theorem retrainA_ne_evcSrcstatA (die src : Nat) (hdie : die < 14) : retrainA die ≠ evcSrcstatA src := by
  unfold retrainA phRetrainA tdRetrainA evcSrcstatA
  split <;> omega

/-- An occurrence counts at its source and leaves every die's unit marks as they are. -/
theorem State.flag_retrainA_raise (s : State) (die src : Nat) (f : Fld) (hdie : die < 14) :
    (s.raise src).flag (retrainA die) f = s.flag (retrainA die) f := by
  obtain ⟨-, hregs⟩ := s.raise_onlySource src
  exact RegsBut.flag hregs (by simp [retrainA_ne_evcSrcstatA die src hdie])

theorem State.retrain_raise (s : State) (src : Nat) : (s.raise src).retrain = s.retrain := by
  obtain ⟨hframe, -⟩ := s.raise_onlySource src
  rw [hframe]

theorem State.gtime_raise (s : State) (src : Nat) : (s.raise src).gtime = s.gtime := by
  obtain ⟨hframe, -⟩ := s.raise_onlySource src
  rw [hframe]

/-! ### Held stores (R161, R162) -/

/-- Where no hart holds stores back, the end of a hold lets nothing go on. -/
theorem State.flushHeld_nothingHeld (s : State) (h : ∀ k, k < 768 → (s.hart (k / 32) (k % 32)).dirty = []) : s.flushHeld = s := by
  refine List.foldlRecOn (motive := fun t => t = s) _ _ rfl (fun t ht k hk => ?_)
  rw [ht]
  dsimp only
  rw [if_pos (by rw [h k (List.mem_range.mp hk)]; rfl)]

/-! ### The units of a retrain (R143, R162) -/

theorem lt_of_mem_retrainUnits {die unit u : Nat} (hunit : unit < 32) (h : u ∈ retrainUnits die unit) : u < 32 := by
  unfold retrainUnits at h
  split at h
  · simp only [List.mem_cons, List.not_mem_nil, or_false] at h
    omega
  · rw [List.mem_singleton.mp h]
    exact hunit

/-- Between `s` and `t` nothing differs but the units that retrain, registers and event sources. -/
def OnlyRetrain (s t : State) : Prop := t = { s with retrain := t.retrain, regs := t.regs, evc := t.evc }

section Frames

variable {s t : State}

theorem OnlyRetrain.raise (h : OnlyRetrain s t) (src : Nat) : OnlyRetrain s (t.raise src) := by
  obtain ⟨hframe, -⟩ := t.raise_onlySource src
  unfold OnlyRetrain at h ⊢
  rw [hframe, h]

theorem OnlyRetrain.hart (h : OnlyRetrain s t) (tile k : Nat) : t.hart tile k = s.hart tile k := by rw [h]; rfl

theorem OnlyRetrain.gtime (h : OnlyRetrain s t) : t.gtime = s.gtime := by rw [h]

end Frames

/-- A property that each step of a fold gives its unit and takes from no unit of the list holds of every unit of the list. -/
theorem forall_mem_foldl (step : State → Nat → State) (P : State → Nat → Prop) (l : List Nat)
    (hset : ∀ s, ∀ u ∈ l, P (step s u) u) (hkeep : ∀ s, ∀ u ∈ l, ∀ v ∈ l, P s v → P (step s u) v) :
    ∀ s, ∀ u ∈ l, P (l.foldl step s) u := by
  induction l with
  | nil => exact fun _ _ h => nomatch h
  | cons x l ih =>
    intro s u hu
    by_cases hul : u ∈ l
    · exact ih (fun s v hv => hset s v (.tail _ hv)) (fun s v hv w hw => hkeep s v (.tail _ hv) w (.tail _ hw)) _ u hul
    · rw [(List.mem_cons.mp hu).resolve_right hul]
      exact List.foldlRecOn (motive := fun t => P t x) l step (hset s x (.head _)) (fun t ht v hv => hkeep t v (.tail _ hv) x (.head _) ht)

/-- A unit is held for a retrain from this GTIME on (R162). -/
def State.retrainUnit (die : Nat) (s : State) (u : Nat) : State :=
  ({ s with retrain := kvSet 0 s.retrain (32 * die + u) (s.gtime + 1) }).setActive die u true

/-- A unit's retrain is over; one that failed marks the unit (R162, R163). -/
def State.releaseUnit (die : Nat) (ok : Bool) (s : State) (u : Nat) : State :=
  let s' := ({ s with retrain := kvSet 0 s.retrain (32 * die + u) 0 }).setActive die u false
  if ok then s' else s'.setFld (retrainA die) ⟨32 + u, 1⟩ 1

/-- The unit is held since GTIME, and marked so. -/
def State.RetrainsNow (die : Nat) (s : State) (u : Nat) : Prop :=
  kvGet 0 s.retrain (32 * die + u) = s.gtime + 1 ∧ s.unitActive die u = true

/-- The unit is held no more, and marked as failed where its retrain failed. -/
def State.Released (die : Nat) (ok : Bool) (s : State) (u : Nat) : Prop :=
  s.retraining die u = false ∧ s.unitActive die u = false ∧ (ok = false → s.unitMarkedFailed die u = true)

theorem State.RetrainsNow.raise {die u : Nat} {s : State} (h : State.RetrainsNow die s u) (src : Nat) (hdie : die < 14) :
    State.RetrainsNow die (s.raise src) u := by
  unfold State.RetrainsNow State.unitActive at h ⊢
  rw [s.retrain_raise, s.gtime_raise, s.flag_retrainA_raise _ _ _ hdie]
  exact h

theorem State.Released.raise {die u : Nat} {ok : Bool} {s : State} (h : State.Released die ok s u) (src : Nat) (hdie : die < 14) :
    State.Released die ok (s.raise src) u := by
  unfold State.Released State.retraining State.unitActive State.unitMarkedFailed at h ⊢
  rw [s.retrain_raise, s.flag_retrainA_raise _ _ _ hdie, s.flag_retrainA_raise _ _ _ hdie]
  exact h

theorem State.retrainUnit_onlyRetrain (die : Nat) (s : State) (u : Nat) : OnlyRetrain s (State.retrainUnit die s u) := rfl

theorem State.releaseUnit_onlyRetrain (die : Nat) (ok : Bool) (s : State) (u : Nat) : OnlyRetrain s (State.releaseUnit die ok s u) := by
  cases ok <;> rfl

theorem State.retrainUnit_retrain (die : Nat) (s : State) (u v : Nat) :
    kvGet 0 (State.retrainUnit die s u).retrain (32 * die + v) = if v = u then s.gtime + 1 else kvGet 0 s.retrain (32 * die + v) := by
  refine (kvGet_kvSet 0 s.retrain _ _ _).trans ?_
  simp

theorem State.retrainUnit_active (die : Nat) (s : State) (u v : Nat) (hu : u < 32) :
    (State.retrainUnit die s u).unitActive die v = if v = u then true else s.unitActive die v :=
  State.unitActive_setActive _ die u v true hu

theorem State.releaseUnit_retraining (die : Nat) (ok : Bool) (s : State) (u v : Nat) :
    (State.releaseUnit die ok s u).retraining die v = if v = u then false else s.retraining die v := by
  have hretrain : (State.releaseUnit die ok s u).retrain = kvSet 0 s.retrain (32 * die + u) 0 := by cases ok <;> rfl
  unfold State.retraining
  rw [hretrain, kvGet_kvSet]
  by_cases h : v = u <;> simp [h]

theorem State.releaseUnit_active (die : Nat) (ok : Bool) (s : State) (u v : Nat) (hu : u < 32) (hv : v < 32) :
    (State.releaseUnit die ok s u).unitActive die v = if v = u then false else s.unitActive die v := by
  have hactive := State.unitActive_setActive { s with retrain := kvSet 0 s.retrain (32 * die + u) 0 } die u v false hu
  cases ok with
  | true => exact hactive
  | false => exact ((State.flag_setFld_bit _ _ (32 + u) v true (by omega)).trans (if_neg (by omega))).trans hactive

theorem State.releaseUnit_failed (die : Nat) (s : State) (u v : Nat) (hu : u < 32) :
    (State.releaseUnit die false s u).unitMarkedFailed die v = if v = u then true else s.unitMarkedFailed die v := by
  have hkept := State.flag_setFld_bit { s with retrain := kvSet 0 s.retrain (32 * die + u) 0 } (retrainA die) u (32 + v) false (by omega)
  rw [if_neg (by omega)] at hkept
  refine (State.flag_setFld_bit _ _ (32 + u) (32 + v) true (by omega)).trans ?_
  simp only [Nat.add_left_cancel_iff]
  exact congrArg (fun b => if v = u then true else b) hkept

section Units

variable (die : Nat) {unit : Nat} (hunit : unit < 32)
include hunit

/-- A retrain holds each of its units since this GTIME. -/
theorem State.retrainsNow_retrainUnits (s : State) :
    ∀ u ∈ retrainUnits die unit, State.RetrainsNow die ((retrainUnits die unit).foldl (State.retrainUnit die) s) u := by
  refine forall_mem_foldl _ _ _ (fun s u hu => ?_) (fun s u hu v _ hv => ?_) s
  · unfold State.RetrainsNow
    rw [State.retrainUnit_retrain, State.retrainUnit_active _ _ _ _ (lt_of_mem_retrainUnits hunit hu), if_pos rfl, if_pos rfl]
    exact ⟨rfl, rfl⟩
  · obtain ⟨htime, hactive⟩ := hv
    unfold State.RetrainsNow
    rw [State.retrainUnit_retrain, State.retrainUnit_active _ _ _ _ (lt_of_mem_retrainUnits hunit hu), htime, hactive, ite_self, ite_self]
    exact ⟨rfl, rfl⟩

/-- The end of a retrain releases each of its units. -/
theorem State.released_retrainUnits (ok : Bool) (s : State) :
    ∀ u ∈ retrainUnits die unit, State.Released die ok ((retrainUnits die unit).foldl (State.releaseUnit die ok) s) u := by
  refine forall_mem_foldl _ _ _ (fun s u hu => ?_) (fun s u hu v hmem hv => ?_) s
  · have hu := lt_of_mem_retrainUnits hunit hu
    refine ⟨?_, ?_, fun hok => ?_⟩
    · rw [State.releaseUnit_retraining, if_pos rfl]
    · rw [State.releaseUnit_active _ _ _ _ _ hu hu, if_pos rfl]
    · rw [hok, State.releaseUnit_failed _ _ _ _ hu, if_pos rfl]
  · have hu := lt_of_mem_retrainUnits hunit hu
    obtain ⟨hretrain, hactive, hfailed⟩ := hv
    refine ⟨?_, ?_, fun hok => ?_⟩
    · rw [State.releaseUnit_retraining, hretrain, ite_self]
    · rw [State.releaseUnit_active _ _ _ _ _ hu (lt_of_mem_retrainUnits hunit hmem), hactive, ite_self]
    · rw [hok, State.releaseUnit_failed _ _ _ _ hu, hfailed hok, ite_self]

end Units

/-- A fold over a retrain's units by steps that change nothing but units, registers and event sources changes nothing else. -/
theorem OnlyRetrain.foldl (step : State → Nat → State) (l : List Nat) (s : State) (hstep : ∀ t u, OnlyRetrain t (step t u)) :
    OnlyRetrain s (l.foldl step s) := by
  refine List.foldlRecOn (motive := OnlyRetrain s) _ _ rfl (fun t ht u _ => ?_)
  have hu := hstep t u
  unfold OnlyRetrain at ht hu ⊢
  rw [hu, ht]

/-! ### The commands -/

section Commands

variable {s : State} {die unit : Nat} (hdie : die < 14) (hunit : unit < 32)
include hdie hunit

theorem memoryCalibration_starts (hon : s.memOn die = true) (hidle : s.retraining die unit = false)
    (halone : ∀ u, u < 32 → (s.fld (retrainA die) phRetrainPcActive).testBit u = true → s.retraining die u = true) :
    exec (.memoryCalibration die unit true) s = .next (s.setActive die unit true) := by
  have hnone : ¬(List.range 32).any (fun u => (s.fld (retrainA die) phRetrainPcActive).testBit u && !s.retraining die u) = true := by
    simpa using halone
  refine congrArg Host.Outcome.next ((if_neg ?_).trans ((if_pos rfl).trans (if_neg hnone)))
  simp [hon, hidle, hdie, hunit]

theorem memoryCalibration_ends (hon : s.memOn die = true) (hidle : s.retraining die unit = false)
    (hheld : ∀ k, k < 768 → (s.hart (k / 32) (k % 32)).dirty = []) :
    exec (.memoryCalibration die unit false) s = .next (s.setActive die unit false) := by
  refine congrArg Host.Outcome.next ((if_neg ?_).trans ((if_neg (by decide)).trans ((s.setActive die unit false).flushHeld_nothingHeld hheld)))
  simp [hon, hidle, hdie, hunit]

omit hdie in
/-- A calibration's mark stands in one register of its die. -/
theorem State.setActive_calibration (b : Bool) : OnlyRegs s (s.setActive die unit b) [retrainA die] ∧
    ((s.setActive die unit b).fld (retrainA die) phRetrainPcActive).testBit unit = b := by
  refine ⟨(OnlyRegs.refl s _).setFld (by simp) _, ?_⟩
  rw [State.testBit_active _ _ hunit, State.unitActive_setActive _ _ _ _ _ hunit, if_pos rfl]

/-- A retrain that is ordered or alarmed holds its units and raises its event (R162). -/
theorem channelRetrain_starts (now cause : Nat) (hcause : cause = 1 ∨ cause = 2) (hon : (s.advance now).memOn die = true)
    (hidle : (s.advance now).retraining die unit = false) :
    exec (.channelRetrain now die unit cause) s =
      .next (((retrainUnits die unit).foldl (State.retrainUnit die) (s.advance now)).raise (memEvent die 2 1)) := by
  refine congrArg Host.Outcome.next (if_neg ?_)
  obtain rfl | rfl := hcause <;> simp [hon, hidle, hdie, hunit]

/-- The end of a retrain releases its units; a failed one raises its event (R162, R163). -/
theorem channelRetrainEnd_releases (ok : Bool) (hactive : s.retraining die unit = true)
    (hheld : ∀ k, k < 768 → (s.hart (k / 32) (k % 32)).dirty = []) :
    let t := (retrainUnits die unit).foldl (State.releaseUnit die ok) s
    exec (.channelRetrainEnd die unit ok) s = .next (if ok then t else t.raise (memEvent die 3 2)) := by
  intro t
  have hframe : OnlyRetrain s t := .foldl _ _ s (State.releaseUnit_onlyRetrain die ok)
  refine congrArg Host.Outcome.next ((if_neg (by simp [hactive, hdie, hunit])).trans (State.flushHeld_nothingHeld _ (fun k hk => ?_)))
  cases ok with
  | true => exact (congrArg Hart.dirty (hframe.hart _ _)).trans (hheld k hk)
  | false => exact (congrArg Hart.dirty ((hframe.raise _).hart _ _)).trans (hheld k hk)

end Commands

/-- A writer that reaches it clears both error counts of a die (R183). -/
theorem eccstatClear_reached (s : State) {die : Nat} (w : Writer) (hdie : die < 14) (hon : s.memOn die = true)
    (hreach : mayReachReg w (eccstatA die) = true) :
    exec (.eccstatClear die w) s = .next ((s.setFld (eccstatA die) phEccstatCeCount 0).setFld (eccstatA die) phEccstatUeCount 0) :=
  congrArg Host.Outcome.next (if_neg (by simp [hon, hreach, hdie]))

/-- A writer that reaches it takes the oldest record off the log of a die (R183). -/
theorem uelogPop_reached (s : State) {die : Nat} (w : Writer) (hdie : die < 14) (hon : s.memOn die = true)
    (hreach : mayReachReg w (uelogA die) = true) :
    exec (.uelogPop die w) s = .next { s with uelog := kvSet [] s.uelog die ((kvGet [] s.uelog die).drop 1) } :=
  congrArg Host.Outcome.next (if_neg (by simp [hon, hreach, hdie]))

/-- Settles O47, command by command: each unit's marks are followed one bit at a time through the fold over the retrain's units. -/
theorem memoryUnitsHoldAndRetrain : Obligations.MemoryUnitsHoldAndRetrain := by
  unfold Obligations.MemoryUnitsHoldAndRetrain
  refine fun s now die unit hdie hunit => ⟨fun hon hidle => ⟨fun halone => ?_, fun hheld => ?_⟩,
    fun cause hcause hon hidle => ?_, fun hactive hheld ok => ?_, fun w hon hreach => ?_, fun w hon hreach => ?_⟩
  · exact ⟨_, memoryCalibration_starts hdie hunit hon hidle halone, State.setActive_calibration hunit true⟩
  · exact ⟨_, memoryCalibration_ends hdie hunit hon hidle hheld, State.setActive_calibration hunit false⟩
  · have hframe := OnlyRetrain.foldl _ (retrainUnits die unit) (s.advance now) (State.retrainUnit_onlyRetrain die)
    refine ⟨_, channelRetrain_starts hdie hunit now cause hcause hon hidle, fun u hu => ?_, hframe.raise _⟩
    obtain ⟨hsince, hmark⟩ := (State.retrainsNow_retrainUnits die hunit (s.advance now) u hu).raise (memEvent die 2 1) hdie
    rw [(hframe.raise _).gtime] at hsince
    rw [State.testBit_active _ _ (lt_of_mem_retrainUnits hunit hu)]
    exact ⟨hsince, hmark⟩
  · have hframe := OnlyRetrain.foldl _ (retrainUnits die unit) s (State.releaseUnit_onlyRetrain die ok)
    refine ⟨_, channelRetrainEnd_releases hdie hunit ok hactive hheld, fun u hu => ?_, ?_⟩
    · rw [State.testBit_active _ _ (lt_of_mem_retrainUnits hunit hu), State.testBit_failed _ _ (lt_of_mem_retrainUnits hunit hu)]
      have hreleased := State.released_retrainUnits die hunit ok s u hu
      cases ok with
      | true => exact hreleased
      | false => exact hreleased.raise _ hdie
    · cases ok with
      | true => exact hframe
      | false => exact hframe.raise _
  · refine ⟨_, eccstatClear_reached s w hdie hon hreach, ((OnlyRegs.refl s _).setFld (by simp) _).setFld (by simp) _, ?_, ?_⟩
    · rw [State.fld_setFld_other _ _ _ _ _ (by decide) (by decide), State.fld_setFld_same _ _ _ _ (by decide)]
      rfl
    · rw [State.fld_setFld_same _ _ _ _ (by decide)]
      rfl
  · exact ⟨_, uelogPop_reached s w hdie hon hreach, rfl, kvGet_kvSet_same .., fun d hd => kvGet_kvSet_other _ _ _ _ _ _ hd⟩

end Sys2Proof.Machine
end

section
/-!
PROOF. O48: the zero fills of tier segments and of partitions leave zeros, and nothing else changes in memory.
-/

namespace Sys2Proof.Machine

/-! ### Cleared ranges of a table -/

/-- A key of a cleared range reads as the default. -/
theorem kvGet_kvClear_same {ν : Type} (d : ν) (m : Kv ν) (k n j : Nat) (h1 : k ≤ j) (h2 : j < k + n) : kvGet d (kvClear m k n) j = d := by
  refine kvGet_absent d _ j (fun p hp => ?_)
  rcases List.mem_append.mp hp with hp | hp
  · have := kvBelow_lt hp
    omega
  · have := kvFrom_ge hp
    omega

/-- A key outside a cleared range reads as before. -/
theorem kvGet_kvClear_other {ν : Type} (d : ν) (m : Kv ν) (k n j : Nat) (h : j < k ∨ k + n ≤ j) :
    kvGet d (kvClear m k n) j = kvGet d m j := by
  unfold kvClear
  by_cases hj : j < k
  · have hf : ∀ p ∈ kvFrom m (k + n), p.1 ≠ j := fun p hp => by have := kvFrom_ge hp; omega
    rw [kvGet_append_left _ _ _ _ hf, kvGet_below _ _ _ _ hj]
  · have hb : ∀ p ∈ kvBelow m k, p.1 ≠ j := fun p hp => by have := kvBelow_lt hp; omega
    rw [kvGet_append_right _ _ _ _ hb, kvGet_from _ _ _ _ (by omega)]

/-! ### Zero fills (R150, R169) -/

theorem State.byteAt_zeroFill (s : State) (a n b : Nat) (h1 : a ≤ b) (h2 : b < a + n) : (s.zeroFill a n).byteAt b = 0 :=
  kvGet_kvClear_same _ _ _ _ _ h1 h2

theorem State.byteAt_zeroFill_other (s : State) (a n b : Nat) (h : ¬(a ≤ b ∧ b < a + n)) : (s.zeroFill a n).byteAt b = s.byteAt b :=
  kvGet_kvClear_other _ _ _ _ _ (by omega)

/-- An address in the 1 GiB of a tier segment. -/
def InSegment (seg a : Nat) : Prop := tierBase + 0x40000000 * seg ≤ a ∧ a < tierBase + 0x40000000 * seg + 0x40000000

/-- An address in the 48 GiB of a partition's HBM, the journal area included (R31). -/
def InHbm (p a : Nat) : Prop := hbmBase p ≤ a ∧ a < hbmBase p + 0xC00000000

/-- No partition's HBM meets the tier. -/
theorem not_inSegment_of_inHbm {p g a : Nat} (hp : p < 12) (h : InHbm p a) : ¬InSegment g a := by
  unfold InHbm hbmBase at h
  unfold InSegment tierBase
  omega

theorem State.segFilled_byteAt (s : State) (seg a : Nat) (h : InSegment seg a) : (s.segFilled seg).byteAt a = 0 :=
  State.byteAt_zeroFill _ _ _ _ h.1 h.2

theorem State.segFilled_byteAt_other (s : State) (seg a : Nat) (h : ¬InSegment seg a) : (s.segFilled seg).byteAt a = s.byteAt a :=
  State.byteAt_zeroFill_other _ _ _ _ h

/-- No codeword of a filled segment is in error. -/
theorem State.segFilled_cwErr (s : State) (seg w : Nat) (h1 : (tierBase + 0x40000000 * seg) / 64 ≤ w)
    (h2 : w < (tierBase + 0x40000000 * seg + 0x40000000) / 64) : kvGet 0 (s.segFilled seg).cwErr w = 0 :=
  kvGet_kvClear_same _ _ _ _ _ h1 (by omega)

theorem State.segFilled_fills (s : State) (seg : Nat) : kvGet none (s.segFilled seg).fills seg = none := kvGet_kvSet_same ..

theorem State.segFilled_filling (s : State) (seg : Nat) : (s.segFilled seg).flag (tdSegA seg) tdSegFilling = false := by
  unfold State.segFilled State.flag
  rw [State.fld_setFld_same _ _ _ _ (by decide)]
  rfl

/-- The fills of a partition's segments change no byte outside them. -/
theorem State.byteAt_foldl_segFilled (segs : List Nat) (s : State) (a : Nat) (h : ∀ g ∈ segs, ¬InSegment g a) :
    (segs.foldl (fun (s : State) g => s.segFilled g) s).byteAt a = s.byteAt a :=
  List.foldlRecOn (motive := fun t : State => t.byteAt a = s.byteAt a) segs _ rfl
    (fun t ht g hg => (t.segFilled_byteAt_other g a (h g hg)).trans ht)

/-! ### What follows a fill: events, and the commands that waited for it -/

/-- Between `s` and `t` memory, the errors of its codewords and the fills in progress do not differ, nor do the registers that say which
segments and partitions are being filled. -/
structure SameFill (s t : State) : Prop where
  mem : t.mem = s.mem
  cwErr : t.cwErr = s.cwErr
  fills : t.fills = s.fills
  seg : ∀ seg, seg < 896 → t.flag (tdSegA seg) tdSegFilling = s.flag (tdSegA seg) tdSegFilling
  xts : ∀ p, p < 12 → t.flag (phXtsA p) phXtsFilling = s.flag (phXtsA p) phXtsFilling

theorem SameFill.refl (s : State) : SameFill s s := ⟨rfl, rfl, rfl, fun _ _ => rfl, fun _ _ => rfl⟩

theorem SameFill.trans {s t u : State} (h : SameFill s t) (h' : SameFill t u) : SameFill s u :=
  ⟨h'.mem.trans h.mem, h'.cwErr.trans h.cwErr, h'.fills.trans h.fills, fun seg hseg => (h'.seg seg hseg).trans (h.seg seg hseg),
    fun p hp => (h'.xts p hp).trans (h.xts p hp)⟩

theorem SameFill.byteAt {s t : State} (h : SameFill s t) (a : Nat) : t.byteAt a = s.byteAt a := SameMem.of_mem h.mem a

theorem State.raise_sameFill (s : State) (src : Nat) : SameFill s (s.raise src) := by
  obtain ⟨hframe, hregs⟩ := s.raise_onlySource src
  refine ⟨by rw [hframe], by rw [hframe], by rw [hframe], fun seg hseg => RegsBut.flag hregs ?_, fun p hp => RegsBut.flag hregs ?_⟩
  · rw [List.mem_singleton]
    unfold tdSegA evcSrcstatA
    omega
  · rw [List.mem_singleton]
    unfold phXtsA evcSrcstatA
    omega

/-- A change of one command, and its end, touch contexts and times of progress alone. -/
theorem State.modCmd_sameFill (s : State) (ctx cseq : Nat) (f : Cmd → Cmd) : SameFill s (s.modCmd ctx cseq f) :=
  ⟨rfl, rfl, rfl, fun _ _ => rfl, fun _ _ => rfl⟩

theorem State.finish_sameFill (s : State) (ctx cseq : Nat) (st : Status) (detail aux : Nat) :
    SameFill s (s.finish ctx cseq st detail aux) :=
  ⟨rfl, rfl, rfl, fun _ _ => rfl, fun _ _ => rfl⟩

theorem State.fillDone_sameFill (s : State) (p : Nat) : SameFill s (s.fillDone p) := by
  refine List.foldlRecOn (motive := SameFill s) _ _ (.refl s) (fun t ht e _ => ?_)
  refine List.foldlRecOn (motive := SameFill s) _ _ ht (fun u hu k _ => ?_)
  have hmod := hu.trans (u.modCmd_sameFill e.1 k.cseq (fun q => { q with left := setBits k.left p 1 0 }))
  dsimp only
  split
  · exact hmod.trans (State.finish_sameFill ..)
  · exact hmod

/-! ### The commands -/

/-- A segment's fill ends with zeros, and its events change nothing of it. -/
theorem segmentFillComplete_sameFill (s : State) (now seg : Nat) (hseg : seg < 896) (hfill : kvGet none (s.advance now).fills seg ≠ none) :
    ∃ t, exec (.segmentFillComplete now seg) s = .next t ∧ SameFill ((s.advance now).segFilled seg) t := by
  refine ⟨_, congrArg Host.Outcome.next (if_neg ?_), (State.raise_sameFill ..).trans (State.raise_sameFill ..)⟩
  simp [hseg, hfill]

/-- The tier segments that a partition owns. -/
def State.ownedSegs (s : State) (p : Nat) : List Nat := (List.range 896).filter (fun g => decide (s.segOwner g = p))

theorem State.mem_ownedSegs {s : State} {p g : Nat} (h : g ∈ s.ownedSegs p) : g < 896 ∧ s.segOwner g = p := by
  obtain ⟨hrange, howner⟩ := List.mem_filter.mp h
  exact ⟨List.mem_range.mp hrange, of_decide_eq_true howner⟩

/-- A partition's HBM and then the tier segments that it owns filled with zeros, FILLING clear (R169). -/
def State.xtsFilled (s : State) (p : Nat) : State :=
  ((s.ownedSegs p).foldl (fun (s : State) g => s.segFilled g)
    (({ s with fills := kvSet none s.fills (1024 + p) none }).zeroFill (hbmBase p) 0xC00000000)).setFld (phXtsA p) phXtsFilling 0

theorem xtsFillComplete_sameFill (s : State) (now p : Nat) (hp : p < 12) (hfill : kvGet none (s.advance now).fills (1024 + p) ≠ none) :
    ∃ t, exec (.xtsFillComplete now p) s = .next t ∧ SameFill ((s.advance now).xtsFilled p) t := by
  refine ⟨_, congrArg Host.Outcome.next (if_neg (by simp [hp, hfill])), SameFill.trans ?_ (State.fillDone_sameFill ..)⟩
  have hraised := ((s.advance now).xtsFilled p).raise_sameFill (32 * (73 + p) + 11)
  split
  · exact hraised
  · exact hraised.trans ((State.raise_sameFill ..).trans (State.raise_sameFill ..))

theorem State.byteAt_setFld (s : State) (r : Nat) (f : Fld) (v a : Nat) : (s.setFld r f v).byteAt a = s.byteAt a := rfl

theorem State.xtsFilled_filling (s : State) (p : Nat) : (s.xtsFilled p).flag (phXtsA p) phXtsFilling = false := by
  unfold State.xtsFilled State.flag
  rw [State.fld_setFld_same _ _ _ _ (by decide)]
  rfl

/-- The fills of a partition's segments leave every byte outside them as the fill of its HBM did. -/
theorem State.byteAt_xtsFilled (s : State) (p a : Nat) (h : ∀ g, g < 896 → s.segOwner g = p → ¬InSegment g a) :
    (s.xtsFilled p).byteAt a = (s.zeroFill (hbmBase p) 0xC00000000).byteAt a := by
  have howned : ∀ g ∈ s.ownedSegs p, ¬InSegment g a := fun g hg => h g (State.mem_ownedSegs hg).1 (State.mem_ownedSegs hg).2
  rw [State.xtsFilled, State.byteAt_setFld, State.byteAt_foldl_segFilled _ _ a howned]
  rfl

/-- Settles O48: a fill clears its ranges of memory, and what follows it (events, waiting commands) leaves memory as it is. -/
theorem zeroFillsComplete : Obligations.ZeroFillsComplete := by
  unfold Obligations.ZeroFillsComplete
  refine ⟨fun s now seg hseg hfill => ?_, fun s now p hp hfill => ?_⟩
  · obtain ⟨t, hexec, hsame⟩ := segmentFillComplete_sameFill s now seg hseg hfill
    refine ⟨t, hexec, ?_, ?_, fun a h1 h2 => ?_, fun w h1 h2 => ?_, fun a ha => ?_⟩
    · rw [hsame.seg seg hseg, State.segFilled_filling]
    · rw [hsame.fills, State.segFilled_fills]
    · rw [hsame.byteAt, State.segFilled_byteAt _ _ _ ⟨h1, h2⟩]
    · rw [hsame.cwErr, State.segFilled_cwErr _ _ _ h1 h2]
    · rw [hsame.byteAt, State.segFilled_byteAt_other _ _ _ ha]
  · obtain ⟨t, hexec, hsame⟩ := xtsFillComplete_sameFill s now p hp hfill
    refine ⟨t, hexec, ?_, fun a h1 h2 => ?_, fun a hhbm hsegs => ?_⟩
    · rw [hsame.xts p hp, State.xtsFilled_filling]
    · rw [hsame.byteAt, State.byteAt_xtsFilled _ _ _ (fun g _ _ => not_inSegment_of_inHbm hp ⟨h1, h2⟩),
        State.byteAt_zeroFill _ _ _ _ h1 h2]
    · rw [hsame.byteAt, State.byteAt_xtsFilled _ _ _ hsegs, State.byteAt_zeroFill_other _ _ _ _ hhbm]

end Sys2Proof.Machine
end

section
/-!
SUPPORT. What leaves the contexts alone: events, counts without a context, reads and writes of memory whatever the state of its
codewords, and the records of a recording.
-/

namespace Sys2Proof.Machine

theorem State.ctx_of_ctxs {s t : State} (h : t.ctxs = s.ctxs) (c : Nat) : t.ctx c = s.ctx c := by simp only [State.ctx, h]

/-- A fold whose every turn leaves the contexts alone leaves them alone. -/
theorem State.foldl_ctxs {α : Type} (step : State → α → State) (l : List α) (s : State)
    (hstep : ∀ t x, (step t x).ctxs = t.ctxs) : (l.foldl step s).ctxs = s.ctxs :=
  List.foldlRecOn (motive := fun t : State => t.ctxs = s.ctxs) l step rfl (fun t ht x _ => (hstep t x).trans ht)

/-- A fold that carries a state and something else leaves the state's contexts alone where its every turn does. -/
theorem State.foldl_fst_ctxs {α β : Type} (step : State × β → α → State × β) (l : List α) (r : State × β)
    (hstep : ∀ q x, (step q x).1.ctxs = q.1.ctxs) : (l.foldl step r).1.ctxs = r.1.ctxs :=
  List.foldlRecOn (motive := fun q : State × β => q.1.ctxs = r.1.ctxs) l step rfl (fun q hq x _ => (hstep q x).trans hq)

/-! ### Registers, events and counts -/

@[simp] theorem State.addWrap_ctxs (s : State) (a : Nat) (f : Fld) (n : Nat) : (s.addWrap a f n).ctxs = s.ctxs := rfl

@[simp] theorem State.progress_ctxs (s : State) (key : Nat) : (s.progress key).ctxs = s.ctxs := rfl

theorem OnlySource.ctxs {s t : State} {src : Nat} (h : OnlySource s t src) : t.ctxs = s.ctxs := by
  obtain ⟨hframe, -⟩ := h
  rw [hframe]

@[simp] theorem State.raise_ctxs (s : State) (src : Nat) : (s.raise src).ctxs = s.ctxs := (s.raise_onlySource src).ctxs

@[simp] theorem State.level_ctxs (s : State) (src : Nat) (v : Bool) : (s.level src v).ctxs = s.ctxs := (s.level_onlySource src v).ctxs

@[simp] theorem State.logUe_ctxs (s : State) (die : Nat) (r : UeRec) : (s.logUe die r).ctxs = s.ctxs := by
  unfold State.logUe
  dsimp only
  split <;> simp

/-- An event of no context is counted in the banks of partitions and of the module alone. -/
@[simp] theorem State.count_none_ctxs (s : State) (part : Option Nat) (code n : Nat) : (s.count none part code n).ctxs = s.ctxs := by
  cases part <;> simp [State.count, apply_ite State.ctxs, State.foldl_ctxs]

/-! ### Reads of memory -/

@[simp] theorem State.readCw_ctxs (s : State) (cw source : Nat) (virt : List (Nat × Nat)) : (s.readCw cw source virt).1.ctxs = s.ctxs := by
  unfold State.readCw
  dsimp only
  split
  · simp
  · split <;> simp

@[simp] theorem State.readCws_ctxs (source : Nat) (l : List Nat) : ∀ s : State, (s.readCws source l).1.ctxs = s.ctxs := by
  induction l with
  | nil => exact fun _ => rfl
  | cons cw l ih => exact fun s => (ih _).trans (s.readCw_ctxs cw source [])

@[simp] theorem State.readMem_ctxs (s : State) (source a n : Nat) : (s.readMem source a n).st.ctxs = s.ctxs := by
  unfold State.readMem
  split
  · exact (s.tsCheck_onlyLogs _ _ _).ctxs
  · exact State.readCws_ctxs _ _ s

/-! ### Writes of memory -/

@[simp] theorem State.setMarks_ctxs (s : State) (w n v : Nat) : (s.setMarks w n v).ctxs = s.ctxs := by
  unfold State.setMarks
  dsimp only
  split <;> rfl

@[simp] theorem State.writeCw_ctxs (s : State) (a : Nat) (bs : List Byte) : (s.writeCw a bs).st.ctxs = s.ctxs := by
  unfold State.writeCw
  dsimp only
  split
  · rfl
  · split
    · exact s.readCw_ctxs ..
    · split
      · rfl
      · split <;> exact s.readCw_ctxs ..

/-- A write split at units of `g` bytes leaves the contexts alone where both its kinds of piece do. -/
theorem State.writeSplit_ctxs (s : State) (g : Nat) (part : State → Nat → List Byte → WriteOut)
    (whole : State → Nat → List Byte → State) (a : Nat) (bs : List Byte) (hpart : ∀ t b cs, (part t b cs).st.ctxs = t.ctxs)
    (hwhole : ∀ t b cs, (whole t b cs).ctxs = t.ctxs) : (s.writeSplit g part whole a bs).st.ctxs = s.ctxs := by
  unfold State.writeSplit
  dsimp only
  rw [hpart]
  split
  · exact hpart ..
  · rw [hwhole, hpart]

@[simp] theorem State.writeMem_ctxs (s : State) (a : Nat) (bs : List Byte) : (s.writeMem a bs).st.ctxs = s.ctxs := by
  unfold State.writeMem
  split
  · exact State.writeSplit_ctxs _ _ _ _ _ _ (fun t b cs => (t.writeWord_storesIn b cs).ctxs) (fun _ _ _ => State.setMarks_ctxs ..)
  · split
    · exact List.foldlRecOn (motive := fun r : WriteOut => r.st.ctxs = s.ctxs) _ _ rfl
        (fun r hr _ _ => (r.st.writeCw_ctxs ..).trans hr)
    · exact State.writeSplit_ctxs _ _ _ _ _ _ State.writeCw_ctxs (fun _ _ _ => rfl)

@[simp] theorem State.put_ctxs (s : State) (a : Nat) (bs : List Byte) : (s.put a bs).ctxs = s.ctxs := s.writeMem_ctxs a bs

/-! ### Writes under the journal (R177, R178) -/

@[simp] theorem State.clash_ctxs (s : State) (p : Nat) : (s.clash p).ctxs = s.ctxs := by simp [State.clash]

@[simp] theorem State.jPutSuper_ctxs (s : State) (p : Nat) : (s.jPutSuper p).ctxs = s.ctxs := by
  rw [State.jPutSuper, State.put_ctxs, State.put_ctxs]

@[simp] theorem State.setHold_ctxs (s : State) (h : Hold) : (s.setHold h).ctxs = s.ctxs := rfl

theorem State.withJgen_ctxs (s : State) (g : Kv Nat) : ({ s with jgen := g } : State).ctxs = s.ctxs := rfl

@[simp] theorem State.jCopy_ctxs (s : State) (h : Hold) (b : Nat) : (s.jCopy h b).1.ctxs = s.ctxs := by
  unfold State.jCopy
  dsimp only
  split
  · rfl
  · split
    · exact s.readMem_ctxs ..
    · rw [State.jPutSuper_ctxs, State.setHold_ctxs, State.withJgen_ctxs, State.put_ctxs, State.put_ctxs, State.readMem_ctxs]

@[simp] theorem State.storeBy_ctxs (s : State) (owner : Option (Nat × Nat)) (a : Nat) (bs : List Byte) :
    (s.storeBy owner a bs).st.ctxs = s.ctxs := by
  unfold State.storeBy
  dsimp only
  generalize hfold : List.foldl _ (s, none) _ = duo
  have hcopied : duo.1.ctxs = s.ctxs := by
    rw [← hfold]
    refine State.foldl_fst_ctxs _ _ (s, none) (fun r x => ?_)
    split
    · rfl
    · split
      · exact r.1.jCopy_ctxs ..
      · rfl
  split
  · exact hcopied
  · rw [State.writeMem_ctxs, apply_ite State.ctxs, State.clash_ctxs, ite_self]
    exact hcopied

@[simp] theorem State.store_ctxs (s : State) (owner : Option (Nat × Nat)) (a : Nat) (bs : List Byte) :
    (s.store owner a bs).ctxs = s.ctxs := s.storeBy_ctxs owner a bs

/-! ### Records of a recording (R384 to R387) -/

@[simp] theorem State.recBytes_ctxs (s : State) (r : Recorder) (off : Nat) (bs : List Byte) : (s.recBytes r off bs).ctxs = s.ctxs := by
  unfold State.recBytes
  dsimp only
  split <;> simp

@[simp] theorem State.recHeader_ctxs (s : State) (p endTime : Nat) : (s.recHeader p endTime).ctxs = s.ctxs := by simp [State.recHeader]

@[simp] theorem State.recEnd_ctxs (s : State) (p : Nat) : (s.recEnd p).ctxs = s.ctxs := by
  unfold State.recEnd
  rw [State.setFld_ctxs, State.setFld_ctxs, State.recHeader_ctxs, State.setRecorder_ctxs]

@[simp] theorem State.recOne_ctxs (s : State) (p kind rflags cseq : Nat) (payload : List Byte) :
    (s.recOne p kind rflags cseq payload).ctxs = s.ctxs := by
  unfold State.recOne
  dsimp only
  split
  · rfl
  · split <;> simp

@[simp] theorem State.recPut_ctxs (s : State) (p kind cseq : Nat) (payload : List Byte) :
    (s.recPut p kind cseq payload).ctxs = s.ctxs := by
  unfold State.recPut
  dsimp only
  split
  · exact s.recOne_ctxs ..
  · exact State.foldl_ctxs _ _ s (fun t _ => t.recOne_ctxs ..)

/-! ### Abandoned transactions (R551) -/

@[simp] theorem State.abandonTxns_ctxs (s : State) (c : Nat) : (s.abandonTxns c).ctxs = s.ctxs := by
  unfold State.abandonTxns
  dsimp only
  split
  · rfl
  · simp [State.foldl_ctxs]

end Sys2Proof.Machine
end

section
/-!
PROOF. O4, O19 and O38: the state at reset, contexts as R212 initialises them, and the order of sequence numbers.
-/

namespace Sys2Proof.Machine

/-! ### Sequence numbers modulo 2^32 (R223) -/

/-- `a` is later than `b` exactly when their difference modulo 2^32 is one of the lower half's, 0 apart. -/
theorem later_iff (a b : BitVec 32) : later a.toNat b.toNat = true ↔ 1 ≤ (a - b).toNat ∧ (a - b).toNat ≤ 2 ^ 31 - 1 := by
  have hdiff : (a.toNat + two32 - b.toNat % two32) % two32 = (a - b).toNat := by
    have hb := b.isLt
    rw [BitVec.toNat_sub, two32]
    omega
  simp only [later, hdiff, Bool.and_eq_true, decide_eq_true_eq]

/-- The two differences of two sequence numbers are each other's complement to 2^32. -/
theorem toNat_sub_add_toNat_sub (a b : BitVec 32) : ((a - b).toNat + (b - a).toNat) % 2 ^ 32 = 0 := by
  rw [BitVec.toNat_sub, BitVec.toNat_sub]
  omega

/-- Settles O38: by the difference of the two numbers and its complement. -/
theorem laterComparesModulo : Obligations.LaterComparesModulo := by
  unfold Obligations.LaterComparesModulo
  intro a b
  refine ⟨later_iff a b, ?_⟩
  have hsum := toNat_sub_add_toNat_sub a b
  have hlt := (a - b).isLt
  have hlt' := (b - a).isLt
  rw [← Bool.not_eq_true, ← Bool.not_eq_true, later_iff, later_iff]
  omega

/-! ### The state at reset -/

/-- Settles O4: the reset state lists no register, no byte and no context, so that each reads as what stands for an unlisted one. -/
theorem resetMeetsInvariant : Obligations.ResetMeetsInvariant := by
  unfold Obligations.ResetMeetsInvariant
  have hctx : ∀ c, State.reset.ctx c = Ctx.init := fun _ => rfl
  refine ⟨rfl, rfl, rfl, fun _ => rfl, fun _ => rfl, fun c => ?_⟩
  rw [hctx]
  exact ⟨rfl, rfl, rfl, rfl, rfl, rfl⟩

/-! ### Bodies and ends of commands -/

/-- A command whose body may run is the context's command with its CSEQ, and has started. -/
theorem State.body_some {s : State} {ctx cseq : Nat} {o : Opc} {c : Cmd} (h : s.body ctx cseq o = some c) :
    (s.ctx ctx).cmd cseq = some c ∧ c.stage = .started := by
  unfold State.body at h
  split at h
  next k hk =>
    split at h
    next hrun =>
      obtain rfl := Option.some.inj h
      exact ⟨hk, hrun.1⟩
    next => contradiction
  next => contradiction

theorem State.withBody_some {s : State} {ctx cseq : Nat} {o : Opc} {c : Cmd} (f : Cmd → State) (h : s.body ctx cseq o = some c) :
    s.withBody ctx cseq o f = f c := by
  unfold State.withBody
  rw [h]

theorem State.finish_ctx_other (s : State) {ctx d : Nat} (cseq : Nat) (st : Status) (detail aux : Nat) (h : d ≠ ctx) :
    (s.finish ctx cseq st detail aux).ctx d = s.ctx d := State.ctx_setCtx_other _ _ _ _ h

/-- The command with a CSEQ after a change of every command that keeps CSEQs. -/
theorem Ctx.cmd_map (x : Ctx) (f : Cmd → Cmd) (hf : ∀ k, (f k).cseq = k.cseq) (cseq : Nat) :
    ({ x with cmds := x.cmds.map f } : Ctx).cmd cseq = (x.cmd cseq).map f := by
  unfold Ctx.cmd
  simp only [List.find?_map, Function.comp_def, hf]

theorem Ctx.cmd_cseq {x : Ctx} {cseq : Nat} {c : Cmd} (h : x.cmd cseq = some c) : c.cseq = cseq := by
  unfold Ctx.cmd at h
  simpa using List.find?_some h

/-- The end of an unfinished command, with the status that R247 makes of the given one. -/
theorem State.finish_ended (s : State) (ctx cseq : Nat) (st : Status) (detail aux : Nat) {c : Cmd}
    (hcmd : (s.ctx ctx).cmd cseq = some c) (hopen : c.stage ≠ .finished) :
    Ended (s.finish ctx cseq st detail aux) ctx cseq (if st = .ok ∧ c.corrected then .okCorrected else st) aux := by
  have hcseq : c.cseq = cseq := Ctx.cmd_cseq hcmd
  refine ⟨_, (congrArg (Ctx.cmd · cseq) (State.ctx_setCtx_same ..)).trans
    ((Ctx.cmd_map _ _ (fun k => ?_) _).trans (congrArg (Option.map _) hcmd)), ?_⟩
  · split <;> rfl
  · simp [hcseq, hopen]

/-! ### CTX_RESET MODE 1 (R212, R299) -/

/-- A context with the values of R212 and nothing in its intake. -/
def Ctx.Fresh (x : Ctx) : Prop :=
  x.expCseq = 1 ∧ x.lastDone = 0 ∧ x.nextRseq = 1 ∧ x.rack = 0 ∧ x.fenced = false ∧ x.unitsHeld = 0 ∧
    x.ready = [] ∧ x.rx = [] ∧ x.unitMask = 0

theorem Ctx.init_fresh : Ctx.init.Fresh := ⟨rfl, rfl, rfl, rfl, rfl, rfl, rfl, rfl, rfl⟩

theorem Ctx.unitsHeld_empty {x : Ctx} (hrx : x.rx = []) (hleft : x.rxLeft = 0) (hready : x.ready = []) (hcmds : x.cmds = []) :
    x.unitsHeld = 0 := by
  simp [Ctx.unitsHeld, hrx, hleft, hready, hcmds, sumNat]

theorem State.initCtx_fresh (s : State) (c : Nat) : ((s.initCtx c).ctx c).Fresh := by
  unfold State.initCtx State.modCtx
  rw [State.ctx_setCtx_same, State.ctx_setCtx_same]
  exact ⟨rfl, rfl, rfl, rfl, rfl, Ctx.unitsHeld_empty rfl rfl rfl rfl, rfl, rfl, rfl⟩

theorem State.initCtx_ctx_other (s : State) {c d : Nat} (h : d ≠ c) : (s.initCtx c).ctx d = s.ctx d := by
  unfold State.initCtx State.modCtx
  rw [State.ctx_setCtx_other _ _ _ _ h, State.ctx_setCtx_other _ _ _ _ h]
  exact State.ctx_of_ctxs (s.abandonTxns_ctxs c) d

/-- CTX_RESET MODE 1 of a context without a command and without a session. -/
theorem ctxReset_initialises {s : State} {ctx : Nat} {c : Cmd} (hbody : s.body ctx c.cseq .ctxReset = some c)
    (hmode : par c.packet 0 1 = 1) (hcmds : (s.ctx (par c.packet 2 2)).cmds = []) (hses : (s.ctx (par c.packet 2 2)).session = 0) :
    exec (.ctxReset ctx c.cseq) s = .next ((s.initCtx (par c.packet 2 2)).finish ctx c.cseq .ok noDetail 0) := by
  refine congrArg Host.Outcome.next ((State.withBody_some _ hbody).trans ?_)
  simp [hmode, hses, State.hasCmds, hcmds]

/-- Settles O19: at reset every context is `Ctx.init`, and a CTX_RESET MODE 1 makes its target one. -/
theorem contextsBeginInitialised : Obligations.ContextsBeginInitialised := by
  unfold Obligations.ContextsBeginInitialised
  refine ⟨fun _ => Ctx.init_fresh, fun s ctx c hbody hmode hne hcmds hses => ⟨_, ctxReset_initialises hbody hmode hcmds hses, ?_, ?_⟩⟩
  · rw [State.finish_ctx_other _ _ _ _ _ hne]
    exact s.initCtx_fresh _
  · obtain ⟨hcmd, hstage⟩ := State.body_some hbody
    have hended := (s.initCtx (par c.packet 2 2)).finish_ended ctx c.cseq .ok noDetail 0 (c := c)
      ((congrArg (Ctx.cmd · c.cseq) (s.initCtx_ctx_other hne.symm)).trans hcmd) (by simp [hstage])
    simpa [Cmd.okStatus] using hended

end Sys2Proof.Machine
end

section
/-!
PROOF. O5, O6 and O8: stores into an intake window, the abandoned packet and the Context Status Block.
-/

namespace Sys2Proof.Machine

/-! ### Changes of one context -/

theorem State.setCtx_onlyCtx (s : State) (c : Nat) (x : Ctx) : OnlyCtx s (s.setCtx c x) c :=
  ⟨rfl, fun _ hd => State.ctx_setCtx_other _ _ _ _ hd⟩

theorem OnlyCtx.setCtx {s t : State} {c : Nat} (h : OnlyCtx s t c) (x : Ctx) : OnlyCtx s (t.setCtx c x) c := by
  obtain ⟨hframe, hothers⟩ := h
  refine ⟨?_, fun d hd => (State.ctx_setCtx_other _ _ _ _ hd).trans (hothers d hd)⟩
  rw [hframe]
  rfl

/-! ### Units of a packet being received (R215) -/

section Units

variable {s : State} {c : Nat} {u : List Byte} (hdrop : (s.ctx c).dropLeft = 0)
include hdrop

/-- The last unit of an admitted packet completes it. -/
theorem State.takeUnit_last (hleft : (s.ctx c).rxLeft = 1) : s.takeUnit c u = s.setCtx c { s.ctx c with
    rx := [], rxLeft := 0, lastUnit := s.gtime, ready := (s.ctx c).ready ++ [(s.ctx c).rx ++ u] } := by
  simp [State.takeUnit, hdrop, hleft]

/-- Another unit of an admitted packet joins those received. -/
theorem State.takeUnit_more (hleft : (s.ctx c).rxLeft ≠ 0) (hmore : (s.ctx c).rxLeft ≠ 1) : s.takeUnit c u = s.setCtx c { s.ctx c with
    rx := (s.ctx c).rx ++ u, rxLeft := (s.ctx c).rxLeft - 1, lastUnit := s.gtime,
    stall := s.fld (phIntakeA (s.hubOf c)) phIntakeStallMs } := by
  simp [State.takeUnit, hdrop, hleft, hmore]

end Units

/-! ### INTAKE_STORE (R214) -/

/-- The unit buffer of a context with a store's bytes in it. -/
def Ctx.bufWith (x : Ctx) (off : Nat) (data : List Byte) : List Byte := putBytes x.unitBuf (off % 64) data

/-- The byte mask of a context's unit buffer with a store's bytes marked. -/
def Ctx.maskWith (x : Ctx) (off : Nat) (data : List Byte) : Nat := x.unitMask ||| ((2 ^ data.length - 1) <<< (off % 64))

section Stores

variable {s : State} {now ctx off : Nat} {data : List Byte} (hctx : ctx < 800) (hdata : data ≠ [])
include hctx hdata

theorem not_badStore : ¬(800 ≤ ctx ∨ data.isEmpty = true) := by
  rw [List.isEmpty_iff]
  exact fun h => h.elim (Nat.not_le.mpr hctx) hdata

theorem intakeStore_crossing (hcross : 64 < off % 64 + data.length) :
    exec (.intakeStore now ctx off data) s = .next ((s.advance now).answer .fault) := by
  exact congrArg Host.Outcome.next ((if_neg (not_badStore hctx hdata)).trans (if_pos (.inr hcross)))

theorem intakeStore_partial (hoff : off < 65536) (hfit : off % 64 + data.length ≤ 64)
    (hmask : ((s.advance now).ctx ctx).maskWith off data ≠ 2 ^ 64 - 1) :
    exec (.intakeStore now ctx off data) s = .next ((s.advance now).setCtx ctx { (s.advance now).ctx ctx with
      unitBuf := ((s.advance now).ctx ctx).bufWith off data, unitMask := ((s.advance now).ctx ctx).maskWith off data }) := by
  have hin : ¬(65536 ≤ off ∨ 64 < off % 64 + data.length) := by omega
  exact congrArg Host.Outcome.next ((if_neg (not_badStore hctx hdata)).trans ((if_neg hin).trans (if_neg hmask)))

theorem intakeStore_full (hoff : off < 65536) (hfit : off % 64 + data.length ≤ 64)
    (hmask : ((s.advance now).ctx ctx).maskWith off data = 2 ^ 64 - 1) :
    exec (.intakeStore now ctx off data) s = .next (((s.advance now).setCtx ctx { (s.advance now).ctx ctx with
      unitBuf := zeros 64, unitMask := 0 }).takeUnit ctx (((s.advance now).ctx ctx).bufWith off data)) := by
  have hin : ¬(65536 ≤ off ∨ 64 < off % 64 + data.length) := by omega
  exact congrArg Host.Outcome.next ((if_neg (not_badStore hctx hdata)).trans ((if_neg hin).trans (if_pos hmask)))

end Stores

/-- Settles O5, by the branches of INTAKE_STORE and whether the full unit is the packet's last. -/
theorem intakeStoreFillsUnit : Obligations.IntakeStoreFillsUnit := by
  unfold Obligations.IntakeStoreFillsUnit
  intro s now ctx off data hctx hdata hoff s1 x o buf mask
  refine ⟨fun hcross => ⟨_, intakeStore_crossing hctx hdata hcross, rfl⟩, fun hfit hmask => ?_, fun hfit hmask hdrop hleft => ?_⟩
  · exact ⟨_, intakeStore_partial hctx hdata hoff hfit hmask, State.setCtx_onlyCtx .., State.ctx_setCtx_same ..⟩
  · refine ⟨_, intakeStore_full hctx hdata hoff hfit hmask, ?_⟩
    have hcleared := s1.setCtx_onlyCtx ctx { x with unitBuf := zeros 64, unitMask := 0 }
    by_cases hlast : x.rxLeft = 1
    · rw [State.takeUnit_last (by simpa using hdrop) (by simpa using hlast)]
      refine ⟨hcleared.setCtx _, ?_, fun _ => ?_, fun hmore => absurd hlast hmore⟩
      all_goals rw [State.ctx_setCtx_same, State.ctx_setCtx_same]
      exact ⟨rfl, rfl⟩
    · rw [State.takeUnit_more (by simpa using hdrop) (by simpa using hleft) (by simpa using hlast)]
      refine ⟨hcleared.setCtx _, ?_, fun hone => absurd hone hlast, fun _ => ?_⟩
      all_goals rw [State.ctx_setCtx_same, State.ctx_setCtx_same]
      exact ⟨rfl, rfl, rfl⟩

/-! ### INTAKE_ABANDON (R217) -/

/-- A context whose incomplete packet and unit buffer have been abandoned. -/
def Ctx.abandoned (x : Ctx) : Ctx :=
  { x with rx := [], rxLeft := 0, unitBuf := zeros 64, unitMask := 0, abandons := satAdd (two32 - 1) x.abandons 1 }

/-- A module whose hub has abandoned a context's incomplete packet, counted that and raised its event. -/
def State.abandonPacket (s : State) (ctx : Nat) : State :=
  ((s.setCtx ctx (s.ctx ctx).abandoned).addSat (phIntakeA (s.hubOf ctx)) phIntakeAbandon 1).raise (32 * (73 + s.hubOf ctx) + 5)

theorem intakeAbandon_drops {s : State} {now ctx : Nat} (hctx : ctx < 800) (hleft : ((s.advance now).ctx ctx).rxLeft ≠ 0)
    (hstall : ((s.advance now).ctx ctx).lastUnit + ((s.advance now).ctx ctx).stall * 1000000 ≤ (s.advance now).gtime) :
    exec (.intakeAbandon now ctx) s = .next ((s.advance now).abandonPacket ctx) := by
  refine congrArg Host.Outcome.next (if_neg ?_)
  simp [hctx, hleft, hstall]

theorem State.abandonPacket_frame (s : State) (ctx : Nat) : s.abandonPacket ctx = { s with
    ctxs := (s.abandonPacket ctx).ctxs, regs := (s.abandonPacket ctx).regs, evc := (s.abandonPacket ctx).evc } := by
  obtain ⟨hframe, -⟩ := State.raise_onlySource
    ((s.setCtx ctx (s.ctx ctx).abandoned).addSat (phIntakeA (s.hubOf ctx)) phIntakeAbandon 1) (32 * (73 + s.hubOf ctx) + 5)
  unfold State.abandonPacket
  rw [hframe]
  rfl

theorem State.abandonPacket_ctxs (s : State) (ctx : Nat) :
    (s.abandonPacket ctx).ctxs = (s.setCtx ctx (s.ctx ctx).abandoned).ctxs := State.raise_ctxs ..

/-- A hub's PH.INTAKE is no source's status word. -/
theorem phIntakeA_ne_evcSrcstatA {p : Nat} (hp : p < 16) (src : Nat) : phIntakeA p ≠ evcSrcstatA src := by
  unfold phIntakeA evcSrcstatA
  omega

theorem State.hubOf_lt (s : State) {c : Nat} (hc : c < 800) : s.hubOf c < 16 := by
  unfold State.hubOf
  split
  · omega
  · exact fget_lt _ phIntakeAdminHub

/-- The event of an abandoned packet does not reach the hub's count. -/
theorem State.abandonPacket_count (s : State) {ctx : Nat} (hctx : ctx < 800) :
    (s.abandonPacket ctx).fld (phIntakeA (s.hubOf ctx)) phIntakeAbandon =
      min (2 ^ phIntakeAbandon.width - 1) (s.fld (phIntakeA (s.hubOf ctx)) phIntakeAbandon + 1) := by
  have hout : phIntakeA (s.hubOf ctx) ∉ [evcSrcstatA (32 * (73 + s.hubOf ctx) + 5)] := by
    simpa using phIntakeA_ne_evcSrcstatA (s.hubOf_lt hctx) _
  obtain ⟨-, hregs⟩ := State.raise_onlySource
    ((s.setCtx ctx (s.ctx ctx).abandoned).addSat (phIntakeA (s.hubOf ctx)) phIntakeAbandon 1) (32 * (73 + s.hubOf ctx) + 5)
  exact (hregs.fld hout).trans (State.fld_addSat_same _ _ _ _ (by decide))

/-- Settles O6: the context is replaced, the hub's count rises, and the event reaches neither. -/
theorem intakeAbandonDropsPacket : Obligations.IntakeAbandonDropsPacket := by
  unfold Obligations.IntakeAbandonDropsPacket
  intro s now ctx s1 x p hctx hleft hstall
  have hctxs := State.ctx_of_ctxs (s1.abandonPacket_ctxs ctx)
  exact ⟨_, intakeAbandon_drops hctx hleft hstall, s1.abandonPacket_frame ctx, (hctxs ctx).trans (State.ctx_setCtx_same ..),
    fun d hd => (hctxs d).trans (State.ctx_setCtx_other _ _ _ _ hd), s1.abandonPacket_count hctx⟩

/-! ### CSB_READ (R236) -/

/-- What a read of the Context Status Block from an offset on leaves latched. -/
def State.latchOf (s : State) (ctx off : Nat) : List Byte := if off = 0 then s.csbOf ctx else (s.ctx ctx).latch

theorem csbRead_answers {s : State} {ctx off len : Nat} (hctx : ctx < 800) (hlen : len ≠ 0) :
    ∃ t, exec (.csbRead ctx off len) s = .next (t.answer (.bytes (fitBytes len ((s.latchOf ctx off).drop off)))) ∧ OnlyCtx s t ctx ∧
      t.ctx ctx = { s.ctx ctx with latch := s.latchOf ctx off } := by
  have hgo : ¬(800 ≤ ctx ∨ len = 0) := by omega
  have hread : exec (.csbRead ctx off len) s = .next (
      let s1 := if off = 0 then s.modCtx ctx (fun x => { x with latch := s.csbOf ctx }) else s
      s1.answer (.bytes (fitBytes len ((s1.ctx ctx).latch.drop off)))) := congrArg Host.Outcome.next (if_neg hgo)
  rw [hread]
  unfold State.latchOf
  by_cases hoff : off = 0
  · refine ⟨s.modCtx ctx (fun x => { x with latch := s.csbOf ctx }), ?_, State.setCtx_onlyCtx .., ?_⟩ <;>
      simp [hoff, State.modCtx]
  · exact ⟨s, by simp [hoff], ⟨rfl, fun _ _ => rfl⟩, by simp [hoff]⟩

/-- Settles O8: the latch is renewed at offset 0 alone, and the answer is read from it. -/
theorem csbReadLatches : Obligations.CsbReadLatches := by
  unfold Obligations.CsbReadLatches
  intro s ctx off len hctx hlen
  obtain ⟨t, hexec, ⟨hframe, hothers⟩, hlatch⟩ := csbRead_answers (s := s) (off := off) hctx hlen
  have hown : ((t.answer (.bytes (fitBytes len ((s.latchOf ctx off).drop off)))).ctx ctx).latch = s.latchOf ctx off :=
    congrArg Ctx.latch hlatch
  refine ⟨_, hexec, ?_, hothers, hown, ?_, ?_⟩
  · rw [hframe]
    rfl
  · rw [hown]
    exact hlatch
  · rw [hown]
    rfl

end Sys2Proof.Machine
end

section
/-!
PROOF. O7: what of a context a packet's check decides, and that the replies, records and ends which follow the check leave it alone.
-/

namespace Sys2Proof.Machine

/-! ### What follows a check -/

/-- Context `c` has in `t` the EXP_CSEQ, the packets waiting for a check, the suppression and as many commands as in `s`. -/
structure SameChecks (s t : State) (c : Nat) : Prop where
  expCseq : (t.ctx c).expCseq = (s.ctx c).expCseq
  ready : (t.ctx c).ready = (s.ctx c).ready
  suppress : (t.ctx c).suppress = (s.ctx c).suppress
  count : (t.ctx c).cmds.length = (s.ctx c).cmds.length

section Checks

variable {s t u : State} {c : Nat}

theorem SameChecks.of_ctx (h : t.ctx c = s.ctx c) : SameChecks s t c := by
  constructor <;> rw [h]

theorem SameChecks.of_ctxs (h : t.ctxs = s.ctxs) : SameChecks s t c := .of_ctx (State.ctx_of_ctxs h c)

theorem SameChecks.refl (s : State) (c : Nat) : SameChecks s s c := .of_ctxs rfl

theorem SameChecks.trans (h : SameChecks s t c) (h' : SameChecks t u c) : SameChecks s u c :=
  ⟨h'.expCseq.trans h.expCseq, h'.ready.trans h.ready, h'.suppress.trans h.suppress, h'.count.trans h.count⟩

/-- A step that may follow. -/
theorem SameChecks.thenIf {p : Prop} [Decidable p] (h : SameChecks s t c) (h' : SameChecks t u c) :
    SameChecks s (if p then u else t) c := by
  split
  · exact h.trans h'
  · exact h

end Checks

/-- A change of commands that keeps their number. -/
theorem State.modCtx_cmds_sameChecks (s : State) (ctx : Nat) (f : Ctx → List Cmd) (hf : ∀ x, (f x).length = x.cmds.length) (c : Nat) :
    SameChecks s (s.modCtx ctx (fun x => { x with cmds := f x })) c := by
  by_cases hc : c = ctx
  · subst hc
    constructor <;> simp [State.modCtx, hf]
  · exact .of_ctx (State.ctx_setCtx_other _ _ _ _ hc)

theorem State.modCmd_sameChecks (s : State) (ctx cseq : Nat) (f : Cmd → Cmd) (c : Nat) : SameChecks s (s.modCmd ctx cseq f) c :=
  s.modCtx_cmds_sameChecks ctx _ (fun _ => List.length_map _) c

theorem State.finish_sameChecks (s : State) (ctx cseq : Nat) (st : Status) (detail aux c : Nat) :
    SameChecks s (s.finish ctx cseq st detail aux) c :=
  (s.modCtx_cmds_sameChecks ctx _ (fun _ => List.length_map _) c).trans (.of_ctxs rfl)

/-! ### Replies (R231 to R235) -/

/-- A reply takes a reply sequence number of its context, and its bytes go to memory or the management port. -/
theorem State.writeReply_sameChecks (s : State) (c : Nat) (m : ReplyMsg) : SameChecks s (s.writeReply c m) c := by
  have htaken : ∀ n w, SameChecks s (s.setCtx c { s.ctx c with nextRseq := n, wraps := w }) c := fun _ _ => by constructor <;> simp
  unfold State.writeReply
  dsimp only
  split
  · exact (htaken _ _).trans (.of_ctxs (State.hold_ctxs ..))
  · exact ((htaken _ _).thenIf (.of_ctxs (State.store_ctxs ..))).trans (.of_ctxs (State.store_ctxs ..))

theorem State.flushDue_sameChecks (c : Nat) (head : Bool) (fuel : Nat) : ∀ s : State, SameChecks s (s.flushDue c head fuel) c := by
  induction fuel with
  | zero => exact fun s => .refl s c
  | succ fuel ih =>
    intro s
    unfold State.flushDue
    dsimp only
    split
    · exact .refl s c
    next d ds _ =>
      have hdue : SameChecks s (s.setCtx c { s.ctx c with due := ds }) c := by constructor <;> simp
      split
      · exact .refl s c
      · exact (hdue.trans (State.writeReply_sameChecks ..)).trans (ih _)

@[simp] theorem State.ringLevel_ctxs (s : State) (c : Nat) : (s.ringLevel c).ctxs = s.ctxs := by
  unfold State.ringLevel
  dsimp only
  split
  · rfl
  · split
    · rfl
    · exact s.level_ctxs ..

theorem State.flushReplies_sameChecks (s : State) (c : Nat) : SameChecks s (s.flushReplies c) c :=
  (State.flushDue_sameChecks ..).trans (.of_ctxs (State.ringLevel_ctxs ..))

/-! ### The pair list of a KV_EVICT (R279) -/

theorem State.touchOldest_sameChecks (s : State) (ctx c : Nat) : SameChecks s (s.touchOldest ctx) c := by
  have hread : ∀ source a n, SameChecks s (s.readMem source a n).st c := fun _ _ _ => .of_ctxs (s.readMem_ctxs ..)
  unfold State.touchOldest
  dsimp only
  split
  · split
    · split
      · exact ((hread ..).trans (State.modCmd_sameChecks ..)).trans (State.finish_sameChecks ..)
      · split
        · exact ((hread ..).trans (State.modCmd_sameChecks ..)).trans (State.finish_sameChecks ..)
        · exact (hread ..).trans (State.modCmd_sameChecks ..)
    · exact .refl s c
  · exact .refl s c

/-! ### Rejection and acceptance (R224, R225) -/

/-- A rejection keeps EXP_CSEQ, the packets that wait and the commands, and suppresses further replies. -/
theorem State.rejectPk_effect (s : State) (c : Nat) (pk : List Byte) (st : Status) :
    let x := s.ctx c
    let y := (s.rejectPk c pk st).ctx c
    y.expCseq = x.expCseq ∧ y.ready = x.ready ∧ y.suppress = true ∧ y.cmds.length = x.cmds.length := by
  obtain ⟨hexp, hready, hsup, hcount⟩ := State.flushReplies_sameChecks (s.setCtx c _) c
  simp only [State.ctx_setCtx_same] at hexp hready hsup hcount
  exact ⟨hexp, hready, hsup, hcount⟩

theorem Ctx.takeRack_ready (x : Ctx) (rack : Nat) : (x.takeRack rack).ready = x.ready := by
  simp only [Ctx.takeRack, apply_ite Ctx.ready, ite_self]

/-- A context that has accepted a packet as a command. -/
def Ctx.accept (x : Ctx) (pk : List Byte) (k : Cmd) : Ctx :=
  { x.takeRack (pRack pk) with
    expCseq := x.expCseq + 1, wraps := (if x.expCseq.toNat + 1 = two32 then x.wraps.1 + 1 else x.wraps.1, x.wraps.2),
    suppress := false, cmds := x.cmds ++ [k] }

theorem Ctx.accept_ready (x : Ctx) (pk : List Byte) (k : Cmd) : (x.accept pk k).ready = x.ready := by
  simp only [Ctx.accept, Ctx.takeRack_ready]

theorem Ctx.accept_cmds (x : Ctx) (pk : List Byte) (k : Cmd) : (x.accept pk k).cmds = x.cmds ++ [k] := rfl

/-- What follows an acceptance (replies, a record, the content check, the pair list) changes nothing of what the check decided. -/
theorem State.acceptPk_sameChecks (s : State) (c : Nat) (pk : List Byte) (isSealed sealOk : Bool) :
    ∃ k, SameChecks (s.setCtx c ((s.ctx c).accept pk k)) (s.acceptPk c pk isSealed sealOk) c := by
  have hrecorded : ∀ k, SameChecks (s.setCtx c ((s.ctx c).accept pk k))
      (let s1 := (s.setCtx c ((s.ctx c).accept pk k)).flushReplies c
       if s1.records c 0 then s1.recPut (partOf c) 3 (pCseq pk) pk else s1) c :=
    fun k => (State.flushReplies_sameChecks ..).thenIf (.of_ctxs (State.recPut_ctxs ..))
  unfold State.acceptPk
  dsimp only
  apply Exists.intro
  refine ((SameChecks.thenIf ?_ (State.modCmd_sameChecks ..)).trans (State.touchOldest_sameChecks ..)).trans
    (.of_ctxs (State.progress_ctxs ..))
  generalize State.contentCheck _ c isSealed pk = verdict
  rcases verdict with _ | ⟨st, detail⟩
  · dsimp only
    split
    · exact hrecorded _
    · exact (hrecorded _).trans (State.finish_sameChecks ..)
  · exact (hrecorded _).trans (State.finish_sameChecks ..)

/-- An acceptance puts the packet's command behind the others, raises EXP_CSEQ and ends the suppression. -/
theorem State.acceptPk_effect (s : State) (c : Nat) (pk : List Byte) (isSealed sealOk : Bool) :
    let x := s.ctx c
    let y := (s.acceptPk c pk isSealed sealOk).ctx c
    y.expCseq = x.expCseq + 1 ∧ y.ready = x.ready ∧ y.suppress = false ∧ y.cmds.length = x.cmds.length + 1 := by
  obtain ⟨k, hexp, hready, hsup, hcount⟩ := s.acceptPk_sameChecks c pk isSealed sealOk
  rw [State.ctx_setCtx_same] at hexp hready hsup hcount
  rw [Ctx.accept_ready] at hready
  rw [Ctx.accept_cmds, List.length_append] at hcount
  exact ⟨hexp, hready, hsup, hcount⟩

/-! ### PACKET_CHECK (R224) -/

section Unsealed

variable {s : State} {ctx : Nat} {pk : List Byte} {rest : List (List Byte)} (hctx : ctx ≤ 800) (hready : (s.ctx ctx).ready = pk :: rest)
  (hheld : s.checkHeld ctx = false) (hses : (s.ctx ctx).session = 0)
include hctx hready hheld hses

theorem packetCheck_unsealed : exec (.packetCheck ctx) s = .next (
    let s1 := s.setCtx ctx { s.ctx ctx with ready := rest }
    if pSealed pk = true then s1.rejectPk ctx pk .rejectedSealed
    else if pCseq pk ≠ (s.ctx ctx).expCseq.toNat then s1.rejectPk ctx pk .rejectedSeq
    else s1.acceptPk ctx pk false true) := by
  refine congrArg Host.Outcome.next ?_
  have hgo : ¬(800 < ctx ∨ s.checkHeld ctx = true) := by simp [hctx, hheld]
  simp only [hready, if_neg hgo, hses]
  simp

end Unsealed

/-- Settles O7: a sealed packet, one out of sequence and one in sequence, each by what its check decides. -/
theorem packetCheckDecides : Obligations.PacketCheckDecides := by
  unfold Obligations.PacketCheckDecides
  intro s ctx pk rest x hctx hready hheld hses
  have hexec := packetCheck_unsealed hctx hready hheld hses
  have htaken : (s.setCtx ctx { x with ready := rest }).ctx ctx = { x with ready := rest } := State.ctx_setCtx_same ..
  dsimp only at hexec
  refine ⟨fun hbad => ?_, fun hclear hseq => ?_⟩
  · have hrejected : ∃ st, exec (.packetCheck ctx) s = .next ((s.setCtx ctx { x with ready := rest }).rejectPk ctx pk st) := by
      by_cases hsealed : pSealed pk = true
      · exact ⟨_, hexec.trans (congrArg _ (if_pos hsealed))⟩
      · exact ⟨_, hexec.trans (congrArg _ ((if_neg hsealed).trans (if_pos (hbad.resolve_left hsealed))))⟩
    obtain ⟨st, hst⟩ := hrejected
    obtain ⟨hexp, hrest, hsup, hcount⟩ := (s.setCtx ctx { x with ready := rest }).rejectPk_effect ctx pk st
    rw [htaken] at hexp hrest hcount
    exact ⟨_, hst, hexp, hrest, hsup, hcount⟩
  · obtain ⟨hexp, hrest, hsup, hcount⟩ := (s.setCtx ctx { x with ready := rest }).acceptPk_effect ctx pk false true
    rw [htaken] at hexp hrest hcount
    refine ⟨_, hexec.trans (congrArg _ ?_), hexp, hrest, hsup, hcount⟩
    rw [if_neg (by simp [hclear]), if_neg (not_not_intro hseq)]

end Sys2Proof.Machine
end

section
/-!
PROOF. O50, refuted by its clause about TRAY_SYNC_REDRIVE. The redrive raises NEXT_COLL of the record it finds, and the statement bounds
no record's directory entry. The module has 64 entries (R377); the COLLSTAT address of an entry far beyond them is that of HM.SIDEBAND,
and the count written there covers the level of TRAY_SYNC that the redrive has just brought down. With an entry below 64 the clause holds.
-/

namespace Sys2Proof.Machine

/-! ### The TRAY_SYNC line (R369, R492, R497) -/

theorem OnlySource.trans {s t u : State} {src : Nat} (h : OnlySource s t src) (h' : OnlySource t u src) : OnlySource s u src := by
  obtain ⟨hframe, hregs⟩ := h
  obtain ⟨hframe', hregs'⟩ := h'
  refine ⟨?_, hregs.trans hregs'⟩
  rw [hframe', hframe]

theorem State.setEvSrc_onlySource (s : State) (src : Nat) (x : EvcSrc) : OnlySource s (s.setEvSrc src x) src :=
  ⟨rfl, RegsBut.of_regs _ rfl⟩

/-- A change of a level source's condition, through the glitch filter or not, changes nothing but that source. -/
theorem State.setLevel_onlySource (s : State) (src : Nat) (v : Bool) : OnlySource s (s.setLevel src v) src := by
  unfold State.setLevel
  by_cases hlevel : evcIsLevel src = true
  · have hsense : ∀ u : State, u.senseLevel src v = u.level src v := fun u => (if_pos hlevel).symm
    simp only [hlevel, Bool.not_true, Bool.false_eq_true, if_false, hsense]
    have hpin := fun x => s.setEvSrc_onlySource src x
    exact .ite (.ite ((hpin _).trans (State.level_onlySource ..)) (.ite (.refl s src) (hpin _))) (s.level_onlySource src v)
  · simp only [hlevel, Bool.not_false, if_true]
    exact .refl s src

/-- The line reads in HM.SIDEBAND as this module sees it. -/
theorem State.syncLine_flag (s : State) (v : Bool) : (s.syncLine v).flag hmSidebandA hmSidebandTraySync = v := by
  obtain ⟨-, hregs⟩ := (s.setFld hmSidebandA hmSidebandTraySync (b2n v)).setLevel_onlySource (32 * 95 + 7) v
  refine (hregs.flag (by decide)).trans ?_
  simp only [State.flag, State.fld_setFld_same _ _ _ _ (show hmSidebandTraySync.lo + hmSidebandTraySync.width ≤ 64 by decide)]
  cases v <;> rfl

theorem State.syncLine_frame (s : State) (v : Bool) :
    s.syncLine v = { s with regs := (s.syncLine v).regs, evc := (s.syncLine v).evc } :=
  ((s.setFld hmSidebandA hmSidebandTraySync (b2n v)).setLevel_onlySource (32 * 95 + 7) v).1

/-- A module that drives the line low changes no other part of the state but registers and event sources. -/
theorem State.driveSync_low_frame (s : State) : s.driveSync true =
    { s with pins := { s.pins with traySync := true }, regs := (s.driveSync true).regs, evc := (s.driveSync true).evc } :=
  State.syncLine_frame ..

theorem State.driveSync_low_flag (s : State) : (s.driveSync true).flag hmSidebandA hmSidebandTraySync = false :=
  State.syncLine_flag ..

/-! ### The end of a collective (R362) -/

theorem State.nextUp_nextOf (s : State) (i n : Nat) : (s.nextUp i n).nextOf i = (n + 1) % two32 :=
  State.fld_setFld_same _ _ _ _ (by decide)

theorem State.nextUp_colls (s : State) (i n : Nat) : ∀ q ∈ (s.nextUp i n).colls, ¬(q.entry = i ∧ q.coll = n) := fun q hq => by
  have hkept : q ∈ s.colls.filter (fun k => !decide (k.entry = i ∧ k.coll = n)) := hq
  simpa only [Bool.not_eq_true', decide_eq_false_iff_not] using (List.mem_filter.mp hkept).2

/-- A register that is not the entry's COLLSTAT reads as before. -/
theorem State.nextUp_flag_elsewhere (s : State) (i n a : Nat) (f : Fld) (h : a ≠ fdCollstatA i) :
    (s.nextUp i n).flag a f = s.flag a f := by
  simp only [State.flag, State.nextUp, State.fld_setFld_elsewhere _ _ _ _ _ _ h]
  rfl

/-! ### TRAY_SYNC_REDRIVE (R369) -/

/-- The collective on TRAY_SYNC whose rise lies 200 ns back, if there is one. -/
def State.redrives (s : State) : Option Coll :=
  s.colls.find? (fun k => k.tray && k.release.any (fun t => decide (t + 200 ≤ s.gtime)))

theorem traySyncRedrive_next {s : State} {now : Nat} {k : Coll} (hk : (s.advance now).redrives = some k) :
    exec (.traySyncRedrive now) s = .next (((s.advance now).driveSync true).nextUp k.entry k.coll) := by
  unfold State.redrives at hk
  refine congrArg Host.Outcome.next ?_
  simp only [hk]

/-- The COLLSTAT addresses of the 64 entries lie below HM.SIDEBAND. -/
theorem hmSidebandA_ne_fdCollstatA {i : Nat} (hi : i < 64) : hmSidebandA ≠ fdCollstatA i := by
  unfold hmSidebandA fdCollstatA
  omega

/-- The redrive of a collective of one of the 64 entries drives the line low and closes the collective. -/
theorem traySyncRedrive_closes {s : State} {now : Nat} {k : Coll} (hk : (s.advance now).redrives = some k) (hentry : k.entry < 64) :
    ∃ t, exec (.traySyncRedrive now) s = .next t ∧ t.pins.traySync = true ∧ t.flag hmSidebandA hmSidebandTraySync = false ∧
      (∀ q ∈ t.colls, ¬(q.entry = k.entry ∧ q.coll = k.coll)) ∧ t.nextOf k.entry = (k.coll + 1) % two32 ∧
      SameMem (s.advance now) t := by
  refine ⟨_, traySyncRedrive_next hk, ?_, ?_, State.nextUp_colls _ _ _, State.nextUp_nextOf _ _ _, SameMem.of_mem ?_⟩
  · change ((s.advance now).driveSync true).pins.traySync = true
    rw [State.driveSync_low_frame]
  · exact (State.nextUp_flag_elsewhere _ _ _ _ _ (hmSidebandA_ne_fdCollstatA hentry)).trans (State.driveSync_low_flag _)
  · change ((s.advance now).driveSync true).mem = (s.advance now).mem
    rw [State.driveSync_low_frame]

/-! ### An entry whose COLLSTAT is HM.SIDEBAND -/

/-- The number of a directory entry, were there so many, whose COLLSTAT address is that of HM.SIDEBAND. -/
def sidebandEntry : Nat := (hmSidebandA - fdCollstatA 0) / 8

theorem fdCollstatA_sidebandEntry : fdCollstatA sidebandEntry = hmSidebandA := by decide

/-- In one register, TRAY_SYNC of HM.SIDEBAND is bit 10 of NEXT_COLL of FD.COLLSTAT. -/
theorem fget_traySync_eq_nextColl (w : Word) : fget w hmSidebandTraySync = bits (fget w fdCollstatNextColl) 10 1 := by
  simp only [fget, bits, Nat.shiftRight_eq_div_pow]
  omega

/-- The end of a collective of that entry writes bit 10 of its next number to TRAY_SYNC. -/
theorem State.nextUp_sidebandEntry_flag (s : State) (n : Nat) :
    (s.nextUp sidebandEntry n).flag hmSidebandA hmSidebandTraySync = decide (bits ((n + 1) % two32) 10 1 ≠ 0) := by
  have hnext := s.nextUp_nextOf sidebandEntry n
  unfold State.nextOf State.fld at hnext
  rw [fdCollstatA_sidebandEntry] at hnext
  simp only [State.flag, State.fld, fget_traySync_eq_nextColl, hnext]

/-- Collective 1,023 of that entry on TRAY_SYNC, its rise at GTIME 0. -/
def sidebandColl : Coll := ⟨sidebandEntry, 1023, 0, none, false, [], [], true, true, some 0, []⟩

/-- The reset state 200 ns on, with that collective alone. -/
def sidebandState : State := { State.reset with gtime := 200, colls := [sidebandColl] }

/-- Refutes O50: with a record of entry `sidebandEntry` and number 1,023, the redrive leaves HM.SIDEBAND.TRAY_SYNC at 1, since NEXT_COLL,
raised to 1,024, is written over it. -/
theorem not_barriersReportAndRelease : ¬ Obligations.BarriersReportAndRelease := by
  unfold Obligations.BarriersReportAndRelease
  rintro ⟨-, -, -, -, hredrive⟩
  have hfound : (sidebandState.advance 0).redrives = some sidebandColl := rfl
  obtain ⟨t, hexec, -, hlow, -⟩ := hredrive sidebandState 0 sidebandColl hfound
  obtain rfl : _ = t := Host.Outcome.next.inj ((traySyncRedrive_next hfound).symm.trans hexec)
  have hhigh := ((sidebandState.advance 0).driveSync true).nextUp_sidebandEntry_flag 1023
  exact absurd (hlow.symm.trans hhigh) (by decide)

end Sys2Proof.Machine
end

section
/-!
PROOF. O56, refuted by its clause about TAKEOVER. A new owner completes the sources that were active at the old one, and the settling that
ends this lands the pending writes of every source that the state lists. The controller has 4,096 sources (R492), but the statement bounds
no listed source's number; the SRCSTAT address of a number far beyond them is that of HM.ROLE, and a mode that lands there clears the OWNER
that the takeover has just written. With every listed source below 4,096 the new die is named
(`takeover_namesOtherDie`).
-/

namespace Sys2Proof.Machine

/-! ### Event sources and registers above the status words (R492, R503, R514) -/

theorem evcSrcstatA_lt {src : Nat} (h : src < 4096) : evcSrcstatA src < evcSrcstatA 4096 := by
  unfold evcSrcstatA
  omega

theorem evcSrccfgA_lt {src : Nat} (h : src < 4096) : evcSrccfgA src < evcSrcstatA 4096 := by
  unfold evcSrccfgA evcSrcstatA
  omega

/-- The completion of a source writes its status word alone. -/
theorem State.completeSrc_onlySource (s : State) (src : Nat) : OnlySource s (s.completeSrc src) src := by
  have hactive := (OnlySource.refl s src).setFld evcSrcstatActive 0
  exact .ite (hactive.setFld evcSrcstatPending 1) hactive

theorem RegsBut.setEvSrc {s t : State} {as : List Nat} (h : RegsBut s t as) (src : Nat) (x : EvcSrc) : RegsBut s (t.setEvSrc src x) as := h

/-- The landing of a source's pending writes writes its configuration and its status word alone. -/
theorem State.evSettleOne_regsBut (s : State) (src : Nat) : RegsBut s (s.evSettleOne src) [evcSrccfgA src, evcSrcstatA src] := by
  have hrefl := RegsBut.refl s [evcSrccfgA src, evcSrcstatA src]
  have hcfg : evcSrccfgA src ∈ [evcSrccfgA src, evcSrcstatA src] := by simp
  have hstat : evcSrcstatA src ∈ [evcSrccfgA src, evcSrcstatA src] := by simp
  unfold State.evSettleOne
  extract_lets x s1 s2
  have hmode : RegsBut s s1 [evcSrccfgA src, evcSrcstatA src] := by
    unfold s1
    split
    · exact ((hrefl.setFld hcfg _).setFld hcfg _).setReg hstat _
    · exact hrefl
  have hroute : RegsBut s s2 [evcSrccfgA src, evcSrcstatA src] := by
    unfold s2
    split
    · exact (hmode.setFld hcfg _).setFld hstat 0
    · exact hmode
  split
  · exact hrefl
  · exact hroute.setEvSrc src _

theorem State.evSettleOne_mgmt (s : State) (src : Nat) : (s.evSettleOne src).mgmt = s.mgmt := by
  unfold State.evSettleOne
  extract_lets x s1 s2
  have hmode : s1.mgmt = s.mgmt := by
    unfold s1
    split <;> rfl
  have hroute : s2.mgmt = s.mgmt := by
    unfold s2
    split <;> exact hmode
  split
  · rfl
  · exact hroute

theorem State.evSettle_mgmt (s : State) : s.evSettle.mgmt = s.mgmt :=
  List.foldlRecOn (motive := fun t : State => t.mgmt = s.mgmt) _ _ rfl (fun t ht src _ => (t.evSettleOne_mgmt src).trans ht)

theorem State.completeSrc_mgmt (s : State) (src : Nat) : (s.completeSrc src).mgmt = s.mgmt := by
  rw [(s.completeSrc_onlySource src).1]

theorem State.evOwnerChange_mgmt (s : State) (old : Nat) : (s.evOwnerChange old).mgmt = s.mgmt := by
  refine (State.evSettle_mgmt _).trans ?_
  refine List.foldlRecOn (motive := fun t : State => t.mgmt = s.mgmt) _ _ rfl (fun t ht src _ => ?_)
  split
  · exact (t.completeSrc_mgmt src).trans ht
  · exact ht

/-- The settling of sources below 4,096 leaves every register above the status words. -/
theorem State.evSettle_reg_above {s : State} {a : Nat} (hkeys : ∀ e ∈ s.evc, e.1 < 4096) (ha : evcSrcstatA 4096 ≤ a) :
    s.evSettle.reg a = s.reg a := by
  unfold State.evSettle
  refine List.foldlRecOn (motive := fun t : State => t.reg a = s.reg a) _ _ rfl (fun t ht src hsrc => ?_)
  obtain ⟨e, he, rfl⟩ := List.mem_map.mp hsrc
  have hlt := hkeys e (List.mem_filter.mp he).1
  have hcfg := evcSrccfgA_lt hlt
  have hstat := evcSrcstatA_lt hlt
  refine (t.evSettleOne_regsBut e.1 a ?_).trans ht
  simp only [List.mem_cons, List.not_mem_nil, or_false, not_or]
  omega

/-- A listed status word belongs to a source below 4,096. -/
theorem State.evListed_lt {s : State} {src : Nat} (h : src ∈ s.evListed) : src < 4096 := by
  obtain ⟨e, he, rfl⟩ := List.mem_map.mp h
  have hrange := (List.mem_filter.mp he).2
  simp only [Bool.and_eq_true, decide_eq_true_eq] at hrange
  unfold evcSrcstatA at hrange ⊢
  omega

/-- A change of the owner leaves every register above the status words, while all sources held are below 4,096. -/
theorem State.evOwnerChange_reg_above {s : State} {a : Nat} (old : Nat) (hkeys : ∀ e ∈ s.evc, e.1 < 4096)
    (ha : evcSrcstatA 4096 ≤ a) : (s.evOwnerChange old).reg a = s.reg a := by
  have hcompleted : ∀ l : List Nat, (∀ src ∈ l, src < 4096) →
      let t := l.foldl (fun s src => if s.flag (evcSrcstatA src) evcSrcstatActive ∧ (s.evSrc src).activeAt = 68 + old
        then s.completeSrc src else s) s
      t.evc = s.evc ∧ t.reg a = s.reg a := fun l hl => by
    refine List.foldlRecOn (motive := fun t : State => t.evc = s.evc ∧ t.reg a = s.reg a) l _ ⟨rfl, rfl⟩ (fun t ht src hsrc => ?_)
    obtain ⟨hevc, hreg⟩ := ht
    have hstat := evcSrcstatA_lt (hl src hsrc)
    split
    · refine ⟨?_, ((t.completeSrc_onlySource src).2 a ?_).trans hreg⟩
      · unfold State.completeSrc
        split <;> exact hevc
      · rw [List.mem_singleton]
        omega
    · exact ⟨hevc, hreg⟩
  obtain ⟨hevc, hreg⟩ := hcompleted s.evListed (fun _ => State.evListed_lt)
  exact (State.evSettle_reg_above (hevc ▸ hkeys) ha).trans hreg

/-- A table entry after a write is the one written or one of before. -/
theorem kvSet_key {ν : Type} [DecidableEq ν] {d : ν} {m : Kv ν} {k : Nat} {v : ν} {e : Nat × ν} (h : e ∈ kvSet d m k v) :
    e.1 = k ∨ e ∈ m := by
  simp only [kvSet, kvBelow, kvFrom, List.mem_append, List.mem_filter] at h
  rcases h with (⟨hm, -⟩ | hv) | ⟨hm, -⟩
  · exact .inr hm
  · split at hv
    · simp at hv
    · rw [List.mem_singleton.mp hv]
      exact .inl rfl
  · exact .inr hm

/-- An occurrence at a source below 4,096 adds no source from 4,096 on. -/
theorem State.raise_evc_lt {s : State} {src : Nat} (hsrc : src < 4096) (hkeys : ∀ e ∈ s.evc, e.1 < 4096) :
    ∀ e ∈ (s.raise src).evc, e.1 < 4096 := by
  intro e he
  unfold State.raise State.raiseInfo at he
  split at he
  · rcases kvSet_key he with hk | hm
    · omega
    · exact hkeys e hm
  · exact hkeys e he

/-- The state in which die `d` has the latch and stands in OWNER, its epoch begun. -/
def State.named (s : State) (d : Nat) : State :=
  (({ s with mgmt := { s.mgmt with latch := some d } } : State).setFld hmRoleA hmRoleOwner d).addWrap hmRoleA hmRoleOwnerEpoch 1

theorem State.newOwner_eq (s : State) (old d : Nat) : s.newOwner old d = (((s.named d).raise (32 * 93)).ibi 3).evOwnerChange old := rfl

theorem State.ibi_held (s : State) (n : Nat) : (s.ibi n).mgmt.held = s.mgmt.held := rfl

theorem State.newOwner_held (s : State) (old d : Nat) : (s.newOwner old d).mgmt.held = s.mgmt.held := by
  have hraise : ((s.named d).raise (32 * 93)).mgmt = (s.named d).mgmt := by rw [((s.named d).raise_onlySource (32 * 93)).1]
  rw [State.newOwner_eq, State.evOwnerChange_mgmt, State.ibi_held, hraise]
  rfl

theorem State.named_owner (s : State) {d : Nat} (hd : d < 2) : (s.named d).fld hmRoleA hmRoleOwner = d := by
  unfold State.named State.addWrap
  rw [State.fld_setFld_other _ _ _ _ _ (by decide) (by decide), State.fld_setFld_same _ _ _ _ (by decide)]
  exact Nat.mod_eq_of_lt hd

theorem State.ibi_reg (s : State) (n a : Nat) : (s.ibi n).reg a = s.reg a := rfl

theorem State.ibi_evc (s : State) (n : Nat) : (s.ibi n).evc = s.evc := rfl

theorem State.named_evc (s : State) (d : Nat) : (s.named d).evc = s.evc := rfl

/-- A new owner among the two dies stands in OWNER, while all sources held are below 4,096. -/
theorem State.newOwner_owner (s : State) (old : Nat) {d : Nat} (hd : d < 2) (hkeys : ∀ e ∈ s.evc, e.1 < 4096) :
    (s.newOwner old d).fld hmRoleA hmRoleOwner = d := by
  obtain ⟨-, hraise⟩ := (s.named d).raise_onlySource (32 * 93)
  have hevents : (s.newOwner old d).reg hmRoleA = ((s.named d).raise (32 * 93)).reg hmRoleA := by
    have hraised := State.raise_evc_lt (s := s.named d) (src := 32 * 93) (by decide) ((s.named_evc d).symm ▸ hkeys)
    rw [State.newOwner_eq, State.evOwnerChange_reg_above old ((State.ibi_evc _ 3).symm ▸ hraised) (by decide), State.ibi_reg]
  unfold State.fld
  rw [hevents]
  exact (hraise.fld (by decide)).trans (s.named_owner hd)

/-! ### TAKEOVER without an image and without held outputs (R440, R441) -/

/-- The state in which the standby of die `d` takes the latch: the dies' records and the cycle are the new owner's. -/
def State.seizing (s : State) (d : Nat) : State :=
  let old := s.hasia d
  let back := decide (old.tookBack = 0) || decide (old.tookBack + 3600000000000 ≤ s.gtime)
  let s1 := s.setHasia d { old with mayReturn := back }
  let s2 := s1.setHasia (otherDie d) { s.hasia (otherDie d) with st := 4, hb := s.gtime }
  let n := ceilDiv (s.gtime - s.mgmt.cycleAt) 1000000
  let s3 : State := { s2 with mgmt := { s2.mgmt with
    held := s.mgmt.held, sent := none, image := none, accepted := 0, ackRun := 0, badRun := 0, swapReq := false,
    requests := s2.askAgain, cycle := s2.mgmt.cycle + n, cycleAt := s2.mgmt.cycleAt + 1000000 * n } }
  s3.setFld hmRoleA hmRoleStandbyOk 0

theorem State.setHasia_evc (s : State) (d : Nat) (x : Hasia) : (s.setHasia d x).evc = s.evc := by
  unfold State.setHasia
  extract_lets s1
  split <;> rfl

theorem State.seizing_evc (s : State) (d : Nat) : (s.seizing d).evc = s.evc :=
  (State.setHasia_evc _ (otherDie d) _).trans (s.setHasia_evc d _)

theorem State.seizing_held (s : State) (d : Nat) : (s.seizing d).mgmt.held = s.mgmt.held := rfl

/-- The new owner's state before its first outputs, the takeover counted and its gap taken. -/
def State.seized (s : State) (d : Nat) : State :=
  (((s.seizing d).newOwner d (otherDie d)).addSat hmRoleA hmRoleTakeovers 1).gapFrom s.mgmt.releasedAt

/-- The hubs whose power domain is on. -/
def State.hubsOn (s : State) : List Nat := (List.range 12).filter (fun p => s.domOn (72 + p))

/-- Keepalives held for the hubs are added to the outputs held, and nothing else changes. -/
theorem State.foldl_hold_keep (l : List Nat) : ∀ s : State,
    l.foldl (fun s p => s.hold (.keep p)) s = { s with mgmt := { s.mgmt with held := s.mgmt.held ++ l.map .keep } } := by
  induction l with
  | nil => exact fun s => by simp
  | cons p l ih => exact fun s => by rw [List.foldl_cons, ih, List.map_cons, ← List.singleton_append, ← List.append_assoc]; rfl

/-- The release of keepalives writes no register of the management space. -/
theorem State.releaseFirst_keep_reg {s : State} {n a : Nat} (hkeep : ∀ h ∈ s.mgmt.held, ∃ p, p < 12 ∧ h = .keep p) (ha : hmRoleA ≤ a) :
    (s.releaseFirst n).reg a = s.reg a := by
  change ((s.mgmt.held.take n).foldl State.releaseOne s).reg a = s.reg a
  refine List.foldlRecOn (motive := fun t : State => t.reg a = s.reg a) _ _ rfl (fun t ht h hh => ?_)
  obtain ⟨p, hp, rfl⟩ := hkeep h (List.mem_of_mem_take hh)
  have hne : a ≠ phPwrcapA p := by unfold phPwrcapA; unfold hmRoleA at ha; omega
  exact (State.reg_setReg_other _ _ _ _ hne).trans ht

theorem State.addSat_mgmt (s : State) (a : Nat) (f : Fld) (n : Nat) : (s.addSat a f n).mgmt = s.mgmt := rfl

theorem State.gapFrom_mgmt (s : State) (old : Nat) : (s.gapFrom old).mgmt = s.mgmt := rfl

theorem State.seized_held (s : State) (d : Nat) : (s.seized d).mgmt.held = s.mgmt.held := by
  rw [State.seized, State.gapFrom_mgmt, State.addSat_mgmt, State.newOwner_held, State.seizing_held]

/-- What the new owner counts in HM.ROLE leaves OWNER as it was. -/
theorem State.seized_owner (s : State) (d : Nat) :
    (s.seized d).fld hmRoleA hmRoleOwner = ((s.seizing d).newOwner d (otherDie d)).fld hmRoleA hmRoleOwner := by
  unfold State.seized State.gapFrom State.addSat
  rw [State.fld_setFld_other _ _ _ _ _ (by decide) (by decide), State.fld_setFld_other _ _ _ _ _ (by decide) (by decide)]

/-- The keepalives of the hubs that are on, held and released with no other output, write no register of the management space. -/
theorem State.releaseHeld_hubs_reg {s : State} {a : Nat} (hheld : s.mgmt.held = []) (ha : hmRoleA ≤ a) :
    (s.hubsOn.foldl (fun s p => s.hold (.keep p)) s).releaseHeld.reg a = s.reg a := by
  rw [State.foldl_hold_keep, hheld, List.nil_append]
  refine State.releaseFirst_keep_reg (fun h hh => ?_) ha
  obtain ⟨p, hp, rfl⟩ := List.mem_map.mp hh
  exact ⟨p, List.mem_range.mp (List.mem_filter.mp hp).1, rfl⟩

theorem State.fld_loseDumps (s : State) (a : Nat) (f : Fld) : State.fld { s with dumps := [] } a f = s.fld a f := rfl

section Takeover

variable {s : State} {now d : Nat} (hlatch : (s.advance now).mgmt.latch = some d) (hold : ((s.advance now).hasia d).st = 6)
  (hnew : ((s.advance now).hasia (1 - d)).st = 3) (hsilent : ((s.advance now).hasia d).hb + 2000000 ≤ (s.advance now).gtime)
  (himage : (s.advance now).mgmt.image = none)

include hlatch hold hnew hsilent himage

/-- A takeover without an image whose check finds no path failed: the hubs that are on get their keepalives, and the dumps are lost. -/
theorem takeover_next :
    let u := (s.advance now).seized d
    exec (.takeover now []) s = .next { (u.hubsOn.foldl (fun s p => s.hold (.keep p)) u).releaseHeld with dumps := [] } := by
  have hready : ¬(((s.advance now).hasia d).st ≠ 6 ∨ ((s.advance now).hasia (otherDie d)).st ≠ 3) := by
    simpa [hold, otherDie] using hnew
  have hnobeat : ¬(s.advance now).gtime < ((s.advance now).hasia d).hb + 2000000 := Nat.not_lt.mpr hsilent
  change execTakeover now [] s = _
  unfold execTakeover
  simp only [hlatch, himage, hready, hnobeat, if_false]
  rfl

/-- After such a takeover with no output held, OWNER reads as the change of the owner left it. -/
theorem takeover_owner (hheld : (s.advance now).mgmt.held = []) :
    ∃ t, exec (.takeover now []) s = .next t ∧
      t.fld hmRoleA hmRoleOwner = (((s.advance now).seizing d).newOwner d (otherDie d)).fld hmRoleA hmRoleOwner := by
  refine ⟨_, takeover_next hlatch hold hnew hsilent himage, ?_⟩
  have hreleased := State.releaseHeld_hubs_reg (((s.advance now).seized_held d).trans hheld) (Nat.le_refl hmRoleA)
  rw [State.fld_loseDumps, State.fld, hreleased]
  exact (s.advance now).seized_owner d

/-- While all sources held are below 4,096, such a takeover names the other die. -/
theorem takeover_namesOtherDie (hheld : (s.advance now).mgmt.held = []) (hkeys : ∀ e ∈ (s.advance now).evc, e.1 < 4096) :
    ∃ t, exec (.takeover now []) s = .next t ∧ t.fld hmRoleA hmRoleOwner = 1 - d := by
  obtain ⟨t, hexec, howner⟩ := takeover_owner hlatch hold hnew hsilent himage hheld
  refine ⟨t, hexec, howner.trans (State.newOwner_owner _ d (by unfold otherDie; omega) ?_)⟩
  rw [State.seizing_evc]
  exact hkeys

end Takeover

/-! ### A source whose SRCSTAT is HM.ROLE -/

/-- The number of an event source, were there so many, whose SRCSTAT address is that of HM.ROLE. -/
def roleSource : Nat := (hmRoleA - evcSrcstatA 0) / 8

theorem evcSrcstatA_roleSource : evcSrcstatA roleSource = hmRoleA := by decide

theorem State.fld_setEvSrc (s : State) (n a : Nat) (x : EvcSrc) (f : Fld) : (s.setEvSrc n x).fld a f = s.fld a f := rfl

/-- A mode that lands at that source, in whose place PRIMARY is 0, clears PENDING and with it OWNER, the same bit. -/
theorem State.evSettleOne_roleSource_owner {s : State} {m f : Nat} (hmode : (s.evSrc roleSource).pendMode = some (m, f))
    (hroute : (s.evSrc roleSource).pendRoute = none) (hidle : s.flag hmRoleA hmRolePrimary = false) (hloses : s.selected roleSource = false) :
    (s.evSettleOne roleSource).fld hmRoleA hmRoleOwner = 0 := by
  have hactive : s.flag hmRoleA evcSrcstatActive = false := hidle
  have hedge : evcIsLevel roleSource = false := by decide
  unfold State.evSettleOne
  simp only [hmode, hroute, hactive, hloses, hedge, evcSrcstatA_roleSource, Option.isNone_some, Bool.and_false, Bool.or_false,
    Bool.false_eq_true, false_and, if_false]
  rw [State.fld_setEvSrc, State.fld, State.reg_setReg_same, fget_fset_other _ _ _ _ (by decide) (by decide),
    fget_fset_other _ _ _ _ (by decide) (by decide)]
  exact fget_fset_same _ evcSrcstatPending 0 (by decide)

/-- HM-A silent for 2 ms and holding the latch, HM-B standing by, and a mode of that source waiting to land. -/
def clashState : State :=
  { State.reset with
    gtime := 2000000
    evc := [(roleSource, { EvcSrc.init with pendMode := some (0, 0) })]
    mgmt := { Mgmt.init with a := { Hasia.init with st := 6 }, b := { Hasia.init with st := 3 }, latch := some 0 } }

/-- In `clashState` the change of the owner lands that mode. -/
theorem clashState_newOwner : ((clashState.advance 0).seizing 0).newOwner 0 (otherDie 0) =
    ((((clashState.advance 0).seizing 0).named 1).raise (32 * 93) |>.ibi 3).evSettleOne roleSource := rfl

theorem clashState_owner : (((clashState.advance 0).seizing 0).newOwner 0 (otherDie 0)).fld hmRoleA hmRoleOwner = 0 := by
  rw [clashState_newOwner]
  exact State.evSettleOne_roleSource_owner (m := 0) (f := 0) rfl rfl rfl rfl

/-- Refutes O56: with a mode of source `roleSource` waiting to land, the takeover of HM-B leaves OWNER of HM.ROLE at 0 in place of 1, since
the settling of the event sources clears PENDING of that source, the same bit. -/
theorem not_hasiaPair : ¬ Obligations.HasiaPair := by
  unfold Obligations.HasiaPair
  intro h
  obtain ⟨-, -, -, htakeover, -⟩ := h clashState 0
  obtain ⟨-, hnamed⟩ := htakeover 0 rfl rfl rfl
  obtain ⟨t, hexec, -, -, howner, -⟩ := hnamed (by decide) rfl rfl
  obtain ⟨u, hrun, hkept⟩ := takeover_owner (s := clashState) (now := 0) (d := 0) rfl rfl rfl (by decide) rfl rfl
  obtain rfl : u = t := Host.Outcome.next.inj (hrun.symm.trans hexec)
  exact absurd (howner.symm.trans (hkept.trans clashState_owner)) (by decide)

end Sys2Proof.Machine
end

section
/-!
SUPPORT. A route written to a source may make that source the winner of its target: the mark ROUTE_PEND is a write of its status word, which
puts the word back in the order of the register table, and the sources of one priority are selected in that order.
-/

namespace Sys2Proof.Machine

/-- A source that is selected keeps its pending route and mode (R498, R503). -/
theorem State.evSettleOne_of_selected {s : State} {src : Nat} (h : s.selected src = true) : s.evSettleOne src = s := by
  simp [State.evSettleOne, h]

/-- `s` with a new route of a source waiting to land (R503). -/
def State.routeMarked (s : State) (src r : Nat) : State :=
  (s.setEvSrc src { s.evSrc src with pendRoute := some r }).setFld (evcSrcstatA src) evcSrcstatRoutePend 1

theorem State.routeMarked_routePend (s : State) (src r : Nat) :
    (s.routeMarked src r).flag (evcSrcstatA src) evcSrcstatRoutePend = true := by
  rw [State.flag, State.routeMarked, State.fld_setFld_same _ _ _ _ (by decide)]
  rfl

/-- A route that differs from the present one is marked and lands where the settling lets it. -/
theorem routeWrite_marks {s : State} {src r : Nat} {w : Writer} (hsrc : src < 4096) (hmay : s.evcMayWrite (src / 32) w = true) (hr : r < 70)
    (hne : r ≠ s.fld (evcSrccfgA src) evcSrccfgRoute) : exec (.routeWrite src r w) s = .next (s.routeMarked src r).evSettle := by
  have hmod : r % 128 = r := Nat.mod_eq_of_lt (by omega)
  show execRouteWrite src r w s = _
  simp only [execRouteWrite, hmod, hmay, hne, Nat.not_le.mpr hsrc, Nat.not_le.mpr hr, Bool.not_true, Bool.false_eq_true, false_and, if_false]
  rfl

/-- Sources 3 and 5 pending for target 44 at one priority, with the status word of source 5 before that of source 3 in the register table. -/
def disorderState : State :=
  { State.reset with regs := [(evcSrcstatA 5, 1), (evcSrcstatA 3, 1), (evcGctlA, 0)] }

/-- Source 5 stands first and wins, so source 3 is not selected. -/
theorem disorderState_selected : disorderState.selected 3 = false := by decide

/-- The mark of a new route puts the word of source 3 before that of source 5: now source 3 wins. -/
theorem disorderState_marked_selected : (disorderState.routeMarked 3 0).selected 3 = true := by decide

theorem disorderState_marked_evSettle : (disorderState.routeMarked 3 0).evSettle = disorderState.routeMarked 3 0 :=
  State.evSettleOne_of_selected disorderState_marked_selected

/-- Refutes O58: in `disorderState`, whose register table is out of order, source 3 is neither active nor selected, and yet a route written
to it does not land, since the write of its ROUTE_PEND makes it the winner of target 44 in place of source 5. -/
theorem not_eventController : ¬ Obligations.EventController := by
  unfold Obligations.EventController
  intro h
  obtain ⟨-, -, hconfig, -⟩ := h disorderState 0
  obtain ⟨-, -, -, hroute⟩ := hconfig (List.forall_mem_nil _) 3 .host (by decide)
  have hmay : disorderState.evcMayWrite (3 / 32) .host = true := by decide
  have hne : 0 ≠ disorderState.fld (evcSrccfgA 3) evcSrccfgRoute := by decide
  have hidle : disorderState.flag (evcSrcstatA 3) evcSrcstatActive = false := by decide
  obtain ⟨-, hlands⟩ := hroute 0 (by decide) hmay
  obtain ⟨t, hexec, hlanded, -⟩ := (hlands (.inl (by decide)) hne).2 hidle disorderState_selected
  have hrun := routeWrite_marks (by decide) hmay (by decide) hne
  rw [disorderState_marked_evSettle] at hrun
  obtain rfl : disorderState.routeMarked 3 0 = t := Host.Outcome.next.inj (hrun.symm.trans hexec)
  exact absurd (hlanded.symm.trans (State.routeMarked_routePend _ 3 0)) (by decide)

end Sys2Proof.Machine
end
